-- ==== Sys2Proof/Word.lean ====
section
/-! DEFINITION. The word types of the HN46 guide: bytes on the links and in the Image Store, client addresses,
flow digests and request tags, and the two helpers of a table with a fixed number of slots. -/

namespace Sys2Proof

/-- One byte of a frame, a message or the Image Store. -/
abbrev Byte := BitVec 8

/-- A client's 48-bit hardware address (00_scope.md section 5.0, "Client ids"). -/
abbrev ClientId := BitVec 48

/-- The host's 32-bit identifier of a flow, unique per client (R102). -/
abbrev Digest := BitVec 32

/-- The 16-bit tag of a request and its reply (R172). -/
abbrev Tag := BitVec 16

/-- A 32-bit CRC value (section 12.5). -/
abbrev Crc := BitVec 32

/-- A table with one slot replaced. -/
def putSlot {α : Type} {n : Nat} (v : Vector α n) (i : Fin n) (x : α) : Vector α n :=
  v.set i.val x i.isLt

theorem putSlot_get_same {α : Type} {n : Nat} (v : Vector α n) (i : Fin n) (x : α) :
    (putSlot v i x)[i] = x := by
  simp [putSlot]

theorem putSlot_get_other {α : Type} {n : Nat} (v : Vector α n) (i j : Fin n) (x : α) (h : i ≠ j) :
    (putSlot v i x)[j] = v[j] := by
  have h' : i.val ≠ j.val := fun e => h (Fin.ext e)
  simp [putSlot, h']

end Sys2Proof
end

