-- ==== Sys2Proof/Config.lean ====
section
/-! DEFINITION. The figures the guide fixes for every HN46: capacities (00_scope.md section 4.3), durations in
milliseconds of running time, and the ranges and defaults of the configuration record (R177). -/

namespace Sys2Proof.Config

/-- R12. -/
def peerEntries : Nat := 15
/-- R18. -/
def heardEntries : Nat := 32
/-- R19. -/
def sightingEntries : Nat := 128
/-- R11: the sightings one ADVERT may carry. -/
def advertSightings : Nat := 16
/-- R3. -/
def rxFrames : Nat := 8
/-- R5. -/
def txFrames : Nat := 12
/-- R6. -/
def txChunks : Nat := 8
/-- R25. -/
def refusalEntries : Nat := 8
/-- R36. -/
def holdEntries : Nat := 4
/-- R52, R64: the flows one OFFER or CONTEXT may carry. -/
def carriedFlows : Nat := 8
/-- R131. -/
def storeWaiting : Nat := 8
/-- R148. -/
def serveEntries : Nat := 4
/-- R171: requests held whose replies are not yet sent. -/
def heldRequests : Nat := 8
/-- R176. -/
def noticeEntries : Nat := 16
/-- R142: suppliers named for one block. -/
def blockSuppliers : Nat := 4
/-- R104: samples a flow is classified from. -/
def flowSamples : Nat := 16

/-- R18, R20. -/
def sightingLife : Nat := 3000
/-- R42: the hold-down after an arrival. -/
def holdDown : Nat := 30000
/-- R51. -/
def offeringTime : Nat := 400
def handingTime : Nat := 5000
def arrivingTime : Nat := 6000
def provisionalTime : Nat := 2000
/-- R57. -/
def declineHold : Nat := 10000
/-- R60. -/
def steerResistance : Nat := 600000
/-- R71. -/
def tickTime : Nat := 1000
def ageingTime : Nat := 86400000
/-- R82. -/
def stagingTime : Nat := 2000
/-- R108, R109, R110, R112. -/
def flowQuiet : Nat := 10000
/-- R110. -/
def flowRemoval : Nat := 60000
/-- R116. -/
def overshootHold : Nat := 5000
/-- R153. -/
def suspectTime : Nat := 60000
/-- R158. -/
def evacuationLimit : Nat := 30000
def confirmTime : Nat := 600000
def writeRetryTime : Nat := 1000

/-- R71: the rank of an unknown time. -/
def rankUnknown : Nat := 15
/-- R66, R96: the most used minutes. -/
def maxUsed : Nat := 1440
/-- R17: the path cost of a node without a path. -/
def noPath : Nat := 63
/-- R142: chunks in a slot's image at most. -/
def maxChunks : Nat := 4096
/-- R128. -/
def chunkBytes : Nat := 1024
def blockBytes : Nat := 16384
def blockChunks : Nat := 16
/-- R71, R77: 32-bit figures. -/
def word32 : Nat := 4294967296

/-- R120. -/
def paceFloor : Nat := 2500
def paceCeiling : Nat := 30000

/-- R123. -/
def creditsOwnGame : Nat := 2
def creditsPeerGame : Nat := 8
def creditsOpen : Nat := 32

end Sys2Proof.Config
end

