-- ==== Sys2Proof/Syntax.lean ====
section
/-! DEFINITION. The commands of the HN46: one constructor of `Instr` for each row of spec/opcode_table.json, with
the operands each carries from outside the part. -/

namespace Sys2Proof

/-- A Peer Link frame as the radio delivers it (section 12.5): header fields, body bytes and trailing CRC. -/
structure WireFrame where
  kind : Byte
  sender : Byte
  dest : Byte
  len : BitVec 16
  body : List Byte
  crc : Crc
  deriving DecidableEq, Repr

/-- A Local Port message as the link delivers it (section 12.6): header fields, body bytes and trailing CRC. The command
names the message the host sends; the kind byte is what the link delivers (log entry 34). -/
structure HostMsg where
  kind : Byte
  tag : Tag
  len : BitVec 16
  body : List Byte
  crc : Crc
  deriving DecidableEq, Repr

/-- What the flash device did with the operation in flight (R130). `failed`: the device reported an error or the
read did not complete. `cells`: bytes that differ from what the operation should have left or read; what they
may bear on is said where they are used (log entry 2). -/
structure Device where
  failed : Bool
  cells : List Host.Cell
  deriving DecidableEq, Repr

/-- A device that did exactly what it was told. -/
def Device.sound : Device := { failed := false, cells := [] }

/-- The commands. `t` is the running time at which the part takes an event that comes from outside its own
timers (log entry 1); an expiry carries what names its timer and happens when the timer is due. -/
inductive Instr where
  | powerOnStart (cells : List Host.Cell)
  | hostRestart (cells : List Host.Cell)
  | recoveryStart (cells : List Host.Cell)
  | startSequenceComplete (t : Nat)
  | frameReceived (t : Nat) (f : WireFrame)
  | advert (t : Nat)
  | offer (t : Nat)
  | accept (t : Nat)
  | decline (t : Nat)
  | claim (t : Nat)
  | context (t : Nat)
  | bookRequest (t : Nat)
  | bookSegment (t : Nat)
  | manifestRequest (t : Nat)
  | manifest (t : Nat)
  | chunkRequest (t : Nat)
  | chunk (t : Nat)
  | chunkRefuse (t : Nat)
  | frameTakenByRadio (t : Nat)
  | associate (t : Nat) (m : HostMsg)
  | disassociate (t : Nat) (m : HostMsg)
  | signal (t : Nat) (m : HostMsg)
  | evaluation (t : Nat)
  | sighting (t : Nat) (m : HostMsg)
  | link (t : Nat) (m : HostMsg)
  | clientActivity (t : Nat) (m : HostMsg)
  | flowSample (t : Nat) (m : HostMsg)
  | flowActive (t : Nat) (m : HostMsg)
  | flowEnd (t : Nat) (m : HostMsg)
  | loadBook (t : Nat) (m : HostMsg)
  | setTime (t : Nat) (m : HostMsg)
  | seedManifest (t : Nat) (m : HostMsg)
  | seedChunk (t : Nat) (m : HostMsg)
  | activateNow (t : Nat) (m : HostMsg)
  | confirmImage (t : Nat) (m : HostMsg)
  | readRecord (t : Nat) (m : HostMsg)
  | writeConfig (t : Nat) (m : HostMsg)
  | hostAcceptance (t : Nat)
  | advertTimerExpiry
  | freshnessTimerExpiry (peer : Nat)
  | removalTimerExpiry (peer : Nat)
  | heardListExpiry (client : ClientId)
  | suspectUntilReached (peer : Nat)
  | declineHoldExpiry (client : ClientId) (peer : Nat)
  | steerResistantExpiry (client : ClientId)
  | offeringExpiry (client : ClientId)
  | handingExpiry (client : ClientId)
  | arrivingExpiry (client : ClientId)
  | provisionalExpiry (client : ClientId)
  | tick
  | ageingTimerExpiry
  | stagingTimerExpiry
  | idleTimerExpiry (slot : Fin 128)
  | flowRemovalTimerExpiry (slot : Fin 128)
  | holdUntilReached (slot : Fin 128)
  | chunkRequestExpiry
  | evacuationLimitExpiry
  | confirmTimerExpiry
  | writeRetryTimerExpiry
  | readChunkCompletion (t : Nat) (d : Device)
  | programChunkCompletion (t : Nat) (d : Device)
  | eraseBlockCompletion (t : Nat) (d : Device)
  | verifyBlockCompletion (t : Nat) (d : Device)
  | checkImageCompletion (t : Nat) (d : Device)
  | recordWriteCompletion (t : Nat) (d : Device)
  | recordReadCompletion (t : Nat) (d : Device)
  deriving DecidableEq, Repr

end Sys2Proof
end

