-- ==== Sys2Proof/Decode.lean ====
section
/-! DEFINITION. The words of the opcode table: its rows give no bits, so no word spells a command. -/

namespace Sys2Proof

/-- The command a word spells by the table's bits: none, since every row of spec/opcode_table.json has an empty list
of fields. -/
def decodeTableWord (_nbits _w : Nat) : Option Instr := none

end Sys2Proof
end

