-- ==== Sys2Proof/Machine/State.lean ====
section
/-! DEFINITION. The state of the HN46, block by block (00_scope.md section 4.1), as plain data; the outcomes' reasons;
and the state at reset. -/

namespace Sys2Proof.Machine

/-! ### Names the guide gives -/

/-- The two image slots (R142). -/
inductive SlotId where
  | a | b
  deriving DecidableEq, Repr

/-- The other slot. -/
def SlotId.other : SlotId → SlotId
  | .a => .b
  | .b => .a

/-- The two copies of the selector (R134). -/
inductive CopyId where
  | zero | one
  deriving DecidableEq, Repr

/-- The other selector copy. -/
def CopyId.other : CopyId → CopyId
  | .zero => .one
  | .one => .zero

/-- The states of a client record (section 2.1.2). -/
inductive RecState where
  | provisional | associated | offering | handing | arriving | departed
  deriving DecidableEq, Repr

/-- The access states (chapter 6): OPEN, CAPPED, EXHAUSTED, BLOCKED. -/
inductive Access where
  | opened | capped | exhausted | blocked
  deriving DecidableEq, Repr

/-- The states of a flow record (R102). -/
inductive FlowState where
  | sampling | admitted | waiting | standard | bulk | reserved | idle
  deriving DecidableEq, Repr

/-- The classes of a flow (R104). -/
inductive FlowClass where
  | game | standard | bulk
  deriving DecidableEq, Repr

/-- Why a WAITING flow is not admitted (R102). -/
inductive WaitReason where
  | airtime | cap | overshoot | context
  deriving DecidableEq, Repr

/-- The values of a CLASS directive (R117). -/
inductive ClassValue where
  | game | standard | bulk | released
  deriving DecidableEq, Repr

/-- The states of an image slot (R142). -/
inductive SlotState where
  | empty | filling | checking | ready | active | retained | failed
  deriving DecidableEq, Repr

/-- The states of a block (section 9.5): DIRTY, ERASING, OPEN, VERIFYING, VERIFIED. -/
inductive BlockState where
  | dirty | erasing | opened | verifying | verified
  deriving DecidableEq, Repr

/-- The mark of one chunk (R137): neither pending nor programmed, pending, or programmed. -/
inductive ChunkMark where
  | missing | pending | programmed
  deriving DecidableEq, Repr

/-- A member of a block's supplier set (R142): a peer, or *local* (the host's seeding). -/
inductive Supplier where
  | peer (id : Nat)
  | ownHost
  deriving DecidableEq, Repr

/-- The states of the Activation Controller (chapter 11). -/
inductive ActState where
  | idle | waiting | evacuating | committing | restarting
  deriving DecidableEq, Repr

/-- The statuses of a reply (section 12.6). -/
inductive Status where
  | ok | malformed | range | state | busy | limit
  deriving DecidableEq, Repr

/-- The messages from the host (tables of R171 and R172). -/
inductive HostKind where
  | associate | disassociate | signal | sighting | link | clientActivity | flowSample | flowActive | flowEnd
  | loadBook | setTime | seedManifest | seedChunk | activateNow | confirmImage | readRecord | writeConfig
  deriving DecidableEq, Repr

/-- The thirteen kinds of frame (R1). -/
inductive FrameKind where
  | advert | offer | accept | decline | claim | context | bookRequest | bookSegment | manifestRequest | manifest
  | chunkRequest | chunk | chunkRefuse
  deriving DecidableEq, Repr

/-! ### Frames and their contents -/

/-- One sighting of an ADVERT (R10). -/
structure AdvertSighting where
  client : ClientId
  smoothed : Int
  age : Nat
  deriving DecidableEq, Repr

/-- The fields of an ADVERT (R10), less the sender id, which the header carries. The slot summary holds the state
codes and versions as sent; block b of the bitmap is the b-th most significant bit (section 12.5). -/
structure Advert where
  pathCost : Nat
  clientCount : Nat
  freeSlots : Nat
  reserved : Nat
  meshTime : Nat
  timeRank : Nat
  bookVersion : Nat
  bookOrigin : Nat
  target : Nat
  stateA : Nat
  versionA : Nat
  stateB : Nat
  versionB : Nat
  bitmap : BitVec 256
  evacuating : Bool
  actWaiting : Bool
  gateway : Bool
  sightings : List AdvertSighting
  deriving DecidableEq, Repr

/-- One flow of an OFFER or CONTEXT (R52). -/
structure CarriedFlow where
  digest : Digest
  share : Nat
  interval : Nat
  deriving DecidableEq, Repr

/-- The body of an OFFER or CONTEXT (section 12.5); `access` is the code as sent. -/
structure Handover where
  client : ClientId
  used : Nat
  dayStamp : Nat
  profile : Nat
  access : Nat
  flows : List CarriedFlow
  deriving DecidableEq, Repr

/-- A manifest (R144). -/
structure Manifest where
  version : Nat
  n : Nat
  blockCrcs : List Crc
  imageCrc : Crc
  ownCrc : Crc
  deriving DecidableEq, Repr

/-- The body of a frame, by kind (section 12.5). Reasons and modes are the codes as sent. -/
inductive FrameBody where
  | advert (a : Advert)
  | offer (h : Handover)
  | accept (client : ClientId)
  | decline (client : ClientId) (reason : Nat)
  | claim (client : ClientId)
  | context (h : Handover)
  | bookRequest
  | bookSegment (version origin len index : Nat) (part : List Byte)
  | manifestRequest (version : Nat)
  | manifest (m : Manifest)
  | chunkRequest (version block start count mode : Nat)
  | chunk (version index : Nat) (data : List Byte)
  | chunkRefuse (reason version block : Nat)
  deriving DecidableEq, Repr

/-- A frame in one of the part's queues (R1). -/
structure Frame where
  sender : Nat
  dest : Nat
  body : FrameBody
  deriving DecidableEq, Repr

/-! ### Records of the units -/

/-- The configuration in use (R177), after clamping. -/
structure ActiveConfig where
  nodeId : Nat
  gateway : Bool
  period : Nat
  hysteresis : Nat
  weakFloor : Int
  ceiling : Nat
  fallback : Nat
  steering : Bool
  fixedPace : Bool
  deriving DecidableEq, Repr

/-- The configuration of a part whose active area reads invalid: the all-ones encoding of every field (R177, log entry 4). -/
def ActiveConfig.unread : ActiveConfig :=
  { nodeId := 255, gateway := false, period := 500, hysteresis := 6, weakFloor := -82, ceiling := 400,
    fallback := 60, steering := true, fixedPace := false }

/-- The Peer Link Interface (R3 to R8). `tx` is the one transmit order; the frame with an ADVERT body in it is the
one in the ADVERT place (R5). -/
structure Pli where
  rx : List Frame
  rxRun : Bool
  tx : List Frame
  txRun : Bool
  deriving DecidableEq, Repr

/-- A Peer Table entry (R12). Its freshness and removal timers run from `heardAt` (R15). -/
structure PeerEntry where
  id : Nat
  advert : Advert
  heardAt : Nat
  linkCost : Nat
  fresh : Bool
  suspectUntil : Option Nat
  deriving DecidableEq, Repr

/-- A Sighting Table entry (R19). The validity time may lie before the start, so it is an integer. -/
structure SightingEntry where
  client : ClientId
  peer : Nat
  smoothed : Int
  validity : Int
  deriving DecidableEq, Repr

/-- The Peer Table Unit. -/
structure PeerUnit where
  table : List PeerEntry
  ownPath : Nat
  advertDue : Option Nat
  sightings : List SightingEntry
  deriving DecidableEq, Repr

/-- The last three samples, oldest first (R39). -/
structure Samples where
  s1 : Int
  s2 : Int
  s3 : Int
  deriving DecidableEq, Repr

/-- A decline hold (R36). -/
structure Hold where
  peer : Nat
  untilTime : Nat
  deriving DecidableEq, Repr

/-- A client record (section 2.1.1). `timer` is the time the handoff timer is due (R51). -/
structure ClientRecord where
  client : ClientId
  state : RecState
  linkRate : Nat
  steerable : Bool
  samples : Option Samples
  smoothed : Option Int
  profile : Nat
  used : Nat
  dayStamp : Nat
  countedHere : Nat
  access : Access
  active : Bool
  contextAwaited : Bool
  candidate : Option Nat
  confirm : Nat
  offerTarget : Option Nat
  holds : List Hold
  steerAttempts : Nat
  resistantUntil : Option Nat
  arrival : Nat
  departure : Option Nat
  timer : Option Nat
  deriving DecidableEq, Repr

/-- A Heard List entry (R18); it expires 3 s after `last`. -/
structure HeardEntry where
  client : ClientId
  samples : Samples
  smoothed : Int
  last : Nat
  deriving DecidableEq, Repr

/-- The Client Unit. `handed` holds, oldest first, the clients whose records were handed to the Roaming Unit after
a SIGNAL and which it has not taken yet (R32, R41, R48). -/
structure ClientUnit where
  table : Vector (Option ClientRecord) 64
  heard : List HeardEntry
  refusals : List ClientId
  handed : List ClientId
  deriving DecidableEq, Repr

/-- The Time Base (R71). -/
structure TimeBase where
  mesh : Nat
  rank : Nat
  minuteMark : Nat
  dayMark : Nat
  ageingDue : Option Nat
  tickDue : Option Nat
  deriving DecidableEq, Repr

/-- What a window does (R77). -/
inductive WindowAction where
  | block | cap
  deriving DecidableEq, Repr

/-- A span of minutes on marked weekdays (R77); bit 0 of the mask is Monday (section 12.5). -/
structure Span where
  mask : Byte
  start : Nat
  stop : Nat
  deriving DecidableEq, Repr

/-- A window of a profile (R77). -/
structure Window where
  span : Span
  action : WindowAction
  deriving DecidableEq, Repr

/-- A profile (R77); no allowance is UNLIMITED. -/
structure Profile where
  allowance : Option Nat
  windows : List Window
  deriving DecidableEq, Repr

/-- A binding (R77). -/
structure Binding where
  client : ClientId
  profile : Nat
  deriving DecidableEq, Repr

/-- The Schedule Book (R77). Its CRC is computed whenever it is serialized. -/
structure Book where
  version : Nat
  origin : Nat
  quiet : Span
  profiles : List Profile
  bindings : List Binding
  deriving DecidableEq, Repr

/-- The empty book (R77). -/
def Book.emptyBook : Book :=
  { version := 0, origin := 0, quiet := { mask := 0x7F, start := 120, stop := 300 },
    profiles := List.replicate 16 { allowance := none, windows := [] }, bindings := [] }

/-- The staging buffer while it collects (R82). -/
structure Staging where
  version : Nat
  origin : Nat
  len : Nat
  part0 : Option (List Byte)
  part1 : Option (List Byte)
  due : Nat
  deriving DecidableEq, Repr

/-- The Schedule Unit. -/
structure ScheduleUnit where
  book : Book
  staging : Option Staging
  writeOwed : Bool
  writeInFlight : Bool
  deriving DecidableEq, Repr

/-- A packet sample (R102). -/
structure FlowSample where
  size : Nat
  stamp : Nat
  deriving DecidableEq, Repr

/-- A flow record (R102). Its idle and removal timers run from `lastActivity` (R110). -/
structure FlowRecord where
  digest : Digest
  slot : Fin 64
  client : ClientId
  state : FlowState
  samples : List FlowSample
  cls : Option FlowClass
  meanSize : Option Nat
  meanInterval : Option Nat
  share : Option Nat
  classifiedAt : Option Nat
  admittedAt : Option Nat
  lastActivity : Nat
  reason : Option WaitReason
  holdUntil : Option Nat
  deriving DecidableEq, Repr

/-- A slot of the Flow Table: free, holding a record, or owing a release (R118). -/
inductive FlowSlot where
  | free
  | used (f : FlowRecord)
  | release (digest : Digest) (client : ClientId)
  deriving DecidableEq, Repr

/-- The Pace record (R120). -/
structure Pace where
  interval : Option Nat
  burst : Nat
  deriving DecidableEq, Repr

/-- The Priority Unit. -/
structure PriorityUnit where
  flows : Vector FlowSlot 128
  pace : Pace
  pullCredits : Nat
  serveCredits : Nat
  deriving DecidableEq, Repr

/-- The boot selector (R158). -/
structure Selector where
  booted : SlotId
  confirmed : SlotId
  trial : Bool
  trialStarts : Nat
  floor : Nat
  deriving DecidableEq, Repr

/-- The selector of a part that finds neither copy valid (R166). -/
def Selector.blank : Selector :=
  { booted := .a, confirmed := .a, trial := false, trialStarts := 0, floor := 0 }

/-- The record areas (R128). -/
inductive Area where
  | configActive
  | configStaged
  | selector (copy : CopyId)
  | book
  | manifest (slot : SlotId)
  deriving DecidableEq, Repr

/-- The units that submit store operations (chapter 9), with what ties a completion to its cause: the requester
and target block of a served chunk, the tag of a request that waits. -/
inductive Owner where
  | start
  | fill
  | serve (peer block : Nat)
  | schedule
  | activation
  | writeConfig (tag : Tag)
  | readConfig (tag : Tag)
  deriving DecidableEq, Repr

/-- What a selector write is for (R164, R166, R169, R170). A recovery revert says whether it changes the booted slot. -/
inductive SelPurpose where
  | commit
  | confirm (tag : Tag)
  | revert
  | trialStart
  | clearRevert
  | recovery (changes : Bool)
  deriving DecidableEq, Repr

/-- The store operations (R130). A selector RECORD-WRITE is a kind of its own: the copy and sequence number it is
directed to are filled in when it goes into flight (R134), and its order among selector writes is kept (R158). -/
inductive OpKind where
  | readChunk (slot : SlotId) (version chunk : Nat)
  | programChunk (slot : SlotId) (version chunk : Nat) (data : List Byte)
  | eraseBlock (slot : SlotId) (version block : Nat)
  | eraseArea (area : Area)
  | verifyBlock (slot : SlotId) (version block : Nat) (crc : Crc)
  | checkImage (slot : SlotId) (version n : Nat) (crc : Crc)
  | recordWrite (area : Area) (version : Nat) (body : List Byte)
  | selectorWrite (order : Nat) (purpose : SelPurpose) (sel : Selector) (directed : Option (CopyId × Nat))
  | recordRead (area : Area)
  deriving DecidableEq, Repr

/-- A store operation and the unit that submitted it. -/
structure StoreOp where
  owner : Owner
  kind : OpKind
  deriving DecidableEq, Repr

/-- The Store Controller (R131, R134) and the flash it alone works on (R128). -/
structure StoreUnit where
  flash : List Host.Cell
  inflight : Option StoreOp
  waiting : List StoreOp
  copy : Option CopyId
  seqNo : Nat
  orders : Nat
  deriving DecidableEq, Repr

/-- A block of a slot record (R142). -/
structure Block where
  state : BlockState
  chunks : Vector ChunkMark 16
  suppliers : List Supplier
  verifyOwed : Bool
  deriving DecidableEq, Repr

/-- A block with contents unknown and nothing marked. -/
def Block.blank : Block :=
  { state := .dirty, chunks := Vector.replicate 16 .missing, suppliers := [], verifyOwed := false }

/-- A slot record (R142). -/
structure SlotRecord where
  state : SlotState
  version : Option Nat
  manifest : Option Manifest
  blocks : Vector Block 256
  checkOwed : Bool
  deriving DecidableEq, Repr

/-- An EMPTY slot (R142). -/
def SlotRecord.blank : SlotRecord :=
  { state := .empty, version := none, manifest := none, blocks := Vector.replicate 256 Block.blank, checkOwed := false }

/-- The outstanding chunk request (R148). -/
structure Outstanding where
  source : Nat
  version : Nat
  block : Nat
  start : Nat
  count : Nat
  hybrid : Bool
  order : List Nat
  last : Nat
  due : Nat
  deriving DecidableEq, Repr

/-- A queued serve request (R150, R151). `position` counts the chunks passed; `reading`: the engine's read in the
store is for it. -/
structure ServeRequest where
  peer : Nat
  version : Nat
  block : Nat
  start : Nat
  count : Nat
  hybrid : Bool
  position : Nat
  reading : Bool
  deriving DecidableEq, Repr

/-- A block asked for and not held (R150). -/
structure RelayDemand where
  block : Nat
  start : Nat
  deriving DecidableEq, Repr

/-- The busy skip (R149). -/
structure BusySkip where
  peer : Nat
  untilTime : Nat
  deriving DecidableEq, Repr

/-- The Distribution Unit (R142). `active` is the slot that is ACTIVE in the Slot Table. -/
structure DistributionUnit where
  slotA : SlotRecord
  slotB : SlotRecord
  active : SlotId
  outstanding : Option Outstanding
  serve : List ServeRequest
  relay : Option RelayDemand
  busySkip : Option BusySkip
  barred : Option Nat
  manifestOwed : Bool
  deriving DecidableEq, Repr

/-- The selector write the write retry timer serves (R158). -/
structure RetriedWrite where
  order : Nat
  owner : Owner
  purpose : SelPurpose
  sel : Selector
  deriving DecidableEq, Repr

/-- The Activation Controller (R158). -/
structure ActivationUnit where
  state : ActState
  sel : Selector
  activateNow : Bool
  evacuationDue : Option Nat
  confirmDue : Option Nat
  confirmHeld : Bool
  retry : Option RetriedWrite
  retryDue : Option Nat
  writeInFlight : Bool
  deriving DecidableEq, Repr

/-! ### The Local Port -/

/-- What a STORE-REFUSED notice names as its target (R133). -/
inductive StoreTarget where
  | chunk (slot : SlotId) (index : Nat)
  | block (slot : SlotId) (index : Nat)
  | area (a : Area)
  | selectorCopies
  deriving DecidableEq, Repr

/-- The kinds of a refused operation (R133). -/
inductive RefusedKind where
  | programChunk | eraseBlock | recordWrite
  deriving DecidableEq, Repr

/-- The submitting unit a STORE-REFUSED notice names (R133). -/
inductive UnitName where
  | startSequence | distribution | schedule | activation | localPort
  deriving DecidableEq, Repr

/-- Why a handoff failed (R61): the code of a DECLINE, or TIMEOUT. -/
inductive FailReason where
  | declined (code : Nat)
  | timeout
  deriving DecidableEq, Repr

/-- The notices (section 12.2.1), each with its subject and detail. -/
inductive Notice where
  | peerJoined (peer : Nat)
  | peerLost (peer : Nat)
  | idConflict (own : Nat)
  | rxOverflow (sender : Nat) (kind : FrameKind)
  | txOverflow (dest : Nat) (kind : FrameKind)
  | handoffDone (client : ClientId) (claimer : Nat)
  | handoffFailed (client : ClientId) (reason : FailReason) (peer : Option Nat)
  | timeAdopted (peer rank : Nat)
  | bookAdopted (origin version : Nat)
  | blockRejected (slot : SlotId) (block version : Nat) (suppliers : List Supplier)
  | imageReady (slot : SlotId) (version : Nat)
  | imageFailed (slot : SlotId) (version : Nat)
  | storeRefused (target : StoreTarget) (kind : RefusedKind) (unit : UnitName)
  | trialReverted (slot : SlotId) (version : Option Nat)
  deriving DecidableEq, Repr

/-- What READ-RECORD SLOT returns (R157). `counts` gives programmed and pending chunks per block. -/
structure SlotView where
  slot : SlotRecord
  counts : List (Nat × Nat)
  outstanding : Option Outstanding
  serve : List ServeRequest
  relay : Option RelayDemand
  busySkip : Option BusySkip
  barred : Option Nat
  manifestOwed : Bool
  deriving DecidableEq, Repr

/-- What READ-RECORD BOOK-HEADER returns (R79). -/
structure BookHeader where
  version : Nat
  origin : Nat
  len : Nat
  quiet : Span
  windowCounts : List Nat
  bindingCount : Nat
  staged : Option (Nat × Nat)
  deriving DecidableEq, Repr

/-- What READ-RECORD SELECTOR returns (R173); no time left is "stopped". -/
structure SelectorView where
  sel : Selector
  state : ActState
  activateNow : Bool
  confirmLeft : Option Nat
  deriving DecidableEq, Repr

/-- What READ-RECORD TIME returns (R76); no time left is "stopped". -/
structure TimeView where
  mesh : Nat
  rank : Nat
  day : Nat
  weekday : Nat
  minute : Nat
  minuteMark : Nat
  dayMark : Nat
  ageingLeft : Option Nat
  deriving DecidableEq, Repr

/-- The record of a READ-RECORD reply (R173). -/
inductive RecordView where
  | emptyRecord
  | client (r : ClientRecord)
  | flow (f : FlowRecord)
  | peer (p : PeerEntry)
  | slot (v : SlotView)
  | bookHeader (h : BookHeader)
  | config (c : ActiveConfig)
  | storedConfig (body : List Byte)
  | selector (v : SelectorView)
  | time (v : TimeView)
  deriving DecidableEq, Repr

/-- A reply (R172). -/
structure Reply where
  tag : Tag
  status : Status
  view : Option RecordView
  deriving DecidableEq, Repr

/-- A message from the port to the host (R175). -/
inductive PortMessage where
  | reply (r : Reply)
  | refuseAssociation (client : ClientId)
  | pace (p : Pace)
  | restart
  | access (client : ClientId) (a : Access)
  | steer (client : ClientId) (target : Option Nat)
  | flowClass (digest : Digest) (client : ClientId) (value : ClassValue)
  | notice (n : Notice) (overflow : Bool)
  deriving DecidableEq, Repr

/-- A message as it goes out on the Local Port (section 12.6). -/
structure PortWire where
  kind : Byte
  tag : Tag
  len : BitVec 16
  body : List Byte
  crc : Crc
  deriving DecidableEq, Repr

/-- The message sent last: what it says and its bytes (log entry 7). -/
structure Sent where
  message : PortMessage
  wire : PortWire
  deriving DecidableEq, Repr

/-- The dirty set (R175). -/
structure Dirty where
  pace : Bool
  restart : Bool
  access : Vector Bool 64
  steer : Vector Bool 64
  cls : Vector Bool 128
  deriving DecidableEq, Repr

/-- The Local Port. `link` holds the host messages waiting in the link, oldest first (R165, R171). -/
structure LocalPort where
  dirty : Dirty
  notices : List Notice
  overflow : Bool
  replies : List Reply
  link : List (HostKind × HostMsg)
  sent : Option Sent
  deriving DecidableEq, Repr

/-! ### The start sequence -/

/-- The operation the start sequence waits for (R166, R167, R170). `again`: the second attempt at an erase;
`order`: the selector write waited for. -/
inductive Stage where
  | held
  | recoverySelector0
  | recoverySelector1 (first : Option (List Byte))
  | recoveryRevert (order : Nat)
  | recoveryErase (block : Nat) (again : Bool)
  | recoveryEraseManifest (again : Bool)
  | recoveryEraseStaged (again : Bool)
  | readStaged
  | readActive (staged : Option (List Byte))
  | promote (staged : List Byte)
  | readPromoted
  | readSelector0
  | readSelector1 (first : Option (List Byte))
  | writeSelector (order : Nat)
  | readBook
  | readManifestA
  | readManifestB
  | eraseReverted
  | verify (block : Nat) (allMatch : Bool)
  | check
  | ready
  | running
  deriving DecidableEq, Repr

/-- The start sequence: where it stands and what it has decided so far. -/
structure StartSeq where
  stage : Stage
  recovery : Bool
  beginsTrial : Bool
  wroteRevert : Bool
  reverted : Bool
  manifestA : Option Manifest
  deriving DecidableEq, Repr

/-- Marks that live within one command and are clear between commands (log entry 8): a share was released (R108),
the ADMITTED set changed (R121), a record was made DEPARTED or deleted (R162). -/
structure EventMarks where
  released : Bool
  admittedChanged : Bool
  departed : Bool
  deriving DecidableEq, Repr

/-- No mark set. -/
def EventMarks.clear : EventMarks := { released := false, admittedChanged := false, departed := false }

/-- The whole state. -/
structure State where
  pending : List Instr
  now : Nat
  seq : StartSeq
  cfg : ActiveConfig
  pli : Pli
  peers : PeerUnit
  clients : ClientUnit
  time : TimeBase
  sched : ScheduleUnit
  prio : PriorityUnit
  store : StoreUnit
  dist : DistributionUnit
  act : ActivationUnit
  port : LocalPort
  ev : EventMarks
  radioOut : Option WireFrame
  deriving DecidableEq, Repr

/-- Why a step may fault: nothing in the guide stops the part, so there is no reason (log entry 10). -/
inductive Fault where
  deriving DecidableEq, Repr

/-- Why a step may refuse. -/
inductive Refusal where
  /-- Raised by `exec` for a command that has no meaning yet (safe). No arm raises it. -/
  | notModelled (mnemonic : String)
  deriving DecidableEq, Repr

/-! ### Reset -/

/-- The Pace record at every start (R121). -/
def Pace.atStart (fixedPace : Bool) : Pace :=
  { interval := none, burst := if fixedPace then Config.paceFloor else Config.paceCeiling }

/-- The dirty set at each start: PACE alone (R175). -/
def Dirty.atStart : Dirty :=
  { pace := true, restart := false, access := Vector.replicate 64 false, steer := Vector.replicate 64 false,
    cls := Vector.replicate 128 false }

/-- Every block as R168 gives it at a start, over the given flash and with the given messages still in the link. -/
def State.fresh (pending : List Instr) (flash : List Host.Cell) (link : List (HostKind × HostMsg)) : State where
  pending := pending
  now := 0
  seq := { stage := .held, recovery := false, beginsTrial := false, wroteRevert := false, reverted := false, manifestA := none }
  cfg := ActiveConfig.unread
  pli := { rx := [], rxRun := false, tx := [], txRun := false }
  peers := { table := [], ownPath := Config.noPath, advertDue := none, sightings := [] }
  clients := { table := Vector.replicate 64 none, heard := [], refusals := [], handed := [] }
  time := { mesh := 0, rank := Config.rankUnknown, minuteMark := 0, dayMark := 0, ageingDue := none, tickDue := none }
  sched := { book := Book.emptyBook, staging := none, writeOwed := false, writeInFlight := false }
  prio := { flows := Vector.replicate 128 .free, pace := Pace.atStart false, pullCredits := 0, serveCredits := 0 }
  store := { flash := flash, inflight := none, waiting := [], copy := none, seqNo := 0, orders := 0 }
  dist := { slotA := { SlotRecord.blank with state := .active }, slotB := SlotRecord.blank, active := .a,
            outstanding := none, serve := [], relay := none, busySkip := none, barred := none, manifestOwed := false }
  act := { state := .idle, sel := Selector.blank, activateNow := false, evacuationDue := none, confirmDue := none,
           confirmHeld := false, retry := none, retryDue := none, writeInFlight := false }
  port := { dirty := Dirty.atStart, notices := [], overflow := false, replies := [], link := link, sent := none }
  ev := EventMarks.clear
  radioOut := none

/-- The part with power applied, a blank store and no start begun (log entry 3). -/
def State.reset : State := State.fresh [] [] []

end Sys2Proof.Machine
end

