-- ==== Sys2Proof/Machine/Operands.lean ====
section
/-! DEFINITION. The byte layouts of sections 12.5 and 12.6 and of R78 and R177: how the operands of a command and the
records of the store are read from bytes and written as bytes. -/

namespace Sys2Proof.Machine

/-! ### Bytes and CRCs -/

/-- Bytes as one number, most significant byte first (section 12.5). -/
def beNat (bs : List Byte) : Nat := bs.foldl (fun n b => n * 256 + b.toNat) 0

/-- The low `w` bytes of a number, most significant byte first (section 12.5). -/
def beBytes : Nat → Nat → List Byte
  | 0, _ => []
  | w + 1, v => BitVec.ofNat 8 (v / 256 ^ w) :: beBytes w v

/-- The `w`-byte field at an offset. -/
def field (bs : List Byte) (off w : Nat) : Nat := beNat ((bs.drop off).take w)

/-- The client id at an offset. -/
def clientField (bs : List Byte) (off : Nat) : ClientId := BitVec.ofNat 48 (field bs off 6)

/-- The flow digest at an offset. -/
def digestField (bs : List Byte) (off : Nat) : Digest := BitVec.ofNat 32 (field bs off 4)

/-- The signed byte at an offset (a level in dBm). -/
def signedByte (bs : List Byte) (off : Nat) : Int := (BitVec.ofNat 8 (field bs off 1)).toInt

/-- The signed two-byte field at an offset (a smoothed value in q). -/
def signedPair (bs : List Byte) (off : Nat) : Int := (BitVec.ofNat 16 (field bs off 2)).toInt

/-- A signed value in two bytes. -/
def signedBytes (q : Int) : List Byte := beBytes 2 (BitVec.ofInt 16 q).toNat

/-- One shift of the reflected CRC register; 0EDB88320h is 04C11DB7h with its bits reversed (section 12.5). -/
def crcShift (c : Nat) : Nat := if c % 2 = 1 then (c / 2) ^^^ 0xEDB88320 else c / 2

/-- The CRC register after one byte (section 12.5: input reflected). -/
def crcByte (c : Nat) (b : Byte) : Nat :=
  crcShift (crcShift (crcShift (crcShift (crcShift (crcShift (crcShift (crcShift (c ^^^ b.toNat))))))))

/-- The part's one CRC (section 12.5): initial value 0FFFFFFFFh, final exclusive-or 0FFFFFFFFh. -/
def crc32 (bs : List Byte) : Crc := BitVec.ofNat 32 (bs.foldl crcByte 0xFFFFFFFF ^^^ 0xFFFFFFFF)

/-- A CRC as its four bytes. -/
def crcBytes (c : Crc) : List Byte := beBytes 4 c.toNat

/-! ### Frames (section 12.5) -/

/-- The kind codes 1..13 in the order of the table of R1. -/
def FrameKind.code : FrameKind → Nat
  | .advert => 1 | .offer => 2 | .accept => 3 | .decline => 4 | .claim => 5 | .context => 6 | .bookRequest => 7
  | .bookSegment => 8 | .manifestRequest => 9 | .manifest => 10 | .chunkRequest => 11 | .chunk => 12 | .chunkRefuse => 13

/-- The kind a code stands for; none when it is not one of the thirteen. -/
def frameKindOf (code : Nat) : Option FrameKind :=
  match code with
  | 1 => some .advert | 2 => some .offer | 3 => some .accept | 4 => some .decline | 5 => some .claim | 6 => some .context
  | 7 => some .bookRequest | 8 => some .bookSegment | 9 => some .manifestRequest | 10 => some .manifest
  | 11 => some .chunkRequest | 12 => some .chunk | 13 => some .chunkRefuse | _ => none

/-- The kind of a frame's body. -/
def FrameBody.kind : FrameBody → FrameKind
  | .advert _ => .advert | .offer _ => .offer | .accept _ => .accept | .decline _ _ => .decline | .claim _ => .claim
  | .context _ => .context | .bookRequest => .bookRequest | .bookSegment .. => .bookSegment
  | .manifestRequest _ => .manifestRequest | .manifest _ => .manifest | .chunkRequest .. => .chunkRequest
  | .chunk .. => .chunk | .chunkRefuse .. => .chunkRefuse

/-- Whether a body has the length its kind and its own count field call for (R2). The part of a BOOK-SEGMENT is
checked by its receiver (R82). -/
def frameLengthOk (k : FrameKind) (body : List Byte) : Bool :=
  match k with
  | .advert => 63 ≤ body.length && body.length == 63 + 9 * field body 62 1
  | .offer | .context => 13 ≤ body.length && body.length == 13 + 7 * field body 12 1
  | .accept | .claim => body.length == 6
  | .decline => body.length == 7
  | .bookRequest => body.length == 0
  | .bookSegment => 8 ≤ body.length
  | .manifestRequest => body.length == 4
  | .manifest => body.length == 1038
  | .chunkRequest => body.length == 9
  | .chunk => body.length == 1030
  | .chunkRefuse => body.length == 6

/-- The sightings of an ADVERT body, 9 bytes each. -/
def readSightings : Nat → List Byte → List AdvertSighting
  | 0, _ => []
  | n + 1, bs => { client := clientField bs 0, smoothed := signedPair bs 6, age := field bs 8 1 } :: readSightings n (bs.drop 9)

/-- The flows of an OFFER or CONTEXT body, 7 bytes each. -/
def readFlows : Nat → List Byte → List CarriedFlow
  | 0, _ => []
  | n + 1, bs => { digest := digestField bs 0, share := field bs 4 2, interval := field bs 6 1 } :: readFlows n (bs.drop 7)

/-- A run of CRCs, 4 bytes each. -/
def readCrcs : Nat → List Byte → List Crc
  | 0, _ => []
  | n + 1, bs => BitVec.ofNat 32 (field bs 0 4) :: readCrcs n (bs.drop 4)

/-- An ADVERT body. Bits 3 to 7 of its flags byte, which section 12.5 does not name, are not read (DESIGN CHOICE, log entry
57). -/
def readAdvert (b : List Byte) : Advert :=
  { pathCost := field b 0 1, clientCount := field b 1 1, freeSlots := field b 2 1, reserved := field b 3 2,
    meshTime := field b 5 4, timeRank := field b 9 1, bookVersion := field b 10 4, bookOrigin := field b 14 1,
    target := field b 15 4, stateA := field b 19 1, versionA := field b 20 4, stateB := field b 24 1,
    versionB := field b 25 4, bitmap := BitVec.ofNat 256 (field b 29 32),
    evacuating := (field b 61 1).testBit 0, actWaiting := (field b 61 1).testBit 1, gateway := (field b 61 1).testBit 2,
    sightings := readSightings (field b 62 1) (b.drop 63) }

/-- An OFFER or CONTEXT body. -/
def readHandover (b : List Byte) : Handover :=
  { client := clientField b 0, used := field b 6 2, dayStamp := field b 8 2, profile := field b 10 1,
    access := field b 11 1, flows := readFlows (field b 12 1) (b.drop 13) }

/-- A manifest (section 12.5). -/
def readManifest (b : List Byte) : Manifest :=
  { version := field b 0 4, n := field b 4 2, blockCrcs := readCrcs 256 (b.drop 6),
    imageCrc := BitVec.ofNat 32 (field b 1030 4), ownCrc := BitVec.ofNat 32 (field b 1034 4) }

/-- A frame's body from its bytes. -/
def readBody (k : FrameKind) (b : List Byte) : FrameBody :=
  match k with
  | .advert => .advert (readAdvert b)
  | .offer => .offer (readHandover b)
  | .accept => .accept (clientField b 0)
  | .decline => .decline (clientField b 0) (field b 6 1)
  | .claim => .claim (clientField b 0)
  | .context => .context (readHandover b)
  | .bookRequest => .bookRequest
  | .bookSegment => .bookSegment (field b 0 4) (field b 4 1) (field b 5 2) (field b 7 1) (b.drop 8)
  | .manifestRequest => .manifestRequest (field b 0 4)
  | .manifest => .manifest (readManifest b)
  | .chunkRequest => .chunkRequest (field b 0 4) (field b 4 1) (field b 5 2) (field b 7 1) (field b 8 1)
  | .chunk => .chunk (field b 0 4) (field b 4 2) (b.drop 6)
  | .chunkRefuse => .chunkRefuse (field b 0 1) (field b 1 4) (field b 5 1)

/-- A flag as its bit. -/
def flagBit (b : Bool) : Nat := if b then 1 else 0

/-- An ADVERT body as bytes. Bits 3 to 7 of its flags byte, which section 12.5 does not name, are 0 (DESIGN CHOICE, log
entry 57). -/
def writeAdvert (a : Advert) : List Byte :=
  beBytes 1 a.pathCost ++ beBytes 1 a.clientCount ++ beBytes 1 a.freeSlots ++ beBytes 2 a.reserved ++ beBytes 4 a.meshTime
  ++ beBytes 1 a.timeRank ++ beBytes 4 a.bookVersion ++ beBytes 1 a.bookOrigin ++ beBytes 4 a.target
  ++ beBytes 1 a.stateA ++ beBytes 4 a.versionA ++ beBytes 1 a.stateB ++ beBytes 4 a.versionB
  ++ beBytes 32 a.bitmap.toNat
  ++ beBytes 1 (flagBit a.evacuating + 2 * flagBit a.actWaiting + 4 * flagBit a.gateway)
  ++ beBytes 1 a.sightings.length
  ++ a.sightings.flatMap (fun g => beBytes 6 g.client.toNat ++ signedBytes g.smoothed ++ beBytes 1 g.age)

/-- An OFFER or CONTEXT body as bytes. -/
def writeHandover (h : Handover) : List Byte :=
  beBytes 6 h.client.toNat ++ beBytes 2 h.used ++ beBytes 2 h.dayStamp ++ beBytes 1 h.profile ++ beBytes 1 h.access
  ++ beBytes 1 h.flows.length
  ++ h.flows.flatMap (fun f => beBytes 4 f.digest.toNat ++ beBytes 2 f.share ++ beBytes 1 f.interval)

/-- A manifest's bytes before its own CRC. -/
def manifestHead (m : Manifest) : List Byte :=
  beBytes 4 m.version ++ beBytes 2 m.n ++ m.blockCrcs.flatMap crcBytes ++ crcBytes m.imageCrc

/-- A manifest as bytes. -/
def writeManifest (m : Manifest) : List Byte := manifestHead m ++ crcBytes m.ownCrc

/-- A frame's body as bytes. -/
def writeBody : FrameBody → List Byte
  | .advert a => writeAdvert a
  | .offer h => writeHandover h
  | .accept c => beBytes 6 c.toNat
  | .decline c r => beBytes 6 c.toNat ++ beBytes 1 r
  | .claim c => beBytes 6 c.toNat
  | .context h => writeHandover h
  | .bookRequest => []
  | .bookSegment v o l i p => beBytes 4 v ++ beBytes 1 o ++ beBytes 2 l ++ beBytes 1 i ++ p
  | .manifestRequest v => beBytes 4 v
  | .manifest m => writeManifest m
  | .chunkRequest v b s c m => beBytes 4 v ++ beBytes 1 b ++ beBytes 2 s ++ beBytes 1 c ++ beBytes 1 m
  | .chunk v i d => beBytes 4 v ++ beBytes 2 i ++ d
  | .chunkRefuse r v b => beBytes 1 r ++ beBytes 4 v ++ beBytes 1 b

/-- A frame header: kind, sender, destination, body length. -/
def frameHeader (kind sender dest : Byte) (len : BitVec 16) : List Byte :=
  [kind, sender, dest] ++ beBytes 2 len.toNat

/-- A frame as the radio takes it, with its CRC over header and body (R1). -/
def writeFrame (f : Frame) : WireFrame :=
  let body := writeBody f.body
  let kind : Byte := BitVec.ofNat 8 f.body.kind.code
  let sender : Byte := BitVec.ofNat 8 f.sender
  let dest : Byte := BitVec.ofNat 8 f.dest
  let len : BitVec 16 := BitVec.ofNat 16 body.length
  { kind := kind, sender := sender, dest := dest, len := len, body := body,
    crc := crc32 (frameHeader kind sender dest len ++ body) }

/-- The checks of R2 that bear on the frame alone, and the frame they pass. -/
def readFrame (w : WireFrame) : Option Frame :=
  match frameKindOf w.kind.toNat with
  | none => none
  | some k =>
    if w.crc = crc32 (frameHeader w.kind w.sender w.dest w.len ++ w.body)
        ∧ w.len.toNat = w.body.length ∧ frameLengthOk k w.body = true ∧ 1 ≤ w.sender.toNat ∧ w.sender.toNat ≤ 63 then
      some { sender := w.sender.toNat, dest := w.dest.toNat, body := readBody k w.body }
    else none

/-- A manifest is well formed when its own CRC matches and N is within 1..4,096 (R144). -/
def Manifest.wellFormed (m : Manifest) : Bool :=
  m.ownCrc == crc32 (manifestHead m) && 1 ≤ m.n && m.n ≤ Config.maxChunks

/-- The block CRC of a block (R144). -/
def Manifest.blockCrc (m : Manifest) (b : Nat) : Crc := m.blockCrcs.getD b 0

/-! ### Host messages (section 12.6) -/

/-- The kind codes: observations 01h..09h, requests 11h..18h. -/
def HostKind.code : HostKind → Nat
  | .associate => 0x01 | .disassociate => 0x02 | .signal => 0x03 | .sighting => 0x04 | .link => 0x05
  | .clientActivity => 0x06 | .flowSample => 0x07 | .flowActive => 0x08 | .flowEnd => 0x09
  | .loadBook => 0x11 | .setTime => 0x12 | .seedManifest => 0x13 | .seedChunk => 0x14 | .activateNow => 0x15
  | .confirmImage => 0x16 | .readRecord => 0x17 | .writeConfig => 0x18

/-- Whether the message is a request, answered by a reply (R172). -/
def HostKind.isRequest (k : HostKind) : Bool := 0x11 ≤ k.code

/-- Whether a body has the length its kind calls for (table of section 12.6). -/
def hostLengthOk (k : HostKind) (n : Nat) : Bool :=
  match k with
  | .associate => n == 9
  | .disassociate | .clientActivity => n == 6
  | .signal | .sighting => n == 7
  | .link | .readRecord => n == 2
  | .flowSample => n == 14
  | .flowActive | .flowEnd => n == 10
  | .loadBook => 63 ≤ n && n ≤ 1300
  | .setTime => n == 4
  | .seedManifest => n == 1038
  | .seedChunk => n == 1030
  | .activateNow | .confirmImage => n == 0
  | .writeConfig => n == 12

/-- A Local Port header: kind, tag, body length. -/
def portHeader (kind : Nat) (tag : Tag) (len : BitVec 16) : List Byte :=
  beBytes 1 kind ++ beBytes 2 tag.toNat ++ beBytes 2 len.toNat

/-- The checks of R171: kind, CRC and length. A kind byte that is none of section 12.6, or is not that of the message the
command names, fails them (log entry 34). -/
def hostMsgOk (k : HostKind) (m : HostMsg) : Bool :=
  m.kind.toNat == k.code && m.crc == crc32 (portHeader m.kind.toNat m.tag m.len ++ m.body) && m.len.toNat == m.body.length
    && hostLengthOk k m.body.length

/-- A message of a kind as the host builds it. -/
def hostMsg (k : HostKind) (tag : Tag) (body : List Byte) : HostMsg :=
  let len : BitVec 16 := BitVec.ofNat 16 body.length
  { kind := BitVec.ofNat 8 k.code, tag := tag, len := len, body := body, crc := crc32 (portHeader k.code tag len ++ body) }

/-- The access codes of an OFFER body and an ACCESS directive. -/
def Access.code : Access → Nat
  | .opened => 0 | .capped => 1 | .exhausted => 2 | .blocked => 3

/-- The access state a code stands for. -/
def accessOfCode (n : Nat) : Option Access :=
  match n with
  | 0 => some .opened | 1 => some .capped | 2 => some .exhausted | 3 => some .blocked | _ => none

/-- The status codes of a reply. -/
def Status.code : Status → Nat
  | .ok => 0 | .malformed => 1 | .range => 2 | .state => 3 | .busy => 4 | .limit => 5

/-- The values of a CLASS directive. -/
def ClassValue.code : ClassValue → Nat
  | .game => 0 | .standard => 1 | .bulk => 2 | .released => 3

/-- The slot state codes of an ADVERT. -/
def SlotState.code : SlotState → Nat
  | .empty => 0 | .filling => 1 | .checking => 2 | .ready => 3 | .active => 4 | .retained => 5 | .failed => 6

/-- A Local Port message with its header and CRC. -/
def portWire (kind : Nat) (tag : Tag) (body : List Byte) : PortWire :=
  let len : BitVec 16 := BitVec.ofNat 16 body.length
  { kind := BitVec.ofNat 8 kind, tag := tag, len := len, body := body, crc := crc32 (portHeader kind tag len ++ body) }

/-- The kind codes 1..14 of the notices, in the order of section 12.2.1. -/
def Notice.code : Notice → Nat
  | .peerJoined _ => 1 | .peerLost _ => 2 | .idConflict _ => 3 | .rxOverflow _ _ => 4 | .txOverflow _ _ => 5
  | .handoffDone _ _ => 6 | .handoffFailed _ _ _ => 7 | .timeAdopted _ _ => 8 | .bookAdopted _ _ => 9
  | .blockRejected _ _ _ _ => 10 | .imageReady _ _ => 11 | .imageFailed _ _ => 12 | .storeRefused _ _ _ => 13
  | .trialReverted _ _ => 14

/-- The code of a slot. -/
def SlotId.code : SlotId → Nat
  | .a => 0 | .b => 1

/-- The subject of a notice whose subject has several parts: the guide does not say how they share the 8 bytes
(free value, log entry 7). -/
opaque freeSubject : Notice → Nat

/-- The detail of a notice whose detail has several parts or codes the guide does not give (free value, log entry 7). -/
opaque freeDetail : Notice → Nat

/-- The bytes of a READ-RECORD reply's record where the guide gives the order of its fields and not their widths
(free value, log entry 7). -/
opaque freeRecordBytes : RecordView → List Byte

/-- The values in use in the layout of R177. -/
def writeConfig (c : ActiveConfig) : List Byte :=
  beBytes 1 c.nodeId ++ beBytes 1 (flagBit c.gateway) ++ beBytes 2 c.period ++ beBytes 1 c.hysteresis
  ++ beBytes 1 (BitVec.ofInt 8 c.weakFloor).toNat ++ beBytes 2 c.ceiling ++ beBytes 2 c.fallback
  ++ beBytes 1 (flagBit c.steering) ++ beBytes 1 (flagBit c.fixedPace)

/-- The bytes of a READ-RECORD reply's record (section 12.6): a configuration in the layout of R177, no fields for an
empty record. -/
def recordBytes (v : RecordView) : List Byte :=
  match v with
  | .emptyRecord => []
  | .config c => writeConfig c
  | .storedConfig b => b
  | .client _ => freeRecordBytes v
  | .flow _ => freeRecordBytes v
  | .peer _ => freeRecordBytes v
  | .slot _ => freeRecordBytes v
  | .bookHeader _ => freeRecordBytes v
  | .selector _ => freeRecordBytes v
  | .time _ => freeRecordBytes v

/-- The subject of a notice as a number (section 12.2.1). -/
def Notice.subject (n : Notice) : Nat :=
  match n with
  | .peerJoined p => p
  | .peerLost p => p
  | .idConflict o => o
  | .rxOverflow p _ => p
  | .txOverflow p _ => p
  | .handoffDone c _ => c.toNat
  | .handoffFailed c _ _ => c.toNat
  | .timeAdopted p _ => p
  | .bookAdopted o _ => o
  | .imageReady k _ => k.code
  | .imageFailed k _ => k.code
  | .trialReverted k _ => k.code
  | .blockRejected _ _ _ _ => freeSubject n
  | .storeRefused _ _ _ => freeSubject n

/-- The detail of a notice as a number (section 12.2.1); an empty detail is all zeros (log entry 7), and so is that of a
TRIAL-REVERTED for a slot without a version (DESIGN CHOICE, log entry 46). -/
def Notice.detail (n : Notice) : Nat :=
  match n with
  | .peerJoined _ => 0
  | .peerLost _ => 0
  | .idConflict _ => 0
  | .rxOverflow _ k => k.code
  | .txOverflow _ k => k.code
  | .handoffDone _ p => p
  | .timeAdopted _ r => r
  | .bookAdopted _ v => v
  | .imageReady _ v => v
  | .imageFailed _ v => v
  | .trialReverted _ v => v.getD 0
  | .handoffFailed _ _ _ => freeDetail n
  | .blockRejected _ _ _ _ => freeDetail n
  | .storeRefused _ _ _ => freeDetail n

/-- The bytes of a message to the host (section 12.6): directives 31h..36h in the order of the table of R175. Bits 1 to 7 of
a notice's flags byte, which section 12.6 does not name, are 0 (DESIGN CHOICE, log entry 57). -/
def writePort : PortMessage → PortWire
  | .reply r => match r.view with
    | none => portWire 0x20 r.tag (beBytes 1 r.status.code)
    | some v => portWire 0x20 r.tag (beBytes 1 r.status.code ++ recordBytes v)
  | .pace p => portWire 0x31 0 (beBytes 1 (p.interval.getD 0) ++ beBytes 2 p.burst)
  | .restart => portWire 0x32 0 []
  | .access c a => portWire 0x33 0 (beBytes 6 c.toNat ++ beBytes 1 a.code)
  | .steer c tgt => portWire 0x34 0 (beBytes 6 c.toNat ++ beBytes 1 (tgt.getD 0))
  | .flowClass d c v => portWire 0x35 0 (beBytes 4 d.toNat ++ beBytes 6 c.toNat ++ beBytes 1 v.code)
  | .refuseAssociation c => portWire 0x36 0 (beBytes 6 c.toNat)
  | .notice n o => portWire 0x40 0 (beBytes 1 n.code ++ beBytes 1 (flagBit o) ++ beBytes 8 n.subject ++ beBytes 8 n.detail)

/-! ### The Schedule Book (R78) -/

/-- A span as bytes: day mask, start, end. -/
def writeSpan (w : Span) : List Byte := [w.mask] ++ beBytes 2 w.start ++ beBytes 2 w.stop

/-- The code of a window's action (section 12.5). -/
def WindowAction.code : WindowAction → Nat
  | .block => 0 | .cap => 1

/-- A window as bytes. -/
def writeWindow (w : Window) : List Byte := writeSpan w.span ++ beBytes 1 w.action.code

/-- A profile as bytes; 0FFFFh stands for UNLIMITED. -/
def writeProfile (p : Profile) : List Byte :=
  beBytes 2 (p.allowance.getD 0xFFFF) ++ beBytes 1 p.windows.length ++ p.windows.flatMap writeWindow

/-- A book's bytes before its CRC. -/
def bookHead (b : Book) : List Byte :=
  beBytes 4 b.version ++ beBytes 1 b.origin ++ writeSpan b.quiet ++ b.profiles.flatMap writeProfile
  ++ beBytes 1 b.bindings.length ++ b.bindings.flatMap (fun x => beBytes 6 x.client.toNat ++ beBytes 1 x.profile)

/-- A book serialized, its CRC over every byte before it. -/
def writeBook (b : Book) : List Byte := bookHead b ++ crcBytes (crc32 (bookHead b))

/-- A span from the front of a run of bytes. -/
def readSpan (bs : List Byte) : Span :=
  { mask := BitVec.ofNat 8 (field bs 0 1), start := field bs 1 2, stop := field bs 3 2 }

/-- The windows of a profile, 6 bytes each; none when bytes run out or an action is neither BLOCK nor CAP. -/
def readWindows : Nat → List Byte → Option (List Window × List Byte)
  | 0, bs => some ([], bs)
  | n + 1, bs =>
    if bs.length < 6 then none
    else match field bs 5 1, readWindows n (bs.drop 6) with
      | 0, some (ws, rest) => some ({ span := readSpan bs, action := .block } :: ws, rest)
      | 1, some (ws, rest) => some ({ span := readSpan bs, action := .cap } :: ws, rest)
      | _, _ => none

/-- The profiles; none when bytes run out or a window count is above 8. -/
def readProfiles : Nat → List Byte → Option (List Profile × List Byte)
  | 0, bs => some ([], bs)
  | n + 1, bs =>
    if bs.length < 3 ∨ 8 < field bs 2 1 then none
    else match readWindows (field bs 2 1) (bs.drop 3) with
      | none => none
      | some (ws, rest) =>
        let allowance := if field bs 0 2 = 0xFFFF then none else some (field bs 0 2)
        (readProfiles n rest).map fun r => ({ allowance := allowance, windows := ws } :: r.1, r.2)

/-- The bindings, 7 bytes each. -/
def readBindings : Nat → List Byte → List Binding
  | 0, _ => []
  | n + 1, bs => { client := clientField bs 0, profile := field bs 6 1 } :: readBindings n (bs.drop 7)

/-- The book of a well-formed serialization (R78), its values as they stand; none when it is not well formed. -/
def readBook (bs : List Byte) : Option Book :=
  if bs.length < 10 then none
  else match readProfiles 16 (bs.drop 10) with
    | none => none
    | some (ps, rest) =>
      if rest.length < 5 ∨ 64 < field rest 0 1 then none
      else if rest.length ≠ 1 + 7 * field rest 0 1 + 4 then none
      else if field bs (bs.length - 4) 4 ≠ (crc32 (bs.take (bs.length - 4))).toNat then none
      else some { version := field bs 0 4, origin := field bs 4 1, quiet := readSpan (bs.drop 5), profiles := ps,
                  bindings := readBindings (field rest 0 1) (rest.drop 1) }

/-- A span with its values clamped (R87 step 2). -/
def Span.clamped (w : Span) : Span :=
  { mask := w.mask &&& 0x7F, start := min w.start 1439, stop := min w.stop 1440 }

/-- A book with its values clamped (R87 step 2). -/
def Book.clamped (b : Book) : Book :=
  { b with
    quiet := b.quiet.clamped
    profiles := b.profiles.map fun p =>
      { allowance := p.allowance.map (min · 1440), windows := p.windows.map fun w => { w with span := w.span.clamped } }
    bindings := b.bindings.map fun x => { x with profile := min x.profile 15 } }

/-- Whether one version and origin is higher than another (R77). -/
def bookHigher (v o v' o' : Nat) : Bool := v' < v || (v == v' && o' < o)

/-- The profile a book binds a client to: the latest binding, or 0 (R77). -/
def Book.profileOf (b : Book) (c : ClientId) : Nat :=
  match b.bindings.reverse.find? (fun x => x.client == c) with
  | some x => x.profile
  | none => 0

/-- A profile of a book by number. -/
def Book.profileAt (b : Book) (n : Nat) : Profile := b.profiles.getD n { allowance := none, windows := [] }

/-! ### The configuration record (R177) -/

/-- A field with its all-ones encoding read as the default and clamped to its range. -/
def clampField (raw ones deflt lo hi : Nat) : Nat := if raw = ones then deflt else max lo (min raw hi)

/-- The weak floor, a signed byte: all ones reads as the default. -/
def clampFloor (raw : Int) : Int := if raw = -1 then -82 else max (-90) (min raw (-70))

/-- A configuration record's 12 bytes as the values in use (R177). -/
def readConfig (b : List Byte) : ActiveConfig :=
  { nodeId := field b 0 1
    gateway := clampField (field b 1 1) 255 0 0 1 == 1
    period := clampField (field b 2 2) 65535 500 200 2000
    hysteresis := clampField (field b 4 1) 255 6 2 20
    weakFloor := clampFloor (signedByte b 5)
    ceiling := clampField (field b 6 2) 65535 400 100 800
    fallback := clampField (field b 8 2) 65535 60 0 1440
    steering := clampField (field b 10 1) 255 1 0 1 == 1
    fixedPace := clampField (field b 11 1) 255 0 0 1 == 1 }

/-- A boolean field's byte is 0, 1 or all ones (R174). -/
def booleanByteOk (n : Nat) : Bool := n == 0 || n == 1 || n == 255

/-! ### Records in the store (R129, section 12.5) -/

/-- The kind code a record area's records carry. -/
def Area.recordKind : Area → Nat
  | .configActive | .configStaged => 1
  | .selector _ => 2
  | .book => 3
  | .manifest _ => 4

/-- A record as bytes: kind, body length, body, CRC over every byte before it. -/
def writeRecord (a : Area) (body : List Byte) : List Byte :=
  let head := beBytes 1 a.recordKind ++ beBytes 2 body.length ++ body
  head ++ crcBytes (crc32 head)

/-- The slot a stored code names: A 0, B 1. -/
def slotOfCode (n : Nat) : SlotId := if n = 0 then .a else .b

/-- A selector record's 12 bytes. -/
def writeSelector (seqNo : Nat) (s : Selector) : List Byte :=
  beBytes 4 seqNo ++ beBytes 1 s.booted.code ++ beBytes 1 s.confirmed.code ++ beBytes 1 (flagBit s.trial)
  ++ beBytes 1 s.trialStarts ++ beBytes 4 s.floor

/-- A selector and its sequence number from a record's body; a body of another length than 12 bytes makes the copy one that
is not valid (DESIGN CHOICE, log entry 18). -/
def readSelector (b : List Byte) : Option (Nat × Selector) :=
  if b.length = 12 then
    some (field b 0 4, { booted := slotOfCode (field b 4 1), confirmed := slotOfCode (field b 5 1),
                         trial := field b 6 1 != 0, trialStarts := field b 7 1, floor := field b 8 4 })
  else none

end Sys2Proof.Machine
end

