-- ==== Sys2Proof/Machine/Flags.lean ====
section
/-! DEFINITION. The flags the part raises toward the host: the notice FIFO and its overflow flag (R176), the dirty
set of directive subjects (R175), and the reply path (R172). -/

namespace Sys2Proof.Machine

/-- Raise a notice (R176): it joins the tail, or is dropped and the overflow flag set when 16 are held. -/
def State.raise (n : Notice) (s : State) : State :=
  if s.port.notices.length < Config.noticeEntries then
    { s with port := { s.port with notices := s.port.notices ++ [n] } }
  else { s with port := { s.port with overflow := true } }

/-- Mark PACE dirty (R122). -/
def State.markPace (s : State) : State :=
  { s with port := { s.port with dirty := { s.port.dirty with pace := true } } }

/-- Mark RESTART dirty (R164, R166, R170). -/
def State.markRestart (s : State) : State :=
  { s with port := { s.port with dirty := { s.port.dirty with restart := true } } }

/-- Set or clear a slot's ACCESS mark (R29, R37). -/
def State.setAccessMark (i : Fin 64) (v : Bool) (s : State) : State :=
  { s with port := { s.port with dirty := { s.port.dirty with access := putSlot s.port.dirty.access i v } } }

/-- Set or clear a slot's STEER mark (R29, R37). -/
def State.setSteerMark (i : Fin 64) (v : Bool) (s : State) : State :=
  { s with port := { s.port with dirty := { s.port.dirty with steer := putSlot s.port.dirty.steer i v } } }

/-- Set or clear a flow slot's CLASS mark (R117). -/
def State.setClassMark (j : Fin 128) (v : Bool) (s : State) : State :=
  { s with port := { s.port with dirty := { s.port.dirty with cls := putSlot s.port.dirty.cls j v } } }

/-- A settled reply joins the tail of the reply path (R172). -/
def State.reply (tag : Tag) (status : Status) (s : State) : State :=
  { s with port := { s.port with replies := s.port.replies ++ [{ tag := tag, status := status, view := none }] } }

/-- A READ-RECORD reply with its record (R173). -/
def State.replyWith (tag : Tag) (view : RecordView) (s : State) : State :=
  { s with port := { s.port with replies := s.port.replies ++ [{ tag := tag, status := .ok, view := some view }] } }

/-- Requests whose replies wait on a store completion (R171): a WRITE-CONFIG, a READ-RECORD of the staged
configuration and a CONFIRM-IMAGE each wait on an operation that carries their tag. -/
def StoreOp.awaitsReply (op : StoreOp) : Bool :=
  match op.owner, op.kind with
  | .writeConfig _, _ => true
  | .readConfig _, _ => true
  | _, .selectorWrite _ (.confirm _) _ _ => true
  | _, _ => false

/-- The operations in the Store Controller, the one in flight first. -/
def State.storeOps (s : State) : List StoreOp := s.store.inflight.toList ++ s.store.waiting

/-- The requests the port holds whose replies have not been sent (R171). -/
def State.heldRequests (s : State) : Nat :=
  s.port.replies.length + (s.storeOps.filter StoreOp.awaitsReply).length

/-- The value of a flow slot's CLASS subject (R117). -/
def FlowSlot.classValue : FlowSlot → Option ClassValue
  | .free => none
  | .release _ _ => some .released
  | .used f => match f.state with
    | .sampling | .reserved => none
    | .admitted => some .game
    | .waiting | .idle | .standard => some .standard
    | .bulk => some .bulk

/-- The value of a record's STEER subject (R37). -/
def ClientRecord.steerValue (r : ClientRecord) : Option Nat :=
  match r.state with
  | .handing => r.offerTarget
  | _ => none

end Sys2Proof.Machine
end

