-- ==== Sys2Proof/Machine/Ops.lean ====
section
/-! DEFINITION. Operations shared by the units: the flash as an addressed memory, the clock, ordering of lists, the
lookups of the tables, and the transmit side of the Peer Link Interface. -/

namespace Sys2Proof.Machine

/-! ### The flash (R128, R129): a byte not listed reads as all ones -/

/-- What a byte that nothing has written reads as (R129: an area never written is all ones). -/
def Memory.unlisted : Byte := 0xFF

/-- The byte at an address. -/
def Memory.read (mem : List Host.Cell) (a : Nat) : Byte :=
  match mem.find? (fun c => c.1 == a) with
  | some c => c.2
  | none => Memory.unlisted

/-- A run of bytes. -/
def Memory.readBytes (mem : List Host.Cell) (a n : Nat) : List Byte := (List.range n).map fun i => Memory.read mem (a + i)

/-- The cells of a run of bytes, leaving out those that read as an unlisted byte does. -/
def Memory.cellsOf : Nat → List Byte → List Host.Cell
  | _, [] => []
  | a, b :: bs => if b = Memory.unlisted then Memory.cellsOf (a + 1) bs else (a, b) :: Memory.cellsOf (a + 1) bs

/-- Replace the bytes of one range. Every change of the flash goes through here, which keeps the canonical form. -/
def Memory.writeBytes (mem : List Host.Cell) (a : Nat) (bs : List Byte) : List Host.Cell :=
  mem.filter (fun c => c.1 < a) ++ Memory.cellsOf a bs ++ mem.filter (fun c => a + bs.length ≤ c.1)

/-- Erase a range to all ones. -/
def Memory.erase (mem : List Host.Cell) (a n : Nat) : List Host.Cell :=
  mem.filter (fun c => c.1 < a) ++ mem.filter (fun c => a + n ≤ c.1)

/-- The canonical form: addresses strictly rising, and no cell that reads as an unlisted byte does. -/
def Memory.wf (mem : List Host.Cell) : Bool :=
  decide (mem.Pairwise (fun c d => c.1 < d.1)) && mem.all (fun c => c.2 != Memory.unlisted)

/-- A run of bytes with the device's own cells laid over it (log entry 2). -/
def overlay (cells : List Host.Cell) (a : Nat) : List Byte → List Byte
  | [] => []
  | b :: bs => (match cells.find? (fun c => c.1 == a) with | some c => c.2 | none => b) :: overlay cells (a + 1) bs

/-! ### Clock and lists -/

/-- Running time is at least `t` (section 1.4.1; log entry 1). -/
def State.clockTo (t : Nat) (s : State) : State := { s with now := max s.now t }

/-- Whether a start has completed (R165). -/
def State.running (s : State) : Bool := s.seq.stage == .running

/-- Whether the node id is usable (R177). -/
def State.configured (s : State) : Bool := 1 ≤ s.cfg.nodeId && s.cfg.nodeId ≤ 63

/-- Insert into a list kept in order, after the elements that are not later. -/
def insertBy {α : Type} (before : α → α → Bool) (x : α) : List α → List α
  | [] => [x]
  | y :: ys => if before x y then x :: y :: ys else y :: insertBy before x ys

/-- Sort by an order; elements that tie keep their places. -/
def sortBy {α : Type} (before : α → α → Bool) (xs : List α) : List α := xs.foldl (fun ys x => insertBy before x ys) []

/-- Every slot of a table in order. -/
def slots (n : Nat) : List (Fin n) := List.finRange n

/-- Work through a list, one state to the next. -/
def walk {α : Type} (xs : List α) (f : α → State → State) (s : State) : State := xs.foldl (fun s x => f x s) s

/-! ### Table lookups -/

/-- The Peer Table entry of a node (R12). -/
def State.peer (s : State) (id : Nat) : Option PeerEntry := s.peers.table.find? (fun p => p.id == id)

/-- The fresh peers (R15). -/
def State.freshPeers (s : State) : List PeerEntry := s.peers.table.filter (fun p => p.fresh)

/-- Whether a slot holds a record of the client. -/
def slotHolds (c : ClientId) (x : Option ClientRecord) : Bool :=
  match x with
  | some r => r.client == c
  | none => false

/-- The slot of a client's record (R21). -/
def State.findClient (s : State) (c : ClientId) : Option (Fin 64) :=
  (slots 64).find? (fun i => slotHolds c s.clients.table[i])

/-- The record in a slot. -/
def State.record (s : State) (i : Fin 64) : Option ClientRecord := s.clients.table[i]

/-- Write a record into its slot. -/
def State.putRecord (i : Fin 64) (r : ClientRecord) (s : State) : State :=
  { s with clients := { s.clients with table := putSlot s.clients.table i (some r) } }

/-- Whether a record is held here (R21). -/
def ClientRecord.held (r : ClientRecord) : Bool := r.state != .departed

/-- Whether the client is associated at this node (section 2.1.2). -/
def ClientRecord.associatedHere (r : ClientRecord) : Bool :=
  match r.state with
  | .provisional | .associated | .offering | .handing => true
  | .arriving | .departed => false

/-- The number of records held here (R21). -/
def State.clientCount (s : State) : Nat :=
  (s.clients.table.toList.filter fun x => match x with | some r => r.held | none => false).length

/-- The slot record of a slot (R142). -/
def State.slot (s : State) : SlotId → SlotRecord
  | .a => s.dist.slotA
  | .b => s.dist.slotB

/-- Replace a slot record. -/
def State.putSlotRecord (k : SlotId) (r : SlotRecord) (s : State) : State :=
  match k with
  | .a => { s with dist := { s.dist with slotA := r } }
  | .b => { s with dist := { s.dist with slotB := r } }

/-- The slot a fill uses (R142): the one that is not ACTIVE in the Slot Table. -/
def State.spareSlot (s : State) : SlotId := s.dist.active.other

/-! ### Images (R128, R142) -/

/-- The number of image blocks of an image of `n` chunks (R128). -/
def imageBlocks (n : Nat) : Nat := (n + 15) / 16

/-- The chunks of a block that lie within an image of `n` chunks (R128). -/
def imageChunks (n b : Nat) : List Nat := (List.range 16).filterMap fun i => if 16 * b + i < n then some (16 * b + i) else none

/-- The image length of a slot, at most the 4,096 chunks a slot holds, 0 when its manifest copy is absent (R128, R142). -/
def SlotRecord.length (r : SlotRecord) : Nat :=
  match r.manifest with
  | some m => min m.n Config.maxChunks
  | none => 0

/-- A block of a slot; one beyond 255 counts as contents unknown. -/
def SlotRecord.block (r : SlotRecord) (b : Nat) : Block :=
  if h : b < 256 then r.blocks[b] else Block.blank

/-- A slot with one block replaced. -/
def SlotRecord.putBlock (r : SlotRecord) (b : Nat) (x : Block) : SlotRecord :=
  if h : b < 256 then { r with blocks := r.blocks.set b x h } else r

/-- The mark of a chunk of a block. -/
def Block.mark (b : Block) (i : Nat) : ChunkMark :=
  if h : i < 16 then b.chunks[i] else .missing

/-- A block with one chunk's mark replaced. -/
def Block.setMark (b : Block) (i : Nat) (m : ChunkMark) : Block :=
  if h : i < 16 then { b with chunks := b.chunks.set i m h } else b

/-- A chunk's mark in a slot. -/
def SlotRecord.mark (r : SlotRecord) (chunk : Nat) : ChunkMark := (r.block (chunk / 16)).mark (chunk % 16)

/-- Whether a block of a slot is VERIFIED or counts as VERIFIED (R142). -/
def SlotRecord.blockVerified (r : SlotRecord) (b : Nat) : Bool :=
  decide (b < imageBlocks r.length) &&
    match r.state with
    | .active | .ready | .retained | .checking => true
    | _ => (r.block b).state == .verified

/-- Whether a slot holds a version it can serve (R144, R150): ACTIVE, READY, RETAINED or CHECKING, or FILLING with
its manifest present. -/
def SlotRecord.serves (r : SlotRecord) (v : Nat) : Bool :=
  r.version == some v &&
    match r.state with
    | .active | .ready | .retained | .checking => true
    | .filling => r.manifest.isSome
    | .empty | .failed => false

/-- The slot that serves a version. -/
def State.servingSlot (s : State) (v : Nat) : Option SlotId :=
  if (s.slot .a).serves v then some .a else if (s.slot .b).serves v then some .b else none

/-- The booted version (R158): the version in the booted slot's manifest copy, or 0. -/
def State.bootedVersion (s : State) : Nat :=
  match (s.slot s.act.sel.booted).manifest with
  | some m => m.version
  | none => 0

/-! ### The transmit side (R5 to R8) -/

/-- Whether a frame is the one in the ADVERT place. -/
def Frame.isAdvert (f : Frame) : Bool := f.body.kind == .advert

/-- Whether a frame is a CHUNK. -/
def Frame.isChunk (f : Frame) : Bool := f.body.kind == .chunk

/-- Whether an operation is a read of the serve engine. -/
def StoreOp.isServe (op : StoreOp) : Bool :=
  match op.owner with
  | .serve _ _ => true
  | _ => false

/-- The serve engine's reads that hold a place for their CHUNK (R6). -/
def State.heldPlaces (s : State) : Nat := (s.storeOps.filter StoreOp.isServe).length

/-- Frames in the transmit queue, with the places held (R6, R7). -/
def State.txCount (s : State) : Nat := (s.pli.tx.filter fun f => !f.isAdvert).length + s.heldPlaces

/-- CHUNK frames in the transmit queue, with the places held (R6). -/
def State.txChunkCount (s : State) : Nat := (s.pli.tx.filter Frame.isChunk).length + s.heldPlaces

/-- There is room for a CHUNK (R6). -/
def State.roomForChunk (s : State) : Bool := s.txChunkCount < Config.txChunks && s.txCount < Config.txFrames

/-- Put a frame at the tail of the transmit order; the overflow run ends (R5, R7). -/
def State.placeFrame (dest : Nat) (body : FrameBody) (s : State) : State :=
  { s with pli := { s.pli with tx := s.pli.tx ++ [{ sender := s.cfg.nodeId, dest := dest, body := body }], txRun := false } }

/-- Send a frame that is neither CHUNK nor ADVERT: placed, or dropped when 12 are queued (R7). An unconfigured part
sends nothing (R8). -/
def State.send (dest : Nat) (body : FrameBody) (s : State) : State :=
  if !s.configured then s
  else if s.txCount < Config.txFrames then s.placeFrame dest body
  else if s.pli.txRun then s
  else State.raise (.txOverflow dest body.kind) { s with pli := { s.pli with txRun := true } }

/-- Send a CHUNK into the place its read held (R6). -/
def State.sendChunk (dest : Nat) (version index : Nat) (data : List Byte) (s : State) : State :=
  if !s.configured then s else s.placeFrame dest (.chunk version index data)

/-- Put a new ADVERT in its place: in the waiting one's position, or at the tail (R5). -/
def State.placeAdvert (a : Advert) (s : State) : State :=
  let f : Frame := { sender := s.cfg.nodeId, dest := 0, body := .advert a }
  if !s.configured then s
  else if s.pli.tx.any Frame.isAdvert then
    { s with pli := { s.pli with tx := s.pli.tx.map fun g => if g.isAdvert then f else g } }
  else { s with pli := { s.pli with tx := s.pli.tx ++ [f] } }

end Sys2Proof.Machine
end

