-- ==== Sys2Proof/Machine/Store.lean ====
section
/-! DEFINITION. The Store Controller (chapter 9): the map of the store, submission and its checks, going into flight,
what each operation does to the flash, and the completion with the operations it launches. -/

namespace Sys2Proof.Machine

/-! ### The map (R128) -/

/-- The store block of a record area. -/
def Area.block : Area → Nat
  | .configActive => 0
  | .configStaged => 1
  | .selector .zero => 2
  | .selector .one => 3
  | .book => 4
  | .manifest .a => 5
  | .manifest .b => 6

/-- The first address of a record area. -/
def Area.base (a : Area) : Nat := a.block * Config.blockBytes

/-- The first address of a slot. -/
def SlotId.base : SlotId → Nat
  | .a => 0x400000
  | .b => 0x800000

/-- The address of a chunk of a slot. -/
def chunkAddr (k : SlotId) (i : Nat) : Nat := k.base + i * Config.chunkBytes

/-- The address of a block of a slot. -/
def blockAddr (k : SlotId) (b : Nat) : Nat := k.base + b * Config.blockBytes

/-! ### Records (R129) -/

/-- The body of the record in an area, as the device returns its bytes; none when it reads invalid. -/
def readArea (cells : List Host.Cell) (flash : List Host.Cell) (a : Area) : Option (List Byte) :=
  let at0 := fun off n => overlay cells (a.base + off) (Memory.readBytes flash (a.base + off) n)
  let head := at0 0 3
  let n := field head 1 2
  if field head 0 1 ≠ a.recordKind ∨ Config.blockBytes < n + 7 then none
  else
    let body := at0 3 n
    if field (at0 (3 + n) 4) 0 4 = (crc32 (head ++ body)).toNat then some body else none

/-! ### Checks at submission (R132 to R134, R136 to R139) -/

/-- The outcome of a submission (R131). -/
inductive Submitted where
  | accepted | queueFull | range | isProtected | badState
  deriving DecidableEq, Repr

/-- The unit an owner belongs to (R133). -/
def Owner.unit : Owner → UnitName
  | .start => .startSequence
  | .fill | .serve _ _ => .distribution
  | .schedule => .schedule
  | .activation => .activation
  | .writeConfig _ | .readConfig _ => .localPort

/-- A protected slot (R133): the booted one and, while the trial flag is set, the confirmed one. -/
def Selector.protects (sel : Selector) (k : SlotId) : Bool := k == sel.booted || (sel.trial && k == sel.confirmed)

/-- The unit a record write of an area is accepted from (R134). -/
def Area.writableBy (a : Area) (o : Owner) : Bool :=
  match a, o with
  | .configActive, .start => true
  | .configStaged, .writeConfig _ => true
  | .selector _, .activation => true
  | .selector _, .start => true
  | .book, .schedule => true
  | .manifest _, .fill => true
  | _, _ => false

/-- A protected area for a submitter (R133). -/
def Area.isProtected (sel : Selector) (a : Area) (o : Owner) : Bool :=
  match a with
  | .manifest k => sel.protects k
  | .selector _ => !(o == .activation || o == .start)
  | .configActive => o != .start
  | .configStaged | .book => false

/-- Whether an operation is aimed at something protected (R133, R134), under a selector. -/
def StoreOp.isProtected (sel : Selector) (op : StoreOp) : Bool :=
  match op.kind with
  | .programChunk k _ _ _ => sel.protects k
  | .eraseBlock k _ _ => sel.protects k
  | .eraseArea a => op.owner != .start || a.isProtected sel op.owner
  | .recordWrite a _ _ => !a.writableBy op.owner || a.isProtected sel op.owner
  | .selectorWrite _ _ _ _ => !(op.owner == .activation || op.owner == .start)
  | .readChunk _ _ _ | .verifyBlock _ _ _ _ | .checkImage _ _ _ _ | .recordRead _ => false

/-- Whether a submission is refused with RANGE (R132). -/
def State.outOfRange (s : State) (op : StoreOp) : Bool :=
  match op.kind with
  | .readChunk k _ i => decide ((s.slot k).length ≤ i)
  | .programChunk k _ i _ => decide ((s.slot k).length ≤ i)
  | .eraseBlock k _ b =>
    if op.owner == .start || op.owner == .activation then decide (255 < b) else decide (imageBlocks (s.slot k).length ≤ b)
  | .verifyBlock k _ b _ => if op.owner == .start then decide (255 < b) else decide (imageBlocks (s.slot k).length ≤ b)
  | .checkImage k _ _ _ => (s.slot k).manifest.isNone
  | .eraseArea _ | .recordWrite _ _ _ | .selectorWrite _ _ _ _ | .recordRead _ => false

/-- Every chunk of a block within the image is programmed (R137, R138). -/
def SlotRecord.blockProgrammed (r : SlotRecord) (b : Nat) : Bool :=
  (imageChunks r.length b).all fun i => r.mark i == .programmed

/-- Whether the Slot Table stands as the operation needs (R136 to R139). The start sequence's operations are not
tied to it (R135, R138, R139). -/
def State.slotStateOk (s : State) (op : StoreOp) : Bool :=
  if op.owner == .start then true
  else match op.kind with
  | .eraseBlock k _ b => (s.slot k).state == .filling && ((s.slot k).block b).state == .dirty
  | .programChunk k _ i _ =>
    (s.slot k).state == .filling && ((s.slot k).block (i / 16)).state == .opened && (s.slot k).mark i == .missing
  | .verifyBlock k _ b _ =>
    (s.slot k).state == .filling && ((s.slot k).block b).state == .opened && (s.slot k).blockProgrammed b
  | .checkImage k _ _ _ => (s.slot k).state == .checking
  | _ => true

/-- What a STORE-REFUSED notice names (R133). -/
def OpKind.refusal : OpKind → Option (StoreTarget × RefusedKind)
  | .programChunk k _ i _ => some (.chunk k i, .programChunk)
  | .eraseBlock k _ b => some (.block k b, .eraseBlock)
  | .eraseArea a => some (.area a, .eraseBlock)
  | .recordWrite a _ _ => some (.area a, .recordWrite)
  | .selectorWrite _ _ _ _ => some (.selectorCopies, .recordWrite)
  | .readChunk _ _ _ | .verifyBlock _ _ _ _ | .checkImage _ _ _ _ | .recordRead _ => none

/-- Raise STORE-REFUSED for a PROTECTED outcome (R133). -/
def State.raiseRefused (op : StoreOp) (s : State) : State :=
  match op.kind.refusal with
  | some (target, kind) => s.raise (.storeRefused target kind op.owner.unit)
  | none => s

/-! ### Going into flight (R131, R134) -/

/-- A selector write takes its copy and sequence number when it goes into flight (R134). The number after 0FFFFFFFFh is 0
(DESIGN CHOICE, log entry 41). -/
def StoreUnit.direct (st : StoreUnit) (op : StoreOp) : StoreOp :=
  match op.kind with
  | .selectorWrite n p sel _ =>
    let copy := match st.copy with | some c => c.other | none => .zero
    { op with kind := .selectorWrite n p sel (some (copy, (st.seqNo + 1) % Config.word32)) }
  | _ => op

/-- The Slot Table's move at an accepted submission (R136 to R138). -/
def State.markAccepted (op : StoreOp) (s : State) : State :=
  if op.owner == .start then s
  else match op.kind with
  | .eraseBlock k _ b =>
    s.putSlotRecord k ((s.slot k).putBlock b { (s.slot k).block b with state := .erasing })
  | .programChunk k _ i _ =>
    s.putSlotRecord k ((s.slot k).putBlock (i / 16) (((s.slot k).block (i / 16)).setMark (i % 16) .pending))
  | .verifyBlock k _ b _ =>
    s.putSlotRecord k ((s.slot k).putBlock b { (s.slot k).block b with state := .verifying })
  | _ => s

/-- Submit an operation (R131): the checks, then flight, a place in the queue, or QUEUE-FULL. Where RANGE and PROTECTED both
apply, or STATE and QUEUE-FULL, the first of the two is the answer (DESIGN CHOICE, log entry 59). -/
def State.submit (op : StoreOp) (s : State) : State × Submitted :=
  if s.outOfRange op then (s, .range)
  else if op.isProtected s.act.sel then (s.raiseRefused op, .isProtected)
  else if !s.slotStateOk op then (s, .badState)
  else if s.store.inflight.isNone ∧ s.store.waiting = [] then
    (State.markAccepted op { s with store := { s.store with inflight := some (s.store.direct op) } }, .accepted)
  else if s.store.waiting.length < Config.storeWaiting then
    (State.markAccepted op { s with store := { s.store with waiting := s.store.waiting ++ [op] } }, .accepted)
  else (s, .queueFull)

/-! ### Results -/

/-- The results a completion can report (R130). -/
inductive StoreResult where
  | ok
  | data (bytes : List Byte)
  | matched (crc : Crc)
  | mismatched (crc : Crc)
  | valid (body : List Byte)
  | invalid
  | failed
  | cancelled
  | isProtected
  deriving DecidableEq, Repr

/-- Whether a slot holds a version in a state that a READ-CHUNK serves (R135). -/
def SlotRecord.readable (r : SlotRecord) (v : Nat) : Bool :=
  r.version == some v &&
    match r.state with
    | .active | .ready | .retained | .filling | .checking => true
    | .empty | .failed => false

/-- Whether an operation that goes into flight is stale (R135), or is a program whose chunk is no longer pending (R137). -/
def State.stale (s : State) (op : StoreOp) : Bool :=
  if op.owner == .start then false
  else match op.kind with
  | .programChunk k v i _ =>
    !((s.slot k).state == .filling && (s.slot k).version == some v) || (s.slot k).mark i != .pending
  | .eraseBlock k v _ | .verifyBlock k v _ _ => !((s.slot k).state == .filling && (s.slot k).version == some v)
  | .checkImage k v _ _ => !((s.slot k).state == .checking && (s.slot k).version == some v)
  | .readChunk k v _ => !(s.slot k).readable v
  | _ => false

/-- The head of the queue goes into flight; one that is protected or stale completes at once without touching the
flash, and the next follows it (R131, R133, R135). One that is both completes PROTECTED (DESIGN CHOICE, log entry 58). -/
def launch : List StoreOp → State → State × List (StoreOp × StoreResult)
  | [], s => ({ s with store := { s.store with waiting := [] } }, [])
  | op :: rest, s =>
    if op.isProtected s.act.sel then
      let r := launch rest (s.raiseRefused op)
      (r.1, (op, .isProtected) :: r.2)
    else if s.stale op then
      let r := launch rest s
      (r.1, (op, .cancelled) :: r.2)
    else ({ s with store := { s.store with inflight := some (s.store.direct op), waiting := rest } }, [])

/-! ### What an operation does to the flash (R130) -/

/-- The flash with an area that reads invalid: what is left there is kept, unless it would still read valid (log entry
2). -/
def leaveInvalid (flash : List Host.Cell) (a : Area) : List Host.Cell :=
  if (readArea [] flash a).isSome then Memory.erase flash a.base Config.blockBytes else flash

/-- The flash with an area that reads as it did before or invalid: what is left there is kept, unless it would read valid
otherwise than before (log entry 2). -/
def leaveAsBefore (before flash : List Host.Cell) (a : Area) : List Host.Cell :=
  if readArea [] flash a = readArea [] before a then flash else leaveInvalid flash a

/-- Bytes of a range that the device left otherwise than it was told (log entry 2). -/
def spoil (cells : List Host.Cell) (flash : List Host.Cell) (a n : Nat) : List Host.Cell :=
  (cells.filter fun c => a ≤ c.1 && c.1 < a + n).foldl (fun m c => Memory.writeBytes m c.1 [c.2]) flash

/-- The address and length of the range an operation may change. -/
def StoreOp.writes (op : StoreOp) : Option (Nat × Nat) :=
  match op.kind with
  | .programChunk k _ i _ => some (chunkAddr k i, Config.chunkBytes)
  | .eraseBlock k _ b => some (blockAddr k b, Config.blockBytes)
  | .eraseArea a => some (a.base, Config.blockBytes)
  | .recordWrite a _ _ => some (a.base, Config.blockBytes)
  | .selectorWrite _ _ _ (some (c, _)) => some ((Area.selector c).base, Config.blockBytes)
  | .selectorWrite _ _ _ none => none
  | .readChunk _ _ _ | .verifyBlock _ _ _ _ | .checkImage _ _ _ _ | .recordRead _ => none

/-- The flash an operation leaves that does not run to its end well: bytes of its range as the device says, a manifest area
that was to be erased reading invalid (R170), and a selector copy as it did before or invalid, so that a start reads the
selector as it was before the write (R134). -/
def spoilOp (cells flash : List Host.Cell) (op : StoreOp) : List Host.Cell :=
  match op.writes with
  | some (a, n) =>
    match op.kind with
    | .eraseArea (.manifest k) => leaveInvalid (spoil cells flash a n) (.manifest k)
    | .selectorWrite _ _ _ (some (c, _)) => leaveAsBefore flash (spoil cells flash a n) (.selector c)
    | _ => spoil cells flash a n
  | none => flash

/-- Write a record: the area is erased and the record programmed within it (R134). -/
def writeArea (flash : List Host.Cell) (a : Area) (body : List Byte) : List Host.Cell :=
  Memory.writeBytes (Memory.erase flash a.base Config.blockBytes) a.base ((writeRecord a body).take Config.blockBytes)

/-- The result of a read-back: MATCH or MISMATCH with the computed CRC (R130). -/
def readBack (expected : Crc) (bytes : List Byte) : StoreResult :=
  if crc32 bytes = expected then .matched (crc32 bytes) else .mismatched (crc32 bytes)

/-- The flash and the result when the operation in flight runs to its end on a device (R130). -/
def State.perform (s : State) (op : StoreOp) (d : Device) : List Host.Cell × StoreResult :=
  let flash := s.store.flash
  if d.failed then
    (spoilOp d.cells flash op, match op.kind with | .recordRead _ => .invalid | _ => .failed)
  else match op.kind with
    | .readChunk k _ i =>
      (flash, .data (overlay d.cells (chunkAddr k i) (Memory.readBytes flash (chunkAddr k i) Config.chunkBytes)))
    | .programChunk k _ i data =>
      (spoil d.cells (Memory.writeBytes flash (chunkAddr k i) (data.take Config.chunkBytes)) (chunkAddr k i) Config.chunkBytes,
       .ok)
    | .eraseBlock k _ b => (Memory.erase flash (blockAddr k b) Config.blockBytes, .ok)
    | .eraseArea a => (Memory.erase flash a.base Config.blockBytes, .ok)
    | .verifyBlock k _ b crc =>
      let n := (imageChunks (s.slot k).length b).length * Config.chunkBytes
      (flash, readBack crc (overlay d.cells (blockAddr k b) (Memory.readBytes flash (blockAddr k b) n)))
    | .checkImage k _ n crc =>
      (flash, readBack crc (overlay d.cells k.base (Memory.readBytes flash k.base (n * Config.chunkBytes))))
    | .recordWrite a _ body => (writeArea flash a body, .ok)
    | .selectorWrite _ _ sel (some (c, q)) => (writeArea flash (.selector c) (writeSelector q sel), .ok)
    | .selectorWrite _ _ _ none => (flash, .failed)
    | .recordRead a =>
      (flash, match readArea d.cells flash a with | some body => .valid body | none => .invalid)

/-- The values a selector write's OK completion moves at once (R134, R158): the current copy and sequence, and the
held selector, with which the protection moves. -/
def State.takeSelector (op : StoreOp) (r : StoreResult) (s : State) : State :=
  match op.kind, r with
  | .selectorWrite _ _ sel (some (c, q)), .ok =>
    { s with store := { s.store with copy := some c, seqNo := q }, act := { s.act with sel := sel } }
  | _, _ => s

/-- The operation in flight completes and the next goes into flight; the completions to deliver, in order (R131). -/
def State.complete (op : StoreOp) (d : Device) (s : State) : State × List (StoreOp × StoreResult) :=
  let p := s.perform op d
  let s' := State.takeSelector op p.2 { s with store := { s.store with flash := p.1, inflight := none } }
  let r := launch s'.store.waiting s'
  (r.1, (op, p.2) :: r.2)

/-! ### A start cuts the operation in flight short (R141) -/

/-- The flash a cut-short operation leaves: a partly erased block, a partly programmed chunk, or an invalid area. -/
def cutShort (cells : List Host.Cell) (flash : List Host.Cell) (op : StoreOp) : List Host.Cell :=
  let left := spoilOp cells flash op
  match op.kind with
  | .recordWrite area _ _ => leaveInvalid left area
  | .selectorWrite _ _ _ (some (c, _)) => leaveInvalid left (.selector c)
  | _ => left

end Sys2Proof.Machine
end

