-- ==== Sys2Proof/Machine/Access.lean ====
section
/-! DEFINITION. Access states (chapter 6): the windows, the counted figure and the computation of the access state; and
the figures the Time Base derives from mesh time (00_scope.md section 5.0). -/

namespace Sys2Proof.Machine

/-- The day number of a mesh time. -/
def dayOf (t : Nat) : Nat := t / 86400

/-- The weekday of a mesh time: 0 for Monday. -/
def weekdayOf (t : Nat) : Nat := dayOf t % 7

/-- The minute of day of a mesh time. -/
def minuteOf (t : Nat) : Nat := t % 86400 / 60

/-- The minute index of a mesh time (R71). -/
def minuteIndexOf (t : Nat) : Nat := t / 60

/-- Whether a day mask marks a weekday; bit 0 is Monday (section 12.5). -/
def Span.marks (w : Span) (weekday : Nat) : Bool := w.mask.getLsbD weekday

/-- Whether a span is active at a weekday and minute of day (R88). -/
def Span.activeAt (w : Span) (weekday minute : Nat) : Bool :=
  if w.start < w.stop then w.marks weekday && (w.start ≤ minute && minute < w.stop)
  else if w.stop < w.start then
    (w.marks weekday && w.start ≤ minute) || (w.marks ((weekday + 6) % 7) && minute < w.stop)
  else false

/-- Whether a profile has an active window with an action (R91). -/
def Profile.hasActive (p : Profile) (a : WindowAction) (weekday minute : Nat) : Bool :=
  p.windows.any fun w => w.action == a && w.span.activeAt weekday minute

/-- The quiet-window test (R89): it fails while the time rank is 15. -/
def State.quietNow (s : State) : Bool :=
  s.time.rank < Config.rankUnknown && s.sched.book.quiet.activeAt (weekdayOf s.time.mesh) (minuteOf s.time.mesh)

/-- The figure a PROVISIONAL expiry sets (R68). -/
def fallbackFigure (allowance : Option Nat) (fallback used : Nat) : Nat :=
  match allowance with
  | some a => max used (a - min a fallback)
  | none => used

/-- The counted figure of a record (R90). -/
def countedFigure (p : Profile) (fallback : Nat) (r : ClientRecord) : Nat :=
  match r.state with
  | .provisional => fallbackFigure p.allowance fallback r.used
  | _ => r.used

/-- Whether the allowance line applies (R90). -/
def allowanceLine (p : Profile) (fallback : Nat) (r : ClientRecord) : Bool :=
  match p.allowance with
  | some a => a ≤ countedFigure p fallback r
  | none => false

/-- The access state while the time is known (R91). -/
def accessByWindows (p : Profile) (spent : Bool) (weekday minute : Nat) : Access :=
  if p.hasActive .block weekday minute then .blocked
  else if spent then .exhausted
  else if p.hasActive .cap weekday minute then .capped
  else .opened

/-- The access state while the time rank is 15 (R92). -/
def accessHeld (current : Access) (spent : Bool) : Access :=
  match current with
  | .blocked => .blocked
  | .exhausted => if spent then .exhausted else .opened
  | .opened => if spent then .exhausted else .opened
  | .capped => if spent then .exhausted else .capped

/-- The access state a computation gives a record (R91, R92). -/
def State.accessOf (s : State) (r : ClientRecord) : Access :=
  let p := s.sched.book.profileAt r.profile
  let spent := allowanceLine p s.cfg.fallback r
  if s.time.rank < Config.rankUnknown then
    accessByWindows p spent (weekdayOf s.time.mesh) (minuteOf s.time.mesh)
  else accessHeld r.access spent

end Sys2Proof.Machine
end

