-- ==== Sys2Proof/Machine/Priority.lean ====
section
/-! DEFINITION. The Priority Unit (chapters 7 and 8): the Flow Table, admission, re-test rounds, overshoot, the Pace
record and the update credits. -/

namespace Sys2Proof.Machine

/-! ### The Flow Table (R102, R106) -/

/-- Whether a flow holds its share (R102). -/
def FlowRecord.holdsShare (f : FlowRecord) : Bool :=
  match f.state with
  | .admitted | .reserved => true
  | .sampling | .waiting | .standard | .bulk | .idle => false

/-- Whether a slot's flow holds its share. -/
def FlowSlot.holdsShare : FlowSlot → Bool
  | .used f => f.holdsShare
  | .free | .release _ _ => false

/-- Whether a slot holds an ADMITTED flow. -/
def FlowSlot.isAdmitted : FlowSlot → Bool
  | .used f => f.state == .admitted
  | .free | .release _ _ => false

/-- The share a slot holds (R106). -/
def FlowSlot.heldShare : FlowSlot → Nat
  | .used f => if f.holdsShare then f.share.getD 0 else 0
  | .free | .release _ _ => 0

/-- Own reserved airtime (R106). -/
def State.ownReserved (s : State) : Nat := (s.prio.flows.toList.map FlowSlot.heldShare).sum

/-- The view total (R106). -/
def State.viewTotal (s : State) : Nat := s.ownReserved + (s.freshPeers.map fun p => p.advert.reserved).sum

/-- The flow in a slot. -/
def State.flow (s : State) (j : Fin 128) : FlowSlot := s.prio.flows[j]

/-- Whether this node holds an ADMITTED flow. -/
def State.anyAdmitted (s : State) : Bool := s.prio.flows.toList.any FlowSlot.isAdmitted

/-- Change a flow slot: the marks of the event that follow from it, and the CLASS subject at each change of its value
(R108, R117, R121). -/
def State.putFlow (j : Fin 128) (x : FlowSlot) (s : State) : State :=
  let old := s.flow j
  let s1 : State :=
    { s with
      prio := { s.prio with flows := putSlot s.prio.flows j x }
      ev := { s.ev with
        released := s.ev.released || (old.holdsShare && !x.holdsShare)
        admittedChanged := s.ev.admittedChanged || (old.isAdmitted != x.isAdmitted) } }
  if x.classValue.isSome && x.classValue != old.classValue then s1.setClassMark j true else s1

/-- The used slots that meet a condition, in slot order. -/
def State.flowsWhere (s : State) (p : FlowRecord → Bool) : List (Fin 128 × FlowRecord) :=
  (slots 128).filterMap fun j =>
    match s.flow j with
    | .used f => if p f then some (j, f) else none
    | .free => none
    | .release _ _ => none

/-- The slot of a client's flow with a digest. -/
def State.findFlow (s : State) (c : ClientId) (d : Digest) : Option (Fin 128) :=
  ((s.flowsWhere fun f => f.client == c && f.digest == d).head?).map Prod.fst

/-- The lowest-numbered free slot (R102). -/
def State.freeFlowSlot (s : State) : Option (Fin 128) := (slots 128).find? fun j => s.flow j == .free

/-- The number of free slots. -/
def State.freeFlowCount (s : State) : Nat := (s.prio.flows.toList.filter fun x => x == .free).length

/-- Remove the flow in a slot; it owes a release when it had a CLASS value (R111, R118). -/
def State.removeFlow (j : Fin 128) (s : State) : State :=
  match s.flow j with
  | .used f => s.putFlow j (if (FlowSlot.used f).classValue.isSome then .release f.digest f.client else .free)
  | .free => s
  | .release _ _ => s

/-- Remove every flow of a client (R29, R30, R111). -/
def State.removeClientFlows (c : ClientId) (s : State) : State :=
  walk ((s.flowsWhere fun f => f.client == c).map Prod.fst) State.removeFlow s

/-! ### Admission (R107 to R109) -/

/-- Earliest first by a time of the record; ties keep slot order. -/
def byTime (time : FlowRecord → Option Nat) (fs : List (Fin 128 × FlowRecord)) : List (Fin 128 × FlowRecord) :=
  sortBy (fun x y => (time x.2).getD 0 < (time y.2).getD 0) fs

/-- The outcome of the admission test for a share, given the client record (R107): none is ADMITTED. -/
def State.admission (s : State) (r : ClientRecord) (share : Nat) : Option WaitReason :=
  if r.state = .provisional then some .context
  else if r.access ≠ .opened then some .cap
  else if s.cfg.ceiling < s.viewTotal + share then some .airtime
  else none

/-- Put the flow in a slot to the admission test (R107). -/
def State.testFlow (j : Fin 128) (s : State) : State :=
  match s.flow j with
  | .used f =>
    match s.record f.slot with
    | some r =>
      match s.admission r (f.share.getD 0) with
      | none =>
        s.putFlow j (.used { f with state := .admitted, admittedAt := some s.now, reason := none, holdUntil := none })
      | some why => s.putFlow j (.used { f with state := .waiting, reason := some why })
    | none => s
  | .free => s
  | .release _ _ => s

/-- Whether a flow's last activity is less than 10,000 ms ago (R108). -/
def FlowRecord.recent (now : Nat) (f : FlowRecord) : Bool := now < f.lastActivity + Config.flowQuiet

/-- Whether a re-test round takes a flow (R108). -/
def FlowRecord.retestable (now : Nat) (f : FlowRecord) : Bool :=
  f.state == .waiting && f.reason != some .context && f.holdUntil.isNone && f.recent now

/-- The flows of a round, in order (R108). -/
def State.roundOrder (s : State) : List (Fin 128) :=
  (byTime FlowRecord.classifiedAt (s.flowsWhere (FlowRecord.retestable s.now))).map Prod.fst

/-- A re-test round (R108). -/
def State.round (s : State) : State := walk s.roundOrder State.testFlow s

/-- A FLOW-ACTIVE, or a FLOW-SAMPLE of a flow that is sampled already, at the flow in a slot (R103, R109). -/
def State.flowActivity (j : Fin 128) (s : State) : State :=
  match s.flow j with
  | .used f =>
    let renewed : FlowSlot := .used { f with lastActivity := s.now }
    match f.state with
    | .sampling | .admitted | .standard | .bulk => s.putFlow j renewed
    | .idle => (s.putFlow j renewed).testFlow j
    | .waiting =>
      if !f.recent s.now && f.holdUntil.isNone && f.reason != some .context then (s.putFlow j renewed).testFlow j
      else s.putFlow j renewed
    | .reserved => s
  | .free => s
  | .release _ _ => s

/-! ### Sampling and classification (R103 to R105) -/

/-- The intervals between consecutive stamps, modulo 65,536 (R104). -/
def intervals : List FlowSample → List Nat
  | x :: y :: rest => (y.stamp + 65536 - x.stamp) % 65536 :: intervals (y :: rest)
  | _ => []

/-- The mean size of 16 samples (R104). -/
def meanSizeOf (xs : List FlowSample) : Nat := (xs.map FlowSample.size).sum / 16

/-- The mean interval of 16 samples (R104). -/
def meanIntervalOf (xs : List FlowSample) : Nat :=
  match xs.head?, xs.getLast? with
  | some x, some y => (y.stamp + 65536 - x.stamp) % 65536 / 15
  | _, _ => 0

/-- The spread of the intervals: the largest less the smallest (R104). -/
def spreadOf (xs : List FlowSample) : Nat :=
  let is := intervals xs
  is.foldl max 0 - is.foldl min 65536

/-- The class of 16 samples (R104). -/
def classOf (xs : List FlowSample) : FlowClass :=
  let size := meanSizeOf xs
  let interval := meanIntervalOf xs
  if size ≤ 320 ∧ 5 ≤ interval ∧ interval ≤ 60 ∧ spreadOf xs ≤ interval / 2 then .game
  else if 1000 ≤ size then .bulk
  else .standard

/-- A quotient rounded up. -/
def ceilDiv (a b : Nat) : Nat := (a + b - 1) / b

/-- The share of a GAME flow (R105). -/
def shareOf (size interval linkRate : Nat) : Nat :=
  let pps := ceilDiv 1000 interval
  let cost := 300 + ceilDiv (size * 8) linkRate
  max 1 (min 250 (ceilDiv (2 * pps * cost) 1000))

/-- Classify a flow from its 16 samples (R104). -/
def State.classify (j : Fin 128) (f : FlowRecord) (r : ClientRecord) (s : State) : State :=
  let size := meanSizeOf f.samples
  let interval := meanIntervalOf f.samples
  let f1 := { f with meanSize := some size, meanInterval := some interval }
  match classOf f.samples with
  | .game =>
    let f2 := { f1 with cls := some .game, share := some (shareOf size interval r.linkRate), classifiedAt := some s.now }
    let out := s.admission r (shareOf size interval r.linkRate)
    match out with
    | none => s.putFlow j (.used { f2 with state := .admitted, admittedAt := some s.now, reason := none, holdUntil := none })
    | some why => s.putFlow j (.used { f2 with state := .waiting, reason := some why })
  | .bulk => s.putFlow j (.used { f1 with cls := some .bulk, state := .bulk })
  | .standard => s.putFlow j (.used { f1 with cls := some .standard, state := .standard })

/-- A new SAMPLING record (R103). -/
def FlowRecord.sampling (d : Digest) (i : Fin 64) (c : ClientId) (x : FlowSample) (now : Nat) : FlowRecord :=
  { digest := d, slot := i, client := c, state := .sampling, samples := [x], cls := none, meanSize := none,
    meanInterval := none, share := none, classifiedAt := none, admittedAt := none, lastActivity := now, reason := none,
    holdUntil := none }

/-- A FLOW-SAMPLE for a client that is associated here (R103). -/
def State.sampleFlow (i : Fin 64) (r : ClientRecord) (d : Digest) (x : FlowSample) (s : State) : State :=
  match s.findFlow r.client d with
  | none =>
    match s.freeFlowSlot with
    | some j => s.putFlow j (.used (FlowRecord.sampling d i r.client x s.now))
    | none => s
  | some j =>
    match s.flow j with
    | .used f =>
      if f.state = .sampling then
        let f1 := { f with samples := f.samples ++ [x], lastActivity := s.now }
        if Config.flowSamples ≤ f1.samples.length then s.classify j f1 r else s.putFlow j (.used f1)
      else if f.state = .reserved then s.putFlow j (.used { f with lastActivity := s.now })
      else s.flowActivity j
    | .free => s
    | .release _ _ => s

/-! ### Access changes (R112) -/

/-- A client's access state changed (R112). -/
def State.accessChanged (c : ClientId) (old new : Access) (s : State) : State :=
  if old = .opened ∧ new ≠ .opened then
    walk (s.flowsWhere fun f => f.client == c && f.state == .admitted)
      (fun x s => s.putFlow x.1 (.used { x.2 with state := .waiting, reason := some .cap, holdUntil := none })) s
  else if old ≠ .opened ∧ new = .opened then
    walk ((byTime FlowRecord.classifiedAt
        (s.flowsWhere fun f => f.client == c && f.state == .waiting && f.reason == some .cap && f.recent s.now)).map Prod.fst)
      State.testFlow s
  else s

/-! ### Handoff (R113 to R115) -/

/-- A flow as a frame carries it. -/
def FlowRecord.carried (f : FlowRecord) : CarriedFlow :=
  { digest := f.digest, share := f.share.getD 0, interval := f.meanInterval.getD 0 }

/-- The flows an OFFER carries (R52, R113). -/
def State.offerFlows (s : State) (c : ClientId) : List CarriedFlow :=
  ((byTime FlowRecord.admittedAt (s.flowsWhere fun f => f.client == c && f.state == .admitted)).take Config.carriedFlows).map
    fun x => x.2.carried

/-- The flows a CONTEXT carries (R64, R113). -/
def State.contextFlows (s : State) (c : ClientId) : List CarriedFlow :=
  ((byTime FlowRecord.admittedAt (s.flowsWhere fun f => f.client == c && f.state == .admitted)
    ++ byTime FlowRecord.classifiedAt
        (s.flowsWhere fun f => f.client == c && (f.state == .waiting || f.state == .idle))).take Config.carriedFlows).map
    fun x => x.2.carried

/-- A GAME flow made from a carried one. -/
def CarriedFlow.record (g : CarriedFlow) (i : Fin 64) (c : ClientId) (st : FlowState) (classified : Option Nat)
    (why : Option WaitReason) (now : Nat) : FlowRecord :=
  { digest := g.digest, slot := i, client := c, state := st, samples := [], cls := some .game, meanSize := none,
    meanInterval := some g.interval, share := some g.share, classifiedAt := classified, admittedAt := none,
    lastActivity := now, reason := why, holdUntil := none }

/-- Enter a carried flow in the lowest free slot, unless its digest has a record (R114, R115). -/
def State.enterCarried (i : Fin 64) (c : ClientId) (make : CarriedFlow → FlowRecord) (g : CarriedFlow) (s : State) : State :=
  if (s.findFlow c g.digest).isSome then s
  else match s.freeFlowSlot with
    | some j => s.putFlow j (.used { make g with slot := i, client := c })
    | none => s

/-- The RESERVED flows of an accepted OFFER (R114). -/
def State.reserveFlows (i : Fin 64) (c : ClientId) (gs : List CarriedFlow) (s : State) : State :=
  walk gs (State.enterCarried i c fun g => g.record i c .reserved none none s.now) s

/-- Settle one RESERVED flow (R115). -/
def State.settleFlow (opened : Bool) (x : Fin 128 × FlowRecord) (s : State) : State :=
  let f := { x.2 with classifiedAt := some s.now, lastActivity := s.now }
  s.putFlow x.1 (.used (if opened then { f with state := .admitted, admittedAt := some s.now }
    else { f with state := .waiting, reason := some .cap }))

/-- Settle the RESERVED flows of a record that has left ARRIVING (R115). -/
def State.settleReserved (r : ClientRecord) (s : State) : State :=
  walk (s.flowsWhere fun f => f.client == r.client && f.state == .reserved) (State.settleFlow (r.access == .opened)) s

/-- The flow list of a CONTEXT that resolves a PROVISIONAL record (R115). -/
def State.enterContext (i : Fin 64) (c : ClientId) (gs : List CarriedFlow) (s : State) : State :=
  walk gs (State.enterCarried i c fun g => g.record i c .waiting (some s.now) (some .context) s.now) s

/-- The WAITING flows with reason CONTEXT are tested once the record is resolved (R115). -/
def State.resolveFlows (c : ClientId) (s : State) : State :=
  walk ((byTime FlowRecord.classifiedAt
      (s.flowsWhere fun f => f.client == c && f.state == .waiting && f.reason == some .context)).map Prod.fst)
    State.testFlow s

/-! ### Overshoot (R116) -/

/-- The newest ADMITTED flow: the latest admitted-at, among equal times the higher slot (R116). -/
def State.newestAdmitted (s : State) : Option (Fin 128 × FlowRecord) :=
  (byTime FlowRecord.admittedAt (s.flowsWhere fun f => f.state == .admitted)).getLast?

/-- The nodes in view with reserved airtime above 0 (R116). -/
def State.reservingNodes (s : State) : Nat :=
  (s.freshPeers.filter fun p => decide (0 < p.advert.reserved)).length + (if 0 < s.ownReserved then 1 else 0)

/-- Demote while own reserved airtime is above the fair share and the view total above C (R116). -/
def demoteOver (fair : Nat) : Nat → State → State
  | 0, s => s
  | n + 1, s =>
    if fair < s.ownReserved ∧ s.cfg.ceiling < s.viewTotal then
      match s.newestAdmitted with
      | some x =>
        demoteOver fair n (s.putFlow x.1
          (.used { x.2 with state := .waiting, reason := some .overshoot, holdUntil := some (s.now + Config.overshootHold) }))
      | none => s
    else s

/-- The overshoot check (R116). -/
def State.overshoot (s : State) : State :=
  if s.cfg.ceiling < s.viewTotal then demoteOver (s.cfg.ceiling / s.reservingNodes) 128 s else s

/-! ### Pace and credits (R120 to R124) -/

/-- The service interval: the smallest mean interval among the ADMITTED flows (R120). -/
def State.serviceInterval (s : State) : Option Nat :=
  (s.flowsWhere fun f => f.state == .admitted).foldl
    (fun best x => match best with | none => some (x.2.meanInterval.getD 0) | some b => some (min b (x.2.meanInterval.getD 0))) none

/-- The bulk burst limit (R120). -/
def burstLimit (fixedPace : Bool) (interval : Option Nat) : Nat :=
  if fixedPace then Config.paceFloor
  else match interval with
    | none => Config.paceCeiling
    | some i => max Config.paceFloor (min Config.paceCeiling (i * 1000 / 2))

/-- The Pace record the ADMITTED set gives (R120). -/
def State.paceNow (s : State) : Pace :=
  { interval := s.serviceInterval, burst := burstLimit s.cfg.fixedPace s.serviceInterval }

/-- Work the Pace record out again; PACE is marked when it changed (R121, R122). -/
def State.workPace (s : State) : State :=
  if s.paceNow = s.prio.pace then s else State.markPace { s with prio := { s.prio with pace := s.paceNow } }

/-- The pull grant level (R123). -/
def State.pullLevel (s : State) : Nat :=
  if s.anyAdmitted then Config.creditsOwnGame
  else if s.freshPeers.any fun p => decide (0 < p.advert.reserved) then Config.creditsPeerGame
  else Config.creditsOpen

/-- The serve grant level (R123). -/
def State.serveLevel (s : State) : Nat := if s.anyAdmitted then Config.creditsOwnGame else Config.creditsOpen

/-- A credit period opens (R123). -/
def State.openCredits (s : State) : State :=
  { s with prio := { s.prio with pullCredits := s.pullLevel, serveCredits := s.serveLevel } }

/-- Cut the remaining credits to levels that have fallen (R124). -/
def State.cutCredits (s : State) : State :=
  { s with prio := { s.prio with pullCredits := min s.prio.pullCredits s.pullLevel,
                                 serveCredits := min s.prio.serveCredits s.serveLevel } }

/-- The round that a released share calls for (R108). -/
def State.retest (s : State) : State :=
  if s.ev.released then State.round { s with ev := { s.ev with released := false } } else s

/-- The Priority Unit's end of an event: the round, then, when the ADMITTED set changed, the Pace record and the credit
cut (R108, R121, R124). -/
def State.priorityEnd (s : State) : State :=
  if s.retest.ev.admittedChanged then s.retest.workPace.cutCredits else s.retest

end Sys2Proof.Machine
end

