-- ==== Sys2Proof/Machine/Client.lean ====
section
/-! DEFINITION. The Client Unit (chapter 2), smoothing (section 3.1) and the operations on a record that the other units
ask for (R34 to R38, R94 to R97). -/

namespace Sys2Proof.Machine

/-! ### Smoothing (R39, R40) -/

/-- A level clamped to a sample (R39). -/
def clampLevel (dbm : Int) : Int := max (-100) (min dbm (-20))

/-- The middle of three values (R40). -/
def median (a b c : Int) : Int := max (min a b) (min (max a b) c)

/-- One step of the smoothed value toward four times the median, truncated toward zero (R40). -/
def smoothStep (current med : Int) : Int := current + (4 * med - current).tdiv 4

/-- A first sample (R39). -/
def firstSamples (x : Int) : Samples := { s1 := x, s2 := x, s3 := x }

/-- The samples shifted by one place (R39). -/
def Samples.shift (p : Samples) (x : Int) : Samples := { s1 := p.s2, s2 := p.s3, s3 := x }

/-- The median of the samples. -/
def Samples.median (p : Samples) : Int := Machine.median p.s1 p.s2 p.s3

/-- Take a level into a client record (R32, R39). -/
def ClientRecord.smooth (r : ClientRecord) (dbm : Int) : ClientRecord :=
  let x := clampLevel dbm
  match r.samples, r.smoothed with
  | some p, some q => { r with samples := some (p.shift x), smoothed := some (smoothStep q (p.shift x).median) }
  | _, _ => { r with samples := some (firstSamples x), smoothed := some (4 * x) }

/-- Take a level into a Heard List entry (R18, R39). -/
def HeardEntry.smooth (e : HeardEntry) (dbm : Int) (now : Nat) : HeardEntry :=
  let p := e.samples.shift (clampLevel dbm)
  { e with samples := p, smoothed := smoothStep e.smoothed p.median, last := now }

/-! ### Access (R94, R95) -/

/-- Work out the access state of the record in a slot, and hand on a change (R94, R95). -/
def State.recompute (i : Fin 64) (s : State) : State :=
  match s.record i with
  | some r =>
    if r.held then
      let a := s.accessOf r
      if a = r.access then s
      else ((s.putRecord i { r with access := a }).setAccessMark i true).accessChanged r.client r.access a
    else s
  | none => s

/-- Work out the access state of every record held here (R94), in the order of the client slots, each change handed on
before the next record is taken (R95, R112; the order among clients is a DESIGN CHOICE, log entry 40). -/
def State.recomputeAll (s : State) : State := walk (slots 64) State.recompute s

/-! ### Deletion (R29) -/

/-- Delete the record in a slot (R29). -/
def State.deleteSlot (i : Fin 64) (s : State) : State :=
  match s.record i with
  | some r =>
    let s1 := s.removeClientFlows r.client
    let s2 : State :=
      { s1 with
        clients := { s1.clients with table := putSlot s1.clients.table i none }
        peers := { s1.peers with sightings := s1.peers.sightings.filter fun g => g.client != r.client }
        ev := { s1.ev with departed := true } }
    (s2.setAccessMark i false).setSteerMark i false
  | none => s

/-! ### Slots (R21, R23) -/

/-- The lowest-numbered empty slot (R21). -/
def State.emptySlot (s : State) : Option (Fin 64) := (slots 64).find? fun i => (s.record i).isNone

/-- The DEPARTED record to reclaim: the earliest departure, among equals the lower slot (R23). -/
def State.reclaimable (s : State) : Option (Fin 64) :=
  let departed := (slots 64).filterMap fun i =>
    match s.record i with
    | some r => if r.state = .departed then some (i, r.departure.getD 0) else none
    | none => none
  ((sortBy (fun x y => x.2 < y.2) departed).head?).map Prod.fst

/-- A slot for a new record: an empty one, or a reclaimed one (R21, R23). -/
def State.takeSlot (s : State) : Option (Fin 64) × State :=
  match s.emptySlot with
  | some i => (some i, s)
  | none =>
    match s.reclaimable with
    | some i => (some i, s.deleteSlot i)
    | none => (none, s)

/-! ### Heard List and refusal list (R18, R25) -/

/-- Remove a client's Heard List entry (R18). -/
def State.forgetHeard (c : ClientId) (s : State) : State :=
  { s with clients := { s.clients with heard := s.clients.heard.filter fun e => e.client != c } }

/-- Place a refused client on the refusal list (R25). -/
def refuse (c : ClientId) (l : List ClientId) : List ClientId :=
  if l.contains c then l
  else if l.length < Config.refusalEntries then l ++ [c]
  else l.drop 1 ++ [c]

/-- The weakest entry first: the lowest smoothed value, then the earliest time, then the lower client id (R18). -/
def HeardEntry.weaker (x y : HeardEntry) : Bool :=
  x.smoothed < y.smoothed || (x.smoothed == y.smoothed &&
    (x.last < y.last || (x.last == y.last && x.client.toNat < y.client.toNat)))

/-- A SIGHTING at the Heard List (R18). -/
def hear (c : ClientId) (dbm : Int) (now : Nat) (l : List HeardEntry) : List HeardEntry :=
  let x := clampLevel dbm
  let e : HeardEntry := { client := c, samples := firstSamples x, smoothed := 4 * x, last := now }
  if l.any (fun y => y.client == c) then l.map fun y => if y.client == c then y.smooth dbm now else y
  else if l.length < Config.heardEntries then l ++ [e]
  else match (sortBy HeardEntry.weaker l).head? with
    | some w => if w.smoothed < e.smoothed then l.filter (fun y => y.client != w.client) ++ [e] else l
    | none => l ++ [e]

/-! ### Creation and return (R22, R26 to R28, R55) -/

/-- A record with nothing measured, offered or held yet. -/
def ClientRecord.blank (c : ClientId) (st : RecState) (now : Nat) : ClientRecord :=
  { client := c, state := st, linkRate := 6, steerable := false, samples := none, smoothed := none, profile := 0,
    used := 0, dayStamp := 0, countedHere := 0, access := .opened, active := false, contextAwaited := false,
    candidate := none, confirm := 0, offerTarget := none, holds := [], steerAttempts := 0, resistantUntil := none,
    arrival := now, departure := none, timer := none }

/-- The record of R22. -/
def State.provisionalRecord (s : State) (c : ClientId) (rate : Nat) (steerable : Bool) : ClientRecord :=
  { ClientRecord.blank c .provisional s.now with
    linkRate := rate, steerable := steerable, profile := s.sched.book.profileOf c, dayStamp := dayOf s.time.mesh,
    contextAwaited := true, timer := some (s.now + Config.provisionalTime) }

/-- Broadcast a CLAIM (R62). -/
def State.claim (c : ClientId) (s : State) : State := s.send 0 (.claim c)

/-- An ASSOCIATE for a client with no record (R22 to R25). -/
def State.associateNew (c : ClientId) (rate : Nat) (steerable : Bool) (s : State) : State :=
  match s.takeSlot with
  | (none, s1) => { s1 with clients := { s1.clients with refusals := refuse c s1.clients.refusals } }
  | (some i, s1) =>
    let r := s1.provisionalRecord c rate steerable
    let s2 := ((s1.putRecord i { r with access := s1.accessOf r }).setAccessMark i true).forgetHeard c
    ({ s2 with clients := { s2.clients with refusals := s2.clients.refusals.filter fun x => x != c } }).claim c

/-- The record of R27. -/
def ClientRecord.restored (r : ClientRecord) (rate : Nat) (steerable : Bool) (now : Nat) : ClientRecord :=
  { r with
    state := .associated, linkRate := rate, steerable := steerable, samples := none, smoothed := none, candidate := none,
    confirm := 0, holds := [], contextAwaited := false, arrival := now, departure := none }

/-- The record of R28. -/
def ClientRecord.arrived (r : ClientRecord) (rate : Nat) (steerable : Bool) (now : Nat) : ClientRecord :=
  { r with
    state := .associated, linkRate := rate, steerable := steerable, countedHere := 0, samples := none, smoothed := none,
    contextAwaited := true, candidate := none, confirm := 0, holds := [], steerAttempts := 0, resistantUntil := none,
    arrival := now, timer := none }

/-- An ASSOCIATE for the record in a slot (R26 to R28). The access of an ARRIVING record is worked out before its RESERVED
flows are settled (R28 and R115 allow either order; DESIGN CHOICE, log entry 56). -/
def State.associateKnown (i : Fin 64) (r : ClientRecord) (rate : Nat) (steerable : Bool) (s : State) : State :=
  match r.state with
  | .provisional | .associated | .offering | .handing => s.putRecord i { r with linkRate := rate }
  | .departed =>
    (((s.putRecord i (r.restored rate steerable s.now)).recompute i).setAccessMark i true).forgetHeard r.client
  | .arriving =>
    let s1 := (s.putRecord i (r.arrived rate steerable s.now)).recompute i
    let s2 := match s1.record i with
      | some r1 => s1.settleReserved r1
      | none => s1
    ((s2.setAccessMark i true).forgetHeard r.client).claim r.client

/-! ### Departure (R30) -/

/-- The record of R30. -/
def ClientRecord.departedAt (r : ClientRecord) (now : Nat) : ClientRecord :=
  { r with
    state := .departed, departure := some now, timer := none, offerTarget := none, candidate := none, confirm := 0,
    holds := [], contextAwaited := false, samples := none, smoothed := none, active := false }

/-- A DISASSOCIATE for a record whose client is associated here (R30). -/
def State.depart (i : Fin 64) (r : ClientRecord) (s : State) : State :=
  let s1 := s.putRecord i (r.departedAt s.now)
  let s2 := if r.state = .handing then s1.setSteerMark i true else s1
  let s3 := s2.removeClientFlows r.client
  { s3 with ev := { s3.ev with departed := true } }

/-! ### Decline holds (R36) -/

/-- The hold that is replaced first: the earliest until-time, among equals the lower peer id (R36). -/
def Hold.sooner (x y : Hold) : Bool := x.untilTime < y.untilTime || (x.untilTime == y.untilTime && x.peer < y.peer)

/-- Place a decline hold (R36). -/
def placeHold (p untilTime : Nat) (hs : List Hold) : List Hold :=
  let h : Hold := { peer := p, untilTime := untilTime }
  if hs.any (fun x => x.peer == p) then hs.map fun x => if x.peer == p then h else x
  else if hs.length < Config.holdEntries then hs ++ [h]
  else match (sortBy Hold.sooner hs).head? with
    | some w => hs.map fun x => if x == w then h else x
    | none => hs ++ [h]

/-! ### The table-wide occasions (R31, R33, R96, R97, R99) -/

/-- Change every record by a function of the record alone. -/
def State.mapRecords (f : ClientRecord → ClientRecord) (s : State) : State :=
  { s with clients := { s.clients with table := s.clients.table.map (Option.map f) } }

/-- Count the closing minute and clear the flag (R33, R96). -/
def ClientRecord.countMinute (r : ClientRecord) : ClientRecord :=
  let counts := r.active &&
    (match r.state with
      | .associated | .offering | .handing => true
      | .provisional | .arriving | .departed => false) &&
    (match r.access with
      | .opened | .capped => true
      | .exhausted | .blocked => false)
  if counts then
    { r with used := min Config.maxUsed (r.used + 1), countedHere := min Config.maxUsed (r.countedHere + 1), active := false }
  else { r with active := false }

/-- The day reset of a record (R97). -/
def ClientRecord.resetDay (day : Nat) (r : ClientRecord) : ClientRecord :=
  if r.held ∧ r.dayStamp < day then { r with used := 0, dayStamp := day, countedHere := 0 } else r

/-- The slots whose record is in a state. -/
def State.slotsIn (s : State) (st : RecState) : List (Fin 64) :=
  (slots 64).filter fun i =>
    match s.record i with
    | some r => r.state == st
    | none => false

/-- Delete the DEPARTED records (R31). -/
def State.deleteDeparted (s : State) : State := walk (s.slotsIn .departed) State.deleteSlot s

/-- Rebind the profile of a record under a book (R85, R99). -/
def ClientRecord.rebind (b : Book) (r : ClientRecord) : ClientRecord :=
  if r.held then { r with profile := b.profileOf r.client } else r

end Sys2Proof.Machine
end

