-- ==== Sys2Proof/Machine/Peer.lean ====
section
/-! DEFINITION. The Peer Table Unit (chapter 1): ADVERT checks, Peer Table entries, path cost, the Sighting Table, and
the building of this node's ADVERT. -/

namespace Sys2Proof.Machine

/-! ### Path cost (R17) -/

/-- The sum over a fresh peer with a link (R17). -/
def PeerEntry.pathSum (p : PeerEntry) : Option Nat :=
  if p.fresh ∧ 0 < p.linkCost then some (p.advert.pathCost + p.linkCost) else none

/-- The path cost the Peer Table gives (R17). -/
def State.pathCostNow (s : State) : Nat :=
  if s.cfg.gateway then 0
  else (s.peers.table.filterMap PeerEntry.pathSum).foldl min Config.noPath

/-- Recompute the own path cost (R17). -/
def State.recomputePath (s : State) : State := { s with peers := { s.peers with ownPath := s.pathCostNow } }

/-! ### ADVERT checks and entries (R13 to R15) -/

/-- Whether every field of an ADVERT is in its range (R13). -/
def Advert.inRange (a : Advert) : Bool :=
  a.pathCost ≤ 63 && a.clientCount ≤ 64 && a.freeSlots ≤ 64 && a.clientCount + a.freeSlots == 64
    && a.reserved ≤ 1000 && a.timeRank ≤ 15 && a.sightings.length ≤ Config.advertSightings && a.bookOrigin ≤ 63
    && a.sightings.all fun g => g.age ≤ 3 && (-400 ≤ g.smoothed && g.smoothed ≤ -80)

/-- Change the entry of a peer. -/
def State.mapPeer (id : Nat) (f : PeerEntry → PeerEntry) (s : State) : State :=
  { s with peers := { s.peers with table := s.peers.table.map fun p => if p.id == id then f p else p } }

/-- A new entry (R14). -/
def PeerEntry.new (id : Nat) (a : Advert) (now : Nat) : PeerEntry :=
  { id := id, advert := a, heardAt := now, linkCost := 31, fresh := true, suspectUntil := none }

/-- Update or create the sender's entry (R14); none when the ADVERT is ignored because the table is full. -/
def State.enterPeer (id : Nat) (a : Advert) (s : State) : Option State :=
  match s.peer id with
  | some _ => some (s.mapPeer id fun p => { p with advert := a, heardAt := s.now, fresh := true })
  | none =>
    if s.peers.table.length < Config.peerEntries then
      some (State.raise (.peerJoined id)
        { s with
          peers := { s.peers with
            table := insertBy (fun x y => x.id < y.id) (PeerEntry.new id a s.now) s.peers.table } })
    else none

/-- Remove a peer's entry and what was filed from it (R15). -/
def State.dropPeer (id : Nat) (s : State) : State :=
  { s with
    peers := { s.peers with
      table := s.peers.table.filter fun p => p.id != id
      sightings := s.peers.sightings.filter fun g => g.peer != id } }

/-! ### The Sighting Table (R19, R20) -/

/-- Whether an entry is usable (R20). -/
def SightingEntry.usable (now : Nat) (g : SightingEntry) : Bool := (now : Int) ≤ g.validity + Config.sightingLife

/-- The weakest entry first: the lowest smoothed value, then the earliest validity, the lower client and the lower
peer id (R19). -/
def SightingEntry.weaker (x y : SightingEntry) : Bool :=
  x.smoothed < y.smoothed || (x.smoothed == y.smoothed &&
    (x.validity < y.validity || (x.validity == y.validity &&
      (x.client.toNat < y.client.toNat || (x.client == y.client && x.peer < y.peer)))))

/-- Whether two entries are for the same client and peer (R19). -/
def SightingEntry.samePair (x y : SightingEntry) : Bool := x.client == y.client && x.peer == y.peer

/-- File one sighting of a client that has a record here (R19). -/
def fileSighting (g : SightingEntry) (l : List SightingEntry) : List SightingEntry :=
  if l.any g.samePair then
    l.map fun x => if g.samePair x && x.validity ≤ g.validity then g else x
  else if l.length < Config.sightingEntries then l ++ [g]
  else match (sortBy SightingEntry.weaker l).head? with
    | some w => if w.smoothed < g.smoothed then l.filter (fun x => !w.samePair x) ++ [g] else l
    | none => l ++ [g]

/-- Whether a client has a record that is not DEPARTED. -/
def State.heldHere (s : State) (c : ClientId) : Bool :=
  match s.findClient c with
  | some i => match s.record i with
    | some r => r.held
    | none => false
  | none => false

/-- File the sightings of an ADVERT (R19). -/
def State.fileSightings (id : Nat) (a : Advert) (s : State) : State :=
  let swept := s.peers.sightings.filter (SightingEntry.usable s.now)
  let filed := a.sightings.foldl
    (fun l g =>
      if s.heldHere g.client then
        fileSighting { client := g.client, peer := id, smoothed := g.smoothed, validity := (s.now : Int) - g.age * 1000 } l
      else l) swept
  { s with peers := { s.peers with sightings := filed } }

/-- Examine the entries for a client and discard the unusable ones (R20). -/
def State.examine (c : ClientId) (s : State) : State :=
  { s with
    peers := { s.peers with sightings := s.peers.sightings.filter fun g => g.client != c || g.usable s.now } }

/-! ### The ADVERT (R10, R11, R143) -/

/-- The Heard List ranked: strongest first, among equals the lower client id (R11). -/
def HeardEntry.stronger (x y : HeardEntry) : Bool :=
  y.smoothed < x.smoothed || (x.smoothed == y.smoothed && x.client.toNat < y.client.toNat)

/-- The sightings an ADVERT carries (R11). -/
def State.advertSightings (s : State) : List AdvertSighting :=
  ((sortBy HeardEntry.stronger (s.clients.heard.filter fun e => s.now < e.last + Config.sightingLife)).take
    Config.advertSightings).map
    fun e => { client := e.client, smoothed := e.smoothed, age := (s.now - e.last) / 1000 }

/-- The version of a slot that counts for the image target (R143). -/
def SlotRecord.targetVersion (r : SlotRecord) : Option Nat :=
  match r.state with
  | .active | .retained | .ready | .checking => r.version
  | .filling => if r.manifest.isSome then r.version else none
  | .empty | .failed => none

/-- The image target version, 0 for none (R143, section 12.5). -/
def State.targetVersion (s : State) : Nat :=
  max ((s.slot .a).targetVersion.getD 0) ((s.slot .b).targetVersion.getD 0)

/-- The slot of the target version. -/
def State.targetSlot (s : State) : Option SlotId :=
  if (s.slot .a).targetVersion = some s.targetVersion then some .a
  else if (s.slot .b).targetVersion = some s.targetVersion then some .b
  else none

/-- The block-verified bitmap: block 0 in the most significant of the 256 bits (R143, section 12.5). -/
def bitmapOf (f : Nat → Bool) : BitVec 256 :=
  BitVec.ofNat 256 ((List.range 256).foldl (fun n b => 2 * n + flagBit (f b)) 0)

/-- Whether a bitmap marks a block. -/
def marksBlock (m : BitVec 256) (b : Nat) : Bool := m.getMsbD b

/-- This node's bitmap (R143). -/
def State.bitmap (s : State) : BitVec 256 :=
  match s.targetSlot with
  | some k => bitmapOf (s.slot k).blockVerified
  | none => 0

/-- The ADVERT built at an advert expiry (R10). The version of a slot that holds none is sent as 0: the guide gives "0: none"
for the target version only (section 12.5; DESIGN CHOICE, log entry 38). -/
def State.buildAdvert (s : State) : Advert :=
  { pathCost := s.peers.ownPath
    clientCount := s.clientCount
    freeSlots := 64 - s.clientCount
    reserved := s.ownReserved
    meshTime := s.time.mesh
    timeRank := s.time.rank
    bookVersion := s.sched.book.version
    bookOrigin := s.sched.book.origin
    target := s.targetVersion
    stateA := s.dist.slotA.state.code
    versionA := s.dist.slotA.version.getD 0
    stateB := s.dist.slotB.state.code
    versionB := s.dist.slotB.version.getD 0
    bitmap := s.bitmap
    evacuating := s.act.state == .evacuating
    actWaiting := s.act.state == .waiting
    gateway := s.cfg.gateway
    sightings := s.advertSightings }

end Sys2Proof.Machine
end

