-- ==== Sys2Proof/Machine/Roaming.lean ====
section
/-! DEFINITION. The Roaming Unit: candidate scoring (chapter 3) and the handoff (chapter 4). -/

namespace Sys2Proof.Machine

/-! ### Scoring (R42 to R46) -/

/-- Whether a record is weak (R42). -/
def State.isWeak (s : State) (q : Int) : Bool := q < 4 * s.cfg.weakFloor

/-- Whether an evaluation is eligible to trigger (R42). -/
def State.mayTrigger (s : State) (r : ClientRecord) (q : Int) : Bool :=
  s.cfg.steering && r.steerable && r.resistantUntil.isNone && (r.arrival + Config.holdDown ≤ s.now || s.isWeak q)

/-- Whether a peer is an eligible candidate for a record (R43). -/
def PeerEntry.eligible (p : PeerEntry) (r : ClientRecord) : Bool :=
  p.fresh && 1 ≤ p.advert.freeSlots && !p.advert.evacuating && p.advert.pathCost < Config.noPath
    && !r.holds.any fun h => h.peer == p.id

/-- The score of a candidate (R44). -/
def scoreOf (sighting : Int) (peerCost ownCost peerClients ownClients : Nat) : Int :=
  let diff : Int := max (-16) (min 16 ((peerCost : Int) - ownCost))
  let load : Int := if ownClients < peerClients then min 40 (2 * (peerClients - ownClients) : Nat) else 0
  sighting + diff * (-4) - load

/-- The eligible candidates of a record with their scores, from the sightings that are left (R43, R44). -/
def State.candidates (s : State) (r : ClientRecord) : List (Nat × Int) :=
  (s.peers.sightings.filter fun g => g.client == r.client).filterMap fun g =>
    match s.peer g.peer with
    | some p =>
      if p.eligible r then
        some (p.id, scoreOf g.smoothed p.advert.pathCost s.peers.ownPath p.advert.clientCount s.clientCount)
      else none
    | none => none

/-- The better of two candidates: the higher score, among equals the lower id (R45). -/
def betterCandidate (x y : Nat × Int) : Bool := y.2 < x.2 || (x.2 == y.2 && x.1 < y.1)

/-- The best candidate (R45). -/
def State.bestCandidate (s : State) (r : ClientRecord) : Option (Nat × Int) :=
  (sortBy betterCandidate (s.candidates r)).head?

/-- Whether a client has an ADMITTED flow (R46). -/
def State.hasAdmitted (s : State) (c : ClientId) : Bool :=
  !(s.flowsWhere fun f => f.client == c && f.state == .admitted).isEmpty

/-- The margin of an evaluation after a SIGNAL (R46). -/
def State.margin (s : State) (r : ClientRecord) (q : Int) : Int :=
  if s.isWeak q then 8 else if s.hasAdmitted r.client then 8 * s.cfg.hysteresis else 4 * s.cfg.hysteresis

/-! ### Offers (R34, R48, R52) -/

/-- The OFFER of a record (R52). -/
def State.offerOf (s : State) (r : ClientRecord) : Handover :=
  { client := r.client, used := r.used, dayStamp := r.dayStamp, profile := r.profile, access := r.access.code,
    flows := s.offerFlows r.client }

/-- Begin an offer toward a peer (R48, R52). -/
def State.beginOffer (i : Fin 64) (r : ClientRecord) (p : Nat) (s : State) : State :=
  let r1 := { r with state := .offering, offerTarget := some p, confirm := 0, timer := some (s.now + Config.offeringTime) }
  (s.putRecord i r1).send p (.offer (s.offerOf r1))

/-- The evaluation of an ASSOCIATED record (R42 to R48). -/
def State.evaluateRecord (i : Fin 64) (r : ClientRecord) (q : Int) (s : State) : State :=
  if s.mayTrigger r q then
    let s1 := s.examine r.client
    match s1.bestCandidate r with
    | some (p, score) =>
      if q + s1.margin r q ≤ score then
        if r.candidate = some p then
          if 2 ≤ r.confirm + 1 then s1.beginOffer i r p
          else s1.putRecord i { r with confirm := r.confirm + 1 }
        else s1.putRecord i { r with candidate := some p, confirm := 1 }
      else s1.putRecord i { r with candidate := none, confirm := 0 }
    | none => s1.putRecord i { r with candidate := none, confirm := 0 }
  else s.putRecord i { r with candidate := none, confirm := 0 }

/-- What the Roaming Unit does with a record handed to it after a SIGNAL (R41). -/
def State.evaluateClient (c : ClientId) (s : State) : State :=
  match s.findClient c with
  | some i => match s.record i with
    | some r =>
      match r.state, r.smoothed with
      | .associated, some q => s.evaluateRecord i r q
      | _, _ => s
    | none => s
  | none => s

/-- The evacuation evaluation of the record in a slot (R49). -/
def State.evacuateSlot (i : Fin 64) (s : State) : State :=
  match s.record i with
  | some r =>
    match r.state, r.steerable, r.smoothed with
    | .associated, true, some q =>
      let s1 := s.examine r.client
      match s1.bestCandidate r with
      | some (p, score) => if q ≤ score then s1.beginOffer i r p else s1
      | none => s1
    | _, _, _ => s
  | none => s

/-! ### Frames at the candidate (R53 to R55) -/

/-- Whether a carried flow's fields are in range (R53). -/
def CarriedFlow.inRange (g : CarriedFlow) : Bool :=
  1 ≤ g.share && g.share ≤ 250 && 5 ≤ g.interval && g.interval ≤ 60

/-- The checks of R53 that OFFER and CONTEXT share. -/
def Handover.inRange (h : Handover) : Bool :=
  h.used ≤ Config.maxUsed && h.profile ≤ 15 && h.flows.length ≤ Config.carriedFlows && h.flows.all CarriedFlow.inRange

/-- Whether the activation state declines offers (R54 check 1). -/
def ActState.leaving (a : ActState) : Bool :=
  match a with
  | .evacuating | .committing | .restarting => true
  | .idle | .waiting => false

/-- Whether a Heard List entry lets an OFFER pass check 5 (R54). -/
def State.hearsWell (s : State) (c : ClientId) : Bool :=
  match s.clients.heard.find? (fun e => e.client == c) with
  | some e => 4 * s.cfg.weakFloor ≤ e.smoothed && s.now ≤ e.last + Config.sightingLife
  | none => false

/-- The record of a client, whatever its slot. -/
def State.recordOf (s : State) (c : ClientId) : Option ClientRecord :=
  match s.findClient c with
  | some i => s.record i
  | none => none

/-- Whether a client's record here meets a condition. -/
def State.recordIs (s : State) (c : ClientId) (f : ClientRecord → Bool) : Bool :=
  match s.recordOf c with
  | some r => f r
  | none => false

/-- The reason code of the first check that declines an OFFER (R54): EVACUATING 0, HELD 1, BUSY 2, FULL 3, WEAK 4,
AIRTIME 5. -/
def State.declineReason (s : State) (h : Handover) : Option Nat :=
  if s.act.state.leaving then some 0
  else if s.recordIs h.client ClientRecord.associatedHere then some 1
  else if s.recordIs h.client (fun r => r.state == .arriving) then some 2
  else if (s.emptySlot.isNone && s.reclaimable.isNone) || s.freeFlowCount < h.flows.length then some 3
  else if !s.hearsWell h.client then some 4
  else if h.flows ≠ [] ∧ s.cfg.ceiling < s.viewTotal + (h.flows.map CarriedFlow.share).sum then some 5
  else none

/-- The ARRIVING record of an accepted OFFER (R55). -/
def Handover.arriving (h : Handover) (a : Access) (now : Nat) : ClientRecord :=
  { ClientRecord.blank h.client .arriving now with
    profile := h.profile, used := h.used, dayStamp := h.dayStamp, access := a, timer := some (now + Config.arrivingTime) }

/-- Accept an OFFER (R55). -/
def State.acceptOffer (sender : Nat) (h : Handover) (a : Access) (s : State) : State :=
  match s.takeSlot with
  | (none, s1) => s1
  | (some i, s1) =>
    let s2 := (s1.putRecord i (h.arriving a s1.now)).recompute i
    (s2.reserveFlows i h.client h.flows).send sender (.accept h.client)

/-- Delete a DEPARTED record of a client (R54). -/
def State.releaseDeparted (c : ClientId) (s : State) : State :=
  match s.findClient c with
  | some i => match s.record i with
    | some r => if r.state = .departed then s.deleteSlot i else s
    | none => s
  | none => s

/-- Take an OFFER (R53 to R55). -/
def State.takeOffer (sender : Nat) (h : Handover) (s : State) : State :=
  match h.inRange, accessOfCode h.access with
  | true, some a =>
    let s1 := s.releaseDeparted h.client
    match s1.declineReason h with
    | some code => s1.send sender (.decline h.client code)
    | none => s1.acceptOffer sender h a
  | _, _ => s

/-! ### Frames at the serving node (R56 to R58, R63, R64) -/

/-- The used minutes of a CONTEXT (R64): the counted figure. -/
def State.contextUsed (s : State) (r : ClientRecord) : Nat :=
  countedFigure (s.sched.book.profileAt r.profile) s.cfg.fallback r

/-- The CONTEXT of a record (R64); its access byte is sent as 0. -/
def State.contextOf (s : State) (r : ClientRecord) : Handover :=
  { client := r.client, used := s.contextUsed r, dayStamp := r.dayStamp, profile := r.profile, access := 0,
    flows := s.contextFlows r.client }

/-- Answer a claim: CONTEXT, release and HANDOFF-DONE (R58, R63). -/
def State.releaseTo (i : Fin 64) (r : ClientRecord) (claimer : Nat) (s : State) : State :=
  ((s.send claimer (.context (s.contextOf r))).deleteSlot i).raise (.handoffDone r.client claimer)

/-- Take an ACCEPT (R56). -/
def State.takeAccept (sender : Nat) (c : ClientId) (s : State) : State :=
  match s.findClient c with
  | some i => match s.record i with
    | some r =>
      if r.state = .offering ∧ r.offerTarget = some sender then
        (s.putRecord i { r with state := .handing, timer := some (s.now + Config.handingTime) }).setSteerMark i true
      else s
    | none => s
  | none => s

/-- End an offer with a decline hold (R34, R57, R59). -/
def State.endOffer (i : Fin 64) (r : ClientRecord) (p : Nat) (why : FailReason) (s : State) : State :=
  (s.putRecord i
    { r with
      state := .associated, offerTarget := none, confirm := 0, timer := none,
      holds := placeHold p (s.now + Config.declineHold) r.holds }).raise (.handoffFailed r.client why (some p))

/-- Take a DECLINE (R53, R57, R58). -/
def State.takeDecline (sender : Nat) (c : ClientId) (reason : Nat) (s : State) : State :=
  if 5 < reason then s
  else match s.findClient c with
  | some i => match s.record i with
    | some r =>
      if r.state = .offering ∧ r.offerTarget = some sender then
        if reason = 1 then s.releaseTo i r sender else s.endOffer i r sender (.declined reason)
      else s
    | none => s
  | none => s

/-- Take a CLAIM (R63). -/
def State.takeClaim (sender : Nat) (c : ClientId) (s : State) : State :=
  match s.findClient c with
  | some i => match s.record i with
    | some r => if r.state = .arriving then s else s.releaseTo i r sender
    | none => s
  | none => s

/-! ### CONTEXT at the claimer (R65 to R67) -/

/-- The day stamp and used minutes of a merge (R66). -/
def mergeFigures (usedHere delta dayHere usedThere dayThere : Nat) : Nat × Nat :=
  if dayThere = dayHere then (dayHere, min Config.maxUsed (max usedHere (usedThere + delta)))
  else if dayThere < dayHere then (dayHere, min Config.maxUsed (max usedHere delta))
  else (dayThere, min Config.maxUsed (usedThere + delta))

/-- The merge into a record that came from ARRIVING (R66). -/
def State.mergeContext (i : Fin 64) (r : ClientRecord) (h : Handover) (s : State) : State :=
  let m := mergeFigures r.used r.countedHere r.dayStamp h.used h.dayStamp
  (s.putRecord i { r with dayStamp := m.1, used := m.2, contextAwaited := false }).recompute i

/-- A PROVISIONAL record is resolved: it becomes ASSOCIATED with the figures given (R34, R67, R68). -/
def ClientRecord.resolved (r : ClientRecord) (day used : Nat) : ClientRecord :=
  { r with state := .associated, dayStamp := day, used := used, contextAwaited := false, timer := none }

/-- A CONTEXT resolves a PROVISIONAL record (R67). Its access is worked out before its flows that wait for context are tested
(R115 allows either order; DESIGN CHOICE, log entry 53). -/
def State.resolveContext (i : Fin 64) (r : ClientRecord) (h : Handover) (s : State) : State :=
  let m := mergeFigures 0 r.countedHere r.dayStamp h.used h.dayStamp
  (((s.putRecord i (r.resolved m.1 m.2)).recompute i).enterContext i r.client h.flows).resolveFlows r.client

/-- Take a CONTEXT (R53, R65). -/
def State.takeContext (h : Handover) (s : State) : State :=
  if h.inRange then
    match s.findClient h.client with
    | some i => match s.record i with
      | some r =>
        if r.contextAwaited then
          match r.state with
          | .provisional => s.resolveContext i r h
          | .associated | .offering | .handing => s.mergeContext i r h
          | .arriving | .departed => s
        else s
      | none => s
    | none => s
  else s

/-! ### Expiries of the handoff timer (R59, R60, R68, R69) -/

/-- The OFFERING expiry (R59). -/
def State.offeringEnds (i : Fin 64) (r : ClientRecord) (s : State) : State :=
  match r.offerTarget with
  | some p => s.endOffer i r p .timeout
  | none => s

/-- The HANDING expiry (R60). -/
def State.handingEnds (i : Fin 64) (r : ClientRecord) (s : State) : State :=
  let resists := 3 ≤ r.steerAttempts + 1
  ((s.putRecord i
      { r with
        state := .associated, offerTarget := none, timer := none,
        steerAttempts := if resists then 0 else r.steerAttempts + 1,
        resistantUntil := if resists then some (s.now + Config.steerResistance) else r.resistantUntil }).setSteerMark i true).raise
    (.handoffFailed r.client .timeout r.offerTarget)

/-- The PROVISIONAL expiry (R68). The record's access is worked out before its flows that wait for context are tested (R115
allows either order; DESIGN CHOICE, log entry 53). -/
def State.provisionalEnds (i : Fin 64) (r : ClientRecord) (s : State) : State :=
  let used := fallbackFigure (s.sched.book.profileAt r.profile).allowance s.cfg.fallback r.used
  ((s.putRecord i (r.resolved r.dayStamp used)).recompute i).resolveFlows r.client

end Sys2Proof.Machine
end

