-- ==== Sys2Proof/Machine/Activation.lean ====
section
/-! DEFINITION. The Activation Controller (sections 11.1 to 11.4): gates, evacuation, the selector writes and their
retry, and the end of an event (log entry 8). -/

namespace Sys2Proof.Machine

/-! ### Selector writes (R158, R164, R166, R169) -/

/-- The controller's own selector writes in the store. -/
def StoreOp.isControllerWrite (op : StoreOp) : Bool :=
  match op.owner, op.kind with
  | .activation, .selectorWrite _ _ _ _ => true
  | _, _ => false

/-- A selector write. -/
def StoreOp.isSelectorWrite (op : StoreOp) : Bool :=
  match op.kind with
  | .selectorWrite _ _ _ _ => true
  | _ => false

/-- A confirm write (R169). -/
def StoreOp.isConfirm (op : StoreOp) : Bool :=
  match op.kind with
  | .selectorWrite _ (.confirm _) _ _ => true
  | _ => false

/-- Submit a selector write; the controller's own set its write in flight mark (R158): the commit, the confirmation and the
revert alike, and not a write of the start sequence, at its retry either. R164 sets the mark for the commit and R169 names
none (DESIGN CHOICE, log entry 54). -/
def State.submitSelector (w : RetriedWrite) (s : State) : State × Submitted :=
  let r := s.submit { owner := w.owner, kind := .selectorWrite w.order w.purpose w.sel none }
  if r.2 = .accepted ∧ w.owner = .activation then
    ({ r.1 with act := { r.1.act with writeInFlight := true } }, r.2)
  else r

/-- A new selector write takes the next place in the order of selector writes (R158, log entry 20). -/
def State.newWrite (owner : Owner) (purpose : SelPurpose) (sel : Selector) (s : State) : RetriedWrite × State :=
  ({ order := s.store.orders, owner := owner, purpose := purpose, sel := sel },
   { s with store := { s.store with orders := s.store.orders + 1 } })

/-- Start the write retry timer for a write; an earlier write does not take it from a later one (R158). -/
def State.startRetry (w : RetriedWrite) (s : State) : State :=
  let later : Bool := match s.act.retry with
    | some v => decide (w.order < v.order)
    | none => false
  if later then s
  else { s with act := { s.act with retry := some w, retryDue := some (s.now + Config.writeRetryTime) } }

/-- End the retry of a write that a completed one ends (R158). -/
def State.endRetry (order : Nat) (s : State) : State :=
  match s.act.retry with
  | some v => if v.order ≤ order then { s with act := { s.act with retry := none, retryDue := none } } else s
  | none => s

/-- Submit a selector write that is retried when refused (R158). -/
def State.submitRetried (w : RetriedWrite) (s : State) : State :=
  let r := s.submitSelector w
  if r.2 = .accepted then r.1 else r.1.startRetry w

/-- The revert (R166). -/
def Selector.reverted (sel : Selector) : Selector := { sel with booted := sel.confirmed, trial := false, trialStarts := 2 }

/-- The values of a commit (R164). -/
def Selector.committed (sel : Selector) (ready : SlotId) : Selector :=
  { sel with booted := ready, trial := true, trialStarts := 0 }

/-- The values of a confirmation (R169). -/
def Selector.confirmedAt (sel : Selector) (version : Nat) : Selector :=
  { sel with trial := false, trialStarts := 0, confirmed := sel.booted, floor := max sel.floor version }

/-- Drop arriving (R34, R161): every ARRIVING record is deleted, its RESERVED flows with it. -/
def State.dropArriving (s : State) : State := walk (s.slotsIn .arriving) State.deleteSlot s

/-- Enter RESTARTING; the serve queue is emptied (R151, R164), and no ARRIVING record stays (R161, log entry 36). -/
def State.enterRestarting (s : State) : State :=
  State.dropArriving { s with act := { s.act with state := .restarting }, dist := { s.dist with serve := [] } }

/-- The confirm timer's expiry takes effect: RESTARTING and the revert (R169). -/
def State.confirmExpired (s : State) : State :=
  let w := (State.enterRestarting { s with act := { s.act with confirmHeld := false } }).newWrite .activation .revert
    s.act.sel.reverted
  w.2.submitRetried w.1

/-! ### Gates and evacuation (R160 to R163) -/

/-- The four gates (R160). -/
def State.gatesOpen (s : State) : Bool :=
  !s.act.sel.trial && (s.quietNow || s.act.activateNow) && (!s.anyAdmitted || s.act.activateNow)
    && !s.freshPeers.any fun p => p.advert.evacuating

/-- An evacuation pass (R162). -/
def State.pass (s : State) : State := walk (slots 64) State.evacuateSlot s

/-- Whether a record holds the evacuation open (R162). -/
def holdsOpen (x : Option ClientRecord) : Bool :=
  match x with
  | some r => r.associatedHere && r.steerable
  | none => false

/-- Entry to EVACUATING (R161). -/
def State.beginEvacuation (s : State) : State :=
  let s1 : State :=
    { s with act := { s.act with state := .evacuating, evacuationDue := some (s.now + Config.evacuationLimit) } }
  s1.dropArriving.pass

/-- WAITING again after a commit that was refused; open gates begin another evacuation, whose end is met at its next
check (R164, log entry 11). -/
def State.reopen (s : State) : State :=
  let s1 : State := { s with act := { s.act with state := .waiting } }
  if s1.gatesOpen then s1.beginEvacuation else s1

/-- Entry to COMMITTING (R164). -/
def State.commit (s : State) : State :=
  let s1 : State := { s with act := { s.act with state := .committing, evacuationDue := none } }
  let w := s1.newWrite .activation .commit (s1.act.sel.committed s1.spareSlot)
  let r := w.2.submitSelector w.1
  if r.2 = .accepted then r.1 else r.1.reopen

/-- The check that ends an evacuation (R162). -/
def State.endCheck (s : State) : State :=
  if s.act.state = .evacuating ∧ s.clients.table.toList.any holdsOpen = false then s.commit else s

/-- A test of the gates by a WAITING controller (R160). -/
def State.gateTest (s : State) : State :=
  if s.act.state = .waiting ∧ s.gatesOpen = true then s.beginEvacuation.endCheck else s

/-- The non-booted slot became READY (R159). -/
def State.slotReady (s : State) : State :=
  if s.act.state = .idle then State.gateTest { s with act := { s.act with state := .waiting } } else s

/-- A fill gave the READY slot up (R159). -/
def State.readyGivenUp (s : State) : State :=
  if s.act.state = .waiting then { s with act := { s.act with state := .idle, activateNow := false } } else s

/-- An ADVERT's flags at the controller (R160, R163). -/
def State.hearFlags (peer : Nat) (evacuating : Bool) (s : State) : State :=
  if s.act.state = .evacuating ∧ evacuating = true ∧ peer < s.cfg.nodeId then
    State.gateTest { s with act := { s.act with state := .waiting, evacuationDue := none } }
  else s.gateTest

/-! ### The end of an event (log entry 8) -/

/-- What is done at the end of an event: the round (R108); the gates, when the ADMITTED set changed or the event calls for
a test (R160); the round for the shares an evacuation's entry released; the Pace record and the credits, worked out once
from the ADMITTED set as it then stands (R121, R124); and the evacuation's check after a departure or deletion (R162). -/
def State.settleWith (test : Bool) (s : State) : State :=
  let s1 := s.retest
  let s2 := if test || s1.ev.admittedChanged then s1.gateTest else s1
  let s3 := s2.priorityEnd
  let s4 := if s3.ev.departed then s3.endCheck else s3
  { s4 with ev := EventMarks.clear }

/-- The end of an event that calls for no test of the gates of its own. -/
def State.settle (s : State) : State := s.settleWith false

/-! ### Completions of selector writes (R158, R164, R166, R169) -/

/-- The write in flight mark after a completion (R158). -/
def State.clearWriteMark (s : State) : State :=
  { s with act := { s.act with writeInFlight := s.act.writeInFlight && s.storeOps.any StoreOp.isControllerWrite } }

/-- A selector write completed OK; the held selector has taken its values (R158). -/
def State.selectorWritten (w : RetriedWrite) (s : State) : State :=
  let s1 := (s.clearWriteMark).endRetry w.order
  match w.purpose with
  | .commit => s1.enterRestarting.markRestart
  | .confirm tag =>
    State.reply tag .ok { s1 with act := { s1.act with confirmDue := none, confirmHeld := false } }
  | .revert => s1.markRestart
  | .recovery changes => if changes then s1.markRestart else s1
  | .trialStart | .clearRevert => s1

/-- A selector write did not complete OK (R158, R164, R166, R169). -/
def State.selectorFailed (w : RetriedWrite) (s : State) : State :=
  let s1 := s.clearWriteMark
  match w.purpose with
  | .commit => State.gateTest { s1 with act := { s1.act with state := .waiting } }
  | .confirm tag =>
    let s2 := s1.reply tag .busy
    if s2.act.confirmHeld && !s2.storeOps.any StoreOp.isConfirm then s2.confirmExpired else s2
  | .revert | .recovery _ | .trialStart | .clearRevert => s1.startRetry w

end Sys2Proof.Machine
end

