-- ==== Sys2Proof/Machine/Time.lean ====
section
/-! DEFINITION. The Time Base (section 5.1) and what its events do at the Client, Schedule and Priority Units and the
Activation Controller (R31, R33, R96 to R98). -/

namespace Sys2Proof.Machine

/-- A minute event (R75, R96): the minute is counted, the flags are cleared, access is worked out, the gates tested. -/
def State.minuteEvent (s : State) : State := ((s.mapRecords ClientRecord.countMinute).recomputeAll).settleWith true

/-- A day event (R31, R75, R97). -/
def State.dayEvent (day : Nat) (s : State) : State :=
  ((s.mapRecords (ClientRecord.resetDay day)).deleteDeparted.recomputeAll).settle

/-- The minute event of a change of mesh time, if one is due (R75). -/
def State.minuteStep (s : State) : State :=
  if minuteIndexOf s.time.mesh = s.time.minuteMark then s
  else State.minuteEvent { s with time := { s.time with minuteMark := minuteIndexOf s.time.mesh } }

/-- The day event of a change of mesh time, if one is due (R75). -/
def State.dayStep (s : State) : State :=
  if s.time.dayMark < dayOf s.time.mesh then
    State.dayEvent (dayOf s.time.mesh) { s with time := { s.time with dayMark := dayOf s.time.mesh } }
  else s

/-- A change of mesh time is handed on (R75); `timeSet` after a SET-TIME or an adoption (R98). -/
def State.timeChanged (timeSet : Bool) (s : State) : State :=
  if s.time.rank < Config.rankUnknown then
    let s1 := s.minuteStep.dayStep
    if timeSet then s1.recomputeAll.settle else s1
  else s

/-- Set the mesh time and its rank; the ageing timer starts afresh (R72, R73). -/
def State.setMesh (mesh rank : Nat) (s : State) : State :=
  { s with time := { s.time with mesh := mesh, rank := rank, ageingDue := some (s.now + Config.ageingTime) } }

/-- The time fields of an ADVERT (R73). -/
def State.hearTime (peer mesh rank : Nat) (s : State) : State :=
  if rank + 1 < s.time.rank then
    State.timeChanged true ((s.setMesh mesh (rank + 1)).raise (.timeAdopted peer (rank + 1)))
  else s

/-- An expiry of the ageing timer (R74). -/
def State.ageRank (due : Nat) (s : State) : State :=
  { s with
    time := { s.time with
      rank := min Config.rankUnknown (s.time.rank + 1)
      ageingDue := if s.time.rank + 1 < Config.rankUnknown then some (due + Config.ageingTime) else none } }

/-- Mesh time after a tick (R71). -/
def nextMesh (mesh : Nat) : Nat := (mesh + 1) % Config.word32

/-- The tick at the Time Base (R71). -/
def State.tickTime (s : State) : State := State.timeChanged false { s with time := { s.time with mesh := nextMesh s.time.mesh } }

end Sys2Proof.Machine
end

