-- ==== Sys2Proof/Machine/Book.lean ====
section
/-! DEFINITION. The Schedule Book (section 5.3): requests, staging, adoption, its copy in the store and loading. -/

namespace Sys2Proof.Machine

/-- Submit the owed book write while none is in flight (R86). -/
def State.submitBook (s : State) : State :=
  if s.sched.writeOwed && !s.sched.writeInFlight then
    let r := s.submit { owner := .schedule, kind := .recordWrite .book s.sched.book.version (writeBook s.sched.book) }
    if r.2 = .accepted then
      { r.1 with sched := { r.1.sched with writeOwed := false, writeInFlight := true } }
    else r.1
  else s

/-- The completion of a book write (R86). -/
def State.bookWritten (ok : Bool) (s : State) : State :=
  if ok then State.submitBook { s with sched := { s.sched with writeInFlight := false } }
  else { s with sched := { s.sched with writeInFlight := false, writeOwed := true } }

/-- Adopt a book (R85, R99). -/
def State.adopt (b : Book) (s : State) : State :=
  let s1 : State := { s with sched := { s.sched with book := b, writeOwed := true } }
  let s2 := (s1.mapRecords (ClientRecord.rebind b)).recomputeAll
  ((s2.submitBook).raise (.bookAdopted b.origin b.version)).settleWith true

/-- The book fields of an ADVERT (R80). -/
def State.hearBook (peer version origin : Nat) (s : State) : State :=
  if bookHigher version origin s.sched.book.version s.sched.book.origin then
    match s.sched.staging with
    | none => s.send peer .bookRequest
    | some g => if bookHigher version origin g.version g.origin then s.send peer .bookRequest else s
  else s

/-- The two parts of a serialization (R78). -/
def bookParts (bs : List Byte) : List Byte × List Byte := bs.splitAt ((bs.length + 1) / 2)

/-- A BOOK-REQUEST is answered with both segments of the working book (R81). -/
def State.takeBookRequest (sender : Nat) (s : State) : State :=
  let b := s.sched.book
  let bs := writeBook b
  (s.send sender (.bookSegment b.version b.origin bs.length 0 (bookParts bs).1)).send sender
    (.bookSegment b.version b.origin bs.length 1 (bookParts bs).2)

/-- The length of a part by its index (R78). -/
def partLength (len index : Nat) : Nat := if index = 0 then (len + 1) / 2 else len / 2

/-- The staging buffer with a segment in its place and the timer restarted (R82). -/
def Staging.fill (g : Staging) (index : Nat) (part : List Byte) (now : Nat) : Staging :=
  if index = 0 then { g with part0 := some part, due := now + Config.stagingTime }
  else { g with part1 := some part, due := now + Config.stagingTime }

/-- Staging as it starts collecting a book (R82). -/
def Staging.start (version origin len now : Nat) : Staging :=
  { version := version, origin := origin, len := len, part0 := none, part1 := none, due := now + Config.stagingTime }

/-- Whether a place is filled. -/
def Staging.filled (g : Staging) (index : Nat) : Bool := if index = 0 then g.part0.isSome else g.part1.isSome

/-- Staging is complete (R84). -/
def State.stagingComplete (g : Staging) (bs : List Byte) (s : State) : State :=
  let s1 : State := { s with sched := { s.sched with staging := none } }
  match readBook bs with
  | some b =>
    if b.version = g.version ∧ b.origin = g.origin
        ∧ bookHigher b.version b.origin s.sched.book.version s.sched.book.origin = true then
      s1.adopt { b.clamped with origin := min b.origin 63 }
    else s1
  | none => s1

/-- Keep a filled staging buffer, or complete it (R82, R84). -/
def State.stage (g : Staging) (s : State) : State :=
  match g.part0, g.part1 with
  | some p, some q => s.stagingComplete g (p ++ q)
  | _, _ => { s with sched := { s.sched with staging := some g } }

/-- Take a BOOK-SEGMENT (R82). -/
def State.takeSegment (version origin len index : Nat) (part : List Byte) (s : State) : State :=
  if len < 63 ∨ 1300 < len ∨ 1 < index ∨ part.length ≠ partLength len index then s
  else if !bookHigher version origin s.sched.book.version s.sched.book.origin then s
  else
    let fresh := (Staging.start version origin len s.now).fill index part s.now
    match s.sched.staging with
    | none => s.stage fresh
    | some g =>
      if version = g.version ∧ origin = g.origin then
        if len = g.len ∧ g.filled index = false then s.stage (g.fill index part s.now) else s
      else if bookHigher version origin g.version g.origin then s.stage fresh
      else s

/-- The highest book version in view (R87 step 3). -/
def State.highestBook (s : State) : Nat :=
  (s.freshPeers.map fun p => p.advert.bookVersion).foldl max s.sched.book.version

/-- Load a book from the host (R87). -/
def State.loadBook (bs : List Byte) (s : State) : State × Status :=
  match readBook bs with
  | none => (s, .malformed)
  | some b =>
    if Config.word32 ≤ s.highestBook + 1 then (s, .limit)
    else (s.adopt { b.clamped with version := s.highestBook + 1, origin := s.cfg.nodeId }, .ok)

end Sys2Proof.Machine
end

