-- ==== Sys2Proof/Machine/Distribution.lean ====
section
/-! DEFINITION. The Distribution Unit (chapter 10): manifests, fills, the pull step, serving, taking chunks in, and the
completions of its store operations. -/

namespace Sys2Proof.Machine

/-! ### Manifests and fills (R144 to R146, R155) -/

/-- Whether a version is above the booted version and at or above the floor (R144, R145). -/
def State.versionFits (s : State) (v : Nat) : Bool := s.bootedVersion < v && s.act.sel.floor ≤ v

/-- Whether a manifest is admissible (R144). -/
def State.admissible (s : State) (m : Manifest) : Bool := m.wellFormed && s.versionFits m.version

/-- The manifest copy of a version, from a slot in any state but FAILED (R144). -/
def State.manifestOf (s : State) (v : Nat) : Option Manifest :=
  let of := fun r : SlotRecord => if r.state ≠ .failed ∧ r.version = some v then r.manifest else none
  match of (s.slot .a) with
  | some m => some m
  | none => of (s.slot .b)

/-- Take a MANIFEST-REQUEST (R144). -/
def State.takeManifestRequest (sender v : Nat) (s : State) : State :=
  match s.manifestOf v with
  | some m => s.send sender (.manifest m)
  | none => s

/-- Whether a version is barred (R145). -/
def State.isBarred (s : State) (v : Nat) : Bool :=
  match s.dist.barred with
  | some w => v ≤ w
  | none => false

/-- The spare slot is at a version at or above one already (R145). -/
def SlotRecord.atOrAbove (r : SlotRecord) (v : Nat) : Bool :=
  (match r.state with
    | .filling | .checking | .ready => true
    | .empty | .active | .retained | .failed => false) &&
  (match r.version with
    | some w => v ≤ w
    | none => false)

/-- Whether a fill of a version may start (R145). -/
def State.mayFill (s : State) (v : Nat) : Bool :=
  s.versionFits v && !s.isBarred v && !(s.slot s.spareSlot).atOrAbove v && !s.act.sel.trial
    && (match s.act.state with
      | .idle | .waiting => true
      | .evacuating | .committing | .restarting => false)

/-- Start a fill, less its MANIFEST-REQUEST (R145 steps 1 to 3). -/
def State.startFill (v : Nat) (s : State) : State :=
  let s1 := if (s.slot s.spareSlot).state = .ready then s.readyGivenUp else s
  State.putSlotRecord s1.spareSlot { SlotRecord.blank with state := .filling, version := some v }
    { s1 with dist := { s1.dist with outstanding := none, relay := none, busySkip := none, manifestOwed := false } }

/-- Whether the spare slot is FILLING a version, and whether its manifest is present. -/
def State.filling (s : State) (v : Nat) (hasManifest : Bool) : Bool :=
  let r := s.slot s.spareSlot
  r.state == .filling && r.version == some v && r.manifest.isSome == hasManifest

/-- The image fields of an ADVERT (R145, R146). -/
def State.hearImage (peer v : Nat) (s : State) : State :=
  let s1 : State :=
    { s with dist := { s.dist with barred := match s.dist.barred with
        | some w => if w < v then none else some w
        | none => none } }
  if s1.mayFill v then (s1.startFill v).send peer (.manifestRequest v)
  else if s1.filling v false then s1.send peer (.manifestRequest v)
  else s1

/-- A manifest write of the fill. -/
def StoreOp.isManifestWrite (op : StoreOp) : Bool :=
  match op.owner, op.kind with
  | .fill, .recordWrite (.manifest _) _ _ => true
  | _, _ => false

/-- Submit the owed manifest write while none is in the store (R146). -/
def State.submitManifest (s : State) : State :=
  if s.dist.manifestOwed && !s.storeOps.any StoreOp.isManifestWrite then
    match (s.slot s.spareSlot).manifest with
    | some m =>
      let r := s.submit { owner := .fill, kind := .recordWrite (.manifest s.spareSlot) m.version (writeManifest m) }
      if r.2 = .accepted then { r.1 with dist := { r.1.dist with manifestOwed := false } } else r.1
    | none => s
  else s

/-- Store the manifest of the fill (R146). -/
def State.storeManifest (m : Manifest) (s : State) : State :=
  let s1 := s.putSlotRecord s.spareSlot { s.slot s.spareSlot with manifest := some m }
  State.submitManifest { s1 with dist := { s1.dist with manifestOwed := true } }

/-- Take a MANIFEST (R146). -/
def State.takeManifest (m : Manifest) (s : State) : State :=
  if s.admissible m && s.filling m.version false then s.storeManifest m else s

/-- Take a SEED-MANIFEST (R155). -/
def State.seedManifest (m : Manifest) (s : State) : State × Status :=
  if !m.wellFormed then (s, .malformed)
  else if !s.admissible m then (s, .state)
  else if s.filling m.version false then (s.storeManifest m, .ok)
  else if s.filling m.version true then (s, .ok)
  else if s.mayFill m.version then ((s.startFill m.version).storeManifest m, .ok)
  else (s, .state)

/-- The completion of a manifest write (R146); one that completes PROTECTED is not owed again (DESIGN CHOICE, log entry
49). -/
def State.manifestWritten (k : SlotId) (v : Nat) (failed : Bool) (s : State) : State :=
  let s1 : State :=
    if failed && k == s.spareSlot && (s.slot k).version == some v then { s with dist := { s.dist with manifestOwed := true } }
    else s
  s1.submitManifest

/-! ### The pull step (R147, R148) -/

/-- The missing chunks of a block (R147). -/
def SlotRecord.missing (r : SlotRecord) (b : Nat) : List Nat :=
  (imageChunks r.length b).filter fun i => r.mark i == .missing

/-- Whether a block is a pull candidate (R147). -/
def SlotRecord.pullCandidate (r : SlotRecord) (b : Nat) : Bool :=
  b < imageBlocks r.length &&
    ((r.block b).state == .dirty || ((r.block b).state == .opened && !(r.missing b).isEmpty))

/-- Whether the busy skip holds back a peer (R147, R149). -/
def State.skips (s : State) (id : Nat) : Bool :=
  match s.dist.busySkip with
  | some x => x.peer == id && s.now < x.untilTime
  | none => false

/-- Whether a peer is an eligible source for a block of a version (R147). -/
def State.isSource (s : State) (v b : Nat) (p : PeerEntry) : Bool :=
  p.fresh && p.suspectUntil.isNone && !s.skips p.id && p.advert.target == v && marksBlock p.advert.bitmap b

/-- A link cost for the choice of a source: 0 ranks after 31 (R147). -/
def PeerEntry.sourceCost (p : PeerEntry) : Nat := if p.linkCost = 0 then 32 else p.linkCost

/-- The source for a block: the lowest link cost, ties to the lower id (R147). -/
def State.sourceFor (s : State) (v b : Nat) : Option PeerEntry :=
  (sortBy (fun x y => x.sourceCost < y.sourceCost || (x.sourceCost == y.sourceCost && x.id < y.id))
    (s.peers.table.filter (s.isSource v b))).head?

/-- A pull target: block, start chunk, mode. -/
structure PullTarget where
  block : Nat
  start : Nat
  hybrid : Bool
  deriving DecidableEq, Repr

/-- The target of the relay demand, if it qualifies (R147). -/
def State.relayTarget (s : State) (r : SlotRecord) (v : Nat) : Option PullTarget :=
  match s.dist.relay with
  | some d =>
    if r.pullCandidate d.block && (s.sourceFor v d.block).isSome then
      some { block := d.block, start := d.start, hybrid := false }
    else none
  | none => none

/-- The target of a pull step (R147). -/
def State.pullTarget (s : State) (r : SlotRecord) (v : Nat) : Option PullTarget :=
  match s.relayTarget r v with
  | some t => some t
  | none =>
    ((List.range 256).find? fun b => r.pullCandidate b && (s.sourceFor v b).isSome).map fun b =>
      { block := b
        start := if (r.block b).state = .dirty then 16 * b else ((r.missing b).head?).getD (16 * b)
        hybrid := true }

/-- Submit an erase for the fill (R136). -/
def State.submitErase (k : SlotId) (v b : Nat) (s : State) : State :=
  (s.submit { owner := .fill, kind := .eraseBlock k v b }).1

/-- The blocks erased ahead (R147). -/
def SlotRecord.eraseAhead (r : SlotRecord) (bitmap : BitVec 256) (b : Nat) : List Nat :=
  ((List.range (imageBlocks r.length)).filter fun x =>
    b ≤ x && (r.block x).state == .dirty && marksBlock bitmap x).take 2

/-- The wrapped part of an order (R148). -/
def wrappedPart (n b start : Nat) : List Nat :=
  (imageChunks n b).filter (fun i => start ≤ i) ++ (imageChunks n b).filter fun i => i < start

/-- The blocks of an image after a block. -/
def blocksAfter (n b : Nat) : List Nat := (List.range (imageBlocks n)).filter fun x => b < x

/-- The order of a request at the requester (R148). -/
def SlotRecord.pullOrder (r : SlotRecord) (bitmap : BitVec 256) (t : PullTarget) : List Nat :=
  wrappedPart r.length t.block t.start ++
    if t.hybrid then
      ((blocksAfter r.length t.block).takeWhile fun x => (r.block x).state == .opened && marksBlock bitmap x).flatMap
        (imageChunks r.length)
    else []

/-- The order of a request at the server (R148). -/
def serveOrder (n b start : Nat) (hybrid : Bool) : List Nat :=
  wrappedPart n b start ++ if hybrid then (blocksAfter n b).flatMap (imageChunks n) else []

/-- Send the CHUNK-REQUEST of an OPEN target (R125, R148). -/
def State.sendRequest (r : SlotRecord) (v : Nat) (t : PullTarget) (p : PeerEntry) (s : State) : State :=
  let order := r.pullOrder p.advert.bitmap t
  let count := min s.prio.pullCredits (order.filter fun i => r.mark i == .missing).length
  let s1 : State :=
    { s with
      prio := { s.prio with pullCredits := s.prio.pullCredits - count }
      dist := { s.dist with
        outstanding := some
          { source := p.id, version := v, block := t.block, start := t.start, count := count, hybrid := t.hybrid,
            order := order, last := order.getD (count - 1) t.start, due := s.now + 2 * s.cfg.period } } }
  s1.send p.id (.chunkRequest v t.block t.start count (flagBit t.hybrid))

/-- The pull step (R147). -/
def State.pullStep (s : State) : State :=
  let k := s.spareSlot
  let r := s.slot k
  match r.version with
  | some v =>
    if r.state = .filling ∧ r.manifest.isSome = true ∧ 0 < s.prio.pullCredits ∧ s.dist.outstanding = none then
      match s.pullTarget r v with
      | some t =>
        match s.sourceFor v t.block with
        | some p =>
          let s1 := walk (r.eraseAhead p.advert.bitmap t.block) (State.submitErase k v) s
          if (r.block t.block).state = .dirty then s1 else s1.sendRequest r v t p
        | none => s
      | none => s
    else s
  | none => s

/-! ### The outstanding request (R149) -/

/-- Close the outstanding request. -/
def State.closeRequest (s : State) : State := { s with dist := { s.dist with outstanding := none } }

/-- Take a CHUNK-REFUSE (R149): BUSY 0, VERSION 1, NOT-HELD 2. -/
def State.takeRefuse (sender reason v b : Nat) (s : State) : State :=
  match s.dist.outstanding with
  | some o =>
    if sender = o.source ∧ v = o.version ∧ b = o.block ∧ reason ≤ 2 then
      let s1 := s.closeRequest
      if reason = 0 then
        { s1 with dist := { s1.dist with busySkip := some { peer := sender, untilTime := s.now + s.cfg.period } } }
      else s1
    else s
  | none => s

/-- What a CHUNK does to the outstanding request (R149). -/
def State.noteChunk (sender v i : Nat) (s : State) : State :=
  match s.dist.outstanding with
  | some o =>
    if sender = o.source ∧ v = o.version then
      if i = o.last then s.closeRequest
      else if o.order.contains i then
        { s with dist := { s.dist with outstanding := some { o with due := s.now + 2 * s.cfg.period } } }
      else s
    else s
  | none => s

/-! ### Taking chunks in (R152, R156) -/

/-- Whether a supplier may supply a block (R152). -/
def Block.takes (b : Block) (x : Supplier) : Bool := b.suppliers.contains x || b.suppliers.length < Config.blockSuppliers

/-- Add a supplier (R152). -/
def Block.addSupplier (b : Block) (x : Supplier) : Block :=
  if b.suppliers.contains x then b else { b with suppliers := b.suppliers ++ [x] }

/-- Submit the program of a missing chunk of an OPEN block; on acceptance its supplier is entered (R137, R152). -/
def State.submitProgram (k : SlotId) (v i : Nat) (data : List Byte) (x : Supplier) (s : State) : State × Submitted :=
  let r := s.submit { owner := .fill, kind := .programChunk k v i data }
  if r.2 = .accepted then
    (r.1.putSlotRecord k ((r.1.slot k).putBlock (i / 16) (((r.1.slot k).block (i / 16)).addSupplier x)), r.2)
  else r

/-- Take a CHUNK (R149, R152). -/
def State.takeChunk (sender v i : Nat) (data : List Byte) (s : State) : State :=
  let s1 := s.noteChunk sender v i
  let k := s1.spareSlot
  let r := s1.slot k
  if s1.filling v true && i < r.length then
    let b := r.block (i / 16)
    match b.state with
    | .dirty => s1.submitErase k v (i / 16)
    | .opened =>
      if r.mark i == .missing && b.takes (.peer sender) then (s1.submitProgram k v i data (.peer sender)).1 else s1
    | .erasing | .verifying | .verified => s1
  else s1

/-- Take a SEED-CHUNK (R156). -/
def State.seedChunk (v i : Nat) (data : List Byte) (s : State) : State × Status :=
  let k := s.spareSlot
  let r := s.slot k
  let b := r.block (i / 16)
  if !s.filling v true then (s, .state)
  else if r.length ≤ i then (s, .range)
  else match b.state with
    | .dirty => (s.submitErase k v (i / 16), .busy)
    | .erasing => (s, .busy)
    | .opened =>
      if r.mark i == .missing then
        if b.takes .ownHost then
          let p := s.submitProgram k v i data .ownHost
          (p.1, if p.2 = .accepted then .ok else .busy)
        else (s, .busy)
      else (s, .ok)
    | .verifying | .verified => (s, .ok)

/-! ### Verification and check (R153, R154) -/

/-- Change one block of a slot. -/
def State.mapBlock (k : SlotId) (b : Nat) (f : Block → Block) (s : State) : State :=
  s.putSlotRecord k ((s.slot k).putBlock b (f ((s.slot k).block b)))

/-- Submit a block's verification; when it is not accepted the mark is set (R153). -/
def State.submitVerify (k : SlotId) (v b : Nat) (s : State) : State :=
  match (s.slot k).manifest with
  | some m =>
    let r := s.submit { owner := .fill, kind := .verifyBlock k v b (m.blockCrc b) }
    r.1.mapBlock k b fun x => { x with verifyOwed := decide (r.2 ≠ .accepted) }
  | none => s

/-- Submit the whole-image check; when it is not accepted the mark is set (R154). -/
def State.submitCheck (k : SlotId) (v : Nat) (s : State) : State :=
  match (s.slot k).manifest with
  | some m =>
    let r := s.submit { owner := .fill, kind := .checkImage k v m.n m.imageCrc }
    r.1.putSlotRecord k { r.1.slot k with checkOwed := decide (r.2 ≠ .accepted) }
  | none => s

/-- The submissions owed at an advert expiry (R146, R147): the verifications in block order, the check, the manifest write
(the order is a DESIGN CHOICE, log entry 44). -/
def State.submitOwed (s : State) : State :=
  let k := s.spareSlot
  let r := s.slot k
  match r.version with
  | some v =>
    let s1 := walk ((List.range 256).filter fun b => (r.block b).verifyOwed) (fun b s => s.submitVerify k v b) s
    let s2 := if (s1.slot k).checkOwed then s1.submitCheck k v else s1
    s2.submitManifest
  | none => s

/-- Whether a slot still serves a fill operation of a version (R135). -/
def State.stillFilling (s : State) (k : SlotId) (v : Nat) : Bool :=
  (s.slot k).state == .filling && (s.slot k).version == some v

/-- The completion of the fill's erase (R136). -/
def State.eraseDone (k : SlotId) (v b : Nat) (ok : Bool) (s : State) : State :=
  if s.stillFilling k v then s.mapBlock k b fun _ => { Block.blank with state := if ok then .opened else .dirty } else s

/-- The completion of the fill's program (R137, R153). One whose chunk is no longer pending, because another program of its
block failed while it was in flight, is ignored (DESIGN CHOICE, log entry 43). -/
def State.programDone (k : SlotId) (v i : Nat) (result : StoreResult) (s : State) : State :=
  if s.stillFilling k v && (s.slot k).mark i == .pending then
    match result with
    | .ok =>
      let s1 := s.mapBlock k (i / 16) fun x => x.setMark (i % 16) .programmed
      if (s1.slot k).blockProgrammed (i / 16) then s1.submitVerify k v (i / 16) else s1
    | .failed => s.mapBlock k (i / 16) fun _ => Block.blank
    | _ => s.mapBlock k (i / 16) fun x => x.setMark (i % 16) .missing
  else s

/-- Mark the suppliers of a rejected block suspect (R153). -/
def State.suspect (xs : List Supplier) (s : State) : State :=
  { s with
    peers := { s.peers with
      table := s.peers.table.map fun p =>
        if xs.contains (.peer p.id) then
          { p with suspectUntil := some (max (p.suspectUntil.getD 0) (s.now + Config.suspectTime)) }
        else p } }

/-- Every image block of a slot is VERIFIED. -/
def SlotRecord.allVerified (r : SlotRecord) : Bool :=
  (List.range (imageBlocks r.length)).all fun b => (r.block b).state == .verified

/-- The last image block was verified: CHECKING, and the check (R154). -/
def State.enterChecking (k : SlotId) (v : Nat) (s : State) : State :=
  if (s.slot k).allVerified then (s.putSlotRecord k { s.slot k with state := .checking }).submitCheck k v else s

/-- The completion of the fill's verification (R138, R153). -/
def State.verifyDone (k : SlotId) (v b : Nat) (result : StoreResult) (s : State) : State :=
  if s.stillFilling k v then
    match result with
    | .matched _ =>
      let s1 := s.mapBlock k b fun x => { x with state := .verified, suppliers := [], verifyOwed := false }
      let s2 : State :=
        { s1 with dist := { s1.dist with relay := match s1.dist.relay with
            | some d => if d.block = b then none else some d
            | none => none } }
      s2.enterChecking k v
    | .mismatched _ =>
      let xs := ((s.slot k).block b).suppliers
      ((s.mapBlock k b fun _ => Block.blank).suspect xs).raise (.blockRejected k b v xs)
    | _ => s.mapBlock k b fun _ => Block.blank
  else s

/-- The completion of the fill's check (R139, R154). -/
def State.checkDone (k : SlotId) (v : Nat) (result : StoreResult) (s : State) : State :=
  if (s.slot k).state == .checking && (s.slot k).version == some v then
    match result with
    | .matched _ => ((s.putSlotRecord k { s.slot k with state := .ready }).raise (.imageReady k v)).slotReady
    | .mismatched _ =>
      let s1 := s.putSlotRecord k { s.slot k with state := .failed }
      State.raise (.imageFailed k v) { s1 with dist := { s1.dist with barred := some v, relay := none } }
    | _ => s.putSlotRecord k { s.slot k with checkOwed := true }
  else s

/-! ### Serving (R150, R151) -/

/-- The refusal reason of a CHUNK-REQUEST (R150): BUSY 0, VERSION 1, NOT-HELD 2. -/
def State.refusalOf (s : State) (sender v b start : Nat) : Option Nat :=
  if s.act.state = .restarting
      ∨ (Config.serveEntries ≤ s.dist.serve.length ∧ s.dist.serve.any (fun q => q.peer == sender) = false) then some 0
  else match s.servingSlot v with
  | none => some 1
  | some k => if (s.slot k).length ≤ start ∨ (s.slot k).blockVerified b = false then some 2 else none

/-- The relay demand a NOT-HELD refusal leaves (R150). -/
def State.demand (v b start : Nat) (s : State) : State :=
  let r := s.slot s.spareSlot
  if s.filling v true && b < imageBlocks r.length && start < r.length then
    { s with dist := { s.dist with relay := some { block := b, start := start } } }
  else s

/-- Enter a request in the serve queue: in its peer's place, or at the tail (R150). -/
def enqueueServe (q : ServeRequest) (l : List ServeRequest) : List ServeRequest :=
  if l.any (fun x => x.peer == q.peer) then l.map fun x => if x.peer == q.peer then q else x else l ++ [q]

/-- The order of a queued request at the slot that serves it (R148); none while no slot holds its version. -/
def State.orderOf (s : State) (q : ServeRequest) : Option (SlotId × List Nat) :=
  (s.servingSlot q.version).map fun k => (k, serveOrder (s.slot k).length q.block q.start q.hybrid)

/-- Whether a request has passed its count of chunks, or every chunk of its order (R151). -/
def State.passedAll (s : State) (q : ServeRequest) : Bool :=
  q.count ≤ q.position ||
    match s.orderOf q with
    | some (_, order) => order.length ≤ q.position
    | none => false

/-- The head request's chunk at its next position, while its block is VERIFIED here (R151). -/
def State.nextServed (s : State) (q : ServeRequest) : Option (SlotId × Nat) :=
  match s.orderOf q with
  | some (k, order) =>
    match order[q.position]? with
    | some i => if (s.slot k).blockVerified (i / 16) then some (k, i) else none
    | none => none
  | none => none

/-- The serve engine (R126, R151). Each turn submits a read, passes a chunk over or finishes a request. A request that has
passed all its chunks leaves whatever the credits; with no credit or no room the others are held as they stand. -/
def serveTurns : Nat → State → State
  | 0, s => s
  | n + 1, s =>
    if s.act.state = .restarting ∨ 0 < s.heldPlaces then s
    else match s.dist.serve with
    | [] => s
    | q :: rest =>
      if s.passedAll q then serveTurns n { s with dist := { s.dist with serve := rest } }
      else if s.prio.serveCredits = 0 ∨ s.roomForChunk = false then s
      else match s.nextServed q with
        | none => serveTurns n { s with dist := { s.dist with serve := rest } }
        | some (k, i) =>
          let r := s.submit { owner := .serve q.peer q.block, kind := .readChunk k q.version i }
          let s1 : State := { r.1 with prio := { r.1.prio with serveCredits := r.1.prio.serveCredits - 1 } }
          if r.2 = .accepted then { s1 with dist := { s1.dist with serve := { q with reading := true } :: rest } }
          else serveTurns n { s1 with dist := { s1.dist with serve := { q with position := q.position + 1 } :: rest } }

/-- Run the serve engine until it waits. -/
def State.serveEngine (s : State) : State := serveTurns (s.prio.serveCredits + s.dist.serve.length + 1) s

/-- Take a CHUNK-REQUEST (R150). -/
def State.takeChunkRequest (sender v b start count mode : Nat) (s : State) : State :=
  if 255 < b ∨ start < 16 * b ∨ 16 * b + 15 < start ∨ count = 0 ∨ 32 < count ∨ 1 < mode then s
  else match s.refusalOf sender v b start with
    | some reason =>
      let s1 := s.send sender (.chunkRefuse reason v b)
      if reason = 2 then s1.demand v b start else s1
    | none =>
      let q : ServeRequest :=
        { peer := sender, version := v, block := b, start := start, count := count, hybrid := mode == 1, position := 0,
          reading := false }
      State.serveEngine { s with dist := { s.dist with serve := enqueueServe q s.dist.serve } }

/-- A request passes the chunk its read was for (R151). -/
def ServeRequest.pass (q : ServeRequest) : ServeRequest :=
  if q.reading then { q with position := q.position + 1, reading := false } else q

/-- A request whose read is ignored stands where it stood (R135, log entry 47). -/
def ServeRequest.unread (q : ServeRequest) : ServeRequest := { q with reading := false }

/-- The queued requests, each changed. -/
def State.mapServe (f : ServeRequest → ServeRequest) (s : State) : State :=
  { s with dist := { s.dist with serve := s.dist.serve.map f } }

/-- The completion of a serve engine's read (R126, R151). A read that was in flight when its slot moved on is ignored
(R135, log entry 47). -/
def State.readDone (peer : Nat) (k : SlotId) (v i : Nat) (result : StoreResult) (s : State) : State :=
  match result with
  | .cancelled =>
    match s.dist.serve.find? (fun q => q.reading) with
    | some q =>
      (State.send peer (.chunkRefuse 1 v q.block)
        { s with dist := { s.dist with serve := s.dist.serve.filter fun x => !x.reading } }).serveEngine
    | none => s.serveEngine
  | .data bytes =>
    if (s.slot k).readable v then ((s.mapServe ServeRequest.pass).sendChunk peer v i bytes).serveEngine
    else (s.mapServe ServeRequest.unread).serveEngine
  | _ =>
    if (s.slot k).readable v then (s.mapServe ServeRequest.pass).serveEngine
    else (s.mapServe ServeRequest.unread).serveEngine

/-! ### The advert expiry (R9, R123, R147, R162) -/

/-- The advert timer's expiry at time `due` (R9): ADVERT, credits, owed submissions, pull step, serve engine, and the
evacuation pass with its check. -/
def State.advertExpiry (due : Nat) (s : State) : State :=
  let s1 := s.placeAdvert s.buildAdvert
  let s2 : State := { s1 with peers := { s1.peers with advertDue := some (due + s1.cfg.period) } }
  let s3 := s2.openCredits.submitOwed.pullStep.serveEngine
  (if s3.act.state = .evacuating then s3.pass.endCheck else s3).settle

end Sys2Proof.Machine
end

