-- ==== Sys2Proof/Machine/Start.lean ====
section
/-! DEFINITION. Starts (section 11.5): a start cuts work short and begins the start sequence, each of whose steps
follows the completion of the store operation before it (R165 to R170). -/

namespace Sys2Proof.Machine

/-- Enter a stage of the sequence. -/
def State.stageAt (st : Stage) (s : State) : State := { s with seq := { s.seq with stage := st } }

/-- Enter a stage and submit the operation it waits for (R165). -/
def State.startOp (st : Stage) (kind : OpKind) (s : State) : State :=
  ((s.stageAt st).submit { owner := .start, kind := kind }).1

/-- The flash a start leaves: the operation in flight is cut short (R141). -/
def State.flashAtStart (cells : List Host.Cell) (s : State) : List Host.Cell :=
  match s.store.inflight with
  | some op => cutShort cells s.store.flash op
  | none => s.store.flash

/-- A start takes effect (R141, R165, R168). -/
def State.beginStart (recovery : Bool) (cells : List Host.Cell) (s : State) : State :=
  let s0 := State.fresh s.pending (s.flashAtStart cells) s.port.link
  let s1 : State := { s0 with seq := { s0.seq with recovery := recovery } }
  if recovery then s1.startOp .recoverySelector0 (.recordRead (.selector .zero))
  else s1.startOp .readStaged (.recordRead .configStaged)

/-! ### The selector copies (R134) -/

/-- The current copy, the sequence and the held selector that two read copies give (R134, R166). Of two valid copies with
equal sequence numbers copy 0 is taken (DESIGN CHOICE, log entry 42). -/
def selectorOf (first second : Option (List Byte)) : Option CopyId × Nat × Selector :=
  match first.bind readSelector, second.bind readSelector with
  | some (m, x), some (n, y) => if m < n then (some .one, n, y) else (some .zero, m, x)
  | some (m, x), none => (some .zero, m, x)
  | none, some (n, y) => (some .one, n, y)
  | none, none => (none, 0, Selector.blank)

/-- Learn the selector from its copies (R134). The bodies read decide, even where a retried write completed between the two
reads (DESIGN CHOICE, log entry 51). -/
def State.learnSelector (first second : Option (List Byte)) (s : State) : State :=
  let x := selectorOf first second
  { s with store := { s.store with copy := x.1, seqNo := x.2.1 }, act := { s.act with sel := x.2.2 } }

/-- The body of a read's result, if it was valid. -/
def StoreResult.body : StoreResult → Option (List Byte)
  | .valid b => some b
  | .ok | .data _ | .matched _ | .mismatched _ | .invalid | .failed | .cancelled | .isProtected => none

/-- A configuration body has the 12 bytes of R177. -/
def configBody (b : Option (List Byte)) : Option (List Byte) :=
  match b with
  | some x => if x.length = 12 then some x else none
  | none => none

/-- The manifest of a manifest area, when it is well formed (R167). -/
def manifestBody (b : Option (List Byte)) : Option Manifest :=
  match b with
  | some x => if x.length = 1038 ∧ (readManifest x).wellFormed = true then some (readManifest x) else none
  | none => none

/-! ### The sequence, last step first (R166, R167, R170) -/

/-- The Slot Table stands as rebuilt and the sequence is ready to complete. -/
def State.seqReady (s : State) : State := s.stageAt .ready

/-- A slot as a manifest copy gives it; its blocks stand DIRTY and unmarked, whatever they count as (R142; DESIGN CHOICE,
log entry 50). -/
def SlotRecord.ofManifest (m : Option Manifest) (st : SlotState) : SlotRecord :=
  { SlotRecord.blank with state := st, version := m.map Manifest.version, manifest := m }

/-- Verify a block of the non-booted slot (R167 line 4). -/
def State.seqVerify (b : Nat) (allMatch : Bool) (s : State) : State :=
  match (s.slot s.spareSlot).manifest with
  | some m => s.startOp (.verify b allMatch) (.verifyBlock s.spareSlot m.version b (m.blockCrc b))
  | none => s.seqReady

/-- Rebuild the Slot Table (R167). A recovery start whose own write of trial starts 0 failed with the trial clear comes here
with the reverted slot and raises TRIAL-REVERTED (DEDUCED, log entry 45). -/
def State.seqRebuild (ma mb : Option Manifest) (s : State) : State :=
  let booted := s.act.sel.booted
  let k := booted.other
  let mBooted := match booted with | .a => ma | .b => mb
  let mSpare := match booted with | .a => mb | .b => ma
  let s1 := State.putSlotRecord booted (SlotRecord.ofManifest mBooted .active) { s with dist := { s.dist with active := booted } }
  if s.seq.reverted then
    let s2 := s1.putSlotRecord k (SlotRecord.ofManifest mSpare .failed)
    let s3 : State := { s2 with dist := { s2.dist with barred := mSpare.map Manifest.version } }
    (s3.raise (.trialReverted k (mSpare.map Manifest.version))).startOp .eraseReverted (.eraseArea (.manifest k))
  else if s.act.sel.trial ∧ k = s.act.sel.confirmed then (s1.putSlotRecord k (SlotRecord.ofManifest mSpare .retained)).seqReady
  else match mSpare with
    | none => (s1.putSlotRecord k SlotRecord.blank).seqReady
    | some m => (s1.putSlotRecord k (SlotRecord.ofManifest (some m) .empty)).seqVerify 0 true

/-- The next block to verify, or the check, or EMPTY (R167 line 4). -/
def State.seqVerified (b : Nat) (allMatch : Bool) (s : State) : State :=
  let r := s.slot s.spareSlot
  if b + 1 < imageBlocks r.length then s.seqVerify (b + 1) allMatch
  else match allMatch, r.manifest with
    | true, some m => s.startOp .check (.checkImage s.spareSlot m.version m.n m.imageCrc)
    | _, _ => (s.putSlotRecord s.spareSlot SlotRecord.blank).seqReady

/-- The non-booted slot after its check (R167 line 4). -/
def State.seqChecked (isMatch : Bool) (s : State) : State :=
  let r := s.slot s.spareSlot
  let fits := match r.version with | some v => s.versionFits v | none => false
  (s.putSlotRecord s.spareSlot
    (if isMatch then { r with state := if fits then .ready else .retained } else SlotRecord.blank)).seqReady

/-- Submit a selector write of the sequence; a refused one is retried and the sequence goes on (R158, R166). -/
def State.seqWrite (purpose : SelPurpose) (sel : Selector) (waitAt : Nat → Stage) (goOn : State → State) (s : State) :
    State :=
  let w := s.newWrite .start purpose sel
  let r := (w.2.stageAt (waitAt w.1.order)).submitSelector w.1
  if r.2 = .accepted then r.1 else goOn (r.1.startRetry w.1)

/-- Read the book area (R167). -/
def State.seqBook (s : State) : State := s.startOp .readBook (.recordRead .book)

/-- What the selector calls for at this start (R166). -/
def State.seqAction (s : State) : State :=
  let sel := s.act.sel
  if sel.trial ∧ sel.trialStarts = 0 then
    State.seqWrite .trialStart { sel with trialStarts := 1 } .writeSelector State.seqBook
      { s with seq := { s.seq with beginsTrial := true } }
  else if sel.trial then
    State.seqWrite .revert sel.reverted .writeSelector State.seqBook { s with seq := { s.seq with wroteRevert := true } }
  else if sel.trialStarts = 2 then
    State.seqWrite .clearRevert { sel with trialStarts := 0 } .writeSelector State.seqBook
      { s with seq := { s.seq with reverted := true } }
  else s.seqBook

/-- The configuration in use is settled; the selector copies are read next (R166). -/
def State.seqConfig (b : Option (List Byte)) (s : State) : State :=
  State.startOp .readSelector0 (.recordRead (.selector .zero))
    { s with cfg := match b with
        | some x => readConfig x
        | none => ActiveConfig.unread }

/-- The staged area was read and then the active one (R166). -/
def State.seqActive (staged : Option (List Byte)) (active : Option (List Byte)) (s : State) : State :=
  match staged with
  | none => s.seqConfig active
  | some x => if active = some x then s.seqConfig (some x) else s.startOp (.promote x) (.recordWrite .configActive 0 x)

/-- The promotion completed: the active area is read again; a FAILED write still uses the record (R166, R177, log entry
48). -/
def State.seqPromoted (x : List Byte) (ok : Bool) (s : State) : State :=
  if ok then s.startOp .readPromoted (.recordRead .configActive) else s.seqConfig (some x)

/-- Read the staged area (R166). -/
def State.seqStaged (s : State) : State := s.startOp .readStaged (.recordRead .configStaged)

/-- Erase the staged area (R170). -/
def State.seqEraseStaged (again : Bool) (s : State) : State := s.startOp (.recoveryEraseStaged again) (.eraseArea .configStaged)

/-- Erase the manifest area of the non-booted slot (R170). -/
def State.seqEraseManifest (again : Bool) (s : State) : State :=
  s.startOp (.recoveryEraseManifest again) (.eraseArea (.manifest s.act.sel.booted.other))

/-- Erase a block of the non-booted slot (R170). -/
def State.seqErase (b : Nat) (again : Bool) (s : State) : State :=
  s.startOp (.recoveryErase b again) (.eraseBlock s.act.sel.booted.other 0 b)

/-- The revert of a recovery start, if one is called for (R170). -/
def State.seqRecover (s : State) : State :=
  let sel := s.act.sel
  if sel.trial ∨ sel.trialStarts = 2 then
    s.seqWrite (.recovery (sel.booted != sel.confirmed)) { sel with booted := sel.confirmed, trial := false, trialStarts := 0 }
      .recoveryRevert (State.seqEraseStaged false)
  else s.seqErase 0 false

/-- A recovery revert that changed the booted slot and completed OK before the sequence did, at its first attempt or at a
retry, is a revert this start wrote (R158, log entry 26). -/
def State.noteRevert (purpose : SelPurpose) (ok : Bool) (s : State) : State :=
  if ok && purpose == .recovery true && s.seq.stage != .running then { s with seq := { s.seq with wroteRevert := true } } else s

/-- The sequence goes on when the selector write it waits for completes (R166, R170). -/
def State.seqSelectorDone (order : Nat) (purpose : SelPurpose) (ok : Bool) (s : State) : State :=
  let s1 := s.noteRevert purpose ok
  match s1.seq.stage with
  | .recoveryRevert n => if n = order then (if ok then s1.seqErase 0 false else s1.seqEraseStaged false) else s1
  | .writeSelector n => if n = order then s1.seqBook else s1
  | _ => s1

/-- Whether a stage waits for an operation of a kind. -/
def Stage.waitsFor (st : Stage) (kind : OpKind) : Bool :=
  match st, kind with
  | .recoverySelector0, .recordRead (.selector .zero) => true
  | .recoverySelector1 _, .recordRead (.selector .one) => true
  | .recoveryErase b _, .eraseBlock _ _ c => b == c
  | .recoveryEraseManifest _, .eraseArea (.manifest _) => true
  | .recoveryEraseStaged _, .eraseArea .configStaged => true
  | .readStaged, .recordRead .configStaged => true
  | .readActive _, .recordRead .configActive => true
  | .promote _, .recordWrite .configActive _ _ => true
  | .readPromoted, .recordRead .configActive => true
  | .readSelector0, .recordRead (.selector .zero) => true
  | .readSelector1 _, .recordRead (.selector .one) => true
  | .readBook, .recordRead .book => true
  | .readManifestA, .recordRead (.manifest .a) => true
  | .readManifestB, .recordRead (.manifest .b) => true
  | .eraseReverted, .eraseArea (.manifest _) => true
  | .verify b _, .verifyBlock _ _ c _ => b == c
  | .check, .checkImage _ _ _ _ => true
  | _, _ => false

/-- Whether a read-back matched. -/
def StoreResult.isMatch : StoreResult → Bool
  | .matched _ => true
  | .ok | .data _ | .mismatched _ | .valid _ | .invalid | .failed | .cancelled | .isProtected => false

/-- The step of the sequence that follows a completion it waits for (R166, R167, R170). -/
def State.seqNext (r : StoreResult) (s : State) : State :=
  match s.seq.stage with
  | .recoverySelector0 => s.startOp (.recoverySelector1 r.body) (.recordRead (.selector .one))
  | .recoverySelector1 first => (s.learnSelector first r.body).seqRecover
  | .recoveryErase b again =>
    if r = .failed ∧ again = false then s.seqErase b true
    else if b < 255 then s.seqErase (b + 1) false
    else s.seqEraseManifest false
  | .recoveryEraseManifest again => if r = .failed ∧ again = false then s.seqEraseManifest true else s.seqEraseStaged false
  | .recoveryEraseStaged again => if r = .failed ∧ again = false then s.seqEraseStaged true else s.seqStaged
  | .readStaged => s.startOp (.readActive (configBody r.body)) (.recordRead .configActive)
  | .readActive staged => s.seqActive staged (configBody r.body)
  | .promote x => s.seqPromoted x (r == .ok)
  | .readPromoted => s.seqConfig (configBody r.body)
  | .readSelector0 => s.startOp (.readSelector1 r.body) (.recordRead (.selector .one))
  | .readSelector1 first => (s.learnSelector first r.body).seqAction
  | .readBook =>
    State.startOp .readManifestA (.recordRead (.manifest .a))
      { s with sched := { s.sched with book := ((r.body.bind readBook).getD Book.emptyBook) } }
  | .readManifestA =>
    State.startOp .readManifestB (.recordRead (.manifest .b))
      { s with seq := { s.seq with manifestA := manifestBody r.body } }
  | .readManifestB => s.seqRebuild s.seq.manifestA (manifestBody r.body)
  | .eraseReverted => s.seqReady
  | .verify b allMatch => s.seqVerified b (allMatch && r.isMatch)
  | .check => s.seqChecked r.isMatch
  | .recoveryRevert _ | .writeSelector _ | .held | .ready | .running => s

/-- A completion of the start sequence's, other than a selector write's, is delivered. -/
def State.seqDone (kind : OpKind) (r : StoreResult) (s : State) : State :=
  if s.seq.stage.waitsFor kind then s.seqNext r else s

/-! ### Completion of the sequence (R158, R165, R168) -/

/-- The activation state a start leaves (R158). -/
def State.stateAfterStart (s : State) : ActState :=
  if s.seq.wroteRevert then .restarting
  else if (s.slot s.spareSlot).state = .ready then .waiting
  else .idle

/-- The start sequence completes: running time begins, and the timers that run from a start (R165, R168). A retried selector
write that R166 let run beside the sequence stays in the store, in flight or waiting, though R168 gives an empty queue and
nothing in flight (DESIGN CHOICE, log entry 55). -/
def State.startCompletes (s : State) : State :=
  let s1 : State :=
    { s with
      now := 0
      seq := { s.seq with stage := .running }
      peers := { s.peers with
        ownPath := if s.cfg.gateway then 0 else Config.noPath
        advertDue := if s.configured then some s.cfg.period else none }
      time := { s.time with tickDue := some Config.tickTime }
      prio := { s.prio with pace := Pace.atStart s.cfg.fixedPace }
      act := { s.act with
        state := s.stateAfterStart
        confirmDue := if s.seq.beginsTrial then some Config.confirmTime else none
        retryDue := s.act.retryDue.map fun due => due - s.now } }
  s1.settleWith (s1.act.state == .waiting)

end Sys2Proof.Machine
end

