-- ==== Sys2Proof/Machine/Port.lean ====
section
/-! DEFINITION. The Local Port (chapter 12): what each host message does when the port takes it, READ-RECORD, and what
the port sends at an acceptance. -/

namespace Sys2Proof.Machine

/-! ### Observations (R171) -/

/-- ASSOCIATE (R22, R26): client id, link rate clamped to 6..2,400, steerable. -/
def State.takeAssociate (_ : Tag) (b : List Byte) (s : State) : State :=
  let c := clientField b 0
  let rate := max 6 (min (field b 6 2) 2400)
  let steerable := field b 8 1 != 0
  (match s.findClient c with
    | some i => match s.record i with
      | some r => s.associateKnown i r rate steerable
      | none => s
    | none => s.associateNew c rate steerable).settle

/-- DISASSOCIATE (R30). -/
def State.takeDisassociate (_ : Tag) (b : List Byte) (s : State) : State :=
  match s.findClient (clientField b 0) with
  | some i => match s.record i with
    | some r => if r.associatedHere then (s.depart i r).settle else s
    | none => s
  | none => s

/-- SIGNAL (R32): the level is smoothed in and the record is handed to the Roaming Unit. -/
def State.takeSignal (_ : Tag) (b : List Byte) (s : State) : State :=
  match s.findClient (clientField b 0) with
  | some i => match s.record i with
    | some r =>
      if r.held then
        let s1 := s.putRecord i (r.smooth (signedByte b 6))
        { s1 with clients := { s1.clients with handed := s1.clients.handed ++ [r.client] } }
      else s
    | none => s
  | none => s

/-- SIGHTING (R18). -/
def State.takeSighting (_ : Tag) (b : List Byte) (s : State) : State :=
  let c := clientField b 0
  if s.heldHere c then s
  else { s with clients := { s.clients with heard := hear c (signedByte b 6) s.now s.clients.heard } }

/-- LINK (R16). -/
def State.takeLink (_ : Tag) (b : List Byte) (s : State) : State :=
  let id := field b 0 1
  if (s.peer id).isSome && id != s.cfg.nodeId then
    (s.mapPeer id fun p => { p with linkCost := min (field b 1 1) 31 }).recomputePath
  else s

/-- Set a client's active-this-minute flag (R33). -/
def State.noteActivity (c : ClientId) (s : State) : State :=
  match s.findClient c with
  | some i => match s.record i with
    | some r => if r.associatedHere then s.putRecord i { r with active := true } else s
    | none => s
  | none => s

/-- CLIENT-ACTIVITY (R33). -/
def State.takeClientActivity (_ : Tag) (b : List Byte) (s : State) : State := s.noteActivity (clientField b 0)

/-- FLOW-SAMPLE (R103): client id, digest, size clamped to 1..1,500, timestamp. -/
def State.takeFlowSample (_ : Tag) (b : List Byte) (s : State) : State :=
  match s.findClient (clientField b 0) with
  | some i => match s.record i with
    | some r =>
      if r.associatedHere then
        (s.sampleFlow i r (digestField b 6) { size := max 1 (min (field b 10 2) 1500), stamp := field b 12 2 }).settle
      else s
    | none => s
  | none => s

/-- FLOW-ACTIVE (R33, R109). -/
def State.takeFlowActive (_ : Tag) (b : List Byte) (s : State) : State :=
  let c := clientField b 0
  let s1 := s.noteActivity c
  match s1.findFlow c (digestField b 6) with
  | some j => (s1.flowActivity j).settle
  | none => s1

/-- FLOW-END (R111). -/
def State.takeFlowEnd (_ : Tag) (b : List Byte) (s : State) : State :=
  let c := clientField b 0
  if s.recordIs c ClientRecord.associatedHere then
    match s.findFlow c (digestField b 6) with
    | some j => (s.removeFlow j).settle
    | none => s
  else s

/-! ### Requests (R172) -/

/-- Settle a request with the status its unit gives. -/
def answer (tag : Tag) (r : State × Status) : State := r.1.reply tag r.2

/-- LOAD-BOOK (R87). -/
def State.takeLoadBook (tag : Tag) (b : List Byte) (s : State) : State := answer tag (s.loadBook b)

/-- SET-TIME (R72). -/
def State.takeSetTime (tag : Tag) (b : List Byte) (s : State) : State :=
  ((s.setMesh (field b 0 4) 0).timeChanged true).reply tag .ok

/-- SEED-MANIFEST (R155). -/
def State.takeSeedManifest (tag : Tag) (b : List Byte) (s : State) : State := answer tag (s.seedManifest (readManifest b))

/-- SEED-CHUNK (R156). -/
def State.takeSeedChunk (tag : Tag) (b : List Byte) (s : State) : State :=
  answer tag (s.seedChunk (field b 0 4) (field b 4 2) (b.drop 6))

/-- ACTIVATE-NOW (R159). -/
def State.takeActivateNow (tag : Tag) (_ : List Byte) (s : State) : State :=
  let marked : State := { s with act := { s.act with activateNow := true } }
  match s.act.state with
  | .waiting => (marked.settleWith true).reply tag .ok
  | .evacuating => marked.reply tag .ok
  | .idle | .committing | .restarting => s.reply tag .state

/-- CONFIRM-IMAGE (R169). -/
def State.takeConfirmImage (tag : Tag) (_ : List Byte) (s : State) : State :=
  if s.act.sel.trial ∧ s.act.state = .idle then
    let w := s.newWrite .activation (.confirm tag) (s.act.sel.confirmedAt s.bootedVersion)
    let r := w.2.submitSelector w.1
    if r.2 = .accepted then r.1 else r.1.reply tag .busy
  else s.reply tag .state

/-- WRITE-CONFIG (R140, R174). A record with both faults is answered MALFORMED (DESIGN CHOICE, log entry 52). -/
def State.takeWriteConfig (tag : Tag) (b : List Byte) (s : State) : State :=
  if !(booleanByteOk (field b 1 1) && booleanByteOk (field b 10 1) && booleanByteOk (field b 11 1)) then
    s.reply tag .malformed
  else if field b 0 1 = 0 ∨ 63 < field b 0 1 then s.reply tag .range
  else
    let r := s.submit { owner := .writeConfig tag, kind := .recordWrite .configStaged 0 b }
    if r.2 = .accepted then r.1 else r.1.reply tag .busy

/-! ### READ-RECORD (R173) -/

/-- The slot record and distribution state (R157). -/
def State.slotView (s : State) (k : SlotId) : SlotView :=
  let r := s.slot k
  let count := fun m : ChunkMark => fun b : Block => (b.chunks.toList.filter fun x => x == m).length
  { slot := r, counts := r.blocks.toList.map fun b => (count .programmed b, count .pending b)
    outstanding := s.dist.outstanding, serve := s.dist.serve, relay := s.dist.relay, busySkip := s.dist.busySkip
    barred := s.dist.barred, manifestOwed := s.dist.manifestOwed }

/-- The book header (R79). -/
def State.headerView (s : State) : BookHeader :=
  let b := s.sched.book
  { version := b.version, origin := b.origin, len := (writeBook b).length, quiet := b.quiet
    windowCounts := b.profiles.map fun p => p.windows.length, bindingCount := b.bindings.length
    staged := s.sched.staging.map fun g => (g.version, g.origin) }

/-- The selector and activation state (R173). -/
def State.selectorView (s : State) : SelectorView :=
  { sel := s.act.sel, state := s.act.state, activateNow := s.act.activateNow
    confirmLeft := s.act.confirmDue.map fun due => due - s.now }

/-- The time record (R76). -/
def State.timeView (s : State) : TimeView :=
  { mesh := s.time.mesh, rank := s.time.rank, day := dayOf s.time.mesh, weekday := weekdayOf s.time.mesh
    minute := minuteOf s.time.mesh, minuteMark := s.time.minuteMark, dayMark := s.time.dayMark
    ageingLeft := s.time.ageingDue.map fun due => due - s.now }

/-- The client record in a slot number, or the empty record. -/
def State.clientView (s : State) (n : Nat) : RecordView :=
  match s.clients.table.toList.getD n none with
  | some r => .client r
  | none => .emptyRecord

/-- The flow record in a slot number, or the empty record (R119). -/
def State.flowView (s : State) (n : Nat) : RecordView :=
  match s.prio.flows.toList.getD n .free with
  | .used f => .flow f
  | .free => .emptyRecord
  | .release _ _ => .emptyRecord

/-- The Peer Table entry at a position, or the empty record (R12). -/
def State.peerView (s : State) (n : Nat) : RecordView :=
  match s.peers.table[n]? with
  | some p => .peer p
  | none => .emptyRecord

/-- What a READ-RECORD selects (R173): CLIENT 0, FLOW 1, PEER 2, SLOT 3, BOOK-HEADER 4, CONFIG 5, SELECTOR 6, TIME 7;
none when it is answered RANGE. The staged configuration needs a store read and is not among them. -/
def State.viewOf (s : State) (kind index : Nat) : Option RecordView :=
  match kind with
  | 0 => if index < 64 then some (s.clientView index) else none
  | 1 => if index < 128 then some (s.flowView index) else none
  | 2 => if index < 15 then some (s.peerView index) else none
  | 3 => if index = 0 then some (.slot (s.slotView .a)) else if index = 1 then some (.slot (s.slotView .b)) else none
  | 4 => if index = 0 then some (.bookHeader s.headerView) else none
  | 5 => if index = 0 then some (.config s.cfg) else none
  | 6 => if index = 0 then some (.selector s.selectorView) else none
  | 7 => if index = 0 then some (.time s.timeView) else none
  | _ => none

/-- READ-RECORD (R173). -/
def State.takeReadRecord (tag : Tag) (b : List Byte) (s : State) : State :=
  let kind := field b 0 1
  let index := field b 1 1
  if kind = 5 ∧ index = 1 then
    let r := s.submit { owner := .readConfig tag, kind := .recordRead .configStaged }
    if r.2 = .accepted then r.1 else r.1.reply tag .busy
  else match s.viewOf kind index with
    | some v => s.replyWith tag v
    | none => s.reply tag .range

/-! ### Taking messages (R171, R172) -/

/-- What the unit named for a kind does with a message body (R171, R172). -/
def State.handle (k : HostKind) (tag : Tag) (b : List Byte) (s : State) : State :=
  match k with
  | .associate => s.takeAssociate tag b
  | .disassociate => s.takeDisassociate tag b
  | .signal => s.takeSignal tag b
  | .sighting => s.takeSighting tag b
  | .link => s.takeLink tag b
  | .clientActivity => s.takeClientActivity tag b
  | .flowSample => s.takeFlowSample tag b
  | .flowActive => s.takeFlowActive tag b
  | .flowEnd => s.takeFlowEnd tag b
  | .loadBook => s.takeLoadBook tag b
  | .setTime => s.takeSetTime tag b
  | .seedManifest => s.takeSeedManifest tag b
  | .seedChunk => s.takeSeedChunk tag b
  | .activateNow => s.takeActivateNow tag b
  | .confirmImage => s.takeConfirmImage tag b
  | .readRecord => s.takeReadRecord tag b
  | .writeConfig => s.takeWriteConfig tag b

/-- Whether an unconfigured part answers a request STATE at once (R172). -/
def HostKind.needsNode (k : HostKind) : Bool :=
  k.isRequest && match k with
    | .readRecord | .writeConfig => false
    | _ => true

/-- The port takes a message: it is discarded, answered STATE by an unconfigured part, or handed to its unit. -/
def State.takeMessage (k : HostKind) (m : HostMsg) (s : State) : State :=
  if !hostMsgOk k m then s
  else if k.needsNode && !s.configured then s.reply m.tag .state
  else s.handle k m.tag m.body

/-- Whether the port takes a message now: a start has completed and fewer than 8 requests are held (R165, R171). -/
def State.portOpen (s : State) : Bool := s.running && s.heldRequests < Config.heldRequests

/-- A message is delivered by the link: it is taken, or waits there behind those before it (R171). -/
def State.hostMessage (k : HostKind) (t : Nat) (m : HostMsg) (s : State) : State :=
  let s1 := s.clockTo t
  if s1.portOpen && s1.port.link.isEmpty then s1.takeMessage k m
  else { s1 with port := { s1.port with link := s1.port.link ++ [(k, m)] } }

/-- Take the messages waiting in the link, oldest first, each leaving the link as it is taken, for as long as the port takes
any (R165, R171). -/
def drain : List (HostKind × HostMsg) → State → State
  | [], s => s
  | (k, m) :: rest, s =>
    if s.portOpen then drain rest (State.takeMessage k m { s with port := { s.port with link := rest } }) else s

/-- The port resumes (R171). -/
def State.resume (s : State) : State := drain s.port.link s

/-! ### Sending (R175, R176) -/

/-- The client and digest of a flow. -/
def FlowSlot.key : FlowSlot → Option (ClientId × Digest)
  | .used f => some (f.client, f.digest)
  | .free | .release _ _ => none

/-- Whether a slot's CLASS subject waits behind another slot's release of the same client and digest (R118, R175). -/
def State.classWaits (s : State) (j : Fin 128) : Bool :=
  (slots 128).any fun k =>
    match s.flow k with
    | .release d c => k != j && (s.flow j).key == some (c, d)
    | .used _ => false
    | .free => false

/-- The CLASS directive of a slot (R117). -/
def FlowSlot.directive : FlowSlot → Option PortMessage
  | .free => none
  | .release d c => some (.flowClass d c .released)
  | .used f => match (FlowSlot.used f).classValue with
    | some v => some (.flowClass f.digest f.client v)
    | none => none

/-- The part with a slot's release sent: the slot is free (R118). -/
def State.releaseSent (j : Fin 128) (s : State) : State :=
  match s.flow j with
  | .release _ _ => { s with prio := { s.prio with flows := putSlot s.prio.flows j .free } }
  | .used _ => s
  | .free => s

/-- The first dirty subject that holds a directive, and the part with it sent (R175). -/
def State.nextDirective (s : State) : Option (PortMessage × State) :=
  if s.port.dirty.pace then
    some (.pace s.prio.pace, { s with port := { s.port with dirty := { s.port.dirty with pace := false } } })
  else if s.port.dirty.restart then
    some (.restart, { s with port := { s.port with dirty := { s.port.dirty with restart := false } } })
  else
    let access := (slots 64).findSome? fun i =>
      if s.port.dirty.access[i] then (s.record i).map fun r => (PortMessage.access r.client r.access, s.setAccessMark i false)
      else none
    let steer := (slots 64).findSome? fun i =>
      if s.port.dirty.steer[i] then (s.record i).map fun r => (PortMessage.steer r.client r.steerValue, s.setSteerMark i false)
      else none
    let cls := (slots 128).findSome? fun j =>
      if s.port.dirty.cls[j] && !s.classWaits j then
        ((s.flow j).directive).map fun m => (m, (s.releaseSent j).setClassMark j false)
      else none
    match access, steer with
    | some x, _ => some x
    | none, some x => some x
    | none, none => cls

/-- The message the port sends next, and the part with it sent (R175, R176). -/
def State.nextMessage (s : State) : Option (PortMessage × State) :=
  match s.port.replies, s.clients.refusals with
  | r :: rest, _ => some (.reply r, { s with port := { s.port with replies := rest } })
  | [], c :: rest => some (.refuseAssociation c, { s with clients := { s.clients with refusals := rest } })
  | [], [] =>
    match s.nextDirective with
    | some x => some x
    | none =>
      match s.port.notices with
      | n :: rest => some (.notice n s.port.overflow, { s with port := { s.port with notices := rest, overflow := false } })
      | [] => none

/-- Send the next message, if one is owed (R175). -/
def State.sendNext (s : State) : State :=
  match s.nextMessage with
  | some (m, s1) => { s1 with port := { s1.port with sent := some { message := m, wire := writePort m } } }
  | none => s

end Sys2Proof.Machine
end

