-- ==== Sys2Proof/Machine/Completions.lean ====
section
/-! DEFINITION. The commands of the starts (section 11.5) and of the store completions (R130, R131): what the flash
device did is the command's operand. -/

namespace Sys2Proof.Machine

/-! ### Starts -/

/-- POWER_ON_START (R165). -/
def execPowerOnStart (cells : List Host.Cell) (s : State) : Host.Outcome State Fault Refusal :=
  .next (s.beginStart false cells)

/-- HOST_RESTART (R165). -/
def execHostRestart (cells : List Host.Cell) (s : State) : Host.Outcome State Fault Refusal :=
  .next (State.beginStart false cells s)

/-- RECOVERY_START (R165, R170). -/
def execRecoveryStart (cells : List Host.Cell) (s : State) : Host.Outcome State Fault Refusal :=
  .next (s.beginStart true cells)

/-- The sequence completes once its last operation has; the port then takes the messages that waited (R165). -/
def State.sequenceEnds (s : State) : State := if s.seq.stage = .ready then s.startCompletes.resume else s

/-- START_SEQUENCE_COMPLETE (R168). -/
def execStartSequenceComplete (t : Nat) (s : State) : Host.Outcome State Fault Refusal :=
  .next ((s.clockTo t).sequenceEnds)

/-! ### Delivery (R131) -/

/-- A selector write's completion goes to the controller, and to the start sequence when that submitted it. -/
def State.deliverSelector (owner : Owner) (order : Nat) (purpose : SelPurpose) (sel : Selector) (r : StoreResult)
    (s : State) : State :=
  let w : RetriedWrite := { order := order, owner := owner, purpose := purpose, sel := sel }
  let s1 := if r = .ok then s.selectorWritten w else s.selectorFailed w
  if owner = .start then s1.seqSelectorDone order purpose (r == .ok) else s1

/-- A completion of the fill's goes to the Distribution Unit (R136 to R139, R146). -/
def State.deliverFill (kind : OpKind) (r : StoreResult) (s : State) : State :=
  match kind with
  | .eraseBlock k v b => s.eraseDone k v b (r == .ok)
  | .programChunk k v i _ => s.programDone k v i r
  | .verifyBlock k v b _ => s.verifyDone k v b r
  | .checkImage k v _ _ => s.checkDone k v r
  | .recordWrite (.manifest k) v _ => s.manifestWritten k v (r == .failed)
  | _ => s

/-- Each completion goes to the unit that submitted the operation (R131). -/
def State.deliver (op : StoreOp) (r : StoreResult) (s : State) : State :=
  match op.kind with
  | .selectorWrite order purpose sel _ => s.deliverSelector op.owner order purpose sel r
  | kind =>
    match op.owner with
    | .start => s.seqDone kind r
    | .fill => s.deliverFill kind r
    | .serve peer _ => match kind with
      | .readChunk k v i => s.readDone peer k v i r
      | _ => s
    | .schedule => s.bookWritten (r == .ok)
    | .writeConfig tag => s.reply tag (if r = .ok then .ok else .busy)
    | .readConfig tag => s.replyWith tag (match r.body with | some b => .storedConfig b | none => .emptyRecord)
    | .activation => s

/-- The operation in flight completes; it and any that could not go into flight are delivered in order (R131). -/
def State.completeOp (op : StoreOp) (d : Device) (s : State) : State :=
  let r := s.complete op d
  walk r.2 (fun x s => (s.deliver x.1 x.2).settle) r.1

/-- A completion of an operation of a kind; nothing happens when none of that kind is in flight (log entry 5). -/
def State.completion (p : OpKind → Bool) (t : Nat) (d : Device) (s : State) : State :=
  let s1 := s.clockTo t
  match s1.store.inflight with
  | some op => if p op.kind then s1.completeOp op d else s1
  | none => s1

/-! ### The seven completions (R130) -/

/-- A READ-CHUNK. -/
def OpKind.isRead : OpKind → Bool
  | .readChunk _ _ _ => true
  | _ => false

/-- A PROGRAM-CHUNK. -/
def OpKind.isProgram : OpKind → Bool
  | .programChunk _ _ _ _ => true
  | _ => false

/-- An ERASE-BLOCK, of a slot block or a record area. -/
def OpKind.isErase : OpKind → Bool
  | .eraseBlock _ _ _ => true
  | .eraseArea _ => true
  | _ => false

/-- A VERIFY-BLOCK. -/
def OpKind.isVerify : OpKind → Bool
  | .verifyBlock _ _ _ _ => true
  | _ => false

/-- A CHECK-IMAGE. -/
def OpKind.isCheck : OpKind → Bool
  | .checkImage _ _ _ _ => true
  | _ => false

/-- A RECORD-WRITE, of the selector or of another area. -/
def OpKind.isRecordWrite : OpKind → Bool
  | .recordWrite _ _ _ => true
  | .selectorWrite _ _ _ _ => true
  | _ => false

/-- A RECORD-READ. -/
def OpKind.isRecordRead : OpKind → Bool
  | .recordRead _ => true
  | _ => false

/-- READ_CHUNK_COMPLETION (R151). -/
def execReadChunkCompletion (t : Nat) (d : Device) (s : State) : Host.Outcome State Fault Refusal :=
  .next (s.completion OpKind.isRead t d)

/-- PROGRAM_CHUNK_COMPLETION (R137, R153). -/
def execProgramChunkCompletion (t : Nat) (d : Device) (s : State) : Host.Outcome State Fault Refusal :=
  .next (s.completion OpKind.isProgram t d)

/-- ERASE_BLOCK_COMPLETION (R136, R167, R170). -/
def execEraseBlockCompletion (t : Nat) (d : Device) (s : State) : Host.Outcome State Fault Refusal :=
  .next (s.completion OpKind.isErase t d)

/-- VERIFY_BLOCK_COMPLETION (R138, R153, R167). -/
def execVerifyBlockCompletion (t : Nat) (d : Device) (s : State) : Host.Outcome State Fault Refusal :=
  .next (s.completion OpKind.isVerify t d)

/-- CHECK_IMAGE_COMPLETION (R139, R154, R167). -/
def execCheckImageCompletion (t : Nat) (d : Device) (s : State) : Host.Outcome State Fault Refusal :=
  .next (s.completion OpKind.isCheck t d)

/-- RECORD_WRITE_COMPLETION (R134). -/
def execRecordWriteCompletion (t : Nat) (d : Device) (s : State) : Host.Outcome State Fault Refusal :=
  .next (s.completion OpKind.isRecordWrite t d)

/-- RECORD_READ_COMPLETION (R129, R134). -/
def execRecordReadCompletion (t : Nat) (d : Device) (s : State) : Host.Outcome State Fault Refusal :=
  .next (s.completion OpKind.isRecordRead t d)

end Sys2Proof.Machine
end

