-- ==== Sys2Proof/Machine/Expiries.lean ====
section
/-! DEFINITION. The expiries of the part's own timers. Each carries what names its timer and happens at the time its
timer is due; one whose timer does not run is no event (log entry 1). -/

namespace Sys2Proof.Machine

/-- An expiry of a timer that runs until `due`: the clock reaches that time and the expiry is taken. A timer runs only
once a start has completed. -/
def State.expire (due : Option Nat) (take : Nat → State → State) (s : State) : State :=
  match due with
  | some d => if s.running then take d (s.clockTo d) else s
  | none => s

/-! ### Peer Table Unit -/

/-- ADVERT_TIMER_EXPIRY (R9). -/
def execAdvertTimerExpiry (s : State) : Host.Outcome State Fault Refusal :=
  .next (s.expire s.peers.advertDue State.advertExpiry)

/-- When a peer's freshness timer is due (R15). -/
def State.freshnessDue (s : State) (id : Nat) : Option Nat :=
  match s.peer id with
  | some p => if p.fresh then some (p.heardAt + 4 * s.cfg.period) else none
  | none => none

/-- A peer's entry becomes stale (R15). -/
def State.goStale (id : Nat) (s : State) : State :=
  (((s.mapPeer id fun p => { p with fresh := false }).recomputePath).cutCredits).settleWith true

/-- FRESHNESS_TIMER_EXPIRY (R15). -/
def execFreshnessTimerExpiry (id : Nat) (s : State) : Host.Outcome State Fault Refusal :=
  .next (s.expire (s.freshnessDue id) fun _ => State.goStale id)

/-- When a peer's removal timer is due (R15). -/
def State.removalDue (s : State) (id : Nat) : Option Nat := (s.peer id).map fun p => p.heardAt + 8 * s.cfg.period

/-- A peer's entry is removed (R15). -/
def State.losePeer (id : Nat) (s : State) : State :=
  ((((s.dropPeer id).recomputePath).raise (.peerLost id)).cutCredits).settleWith true

/-- REMOVAL_TIMER_EXPIRY (R15). -/
def execRemovalTimerExpiry (id : Nat) (s : State) : Host.Outcome State Fault Refusal :=
  .next (s.expire (s.removalDue id) fun _ => State.losePeer id)

/-- When a peer's suspect-until time is reached (R12). -/
def State.suspectDue (s : State) (id : Nat) : Option Nat := (s.peer id).bind PeerEntry.suspectUntil

/-- SUSPECT_UNTIL_REACHED (R12). -/
def execSuspectUntilReached (id : Nat) (s : State) : Host.Outcome State Fault Refusal :=
  .next (s.expire (s.suspectDue id) fun _ => State.mapPeer id fun p => { p with suspectUntil := none })

/-! ### Client Unit -/

/-- When a Heard List entry expires (R18). -/
def State.heardDue (s : State) (c : ClientId) : Option Nat :=
  (s.clients.heard.find? fun e => e.client == c).map fun e => e.last + Config.sightingLife

/-- HEARD_LIST_EXPIRY (R18). -/
def execHeardListExpiry (c : ClientId) (s : State) : Host.Outcome State Fault Refusal :=
  .next (s.expire (s.heardDue c) fun _ => State.forgetHeard c)

/-- Change a client's record, in whatever slot. -/
def State.mapClient (c : ClientId) (f : ClientRecord → ClientRecord) (s : State) : State :=
  match s.findClient c with
  | some i => match s.record i with
    | some r => s.putRecord i (f r)
    | none => s
  | none => s

/-- When a decline hold's until-time is reached (R36). -/
def State.holdDue (s : State) (c : ClientId) (peer : Nat) : Option Nat :=
  (s.recordOf c).bind fun r => (r.holds.find? fun h => h.peer == peer).map Hold.untilTime

/-- DECLINE_HOLD_EXPIRY (R36). -/
def execDeclineHoldExpiry (c : ClientId) (peer : Nat) (s : State) : Host.Outcome State Fault Refusal :=
  .next (s.expire (s.holdDue c peer) fun _ => State.mapClient c fun r => { r with holds := r.holds.filter fun h => h.peer != peer })

/-- When a client's steer-resistant-until time is reached (R36). -/
def State.resistanceDue (s : State) (c : ClientId) : Option Nat := (s.recordOf c).bind ClientRecord.resistantUntil

/-- STEER_RESISTANT_EXPIRY (R36). -/
def execSteerResistantExpiry (c : ClientId) (s : State) : Host.Outcome State Fault Refusal :=
  .next (s.expire (s.resistanceDue c) fun _ => State.mapClient c fun r => { r with resistantUntil := none })

/-! ### Roaming Unit: the handoff timer (R51) -/

/-- When the handoff timer of a client's record in a state is due (R51). -/
def State.handoffDue (s : State) (c : ClientId) (st : RecState) : Option Nat :=
  (s.recordOf c).bind fun r => if r.state = st then r.timer else none

/-- The handoff timer's expiry at a client's record. -/
def State.handoffEnds (c : ClientId) (take : Fin 64 → ClientRecord → State → State) (s : State) : State :=
  match s.findClient c with
  | some i => match s.record i with
    | some r => (take i r s).settle
    | none => s
  | none => s

/-- OFFERING_EXPIRY (R59). -/
def execOfferingExpiry (c : ClientId) (s : State) : Host.Outcome State Fault Refusal :=
  .next (s.expire (s.handoffDue c .offering) fun _ => State.handoffEnds c State.offeringEnds)

/-- HANDING_EXPIRY (R60). -/
def execHandingExpiry (c : ClientId) (s : State) : Host.Outcome State Fault Refusal :=
  .next (s.expire (s.handoffDue c .handing) fun _ => State.handoffEnds c State.handingEnds)

/-- ARRIVING_EXPIRY (R69). -/
def execArrivingExpiry (c : ClientId) (s : State) : Host.Outcome State Fault Refusal :=
  .next (s.expire (s.handoffDue c .arriving) fun _ => State.handoffEnds c fun i _ => State.deleteSlot i)

/-- PROVISIONAL_EXPIRY (R68). -/
def execProvisionalExpiry (c : ClientId) (s : State) : Host.Outcome State Fault Refusal :=
  .next (s.expire (s.handoffDue c .provisional) fun _ => State.handoffEnds c State.provisionalEnds)

/-! ### Time Base and Schedule Unit -/

/-- The tick: mesh time with its minute and day events, and the next tick; then an owed book write is submitted, after
whatever those events submitted (R71, R86; the order is a DESIGN CHOICE, log entry 39). -/
def State.tickAt (due : Nat) (s : State) : State :=
  (State.tickTime { s with time := { s.time with tickDue := some (due + Config.tickTime) } }).submitBook

/-- TICK (R71). -/
def execTick (s : State) : Host.Outcome State Fault Refusal := .next (s.expire s.time.tickDue State.tickAt)

/-- AGEING_TIMER_EXPIRY (R74). -/
def execAgeingTimerExpiry (s : State) : Host.Outcome State Fault Refusal :=
  .next (s.expire s.time.ageingDue State.ageRank)

/-- STAGING_TIMER_EXPIRY (R83). -/
def execStagingTimerExpiry (s : State) : Host.Outcome State Fault Refusal :=
  .next (s.expire (s.sched.staging.map Staging.due) fun _ s => { s with sched := { s.sched with staging := none } })

/-! ### Priority Unit (R108, R110) -/

/-- The time a condition on a slot's flow gives. -/
def State.flowDue (s : State) (j : Fin 128) (f : FlowRecord → Option Nat) : Option Nat :=
  match s.flow j with
  | .used x => f x
  | .free => none
  | .release _ _ => none

/-- Change a slot's flow. -/
def State.mapFlow (j : Fin 128) (f : FlowRecord → FlowRecord) (s : State) : State :=
  match s.flow j with
  | .used x => s.putFlow j (.used (f x))
  | .free => s
  | .release _ _ => s

/-- When a flow's idle timer is due (R110). -/
def FlowRecord.idleDue (f : FlowRecord) : Option Nat :=
  if f.state = .admitted then some (f.lastActivity + Config.flowQuiet) else none

/-- When a flow's removal timer is due (R110). -/
def FlowRecord.removalDue (f : FlowRecord) : Option Nat :=
  if f.state = .reserved then none else some (f.lastActivity + Config.flowRemoval)

/-- IDLE_TIMER_EXPIRY (R110). -/
def execIdleTimerExpiry (j : Fin 128) (s : State) : Host.Outcome State Fault Refusal :=
  .next (s.expire (s.flowDue j FlowRecord.idleDue) fun _ s => (s.mapFlow j fun f => { f with state := .idle }).settle)

/-- FLOW_REMOVAL_TIMER_EXPIRY (R110, R111). -/
def execFlowRemovalTimerExpiry (j : Fin 128) (s : State) : Host.Outcome State Fault Refusal :=
  .next (s.expire (s.flowDue j FlowRecord.removalDue) fun _ s => (s.removeFlow j).settle)

/-- HOLD_UNTIL_REACHED (R108): the end of a hold starts no round of its own. -/
def execHoldUntilReached (j : Fin 128) (s : State) : Host.Outcome State Fault Refusal :=
  .next (s.expire (s.flowDue j FlowRecord.holdUntil) fun _ => State.mapFlow j fun f => { f with holdUntil := none })

/-! ### Distribution Unit -/

/-- CHUNK_REQUEST_EXPIRY (R149). -/
def execChunkRequestExpiry (s : State) : Host.Outcome State Fault Refusal :=
  .next (s.expire (s.dist.outstanding.map Outstanding.due) fun _ => State.closeRequest)

/-! ### Activation Controller -/

/-- The evacuation ends whatever records remain (R162). -/
def State.limitReached (s : State) : State := if s.act.state = .evacuating then s.commit.settle else s

/-- EVACUATION_LIMIT_EXPIRY (R162). -/
def execEvacuationLimitExpiry (s : State) : Host.Outcome State Fault Refusal :=
  .next (s.expire s.act.evacuationDue fun _ => State.limitReached)

/-- The confirm timer expires: held while a confirm write is in the store, taken otherwise (R169). -/
def State.confirmEnds (s : State) : State :=
  let s1 : State := { s with act := { s.act with confirmDue := none } }
  if s.storeOps.any StoreOp.isConfirm then { s1 with act := { s1.act with confirmHeld := true } }
  else s1.confirmExpired

/-- CONFIRM_TIMER_EXPIRY (R169). -/
def execConfirmTimerExpiry (s : State) : Host.Outcome State Fault Refusal :=
  .next (s.expire s.act.confirmDue fun _ s => s.confirmEnds.settle)

/-- The write retry timer expires: the write is submitted again, or the timer started again while another selector
write is in the store (R158). -/
def State.retryEnds (s : State) : State :=
  match s.act.retry with
  | some w =>
    if s.storeOps.any StoreOp.isSelectorWrite then
      { s with act := { s.act with retryDue := some (s.now + Config.writeRetryTime) } }
    else State.submitRetried w { s with act := { s.act with retryDue := none } }
  | none => s

/-- The write retry timer runs during a start sequence too (R158, R166). -/
def State.retryExpiry (s : State) : State :=
  match s.act.retryDue with
  | some d => (s.clockTo d).retryEnds
  | none => s

/-- WRITE_RETRY_TIMER_EXPIRY (R158). -/
def execWriteRetryTimerExpiry (s : State) : Host.Outcome State Fault Refusal := .next s.retryExpiry

end Sys2Proof.Machine
end

