-- ==== Sys2Proof/Machine/Frames.lean ====
section
/-! DEFINITION. The commands of the Peer Link: a frame delivered by the radio, a frame taken by its unit (one command for
each of the thirteen kinds), and a frame taken by the radio (chapter 1). -/

namespace Sys2Proof.Machine

/-! ### FRAME_RECEIVED (R2 to R4, R8) -/

/-- The frame the checks of R2 let through. -/
def State.acceptable (s : State) (w : WireFrame) : Option Frame :=
  match readFrame w with
  | some f =>
    if (f.dest = 0 ∨ f.dest = s.cfg.nodeId) ∧ (f.sender ≠ s.cfg.nodeId ∨ f.isAdvert = true) then some f else none
  | none => none

/-- Queue an acceptable frame, or drop it (R3, R4). -/
def State.queueFrame (f : Frame) (s : State) : State :=
  if s.pli.rx.length < Config.rxFrames then { s with pli := { s.pli with rx := s.pli.rx ++ [f], rxRun := false } }
  else if s.pli.rxRun then s
  else State.raise (.rxOverflow f.sender f.body.kind) { s with pli := { s.pli with rxRun := true } }

/-- The radio delivers a frame (R2, R8, R165). -/
def State.receive (w : WireFrame) (s : State) : State :=
  if s.running && s.configured then
    match s.acceptable w with
    | some f => s.queueFrame f
    | none => s
  else s

/-- FRAME_RECEIVED. -/
def execFrameReceived (t : Nat) (w : WireFrame) (s : State) : Host.Outcome State Fault Refusal :=
  .next ((s.clockTo t).receive w)

/-! ### Frames taken by their units (R3) -/

/-- The unit of a kind takes the frame at the head of the receive queue; nothing happens when the head is of another
kind or there is none (log entry 5). -/
def State.onFrame (k : FrameKind) (take : Frame → State → State) (t : Nat) (s : State) : State :=
  let s1 := s.clockTo t
  match s1.pli.rx with
  | f :: rest =>
    if s1.running && f.body.kind == k then (take f { s1 with pli := { s1.pli with rx := rest } }).settle else s1
  | [] => s1

/-- The Priority Unit's part of an ADVERT: the overshoot check, the one round, the credit cut (R108, R116, R124). -/
def State.hearAirtime (s : State) : State :=
  let s1 := s.overshoot
  (State.round { s1 with ev := { s1.ev with released := false } }).cutCredits

/-- The parts of an ADVERT are handed on (R14), in an order that the guide leaves open (DESIGN CHOICE, log entry 9). -/
def State.handOn (peer : Nat) (a : Advert) (s : State) : State :=
  let s1 := s.hearTime peer a.meshTime a.timeRank
  let s2 := s1.hearBook peer a.bookVersion a.bookOrigin
  let s3 := s2.hearImage peer a.target
  s3.hearAirtime.hearFlags peer a.evacuating

/-- Take an ADVERT (R13, R14). -/
def State.takeAdvert (f : Frame) (s : State) : State :=
  match f.body with
  | .advert a =>
    if f.sender = s.cfg.nodeId then s.raise (.idConflict s.cfg.nodeId)
    else if a.inRange then
      match s.enterPeer f.sender a with
      | some s1 => (s1.recomputePath.fileSightings f.sender a).handOn f.sender a
      | none => s
    else s
  | _ => s

/-- ADVERT. -/
def execAdvert (t : Nat) (s : State) : Host.Outcome State Fault Refusal := .next (s.onFrame .advert State.takeAdvert t)

/-- OFFER at the Roaming Unit. -/
def State.onOffer (f : Frame) (s : State) : State :=
  match f.body with
  | .offer h => s.takeOffer f.sender h
  | _ => s

/-- OFFER. -/
def execOffer (t : Nat) (s : State) : Host.Outcome State Fault Refusal := .next (s.onFrame .offer State.onOffer t)

/-- ACCEPT at the Roaming Unit. -/
def State.onAccept (f : Frame) (s : State) : State :=
  match f.body with
  | .accept c => s.takeAccept f.sender c
  | _ => s

/-- ACCEPT. -/
def execAccept (t : Nat) (s : State) : Host.Outcome State Fault Refusal := .next (s.onFrame .accept State.onAccept t)

/-- DECLINE at the Roaming Unit. -/
def State.onDecline (f : Frame) (s : State) : State :=
  match f.body with
  | .decline c reason => s.takeDecline f.sender c reason
  | _ => s

/-- DECLINE. -/
def execDecline (t : Nat) (s : State) : Host.Outcome State Fault Refusal := .next (s.onFrame .decline State.onDecline t)

/-- CLAIM at the Roaming Unit. -/
def State.onClaim (f : Frame) (s : State) : State :=
  match f.body with
  | .claim c => s.takeClaim f.sender c
  | _ => s

/-- CLAIM. -/
def execClaim (t : Nat) (s : State) : Host.Outcome State Fault Refusal := .next (s.onFrame .claim State.onClaim t)

/-- CONTEXT at the Roaming Unit. -/
def State.onContext (f : Frame) (s : State) : State :=
  match f.body with
  | .context h => s.takeContext h
  | _ => s

/-- CONTEXT. -/
def execContext (t : Nat) (s : State) : Host.Outcome State Fault Refusal := .next (s.onFrame .context State.onContext t)

/-- BOOK-REQUEST at the Schedule Unit. -/
def State.onBookRequest (f : Frame) (s : State) : State := s.takeBookRequest f.sender

/-- BOOK_REQUEST. -/
def execBookRequest (t : Nat) (s : State) : Host.Outcome State Fault Refusal :=
  .next (s.onFrame .bookRequest State.onBookRequest t)

/-- BOOK-SEGMENT at the Schedule Unit. -/
def State.onBookSegment (f : Frame) (s : State) : State :=
  match f.body with
  | .bookSegment v o l i p => s.takeSegment v o l i p
  | _ => s

/-- BOOK_SEGMENT. -/
def execBookSegment (t : Nat) (s : State) : Host.Outcome State Fault Refusal :=
  .next (s.onFrame .bookSegment State.onBookSegment t)

/-- MANIFEST-REQUEST at the Distribution Unit. -/
def State.onManifestRequest (f : Frame) (s : State) : State :=
  match f.body with
  | .manifestRequest v => s.takeManifestRequest f.sender v
  | _ => s

/-- MANIFEST_REQUEST. -/
def execManifestRequest (t : Nat) (s : State) : Host.Outcome State Fault Refusal :=
  .next (s.onFrame .manifestRequest State.onManifestRequest t)

/-- MANIFEST at the Distribution Unit. -/
def State.onManifest (f : Frame) (s : State) : State :=
  match f.body with
  | .manifest m => s.takeManifest m
  | _ => s

/-- MANIFEST. -/
def execManifest (t : Nat) (s : State) : Host.Outcome State Fault Refusal := .next (s.onFrame .manifest State.onManifest t)

/-- CHUNK-REQUEST at the Distribution Unit. -/
def State.onChunkRequest (f : Frame) (s : State) : State :=
  match f.body with
  | .chunkRequest v b start count mode => s.takeChunkRequest f.sender v b start count mode
  | _ => s

/-- CHUNK_REQUEST. -/
def execChunkRequest (t : Nat) (s : State) : Host.Outcome State Fault Refusal :=
  .next (s.onFrame .chunkRequest State.onChunkRequest t)

/-- CHUNK at the Distribution Unit. -/
def State.onChunk (f : Frame) (s : State) : State :=
  match f.body with
  | .chunk v i data => s.takeChunk f.sender v i data
  | _ => s

/-- CHUNK. -/
def execChunk (t : Nat) (s : State) : Host.Outcome State Fault Refusal := .next (s.onFrame .chunk State.onChunk t)

/-- CHUNK-REFUSE at the Distribution Unit. -/
def State.onChunkRefuse (f : Frame) (s : State) : State :=
  match f.body with
  | .chunkRefuse reason v b => s.takeRefuse f.sender reason v b
  | _ => s

/-- CHUNK_REFUSE. -/
def execChunkRefuse (t : Nat) (s : State) : Host.Outcome State Fault Refusal :=
  .next (s.onFrame .chunkRefuse State.onChunkRefuse t)

/-! ### FRAME_TAKEN_BY_RADIO (R5, R6) -/

/-- The radio takes the frame at the head of the transmit order; the serve engine may go on (R5, R6). -/
def State.frameTaken (s : State) : State :=
  match s.pli.tx with
  | f :: rest =>
    if s.running then
      State.serveEngine { s with pli := { s.pli with tx := rest }, radioOut := some (writeFrame f) }
    else s
  | [] => s

/-- FRAME_TAKEN_BY_RADIO. -/
def execFrameTakenByRadio (t : Nat) (s : State) : Host.Outcome State Fault Refusal := .next ((s.clockTo t).frameTaken)

end Sys2Proof.Machine
end

