-- ==== Sys2Proof/Machine/HostCommands.lean ====
section
/-! DEFINITION. The commands of the Local Port: one for each kind of host message (R171, R172), the host's acceptance of
a message (R175), and the Roaming Unit's evaluation of a record handed to it (R41). -/

namespace Sys2Proof.Machine

/-- ASSOCIATE (R22 to R28). -/
def execAssociate (t : Nat) (m : HostMsg) (s : State) : Host.Outcome State Fault Refusal :=
  .next (s.hostMessage .associate t m)

/-- DISASSOCIATE (R30). -/
def execDisassociate (t : Nat) (m : HostMsg) (s : State) : Host.Outcome State Fault Refusal :=
  .next (s.hostMessage .disassociate t m)

/-- SIGNAL (R32). -/
def execSignal (t : Nat) (m : HostMsg) (s : State) : Host.Outcome State Fault Refusal := .next (s.hostMessage .signal t m)

/-- The Roaming Unit takes the record handed to it first (R41). -/
def State.evaluateNext (s : State) : State :=
  match s.clients.handed with
  | c :: rest =>
    if s.running then (State.evaluateClient c { s with clients := { s.clients with handed := rest } }).settle else s
  | [] => s

/-- EVALUATION (R41 to R48). -/
def execEvaluation (t : Nat) (s : State) : Host.Outcome State Fault Refusal := .next ((s.clockTo t).evaluateNext)

/-- SIGHTING (R18). -/
def execSighting (t : Nat) (m : HostMsg) (s : State) : Host.Outcome State Fault Refusal :=
  .next (s.hostMessage .sighting t m)

/-- LINK (R16). -/
def execLink (t : Nat) (m : HostMsg) (s : State) : Host.Outcome State Fault Refusal := .next (s.hostMessage .link t m)

/-- CLIENT_ACTIVITY (R33). -/
def execClientActivity (t : Nat) (m : HostMsg) (s : State) : Host.Outcome State Fault Refusal :=
  .next (s.hostMessage .clientActivity t m)

/-- FLOW_SAMPLE (R103). -/
def execFlowSample (t : Nat) (m : HostMsg) (s : State) : Host.Outcome State Fault Refusal :=
  .next (s.hostMessage .flowSample t m)

/-- FLOW_ACTIVE (R33, R109). -/
def execFlowActive (t : Nat) (m : HostMsg) (s : State) : Host.Outcome State Fault Refusal :=
  .next (s.hostMessage .flowActive t m)

/-- FLOW_END (R111). -/
def execFlowEnd (t : Nat) (m : HostMsg) (s : State) : Host.Outcome State Fault Refusal := .next (s.hostMessage .flowEnd t m)

/-- LOAD_BOOK (R87). -/
def execLoadBook (t : Nat) (m : HostMsg) (s : State) : Host.Outcome State Fault Refusal :=
  .next (s.hostMessage .loadBook t m)

/-- SET_TIME (R72). -/
def execSetTime (t : Nat) (m : HostMsg) (s : State) : Host.Outcome State Fault Refusal := .next (s.hostMessage .setTime t m)

/-- SEED_MANIFEST (R155). -/
def execSeedManifest (t : Nat) (m : HostMsg) (s : State) : Host.Outcome State Fault Refusal :=
  .next (s.hostMessage .seedManifest t m)

/-- SEED_CHUNK (R156). -/
def execSeedChunk (t : Nat) (m : HostMsg) (s : State) : Host.Outcome State Fault Refusal :=
  .next (s.hostMessage .seedChunk t m)

/-- ACTIVATE_NOW (R159). -/
def execActivateNow (t : Nat) (m : HostMsg) (s : State) : Host.Outcome State Fault Refusal :=
  .next (s.hostMessage .activateNow t m)

/-- CONFIRM_IMAGE (R169). -/
def execConfirmImage (t : Nat) (m : HostMsg) (s : State) : Host.Outcome State Fault Refusal :=
  .next (s.hostMessage .confirmImage t m)

/-- READ_RECORD (R173). -/
def execReadRecord (t : Nat) (m : HostMsg) (s : State) : Host.Outcome State Fault Refusal :=
  .next (s.hostMessage .readRecord t m)

/-- WRITE_CONFIG (R140, R174). -/
def execWriteConfig (t : Nat) (m : HostMsg) (s : State) : Host.Outcome State Fault Refusal :=
  .next (s.hostMessage .writeConfig t m)

/-- The host's side accepts a message: one is sent, and the port resumes when a reply made room (R171, R175). -/
def State.accept (s : State) : State := if s.running then s.sendNext.resume else s

/-- HOST_ACCEPTANCE. -/
def execHostAcceptance (t : Nat) (s : State) : Host.Outcome State Fault Refusal := .next ((s.clockTo t).accept)

end Sys2Proof.Machine
end

