-- ==== Sys2Proof/Machine/Dispatch.lean ====
section
/-! DEFINITION. One arm for each command of the opcode table. -/

namespace Sys2Proof.Machine

/-- What a command does to everything but the queue of commands. -/
def exec (i : Instr) (s : State) : Host.Outcome State Fault Refusal :=
  match i with
  | .powerOnStart cells => Sys2Proof.Machine.execPowerOnStart cells s
  | .hostRestart cells => Sys2Proof.Machine.execHostRestart cells s
  | .recoveryStart cells => Sys2Proof.Machine.execRecoveryStart cells s
  | .startSequenceComplete t => Sys2Proof.Machine.execStartSequenceComplete t s
  | .frameReceived t f => Sys2Proof.Machine.execFrameReceived t f s
  | .advert t => Sys2Proof.Machine.execAdvert t s
  | .offer t => Sys2Proof.Machine.execOffer t s
  | .accept t => Sys2Proof.Machine.execAccept t s
  | .decline t => Sys2Proof.Machine.execDecline t s
  | .claim t => Sys2Proof.Machine.execClaim t s
  | .context t => Sys2Proof.Machine.execContext t s
  | .bookRequest t => Sys2Proof.Machine.execBookRequest t s
  | .bookSegment t => Sys2Proof.Machine.execBookSegment t s
  | .manifestRequest t => Sys2Proof.Machine.execManifestRequest t s
  | .manifest t => Sys2Proof.Machine.execManifest t s
  | .chunkRequest t => Sys2Proof.Machine.execChunkRequest t s
  | .chunk t => Sys2Proof.Machine.execChunk t s
  | .chunkRefuse t => Sys2Proof.Machine.execChunkRefuse t s
  | .frameTakenByRadio t => Sys2Proof.Machine.execFrameTakenByRadio t s
  | .associate t m => Sys2Proof.Machine.execAssociate t m s
  | .disassociate t m => Sys2Proof.Machine.execDisassociate t m s
  | .signal t m => Sys2Proof.Machine.execSignal t m s
  | .evaluation t => Sys2Proof.Machine.execEvaluation t s
  | .sighting t m => Sys2Proof.Machine.execSighting t m s
  | .link t m => Sys2Proof.Machine.execLink t m s
  | .clientActivity t m => Sys2Proof.Machine.execClientActivity t m s
  | .flowSample t m => Sys2Proof.Machine.execFlowSample t m s
  | .flowActive t m => Sys2Proof.Machine.execFlowActive t m s
  | .flowEnd t m => Sys2Proof.Machine.execFlowEnd t m s
  | .loadBook t m => Sys2Proof.Machine.execLoadBook t m s
  | .setTime t m => Sys2Proof.Machine.execSetTime t m s
  | .seedManifest t m => Sys2Proof.Machine.execSeedManifest t m s
  | .seedChunk t m => Sys2Proof.Machine.execSeedChunk t m s
  | .activateNow t m => Sys2Proof.Machine.execActivateNow t m s
  | .confirmImage t m => Sys2Proof.Machine.execConfirmImage t m s
  | .readRecord t m => Sys2Proof.Machine.execReadRecord t m s
  | .writeConfig t m => Sys2Proof.Machine.execWriteConfig t m s
  | .hostAcceptance t => Sys2Proof.Machine.execHostAcceptance t s
  | .advertTimerExpiry => Sys2Proof.Machine.execAdvertTimerExpiry s
  | .freshnessTimerExpiry peer => Sys2Proof.Machine.execFreshnessTimerExpiry peer s
  | .removalTimerExpiry peer => Sys2Proof.Machine.execRemovalTimerExpiry peer s
  | .heardListExpiry client => Sys2Proof.Machine.execHeardListExpiry client s
  | .suspectUntilReached peer => Sys2Proof.Machine.execSuspectUntilReached peer s
  | .declineHoldExpiry client peer => Sys2Proof.Machine.execDeclineHoldExpiry client peer s
  | .steerResistantExpiry client => Sys2Proof.Machine.execSteerResistantExpiry client s
  | .offeringExpiry client => Sys2Proof.Machine.execOfferingExpiry client s
  | .handingExpiry client => Sys2Proof.Machine.execHandingExpiry client s
  | .arrivingExpiry client => Sys2Proof.Machine.execArrivingExpiry client s
  | .provisionalExpiry client => Sys2Proof.Machine.execProvisionalExpiry client s
  | .tick => Sys2Proof.Machine.execTick s
  | .ageingTimerExpiry => Sys2Proof.Machine.execAgeingTimerExpiry s
  | .stagingTimerExpiry => Sys2Proof.Machine.execStagingTimerExpiry s
  | .idleTimerExpiry slot => Sys2Proof.Machine.execIdleTimerExpiry slot s
  | .flowRemovalTimerExpiry slot => Sys2Proof.Machine.execFlowRemovalTimerExpiry slot s
  | .holdUntilReached slot => Sys2Proof.Machine.execHoldUntilReached slot s
  | .chunkRequestExpiry => Sys2Proof.Machine.execChunkRequestExpiry s
  | .evacuationLimitExpiry => Sys2Proof.Machine.execEvacuationLimitExpiry s
  | .confirmTimerExpiry => Sys2Proof.Machine.execConfirmTimerExpiry s
  | .writeRetryTimerExpiry => Sys2Proof.Machine.execWriteRetryTimerExpiry s
  | .readChunkCompletion t d => Sys2Proof.Machine.execReadChunkCompletion t d s
  | .programChunkCompletion t d => Sys2Proof.Machine.execProgramChunkCompletion t d s
  | .eraseBlockCompletion t d => Sys2Proof.Machine.execEraseBlockCompletion t d s
  | .verifyBlockCompletion t d => Sys2Proof.Machine.execVerifyBlockCompletion t d s
  | .checkImageCompletion t d => Sys2Proof.Machine.execCheckImageCompletion t d s
  | .recordWriteCompletion t d => Sys2Proof.Machine.execRecordWriteCompletion t d s
  | .recordReadCompletion t d => Sys2Proof.Machine.execRecordReadCompletion t d s

end Sys2Proof.Machine
end

