-- ==== Sys2Proof/Safety.lean ====
section
/-! DEFINITION. What a safe run is, in the terms the claims use: the bounds and the relations between parts of the
state that the guide promises for every part at every time, and a run of steps all of whose states keep them. -/

namespace Sys2Proof.Machine

/-! ### The Image Store -/

/-- The flash is in its canonical form. -/
def State.FlashCanonical (s : State) : Prop := Memory.wf s.store.flash = true

/-- An address of a slot's 4 MiB of data (R128). -/
def SlotId.holds (k : SlotId) (a : Nat) : Prop := k.base ≤ a ∧ a < k.base + 0x400000

/-- An operation aimed at a chunk or block its slot has (R128). -/
def StoreOp.Fits (op : StoreOp) : Prop :=
  match op.kind with
  | .programChunk _ _ i _ => i < Config.maxChunks
  | .eraseBlock _ _ b => b < 256
  | .recordWrite _ _ _ | .readChunk _ _ _ | .eraseArea _ | .verifyBlock _ _ _ _ | .checkImage _ _ _ _
  | .selectorWrite _ _ _ _ | .recordRead _ => True

/-- Every operation in the Store Controller stays within its place. -/
def State.OpsFit (s : State) : Prop := ∀ op ∈ s.storeOps, op.Fits

/-- Whether the start sequence stands at an operation of its own that is no selector write (R165). -/
def Stage.waitsForOp : Stage → Bool
  | .held | .recoveryRevert _ | .writeSelector _ | .ready | .running => false
  | _ => true

/-- While no start has completed, the Store Controller holds beside selector writes at most the one operation that the
sequence waits for (R165). -/
def State.OneAtATime (s : State) : Prop :=
  s.running = false → (s.storeOps.filter fun op => !op.isSelectorWrite).length ≤ if s.seq.stage.waitsForOp then 1 else 0

/-- The operation in flight is not aimed at anything protected (R133). -/
def State.FlightUnprotected (s : State) : Prop :=
  ∀ op, s.store.inflight = some op → op.isProtected s.act.sel = false

/-! ### Queues and tables within their capacities -/

/-- No record has more than 4 decline holds (R36). -/
def holdsWithin (table : Vector (Option ClientRecord) 64) : Prop :=
  ∀ i : Fin 64, ∀ r, table[i] = some r → r.holds.length ≤ Config.holdEntries

/-- Every queue and table is within its capacity: R3, R5, R6, R12, R18, R19, R25, R36, R131, R150, R176. -/
structure State.WithinCapacity (s : State) : Prop where
  rx : s.pli.rx.length ≤ Config.rxFrames
  tx : s.txCount ≤ Config.txFrames
  txChunks : s.txChunkCount ≤ Config.txChunks
  adverts : (s.pli.tx.filter Frame.isAdvert).length ≤ 1
  peers : s.peers.table.length ≤ Config.peerEntries
  sightings : s.peers.sightings.length ≤ Config.sightingEntries
  heard : s.clients.heard.length ≤ Config.heardEntries
  refusals : s.clients.refusals.length ≤ Config.refusalEntries
  holds : holdsWithin s.clients.table
  waiting : s.store.waiting.length ≤ Config.storeWaiting
  serve : s.dist.serve.length ≤ Config.serveEntries
  notices : s.port.notices.length ≤ Config.noticeEntries

/-! ### Tables without duplicates -/

/-- At most one record for a client (R21). -/
def State.OneRecordEach (s : State) : Prop :=
  ∀ (i j : Fin 64) (r q : ClientRecord), s.record i = some r → s.record j = some q → r.client = q.client → i = j

/-- The Peer Table in ascending order of node id with no id twice (R12), the Heard List one entry for a client (R18),
the Sighting Table one entry for a client and peer (R19), the serve queue one request for a peer (R150). -/
structure State.ListsDistinct (s : State) : Prop where
  peers : s.peers.table.Pairwise fun x y => x.id < y.id
  heard : s.clients.heard.Pairwise fun x y => x.client ≠ y.client
  sightings : s.peers.sightings.Pairwise fun x y => x.samePair y = false
  serve : s.dist.serve.Pairwise fun x y => x.peer ≠ y.peer

/-- No table with a key has two entries of one key: the lists above; the refusal list no client twice (R25), the Client
Table one record for a client (R21), a record one decline hold for a peer (R36), and the Flow Table one record for a client
and digest (R102). -/
structure State.EntriesDistinct (s : State) : Prop extends s.ListsDistinct where
  refusals : s.clients.refusals.Nodup
  records : s.OneRecordEach
  holds : ∀ (i : Fin 64) (r : ClientRecord), s.record i = some r → r.holds.Pairwise fun x y => x.peer ≠ y.peer
  flows : ∀ (j k : Fin 128) (f g : FlowRecord), s.flow j = .used f → s.flow k = .used g → f.client = g.client →
    f.digest = g.digest → j = k

/-! ### Figures within their ranges -/

/-- A sample is −100..−20 dBm (R39). -/
def levelOk (x : Int) : Prop := -100 ≤ x ∧ x ≤ -20

/-- Samples and smoothed value in range: −100..−20 dBm and −400..−80 q (R39, R40). -/
def Samples.Ok (p : Samples) : Prop := levelOk p.s1 ∧ levelOk p.s2 ∧ levelOk p.s3

/-- A smoothed value is −400..−80 q (R40). -/
def smoothedOk (q : Int) : Prop := -400 ≤ q ∧ q ≤ -80

/-- The samples and the smoothed value of a record, where it has them. -/
def ClientRecord.LevelsOk (r : ClientRecord) : Prop :=
  (∀ p, r.samples = some p → p.Ok) ∧ (∀ q, r.smoothed = some q → smoothedOk q)

/-- Figures within the ranges the guide gives: R12, R17, R18, R39, R40, R71, R120, R123. -/
structure State.WithinRange (s : State) : Prop where
  linkCosts : ∀ p ∈ s.peers.table, p.linkCost ≤ 31
  ownPath : s.peers.ownPath ≤ Config.noPath
  rank : s.time.rank ≤ Config.rankUnknown
  records : ∀ i : Fin 64, ∀ r, s.clients.table[i] = some r → r.LevelsOk
  heard : ∀ e ∈ s.clients.heard, e.samples.Ok ∧ smoothedOk e.smoothed
  burst : Config.paceFloor ≤ s.prio.pace.burst ∧ s.prio.pace.burst ≤ Config.paceCeiling
  pullCredits : s.prio.pullCredits ≤ Config.creditsOpen
  serveCredits : s.prio.serveCredits ≤ Config.creditsOpen

/-- The middle value of three put in order (R40): one of them, with at least two no higher and at least two no lower. -/
def IsMiddle (a b c m : Int) : Prop :=
  m ∈ [a, b, c] ∧ 2 ≤ ([a, b, c].filter fun x => x ≤ m).length ∧ 2 ≤ ([a, b, c].filter fun x => m ≤ x).length

/-! ### Shared airtime -/

/-- A slot that holds a flow record. -/
def FlowSlot.isUsed : FlowSlot → Bool
  | .used _ => true
  | .free | .release _ _ => false

/-- Own reserved airtime is within the ceiling (R106), with what keeps it so: every flow belongs to the client record
it names (R102), a client has one record (R21), and a part that is starting holds no flow. -/
structure State.AirtimeKept (s : State) : Prop where
  ceiling : s.ownReserved ≤ s.cfg.ceiling
  owned : ∀ (j : Fin 128) (f : FlowRecord), s.flow j = .used f → ∃ r, s.record f.slot = some r ∧ r.client = f.client
  oneRecord : s.OneRecordEach
  starting : s.running = false → ∀ j : Fin 128, (s.flow j).isUsed = false

/-! ### Terms of the claims -/

/-- The marks of the event in progress are clear, as they are between commands (log entry 8). -/
abbrev State.MarksClear (s : State) : Prop := s.ev = EventMarks.clear

/-- The port takes the message the link delivers now: a start has completed, fewer than 8 requests are held and no
message waits in the link (R165, R171). -/
abbrev State.Takes (s : State) : Prop :=
  s.running = true ∧ s.heldRequests < Config.heldRequests ∧ s.port.link = []

/-- The frame at the head of the receive queue of a part whose start has completed, and the frames behind it (R3). -/
abbrev State.Head (s : State) (f : Frame) (rest : List Frame) : Prop := s.running = true ∧ s.pli.rx = f :: rest

/-- The radio delivers bytes that pass every check of R2: they read as a frame (CRC, kind, length, sender 1..63), it is
for this node or for all, and it is an ADVERT or from another node. -/
def State.Accepts (s : State) (w : WireFrame) (f : Frame) : Prop :=
  readFrame w = some f ∧ (f.dest = 0 ∨ f.dest = s.cfg.nodeId) ∧ (f.sender ≠ s.cfg.nodeId ∨ f.body.kind = .advert)

/-- A client's record and its slot (R21). -/
abbrev State.Holds (s : State) (c : ClientId) (i : Fin 64) (r : ClientRecord) : Prop :=
  s.findClient c = some i ∧ s.record i = some r

/-- The part once its unit has taken the frame at the head (R3). -/
def State.taking (s : State) (t : Nat) (rest : List Frame) : State :=
  { s.clockTo t with pli := { s.pli with rx := rest } }

/-- No gate is tested and no evacuation is under way (R160, R162). -/
abbrev State.Calm (s : State) : Prop := s.act.state ≠ .waiting ∧ s.act.state ≠ .evacuating

/-- The own path cost is what R17 gives: 0 for the gateway; otherwise at most 63, at most the sum over every fresh peer
with a link cost above 0, and 63 or one of those sums. -/
def State.PathIsLeast (s : State) : Prop :=
  if s.cfg.gateway then s.peers.ownPath = 0
  else s.peers.ownPath ≤ 63 ∧
    (∀ p ∈ s.peers.table, p.fresh = true → 0 < p.linkCost → s.peers.ownPath ≤ p.advert.pathCost + p.linkCost) ∧
    (s.peers.ownPath = 63 ∨
      ∃ p ∈ s.peers.table, p.fresh = true ∧ 0 < p.linkCost ∧ s.peers.ownPath = p.advert.pathCost + p.linkCost)

/-- A record released to another node: its slot is empty with its directive marks clear, and no flow and no sighting of
its client is left (R29). -/
def State.Released (t : State) (c : ClientId) (i : Fin 64) : Prop :=
  t.record i = none ∧ t.port.dirty.access[i] = false ∧ t.port.dirty.steer[i] = false ∧
    (∀ j f, t.flow j = .used f → f.client ≠ c) ∧ ∀ g ∈ t.peers.sightings, g.client ≠ c

/-- Whether an OFFER or CONTEXT passes the checks of R53. -/
abbrev Handover.Sound (h : Handover) : Prop :=
  h.used ≤ 1440 ∧ h.profile ≤ 15 ∧ h.flows.length ≤ 8 ∧
    ∀ g ∈ h.flows, 1 ≤ g.share ∧ g.share ≤ 250 ∧ 5 ≤ g.interval ∧ g.interval ≤ 60

/-- The candidate hears the client well enough for an OFFER (R54 check 5), at a running time. -/
abbrev State.HearsWell (s : State) (c : ClientId) (now : Nat) : Prop :=
  ∃ e ∈ s.clients.heard, e.client = c ∧ 4 * s.cfg.weakFloor ≤ e.smoothed ∧ now ≤ e.last + 3000

/-- The candidate leaves, so that it takes no client (R54 check 1). -/
abbrev State.Leaving (s : State) : Prop := s.act.state = .evacuating ∨ s.act.state = .committing ∨ s.act.state = .restarting

/-- The candidate has a slot for a new record and free flow slots for the flows of an OFFER (R54 check 4). -/
def State.HasRoom (s : State) (h : Handover) : Prop :=
  (∃ i, s.record i = none ∨ ∃ r, s.record i = some r ∧ r.state = .departed) ∧ h.flows.length ≤ s.freeFlowCount

/-- The record an ASSOCIATE creates (R22), with the access state worked out for it. -/
def State.newRecord (s : State) (n : Nat) (m : HostMsg) : ClientRecord :=
  let r : ClientRecord :=
    { client := clientField m.body 0, state := .provisional, linkRate := max 6 (min (field m.body 6 2) 2400)
      steerable := field m.body 8 1 != 0, samples := none, smoothed := none
      profile := s.sched.book.profileOf (clientField m.body 0), used := 0, dayStamp := s.time.mesh / 86400, countedHere := 0
      access := .opened, active := false, contextAwaited := true, candidate := none, confirm := 0, offerTarget := none
      holds := [], steerAttempts := 0, resistantUntil := none, arrival := max s.now n, departure := none
      timer := some (max s.now n + 2000) }
  { r with access := s.accessOf r }

/-- A peer whose sighting of a client counts (R43): fresh, with a free slot and a path, not evacuating, not under a hold. -/
def PeerEntry.MayServe (p : PeerEntry) (r : ClientRecord) : Prop :=
  p.fresh = true ∧ 1 ≤ p.advert.freeSlots ∧ p.advert.evacuating = false ∧ p.advert.pathCost < 63 ∧
    ∀ h ∈ r.holds, h.peer ≠ p.id

/-- The score of a peer by a sighting (R44). -/
def State.ScoreIs (s : State) (g : SightingEntry) (p : PeerEntry) (x : Int) : Prop :=
  x = g.smoothed - 4 * max (-16) (min 16 ((p.advert.pathCost : Int) - s.peers.ownPath))
    - min 40 (2 * max 0 ((p.advert.clientCount : Int) - s.clientCount))

/-- The ranges of R77 that a loaded or staged book is clamped to (R84, R87). -/
def Book.Ranged (b : Book) : Prop :=
  let inDay := fun w : Span => w.start ≤ 1439 ∧ w.stop ≤ 1440 ∧ w.mask &&& 0x80 = 0
  inDay b.quiet ∧ (∀ p ∈ b.profiles, (∀ a, p.allowance = some a → a ≤ 1440) ∧ ∀ w ∈ p.windows, inDay w.span) ∧
    ∀ x ∈ b.bindings, x.profile ≤ 15

/-- A client associated here (section 2.1.2). -/
abbrev ClientRecord.Here (r : ClientRecord) : Prop :=
  r.state = .provisional ∨ r.state = .associated ∨ r.state = .offering ∨ r.state = .handing

/-- What the admission test makes of a GAME flow of a record (R107). -/
def State.tested (s : State) (now : Nat) (r : ClientRecord) (f : FlowRecord) : FlowRecord :=
  if r.state = .provisional then { f with state := .waiting, reason := some .context }
  else if r.access ≠ .opened then { f with state := .waiting, reason := some .cap }
  else if s.cfg.ceiling < s.viewTotal + f.share.getD 0 then { f with state := .waiting, reason := some .airtime }
  else { f with state := .admitted, admittedAt := some now, reason := none, holdUntil := none }

/-- What the admission test makes, one after another, of flows whose records are past PROVISIONAL with access OPEN (R107): one
that fits the view total is ADMITTED and counts for those behind it. -/
def testsInOrder (ceiling now : Nat) : Nat → List FlowRecord → List FlowRecord
  | _, [] => []
  | total, f :: fs =>
    if total + f.share.getD 0 ≤ ceiling then
      { f with state := .admitted, admittedAt := some now, reason := none, holdUntil := none } ::
        testsInOrder ceiling now (total + f.share.getD 0) fs
    else { f with state := .waiting, reason := some .airtime } :: testsInOrder ceiling now total fs

/-- The flows listed are tested in order of earliest classified-at and then lower slot, and every other slot stands (R112,
R115). -/
def State.Tests (s t : State) (now : Nat) (xs : List (Fin 128 × FlowRecord)) : Prop :=
  (xs.Pairwise fun x y => x.2.classifiedAt.getD 0 < y.2.classifiedAt.getD 0 ∨
    (x.2.classifiedAt.getD 0 = y.2.classifiedAt.getD 0 ∧ x.1 < y.1)) ∧
  (∀ (n : Nat) (j : Fin 128) (x f : FlowRecord), xs[n]? = some (j, x) →
    (testsInOrder s.cfg.ceiling now s.viewTotal (xs.map Prod.snd))[n]? = some f → t.flow j = .used f) ∧
  ∀ j, (∀ x ∈ xs, x.1 ≠ j) → t.flow j = s.flow j

/-- What a change of a client's access makes of the flows (R112): away from OPEN its ADMITTED ones wait with reason CAP and no
hold, the round that follows touching only flows that wait; to OPEN its recent ones that wait with reason CAP are tested;
otherwise every flow stands. -/
def State.AccessMoves (s t : State) (c : ClientId) (old new : Access) (now : Nat) : Prop :=
  (old = .opened → new ≠ .opened → ∀ j f, s.flow j = .used f →
    (f.client = c → f.state = .admitted →
      t.flow j = .used { f with state := .waiting, reason := some .cap, holdUntil := none }) ∧
    (f.state ≠ .waiting → ¬(f.client = c ∧ f.state = .admitted) → t.flow j = s.flow j)) ∧
  (old ≠ .opened → new = .opened → ∃ xs,
    (∀ j f, (j, f) ∈ xs ↔ s.flow j = .used f ∧ f.client = c ∧ f.state = .waiting ∧ f.reason = some .cap ∧
      now < f.lastActivity + 10000) ∧ s.Tests t now xs) ∧
  (old = new ∨ (old ≠ .opened ∧ new ≠ .opened) → ∀ j, t.flow j = s.flow j)

/-- The flow list of a CONTEXT is entered for the PROVISIONAL record that it resolves (R115): each digest without a flow record,
in the list's order, in the lowest free slot, as a GAME flow that waits with reason CONTEXT; one without a free slot is not
entered, and every other slot stands. -/
def State.Enters (s v : State) (i : Fin 64) (c : ClientId) (now : Nat) (gs : List CarriedFlow) : Prop :=
  let free : List (Fin 128) := (List.finRange 128).filter fun j => s.flow j = .free
  let new : List CarriedFlow := gs.filter fun g => s.findFlow c g.digest = none
  v = { s with prio := { s.prio with flows := v.prio.flows } } ∧
  (∀ (n : Nat) (j : Fin 128) (g : CarriedFlow), free[n]? = some j → new[n]? = some g → v.flow j = .used
    { digest := g.digest, slot := i, client := c, state := .waiting, samples := [], cls := some .game, meanSize := none
      meanInterval := some g.interval, share := some g.share, classifiedAt := some now, admittedAt := none
      lastActivity := now, reason := some .context, holdUntil := none }) ∧
  ∀ j : Fin 128, (∀ n : Nat, free[n]? = some j → new[n]? = none) → v.flow j = s.flow j

/-- The flows of a resolved record's client that wait with reason CONTEXT are tested at the access then worked out (R107, R115):
each waits with reason CAP when it is not OPEN. -/
def State.Resolves (v t : State) (c : ClientId) (access : Access) (now : Nat) : Prop :=
  let awaits := fun f : FlowRecord => f.client = c ∧ f.state = .waiting ∧ f.reason = some .context
  (access ≠ .opened →
    (∀ j f, v.flow j = .used f → awaits f → t.flow j = .used { f with reason := some .cap }) ∧
    ∀ j, (∀ f, v.flow j = .used f → ¬awaits f) → t.flow j = v.flow j) ∧
  (access = .opened → ∃ xs, (∀ j f, (j, f) ∈ xs ↔ v.flow j = .used f ∧ awaits f) ∧ v.Tests t now xs)

/-- No flow of a client is ADMITTED or waits with reason CAP, as is so of a PROVISIONAL record's client (R107). -/
def State.OnlyAwaits (s : State) (c : ClientId) : Prop :=
  ∀ j f, s.flow j = .used f → f.client = c → f.state ≠ .admitted ∧ ¬(f.state = .waiting ∧ f.reason = some .cap)

/-- What a removed flow leaves in its slot (R111, R118): a release owed when it had a CLASS value. -/
def FlowRecord.leaves (f : FlowRecord) : FlowSlot :=
  if f.state = .sampling ∨ f.state = .reserved then .free else .release f.digest f.client

/-- Nothing is in flight and nothing waits at the Store Controller (R131). -/
abbrev State.StoreIdle (s : State) : Prop := s.store.inflight = none ∧ s.store.waiting = []

/-- An operation is in flight and nothing waits behind it (R131). -/
abbrev State.Flies (s : State) (op : StoreOp) : Prop := s.store.inflight = some op ∧ s.store.waiting = []

/-- The part with an operation of its own in flight. -/
def State.flying (s : State) (op : StoreOp) : State := { s with store := { s.store with inflight := some op } }

/-- The part with its non-booted slot changed (R142). -/
def State.withSpare (s : State) (r : SlotRecord) : State := s.putSlotRecord s.spareSlot r

/-- The non-booted slot is FILLING a version with a manifest (R142, R152). -/
abbrev State.Fills (s : State) (v : Nat) (m : Manifest) : Prop :=
  (s.slot s.spareSlot).state = .filling ∧ (s.slot s.spareSlot).version = some v ∧ (s.slot s.spareSlot).manifest = some m ∧
    1 ≤ m.n ∧ m.n ≤ 4096

/-- A manifest copy of the non-booted slot has an image length that a manifest can have (R144). -/
def State.SpareSound (s : State) : Prop := ∀ m, (s.slot s.spareSlot).manifest = some m → 1 ≤ m.n ∧ m.n ≤ 4096

/-- A selector protects the slot it boots and, while its trial flag is set, the confirmed one (R133). -/
abbrev Selector.Protects (sel : Selector) (k : SlotId) : Prop := k = sel.booted ∨ (sel.trial = true ∧ k = sel.confirmed)

/-- The non-booted slot is not protected (R133). -/
abbrev State.SpareOpen (s : State) : Prop := ¬s.act.sel.Protects s.spareSlot

/-- The version is above the booted version and at or above the floor (R144). -/
abbrev State.IsNewer (s : State) (v : Nat) : Prop := s.bootedVersion < v ∧ s.act.sel.floor ≤ v

/-- A slot counts for the image target with a version: ACTIVE, RETAINED, READY or CHECKING, or FILLING with its manifest
(R143); these are the states in which a slot serves a version (R150). -/
abbrev SlotRecord.Serves (r : SlotRecord) (v : Nat) : Prop :=
  r.version = some v ∧
    (r.state = .active ∨ r.state = .retained ∨ r.state = .ready ∨ r.state = .checking ∨
      (r.state = .filling ∧ r.manifest.isSome = true))

/-- The slot that serves a version; slot A where both do (log entry 22). -/
abbrev State.ServedBy (s : State) (v : Nat) (k : SlotId) : Prop :=
  (s.slot k).Serves v ∧ (k = .a ∨ ¬(s.slot .a).Serves v)

/-- No slot serves a version. -/
abbrev State.Unserved (s : State) (v : Nat) : Prop := ¬(s.slot .a).Serves v ∧ ¬(s.slot .b).Serves v

/-- An image block that is VERIFIED, or counts as VERIFIED by its slot's state (R142). -/
abbrev SlotRecord.Verified (r : SlotRecord) (b : Nat) : Prop :=
  b < ((match r.manifest with | some m => min m.n 4096 | none => 0) + 15) / 16 ∧
    (r.state = .active ∨ r.state = .ready ∨ r.state = .retained ∨ r.state = .checking ∨ (r.block b).state = .verified)

/-- The place of a GAME flow in the list a frame carries (R113): ADMITTED flows by admitted-at and, in a CONTEXT, the WAITING
and IDLE ones behind them by classified-at. Other flows are not carried. -/
def FlowRecord.carriedAt (f : FlowRecord) (inContext : Bool) : Option (Nat × Nat) :=
  match f.state with
  | .admitted => some (0, f.admittedAt.getD 0)
  | .waiting | .idle => if inContext then some (1, f.classifiedAt.getD 0) else none
  | .sampling | .reserved | .standard | .bulk => none

/-- Carried flow `x` comes before `y`: by its place, among equals by the lower slot (R52, R64, R113). -/
def CarriedBefore (inContext : Bool) (x y : Fin 128 × FlowRecord) : Prop :=
  ∃ p q, x.2.carriedAt inContext = some p ∧ y.2.carriedAt inContext = some q ∧
    (p.1 < q.1 ∨ (p.1 = q.1 ∧ (p.2 < q.2 ∨ (p.2 = q.2 ∧ x.1 < y.1))))

/-- The flow list of an OFFER or CONTEXT for a client (R52, R64, R113): its carried flows in their order, at most the first 8,
each with its digest, share and mean interval. -/
def State.CarriesFlows (s : State) (inContext : Bool) (c : ClientId) (gs : List CarriedFlow) : Prop :=
  ∃ xs : List (Fin 128 × FlowRecord),
    gs = xs.map (fun x => { digest := x.2.digest, share := x.2.share.getD 0, interval := x.2.meanInterval.getD 0 }) ∧
    xs.length ≤ 8 ∧ xs.Pairwise (CarriedBefore inContext) ∧
    (∀ x ∈ xs, s.flow x.1 = .used x.2 ∧ x.2.client = c ∧ (x.2.carriedAt inContext).isSome = true) ∧
    ∀ j f, s.flow j = .used f → f.client = c → (f.carriedAt inContext).isSome = true →
      (j, f) ∈ xs ∨ (xs.length = 8 ∧ ∀ x ∈ xs, CarriedBefore inContext x (j, f))

/-- A window is active at a weekday and minute of day (R88). -/
abbrev Span.ActiveAt (w : Span) (weekday minute : Nat) : Prop :=
  (w.start < w.stop ∧ w.mask.getLsbD weekday = true ∧ w.start ≤ minute ∧ minute < w.stop) ∨
    (w.stop < w.start ∧ ((w.mask.getLsbD weekday = true ∧ w.start ≤ minute) ∨
      (w.mask.getLsbD ((weekday + 6) % 7) = true ∧ minute < w.stop)))

/-- The four gates are open (R89, R160): no trial; the quiet window at a known time, and no ADMITTED flow, each unless the
activate-now mark is set; and no fresh peer that evacuates. -/
def State.GatesOpen (s : State) : Prop :=
  s.act.sel.trial = false ∧
    ((s.time.rank < 15 ∧ s.sched.book.quiet.ActiveAt (s.time.mesh / 86400 % 7) (s.time.mesh % 86400 / 60)) ∨
      s.act.activateNow = true) ∧
    ((∀ j f, s.flow j = .used f → f.state ≠ .admitted) ∨ s.act.activateNow = true) ∧
    ∀ p ∈ s.peers.table, p.fresh = true → p.advert.evacuating = false

/-- A record that holds an evacuation open (R162). -/
abbrev ClientRecord.HoldsOpen (r : ClientRecord) : Prop := r.Here ∧ r.steerable = true

/-- What an evacuation pass at a running time makes of the records (R49, R162): an ASSOCIATED, steerable one with a smoothed
value no higher than its best candidate's score is OFFERING toward it; every other record but an ARRIVING one stands. -/
def State.Passed (s t : State) (now : Nat) : Prop :=
  let u : State :=
    { s with peers := { s.peers with sightings := s.peers.sightings.filter fun g => (now : Int) ≤ g.validity + 3000 } }
  ∀ i r, s.record i = some r →
    let asked := fun q p score =>
      r.state = .associated ∧ r.steerable = true ∧ r.smoothed = some q ∧ u.bestCandidate r = some (p, score) ∧ q ≤ score
    (∀ q p score, asked q p score →
      t.record i = some { r with state := .offering, offerTarget := some p, confirm := 0, timer := some (now + 400) }) ∧
    (r.state ≠ .arriving → (∀ q p score, ¬asked q p score) → t.record i = some r)

/-- The copy and sequence number that the next selector write is directed to (R134); the number after 0FFFFFFFFh is 0 (log
entry 41). -/
def State.nextSelector (s : State) : CopyId × Nat :=
  (match s.store.copy with | some c => c.other | none => .zero, (s.store.seqNo + 1) % 4294967296)

/-- What the entry to EVACUATING at a running time leaves of an idle store (R161, R162, R164): no ARRIVING record, and the
limit running while a record holds the evacuation open; without one the commit is in flight at once. -/
def State.Evacuates (s t : State) (now : Nat) : Prop :=
  (∀ i r, t.record i = some r → r.state ≠ .arriving) ∧
    ((∃ i r, s.record i = some r ∧ r.HoldsOpen) →
      t.act = { s.act with state := .evacuating, evacuationDue := some (now + 30000) }) ∧
    ((∀ i r, s.record i = some r → ¬r.HoldsOpen) → t.act.state = .committing ∧ t.act.evacuationDue = none ∧
      t.Flies
        { owner := .activation
          kind := .selectorWrite s.store.orders .commit { s.act.sel with booted := s.spareSlot, trial := true, trialStarts := 0 }
            (some s.nextSelector) })

/-! ### The start sequence -/

/-- The start sequence stands at a stage that waits for an operation, which is in flight with nothing behind it (R165). -/
abbrev State.Stands (s : State) (st : Stage) (kind : OpKind) : Prop :=
  s.seq.stage = st ∧ s.Flies { owner := .start, kind := kind } ∧ s.MarksClear

/-- The part with the start sequence at a stage and the operation that it waits for in flight. -/
def State.awaiting (s : State) (st : Stage) (kind : OpKind) : State :=
  { s with seq := { s.seq with stage := st }, store := { s.store with inflight := some { owner := .start, kind := kind } } }

/-- The part with a selector write of the start sequence in flight, directed to the next copy (R134, R166). -/
def State.writing (s : State) (st : Nat → Stage) (p : SelPurpose) (sel : Selector) : State :=
  State.awaiting { s with store := { s.store with orders := s.store.orders + 1 } } (st s.store.orders)
    (.selectorWrite s.store.orders p sel (some s.nextSelector))

/-- The part with other contents of the flash. -/
def State.holding (s : State) (flash : List Host.Cell) : State := { s with store := { s.store with flash := flash } }

/-- What a RECORD-READ of an area gives on a device (R129, R130): the body of its record, none where it reads invalid. -/
def State.readBody (s : State) (d : Device) (a : Area) : Option (List Byte) :=
  if d.failed then none else readArea d.cells s.store.flash a

/-- A part that has learned the selector from the bodies of its two copies (R134, R166): of two valid copies the one with the
higher sequence number (copy 0 where they are equal: log entry 42), else the valid one; without one, booted A, confirmed A,
no trial, trial starts 0, floor 0, no current copy and sequence 0. -/
def State.Learned (s : State) (first second : Option (List Byte)) (w : State) : Prop :=
  ∃ copy q sel,
    w = { s with store := { s.store with copy := copy, seqNo := q }, act := { s.act with sel := sel } } ∧
    ((copy = some .zero ∧ first.bind readSelector = some (q, sel) ∧ ∀ m x, second.bind readSelector = some (m, x) → m ≤ q) ∨
      (copy = some .one ∧ second.bind readSelector = some (q, sel) ∧ ∀ m x, first.bind readSelector = some (m, x) → m < q) ∨
      (copy = none ∧ q = 0 ∧ first.bind readSelector = none ∧ second.bind readSelector = none ∧
        sel = { booted := .a, confirmed := .a, trial := false, trialStarts := 0, floor := 0 }))

/-- A slot as the start sequence rebuilds it from a manifest copy (R167; its blocks: log entry 50). -/
def rebuilt (m : Option Manifest) (st : SlotState) : SlotRecord :=
  { SlotRecord.blank with state := st, version := m.map Manifest.version, manifest := m }

/-- What the minute that closes makes of a record (R33, R96). -/
def ClientRecord.Counted (r q : ClientRecord) : Prop :=
  let counts := r.active = true ∧ (r.state = .associated ∨ r.state = .offering ∨ r.state = .handing) ∧
    (r.access = .opened ∨ r.access = .capped)
  (counts → q = { r with used := min 1440 (r.used + 1), countedHere := min 1440 (r.countedHere + 1), active := false }) ∧
  (¬counts → q = { r with active := false })

/-! ### Flows and the records they belong to -/

/-- Every ADMITTED flow belongs to a record in ASSOCIATED, OFFERING or HANDING whose access is OPEN, the RESERVED flows are
those of ARRIVING records, and a DEPARTED record has no flow (R102, R114); while the part evacuates, commits or restarts no
record is ARRIVING (R161; that a confirm expiry drops them is log entry 36); and a part that is starting holds no record
(R165, R168). -/
structure State.FlowsEntitled (s : State) : Prop where
  admitted : ∀ (j : Fin 128) (f : FlowRecord), s.flow j = .used f → f.state = .admitted →
    ∃ r, s.record f.slot = some r ∧ r.client = f.client ∧
      (r.state = .associated ∨ r.state = .offering ∨ r.state = .handing) ∧ r.access = .opened
  reserved : ∀ (j : Fin 128) (f : FlowRecord) (r : ClientRecord), s.flow j = .used f → s.record f.slot = some r →
    (f.state = .reserved ↔ r.state = .arriving)
  departed : ∀ (j : Fin 128) (f : FlowRecord) (r : ClientRecord), s.flow j = .used f → s.record f.slot = some r →
    r.state ≠ .departed
  leaving : s.Leaving → ∀ (i : Fin 64) (r : ClientRecord), s.record i = some r → r.state ≠ .arriving
  starting : s.running = false → ∀ i : Fin 64, s.record i = none

/-- The Pace record is the one the ADMITTED set gives once a start has completed (R120, R121). -/
def State.Paced (s : State) : Prop := s.running = true → s.prio.pace = s.paceNow

/-! ### What fits the layouts of section 12.5 -/

/-- The values of an ADVERT fit their fields. -/
def Advert.Fits (a : Advert) : Prop :=
  a.pathCost < 256 ∧ a.clientCount < 256 ∧ a.freeSlots < 256 ∧ a.reserved < 65536 ∧ a.meshTime < 2 ^ 32 ∧ a.timeRank < 256 ∧
    a.bookVersion < 2 ^ 32 ∧ a.bookOrigin < 256 ∧ a.target < 2 ^ 32 ∧ a.stateA < 256 ∧ a.versionA < 2 ^ 32 ∧ a.stateB < 256 ∧
    a.versionB < 2 ^ 32 ∧ a.sightings.length < 256 ∧
    ∀ g ∈ a.sightings, -32768 ≤ g.smoothed ∧ g.smoothed ≤ 32767 ∧ g.age < 256

/-- The values of an OFFER or CONTEXT fit their fields. -/
def Handover.Fits (h : Handover) : Prop :=
  h.used < 65536 ∧ h.dayStamp < 65536 ∧ h.profile < 256 ∧ h.access < 256 ∧ h.flows.length < 256 ∧
    ∀ g ∈ h.flows, g.share < 65536 ∧ g.interval < 256

/-- The values of a manifest fit their fields. -/
def Manifest.Fits (m : Manifest) : Prop := m.version < 2 ^ 32 ∧ m.n < 65536 ∧ m.blockCrcs.length = 256

/-- The values of a body fit its fields, and its bytes the length field. -/
def FrameBody.Fits : FrameBody → Prop
  | .advert a => a.Fits
  | .offer h => h.Fits
  | .accept _ => True
  | .decline _ reason => reason < 256
  | .claim _ => True
  | .context h => h.Fits
  | .bookRequest => True
  | .bookSegment v o len index part => v < 2 ^ 32 ∧ o < 256 ∧ len < 65536 ∧ index < 256 ∧ part.length + 8 < 65536
  | .manifestRequest v => v < 2 ^ 32
  | .manifest m => m.Fits
  | .chunkRequest v b start count mode => v < 2 ^ 32 ∧ b < 256 ∧ start < 65536 ∧ count < 256 ∧ mode < 256
  | .chunk v i data => v < 2 ^ 32 ∧ i < 65536 ∧ data.length = 1024
  | .chunkRefuse reason v b => reason < 256 ∧ v < 2 ^ 32 ∧ b < 256

/-- A frame from a node id 1..63 whose values fit. -/
def Frame.Fits (f : Frame) : Prop := 1 ≤ f.sender ∧ f.sender ≤ 63 ∧ f.dest < 256 ∧ f.body.Fits

/-- The values of a book fit the layout of R78. -/
def Book.Fits (b : Book) : Prop :=
  let span := fun w : Span => w.start < 65536 ∧ w.stop < 65536
  b.version < 2 ^ 32 ∧ b.origin < 256 ∧ span b.quiet ∧ b.profiles.length = 16 ∧
    (∀ p ∈ b.profiles, (∀ a, p.allowance = some a → a < 65535) ∧ p.windows.length ≤ 8 ∧ ∀ w ∈ p.windows, span w.span) ∧
    b.bindings.length ≤ 64 ∧ ∀ x ∈ b.bindings, x.profile < 256

/-- The values of a configuration lie in the ranges of R177. -/
def ActiveConfig.Fits (c : ActiveConfig) : Prop :=
  c.nodeId < 256 ∧ 200 ≤ c.period ∧ c.period ≤ 2000 ∧ 2 ≤ c.hysteresis ∧ c.hysteresis ≤ 20 ∧ -90 ≤ c.weakFloor ∧
    c.weakFloor ≤ -70 ∧ 100 ≤ c.ceiling ∧ c.ceiling ≤ 800 ∧ c.fallback ≤ 1440

/-! ### Kinds of command -/

/-- A start (R165). -/
def IsStart (c : Instr) : Prop :=
  ∃ cells, c = .powerOnStart cells ∨ c = .hostRestart cells ∨ c = .recoveryStart cells

/-- A completion of a store operation (R130). -/
def IsCompletion (c : Instr) : Prop :=
  ∃ n d, c = .readChunkCompletion n d ∨ c = .programChunkCompletion n d ∨ c = .eraseBlockCompletion n d ∨
    c = .verifyBlockCompletion n d ∨ c = .checkImageCompletion n d ∨ c = .recordWriteCompletion n d ∨
    c = .recordReadCompletion n d

/-- A frame taken by its unit (R3). -/
def TakesFrame (c : Instr) : Prop :=
  ∃ n, c = .advert n ∨ c = .offer n ∨ c = .accept n ∨ c = .decline n ∨ c = .claim n ∨ c = .context n ∨ c = .bookRequest n ∨
    c = .bookSegment n ∨ c = .manifestRequest n ∨ c = .manifest n ∨ c = .chunkRequest n ∨ c = .chunk n ∨ c = .chunkRefuse n

/-- A command at which the port may take messages that waited in the link (R165, R171). -/
def Resumes (c : Instr) : Prop := ∃ n, c = .startSequenceComplete n ∨ c = .hostAcceptance n

/-- The command that delivers a host message of a kind (R171, R172). -/
def HostKind.command (k : HostKind) (n : Nat) (m : HostMsg) : Instr :=
  match k with
  | .associate => .associate n m
  | .disassociate => .disassociate n m
  | .signal => .signal n m
  | .sighting => .sighting n m
  | .link => .link n m
  | .clientActivity => .clientActivity n m
  | .flowSample => .flowSample n m
  | .flowActive => .flowActive n m
  | .flowEnd => .flowEnd n m
  | .loadBook => .loadBook n m
  | .setTime => .setTime n m
  | .seedManifest => .seedManifest n m
  | .seedChunk => .seedChunk n m
  | .activateNow => .activateNow n m
  | .confirmImage => .confirmImage n m
  | .readRecord => .readRecord n m
  | .writeConfig => .writeConfig n m

/-- The flash bytes that the held selector protects: a protected slot's data and its manifest area (R133). -/
def State.Guarded (s : State) (a : Nat) : Prop :=
  ∃ k, s.act.sel.Protects k ∧
    (k.holds a ∨ ((Area.manifest k).base ≤ a ∧ a < (Area.manifest k).base + Config.blockBytes))

/-! ### Operations and messages that wait -/

/-- An operation that is stale if it goes into flight now (R135), or a program whose chunk is no longer pending (R137). -/
def State.MovedOn (s : State) (op : StoreOp) : Prop :=
  op.owner ≠ .start ∧
    match op.kind with
    | .eraseBlock k v _ | .verifyBlock k v _ _ => ¬((s.slot k).state = .filling ∧ (s.slot k).version = some v)
    | .programChunk k v i _ =>
      ¬((s.slot k).state = .filling ∧ (s.slot k).version = some v ∧ (s.slot k).mark i = .pending)
    | .checkImage k v _ _ => ¬((s.slot k).state = .checking ∧ (s.slot k).version = some v)
    | .readChunk k v _ => (s.slot k).version ≠ some v ∨ (s.slot k).state = .empty ∨ (s.slot k).state = .failed
    | .eraseArea _ | .recordWrite _ _ _ | .selectorWrite _ _ _ _ | .recordRead _ => False

/-- A program or erase of a slot, or a write or erase of its manifest area, with what a STORE-REFUSED of it names (R133). -/
def StoreOp.AimsAt (op : StoreOp) (k : SlotId) (target : StoreTarget) (kind : RefusedKind) : Prop :=
  (∃ v i data, op.kind = .programChunk k v i data ∧ target = .chunk k i ∧ kind = .programChunk) ∨
    (∃ v b, op.kind = .eraseBlock k v b ∧ target = .block k b ∧ kind = .eraseBlock) ∨
    (∃ v body, op.kind = .recordWrite (.manifest k) v body ∧ target = .area (.manifest k) ∧ kind = .recordWrite) ∨
    (op.kind = .eraseArea (.manifest k) ∧ target = .area (.manifest k) ∧ kind = .eraseBlock)

/-- A record write of an area from the unit that R134 accepts it from, an area's erase from the start sequence (R167, R170), or
any other operation. -/
def StoreOp.Rightful (op : StoreOp) : Prop :=
  match op.kind with
  | .recordWrite a _ _ => a.writableBy op.owner = true
  | .selectorWrite _ _ _ _ => op.owner = .activation ∨ op.owner = .start
  | .eraseArea _ => op.owner = .start
  | .readChunk _ _ _ | .programChunk _ _ _ _ | .eraseBlock _ _ _ | .verifyBlock _ _ _ _ | .checkImage _ _ _ _
  | .recordRead _ => True

/-- What a completion makes of the operations that wait, before any unit answers it (R131, R133 to R135, R137): the first that
may run goes into flight, a selector write directed to the next copy, and those behind it stay in their order; one before it
that is aimed at what the selector then protects raises STORE-REFUSED; and the flash is as if none had waited. A stale erase,
program or verification of the fill at the head leaves as if it had never waited, and one that is protected too leaves its
notice alone (that it completes PROTECTED rather than CANCELLED is log entry 58, DESIGN CHOICE). -/
def State.QueueMoves (s : State) (c : Instr) : Prop :=
  ∃ t, exec c s = .next t ∧
    let behind := fun ops : List StoreOp => { s with store := { s.store with waiting := ops } }
    let hit := fun (op : StoreOp) target kind => ∃ k, op.AimsAt k target kind ∧ t.act.sel.Protects k
    let runs := fun op : StoreOp => op.Rightful ∧ ¬s.MovedOn op ∧ ∀ target kind, ¬hit op target kind
    (∀ u, exec c (behind []) = .next u → t.store.flash = u.store.flash) ∧
    (∀ gone op rest, s.store.waiting = gone ++ op :: rest → (∀ x ∈ gone, ¬runs x) →
      (runs op → rest <+: t.store.waiting ∧ (op.isSelectorWrite = false → t.store.inflight = some op) ∧
        ∀ n p sel q, op.kind = .selectorWrite n p sel q →
          t.store.inflight = some { op with kind := .selectorWrite n p sel (some t.nextSelector) }) ∧
      (∀ target kind, hit op target kind → s.port.notices.length + gone.length < 16 →
        (op.owner = .fill → .storeRefused target kind .distribution ∈ t.port.notices) ∧
        (op.owner = .start → .storeRefused target kind .startSequence ∈ t.port.notices))) ∧
    (∀ op rest, s.store.waiting = op :: rest → op.owner = .fill → op.kind.isCheck = false → s.MovedOn op →
      ((∀ target kind, ¬hit op target kind) → exec c s = exec c (behind rest)) ∧
      (∀ target kind, hit op target kind → exec c s = exec c ((behind rest).raise (.storeRefused target kind .distribution))))

/-- The messages that wait in the link are taken oldest first, each leaving the link as it is taken, while a start has completed
and fewer than 8 requests are held (R165, R171; that all of this is part of the command that opened the port is log entry
24). -/
inductive LinkTaken : State → State → Prop
  | empty (s : State) : s.port.link = [] → LinkTaken s s
  | shut (s : State) : ¬(s.running = true ∧ s.heldRequests < 8) → LinkTaken s s
  | takes (s t : State) (k : HostKind) (m : HostMsg) (rest : List (HostKind × HostMsg)) :
      s.port.link = (k, m) :: rest → s.running = true → s.heldRequests < 8 →
      LinkTaken (State.takeMessage k m { s with port := { s.port with link := rest } }) t → LinkTaken s t

/-! ### Safe runs -/

/-- A safe state. -/
structure State.Safe (s : State) : Prop where
  flash : s.FlashCanonical
  capacity : s.WithinCapacity
  distinct : s.EntriesDistinct
  range : s.WithinRange
  airtime : s.AirtimeKept
  marks : s.MarksClear

/-- A run of steps from one state to another, whatever commands the outside adds to the queue on the way. -/
inductive Run : State → State → Prop
  | here (s : State) : Run s s
  | sent (s t : State) (cs : List Instr) : Run { s with pending := s.pending ++ cs } t → Run s t
  | stepped (s u t : State) : step s = .next u → Run u t → Run s t

/-- A safe run: every state on the way from a safe state is safe. -/
def SafeRuns : Prop := ∀ s t : State, s.Safe → Run s t → t.Safe

end Sys2Proof.Machine
end

