-- ==== Sys2Proof/Certificates/Slice0/Obligations.lean ====
section
/-! DEFINITION. The statements: what the rules of the guide say a command does, stated of the model's `exec`, and what
every step keeps. -/

open Sys2Proof Sys2Proof.Machine

/-! ### The queue of commands -/

/-- A step runs the command at the front of the queue on the state with the queue's rest; on an empty queue the part
idles (the model's choice, log entry 12). -/
def Obligations.StepRunsTheQueue : Prop :=
  (∀ (c : Instr) (rest : List Instr) (s : State), step { s with pending := c :: rest } = exec c { s with pending := rest }) ∧
  (∀ s : State, s.pending = [] → step s = .next s)

/-- Every command completes and leaves the queue of commands alone (log entry 10). -/
def Obligations.EveryCommandCompletes : Prop :=
  ∀ (c : Instr) (s : State), ∃ t, exec c s = .next t ∧ t.pending = s.pending

/-! ### Starts -/

/-- What the state at reset holds where the guide gives the value (R8, R18, R19, R21, R25, R71, R79, R102, R123, R131,
R142, R158, R175, R176), and that it is safe: every invariant stated below holds of it. -/
def Obligations.ResetHoldsTheStartValues : Prop :=
  let s := State.reset
  (s.pli.rx = [] ∧ s.pli.tx = [] ∧ s.pli.rxRun = false ∧ s.pli.txRun = false) ∧
  (s.peers.table = [] ∧ s.peers.sightings = []) ∧
  ((∀ i, s.record i = none) ∧ s.clients.heard = [] ∧ s.clients.refusals = []) ∧
  (s.time.mesh = 0 ∧ s.time.rank = 15 ∧ s.time.minuteMark = 0 ∧ s.time.dayMark = 0 ∧ s.time.ageingDue = none) ∧
  (s.sched.book = Book.emptyBook ∧ s.sched.staging = none ∧ s.sched.writeOwed = false ∧ s.sched.writeInFlight = false) ∧
  ((∀ j, s.flow j = .free) ∧ s.ownReserved = 0 ∧ s.prio.pullCredits = 0 ∧ s.prio.serveCredits = 0) ∧
  (s.store.inflight = none ∧ s.store.waiting = []) ∧
  (s.dist.outstanding = none ∧ s.dist.serve = [] ∧ s.dist.relay = none ∧ s.dist.busySkip = none ∧ s.dist.manifestOwed = false) ∧
  (s.act.activateNow = false ∧ s.act.writeInFlight = false ∧ s.act.evacuationDue = none) ∧
  (s.port.replies = [] ∧ s.port.notices = [] ∧ s.port.overflow = false ∧ s.port.dirty.pace = true ∧
    s.port.dirty.restart = false ∧ (∀ i : Fin 64, s.port.dirty.access[i] = false ∧ s.port.dirty.steer[i] = false) ∧
    ∀ j : Fin 128, s.port.dirty.cls[j] = false) ∧
  s.Safe ∧ s.FlowsEntitled ∧ s.Paced ∧ s.OpsFit ∧ s.FlightUnprotected ∧ s.OneAtATime

/-- A start makes every block afresh, keeps the messages waiting in the link and submits its first read: the staged
configuration at a power-on start or host restart, selector copy 0 at a recovery start (R165, R166, R168, R170). A recovery
start then writes the selector back to the confirmed slot where a trial or a revert stands, erases the 256 blocks of the
other slot, its manifest area, which reads invalid then, and the staged area, each a second time after a failure; a failed
selector write passes the slot over (R170, whose reason is that the trial flag is still set; that a write which failed with the
flag clear and trial starts 2 passes it over too is log entry 45, DEDUCED). The configuration is settled: a valid staged record is promoted unless the active
one equals it, and the active record, or the staged one whose promotion failed, is used with its fields clamped (R166, R177).
The order numbers of selector writes are log entry 20, equal and wrapped sequence numbers log entries 42 and 41, and a body
of another length than 12 bytes log entry 18 (DESIGN CHOICE); the values of a part that reads no configuration are log entry
4, that a failed promotion is not read back is log entry 48, and when a recovery's write counts as a revert log entry 26
(DEDUCED). -/
def Obligations.StartsBeginAfresh : Prop :=
  (∀ (cells : List Host.Cell) (s : State),
    let f := State.fresh s.pending (s.flashAtStart cells) s.port.link
    exec (.powerOnStart cells) s = .next
      { f with
        seq := { f.seq with stage := .readStaged }
        store := { f.store with inflight := some { owner := .start, kind := .recordRead .configStaged } } } ∧
    exec (.hostRestart cells) s = exec (.powerOnStart cells) s ∧
    exec (.recoveryStart cells) s = .next
      { f with
        seq := { f.seq with stage := .recoverySelector0, recovery := true }
        store := { f.store with inflight := some { owner := .start, kind := .recordRead (.selector .zero) } } }) ∧
  (∀ (n : Nat) (d : Device) (s : State),
    let u := s.clockTo n
    let second := s.readBody d (.selector .one)
    let k := s.act.sel.booted.other
    (s.Stands .recoverySelector0 (.recordRead (.selector .zero)) → exec (.recordReadCompletion n d) s =
      .next (u.awaiting (.recoverySelector1 (s.readBody d (.selector .zero))) (.recordRead (.selector .one)))) ∧
    (∀ first w, s.Stands (.recoverySelector1 first) (.recordRead (.selector .one)) → u.Learned first second w →
      let sel := w.act.sel
      (sel.trial = true ∨ sel.trialStarts = 2 → exec (.recordReadCompletion n d) s =
        .next (w.writing .recoveryRevert (.recovery (sel.booted != sel.confirmed))
          { sel with booted := sel.confirmed, trial := false, trialStarts := 0 })) ∧
      (sel.trial = false → sel.trialStarts ≠ 2 → exec (.recordReadCompletion n d) s =
        .next (w.awaiting (.recoveryErase 0 false) (.eraseBlock sel.booted.other 0 0)))) ∧
    (∀ order changes sel copy q, sel.trial = false → s.act.retry = none →
      s.Stands (.recoveryRevert order) (.selectorWrite order (.recovery changes) sel (some (copy, q))) →
      ∃ t, exec (.recordWriteCompletion n d) s = .next t ∧
        (d.failed = false → t.act.sel = sel ∧ t.store.copy = some copy ∧ t.store.seqNo = q ∧
          t.store.flash = writeArea s.store.flash (.selector copy) (writeSelector q sel) ∧
          t.port.dirty.restart = (s.port.dirty.restart || changes) ∧ t.port.notices = s.port.notices ∧
          t.seq.wroteRevert = (s.seq.wroteRevert || changes) ∧
          t.seq.stage = .recoveryErase 0 false ∧ t.Flies { owner := .start, kind := .eraseBlock sel.booted.other 0 0 }) ∧
        (d.failed = true → t.act.sel = s.act.sel ∧ t.store.copy = s.store.copy ∧ t.store.seqNo = s.store.seqNo ∧
          t.act.retryDue = some (max s.now n + 1000) ∧ t.port = s.port ∧
          t.seq.stage = .recoveryEraseStaged false ∧ t.Flies { owner := .start, kind := .eraseArea .configStaged })) ∧
    (∀ b again, b < 256 → s.act.sel.trial = false → s.Stands (.recoveryErase b again) (.eraseBlock k 0 b) → ∃ flash,
      (d.failed = false → flash = Memory.erase s.store.flash (k.base + b * 16384) 16384) ∧
      let v := u.holding flash
      (d.failed = true → again = false → exec (.eraseBlockCompletion n d) s =
        .next (v.awaiting (.recoveryErase b true) (.eraseBlock k 0 b))) ∧
      (d.failed = false ∨ again = true → b < 255 → exec (.eraseBlockCompletion n d) s =
        .next (v.awaiting (.recoveryErase (b + 1) false) (.eraseBlock k 0 (b + 1)))) ∧
      (d.failed = false ∨ again = true → b = 255 → exec (.eraseBlockCompletion n d) s =
        .next (v.awaiting (.recoveryEraseManifest false) (.eraseArea (.manifest k))))) ∧
    (∀ again, s.act.sel.trial = false → s.Stands (.recoveryEraseManifest again) (.eraseArea (.manifest k)) → ∃ flash,
      readArea [] flash (.manifest k) = none ∧
      let v := u.holding flash
      (d.failed = true → again = false → exec (.eraseBlockCompletion n d) s =
        .next (v.awaiting (.recoveryEraseManifest true) (.eraseArea (.manifest k)))) ∧
      (d.failed = false ∨ again = true → exec (.eraseBlockCompletion n d) s =
        .next (v.awaiting (.recoveryEraseStaged false) (.eraseArea .configStaged)))) ∧
    (∀ again, s.Stands (.recoveryEraseStaged again) (.eraseArea .configStaged) → ∃ flash,
      (d.failed = false → readArea [] flash .configStaged = none) ∧
      let v := u.holding flash
      (d.failed = true → again = false → exec (.eraseBlockCompletion n d) s =
        .next (v.awaiting (.recoveryEraseStaged true) (.eraseArea .configStaged))) ∧
      (d.failed = false ∨ again = true → exec (.eraseBlockCompletion n d) s =
        .next (v.awaiting .readStaged (.recordRead .configStaged))))) ∧
  (∀ (n : Nat) (d : Device) (s : State),
    let u := s.clockTo n
    let body := fun a => match s.readBody d a with
      | some x => if x.length = 12 then some x else none
      | none => none
    let unread : ActiveConfig :=
      { nodeId := 255, gateway := false, period := 500, hysteresis := 6, weakFloor := -82, ceiling := 400, fallback := 60
        steering := true, fixedPace := false }
    let settles := fun (cmd : Instr) (v : State) (x : Option (List Byte)) =>
      exec cmd s = .next (State.awaiting { v with cfg := match x with | some y => readConfig y | none => unread }
        .readSelector0 (.recordRead (.selector .zero)))
    (s.Stands .readStaged (.recordRead .configStaged) → exec (.recordReadCompletion n d) s =
      .next (u.awaiting (.readActive (body .configStaged)) (.recordRead .configActive))) ∧
    (∀ staged, s.Stands (.readActive staged) (.recordRead .configActive) →
      (staged = none ∨ body .configActive = staged → settles (.recordReadCompletion n d) u (body .configActive)) ∧
      (∀ x, staged = some x → body .configActive ≠ some x → exec (.recordReadCompletion n d) s =
        .next (u.awaiting (.promote x) (.recordWrite .configActive 0 x)))) ∧
    (∀ x, s.Stands (.promote x) (.recordWrite .configActive 0 x) →
      (d.failed = false → exec (.recordWriteCompletion n d) s =
        .next (State.awaiting (u.holding (writeArea s.store.flash .configActive x)) .readPromoted (.recordRead .configActive))) ∧
      (d.failed = true → ∃ flash, settles (.recordWriteCompletion n d) (u.holding flash) (some x))) ∧
    (s.Stands .readPromoted (.recordRead .configActive) → settles (.recordReadCompletion n d) u (body .configActive))) ∧
  (∀ x : List Byte,
    let c := readConfig x
    let clamp := fun (raw ones deflt lo hi : Nat) => if raw = ones then deflt else max lo (min raw hi)
    c.nodeId = field x 0 1 ∧ (c.gateway = true ↔ 1 ≤ field x 1 1 ∧ field x 1 1 ≠ 255) ∧
      c.period = clamp (field x 2 2) 65535 500 200 2000 ∧ c.hysteresis = clamp (field x 4 1) 255 6 2 20 ∧
      c.weakFloor = (if signedByte x 5 = -1 then -82 else max (-90) (min (signedByte x 5) (-70))) ∧
      c.ceiling = clamp (field x 6 2) 65535 400 100 800 ∧ c.fallback = clamp (field x 8 2) 65535 60 0 1440 ∧
      (c.steering = true ↔ 1 ≤ field x 10 1) ∧ (c.fixedPace = true ↔ 1 ≤ field x 11 1 ∧ field x 11 1 ≠ 255))

/-- At a start of any kind the waiting operations are discarded and the flash keeps what was done: no byte changes
outside the range of the operation in flight, and a record write cut short leaves its area invalid (R141). -/
def Obligations.StartsKeepTheStore : Prop :=
  ∀ (cells : List Host.Cell) (c : Instr) (s : State),
    c = .powerOnStart cells ∨ c = .hostRestart cells ∨ c = .recoveryStart cells →
    ∃ t, exec c s = .next t ∧ t.store.waiting = [] ∧
      (∀ a, (∀ op b n, s.store.inflight = some op → op.writes = some (b, n) → a < b ∨ b + n ≤ a) →
        Memory.read t.store.flash a = Memory.read s.store.flash a) ∧
      (∀ o area v body, s.store.inflight = some { owner := o, kind := .recordWrite area v body } →
        readArea [] t.store.flash area = none) ∧
      (∀ o n p sel copy q, s.store.inflight = some { owner := o, kind := .selectorWrite n p sel (some (copy, q)) } →
        readArea [] t.store.flash (.selector copy) = none)

/-- The start sequence settles the selector: of the two copies read the one with the higher sequence number is held, or
booted A without a trial, and a trial's first start writes trial starts 1, a later one the revert, the start after a revert
trial starts 0; the sequence goes on from a failed write, which is retried (R134, R158, R166). It takes the book and the
manifest copies from the store and rebuilds the slots: the booted one ACTIVE; the other FAILED and barred with its manifest
erased when it was reverted, RETAINED when confirmed during a trial, EMPTY without a manifest, and otherwise READY or RETAINED
when every block and the whole image match, EMPTY when not (R79, R167). The order numbers of selector writes are log entry 20,
equal and wrapped sequence numbers log entries 42 and 41, bodies of another length log entry 18, and the blocks of a rebuilt
slot log entry 50 (DESIGN CHOICE); that the two bodies read decide, although a retried write completed between the reads, is log
entry 51 (DESIGN CHOICE); that the slot verified stands EMPTY meanwhile is log entry 27, that the stored book is taken as it
reads, unclamped, log entry 32, and that a recovery start too finds the other slot FAILED and raises TRIAL-REVERTED where its
own write failed with trial starts 2, against R170's sentence that none is raised, log entry 45 (DEDUCED).

The start sequence completes: running time begins at 0, the advert timer runs when the part is configured, the tick
runs, the own path cost and the Pace record take their starting values, the activation state is RESTARTING when this
start wrote a revert, WAITING with a READY slot and IDLE otherwise, and the confirm timer runs when this start began a
trial (R9, R71, R121, R158, R165, R168). What is left on the write retry timer is kept over the reset of running time
(DEDUCED, log entry 25), and so is a retried selector write in the store (DESIGN CHOICE, log entry 55). With the time unknown
no gate opens. The port then takes the messages that waited, oldest first (R165, R171, log entry 24, DESIGN CHOICE). -/
def Obligations.StartSequenceCompletes : Prop :=
  (∀ (n : Nat) (d : Device) (s : State),
    let u := s.clockTo n
    let second := s.readBody d (.selector .one)
    (s.Stands .readSelector0 (.recordRead (.selector .zero)) → exec (.recordReadCompletion n d) s =
      .next (u.awaiting (.readSelector1 (s.readBody d (.selector .zero))) (.recordRead (.selector .one)))) ∧
    (∀ first w, s.Stands (.readSelector1 first) (.recordRead (.selector .one)) → u.Learned first second w →
      let sel := w.act.sel
      let goes := fun t => exec (.recordReadCompletion n d) s = .next t
      (sel.trial = true → sel.trialStarts = 0 → goes (State.writing { w with seq := { s.seq with beginsTrial := true } }
        .writeSelector .trialStart { sel with trialStarts := 1 })) ∧
      (sel.trial = true → sel.trialStarts = 1 ∨ sel.trialStarts = 2 →
        goes (State.writing { w with seq := { s.seq with wroteRevert := true } } .writeSelector .revert
          { sel with booted := sel.confirmed, trial := false, trialStarts := 2 })) ∧
      (sel.trial = false → sel.trialStarts = 2 → goes (State.writing { w with seq := { s.seq with reverted := true } }
        .writeSelector .clearRevert { sel with trialStarts := 0 })) ∧
      (sel.trial = false → sel.trialStarts = 0 ∨ sel.trialStarts = 1 → goes (w.awaiting .readBook (.recordRead .book)))) ∧
    (∀ order p sel copy q, p = .trialStart ∨ p = .revert ∨ p = .clearRevert → s.act.retry = none →
      s.Stands (.writeSelector order) (.selectorWrite order p sel (some (copy, q))) →
      ∃ t, exec (.recordWriteCompletion n d) s = .next t ∧ t.seq = { s.seq with stage := .readBook } ∧
        t.Flies { owner := .start, kind := .recordRead .book } ∧ t.port.notices = s.port.notices ∧
        (d.failed = false → t.act.sel = sel ∧ t.store.copy = some copy ∧ t.store.seqNo = q ∧
          t.store.flash = writeArea s.store.flash (.selector copy) (writeSelector q sel) ∧ t.act.retryDue = s.act.retryDue ∧
          (p = .revert → t.port.dirty.restart = true) ∧ (p ≠ .revert → t.port.dirty = s.port.dirty)) ∧
        (d.failed = true → t.act.sel = s.act.sel ∧ t.store.copy = s.store.copy ∧ t.store.seqNo = s.store.seqNo ∧
          t.port = s.port ∧ t.act.retry = some { order := order, owner := .start, purpose := p, sel := sel } ∧
          t.act.retryDue = some (max s.now n + 1000)))) ∧
  (∀ (n : Nat) (d : Device) (s : State),
    let u := s.clockTo n
    let copy := fun a => match s.readBody d a with
      | some x => if x.length = 1038 ∧ (readManifest x).wellFormed = true then some (readManifest x) else none
      | none => none
    (s.Stands .readBook (.recordRead .book) → exec (.recordReadCompletion n d) s = .next (State.awaiting
      { u with sched := { s.sched with
          book := match s.readBody d .book with | some x => (readBook x).getD Book.emptyBook | none => Book.emptyBook } }
      .readManifestA (.recordRead (.manifest .a)))) ∧
    (s.Stands .readManifestA (.recordRead (.manifest .a)) → exec (.recordReadCompletion n d) s = .next
      (State.awaiting { u with seq := { s.seq with manifestA := copy (.manifest .a) } } .readManifestB (.recordRead (.manifest .b)))) ∧
    (s.Stands .readManifestB (.recordRead (.manifest .b)) →
      let k := s.act.sel.booted
      let mine := match k with | .a => s.seq.manifestA | .b => copy (.manifest .b)
      let spare := match k with | .a => copy (.manifest .b) | .b => s.seq.manifestA
      ∃ t, exec (.recordReadCompletion n d) s = .next t ∧ t.slot k = rebuilt mine .active ∧ t.dist.active = k ∧
        t.act = s.act ∧ t.store.flash = s.store.flash ∧
        (s.seq.reverted = true → s.act.sel.trial = false →
          t.slot k.other = rebuilt spare .failed ∧ t.dist.barred = spare.map Manifest.version ∧
          (s.port.notices.length < 16 → .trialReverted k.other (spare.map Manifest.version) ∈ t.port.notices) ∧
          t.seq.stage = .eraseReverted ∧ t.Flies { owner := .start, kind := .eraseArea (.manifest k.other) }) ∧
        (s.seq.reverted = false → t.dist.barred = s.dist.barred ∧ t.port = s.port ∧
          (s.act.sel.trial = true ∧ s.act.sel.confirmed = k.other →
            t.slot k.other = rebuilt spare .retained ∧ t.seq.stage = .ready ∧ t.StoreIdle) ∧
          (¬(s.act.sel.trial = true ∧ s.act.sel.confirmed = k.other) → spare = none →
            t.slot k.other = SlotRecord.blank ∧ t.seq.stage = .ready ∧ t.StoreIdle) ∧
          (∀ m, ¬(s.act.sel.trial = true ∧ s.act.sel.confirmed = k.other) → spare = some m →
            t.slot k.other = rebuilt spare .empty ∧ t.seq.stage = .verify 0 true ∧
            t.Flies { owner := .start, kind := .verifyBlock k.other m.version 0 (m.blockCrc 0) }))) ∧
    (∀ k, s.Stands .eraseReverted (.eraseArea (.manifest k)) → ∃ flash,
      readArea [] flash (.manifest k) = none ∧ exec (.eraseBlockCompletion n d) s = .next
        { u.holding flash with seq := { s.seq with stage := .ready }, store := { s.store with flash := flash, inflight := none } }) ∧
    (∀ m, (s.slot s.spareSlot).manifest = some m → (s.slot s.spareSlot).version = some m.version → 1 ≤ m.n → m.n ≤ 4096 →
      let k := s.spareSlot
      let bytes := fun base len => overlay d.cells base (Memory.readBytes s.store.flash base len)
      let done := fun r => { u.putSlotRecord k r with
        seq := { s.seq with stage := .ready }, store := { s.store with inflight := none } }
      (∀ b all crc, s.Stands (.verify b all) (.verifyBlock k m.version b crc) →
        let matched := all = true ∧ d.failed = false ∧
          crc32 (bytes (k.base + b * 16384) (1024 * min 16 (m.n - 16 * b))) = crc
        let goes := fun t => exec (.verifyBlockCompletion n d) s = .next t
        (b + 1 < (m.n + 15) / 16 →
          (matched → goes (u.awaiting (.verify (b + 1) true) (.verifyBlock k m.version (b + 1) (m.blockCrc (b + 1))))) ∧
          (¬matched → goes (u.awaiting (.verify (b + 1) false) (.verifyBlock k m.version (b + 1) (m.blockCrc (b + 1)))))) ∧
        ((m.n + 15) / 16 ≤ b + 1 →
          (matched → goes (u.awaiting .check (.checkImage k m.version m.n m.imageCrc))) ∧
          (¬matched → goes (done SlotRecord.blank)))) ∧
      (∀ crc, s.Stands .check (.checkImage k m.version m.n crc) →
        let matched := d.failed = false ∧ crc32 (bytes k.base (m.n * 1024)) = crc
        let r := s.slot k
        let goes := fun t => exec (.checkImageCompletion n d) s = .next t
        (matched → s.IsNewer m.version → goes (done { r with state := .ready })) ∧
        (matched → ¬s.IsNewer m.version → goes (done { r with state := .retained })) ∧
        (¬matched → goes (done SlotRecord.blank))))) ∧
  ∀ (n : Nat) (s : State), s.seq.stage = .ready → s.MarksClear → s.time.rank = 15 → s.act.activateNow = false →
    ∃ t, exec (.startSequenceComplete n) s = .next t ∧ LinkTaken
      { s with
        now := 0
        seq := { s.seq with stage := .running }
        peers := { s.peers with
          ownPath := if s.cfg.gateway then 0 else 63
          advertDue := if 1 ≤ s.cfg.nodeId ∧ s.cfg.nodeId ≤ 63 then some s.cfg.period else none }
        time := { s.time with tickDue := some 1000 }
        prio := { s.prio with pace := { interval := none, burst := if s.cfg.fixedPace then 2500 else 30000 } }
        act := { s.act with
          state := if s.seq.wroteRevert then .restarting
            else if (s.slot s.dist.active.other).state = .ready then .waiting else .idle
          confirmDue := if s.seq.beginsTrial then some 600000 else none
          retryDue := s.act.retryDue.map fun due => due - max s.now n } } t

/-! ### Frames on arrival -/

/-- A frame the radio delivers: an acceptable one joins the tail of the receive queue and ends the overflow run, or,
with 8 frames queued, is dropped with RX-OVERFLOW at the first drop of a run; any other frame has no effect; nor has any
frame while the part is unconfigured (R2, R3, R4, R8). The run mark is clear at a start. A notice that is raised joins the tail
of the notices, or, with 16 held, is dropped and the overflow flag set (R176). -/
def Obligations.ArrivingFramesAreQueuedOrDropped : Prop :=
  (∀ (x : Notice) (s : State),
    (s.port.notices.length < 16 → s.raise x = { s with port := { s.port with notices := s.port.notices ++ [x] } }) ∧
    (16 ≤ s.port.notices.length → s.raise x = { s with port := { s.port with overflow := true } })) ∧
  (∀ (n : Nat) (w : WireFrame) (s : State), s.running = true → 1 ≤ s.cfg.nodeId → s.cfg.nodeId ≤ 63 →
    let u := s.clockTo n
    (∀ f, s.Accepts w f → s.pli.rx.length < 8 →
      exec (.frameReceived n w) s = .next { u with pli := { u.pli with rx := u.pli.rx ++ [f], rxRun := false } }) ∧
    (∀ f, s.Accepts w f → 8 ≤ s.pli.rx.length → s.pli.rxRun = false →
      exec (.frameReceived n w) s =
        .next (State.raise (.rxOverflow f.sender f.body.kind) { u with pli := { u.pli with rxRun := true } })) ∧
    (∀ f, s.Accepts w f → 8 ≤ s.pli.rx.length → s.pli.rxRun = true → exec (.frameReceived n w) s = .next u) ∧
    ((¬∃ f, s.Accepts w f) → exec (.frameReceived n w) s = .next u)) ∧
  (∀ (n : Nat) (w : WireFrame) (s : State), s.cfg.nodeId = 0 ∨ 63 < s.cfg.nodeId →
    exec (.frameReceived n w) s = .next (s.clockTo n)) ∧
  (∀ (c : Instr) (s t : State), IsStart c → exec c s = .next t → t.pli.rxRun = false)

/-- An ADVERT from this node's own id changes nothing and raises ID-CONFLICT; one with a field outside its range is
ignored as a whole (R13); so is one from an unknown sender while the Peer Table holds 15 entries (R14). -/
def Obligations.AdvertsAreIgnored : Prop :=
  ∀ (n : Nat) (s : State) (f : Frame) (rest : List Frame) (a : Advert), s.Head f rest → f.body = .advert a → s.MarksClear →
    (f.sender = s.cfg.nodeId → exec (.advert n) s = .next ((s.taking n rest).raise (.idConflict s.cfg.nodeId))) ∧
    (f.sender ≠ s.cfg.nodeId →
      63 < a.pathCost ∨ 64 < a.clientCount ∨ 64 < a.freeSlots ∨ a.clientCount + a.freeSlots ≠ 64 ∨ 1000 < a.reserved ∨
        15 < a.timeRank ∨ 16 < a.sightings.length ∨ 63 < a.bookOrigin ∨
        (∃ g ∈ a.sightings, 3 < g.age ∨ g.smoothed < -400 ∨ -80 < g.smoothed) →
      exec (.advert n) s = .next (s.taking n rest)) ∧
    (f.sender ≠ s.cfg.nodeId → s.peer f.sender = none → 15 ≤ s.peers.table.length →
      exec (.advert n) s = .next (s.taking n rest))

/-- An ADVERT that is taken enters its sender in the Peer Table: a known entry takes the contents, the heard time and is
fresh, with its link cost and suspect-until time kept; an unknown sender gets an entry with link cost 31 and no
suspect-until time and raises PEER-JOINED; every other entry is as before, and the own path cost is recomputed (R14, R17).
Its sightings of clients held here are filed in order once the unusable entries are gone (R19, R20). A higher book is
requested unless staging collects it or a higher one (R80); a version that may be filled starts a fill, and its manifest is
requested (R145, R146); nothing else is sent. An EVACUATING node that hears a lower node id evacuate returns to WAITING
(R163). Where parts of one ADVERT could bear on each other a clause stands with the time not adopted. R14 leaves the order of
these parts open, and three outcomes rest on the model's (DESIGN CHOICE, log entry 9): BOOK-REQUEST goes out before
MANIFEST-REQUEST where one ADVERT calls for both; a WAITING controller is left IDLE by a fill that starts, whatever its gates,
since the image fields come before the gate test; and an EVACUATING one returns to WAITING whatever the target, since the image
fields find it EVACUATING and start no fill. -/
def Obligations.AdvertEntersThePeerTable : Prop :=
  (∀ (n : Nat) (s : State) (f : Frame) (rest : List Frame) (a : Advert), s.Head f rest → f.body = .advert a →
    f.sender ≠ s.cfg.nodeId → a.inRange = true →
    (∀ p, s.peer f.sender = some p → ∃ t, exec (.advert n) s = .next t ∧
      t.peer f.sender = some { p with advert := a, heardAt := max s.now n, fresh := true } ∧
      (∀ id, id ≠ f.sender → t.peer id = s.peer id) ∧ t.PathIsLeast) ∧
    (s.peer f.sender = none → s.peers.table.length < 15 → ∃ t, exec (.advert n) s = .next t ∧
      t.peer f.sender =
        some { id := f.sender, advert := a, heardAt := max s.now n, linkCost := 31, fresh := true, suspectUntil := none } ∧
      (∀ id, id ≠ f.sender → t.peer id = s.peer id) ∧ t.PathIsLeast ∧
      (s.port.notices.length < 16 → .peerJoined f.sender ∈ t.port.notices))) ∧
  (∀ (n : Nat) (s : State) (f : Frame) (rest : List Frame) (a : Advert), s.Head f rest → f.body = .advert a →
    f.sender ≠ s.cfg.nodeId → a.inRange = true → s.MarksClear →
    (s.peer f.sender).isSome = true ∨ s.peers.table.length < 15 →
    let now := max s.now n
    let u := s.taking n rest
    let sp := s.slot s.spareSlot
    let v := a.target
    let higher := fun v' o' => v' < a.bookVersion ∨ (v' = a.bookVersion ∧ o' < a.bookOrigin)
    let asksBook := higher s.sched.book.version s.sched.book.origin ∧ ∀ g, s.sched.staging = some g → higher g.version g.origin
    let unbarred := ∀ w, s.dist.barred = some w → w < v
    let starts := s.IsNewer v ∧ unbarred ∧ s.act.sel.trial = false ∧
      ¬((sp.state = .filling ∨ sp.state = .checking ∨ sp.state = .ready) ∧ ∃ w, sp.version = some w ∧ v ≤ w)
    let asksManifest := (s.act.state = .idle ∧ starts) ∨ (sp.state = .filling ∧ sp.version = some v ∧ sp.manifest = none)
    let kept := s.time.rank ≤ a.timeRank + 1
    (s.Calm → kept → ∃ t w, exec (.advert n) s = .next t ∧
      t.peers.sightings = (a.sightings.filter fun g => s.heldHere g.client).foldl
        (fun l g => fileSighting
          { client := g.client, peer := f.sender, smoothed := g.smoothed, validity := (now : Int) - 1000 * g.age } l)
        (s.peers.sightings.filter fun g => (now : Int) ≤ g.validity + 3000) ∧
      (asksBook → w = u.send f.sender .bookRequest) ∧ (¬asksBook → w = u) ∧
      (asksManifest → t.pli = (w.send f.sender (.manifestRequest v)).pli) ∧ (¬asksManifest → t.pli = w.pli) ∧
      (¬(s.act.state = .idle ∧ starts) → (unbarred → t.dist = { s.dist with barred := none }) ∧ (¬unbarred → t.dist = s.dist))) ∧
    (s.act.state = .idle ∨ (s.act.state = .waiting ∧ sp.state = .ready ∧ kept) → starts → ∃ t, exec (.advert n) s = .next t ∧
      t.slot s.spareSlot = { SlotRecord.blank with state := .filling, version := some v } ∧
      t.dist.outstanding = none ∧ t.dist.relay = none ∧ t.dist.busySkip = none ∧ t.dist.manifestOwed = false ∧
      t.dist.barred = none ∧ t.act.state = .idle ∧ (s.act.state = .waiting → t.act.activateNow = false) ∧
      (1 ≤ s.cfg.nodeId → s.cfg.nodeId ≤ 63 → s.txCount < 11 →
        { sender := s.cfg.nodeId, dest := f.sender, body := .manifestRequest v } ∈ t.pli.tx)) ∧
    (s.act.state = .evacuating → kept →
      (a.evacuating = true → f.sender < s.cfg.nodeId → ∃ t, exec (.advert n) s = .next t ∧
        t.act = { s.act with state := .waiting, evacuationDue := none }) ∧
      (a.evacuating = false ∨ s.cfg.nodeId < f.sender → ∃ t, exec (.advert n) s = .next t ∧ t.act = s.act))) ∧
  (∀ (g : SightingEntry) (l : List SightingEntry),
    let same := fun x : SightingEntry => x.client = g.client ∧ x.peer = g.peer
    ((∃ x ∈ l, same x) →
      fileSighting g l = l.map fun x => if x.client = g.client ∧ x.peer = g.peer ∧ x.validity ≤ g.validity then g else x) ∧
    ((∀ x ∈ l, ¬same x) → l.length < 128 → fileSighting g l = l ++ [g]) ∧
    ((∀ x ∈ l, ¬same x) → 128 ≤ l.length → ∀ w ∈ l,
      (∀ x ∈ l, w.smoothed < x.smoothed ∨ (w.smoothed = x.smoothed ∧ (w.validity < x.validity ∨ (w.validity = x.validity ∧
        (w.client.toNat < x.client.toNat ∨ (w.client = x.client ∧ w.peer ≤ x.peer)))))) →
      fileSighting g l =
        if w.smoothed < g.smoothed then l.filter (fun x => ¬(x.client = w.client ∧ x.peer = w.peer)) ++ [g] else l))

/-- The time of an ADVERT that is taken: adopted, with TIME-ADOPTED, when the peer's rank plus 1 is below the own rank,
the ageing timer starting afresh; left unused otherwise (R73, R75). The sender has an entry or is entered. -/
def Obligations.AdvertAdoptsABetterTime : Prop :=
  ∀ (n : Nat) (s : State) (f : Frame) (rest : List Frame) (a : Advert), s.Head f rest → f.body = .advert a →
    f.sender ≠ s.cfg.nodeId → a.inRange = true → (s.peer f.sender).isSome = true ∨ s.peers.table.length < 15 →
    (a.timeRank + 1 < s.time.rank → a.timeRank + 1 < 15 → ∃ t, exec (.advert n) s = .next t ∧
      t.time = { s.time with
        mesh := a.meshTime, rank := a.timeRank + 1, ageingDue := some (max s.now n + 86400000)
        minuteMark := a.meshTime / 60, dayMark := max s.time.dayMark (a.meshTime / 86400) } ∧
      (s.port.notices.length < (if (s.peer f.sender).isSome then 16 else 15) →
        .timeAdopted f.sender (a.timeRank + 1) ∈ t.port.notices)) ∧
    (s.time.rank ≤ a.timeRank + 1 → ∃ t, exec (.advert n) s = .next t ∧ t.time = s.time)


/-! ### Observations -/

/-- A SIGHTING of a client held here is ignored; any other smooths the client's Heard List entry, or enters a first
sample while the list holds fewer than 32 entries, or, with 32, takes the place of the weakest entry when it is strictly
stronger (R18, R39, R40). Nothing else changes. The median of three is the one with at least two of them no higher and at least
two no lower (R40). -/
def Obligations.SightingsEnterTheHeardList : Prop :=
  (∀ a b c : Int, IsMiddle a b c (median a b c)) ∧
  ∀ (n : Nat) (m : HostMsg) (s : State), s.Takes → hostMsgOk .sighting m = true →
    let c := clientField m.body 0
    let x := max (-100) (min (signedByte m.body 6) (-20))
    let e : HeardEntry := { client := c, samples := { s1 := x, s2 := x, s3 := x }, smoothed := 4 * x, last := max s.now n }
    let heard := s.clients.heard
    let answer := fun l : List HeardEntry =>
      exec (.sighting n m) s = .next { s.clockTo n with clients := { s.clients with heard := l } }
    (s.heldHere c = true → exec (.sighting n m) s = .next (s.clockTo n)) ∧
    (s.heldHere c = false →
      ((∃ y ∈ heard, y.client = c) →
        answer (heard.map fun y =>
          if y.client = c then
            { y with
              samples := { s1 := y.samples.s2, s2 := y.samples.s3, s3 := x }
              smoothed := y.smoothed + (4 * median y.samples.s2 y.samples.s3 x - y.smoothed).tdiv 4
              last := max s.now n }
          else y)) ∧
      ((∀ y ∈ heard, y.client ≠ c) → heard.length < 32 → answer (heard ++ [e])) ∧
      ((∀ y ∈ heard, y.client ≠ c) → 32 ≤ heard.length →
        ∀ w ∈ heard,
          (∀ y ∈ heard, w.smoothed < y.smoothed ∨
            (w.smoothed = y.smoothed ∧ (w.last < y.last ∨ (w.last = y.last ∧ w.client.toNat ≤ y.client.toNat)))) →
          answer (if w.smoothed < e.smoothed then heard.filter (fun y => y.client ≠ w.client) ++ [e] else heard)))

/-- A LINK of a peer in the Peer Table sets its link cost, clamped to 31, and the own path cost is recomputed; one of a
peer without an entry, or of this node's own id, is ignored (R16, R17). -/
def Obligations.LinkSetsTheLinkCost : Prop :=
  ∀ (n : Nat) (m : HostMsg) (s : State), s.Takes → hostMsgOk .link m = true →
    let id := field m.body 0 1
    (s.peer id = none ∨ id = s.cfg.nodeId → exec (.link n m) s = .next (s.clockTo n)) ∧
    (∀ p, s.peer id = some p → id ≠ s.cfg.nodeId →
      ∃ t, exec (.link n m) s = .next t ∧ t = { s.clockTo n with peers := t.peers } ∧
        t.peers.sightings = s.peers.sightings ∧ t.peers.advertDue = s.peers.advertDue ∧
        t.peer id = some { p with linkCost := min (field m.body 1 1) 31 } ∧
        (∀ k, k ≠ id → t.peer k = s.peer k) ∧ t.PathIsLeast)

/-- A CLIENT-ACTIVITY sets the active-this-minute flag of a record whose client is associated here, and does nothing
else (R33). -/
def Obligations.ClientActivityIsNoted : Prop :=
  ∀ (n : Nat) (m : HostMsg) (s : State), s.Takes → hostMsgOk .clientActivity m = true →
    let c := clientField m.body 0
    (∀ i r, s.Holds c i r → r.state = .provisional ∨ r.state = .associated ∨ r.state = .offering ∨ r.state = .handing →
      exec (.clientActivity n m) s = .next (State.putRecord i { r with active := true } (s.clockTo n))) ∧
    (∀ i r, s.Holds c i r → r.state = .arriving ∨ r.state = .departed → exec (.clientActivity n m) s = .next (s.clockTo n)) ∧
    (s.findClient c = none → exec (.clientActivity n m) s = .next (s.clockTo n))

/-- A SIGNAL of a client held here is smoothed into its record, which is handed to the Roaming Unit (the record waits in
`handed`, log entry 6): a first sample fills the three samples and the smoothed value is four times it; any other shifts
the samples and moves the smoothed value by a quarter of its difference from four times their median, truncated toward zero,
the median being the middle one of the three (R32, R39, R40). One of any other client is ignored. -/
def Obligations.SignalsAreSmoothedIn : Prop :=
  (∀ a b c : Int, IsMiddle a b c (median a b c)) ∧
  ∀ (n : Nat) (m : HostMsg) (s : State), s.Takes → hostMsgOk .signal m = true →
    let c := clientField m.body 0
    let x := max (-100) (min (signedByte m.body 6) (-20))
    let answer := fun (i : Fin 64) (r : ClientRecord) =>
      exec (.signal n m) s = .next
        { s.clockTo n with
          clients := { s.clients with table := putSlot s.clients.table i (some r), handed := s.clients.handed ++ [c] } }
    (∀ i r, s.Holds c i r → r.state ≠ .departed → r.samples = none → r.smoothed = none →
      answer i { r with samples := some { s1 := x, s2 := x, s3 := x }, smoothed := some (4 * x) }) ∧
    (∀ i r p q, s.Holds c i r → r.state ≠ .departed → r.samples = some p → r.smoothed = some q →
      answer i { r with
        samples := some { s1 := p.s2, s2 := p.s3, s3 := x }
        smoothed := some (q + (4 * median p.s2 p.s3 x - q).tdiv 4) }) ∧
    (∀ i r, s.Holds c i r → r.state = .departed → exec (.signal n m) s = .next (s.clockTo n)) ∧
    (s.findClient c = none → exec (.signal n m) s = .next (s.clockTo n))

/-! ### Timers that end a mark or an entry -/

/-- The expiries that clear one mark or remove one entry and do nothing else: a suspect-until time (R12), a decline hold
and the steer-resistant mark (R36), a hold after an overshoot (R108), a Heard List entry (R18), the staging buffer (R83)
and the outstanding chunk request (R149). Each happens at the time its timer is due. -/
def Obligations.TimersThatOnlyClear : Prop :=
  ∀ s : State, s.running = true →
    (∀ id p d, s.peer id = some p → p.suspectUntil = some d →
      exec (.suspectUntilReached id) s = .next
        { s.clockTo d with
          peers := { s.peers with table := s.peers.table.map fun q => if q.id = id then { q with suspectUntil := none } else q } }) ∧
    (∀ c i r h, s.Holds c i r → r.holds.find? (fun x => x.peer = h.peer) = some h →
      exec (.declineHoldExpiry c h.peer) s = .next
        (State.putRecord i { r with holds := r.holds.filter fun x => x.peer ≠ h.peer } (s.clockTo h.untilTime))) ∧
    (∀ c i r d, s.Holds c i r → r.resistantUntil = some d →
      exec (.steerResistantExpiry c) s = .next (State.putRecord i { r with resistantUntil := none } (s.clockTo d))) ∧
    (∀ j f d, s.flow j = .used f → f.holdUntil = some d →
      exec (.holdUntilReached j) s = .next
        { s.clockTo d with prio := { s.prio with flows := putSlot s.prio.flows j (.used { f with holdUntil := none }) } }) ∧
    (∀ e ∈ s.clients.heard, s.ListsDistinct →
      exec (.heardListExpiry e.client) s = .next
        { s.clockTo (e.last + 3000) with
          clients := { s.clients with heard := s.clients.heard.filter fun x => x.client ≠ e.client } }) ∧
    (∀ g, s.sched.staging = some g →
      exec .stagingTimerExpiry s = .next { s.clockTo g.due with sched := { s.sched with staging := none } }) ∧
    (∀ o, s.dist.outstanding = some o →
      exec .chunkRequestExpiry s = .next { s.clockTo o.due with dist := { s.dist with outstanding := none } })

/-! ### The handoff -/

/-- ACCEPT and DECLINE at the serving node (R56, R57, R53): an ACCEPT from the offer target makes an OFFERING record
HANDING, with 5,000 ms on its timer and its STEER subject dirty; a DECLINE from it for any reason but HELD returns the
record to ASSOCIATED, places a decline hold of 10,000 ms on the sender and raises HANDOFF-FAILED; from any other node, in
any other state or without a record each is ignored, and so is a DECLINE with an unknown reason. A decline hold takes the
place of the peer's own, or joins at most four, or takes that of the one that ends first (R36). -/
def Obligations.AnswersMoveTheOffer : Prop :=
  (∀ (n : Nat) (s : State) (f : Frame) (rest : List Frame) (c : ClientId), s.Head f rest → s.MarksClear → f.body = .accept c →
    (∀ i r, s.Holds c i r → r.state = .offering → r.offerTarget = some f.sender →
      exec (.accept n) s = .next (State.setSteerMark i true
        (State.putRecord i { r with state := .handing, timer := some (max s.now n + 5000) } (s.taking n rest)))) ∧
    (∀ i r, s.Holds c i r → r.state ≠ .offering ∨ r.offerTarget ≠ some f.sender →
      exec (.accept n) s = .next (s.taking n rest)) ∧
    (s.findClient c = none → exec (.accept n) s = .next (s.taking n rest))) ∧
  (∀ (n : Nat) (s : State) (f : Frame) (rest : List Frame) (c : ClientId) (reason : Nat), s.Head f rest → s.MarksClear →
    f.body = .decline c reason →
    (∀ i r, s.Holds c i r → r.state = .offering → r.offerTarget = some f.sender → reason ≤ 5 → reason ≠ 1 →
      exec (.decline n) s = .next (State.raise (.handoffFailed c (.declined reason) (some f.sender))
        (State.putRecord i
          { r with
            state := .associated, offerTarget := none, confirm := 0, timer := none
            holds := placeHold f.sender (max s.now n + 10000) r.holds } (s.taking n rest)))) ∧
    (∀ i r, s.Holds c i r → r.state ≠ .offering ∨ r.offerTarget ≠ some f.sender →
      exec (.decline n) s = .next (s.taking n rest)) ∧
    (s.findClient c = none ∨ 5 < reason → exec (.decline n) s = .next (s.taking n rest))) ∧
  (∀ (p d : Nat) (hs : List Hold),
    ((∃ h ∈ hs, h.peer = p) →
      placeHold p d hs = hs.map fun h => if h.peer = p then { peer := p, untilTime := d } else h) ∧
    ((∀ h ∈ hs, h.peer ≠ p) → hs.length < 4 → placeHold p d hs = hs ++ [{ peer := p, untilTime := d }]) ∧
    ((∀ h ∈ hs, h.peer ≠ p) → 4 ≤ hs.length → ∀ w ∈ hs,
      (∀ h ∈ hs, w.untilTime < h.untilTime ∨ (w.untilTime = h.untilTime ∧ w.peer ≤ h.peer)) →
      placeHold p d hs = hs.map fun h => if h = w then { peer := p, untilTime := d } else h))

/-- A CLAIM for a record held in any state but ARRIVING, and a DECLINE with reason HELD from the offer target of an
OFFERING record, are answered with a CONTEXT; the record is deleted and HANDOFF-DONE raised (R58, R63, R64, R29), while the
FIFO has room for it behind the TX-OVERFLOW of a CONTEXT that is dropped (R7, R176). The CONTEXT carries the client's ADMITTED
flows and behind them its WAITING and IDLE ones, at most 8 (R113). A CLAIM for an ARRIVING record or for no record is
ignored. -/
def Obligations.ClaimsReleaseTheRecord : Prop :=
  ∀ (n : Nat) (s : State) (f : Frame) (rest : List Frame) (c : ClientId) (cmd : Instr), s.Head f rest → s.MarksClear →
    (∀ i r, s.Holds c i r →
      (cmd = .claim n ∧ f.body = .claim c ∧ r.state ≠ .arriving) ∨
        (cmd = .decline n ∧ f.body = .decline c 1 ∧ r.state = .offering ∧ r.offerTarget = some f.sender) →
      ∃ t, exec cmd s = .next t ∧ t.Released c i ∧ (s.Calm → ∀ k, k ≠ i → t.record k = s.record k) ∧
        (s.port.notices.length < 15 ∨ (s.port.notices.length = 15 ∧ (s.txCount < 12 ∨ s.pli.txRun = true)) →
          .handoffDone c f.sender ∈ t.port.notices) ∧
        (1 ≤ s.cfg.nodeId → s.cfg.nodeId ≤ 63 → s.txCount < 12 → ∃ flows, s.CarriesFlows true c flows ∧
          { sender := s.cfg.nodeId
            dest := f.sender
            body := .context
              { client := c
                used := if r.state = .provisional then fallbackFigure (s.sched.book.profileAt r.profile).allowance s.cfg.fallback r.used
                  else r.used
                dayStamp := r.dayStamp
                profile := r.profile
                access := 0
                flows := flows } } ∈ t.pli.tx)) ∧
    (f.body = .claim c → (∀ i r, s.Holds c i r → r.state = .arriving) → exec (.claim n) s = .next (s.taking n rest))

/-- An OFFER is declined with the reason of the first check of R54 that applies: EVACUATING 0, HELD 1, BUSY 2, FULL 3,
WEAK 4, AIRTIME 5; nothing else changes, but that a DEPARTED record of the client is deleted first, whatever the answer. An
OFFER that fails a check of R53 is ignored. -/
def Obligations.OffersAreDeclinedInOrder : Prop :=
  ∀ (n : Nat) (s : State) (f : Frame) (rest : List Frame) (h : Handover), s.Head f rest → s.MarksClear → f.body = .offer h →
    let u := s.taking n rest
    let declines := fun code => exec (.offer n) s = .next (u.send f.sender (.decline h.client code))
    (¬h.Sound ∨ 3 < h.access → exec (.offer n) s = .next u) ∧
    (h.Sound → h.access ≤ 3 → (∀ i r, s.Holds h.client i r → r.state ≠ .departed) →
      (s.Leaving → declines 0) ∧
      (¬s.Leaving →
        (∀ i r, s.Holds h.client i r → r.state ≠ .arriving → declines 1) ∧
        (∀ i r, s.Holds h.client i r → r.state = .arriving → declines 2) ∧
        (s.findClient h.client = none →
          (¬s.HasRoom h → declines 3) ∧
          (s.HasRoom h → s.ListsDistinct → ¬s.HearsWell h.client (max s.now n) → declines 4) ∧
          (s.HasRoom h → s.ListsDistinct → s.HearsWell h.client (max s.now n) → h.flows ≠ [] →
            s.cfg.ceiling < s.viewTotal + (h.flows.map CarriedFlow.share).sum → declines 5)))) ∧
    (∀ i r, h.Sound → h.access ≤ 3 → s.Holds h.client i r → r.state = .departed → s.AirtimeKept → s.FlowsEntitled →
      let declines := fun code => ∃ t, exec (.offer n) s = .next t ∧ t.Released h.client i ∧ t.prio.flows = s.prio.flows ∧
        (s.Calm → ∀ k, k ≠ i → t.record k = s.record k) ∧
        (1 ≤ s.cfg.nodeId → s.cfg.nodeId ≤ 63 → s.txCount < 12 →
          { sender := s.cfg.nodeId, dest := f.sender, body := .decline h.client code } ∈ t.pli.tx)
      (s.Leaving → declines 0) ∧
      (¬s.Leaving →
        (s.freeFlowCount < h.flows.length → declines 3) ∧
        (h.flows.length ≤ s.freeFlowCount → s.ListsDistinct → ¬s.HearsWell h.client (max s.now n) → declines 4) ∧
        (h.flows.length ≤ s.freeFlowCount → s.ListsDistinct → s.HearsWell h.client (max s.now n) → h.flows ≠ [] →
          s.cfg.ceiling < s.viewTotal + (h.flows.map CarriedFlow.share).sum → declines 5)))

/-- An OFFER that no check of R54 declines is accepted (R55, R114): an ARRIVING record in the lowest empty slot with the
values of R55 and the access worked out for it (R93), one RESERVED flow for each flow carried with the OFFER's figures, their shares in own reserved airtime,
6,000 ms on the timer, and ACCEPT to the sender. A DEPARTED record of the client is deleted first (R54), and with every slot
occupied the record takes the slot of the DEPARTED record that departed first (R23). Stated for distinct digests. -/
def Obligations.OffersAreAccepted : Prop :=
  ∀ (n : Nat) (s : State) (f : Frame) (rest : List Frame) (h : Handover) (i : Fin 64) (a : Access),
    s.Head f rest → s.MarksClear → s.AirtimeKept → s.ListsDistinct → f.body = .offer h →
    1 ≤ s.cfg.nodeId → s.cfg.nodeId ≤ 63 → h.Sound → accessOfCode h.access = some a → ¬s.Leaving →
    s.HasRoom h → s.HearsWell h.client (max s.now n) →
    (h.flows = [] ∨ s.viewTotal + (h.flows.map CarriedFlow.share).sum ≤ s.cfg.ceiling) →
    (h.flows.map CarriedFlow.digest).Nodup →
    (s.findClient h.client = none ∧ s.record i = none ∧ ∀ k, k < i → s.record k ≠ none) ∨
      (s.FlowsEntitled ∧ ∃ j q, s.Holds h.client j q ∧ q.state = .departed ∧ (i = j ∨ s.record i = none) ∧
        ∀ k, k < i → k ≠ j ∧ s.record k ≠ none) ∨
      (s.FlowsEntitled ∧ s.findClient h.client = none ∧ (∀ k, s.record k ≠ none) ∧
        ∃ q d, s.record i = some q ∧ q.state = .departed ∧ q.departure = some d ∧
          ∀ k x, s.record k = some x → x.state = .departed → ∃ e, x.departure = some e ∧ (d < e ∨ (d = e ∧ i ≤ k))) →
    let r : ClientRecord :=
      { client := h.client, state := .arriving, linkRate := 6, steerable := false, samples := none, smoothed := none
        profile := h.profile, used := h.used, dayStamp := h.dayStamp, countedHere := 0, access := a, active := false
        contextAwaited := false, candidate := none, confirm := 0, offerTarget := none, holds := [], steerAttempts := 0
        resistantUntil := none, arrival := max s.now n, departure := none, timer := some (max s.now n + 6000) }
    ∃ t, exec (.offer n) s = .next t ∧ t.record i = some { r with access := s.accessOf r } ∧
      (∀ k, k ≠ i → t.record k = if s.findClient h.client = some k then none else s.record k) ∧
      (∀ g ∈ h.flows, ∃ j x, t.flow j = .used x ∧ x.client = h.client ∧ x.slot = i ∧ x.digest = g.digest ∧
        x.state = .reserved ∧ x.cls = some .game ∧ x.share = some g.share ∧ x.meanInterval = some g.interval) ∧
      (∀ j x, s.flow j = .used x → t.flow j = .used x) ∧
      t.ownReserved = s.ownReserved + (h.flows.map CarriedFlow.share).sum ∧
      (s.txCount < 12 → { sender := s.cfg.nodeId, dest := f.sender, body := .accept h.client } ∈ t.pli.tx)

/-- A CONTEXT for a record that awaits it (R65, R66, R67): an ASSOCIATED, OFFERING or HANDING record merges its day stamp
and used minutes and waits no longer; a PROVISIONAL record is resolved with them, becomes ASSOCIATED, its timer stops and
no flow of its client waits for context any more. The access state is worked out again for the record so written, and a change
of it acts on the client's flows (R112). The flows that the CONTEXT carries for a PROVISIONAL record, of distinct digests, are
entered, waiting, with their CLASS subjects dirty, and every flow of the client that waits for context is tested (R107, R115,
R117); that the access is worked out before these tests is log entry 53 (DESIGN CHOICE). A record that does not await context,
or is ARRIVING or DEPARTED, is left as it is. -/
def Obligations.ContextsAreMerged : Prop :=
  ∀ (n : Nat) (s : State) (f : Frame) (rest : List Frame) (h : Handover), s.Head f rest → s.MarksClear → s.Calm →
    f.body = .context h →
    let u := s.taking n rest
    (∀ i r, s.Holds h.client i r → h.Sound → r.contextAwaited = true →
      (∀ day used,
        (h.dayStamp = r.dayStamp → day = r.dayStamp ∧ used = min 1440 (max r.used (h.used + r.countedHere))) →
        (h.dayStamp < r.dayStamp → day = r.dayStamp ∧ used = min 1440 (max r.used r.countedHere)) →
        (r.dayStamp < h.dayStamp → day = h.dayStamp ∧ used = min 1440 (h.used + r.countedHere)) →
        r.state = .associated ∨ r.state = .offering ∨ r.state = .handing →
        let q := { r with dayStamp := day, used := used, contextAwaited := false }
        ∃ t, exec (.context n) s = .next t ∧ t.record i = some { q with access := u.accessOf q } ∧
          (∀ k, k ≠ i → t.record k = s.record k) ∧
          (s.AirtimeKept → s.AccessMoves t h.client r.access (u.accessOf q) (max s.now n))) ∧
      (∀ day used,
        (h.dayStamp = r.dayStamp → day = r.dayStamp ∧ used = min 1440 (h.used + r.countedHere)) →
        (h.dayStamp < r.dayStamp → day = r.dayStamp ∧ used = min 1440 r.countedHere) →
        (r.dayStamp < h.dayStamp → day = h.dayStamp ∧ used = min 1440 (h.used + r.countedHere)) →
        r.state = .provisional → s.AirtimeKept →
        let q := { r with state := .associated, dayStamp := day, used := used, contextAwaited := false, timer := none }
        ∃ t, exec (.context n) s = .next t ∧ t.record i = some { q with access := u.accessOf q } ∧
          (∀ k, k ≠ i → t.record k = s.record k) ∧
          (∀ j x, t.flow j = .used x → x.client = h.client → x.state = .waiting → x.reason ≠ some .context) ∧
          (s.OnlyAwaits h.client → (h.flows.map CarriedFlow.digest).Nodup → ∃ v, s.Enters v i h.client (max s.now n) h.flows ∧
            v.Resolves t h.client (u.accessOf q) (max s.now n) ∧ ∀ j, v.flow j ≠ s.flow j → t.port.dirty.cls[j] = true))) ∧
    (∀ i r, s.Holds h.client i r → r.contextAwaited = false ∨ r.state = .arriving ∨ r.state = .departed →
      exec (.context n) s = .next u) ∧
    (s.findClient h.client = none ∨ ¬h.Sound → exec (.context n) s = .next u)

/-- The handoff timer's expiries (R59, R60, R69, R68): an OFFERING record returns to ASSOCIATED with a decline hold on its
target; a HANDING record returns to ASSOCIATED with one more steer attempt, at the third steer-resistant for 600,000 ms,
and its STEER subject dirty; both raise HANDOFF-FAILED. An ARRIVING record is deleted. A PROVISIONAL record becomes
ASSOCIATED on the fallback figure of its allowance, and its client's flows that wait for context are tested at the access then
worked out (R107, R115; the order is log entry 53, DESIGN CHOICE). -/
def Obligations.HandoffTimersExpire : Prop :=
  ∀ (s : State) (c : ClientId) (i : Fin 64) (r : ClientRecord) (d : Nat), s.running = true → s.MarksClear → s.Holds c i r →
    r.timer = some d →
    let now := max s.now d
    (∀ p, r.state = .offering → r.offerTarget = some p →
      exec (.offeringExpiry c) s = .next (State.raise (.handoffFailed c .timeout (some p))
        (State.putRecord i
          { r with
            state := .associated, offerTarget := none, confirm := 0, timer := none
            holds := placeHold p (now + 10000) r.holds } (s.clockTo d)))) ∧
    (r.state = .handing →
      exec (.handingExpiry c) s = .next (State.raise (.handoffFailed c .timeout r.offerTarget) (State.setSteerMark i true
        (State.putRecord i
          { r with
            state := .associated, offerTarget := none, timer := none
            steerAttempts := if r.steerAttempts < 2 then r.steerAttempts + 1 else 0
            resistantUntil := if r.steerAttempts < 2 then r.resistantUntil else some (now + 600000) } (s.clockTo d))))) ∧
    (r.state = .arriving → ∃ t, exec (.arrivingExpiry c) s = .next t ∧ t.Released c i ∧
      (s.Calm → ∀ k, k ≠ i → t.record k = s.record k)) ∧
    (r.state = .provisional → s.Calm → s.AirtimeKept →
      let used := match (s.sched.book.profileAt r.profile).allowance with
        | some a => max r.used (a - min a s.cfg.fallback)
        | none => r.used
      let q := { r with state := .associated, used := used, contextAwaited := false, timer := none }
      ∃ t, exec (.provisionalExpiry c) s = .next t ∧ t.record i = some { q with access := s.accessOf q } ∧
        (∀ k, k ≠ i → t.record k = s.record k) ∧
        (∀ j x, t.flow j = .used x → x.client = c → x.state = .waiting → x.reason ≠ some .context) ∧
        (s.OnlyAwaits c → s.Resolves t c (s.accessOf q) now))

/-! ### Clients -/

/-- An ASSOCIATE for a client without a record (R22, R23, R24, R25): a PROVISIONAL record in the lowest empty slot, its
ACCESS subject dirty, its Heard List and refusal list entries removed and CLAIM broadcast; with every slot occupied, the same
in the slot of the DEPARTED record that departed first; with every slot held, the client joins the refusal list. A steerable
byte other than 0 is taken as yes (DESIGN CHOICE, log entry 18). -/
def Obligations.AssociateCreatesARecord : Prop :=
  ∀ (n : Nat) (m : HostMsg) (s : State), s.Takes → s.MarksClear → hostMsgOk .associate m = true →
    let c := clientField m.body 0
    s.findClient c = none →
    (∀ i, s.record i = none → (∀ k, k < i → s.record k ≠ none) →
      exec (.associate n m) s = .next (State.send 0 (.claim c) (State.setAccessMark i true
        { s.clockTo n with
          clients := { s.clients with
            table := putSlot s.clients.table i (some (s.newRecord n m))
            heard := s.clients.heard.filter fun e => e.client ≠ c
            refusals := s.clients.refusals.filter fun x => x ≠ c } }))) ∧
    (∀ i r d, (∀ k, s.record k ≠ none) → s.record i = some r → r.state = .departed → r.departure = some d → s.Calm →
      (∀ k q, s.record k = some q → q.state = .departed → ∃ e, q.departure = some e ∧ (d < e ∨ (d = e ∧ i ≤ k))) →
      ∃ t, exec (.associate n m) s = .next t ∧ t.record i = some (s.newRecord n m) ∧
        (∀ k, k ≠ i → t.record k = s.record k) ∧ t.port.dirty.access[i] = true ∧
        t.clients.heard = s.clients.heard.filter (fun e => e.client ≠ c) ∧
        t.clients.refusals = s.clients.refusals.filter (fun x => x ≠ c) ∧
        (1 ≤ s.cfg.nodeId → s.cfg.nodeId ≤ 63 → s.txCount < 12 →
          { sender := s.cfg.nodeId, dest := 0, body := .claim c } ∈ t.pli.tx)) ∧
    ((∀ k, ∃ q, s.record k = some q ∧ q.state ≠ .departed) →
      exec (.associate n m) s = .next
        { s.clockTo n with
          clients := { s.clients with
            refusals := if c ∈ s.clients.refusals then s.clients.refusals
              else if s.clients.refusals.length < 8 then s.clients.refusals ++ [c]
              else s.clients.refusals.drop 1 ++ [c] } })

/-- An ASSOCIATE for a client with a record (R26, R27, R28): one associated here takes the link rate alone; a DEPARTED
record returns to ASSOCIATED with its context; an ARRIVING record becomes ASSOCIATED and awaits context, its RESERVED flows
are admitted when its access is OPEN and wait with reason CAP otherwise (R115), and CLAIM is broadcast. Both have their
access worked out again, their ACCESS subject dirty and their Heard List entry removed. That the access of an ARRIVING record
is worked out before its flows are settled, so that they follow the new access without a test, is log entry 56 (DESIGN CHOICE).
A steerable byte other than 0 is taken as yes (DESIGN CHOICE, log entry 18). -/
def Obligations.AssociateFindsARecord : Prop :=
  ∀ (n : Nat) (m : HostMsg) (s : State) (i : Fin 64) (r : ClientRecord), s.Takes → s.MarksClear →
    hostMsgOk .associate m = true → s.Holds (clientField m.body 0) i r →
    let c := clientField m.body 0
    let rate := max 6 (min (field m.body 6 2) 2400)
    let now := max s.now n
    (r.state ≠ .departed → r.state ≠ .arriving →
      exec (.associate n m) s = .next (State.putRecord i { r with linkRate := rate } (s.clockTo n))) ∧
    (r.state = .departed → s.Calm →
      let q := { r with
        state := .associated, linkRate := rate, steerable := field m.body 8 1 != 0, samples := none, smoothed := none
        candidate := none, confirm := 0, holds := [], contextAwaited := false, arrival := now, departure := none }
      ∃ t, exec (.associate n m) s = .next t ∧ t.record i = some { q with access := s.accessOf q } ∧
        t.port.dirty.access[i] = true ∧ (∀ e ∈ t.clients.heard, e.client ≠ c) ∧ t.pli = s.pli ∧
        ∀ k, k ≠ i → t.record k = s.record k) ∧
    (r.state = .arriving → s.Calm → s.AirtimeKept →
      let q := { r with
        state := .associated, linkRate := rate, steerable := field m.body 8 1 != 0, countedHere := 0, samples := none
        smoothed := none, contextAwaited := true, candidate := none, confirm := 0, holds := [], steerAttempts := 0
        resistantUntil := none, arrival := now, timer := none }
      ∃ t, exec (.associate n m) s = .next t ∧ t.record i = some { q with access := s.accessOf q } ∧
        t.port.dirty.access[i] = true ∧ (∀ e ∈ t.clients.heard, e.client ≠ c) ∧ (∀ k, k ≠ i → t.record k = s.record k) ∧
        (∀ j f, s.flow j = .used f → f.client = c → f.state = .reserved → t.flow j = .used
          (if s.accessOf q = .opened then
            { f with state := .admitted, classifiedAt := some now, admittedAt := some now, lastActivity := now }
          else { f with state := .waiting, reason := some .cap, classifiedAt := some now, lastActivity := now })) ∧
        (1 ≤ s.cfg.nodeId → s.cfg.nodeId ≤ 63 → s.txCount < 12 →
          { sender := s.cfg.nodeId, dest := 0, body := .claim c } ∈ t.pli.tx))

/-- A DISASSOCIATE of a client associated here makes its record DEPARTED with the values of R30, its STEER subject dirty
when it was HANDING, and removes its flows; of any other client it is ignored (R30). -/
def Obligations.DisassociateDeparts : Prop :=
  ∀ (n : Nat) (m : HostMsg) (s : State), s.Takes → s.MarksClear → hostMsgOk .disassociate m = true →
    let c := clientField m.body 0
    (∀ i r, s.Holds c i r → r.state = .provisional ∨ r.state = .associated ∨ r.state = .offering ∨ r.state = .handing →
      ∃ t, exec (.disassociate n m) s = .next t ∧
        t.record i = some
          { r with
            state := .departed, departure := some (max s.now n), timer := none, offerTarget := none, candidate := none
            confirm := 0, holds := [], contextAwaited := false, samples := none, smoothed := none, active := false } ∧
        (r.state = .handing → t.port.dirty.steer[i] = true) ∧ (∀ j f, t.flow j = .used f → f.client ≠ c) ∧
        (s.Calm → ∀ k, k ≠ i → t.record k = s.record k)) ∧
    (∀ i r, s.Holds c i r → r.state = .arriving ∨ r.state = .departed → exec (.disassociate n m) s = .next (s.clockTo n)) ∧
    (s.findClient c = none → exec (.disassociate n m) s = .next (s.clockTo n))

/-! ### Scoring -/

/-- An evaluation of the record handed on first (R41, R42, R46, R47, R48): only an ASSOCIATED record with a smoothed value
is evaluated; one that may not trigger, or whose best candidate misses the margin, loses its candidate; the first
favourable evaluation of a candidate counts 1; the second opens an OFFER toward it. The sightings of the client that are
too old are discarded when they are examined (R20). -/
def Obligations.EvaluationsCountOrOffer : Prop :=
  ∀ (n : Nat) (s : State) (c : ClientId) (rest : List ClientId) (i : Fin 64) (r : ClientRecord), s.running = true →
    s.MarksClear → s.clients.handed = c :: rest → s.Holds c i r →
    let now := max s.now n
    let u : State := { s.clockTo n with clients := { s.clients with handed := rest } }
    let v : State :=
      { u with
        peers := { u.peers with
          sightings := u.peers.sightings.filter fun g => g.client ≠ c ∨ (now : Int) ≤ g.validity + 3000 } }
    let reset := { r with candidate := none, confirm := 0 }
    (r.state ≠ .associated ∨ r.smoothed = none → exec (.evaluation n) s = .next u) ∧
    (∀ q, r.state = .associated → r.smoothed = some q →
      let weak := q < 4 * s.cfg.weakFloor
      let eligible := s.cfg.steering = true ∧ r.steerable = true ∧ r.resistantUntil = none ∧ (r.arrival + 30000 ≤ now ∨ weak)
      (¬eligible → exec (.evaluation n) s = .next (State.putRecord i reset u)) ∧
      (eligible →
        (v.bestCandidate r = none → exec (.evaluation n) s = .next (State.putRecord i reset v)) ∧
        (∀ p score margin, v.bestCandidate r = some (p, score) →
          (weak → margin = 8) →
          (¬weak → (∃ j f, s.flow j = .used f ∧ f.client = c ∧ f.state = .admitted) → margin = 8 * s.cfg.hysteresis) →
          (¬weak → ¬(∃ j f, s.flow j = .used f ∧ f.client = c ∧ f.state = .admitted) → margin = 4 * s.cfg.hysteresis) →
          (score < q + margin → exec (.evaluation n) s = .next (State.putRecord i reset v)) ∧
          (q + margin ≤ score → r.candidate ≠ some p →
            exec (.evaluation n) s = .next (State.putRecord i { r with candidate := some p, confirm := 1 } v)) ∧
          (q + margin ≤ score → r.candidate = some p → r.confirm = 0 →
            exec (.evaluation n) s = .next (State.putRecord i { r with confirm := 1 } v)) ∧
          (q + margin ≤ score → r.candidate = some p → r.confirm = 1 →
            let q1 := { r with state := .offering, offerTarget := some p, confirm := 0, timer := some (now + 400) }
            ∃ flows, s.CarriesFlows false c flows ∧ exec (.evaluation n) s = .next (State.send p
              (.offer { client := c, used := r.used, dayStamp := r.dayStamp, profile := r.profile, access := r.access.code
                        flows := flows }) (State.putRecord i q1 v))))))

/-- The best candidate of a record is the eligible candidate with the highest score, the lowest node id among equals; there
is none when no peer with a sighting of the client is eligible (R43, R44, R45). A score lies within −504..−16 q (R44). -/
def Obligations.BestCandidateIsTheHighest : Prop :=
  ∀ (s : State) (r : ClientRecord),
    (s.bestCandidate r = none ↔
      ∀ g ∈ s.peers.sightings, ∀ p, g.client = r.client → s.peer g.peer = some p → ¬p.MayServe r) ∧
    (∀ id x, s.bestCandidate r = some (id, x) →
      (∃ g ∈ s.peers.sightings, ∃ p, g.client = r.client ∧ s.peer g.peer = some p ∧ p.MayServe r ∧ p.id = id ∧ s.ScoreIs g p x) ∧
      (∀ g ∈ s.peers.sightings, ∀ p y, g.client = r.client → s.peer g.peer = some p → p.MayServe r → s.ScoreIs g p y →
        y < x ∨ (y = x ∧ id ≤ p.id))) ∧
    (∀ g p x, s.ScoreIs g p x → -400 ≤ g.smoothed → g.smoothed ≤ -80 → -504 ≤ x ∧ x ≤ -16)

/-! ### Flows -/

/-- A FLOW-SAMPLE for a client associated here (R103, R104, R107): a first sample makes a SAMPLING flow in the lowest free
slot; a full table leaves the flow untracked; further samples are appended; the sixteenth classifies the flow, a GAME flow
by the admission test, and its CLASS subject is dirty. A sample of a flow past SAMPLING renews it and is not stored, and one
that is IDLE, or WAITING and quiet for 10,000 ms without a hold or reason CONTEXT, is put to the admission test (R109). For
any other client, such as one whose flows are RESERVED, it is ignored. -/
def Obligations.FlowSamplesAreTaken : Prop :=
  ∀ (n : Nat) (m : HostMsg) (s : State), s.Takes → s.MarksClear → hostMsgOk .flowSample m = true →
    let c := clientField m.body 0
    let d := digestField m.body 6
    let x : FlowSample := { size := max 1 (min (field m.body 10 2) 1500), stamp := field m.body 12 2 }
    let now := max s.now n
    let put := fun (j : Fin 128) (f : FlowRecord) =>
      exec (.flowSample n m) s = .next
        { s.clockTo n with prio := { s.prio with flows := putSlot s.prio.flows j (.used f) } }
    (∀ i r, s.Holds c i r → r.Here →
      (∀ j, s.findFlow c d = none → s.flow j = .free → (∀ k, k < j → s.flow k ≠ .free) →
        put j { digest := d, slot := i, client := c, state := .sampling, samples := [x], cls := none, meanSize := none
                meanInterval := none, share := none, classifiedAt := none, admittedAt := none, lastActivity := now
                reason := none, holdUntil := none }) ∧
      (s.findFlow c d = none → (∀ k, s.flow k ≠ .free) → exec (.flowSample n m) s = .next (s.clockTo n)) ∧
      (∀ j f, s.findFlow c d = some j → s.flow j = .used f → f.state = .sampling → f.samples.length < 15 →
        put j { f with samples := f.samples ++ [x], lastActivity := now }) ∧
      (∀ j f, s.findFlow c d = some j → s.flow j = .used f → f.state = .sampling → f.samples.length = 15 → s.Calm →
        let xs := f.samples ++ [x]
        let g := { f with
          samples := xs, lastActivity := now, meanSize := some (meanSizeOf xs), meanInterval := some (meanIntervalOf xs) }
        ∃ t, exec (.flowSample n m) s = .next t ∧ t.port.dirty.cls[j] = true ∧ t.clients = s.clients ∧
          (∀ k, k ≠ j → t.flow k = s.flow k) ∧
          (classOf xs = .bulk → t.flow j = .used { g with cls := some .bulk, state := .bulk }) ∧
          (classOf xs = .standard → t.flow j = .used { g with cls := some .standard, state := .standard }) ∧
          (classOf xs = .game → t.flow j = .used (s.tested now r
            { g with
              cls := some .game, classifiedAt := some now
              share := some (shareOf (meanSizeOf xs) (meanIntervalOf xs) r.linkRate) }))) ∧
      (∀ j f, s.findFlow c d = some j → s.flow j = .used f → f.state ≠ .sampling → f.slot = i → s.Calm →
        let quiet := f.state = .waiting ∧ f.lastActivity + 10000 ≤ now ∧ f.holdUntil = none ∧ f.reason ≠ some .context
        ∃ t, exec (.flowSample n m) s = .next t ∧ t.clients = s.clients ∧ (∀ k, k ≠ j → t.flow k = s.flow k) ∧
          (f.state ≠ .idle → ¬quiet → t.flow j = .used { f with lastActivity := now }) ∧
          (f.state = .idle ∨ quiet → t.flow j = .used (s.tested now r { f with lastActivity := now })))) ∧
    (∀ i r, s.Holds c i r → ¬r.Here → exec (.flowSample n m) s = .next (s.clockTo n)) ∧
    (s.findClient c = none → exec (.flowSample n m) s = .next (s.clockTo n))

/-- The class of 16 samples and the share of a GAME flow (R104, R105): the class by mean size, mean interval and the spread
of the 15 intervals modulo 65,536; the share from the packets a second and the airtime of one, each rounded up. -/
def Obligations.ClassAndShareFollowTheSamples : Prop :=
  (∀ xs : List FlowSample, xs.length = 16 → (∀ x ∈ xs, x.stamp < 65536) →
    let stamp : Nat → Int := fun i => ((xs.map FlowSample.stamp).getD i 0 : Nat)
    let gap : Nat → Int := fun i => (stamp (i + 1) - stamp i) % 65536
    let size := (xs.map FlowSample.size).sum / 16
    let interval := (stamp 15 - stamp 0) % 65536 / 15
    let game := size ≤ 320 ∧ 5 ≤ interval ∧ interval ≤ 60 ∧ ∀ i, i < 15 → ∀ j, j < 15 → gap i - gap j ≤ interval / 2
    (game → classOf xs = .game) ∧ (¬game → 1000 ≤ size → classOf xs = .bulk) ∧ (¬game → size < 1000 → classOf xs = .standard)) ∧
  (∀ size interval rate : Nat, 0 < interval → 0 < rate →
    let pps : Nat := ⌈(1000 : ℚ) / interval⌉₊
    let cost : Nat := 300 + ⌈(size : ℚ) * 8 / rate⌉₊
    shareOf size interval rate = max 1 (min 250 ⌈(2 : ℚ) * pps * cost / 1000⌉₊))

/-- A FLOW-ACTIVE of a client associated here marks its record active (R33) and acts on the flow (R109): a flow that is
SAMPLING, ADMITTED, STANDARD or BULK is renewed; one that is IDLE, or WAITING and quiet for 10,000 ms without a hold or
reason CONTEXT, is renewed and put to the admission test; any other WAITING flow is renewed. Without a flow record only
the mark is set, and a client not associated here, whose flows can only be RESERVED, changes nothing. -/
def Obligations.FlowActivityRenewsOrTests : Prop :=
  ∀ (n : Nat) (m : HostMsg) (s : State), s.Takes → s.MarksClear → hostMsgOk .flowActive m = true →
    let c := clientField m.body 0
    let d := digestField m.body 6
    let now := max s.now n
    (∀ i r, s.Holds c i r → r.Here →
      (s.findFlow c d = none → exec (.flowActive n m) s = .next (State.putRecord i { r with active := true } (s.clockTo n))) ∧
      (∀ j f, s.findFlow c d = some j → s.flow j = .used f → f.slot = i → s.Calm →
        let quiet := f.state = .waiting ∧ f.lastActivity + 10000 ≤ now ∧ f.holdUntil = none ∧ f.reason ≠ some .context
        ∃ t, exec (.flowActive n m) s = .next t ∧ t.record i = some { r with active := true } ∧ (∀ k, k ≠ i → t.record k = s.record k) ∧
          (∀ k, k ≠ j → t.flow k = s.flow k) ∧
          (f.state = .sampling ∨ f.state = .admitted ∨ f.state = .standard ∨ f.state = .bulk ∨ (f.state = .waiting ∧ ¬quiet) →
            t.flow j = .used { f with lastActivity := now }) ∧
          (f.state = .idle ∨ quiet → t.flow j = .used (s.tested now r { f with lastActivity := now })))) ∧
    (∀ i r, s.Holds c i r → r.state = .arriving ∨ r.state = .departed → s.AirtimeKept → s.FlowsEntitled →
      exec (.flowActive n m) s = .next (s.clockTo n)) ∧
    (s.findClient c = none → s.findFlow c d = none → exec (.flowActive n m) s = .next (s.clockTo n))

/-- The ends of a flow (R110, R111, R118): a FLOW-END of a client associated here and the removal timer, 60,000 ms after
the last activity, remove the flow, whose slot owes a release when it had a CLASS value; the idle timer, 10,000 ms after
the last activity of an ADMITTED flow, makes it IDLE and the Pace record is worked out again. A FLOW-END of a client not
associated here, or of a flow without a record, is ignored. -/
def Obligations.FlowsEnd : Prop :=
  (∀ (n : Nat) (m : HostMsg) (s : State), s.Takes → s.MarksClear → hostMsgOk .flowEnd m = true →
    let c := clientField m.body 0
    let d := digestField m.body 6
    (∀ i r j f, s.Holds c i r → r.Here → s.findFlow c d = some j → s.flow j = .used f → s.Calm →
      ∃ t, exec (.flowEnd n m) s = .next t ∧ t.clients = s.clients ∧ t.flow j = f.leaves ∧ (f.leaves ≠ .free → t.port.dirty.cls[j] = true)) ∧
    (s.findFlow c d = none ∨ s.findClient c = none ∨ (∃ i r, s.Holds c i r ∧ ¬r.Here) →
      exec (.flowEnd n m) s = .next (s.clockTo n))) ∧
  (∀ (s : State) (j : Fin 128) (f : FlowRecord), s.running = true → s.MarksClear → s.Calm → s.flow j = .used f →
    (f.state ≠ .reserved → ∃ t, exec (.flowRemovalTimerExpiry j) s = .next t ∧
      t.now = max s.now (f.lastActivity + 60000) ∧ t.clients = s.clients ∧ t.flow j = f.leaves ∧ (f.leaves ≠ .free → t.port.dirty.cls[j] = true)) ∧
    (f.state = .admitted → ∃ t, exec (.idleTimerExpiry j) s = .next t ∧
      t.now = max s.now (f.lastActivity + 10000) ∧ t.clients = s.clients ∧ t.flow j = .used { f with state := .idle } ∧ t.prio.pace = t.paceNow))

/-- A re-test round (R108) brings the view total no higher than the ceiling, or leaves it where it stood; afterwards each
flow it takes is ADMITTED or WAITING, one that waits with reason AIRTIME would still not fit, and no other flow is
changed. The overshoot check (R116) does nothing within the ceiling; above it, it demotes ADMITTED flows to WAITING with
reason OVERSHOOT and a hold of 5,000 ms, the newest first and none without need, until own reserved airtime is within the
fair share, the view total within the ceiling, or no flow ADMITTED. An ADVERT that is taken runs the check and then the
round; a FLOW-END that releases a share runs one round. Own reserved airtime is the sum of the shares of the ADMITTED and
RESERVED flows, the view total adds what each fresh peer last advertised, and the nodes that reserve are the fresh peers that
advertise above 0 and this node while its own figure is above 0 (R106, R116). -/
def Obligations.RoundsAndOvershootKeepTheCeiling : Prop :=
  (∀ s : State,
    let held := fun j : Fin 128 => match s.flow j with
      | .used f => if f.state = .admitted ∨ f.state = .reserved then f.share.getD 0 else 0
      | .free | .release _ _ => 0
    let reserved := (s.peers.table.filter fun p => p.fresh).map fun p => p.advert.reserved
    s.ownReserved = ((List.finRange 128).map held).sum ∧ s.viewTotal = s.ownReserved + reserved.sum ∧
    s.reservingNodes = (reserved.filter fun x => 0 < x).length + if 0 < s.ownReserved then 1 else 0) ∧
  (∀ s : State, s.AirtimeKept →
    let t := s.round
    let taken := fun f : FlowRecord =>
      f.state = .waiting ∧ f.reason ≠ some .context ∧ f.holdUntil = none ∧ s.now < f.lastActivity + 10000
    t.viewTotal ≤ max s.viewTotal s.cfg.ceiling ∧
    (∀ j f, s.flow j = .used f → taken f → ∃ g, t.flow j = .used g ∧
      (g.state = .admitted ∨ (g.state = .waiting ∧ (g.reason = some .airtime → s.cfg.ceiling < t.viewTotal + f.share.getD 0)))) ∧
    (∀ j f, s.flow j = .used f → ¬taken f → t.flow j = s.flow j)) ∧
  (∀ s : State,
    let t := s.overshoot
    (s.viewTotal ≤ s.cfg.ceiling → t = s) ∧
    (s.cfg.ceiling < s.viewTotal →
      t.ownReserved ≤ s.cfg.ceiling / s.reservingNodes ∨ t.viewTotal ≤ s.cfg.ceiling ∨ ∀ j f, t.flow j = .used f → f.state ≠ .admitted) ∧
    (∀ j, t.flow j = s.flow j ∨ ∃ f, s.flow j = .used f ∧ f.state = .admitted ∧
      t.flow j = .used { f with state := .waiting, reason := some .overshoot, holdUntil := some (s.now + 5000) }) ∧
    (∀ j f, s.flow j = .used f → t.flow j ≠ s.flow j →
      (∀ k g, s.flow k = .used g → g.state = .admitted → t.flow k = s.flow k →
        g.admittedAt.getD 0 < f.admittedAt.getD 0 ∨ (g.admittedAt.getD 0 = f.admittedAt.getD 0 ∧ k < j)) ∧
      ((∀ k g, s.flow k = .used g → t.flow k ≠ s.flow k →
          f.admittedAt.getD 0 < g.admittedAt.getD 0 ∨ (f.admittedAt.getD 0 = g.admittedAt.getD 0 ∧ j ≤ k)) →
        s.cfg.ceiling < t.viewTotal + f.share.getD 0 ∧ s.cfg.ceiling / s.reservingNodes < t.ownReserved + f.share.getD 0))) ∧
  (∀ (n : Nat) (s : State) (f : Frame) (rest : List Frame) (a : Advert), s.Head f rest → f.body = .advert a →
    f.sender ≠ s.cfg.nodeId → a.inRange = true → s.MarksClear → s.Calm → s.time.rank ≤ a.timeRank + 1 →
    (s.peer f.sender).isSome = true ∨ s.peers.table.length < 15 →
    ∃ t, exec (.advert n) s = .next t ∧ t.peer f.sender ≠ none ∧
      t.prio.flows = (State.round (State.overshoot { s.taking n rest with peers := t.peers })).prio.flows) ∧
  (∀ (n : Nat) (m : HostMsg) (s : State), s.Takes → s.MarksClear → s.Calm → hostMsgOk .flowEnd m = true →
    let c := clientField m.body 0
    ∀ i r j f, s.Holds c i r → r.Here → s.findFlow c (digestField m.body 6) = some j → s.flow j = .used f →
      let left : State := { s.clockTo n with prio := { s.prio with flows := putSlot s.prio.flows j f.leaves } }
      ∃ t, exec (.flowEnd n m) s = .next t ∧
        (f.state = .admitted ∨ f.state = .reserved → t.prio.flows = left.round.prio.flows) ∧
        (f.state ≠ .admitted → f.state ≠ .reserved → t.prio.flows = left.prio.flows))

/-! ### Peers and the radio -/

/-- A peer's timers (R15, R17, R124): 4 P after its last ADVERT its entry becomes stale; 8 P after it the entry goes, with
the sightings filed from it, and PEER-LOST is raised. At each the own path cost is recomputed and the credits are cut to the
grant levels: 2 with an ADMITTED flow, 8 to pull with a fresh peer's airtime reserved, 32 otherwise (R123). -/
def Obligations.PeerTimersExpire : Prop :=
  ∀ (s : State) (id : Nat) (p : PeerEntry), s.running = true → s.MarksClear → s.Calm → s.peer id = some p →
    let cut := fun t : State =>
      let admits := ∃ j f, s.flow j = .used f ∧ f.state = .admitted
      let games := ∃ q ∈ t.peers.table, q.fresh = true ∧ 0 < q.advert.reserved
      (admits → t.prio.pullCredits = min s.prio.pullCredits 2 ∧ t.prio.serveCredits = min s.prio.serveCredits 2) ∧
      (¬admits → games → t.prio.pullCredits = min s.prio.pullCredits 8) ∧
      (¬admits → ¬games → t.prio.pullCredits = min s.prio.pullCredits 32) ∧
      (¬admits → t.prio.serveCredits = min s.prio.serveCredits 32)
    (p.fresh = true → ∃ t, exec (.freshnessTimerExpiry id) s = .next t ∧ t.now = max s.now (p.heardAt + 4 * s.cfg.period) ∧
      t.peer id = some { p with fresh := false } ∧ (∀ k, k ≠ id → t.peer k = s.peer k) ∧ t.PathIsLeast ∧ cut t) ∧
    (∃ t, exec (.removalTimerExpiry id) s = .next t ∧ t.now = max s.now (p.heardAt + 8 * s.cfg.period) ∧
      t.peer id = none ∧ (∀ k, k ≠ id → t.peer k = s.peer k) ∧ t.PathIsLeast ∧ cut t ∧
      t.peers.sightings = s.peers.sightings.filter (fun g => g.peer ≠ id) ∧
      (s.port.notices.length < 16 → .peerLost id ∈ t.port.notices))

/-- At an advert expiry the part builds an ADVERT of its state at that moment, in the waiting one's place or at the tail of
the transmit order, and the timer starts again (R5, R9, R10, R163); each of its fields is in the range R13 asks for. Its
sightings are the first 16 of the Heard List in the ranking of R11, no client twice as the Heard List has none twice (R18). Its
target is the highest version a slot counts for, 0
without one, and its bitmap marks the verified image blocks of that slot (R143); that slot A counts where both hold the
version is log entry 22 (DEDUCED), and 0 for a slot without a version log entry 38 (DESIGN CHOICE). That it is placed before the expiry's other frames is
log entry 9 (DESIGN CHOICE), and that an entry at 3 s is left out is log entry 19 (DEDUCED). -/
def Obligations.AdvertExpiryBuildsAnAdvert : Prop :=
  ∀ (s : State) (d : Nat), s.running = true → s.peers.advertDue = some d → 1 ≤ s.cfg.nodeId → s.cfg.nodeId ≤ 63 →
    ∃ t a, exec .advertTimerExpiry s = .next t ∧ t.peers.advertDue = some (d + s.cfg.period) ∧
      a.pathCost = s.peers.ownPath ∧ a.clientCount = s.clientCount ∧ a.freeSlots = 64 - s.clientCount ∧
      a.reserved = s.ownReserved ∧ a.meshTime = s.time.mesh ∧ a.timeRank = s.time.rank ∧
      a.bookVersion = s.sched.book.version ∧ a.bookOrigin = s.sched.book.origin ∧
      (∀ k v, (s.slot k).Serves v → v ≤ a.target) ∧ (a.target = 0 ∨ ∃ k, (s.slot k).Serves a.target) ∧
      (∀ k b, s.ServedBy a.target k → b < 256 → (marksBlock a.bitmap b = true ↔ (s.slot k).Verified b)) ∧
      (s.Unserved a.target → a.bitmap = 0) ∧ a.versionA = (s.slot .a).version.getD 0 ∧ a.versionB = (s.slot .b).version.getD 0 ∧
      a.stateA = (s.slot .a).state.code ∧ a.stateB = (s.slot .b).state.code ∧
      (a.evacuating = true ↔ s.act.state = .evacuating) ∧ (a.actWaiting = true ↔ s.act.state = .waiting) ∧
      a.gateway = s.cfg.gateway ∧
      (let live := s.clients.heard.filter fun e => max s.now d < e.last + 3000
       a.sightings.length = min 16 live.length ∧
        (s.ListsDistinct → a.sightings.Pairwise fun x y => x.client ≠ y.client) ∧
        (a.sightings.Pairwise fun x y =>
          y.smoothed < x.smoothed ∨ (y.smoothed = x.smoothed ∧ x.client.toNat ≤ y.client.toNat)) ∧
        ∀ e ∈ live, (∀ g ∈ a.sightings, g.client ≠ e.client) → ∀ g ∈ a.sightings,
          e.smoothed < g.smoothed ∨ (e.smoothed = g.smoothed ∧ g.client.toNat ≤ e.client.toNat)) ∧
      (∀ g ∈ a.sightings, ∃ e ∈ s.clients.heard, g.client = e.client ∧ g.smoothed = e.smoothed ∧
        max s.now d < e.last + 3000 ∧ g.age = (max s.now d - e.last) / 1000) ∧
      (s.WithinRange → s.AirtimeKept → s.cfg.ceiling ≤ 800 → s.sched.book.origin ≤ 63 → a.inRange = true) ∧
      let w : Frame := { sender := s.cfg.nodeId, dest := 0, body := .advert a }
      (if s.pli.tx.any Frame.isAdvert then s.pli.tx.map (fun g => if g.isAdvert then w else g) else s.pli.tx ++ [w]) <+: t.pli.tx

/-- The radio takes the frame at the head of the transmit order; nothing else of the Peer Link Interface changes (R5). A frame
that a unit sends joins the tail and ends the overflow run, or, with 12 frames queued or places held, is dropped with
TX-OVERFLOW at the first drop of a run (R6, R7); an unconfigured part sends nothing (R8). So with the queue full a MANIFEST that
a MANIFEST-REQUEST asks for is dropped (R144). -/
def Obligations.RadioTakesTheHead : Prop :=
  (∀ (dest : Nat) (body : FrameBody) (s : State),
    let w : Frame := { sender := s.cfg.nodeId, dest := dest, body := body }
    (s.cfg.nodeId = 0 ∨ 63 < s.cfg.nodeId → s.send dest body = s) ∧
    (1 ≤ s.cfg.nodeId → s.cfg.nodeId ≤ 63 →
      (s.txCount < 12 → s.send dest body = { s with pli := { s.pli with tx := s.pli.tx ++ [w], txRun := false } }) ∧
      (12 ≤ s.txCount → s.pli.txRun = false →
        s.send dest body = State.raise (.txOverflow dest body.kind) { s with pli := { s.pli with txRun := true } }) ∧
      (12 ≤ s.txCount → s.pli.txRun = true → s.send dest body = s))) ∧
  (∀ (n : Nat) (s : State) (f : Frame) (rest : List Frame) (k : SlotId) (v : Nat) (m : Manifest), s.Head f rest → s.MarksClear →
    f.body = .manifestRequest v → 1 ≤ s.cfg.nodeId → s.cfg.nodeId ≤ 63 → (s.slot k).version = some v →
    (s.slot k).manifest = some m → (s.slot k).state ≠ .failed → 12 ≤ s.txCount → s.pli.txRun = false →
    exec (.manifestRequest n) s = .next (State.raise (.txOverflow f.sender .manifest)
      { s.taking n rest with pli := { s.pli with rx := rest, txRun := true } })) ∧
  ∀ (n : Nat) (s : State),
    (∀ f rest, s.running = true → s.pli.tx = f :: rest →
      ∃ t, exec (.frameTakenByRadio n) s = .next t ∧ t.pli = { s.pli with tx := rest } ∧ t.radioOut = some (writeFrame f) ∧
        (s.dist.serve = [] → t = { s.clockTo n with pli := { s.pli with tx := rest }, radioOut := some (writeFrame f) })) ∧
    (s.pli.tx = [] → exec (.frameTakenByRadio n) s = .next (s.clockTo n))

/-! ### Time and the Schedule Book -/

/-- SET-TIME and the ageing timer (R72, R74, R75): a SET-TIME takes the time at rank 0, starts the ageing timer afresh, is
answered OK and brings the minute and day marks up; an ageing expiry raises the rank by 1 and starts the timer for another
86,400,000 ms while the rank stays below 15. -/
def Obligations.TimeIsSetAndAges : Prop :=
  (∀ (n : Nat) (m : HostMsg) (s : State), s.Takes → s.configured = true → hostMsgOk .setTime m = true →
    let mesh := field m.body 0 4
    ∃ t, exec (.setTime n m) s = .next t ∧
      t.time = { s.time with
        mesh := mesh, rank := 0, ageingDue := some (max s.now n + 86400000)
        minuteMark := mesh / 60, dayMark := max s.time.dayMark (mesh / 86400) } ∧
      t.port.replies = s.port.replies ++ [{ tag := m.tag, status := .ok, view := none }]) ∧
  (∀ (s : State) (d : Nat), s.running = true → s.time.ageingDue = some d →
    (s.time.rank < 14 → exec .ageingTimerExpiry s = .next
      { s.clockTo d with time := { s.time with rank := s.time.rank + 1, ageingDue := some (d + 86400000) } }) ∧
    (s.time.rank = 14 → exec .ageingTimerExpiry s = .next
      { s.clockTo d with time := { s.time with rank := 15, ageingDue := none } }))

/-- A tick (R71, R75, R96, R97, R31): mesh time rises by 1, to 0 after 0FFFFFFFFh, and the next tick is due 1,000 ms on;
with an unknown time, or within the minute, nothing more happens; at a new minute each record has the minute counted and
its access worked out; at a new day the DEPARTED records go and every record held from an earlier day starts at 0 minutes.
Stated while no book write is owed.

Within a day, a client whose access leaves OPEN at the new minute has its ADMITTED flows wait with reason CAP and no hold, and one
whose access becomes OPEN has its recent flows with reason CAP tested: each is ADMITTED, or waits because the ceiling leaves it
no room. Flows that are neither ADMITTED nor WAITING stand (R107, R108, R112).

The access state worked out for a record (R88, R90, R91, R92): at a known time BLOCKED while a BLOCK window of its profile is
active, else EXHAUSTED when its counted figure has reached the allowance, else CAPPED while a CAP window is active, else OPEN;
with the time unknown BLOCKED stays, a reached allowance gives EXHAUSTED, EXHAUSTED without one gives OPEN, and any other
state stays. -/
def Obligations.TicksCountMinutesAndDays : Prop :=
  (∀ (s : State) (r : ClientRecord) (p : Profile), s.sched.book.profiles[r.profile]? = some p →
    let weekday := s.time.mesh / 86400 % 7
    let minute := s.time.mesh % 86400 / 60
    let active := fun action => ∃ w ∈ p.windows, w.action = action ∧ w.span.ActiveAt weekday minute
    let reached := ∃ a, p.allowance = some a ∧
      a ≤ if r.state = .provisional then max r.used (a - min a s.cfg.fallback) else r.used
    (s.time.rank < 15 →
      (active .block → s.accessOf r = .blocked) ∧
      (¬active .block → reached → s.accessOf r = .exhausted) ∧
      (¬active .block → ¬reached → active .cap → s.accessOf r = .capped) ∧
      (¬active .block → ¬reached → ¬active .cap → s.accessOf r = .opened)) ∧
    (s.time.rank = 15 →
      (r.access = .blocked → s.accessOf r = .blocked) ∧
      (r.access ≠ .blocked → reached → s.accessOf r = .exhausted) ∧
      (r.access = .exhausted → ¬reached → s.accessOf r = .opened) ∧
      (r.access = .opened ∨ r.access = .capped → ¬reached → s.accessOf r = r.access))) ∧
  ∀ (s : State) (d : Nat), s.running = true → s.MarksClear → s.Calm → s.time.tickDue = some d → s.sched.writeOwed = false →
    let mesh := (s.time.mesh + 1) % 4294967296
    let day := mesh / 86400
    (s.time.rank = 15 ∨ (s.time.rank < 15 ∧ mesh / 60 = s.time.minuteMark ∧ day ≤ s.time.dayMark) →
      exec .tick s = .next { s.clockTo d with time := { s.time with mesh := mesh, tickDue := some (d + 1000) } }) ∧
    (s.time.rank < 15 → mesh / 60 ≠ s.time.minuteMark →
      ∃ t, exec .tick s = .next t ∧
        t.time = { s.time with
          mesh := mesh, tickDue := some (d + 1000), minuteMark := mesh / 60, dayMark := max s.time.dayMark day } ∧
        (day ≤ s.time.dayMark → ∀ i r q, s.record i = some r → r.Counted q →
          t.record i = some (if r.state = .departed then q else { q with access := t.accessOf q }) ∧
          (s.AirtimeKept → r.state = .associated ∨ r.state = .offering ∨ r.state = .handing →
            ∀ j f, s.flow j = .used f → f.client = r.client →
              (r.access = .opened → t.accessOf q ≠ .opened → f.state = .admitted →
                t.flow j = .used { f with state := .waiting, reason := some .cap, holdUntil := none }) ∧
              (r.access ≠ .opened → t.accessOf q = .opened → f.state = .waiting → f.reason = some .cap → f.holdUntil = none →
                max s.now d < f.lastActivity + 10000 →
                t.flow j = .used { f with
                  state := .admitted, admittedAt := some (max s.now d), reason := none, holdUntil := none } ∨
                (t.flow j = .used { f with reason := some .airtime } ∧ s.cfg.ceiling < t.viewTotal + f.share.getD 0)))) ∧
        (day ≤ s.time.dayMark → ∀ j f, s.flow j = .used f → f.state ≠ .admitted → f.state ≠ .waiting → t.flow j = s.flow j) ∧
        (s.time.dayMark < day → ∀ i r q, s.record i = some r → r.Counted q →
          (r.state = .departed → t.record i = none) ∧
          (r.state ≠ .departed → day ≤ r.dayStamp → t.record i = some { q with access := t.accessOf q }) ∧
          (r.state ≠ .departed → r.dayStamp < day →
            let q0 := { q with used := 0, dayStamp := day, countedHere := 0 }
            t.record i = some { q0 with access := t.accessOf q0 })))

/-- BOOK-REQUEST and BOOK-SEGMENT (R78, R81, R82, R84): a request is answered with both halves of the working book; a
segment with a figure out of place, or of a book not higher than the working one, is discarded; the first segment of a
higher book starts staging, the other place's segment completes it, and the book so joined is adopted with its values
clamped to the ranges of R77 when it is well formed and is the book staged, and dropped otherwise. The clamp of its origin
to 63 is log entry 15 (DEDUCED). -/
def Obligations.BookFramesAreTaken : Prop :=
  ∀ (n : Nat) (s : State) (f : Frame) (rest : List Frame), s.Head f rest → s.MarksClear →
    let u := s.taking n rest
    let book := s.sched.book
    (f.body = .bookRequest →
      let bs := writeBook book
      let half := (bs.length + 1) / 2
      exec (.bookRequest n) s = .next (State.send f.sender (.bookSegment book.version book.origin bs.length 1 (bs.drop half))
        (u.send f.sender (.bookSegment book.version book.origin bs.length 0 (bs.take half))))) ∧
    (∀ v o len k part, f.body = .bookSegment v o len k part →
      let size := if k = 0 then (len + 1) / 2 else len / 2
      let sound := 63 ≤ len ∧ len ≤ 1300 ∧ k ≤ 1 ∧ part.length = size
      let higher := fun v' o' => v' < v ∨ (v = v' ∧ o' < o)
      let start : Staging :=
        { version := v, origin := o, len := len, part0 := if k = 0 then some part else none
          part1 := if k = 0 then none else some part, due := max s.now n + 2000 }
      (¬sound ∨ ¬higher book.version book.origin → exec (.bookSegment n) s = .next u) ∧
      (sound → higher book.version book.origin → (∀ g, s.sched.staging = some g → higher g.version g.origin) →
        exec (.bookSegment n) s = .next { u with sched := { s.sched with staging := some start } }) ∧
      (∀ g, s.sched.staging = some g → sound → higher book.version book.origin →
        ¬higher g.version g.origin → ¬(v = g.version ∧ o = g.origin ∧ len = g.len) → exec (.bookSegment n) s = .next u) ∧
      (∀ g, s.sched.staging = some g → v = g.version → o = g.origin → len = g.len → sound → higher book.version book.origin →
        (k = 0 → g.part0.isSome = true → exec (.bookSegment n) s = .next u) ∧
        (k = 1 → g.part1.isSome = true → exec (.bookSegment n) s = .next u) ∧
        (∀ bs, (k = 0 ∧ g.part0 = none ∧ ∃ q, g.part1 = some q ∧ bs = part ++ q) ∨
            (k = 1 ∧ g.part1 = none ∧ ∃ q, g.part0 = some q ∧ bs = q ++ part) →
          ((∀ b, readBook bs = some b → b.version ≠ v ∨ b.origin ≠ o) →
            exec (.bookSegment n) s = .next { u with sched := { s.sched with staging := none } }) ∧
          (∀ b, readBook bs = some b → b.version = v → b.origin = o → ∃ t, exec (.bookSegment n) s = .next t ∧
            t.sched.staging = none ∧ t.sched.book = { b.clamped with origin := min o 63 } ∧ t.sched.book.Ranged ∧
            (s.port.notices.length < 16 → .bookAdopted (min o 63) v ∈ t.port.notices)))))

/-- LOAD-BOOK (R87, R85): a serialization that is not well formed is answered MALFORMED; a version beyond the 32 bits is
answered LIMIT; otherwise the book is adopted, clamped, with the next version above the working book's and every fresh
peer's and this node's id as origin, every record held here takes the profile it binds it to, and the reply is OK. A
clamped book lies in the ranges of R77, and one that does already is left as it is. -/
def Obligations.LoadBookAdoptsTheBook : Prop :=
  (∀ b : Book, b.clamped.Ranged ∧
    (b.Ranged → b.clamped = b) ∧ b.clamped.version = b.version ∧ b.clamped.origin = b.origin ∧
    (∀ (k : Nat) p a, b.profiles[k]? = some p → p.allowance = some a →
      ∃ q, b.clamped.profiles[k]? = some q ∧ q.allowance = some (min a 1440))) ∧
  ∀ (n : Nat) (m : HostMsg) (s : State) (top : Nat), s.Takes → s.MarksClear → s.configured = true →
    hostMsgOk .loadBook m = true →
    (top = s.sched.book.version ∨ ∃ p ∈ s.peers.table, p.fresh = true ∧ top = p.advert.bookVersion) →
    s.sched.book.version ≤ top → (∀ p ∈ s.peers.table, p.fresh = true → p.advert.bookVersion ≤ top) →
    (readBook m.body = none → exec (.loadBook n m) s = .next (State.reply m.tag .malformed (s.clockTo n))) ∧
    (∀ b, readBook m.body = some b → 4294967295 ≤ top →
      exec (.loadBook n m) s = .next (State.reply m.tag .limit (s.clockTo n))) ∧
    (∀ b, readBook m.body = some b → top < 4294967295 → s.Calm →
      let book : Book := { b.clamped with version := top + 1, origin := s.cfg.nodeId }
      ∃ t, exec (.loadBook n m) s = .next t ∧ t.sched.book = book ∧ t.sched.staging = s.sched.staging ∧
        (t.sched.writeOwed = true ∨ t.sched.writeInFlight = true) ∧
        t.port.replies = s.port.replies ++ [{ tag := m.tag, status := .ok, view := none }] ∧
        (s.port.notices.length < 16 → .bookAdopted s.cfg.nodeId (top + 1) ∈ t.port.notices) ∧
        (∀ i r, s.record i = some r → r.state ≠ .departed →
          let q := { r with profile := book.profileOf r.client }
          t.record i = some { q with access := t.accessOf q }) ∧
        (∀ i r, s.record i = some r → r.state = .departed → t.record i = some r))

/-! ### Image distribution -/

/-- MANIFEST-REQUEST and MANIFEST (R144, R146): a request is answered with the manifest copy of the version
asked for, of a slot in any state but FAILED, and ignored without one; a well-formed, admissible MANIFEST of the version
being filled becomes the manifest copy and its write is owed or submitted; any other is ignored. That slot A answers when
both slots hold the version is log entry 22 (DEDUCED), and that a write stays owed while another only waits in the store is
log entry 16 (DEDUCED). -/
def Obligations.ManifestFramesAreTaken : Prop :=
  ∀ (n : Nat) (s : State) (f : Frame) (rest : List Frame), s.Head f rest → s.MarksClear →
    let u := s.taking n rest
    (∀ v k m, f.body = .manifestRequest v → (s.slot k).state ≠ .failed → (s.slot k).version = some v →
      (s.slot k).manifest = some m → ((s.slot .a).version ≠ (s.slot .b).version ∨ k = .a) →
      exec (.manifestRequest n) s = .next (u.send f.sender (.manifest m))) ∧
    (∀ v, f.body = .manifestRequest v →
      (∀ k, (s.slot k).state = .failed ∨ (s.slot k).version ≠ some v ∨ (s.slot k).manifest = none) →
      exec (.manifestRequest n) s = .next u) ∧
    (∀ m, f.body = .manifest m →
      let sp := s.slot s.spareSlot
      let fits := m.wellFormed = true ∧ s.IsNewer m.version ∧ sp.state = .filling ∧ sp.version = some m.version ∧ sp.manifest = none
      (¬fits → exec (.manifest n) s = .next u) ∧
      (fits → ∃ t, exec (.manifest n) s = .next t ∧ t.slot s.spareSlot = { sp with manifest := some m } ∧
        (s.StoreIdle → s.SpareOpen → t.dist.manifestOwed = false ∧ t.Flies
          { owner := .fill, kind := .recordWrite (.manifest s.spareSlot) m.version (writeManifest m) }) ∧
        ((∃ op ∈ s.storeOps, op.isManifestWrite = true) → t.dist.manifestOwed = true ∧ t.store = s.store)))

/-- CHUNK-REQUEST (R150): one out of range is ignored; BUSY, VERSION and NOT-HELD are refused in that order; NOT-HELD for
an image block of this node's fill leaves a relay demand; otherwise the request enters the serve queue, in its peer's place
or at the tail, and waits there while a read of the serve engine is in the store. With nothing before it the serve engine
submits the read of its first chunk for one serve credit (R126, R151), or holds it while no credit or no room is left. That
slot A serves a version that both slots hold is log entry 22 (DEDUCED). -/
def Obligations.ChunkRequestsAreAnswered : Prop :=
  ∀ (n : Nat) (s : State) (f : Frame) (rest : List Frame) (v b start count mode : Nat), s.Head f rest → s.MarksClear →
    f.body = .chunkRequest v b start count mode →
    let u := s.taking n rest
    let sound := b ≤ 255 ∧ 16 * b ≤ start ∧ start ≤ 16 * b + 15 ∧ 1 ≤ count ∧ count ≤ 32 ∧ mode ≤ 1
    let busy := s.act.state = .restarting ∨ (4 ≤ s.dist.serve.length ∧ ∀ q ∈ s.dist.serve, q.peer ≠ f.sender)
    let refuses := fun reason => u.send f.sender (.chunkRefuse reason v b)
    (¬sound → exec (.chunkRequest n) s = .next u) ∧
    (sound → busy → exec (.chunkRequest n) s = .next (refuses 0)) ∧
    (sound → ¬busy → s.Unserved v → exec (.chunkRequest n) s = .next (refuses 1)) ∧
    (∀ k, sound → ¬busy → s.ServedBy v k → (s.slot k).length ≤ start ∨ ¬(s.slot k).Verified b →
      ((∃ m, s.Fills v m ∧ start < m.n) → exec (.chunkRequest n) s = .next
        { refuses 2 with dist := { s.dist with relay := some { block := b, start := start } } }) ∧
      ((∀ m, s.Fills v m → m.n ≤ start) → s.SpareSound → exec (.chunkRequest n) s = .next (refuses 2))) ∧
    (∀ k, sound → ¬busy → s.ServedBy v k → start < (s.slot k).length → (s.slot k).Verified b →
      0 < s.heldPlaces →
      let q : ServeRequest :=
        { peer := f.sender, version := v, block := b, start := start, count := count, hybrid := mode == 1, position := 0
          reading := false }
      exec (.chunkRequest n) s = .next { u with
        dist := { s.dist with
          serve := if s.dist.serve.any (fun x => x.peer == f.sender) then
              s.dist.serve.map fun x => if x.peer = f.sender then q else x
            else s.dist.serve ++ [q] } }) ∧
    (∀ k, sound → ¬busy → s.ServedBy v k → start < (s.slot k).length → (s.slot k).Verified b →
      s.StoreIdle → s.dist.serve = [] →
      let q : ServeRequest :=
        { peer := f.sender, version := v, block := b, start := start, count := count, hybrid := mode == 1, position := 0
          reading := false }
      (s.prio.serveCredits = 0 ∨ 8 ≤ s.txChunkCount ∨ 12 ≤ s.txCount →
        exec (.chunkRequest n) s = .next { u with dist := { s.dist with serve := [q] } }) ∧
      (0 < s.prio.serveCredits → s.txChunkCount < 8 → s.txCount < 12 →
        exec (.chunkRequest n) s = .next { u with
          prio := { s.prio with serveCredits := s.prio.serveCredits - 1 }
          store := { s.store with inflight := some { owner := .serve f.sender b, kind := .readChunk k v start } }
          dist := { s.dist with serve := [{ q with reading := true }] } }))

/-- The requester (R147, R148, R149, R152). At an advert expiry with no request outstanding the pull step takes the relay
demand's block, or the lowest block wanted, that a peer can supply, and of its sources the one with the least link cost; it
erases ahead, and asks an OPEN block's chunks by a CHUNK-REQUEST within the grant of R123. A refusal from the source of the
outstanding request that names its version and block closes it, and BUSY sets the busy skip for one period; one with another
reason changes nothing (DESIGN CHOICE, log entry 18). A CHUNK from that source closes the request when it is the last, and
restarts its timer when it is another of its order. A missing chunk of an OPEN block of the fill from a supplier the block
takes is submitted to be programmed, marked pending and its supplier entered; one for a DIRTY block has the block erased
instead; with the store's queue full, for no fill, or for a block in another state it is dropped. -/
def Obligations.ChunksAreTaken : Prop :=
  (∀ (n : Nat) (s : State) (f : Frame) (rest : List Frame), s.Head f rest → s.MarksClear →
    let u := s.taking n rest
    let now := max s.now n
    let k := s.spareSlot
    let sp := s.slot k
    (∀ reason v b, f.body = .chunkRefuse reason v b →
      (∀ o, s.dist.outstanding = some o → f.sender = o.source → v = o.version → b = o.block → reason ≤ 2 →
        exec (.chunkRefuse n) s = .next { u with
          dist := { s.dist with
            outstanding := none
            busySkip := if reason = 0 then some { peer := f.sender, untilTime := now + s.cfg.period } else s.dist.busySkip } }) ∧
      ((∀ o, s.dist.outstanding = some o → f.sender ≠ o.source ∨ v ≠ o.version ∨ b ≠ o.block ∨ 2 < reason) →
        exec (.chunkRefuse n) s = .next u)) ∧
    (∀ v i data noted, f.body = .chunk v i data →
      (s.dist.outstanding = none → noted = none) →
      (∀ o, s.dist.outstanding = some o →
        let awaited := f.sender = o.source ∧ v = o.version
        (awaited → i = o.last → noted = none) ∧
        (awaited → i ≠ o.last → i ∈ o.order → noted = some { o with due := now + 2 * s.cfg.period }) ∧
        (¬awaited ∨ (i ≠ o.last ∧ i ∉ o.order) → noted = some o)) →
      let w : State := { u with dist := { s.dist with outstanding := noted } }
      ((∀ m, s.Fills v m → m.n ≤ i) → s.SpareSound → exec (.chunk n) s = .next w) ∧
      (∀ m, s.Fills v m → i < m.n →
        let b := sp.block (i / 16)
        let programs := fun x : Block => exec (.chunk n) s = .next (State.withSpare
          (State.flying w { owner := .fill, kind := .programChunk k v i data }) (sp.putBlock (i / 16) x))
        (b.state = .erasing ∨ b.state = .verifying ∨ b.state = .verified → exec (.chunk n) s = .next w) ∧
        (b.state = .opened → sp.mark i ≠ .missing → exec (.chunk n) s = .next w) ∧
        (b.state = .opened → .peer f.sender ∉ b.suppliers → 4 ≤ b.suppliers.length → exec (.chunk n) s = .next w) ∧
        (b.state = .opened → sp.mark i = .missing → .peer f.sender ∉ b.suppliers → b.suppliers.length < 4 → s.StoreIdle →
          s.SpareOpen → programs { b.setMark (i % 16) .pending with suppliers := b.suppliers ++ [.peer f.sender] }) ∧
        (b.state = .opened → sp.mark i = .missing → .peer f.sender ∈ b.suppliers → s.StoreIdle → s.SpareOpen →
          programs (b.setMark (i % 16) .pending)) ∧
        (b.state = .dirty → s.StoreIdle → s.SpareOpen →
          exec (.chunk n) s = .next (State.withSpare
            (State.flying w { owner := .fill, kind := .eraseBlock k v (i / 16) })
            (sp.putBlock (i / 16) { b with state := .erasing }))) ∧
        (b.state = .dirty ∨ b.state = .opened → 8 ≤ s.store.waiting.length → s.SpareOpen →
          exec (.chunk n) s = .next w)))) ∧
  (∀ (s : State) (d v grant : Nat) (m : Manifest), s.running = true → s.MarksClear → s.Calm → s.peers.advertDue = some d →
    1 ≤ s.cfg.nodeId → s.cfg.nodeId ≤ 63 → s.ListsDistinct → s.Fills v m → s.SpareOpen → s.StoreIdle → s.dist.serve = [] →
    s.dist.outstanding = none → s.dist.manifestOwed = false → (s.slot s.spareSlot).checkOwed = false →
    (∀ b, ((s.slot s.spareSlot).block b).verifyOwed = false) →
    let admits := ∃ j f, s.flow j = .used f ∧ f.state = .admitted
    let games := ∃ p ∈ s.peers.table, p.fresh = true ∧ 0 < p.advert.reserved
    (admits → grant = 2) → (¬admits → games → grant = 8) → (¬admits → ¬games → grant = 32) →
    let now := max s.now d
    let k := s.spareSlot
    let sp := s.slot k
    let blocks := (m.n + 15) / 16
    let missing := fun b i => i / 16 = b ∧ i < m.n ∧ sp.mark i = .missing
    let wanted := fun b => b < blocks ∧ ((sp.block b).state = .dirty ∨ ((sp.block b).state = .opened ∧ ∃ i, missing b i))
    let supplies := fun (p : PeerEntry) b => p ∈ s.peers.table ∧ p.fresh = true ∧ p.suspectUntil = none ∧
      (∀ x, s.dist.busySkip = some x → x.peer = p.id → x.untilTime ≤ now) ∧ p.advert.target = v ∧
      marksBlock p.advert.bitmap b = true
    let fit := fun b => wanted b ∧ ∃ p, supplies p b
    let demanded := fun b start => s.dist.relay = some { block := b, start := start } ∧ fit b
    let lowest := fun b => (∀ x y, ¬demanded x y) ∧ fit b ∧ ∀ x, x < b → ¬fit x
    let cost := fun p : PeerEntry => if p.linkCost = 0 then 32 else p.linkCost
    ((∀ b, ¬fit b) → ∃ t, exec .advertTimerExpiry s = .next t ∧ t.dist = s.dist ∧ t.store = s.store ∧
      t.prio.pullCredits = grant) ∧
    (∀ b start hybrid p,
      (demanded b start ∧ hybrid = false) ∨
        (lowest b ∧ hybrid = true ∧ ((sp.block b).state = .dirty → start = 16 * b) ∧
          ((sp.block b).state = .opened → missing b start ∧ ∀ i, missing b i → start ≤ i)) →
      supplies p b → (∀ q, supplies q b → cost p < cost q ∨ (cost p = cost q ∧ p.id ≤ q.id)) →
      let ahead := ((List.range blocks).filter fun x =>
        b ≤ x && (sp.block x).state == .dirty && marksBlock p.advert.bitmap x).take 2
      let chunks := fun x => ((List.range 16).map (16 * x + ·)).filter fun i => i < m.n
      let tail := ((List.range blocks).filter (b < ·)).takeWhile fun x =>
        (sp.block x).state == .opened && marksBlock p.advert.bitmap x
      let order := (chunks b).filter (start ≤ ·) ++ (chunks b).filter (· < start) ++ if hybrid then tail.flatMap chunks else []
      let count := min grant (order.filter fun i => sp.mark i == .missing).length
      ∃ t, exec .advertTimerExpiry s = .next t ∧
        t.storeOps = ahead.map (fun x => { owner := .fill, kind := .eraseBlock k v x }) ∧
        (∀ x ∈ ahead, ((t.slot k).block x).state = .erasing) ∧
        ((sp.block b).state = .dirty → t.dist.outstanding = none ∧ t.prio.pullCredits = grant) ∧
        ((sp.block b).state = .opened → t.prio.pullCredits = grant - count ∧
          t.dist.outstanding = some
            { source := p.id, version := v, block := b, start := start, count := count, hybrid := hybrid, order := order
              last := order.getD (count - 1) start, due := now + 2 * s.cfg.period } ∧
          (s.txCount < 12 → { sender := s.cfg.nodeId, dest := p.id
                              body := .chunkRequest v b start count (if hybrid then 1 else 0) } ∈ t.pli.tx)))) ∧
  (∀ (s : State) (d : Nat) (o : Outstanding), s.running = true → s.peers.advertDue = some d → s.dist.outstanding = some o →
    ∃ t, exec .advertTimerExpiry s = .next t ∧ t.dist.outstanding = some o)

/-- SEED-MANIFEST and SEED-CHUNK are answered by the first line of R155 and R156 that applies. -/
def Obligations.SeedingIsAnswered : Prop :=
  (∀ (n : Nat) (m : HostMsg) (s : State), s.Takes → s.configured = true → hostMsgOk .seedManifest m = true →
    let man := readManifest m.body
    let sp := s.slot s.spareSlot
    let answers := fun st => exec (.seedManifest n m) s = .next (State.reply m.tag st (s.clockTo n))
    (man.wellFormed = false → answers .malformed) ∧
    (man.wellFormed = true → ¬s.IsNewer man.version → answers .state) ∧
    (man.wellFormed = true → s.IsNewer man.version →
      (sp.state = .filling → sp.version = some man.version → sp.manifest.isSome = true → answers .ok) ∧
      (sp.state = .filling → sp.version = some man.version → sp.manifest = none →
        ∃ t, exec (.seedManifest n m) s = .next t ∧ (t.slot s.spareSlot).manifest = some man ∧
          { tag := m.tag, status := .ok, view := none } ∈ t.port.replies) ∧
      (sp.state ≠ .filling ∨ sp.version ≠ some man.version → s.mayFill man.version = false → answers .state) ∧
      (sp.state ≠ .filling ∨ sp.version ≠ some man.version → s.mayFill man.version = true →
        ∃ t, exec (.seedManifest n m) s = .next t ∧
          t.slot s.spareSlot = { SlotRecord.blank with state := .filling, version := some man.version, manifest := some man } ∧
          t.pli = s.pli ∧ { tag := m.tag, status := .ok, view := none } ∈ t.port.replies))) ∧
  (∀ (n : Nat) (m : HostMsg) (s : State), s.Takes → s.configured = true → hostMsgOk .seedChunk m = true →
    let v := field m.body 0 4
    let i := field m.body 4 2
    let k := s.spareSlot
    let sp := s.slot k
    let b := sp.block (i / 16)
    let answers := fun st => exec (.seedChunk n m) s = .next (State.reply m.tag st (s.clockTo n))
    ((∀ man, ¬s.Fills v man) → s.SpareSound → answers .state) ∧
    (∀ man, s.Fills v man →
      (man.n ≤ i → answers .range) ∧
      (i < man.n →
        (b.state = .dirty → s.StoreIdle → s.SpareOpen → exec (.seedChunk n m) s = .next (State.reply m.tag .busy
          (State.withSpare (State.flying (s.clockTo n) { owner := .fill, kind := .eraseBlock k v (i / 16) })
            (sp.putBlock (i / 16) { b with state := .erasing })))) ∧
        (b.state = .erasing → answers .busy) ∧
        (b.state = .opened → sp.mark i = .missing → .ownHost ∉ b.suppliers → 4 ≤ b.suppliers.length → answers .busy) ∧
        (b.state = .opened → sp.mark i = .missing → .ownHost ∉ b.suppliers → b.suppliers.length < 4 → s.StoreIdle → s.SpareOpen →
          exec (.seedChunk n m) s = .next (State.reply m.tag .ok (State.withSpare
            (State.flying (s.clockTo n) { owner := .fill, kind := .programChunk k v i (m.body.drop 6) })
            (sp.putBlock (i / 16) { b.setMark (i % 16) .pending with suppliers := b.suppliers ++ [.ownHost] })))) ∧
        (b.state = .opened → sp.mark i = .missing → .ownHost ∈ b.suppliers → s.StoreIdle → s.SpareOpen →
          exec (.seedChunk n m) s = .next (State.reply m.tag .ok (State.withSpare
            (State.flying (s.clockTo n) { owner := .fill, kind := .programChunk k v i (m.body.drop 6) })
            (sp.putBlock (i / 16) (b.setMark (i % 16) .pending))))) ∧
        (b.state = .dirty ∨ (b.state = .opened ∧ sp.mark i = .missing) → 8 ≤ s.store.waiting.length → s.SpareOpen →
          answers .busy) ∧
        (b.state = .verifying ∨ b.state = .verified ∨ (b.state = .opened ∧ sp.mark i ≠ .missing) → answers .ok))))

/-! ### Store completions -/

/-- The fill's erases and programs complete (R130, R136, R137, R153): an erase leaves the block all ones and OPEN, or DIRTY
when it failed; a program writes the chunk's 1,024 bytes and marks the chunk programmed, the last chunk of a block having
the block verified; a failed program makes the block DIRTY. So with nothing waiting.

Where operations wait, the first that may run goes into flight at the completion of an erase or program, whoever sent it, and
those before it complete without touching the flash: PROTECTED, with STORE-REFUSED, or CANCELLED (R131, R133, R135, R137). One
that is both protected and stale completes PROTECTED: log entry 58 (DESIGN CHOICE). -/
def Obligations.ErasesAndProgramsComplete : Prop :=
  (∀ (n : Nat) (d : Device) (s : State) (op : StoreOp), s.store.inflight = some op →
    (op.kind.isErase = true → s.QueueMoves (.eraseBlockCompletion n d)) ∧
    (op.kind.isProgram = true → s.QueueMoves (.programChunkCompletion n d))) ∧
  ∀ (n : Nat) (d : Device) (s : State) (v b i : Nat) (data : List Byte) (m : Manifest), s.MarksClear → s.Fills v m →
    let k := s.spareSlot
    let sp := s.slot k
    let u := fun flash => { s.clockTo n with store := { s.store with flash := flash, inflight := none } }
    (s.Flies { owner := .fill, kind := .eraseBlock k v b } →
      (d.failed = false → exec (.eraseBlockCompletion n d) s = .next
        ((u (Memory.erase s.store.flash (k.base + b * 16384) 16384)).withSpare
          (sp.putBlock b { Block.blank with state := .opened }))) ∧
      (d.failed = true → ∃ t, exec (.eraseBlockCompletion n d) s = .next t ∧ t.slot k = sp.putBlock b Block.blank)) ∧
    (s.Flies { owner := .fill, kind := .programChunk k v i data } → sp.mark i = .pending →
      let done := sp.putBlock (i / 16) ((sp.block (i / 16)).setMark (i % 16) .programmed)
      (d.failed = true → ∃ t, exec (.programChunkCompletion n d) s = .next t ∧ t.slot k = sp.putBlock (i / 16) Block.blank) ∧
      (d.failed = false → done.blockProgrammed (i / 16) = false → d.cells = [] → exec (.programChunkCompletion n d) s = .next
        ((u (Memory.writeBytes s.store.flash (k.base + i * 1024) (data.take 1024))).withSpare done)) ∧
      (d.failed = false → done.blockProgrammed (i / 16) = true → (sp.block (i / 16)).state = .opened → i < m.n →
        ∃ t, exec (.programChunkCompletion n d) s = .next t ∧
          (t.slot k).block (i / 16) = { done.block (i / 16) with state := .verifying, verifyOwed := false } ∧
          t.Flies { owner := .fill, kind := .verifyBlock k v (i / 16) (m.blockCrc (i / 16)) }))

/-- Verifications and checks complete (R138, R139, R153, R154, R159): a block whose bytes have the manifest's CRC is VERIFIED,
the last one sending its slot to CHECKING with the check submitted; a block that differs is DIRTY, its suppliers with a Peer
Table entry suspect for 60,000 ms, and BLOCK-REJECTED raised; one whose verification failed is DIRTY, with no suspect and no
notice. A matching image is READY and announced, and an IDLE controller waits; a differing one is FAILED and barred; a check that
failed is owed again, the slot staying CHECKING. So with nothing waiting. Where operations wait, the first that may run goes into
flight, and those before it complete without touching the flash, PROTECTED or CANCELLED (R131, R133, R135). One that is both
protected and stale completes PROTECTED: log entry 58 (DESIGN CHOICE).

At an advert expiry the verifications owed, in block order, and the check owed are submitted (R147, R153, R154): with an idle
store each is accepted, up to 9 verifications, and its mark clears; with 8 operations waiting each is refused and its mark stays.
That the verifications come first, by block, is log entry 44 (DESIGN CHOICE). -/
def Obligations.VerificationsAndChecksComplete : Prop :=
  (∀ (n : Nat) (d : Device) (s : State) (op : StoreOp), s.store.inflight = some op →
    (op.kind.isVerify = true → s.QueueMoves (.verifyBlockCompletion n d)) ∧
    (op.kind.isCheck = true → s.QueueMoves (.checkImageCompletion n d))) ∧
  (∀ (d : Nat) (s : State) (v : Nat) (m : Manifest), s.running = true → s.peers.advertDue = some d →
    (s.slot s.spareSlot).version = some v → (s.slot s.spareSlot).manifest = some m → 1 ≤ m.n → m.n ≤ 4096 →
    let k := s.spareSlot
    let sp := s.slot k
    let owed := (List.range ((m.n + 15) / 16)).filter fun b => (sp.block b).verifyOwed
    (sp.state = .filling → s.StoreIdle → owed.length ≤ 9 →
      (∀ b ∈ owed, (sp.block b).state = .opened ∧ sp.blockProgrammed b = true) → ∃ t, exec .advertTimerExpiry s = .next t ∧
        (owed.map fun b => { owner := .fill, kind := .verifyBlock k v b (m.blockCrc b) }) <+: t.storeOps ∧
        ∀ b ∈ owed, (t.slot k).block b = { sp.block b with state := .verifying, verifyOwed := false }) ∧
    (sp.state = .checking → sp.checkOwed = true → s.StoreIdle → ∃ t, exec .advertTimerExpiry s = .next t ∧
      t.store.inflight = some { owner := .fill, kind := .checkImage k v m.n m.imageCrc } ∧
      t.slot k = { sp with checkOwed := false }) ∧
    (8 ≤ s.store.waiting.length → ∃ t, exec .advertTimerExpiry s = .next t ∧ t.slot k = sp)) ∧
  ∀ (n : Nat) (d : Device) (s : State) (v b : Nat) (m : Manifest), s.MarksClear →
    (s.slot s.spareSlot).version = some v → (s.slot s.spareSlot).manifest = some m → 1 ≤ m.n → m.n ≤ 4096 →
    let k := s.spareSlot
    let sp := s.slot k
    let now := max s.now n
    let bytes := fun len => overlay d.cells (k.base + b * 16384) (Memory.readBytes s.store.flash (k.base + b * 16384) len)
    let image := overlay d.cells k.base (Memory.readBytes s.store.flash k.base (m.n * 1024))
    let done : State := { s.clockTo n with store := { s.store with inflight := none } }
    (∀ crc, s.Flies { owner := .fill, kind := .verifyBlock k v b crc } → sp.state = .filling → b < (m.n + 15) / 16 →
      let matched := d.failed = false ∧ crc32 (bytes (1024 * min 16 (m.n - 16 * b))) = crc
      let differs := d.failed = false ∧ crc32 (bytes (1024 * min 16 (m.n - 16 * b))) ≠ crc
      let good := sp.putBlock b { sp.block b with state := .verified, suppliers := [], verifyOwed := false }
      (matched → good.allVerified = false → ∃ t, exec (.verifyBlockCompletion n d) s = .next t ∧ t.store.flash = s.store.flash ∧ t.slot k = good ∧
        (∀ r, s.dist.relay = some r → r.block = b → t.dist.relay = none)) ∧
      (matched → good.allVerified = true → ∃ t, exec (.verifyBlockCompletion n d) s = .next t ∧ t.store.flash = s.store.flash ∧
        t.slot k = { good with state := .checking, checkOwed := false } ∧
        t.Flies { owner := .fill, kind := .checkImage k v m.n m.imageCrc }) ∧
      (differs → ∃ t, exec (.verifyBlockCompletion n d) s = .next t ∧ t.store.flash = s.store.flash ∧ t.slot k = sp.putBlock b Block.blank ∧
        (∀ id p, s.peer id = some p → t.peer id = some
          (if .peer id ∈ (sp.block b).suppliers then { p with suspectUntil := some (max (p.suspectUntil.getD 0) (now + 60000)) }
            else p)) ∧
        (s.port.notices.length < 16 → .blockRejected k b v (sp.block b).suppliers ∈ t.port.notices)) ∧
      (d.failed = true → exec (.verifyBlockCompletion n d) s = .next (done.withSpare (sp.putBlock b Block.blank)))) ∧
    (∀ crc, s.Flies { owner := .fill, kind := .checkImage k v m.n crc } → sp.state = .checking →
      (d.failed = false → crc32 image = crc → ∃ t, exec (.checkImageCompletion n d) s = .next t ∧ t.store.flash = s.store.flash ∧
        t.slot k = { sp with state := .ready } ∧
        (s.act.state = .idle → t.act.state ≠ .idle) ∧ (s.port.notices.length < 16 → .imageReady k v ∈ t.port.notices)) ∧
      (d.failed = false → crc32 image ≠ crc → ∃ t, exec (.checkImageCompletion n d) s = .next t ∧ t.store.flash = s.store.flash ∧
        t.slot k = { sp with state := .failed } ∧
        t.dist.barred = some v ∧ t.dist.relay = none ∧ (s.port.notices.length < 16 → .imageFailed k v ∈ t.port.notices)) ∧
      (d.failed = true → exec (.checkImageCompletion n d) s = .next (done.withSpare { sp with checkOwed := true })))

/-- A read of the serve engine completes while its slot still holds the version in a state that serves it (R6, R126, R151):
its 1,024 bytes go out in a CHUNK at the tail of the transmit order, whatever the credits; a read that failed sends nothing;
the last chunk asked for ends the request, and otherwise the next chunk of its order is read for one serve credit while
there is room, or, when it lies in a block that is not VERIFIED here, the request leaves the serve queue with no frame sent. A
read whose slot has moved on is ignored (R135); that its request stands where it stood is log entry 47 and that slot A serves a
version that both slots hold is log entry 22 (DEDUCED).

A read that waits and whose slot has moved on by the time it would go into flight, here at the completion of an erase, is
answered CHUNK-REFUSE VERSION, and its request leaves the queue (R135, R151). At a read's completion the first operation that may
run goes into flight, and those before it complete without touching the flash (R131, R133, R135). One that is both protected and
stale completes PROTECTED: log entry 58 (DESIGN CHOICE). -/
def Obligations.ServedChunksAreSent : Prop :=
  (∀ (n : Nat) (d : Device) (s : State) (op : StoreOp), s.store.inflight = some op → op.kind.isRead = true →
    s.QueueMoves (.readChunkCompletion n d)) ∧
  (∀ (n : Nat) (d : Device) (s : State) (peer block v i v' b : Nat) (k k' : SlotId) (q : ServeRequest), s.MarksClear →
    1 ≤ s.cfg.nodeId → s.cfg.nodeId ≤ 63 → s.store.inflight = some { owner := .fill, kind := .eraseBlock k' v' b } →
    let op : StoreOp := { owner := .serve peer block, kind := .readChunk k v i }
    s.store.waiting = [op] → s.MovedOn op → s.dist.serve = [q] → q.reading = true → s.txCount ≤ 12 →
    ∃ t, exec (.eraseBlockCompletion n d) s = .next t ∧ t.dist.serve = [] ∧ t.StoreIdle ∧
      t.pli.tx = s.pli.tx ++ [{ sender := s.cfg.nodeId, dest := peer, body := .chunkRefuse 1 v q.block }]) ∧
  ∀ (n : Nat) (d : Device) (s : State) (peer block v i : Nat) (k : SlotId), s.running = true → s.MarksClear →
    1 ≤ s.cfg.nodeId → s.cfg.nodeId ≤ 63 → s.Flies { owner := .serve peer block, kind := .readChunk k v i } →
    let data := overlay d.cells (k.base + i * 1024) (Memory.readBytes s.store.flash (k.base + i * 1024) 1024)
    let st := (s.slot k).state
    let stands := (s.slot k).version = some v ∧
      (st = .active ∨ st = .ready ∨ st = .retained ∨ st = .filling ∨ st = .checking)
    (stands → ∃ t, exec (.readChunkCompletion n d) s = .next t ∧ t.store.flash = s.store.flash ∧
      t.pli.tx = (if d.failed then s.pli.tx
        else s.pli.tx ++ [{ sender := s.cfg.nodeId, dest := peer, body := .chunk v i data }]) ∧
      (∀ q, s.dist.serve = [q] → q.reading = true → s.act.state ≠ .restarting →
        (q.count ≤ q.position + 1 → t.dist.serve = []) ∧
        (∀ k' j, q.position + 1 < q.count → s.ServedBy q.version k' →
          let chunks := fun x => ((List.range 16).map (16 * x + ·)).filter fun i => i < (s.slot k').length
          let order := (chunks q.block).filter (q.start ≤ ·) ++ (chunks q.block).filter (· < q.start) ++
            if q.hybrid then (((List.range (((s.slot k').length + 15) / 16)).filter (q.block < ·)).flatMap chunks) else []
          order[q.position + 1]? = some j → 0 < s.prio.serveCredits → s.txChunkCount < 8 → s.txCount < 12 →
          ((s.slot k').Verified (j / 16) →
            t.Flies { owner := .serve q.peer q.block, kind := .readChunk k' q.version j } ∧
              t.prio.serveCredits = s.prio.serveCredits - 1) ∧
          (¬(s.slot k').Verified (j / 16) →
            t.dist.serve = [] ∧ t.StoreIdle ∧ t.prio.serveCredits = s.prio.serveCredits)))) ∧
    (¬stands → ∃ t, exec (.readChunkCompletion n d) s = .next t ∧ t.store.flash = s.store.flash ∧ t.pli.tx = s.pli.tx ∧
      (∀ q, s.dist.serve = [q] → q.position < q.count → s.Unserved q.version → s.prio.serveCredits = 0 →
        t.dist.serve = [{ q with reading := false }]))

/-! ### Activation -/

/-- ACTIVATE-NOW and CONFIRM-IMAGE (R159, R169): ACTIVATE-NOW sets its mark in WAITING and EVACUATING, where a WAITING
controller begins to evacuate at once unless a trial runs or a fresh peer evacuates, and is answered STATE elsewhere;
CONFIRM-IMAGE during a trial in IDLE submits the selector that confirms the booted slot and raises the floor, directed to
the other copy with the next sequence number (R134), its reply waiting for the write, and is answered STATE elsewhere; where other
operations are in the store the write waits behind them, and where 8 wait it is refused and the request answered BUSY (R131,
R169). That the confirmation's write sets the selector write in flight mark is log entry 54 (DESIGN CHOICE). That a
controller whose commit is refused does not end in WAITING while its gates are open is log entry 11 (DEDUCED), the order
number of a write is log entry 20 (DESIGN CHOICE), and the number after 0FFFFFFFFh is log entry 41 (DESIGN CHOICE).

A WAITING controller begins to evacuate when a test finds the four gates open, and stands otherwise (R89, R160, R161): at the
entry to WAITING, when an IDLE controller's other slot becomes READY, which makes the first pass (R49, R162); at a peer's
freshness or removal expiry, without that peer; and at a minute event. The ARRIVING records are dropped, and where no record
holds the evacuation open the commit follows at once (R164). Stated for an idle store, and at a minute event, whose access
changes may admit flows, for a part without WAITING flows or with the activate-now mark. -/
def Obligations.ActivationRequestsAreTaken : Prop :=
  (∀ (n : Nat) (d : Device) (s : State) (v : Nat) (m : Manifest) (crc : Crc), s.MarksClear → d.failed = false →
    s.act.state = .idle → (s.slot s.spareSlot).state = .checking → (s.slot s.spareSlot).version = some v →
    (s.slot s.spareSlot).manifest = some m → 1 ≤ m.n → m.n ≤ 4096 →
    s.Flies { owner := .fill, kind := .checkImage s.spareSlot v m.n crc } →
    crc32 (overlay d.cells s.spareSlot.base (Memory.readBytes s.store.flash s.spareSlot.base (m.n * 1024))) = crc →
    ∃ t, exec (.checkImageCompletion n d) s = .next t ∧
      (¬s.GatesOpen → t.act = { s.act with state := .waiting }) ∧
      (s.GatesOpen → s.Evacuates t (max s.now n) ∧
        ((∀ i r, s.record i = some r → r.state ≠ .arriving) → s.Passed t (max s.now n)))) ∧
  (∀ (s : State), s.running = true → s.MarksClear → s.act.state = .waiting → s.StoreIdle →
    (∀ id p, s.peer id = some p →
      let left : State := { s with peers := { s.peers with table := s.peers.table.filter fun q => q.id ≠ id } }
      let tests := fun (c : Instr) (due : Nat) => ∃ t, exec c s = .next t ∧ (¬left.GatesOpen → t.act = s.act) ∧
        (left.GatesOpen → s.Evacuates t (max s.now due))
      (p.fresh = true → tests (.freshnessTimerExpiry id) (p.heardAt + 4 * s.cfg.period)) ∧
      tests (.removalTimerExpiry id) (p.heardAt + 8 * s.cfg.period)) ∧
    (∀ d, s.time.tickDue = some d → s.sched.writeOwed = false → s.time.rank < 15 →
      let mesh := (s.time.mesh + 1) % 4294967296
      let u : State := { s with time := { s.time with mesh := mesh } }
      let quiet := s.sched.book.quiet.ActiveAt (mesh / 86400 % 7) (mesh % 86400 / 60)
      mesh / 60 ≠ s.time.minuteMark → mesh / 86400 ≤ s.time.dayMark → ∃ t, exec .tick s = .next t ∧
        (s.act.sel.trial = true ∨ (¬quiet ∧ s.act.activateNow = false) ∨
          (∃ p ∈ s.peers.table, p.fresh = true ∧ p.advert.evacuating = true) → t.act = s.act) ∧
        (s.act.activateNow = true ∨ (∀ j f, s.flow j = .used f → f.state ≠ .waiting) → u.GatesOpen →
          s.Evacuates t (max s.now d)))) ∧
  ∀ (n : Nat) (m : HostMsg) (s : State), s.Takes → s.MarksClear → s.configured = true →
    (hostMsgOk .activateNow m = true →
      let marked : State := { s.clockTo n with act := { s.act with activateNow := true } }
      let shut := s.act.sel.trial = true ∨ ∃ p ∈ s.peers.table, p.fresh = true ∧ p.advert.evacuating = true
      (s.act.state = .evacuating ∨ (s.act.state = .waiting ∧ shut) →
        exec (.activateNow n m) s = .next (marked.reply m.tag .ok)) ∧
      (s.act.state = .waiting → ¬shut → ∃ t, exec (.activateNow n m) s = .next t ∧
        (t.act.state = .evacuating ∨ t.act.state = .committing) ∧ t.act.activateNow = true ∧
        { tag := m.tag, status := .ok, view := none } ∈ t.port.replies) ∧
      (s.act.state = .idle ∨ s.act.state = .committing ∨ s.act.state = .restarting →
        exec (.activateNow n m) s = .next (State.reply m.tag .state (s.clockTo n)))) ∧
    (hostMsgOk .confirmImage m = true →
      (s.act.sel.trial = true → s.act.state = .idle → s.StoreIdle →
        let sel : Selector :=
          { booted := s.act.sel.booted, confirmed := s.act.sel.booted, trial := false, trialStarts := 0
            floor := max s.act.sel.floor s.bootedVersion }
        let q := (match s.store.copy with | some c => c.other | none => .zero, (s.store.seqNo + 1) % 4294967296)
        ∃ t, exec (.confirmImage n m) s = .next t ∧ t.act = { s.act with writeInFlight := true } ∧
          t.port = s.port ∧ t.Flies { owner := .activation, kind := .selectorWrite s.store.orders (.confirm m.tag) sel (some q) }) ∧
      (s.act.sel.trial = true → s.act.state = .idle → ¬s.StoreIdle → s.store.waiting.length < 8 →
        ∃ t sel, exec (.confirmImage n m) s = .next t ∧ t.act = { s.act with writeInFlight := true } ∧ t.port = s.port ∧
          sel = { s.act.sel with
            confirmed := s.act.sel.booted, trial := false, trialStarts := 0, floor := max s.act.sel.floor s.bootedVersion } ∧
          t.store.inflight = s.store.inflight ∧ t.store.waiting = s.store.waiting ++
            [{ owner := .activation, kind := .selectorWrite s.store.orders (.confirm m.tag) sel none }]) ∧
      (s.act.sel.trial = true → s.act.state = .idle → 8 ≤ s.store.waiting.length →
        ∃ t, exec (.confirmImage n m) s = .next t ∧ t.act = s.act ∧ t.store.inflight = s.store.inflight ∧
          t.store.waiting = s.store.waiting ∧
          t.port = { s.port with replies := s.port.replies ++ [{ tag := m.tag, status := .busy, view := none }] }) ∧
      (s.act.sel.trial = false ∨ s.act.state ≠ .idle →
        exec (.confirmImage n m) s = .next (State.reply m.tag .state (s.clockTo n))))

/-- The Activation Controller's timers (R158, R162, R164, R166, R169): the evacuation limit ends the evacuation, submitting
the selector that boots the other slot on trial; the confirm timer's expiry reverts to the confirmed slot, or is held
while a confirm write is in the store, leaving no ARRIVING record (R161, log entry 36); the write retry timer submits its
write again, or starts again while another selector write is in the store. A write goes to the other copy with the next
sequence number (R134; after 0FFFFFFFFh 0, log entry 41, DESIGN CHOICE). That the expiry is held while a confirm write only
waits is log entry 23 (DEDUCED), and the order number of a write is log entry 20 (DESIGN CHOICE). Stated for an idle store
where a write is submitted.

An EVACUATING controller makes a pass at each advert expiry, which offers every ASSOCIATED, steerable client to its best
candidate where the score is no lower than the smoothed value (R49, R52, R162); it goes on while a steerable client is
associated here, and commits once none is, after the pass or when the client departs (R162, R164). -/
def Obligations.ActivationTimersExpire : Prop :=
  ∀ s : State, s.running = true → s.MarksClear →
    let held := s.act.sel
    let committed : Selector := { held with booted := s.spareSlot, trial := true, trialStarts := 0 }
    let reverted : Selector := { held with booted := held.confirmed, trial := false, trialStarts := 2 }
    let q := (match s.store.copy with | some c => c.other | none => .zero, (s.store.seqNo + 1) % 4294967296)
    (∀ d, s.act.evacuationDue = some d → s.act.state = .evacuating → s.StoreIdle → ∃ t,
      exec .evacuationLimitExpiry s = .next t ∧ t.act.state = .committing ∧ t.act.evacuationDue = none ∧ t.act.writeInFlight = true ∧
      t.Flies { owner := .activation, kind := .selectorWrite s.store.orders .commit committed (some q) }) ∧
    (∀ d, s.peers.advertDue = some d → s.act.state = .evacuating → ∃ t, exec .advertTimerExpiry s = .next t ∧
      s.Passed t (max s.now d) ∧
      ((∃ i r, s.record i = some r ∧ r.HoldsOpen) → t.act = s.act) ∧
      ((∀ i r, s.record i = some r → ¬r.HoldsOpen) → s.StoreIdle → (s.slot s.spareSlot).state = .ready →
        s.dist.manifestOwed = false → s.dist.serve = [] → t.act.state = .committing ∧ t.act.evacuationDue = none ∧
          t.Flies { owner := .activation, kind := .selectorWrite s.store.orders .commit committed (some q) }) ∧
      (∀ i r p, s.record i = some r → r.state = .associated → t.record i = some
          { r with state := .offering, offerTarget := some p, confirm := 0, timer := some (max s.now d + 400) } →
        (∀ k x, k ≠ i → s.record k = some x → x.state ≠ .associated) → 1 ≤ s.cfg.nodeId → s.cfg.nodeId ≤ 63 → s.txCount < 10 →
        ∃ flows, s.CarriesFlows false r.client flows ∧
          { sender := s.cfg.nodeId
            dest := p
            body := .offer { client := r.client, used := r.used, dayStamp := r.dayStamp, profile := r.profile
                             access := r.access.code, flows := flows } } ∈ t.pli.tx)) ∧
    (∀ n m i r, s.Takes → hostMsgOk .disassociate m = true → s.act.state = .evacuating → s.Holds (clientField m.body 0) i r →
      r.Here → ∃ t, exec (.disassociate n m) s = .next t ∧
        ((∃ k x, k ≠ i ∧ s.record k = some x ∧ x.HoldsOpen) → t.act = s.act) ∧
        ((∀ k x, k ≠ i → s.record k = some x → ¬x.HoldsOpen) → s.StoreIdle → t.act.state = .committing ∧
          t.act.evacuationDue = none ∧
          t.Flies { owner := .activation, kind := .selectorWrite s.store.orders .commit committed (some q) })) ∧
    (∀ d, s.act.confirmDue = some d → (∃ op ∈ s.storeOps, op.isConfirm = true) →
      exec .confirmTimerExpiry s = .next { s.clockTo d with act := { s.act with confirmDue := none, confirmHeld := true } }) ∧
    (∀ d, s.act.confirmDue = some d → s.StoreIdle → ∃ t,
      exec .confirmTimerExpiry s = .next t ∧ t.act.state = .restarting ∧ t.act.confirmDue = none ∧ t.dist.serve = [] ∧
      (∀ i r, t.record i = some r → r.state ≠ .arriving) ∧
      t.Flies { owner := .activation, kind := .selectorWrite s.store.orders .revert reverted (some q) }) ∧
    (∀ d w, s.act.retryDue = some d → s.act.retry = some w → (∃ op ∈ s.storeOps, op.isSelectorWrite = true) →
      exec .writeRetryTimerExpiry s = .next { s.clockTo d with act := { s.act with retryDue := some (max s.now d + 1000) } }) ∧
    (∀ d w, s.act.retryDue = some d → s.act.retry = some w → s.StoreIdle → w.owner = .activation ∨ w.owner = .start → ∃ t,
      exec .writeRetryTimerExpiry s = .next t ∧ t.act.retryDue = none ∧
      t.Flies { owner := w.owner, kind := .selectorWrite w.order w.purpose w.sel (some q) })

/-- Record writes complete (R86, R134, R140, R158, R164, R166, R169): a selector write done well makes its copy current and
its values the held selector; after a commit the part is RESTARTING with an empty serve queue and RESTART dirty, after a
confirmation the request is answered OK and the confirm timer stops, after a revert RESTART is dirty; one that failed
leaves the selector, the other copy, and its own copy as it read before or invalid. After a failed commit the part is WAITING
while a gate is shut, and evacuates again while all four are open (R160, R161, R164; that a further commit may follow at once is
log entry 11, DEDUCED). A failed confirmation is answered BUSY, and an expiry that was held is then taken: RESTARTING, with the
revert submitted. The selector write in flight mark clears with the write (R158; which writes set it is log entry 54, DESIGN
CHOICE). A book write that failed is owed again. A WRITE-CONFIG is answered OK or BUSY. So for a running part with nothing
waiting.

Where operations wait, the first that may run under the selector then held goes into flight, and those before it complete
without touching the flash: PROTECTED, with STORE-REFUSED, or CANCELLED (R131, R133, R135). One that is both protected and stale
completes PROTECTED: log entry 58 (DESIGN CHOICE). That a selector write done well moves the held selector before the next
operation goes into flight is log entry 9 (DESIGN CHOICE). -/
def Obligations.RecordWritesComplete : Prop :=
  (∀ (n : Nat) (d : Device) (s : State) (op : StoreOp), s.store.inflight = some op → op.kind.isRecordWrite = true →
    s.QueueMoves (.recordWriteCompletion n d)) ∧
  ∀ (n : Nat) (d : Device) (s : State), s.running = true → s.MarksClear →
    (∀ order purpose sel copy q, s.Flies { owner := .activation, kind := .selectorWrite order purpose sel (some (copy, q)) } →
      (d.failed = false → ∃ t, exec (.recordWriteCompletion n d) s = .next t ∧ t.act.sel = sel ∧ t.store.copy = some copy ∧
        t.store.seqNo = q ∧ t.act.writeInFlight = false ∧
        t.store.flash = writeArea s.store.flash (.selector copy) (writeSelector q sel) ∧
        (purpose = .commit → t.act.state = .restarting ∧ t.dist.serve = [] ∧ t.port.dirty.restart = true) ∧
        (purpose = .revert → t.port.dirty.restart = true ∧ t.act.state = s.act.state) ∧
        (∀ tag, purpose = .confirm tag → t.act.confirmDue = none ∧
          t.port.replies = s.port.replies ++ [{ tag := tag, status := .ok, view := none }])) ∧
      (d.failed = true → ∃ t, exec (.recordWriteCompletion n d) s = .next t ∧ t.act.sel = s.act.sel ∧
        t.store.copy = s.store.copy ∧ t.store.seqNo = s.store.seqNo ∧
        readArea [] t.store.flash (.selector copy.other) = readArea [] s.store.flash (.selector copy.other) ∧
        (readArea [] t.store.flash (.selector copy) = readArea [] s.store.flash (.selector copy) ∨
          readArea [] t.store.flash (.selector copy) = none) ∧
        (purpose = .commit →
          (¬s.GatesOpen → t.act = { s.act with state := .waiting, writeInFlight := false }) ∧
          (s.GatesOpen → State.Evacuates { s with act := { s.act with writeInFlight := false } } t (max s.now n))) ∧
        (purpose = .revert → t.act.state = s.act.state ∧ t.act.writeInFlight = false ∧ (s.act.retry = none →
          ∃ w, t.act.retry = some w ∧ w.sel = sel ∧ t.act.retryDue = some (max s.now n + 1000))) ∧
        (∀ tag, purpose = .confirm tag → t.port.replies = s.port.replies ++ [{ tag := tag, status := .busy, view := none }] ∧
          (s.act.confirmHeld = false → t.act = { s.act with writeInFlight := false }) ∧
          (s.act.confirmHeld = true → t.act.state = .restarting ∧ t.act.confirmHeld = false ∧ t.Flies
            { owner := .activation
              kind := .selectorWrite s.store.orders .revert
                { s.act.sel with booted := s.act.sel.confirmed, trial := false, trialStarts := 2 } (some s.nextSelector) })))) ∧
    (∀ v body, s.Flies { owner := .schedule, kind := .recordWrite .book v body } →
      (d.failed = false → s.sched.writeOwed = false → exec (.recordWriteCompletion n d) s = .next
        { s.clockTo n with
          store := { s.store with flash := writeArea s.store.flash .book body, inflight := none }
          sched := { s.sched with writeInFlight := false } }) ∧
      (d.failed = true → ∃ t, exec (.recordWriteCompletion n d) s = .next t ∧ t.sched.writeOwed = true ∧ t.sched.writeInFlight = false)) ∧
    (∀ tag v body, s.Flies { owner := .writeConfig tag, kind := .recordWrite .configStaged v body } →
      ∃ t, exec (.recordWriteCompletion n d) s = .next t ∧
        t.port.replies = s.port.replies ++ [{ tag := tag, status := if d.failed then .busy else .ok, view := none }] ∧
        (d.failed = false → t.store.flash = writeArea s.store.flash .configStaged body))

/-! ### Requests and the sending order -/

/-- READ-RECORD and WRITE-CONFIG (R173, R174, R140): a kind or index out of its range is answered RANGE; an index that selects
nothing an empty record; a record, the book header (R79) and the time (R76) are answered as they stand; the staged
configuration is read from the store first, its read waiting behind other operations or answered BUSY when 8 wait, and its
body returned as stored, or an empty record when it is invalid. That the time left on the confirm timer reads stopped while
its expiry is held is log entry 31 (DEDUCED). A WRITE-CONFIG with a bad boolean byte is answered
MALFORMED, also with an unusable node id beside it, whose precedence R174 leaves open (DESIGN CHOICE, log entry 52), and one
with an unusable node id alone RANGE; otherwise the staged area's write is submitted, or answered BUSY when 8 wait. -/
def Obligations.RecordsAreReadAndConfigWritten : Prop :=
  (∀ (n : Nat) (m : HostMsg) (s : State), s.Takes → hostMsgOk .readRecord m = true →
    let kind := field m.body 0 1
    let index := field m.body 1 1
    let u := s.clockTo n
    let answers := fun v => exec (.readRecord n m) s = .next (u.replyWith m.tag v)
    (7 < kind ∨ (kind = 0 ∧ 63 < index) ∨ (kind = 1 ∧ 127 < index) ∨ (kind = 2 ∧ 14 < index) ∨ (kind = 3 ∧ 1 < index) ∨
        (kind = 4 ∧ 0 < index) ∨ (kind = 5 ∧ 1 < index) ∨ (kind = 6 ∧ 0 < index) ∨ (kind = 7 ∧ 0 < index) →
      exec (.readRecord n m) s = .next (u.reply m.tag .range)) ∧
    (∀ i : Fin 64, kind = 0 → index = i →
      (s.record i = none → answers .emptyRecord) ∧ ∀ r, s.record i = some r → answers (.client r)) ∧
    (∀ j : Fin 128, kind = 1 → index = j →
      ((∀ f, s.flow j ≠ .used f) → answers .emptyRecord) ∧ ∀ f, s.flow j = .used f → answers (.flow f)) ∧
    (kind = 2 → index < 15 → answers (match s.peers.table[index]? with | some p => .peer p | none => .emptyRecord)) ∧
    (∀ k : SlotId, kind = 3 → index = (match k with | .a => 0 | .b => 1) →
      let marked := fun (b : Block) (x : ChunkMark) => (b.chunks.toList.filter fun y => y == x).length
      answers (.slot
        { slot := s.slot k, counts := (s.slot k).blocks.toList.map fun b => (marked b .programmed, marked b .pending)
          outstanding := s.dist.outstanding, serve := s.dist.serve, relay := s.dist.relay, busySkip := s.dist.busySkip
          barred := s.dist.barred, manifestOwed := s.dist.manifestOwed })) ∧
    (kind = 4 → index = 0 →
      let b := s.sched.book
      answers (.bookHeader
        { version := b.version, origin := b.origin, len := (writeBook b).length, quiet := b.quiet
          windowCounts := b.profiles.map fun p => p.windows.length, bindingCount := b.bindings.length
          staged := s.sched.staging.map fun g => (g.version, g.origin) })) ∧
    (kind = 7 → index = 0 → answers (.time
      { mesh := s.time.mesh, rank := s.time.rank, day := s.time.mesh / 86400, weekday := s.time.mesh / 86400 % 7
        minute := s.time.mesh % 86400 / 60, minuteMark := s.time.minuteMark, dayMark := s.time.dayMark
        ageingLeft := s.time.ageingDue.map fun due => due - max s.now n })) ∧
    (kind = 5 → index = 0 → answers (.config s.cfg)) ∧
    (kind = 6 → index = 0 → answers (.selector
      { sel := s.act.sel, state := s.act.state, activateNow := s.act.activateNow
        confirmLeft := s.act.confirmDue.map fun due => due - max s.now n })) ∧
    (kind = 5 → index = 1 →
      let op : StoreOp := { owner := .readConfig m.tag, kind := .recordRead .configStaged }
      (s.StoreIdle → exec (.readRecord n m) s = .next (u.flying op)) ∧
      (¬s.StoreIdle → s.store.waiting.length < 8 → exec (.readRecord n m) s = .next
        { u with store := { s.store with waiting := s.store.waiting ++ [op] } }) ∧
      (8 ≤ s.store.waiting.length → exec (.readRecord n m) s = .next (u.reply m.tag .busy)))) ∧
  (∀ (n : Nat) (d : Device) (s : State) (tag : Tag), s.MarksClear →
    s.Flies { owner := .readConfig tag, kind := .recordRead .configStaged } →
    let u : State := { s.clockTo n with store := { s.store with inflight := none } }
    (∀ body, d.failed = false → readArea d.cells s.store.flash .configStaged = some body →
      exec (.recordReadCompletion n d) s = .next (u.replyWith tag (.storedConfig body))) ∧
    (d.failed = true ∨ readArea d.cells s.store.flash .configStaged = none →
      exec (.recordReadCompletion n d) s = .next (u.replyWith tag .emptyRecord))) ∧
  (∀ (n : Nat) (m : HostMsg) (s : State), s.Takes → hostMsgOk .writeConfig m = true →
    let flag := fun x => x = 0 ∨ x = 1 ∨ x = 255
    let sound := flag (field m.body 1 1) ∧ flag (field m.body 10 1) ∧ flag (field m.body 11 1)
    let usable := 1 ≤ field m.body 0 1 ∧ field m.body 0 1 ≤ 63
    let op : StoreOp := { owner := .writeConfig m.tag, kind := .recordWrite .configStaged 0 m.body }
    let u := s.clockTo n
    (¬sound → exec (.writeConfig n m) s = .next (u.reply m.tag .malformed)) ∧
    (sound → ¬usable → exec (.writeConfig n m) s = .next (u.reply m.tag .range)) ∧
    (sound → usable → s.StoreIdle → exec (.writeConfig n m) s = .next (u.flying op)) ∧
    (sound → usable → ¬s.StoreIdle → s.store.waiting.length < 8 → exec (.writeConfig n m) s = .next
      { u with store := { s.store with waiting := s.store.waiting ++ [op] } }) ∧
    (sound → usable → 8 ≤ s.store.waiting.length → exec (.writeConfig n m) s = .next (u.reply m.tag .busy)))

/-- At an acceptance by the host's side the port sends the first thing owed (R175, R176): the oldest reply, the oldest
refused client, PACE, RESTART, an ACCESS subject by client slot, a STEER subject, a CLASS subject by flow slot, and, with no
subject left to send, the oldest notice with the overflow flag, which it clears. A flow's CLASS is passed over while another
slot owes a release of its client and digest (R118); that a release is sent though another slot owes the same one is log entry
14 (DEDUCED), and an ACCESS directive for a DEPARTED record is log entry 17 (DEDUCED). With nothing owed nothing is sent. The
port then takes the messages that waited in the link, oldest first, while fewer than 8 requests are held (R171; that it takes
them within the acceptance is log entry 24, DESIGN CHOICE). -/
def Obligations.AcceptanceSendsInOrder : Prop :=
  ∀ (n : Nat) (s : State), s.running = true →
    let u := s.clockTo n
    let goes := fun t : State => ∃ w, exec (.hostAcceptance n) s = .next w ∧ LinkTaken t w
    let sends := fun (msg : PortMessage) (t : State) =>
      goes { t with port := { t.port with sent := some { message := msg, wire := writePort msg } } }
    let clear := s.port.replies = [] ∧ s.clients.refusals = []
    let dirty := s.port.dirty
    let noAccess := fun k : Fin 64 => dirty.access[k] = false ∨ s.record k = none
    let noSteer := fun k : Fin 64 => dirty.steer[k] = false ∨ s.record k = none
    let behind := fun (j : Fin 128) (f : FlowRecord) => ∃ k, k ≠ j ∧ s.flow k = .release f.digest f.client
    let noClass := fun j : Fin 128 => dirty.cls[j] = false ∨ s.flow j = .free ∨
      ∃ f, s.flow j = .used f ∧ (f.state = .sampling ∨ f.state = .reserved ∨ behind j f)
    let upTo := clear ∧ dirty.pace = false ∧ dirty.restart = false
    let toClass := upTo ∧ ∀ k, noAccess k ∧ noSteer k
    (∀ r rest, s.port.replies = r :: rest → sends (.reply r) { u with port := { s.port with replies := rest } }) ∧
    (∀ c rest, s.port.replies = [] → s.clients.refusals = c :: rest →
      sends (.refuseAssociation c) { u with clients := { s.clients with refusals := rest } }) ∧
    (clear → dirty.pace = true →
      sends (.pace s.prio.pace) { u with port := { s.port with dirty := { dirty with pace := false } } }) ∧
    (clear → dirty.pace = false → dirty.restart = true →
      sends .restart { u with port := { s.port with dirty := { dirty with restart := false } } }) ∧
    (∀ (i : Fin 64) r, upTo → dirty.access[i] = true → s.record i = some r → (∀ k, k < i → noAccess k) →
      sends (.access r.client r.access) (u.setAccessMark i false)) ∧
    (∀ (i : Fin 64) r, upTo → (∀ k, noAccess k) → dirty.steer[i] = true → s.record i = some r → (∀ k, k < i → noSteer k) →
      sends (.steer r.client (if r.state = .handing then r.offerTarget else none)) (u.setSteerMark i false)) ∧
    (∀ (j : Fin 128), toClass → dirty.cls[j] = true → (∀ k, k < j → noClass k) →
      (∀ d c, s.flow j = .release d c → goes
        { u with
          prio := { s.prio with flows := putSlot s.prio.flows j .free }
          port := { s.port with
            dirty := { dirty with cls := putSlot dirty.cls j false }
            sent := some { message := .flowClass d c .released, wire := writePort (.flowClass d c .released) } } }) ∧
      (∀ f value, s.flow j = .used f → ¬behind j f →
        (f.state = .admitted ∧ value = .game) ∨ (f.state = .bulk ∧ value = .bulk) ∨
          ((f.state = .waiting ∨ f.state = .idle ∨ f.state = .standard) ∧ value = .standard) →
        sends (.flowClass f.digest f.client value) (u.setClassMark j false))) ∧
    (∀ x rest, toClass → (∀ j, noClass j) → s.port.notices = x :: rest →
      sends (.notice x s.port.overflow) { u with port := { s.port with notices := rest, overflow := false } }) ∧
    (toClass → (∀ j, noClass j) → s.port.notices = [] → goes u)

/-! ### Messages, bytes and what every command leaves alone -/

/-- A host message that fails its checks is discarded; a request of an unconfigured part, other than READ-RECORD and
WRITE-CONFIG, is answered STATE; while no start has completed, 8 requests are held or older messages wait, a message waits
in the link behind them (R165, R171, R172). When a start sequence completes and when a message is accepted, those that wait are
taken oldest first, as they would be on delivery, for as long as fewer than 8 requests are held; that the command which opened the
port takes them is log entry 24 (DESIGN CHOICE). -/
def Obligations.MessagesAreDiscardedAnsweredOrWait : Prop :=
  (∀ (n : Nat) (s : State),
    (s.seq.stage = .ready →
      ∃ t, exec (.startSequenceComplete n) s = .next t ∧ LinkTaken (s.clockTo n).startCompletes t) ∧
    (s.running = true → let v := (s.clockTo n).sendNext
      (∃ t, exec (.hostAcceptance n) s = .next t ∧ LinkTaken v t) ∧
      ∀ k m, v.port.link = [(k, m)] → v.heldRequests < 8 →
        exec (.hostAcceptance n) s = exec (k.command 0 m) { v with port := { v.port with link := [] } })) ∧
  ∀ (k : HostKind) (n : Nat) (m : HostMsg) (s : State),
    (s.Takes → exec (k.command n m) s = .next (State.takeMessage k m (s.clockTo n))) ∧
    (s.Takes → hostMsgOk k m = false → exec (k.command n m) s = .next (s.clockTo n)) ∧
    (s.Takes → hostMsgOk k m = true → s.cfg.nodeId = 0 ∨ 63 < s.cfg.nodeId →
      k = .loadBook ∨ k = .setTime ∨ k = .seedManifest ∨ k = .seedChunk ∨ k = .activateNow ∨ k = .confirmImage →
      exec (k.command n m) s = .next (State.reply m.tag .state (s.clockTo n))) ∧
    (s.running = false ∨ 8 ≤ s.heldRequests ∨ s.port.link ≠ [] →
      exec (k.command n m) s = .next { s.clockTo n with port := { s.port with link := s.port.link ++ [(k, m)] } })

/-- A frame written as the radio takes it reads back as itself, with every field at every value its bytes can hold (R1, R2,
section 12.5). Bits 3 to 7 of an ADVERT's flags byte belong to no field (DESIGN CHOICE, log entry 57). -/
def Obligations.FramesReadBack : Prop := ∀ f : Frame, f.Fits → readFrame (writeFrame f) = some f

/-- What the part writes it reads back: a configuration in range, a selector with its sequence number, a record in its area
of the store, and a Schedule Book (R77, R78, R129, R134, R177, section 12.5). -/
def Obligations.RecordsReadBack : Prop :=
  (∀ c : ActiveConfig, c.Fits → readConfig (writeConfig c) = c) ∧
  (∀ (q : Nat) (sel : Selector), q < 2 ^ 32 → sel.trialStarts < 256 → sel.floor < 2 ^ 32 →
    readSelector (writeSelector q sel) = some (q, sel)) ∧
  (∀ (flash : List Host.Cell) (a : Area) (body : List Byte), body.length ≤ 16377 →
    readArea [] (writeArea flash a body) a = some body) ∧
  (∀ b : Book, b.Fits → readBook (writeBook b) = some b)

/-- What a command may change unit by unit. The flash, the selector and the store's account of its copies change only at a
start and at a store completion, and no byte of the flash outside the range of the operation in flight; the configuration
and the start sequence only at these and when the sequence completes; the mesh time, the working book, the receive queue,
the Heard List, the refusal list, the frame the radio took and the message sent only at the commands that bear on them, or
where messages that waited are taken. -/
def Obligations.UnitsAreLeftAlone : Prop :=
  ∀ (c : Instr) (s t : State), exec c s = .next t →
    (∀ a, (∀ op b m, s.store.inflight = some op → op.writes = some (b, m) → a < b ∨ b + m ≤ a) →
      Memory.read t.store.flash a = Memory.read s.store.flash a) ∧
    (¬IsStart c →
      (¬IsCompletion c → t.store.flash = s.store.flash ∧ t.store.copy = s.store.copy ∧ t.store.seqNo = s.store.seqNo ∧
        t.act.sel = s.act.sel) ∧
      (¬IsCompletion c → (∀ n, c ≠ .startSequenceComplete n) → t.cfg = s.cfg ∧ t.seq = s.seq) ∧
      (¬Resumes c → (∀ n m, c ≠ .advert n ∧ c ≠ .setTime n m) → c ≠ .tick → c ≠ .ageingTimerExpiry → t.time = s.time) ∧
      (¬Resumes c → (∀ n m d, c ≠ .bookSegment n ∧ c ≠ .loadBook n m ∧ c ≠ .recordReadCompletion n d) →
        t.sched.book = s.sched.book) ∧
      (¬TakesFrame c → (∀ n w, c ≠ .frameReceived n w) → t.pli.rx = s.pli.rx) ∧
      (¬Resumes c → (∀ n m x, c ≠ .associate n m ∧ c ≠ .sighting n m ∧ c ≠ .heardListExpiry x) →
        t.clients.heard = s.clients.heard) ∧
      (¬Resumes c → (∀ n m, c ≠ .associate n m) → t.clients.refusals = s.clients.refusals) ∧
      ((∀ n, c ≠ .frameTakenByRadio n) → t.radioOut = s.radioOut) ∧
      ((∀ n, c ≠ .hostAcceptance n) → t.port.sent = s.port.sent))

/-! ### What every step keeps -/

/-- Every step keeps the canonical form of the flash, every queue and table within its capacity, the tables without
duplicates (the Client Table and a record's decline holds, the Flow Table, the refusal list, the Peer Table in its order, the
Heard List, the Sighting Table and the serve queue), and the figures within their ranges, each of these four on its own (R3,
R5, R6, R12, R18, R19, R21, R25, R36, R39, R40, R71, R102, R120, R123, R131, R150, R176). -/
def Obligations.InvariantsAreKept : Prop :=
  ∀ s t : State, step s = .next t →
    (s.FlashCanonical → t.FlashCanonical) ∧ (s.WithinCapacity → t.WithinCapacity) ∧
    (s.EntriesDistinct → t.EntriesDistinct) ∧ (s.WithinRange → t.WithinRange)

/-- Own reserved airtime never exceeds the airtime ceiling (R106): every step keeps it so, with every flow owned by the
client record it names and one record for a client. -/
def Obligations.AirtimeStaysWithinTheCeiling : Prop :=
  ∀ s t : State, s.AirtimeKept → step s = .next t → t.AirtimeKept

/-- The Pace record follows the ADMITTED set (R120, R121): every step keeps it the one that set gives. It has no interval
exactly while no flow is ADMITTED, and otherwise the smallest mean interval of an ADMITTED flow; the burst limit lies within
2,500..30,000 µs, is 2,500 µs with fixed pace, and is never more than half of an ADMITTED flow's mean interval. -/
def Obligations.PaceFollowsTheAdmittedSet : Prop :=
  (∀ s t : State, s.AirtimeKept → s.FlowsEntitled → s.MarksClear → s.Paced → step s = .next t → t.MarksClear ∧ t.Paced) ∧
  (∀ s : State, s.prio.pace = s.paceNow →
    let admitted := fun f : FlowRecord => f.state = .admitted ∧ ∃ j, s.flow j = .used f
    (∀ f, admitted f → ∃ m, f.meanInterval = some m ∧ 5 ≤ m) →
    (s.prio.pace.interval = none ↔ ∀ f, ¬admitted f) ∧
    (∀ m, s.prio.pace.interval = some m → (∃ f, admitted f ∧ f.meanInterval = some m) ∧
      ∀ f x, admitted f → f.meanInterval = some x → m ≤ x) ∧
    2500 ≤ s.prio.pace.burst ∧ s.prio.pace.burst ≤ 30000 ∧
    (s.cfg.fixedPace = true → s.prio.pace.burst = 2500) ∧
    (∀ f m, admitted f → f.meanInterval = some m → 2 * s.prio.pace.burst ≤ 1000 * m))

/-- Every step keeps each ADMITTED flow with a record in ASSOCIATED, OFFERING or HANDING whose access is OPEN, the RESERVED
flows those of ARRIVING records, no flow with a DEPARTED record, no ARRIVING record while the part evacuates, commits or
restarts, and no record while it starts (R102, R112, R114, R115, R161, R168). That the confirm expiry drops the ARRIVING
records is log entry 36 (DEDUCED). -/
def Obligations.FlowsStayEntitled : Prop :=
  ∀ s t : State, s.AirtimeKept → s.FlowsEntitled → step s = .next t → t.FlowsEntitled

/-- No program or erase is ever carried out on a protected slot or its manifest area (R133): no command changes a byte of
them while the operation in flight passed its check; a command leaves in flight only an operation that passed its check under
the selector then held; and while no start has completed the store holds beside selector writes only the one operation that
the start sequence waits for (R165), so that none is in flight when the sequence learns the selector. -/
def Obligations.ProtectedFlashIsKept : Prop :=
  ∀ (c : Instr) (s t : State), exec c s = .next t → s.OpsFit → s.FlightUnprotected → s.OneAtATime →
    t.OpsFit ∧ t.FlightUnprotected ∧ t.OneAtATime ∧
    ∀ a, s.Guarded a → Memory.read t.store.flash a = Memory.read s.store.flash a

/-- A record's day stamp never decreases, its used minutes never decrease within a day and never exceed 1,440 (R96). Stated
of a record still held by the same client, of a command that takes no messages that waited in the link, with PROVISIONAL
records at 0 used minutes as they are created (R22), and a working book whose allowances were clamped (R87). -/
def Obligations.UsedMinutesNeverDecrease : Prop :=
  ∀ (c : Instr) (s t : State), exec c s = .next t → s.port.link = [] →
    (∀ i r, s.record i = some r → r.used ≤ 1440) → (∀ i r, s.record i = some r → r.state = .provisional → r.used = 0) →
    (∀ p ∈ s.sched.book.profiles, ∀ a, p.allowance = some a → a ≤ 1440) →
    (∀ i r q, s.record i = some r → t.record i = some q → q.client = r.client → r.state ≠ .departed →
      r.dayStamp ≤ q.dayStamp ∧ (q.dayStamp = r.dayStamp → r.used ≤ q.used)) ∧
    (∀ i q, t.record i = some q → q.used ≤ 1440 ∧ (q.state = .provisional → q.used = 0))
end

