-- ==== Sys2Proof/Laws/Lists.lean ====
section
/-! SUPPORT. Laws of the list operations: keeping a list in order, sorting, and working through a list. -/

namespace Sys2Proof.Machine

variable {α : Type}

theorem mem_insertBy (before : α → α → Bool) (x y : α) (l : List α) : y ∈ insertBy before x l ↔ y = x ∨ y ∈ l := by
  induction l with
  | nil => simp [insertBy]
  | cons a l ih =>
    simp only [insertBy]
    split <;> simp [ih, or_left_comm]

theorem length_insertBy (before : α → α → Bool) (x : α) (l : List α) : (insertBy before x l).length = l.length + 1 := by
  induction l with
  | nil => rfl
  | cons a l ih =>
    simp only [insertBy]
    split <;> simp [ih]

theorem mem_sortBy (before : α → α → Bool) (y : α) (l : List α) : y ∈ sortBy before l ↔ y ∈ l := by
  have h : ∀ (xs acc : List α), y ∈ xs.foldl (fun ys x => insertBy before x ys) acc ↔ y ∈ acc ∨ y ∈ xs := by
    intro xs
    induction xs with
    | nil => simp
    | cons x xs ih =>
      intro acc
      rw [List.foldl_cons, ih, mem_insertBy, List.mem_cons, or_left_comm, or_assoc, or_left_comm]
  simpa [sortBy] using h l []

theorem length_sortBy (before : α → α → Bool) (l : List α) : (sortBy before l).length = l.length := by
  have h : ∀ (xs acc : List α), (xs.foldl (fun ys x => insertBy before x ys) acc).length = acc.length + xs.length := by
    intro xs
    induction xs with
    | nil => simp
    | cons x xs ih =>
      intro acc
      rw [List.foldl_cons, ih, length_insertBy, List.length_cons]
      omega
  simpa [sortBy] using h l []

/-- The first of a sorted list is one of the list. -/
theorem mem_of_head_sortBy {before : α → α → Bool} {l : List α} {w : α} (h : (sortBy before l).head? = some w) : w ∈ l :=
  (mem_sortBy before w l).mp (List.mem_of_head? h)

/-- Inserting into a list in order keeps it in order, when the new element comes strictly before or after each. -/
theorem pairwise_insertBy (before : α → α → Bool) (x : α) (l : List α)
    (hl : l.Pairwise fun a b => before a b = true)
    (ht : ∀ a b c, before a b = true → before b c = true → before a c = true)
    (hx : ∀ a ∈ l, before x a = true ∨ before a x = true) :
    (insertBy before x l).Pairwise fun a b => before a b = true := by
  induction l with
  | nil => simp [insertBy]
  | cons a l ih =>
    have hp := List.pairwise_cons.mp hl
    simp only [insertBy]
    split
    · rename_i hxa
      refine List.pairwise_cons.mpr ⟨fun b hb => ?_, hl⟩
      rcases List.mem_cons.mp hb with rfl | hb
      · exact hxa
      · exact ht _ _ _ hxa (hp.1 b hb)
    · rename_i hxa
      refine List.pairwise_cons.mpr ⟨fun b hb => ?_, ih hp.2 (fun b hb => hx b (by simp [hb]))⟩
      rcases (mem_insertBy _ _ _ _).mp hb with rfl | hb
      · rcases hx a (by simp) with h | h
        · exact absurd h hxa
        · exact h
      · exact hp.1 b hb

/-- In a sorted list no later element comes before an earlier one, for an order that is total and transitive. -/
theorem sortBy_sorted (before : α → α → Bool) (l : List α)
    (ht : ∀ a b c, before b a = false → before c b = false → before c a = false)
    (hto : ∀ a b, before a b = true → before b a = false) :
    (sortBy before l).Pairwise fun a b => before b a = false := by
  have hins : ∀ (x : α) (l : List α), l.Pairwise (fun a b => before b a = false) →
      (insertBy before x l).Pairwise (fun a b => before b a = false) := by
    intro x l
    induction l with
    | nil => simp [insertBy]
    | cons a l ih =>
      intro hl
      have hp := List.pairwise_cons.mp hl
      simp only [insertBy]
      split
      · rename_i hxa
        refine List.pairwise_cons.mpr ⟨fun b hb => ?_, hl⟩
        rcases List.mem_cons.mp hb with rfl | hb
        · exact hto _ _ hxa
        · exact ht _ _ _ (hto _ _ hxa) (hp.1 b hb)
      · rename_i hxa
        refine List.pairwise_cons.mpr ⟨fun b hb => ?_, ih hp.2⟩
        rcases (mem_insertBy _ _ _ _).mp hb with rfl | hb
        · simpa using hxa
        · exact hp.1 b hb
  have h : ∀ (xs acc : List α), acc.Pairwise (fun a b => before b a = false) →
      (xs.foldl (fun ys x => insertBy before x ys) acc).Pairwise (fun a b => before b a = false) := by
    intro xs
    induction xs with
    | nil => exact fun _ h => h
    | cons x xs ih => exact fun acc ha => ih _ (hins x acc ha)
  exact h l [] List.Pairwise.nil

/-! ### Working through a list -/

@[simp] theorem walk_nil (f : α → State → State) (s : State) : walk [] f s = s := rfl

@[simp] theorem walk_cons (f : α → State → State) (x : α) (xs : List α) (s : State) :
    walk (x :: xs) f s = walk xs f (f x s) := rfl

/-- What every step of a walk keeps, the walk keeps. -/
theorem walk_keeps (P : State → Prop) (f : α → State → State) (h : ∀ x s, P s → P (f x s)) (xs : List α) (s : State)
    (hs : P s) : P (walk xs f s) := by
  induction xs generalizing s with
  | nil => exact hs
  | cons x xs ih => exact ih _ (h x s hs)

/-- A part of the state that no step of a walk changes, the walk does not change. -/
theorem walk_same {β : Type} (g : State → β) (f : α → State → State) (h : ∀ x s, g (f x s) = g s) (xs : List α) (s : State) :
    g (walk xs f s) = g s := by
  induction xs generalizing s with
  | nil => rfl
  | cons x xs ih => rw [walk_cons, ih, h]

end Sys2Proof.Machine
end

