-- ==== Sys2Proof/Laws/State.lean ====
section
/-! SUPPORT. One lemma per field per update: what each plain update of the state leaves alone. All hold by unfolding. -/

namespace Sys2Proof.Machine

section
variable (s : State)

/-! `clockTo` -/

@[simp] theorem State.clockTo_pending (t : Nat) : (s.clockTo t).pending = s.pending := rfl
@[simp] theorem State.clockTo_seq (t : Nat) : (s.clockTo t).seq = s.seq := rfl
@[simp] theorem State.clockTo_cfg (t : Nat) : (s.clockTo t).cfg = s.cfg := rfl
@[simp] theorem State.clockTo_pli (t : Nat) : (s.clockTo t).pli = s.pli := rfl
@[simp] theorem State.clockTo_peers (t : Nat) : (s.clockTo t).peers = s.peers := rfl
@[simp] theorem State.clockTo_clients (t : Nat) : (s.clockTo t).clients = s.clients := rfl
@[simp] theorem State.clockTo_time (t : Nat) : (s.clockTo t).time = s.time := rfl
@[simp] theorem State.clockTo_sched (t : Nat) : (s.clockTo t).sched = s.sched := rfl
@[simp] theorem State.clockTo_prio (t : Nat) : (s.clockTo t).prio = s.prio := rfl
@[simp] theorem State.clockTo_store (t : Nat) : (s.clockTo t).store = s.store := rfl
@[simp] theorem State.clockTo_dist (t : Nat) : (s.clockTo t).dist = s.dist := rfl
@[simp] theorem State.clockTo_act (t : Nat) : (s.clockTo t).act = s.act := rfl
@[simp] theorem State.clockTo_port (t : Nat) : (s.clockTo t).port = s.port := rfl
@[simp] theorem State.clockTo_ev (t : Nat) : (s.clockTo t).ev = s.ev := rfl
@[simp] theorem State.clockTo_radioOut (t : Nat) : (s.clockTo t).radioOut = s.radioOut := rfl

/-! `markPace` -/

@[simp] theorem State.markPace_pending : (s.markPace).pending = s.pending := rfl
@[simp] theorem State.markPace_now : (s.markPace).now = s.now := rfl
@[simp] theorem State.markPace_seq : (s.markPace).seq = s.seq := rfl
@[simp] theorem State.markPace_cfg : (s.markPace).cfg = s.cfg := rfl
@[simp] theorem State.markPace_pli : (s.markPace).pli = s.pli := rfl
@[simp] theorem State.markPace_peers : (s.markPace).peers = s.peers := rfl
@[simp] theorem State.markPace_clients : (s.markPace).clients = s.clients := rfl
@[simp] theorem State.markPace_time : (s.markPace).time = s.time := rfl
@[simp] theorem State.markPace_sched : (s.markPace).sched = s.sched := rfl
@[simp] theorem State.markPace_prio : (s.markPace).prio = s.prio := rfl
@[simp] theorem State.markPace_store : (s.markPace).store = s.store := rfl
@[simp] theorem State.markPace_dist : (s.markPace).dist = s.dist := rfl
@[simp] theorem State.markPace_act : (s.markPace).act = s.act := rfl
@[simp] theorem State.markPace_ev : (s.markPace).ev = s.ev := rfl
@[simp] theorem State.markPace_radioOut : (s.markPace).radioOut = s.radioOut := rfl
@[simp] theorem State.markPace_port_notices : (s.markPace).port.notices = s.port.notices := rfl
@[simp] theorem State.markPace_port_overflow : (s.markPace).port.overflow = s.port.overflow := rfl
@[simp] theorem State.markPace_port_replies : (s.markPace).port.replies = s.port.replies := rfl
@[simp] theorem State.markPace_port_link : (s.markPace).port.link = s.port.link := rfl
@[simp] theorem State.markPace_port_sent : (s.markPace).port.sent = s.port.sent := rfl

/-! `markRestart` -/

@[simp] theorem State.markRestart_pending : (s.markRestart).pending = s.pending := rfl
@[simp] theorem State.markRestart_now : (s.markRestart).now = s.now := rfl
@[simp] theorem State.markRestart_seq : (s.markRestart).seq = s.seq := rfl
@[simp] theorem State.markRestart_cfg : (s.markRestart).cfg = s.cfg := rfl
@[simp] theorem State.markRestart_pli : (s.markRestart).pli = s.pli := rfl
@[simp] theorem State.markRestart_peers : (s.markRestart).peers = s.peers := rfl
@[simp] theorem State.markRestart_clients : (s.markRestart).clients = s.clients := rfl
@[simp] theorem State.markRestart_time : (s.markRestart).time = s.time := rfl
@[simp] theorem State.markRestart_sched : (s.markRestart).sched = s.sched := rfl
@[simp] theorem State.markRestart_prio : (s.markRestart).prio = s.prio := rfl
@[simp] theorem State.markRestart_store : (s.markRestart).store = s.store := rfl
@[simp] theorem State.markRestart_dist : (s.markRestart).dist = s.dist := rfl
@[simp] theorem State.markRestart_act : (s.markRestart).act = s.act := rfl
@[simp] theorem State.markRestart_ev : (s.markRestart).ev = s.ev := rfl
@[simp] theorem State.markRestart_radioOut : (s.markRestart).radioOut = s.radioOut := rfl
@[simp] theorem State.markRestart_port_notices : (s.markRestart).port.notices = s.port.notices := rfl
@[simp] theorem State.markRestart_port_overflow : (s.markRestart).port.overflow = s.port.overflow := rfl
@[simp] theorem State.markRestart_port_replies : (s.markRestart).port.replies = s.port.replies := rfl
@[simp] theorem State.markRestart_port_link : (s.markRestart).port.link = s.port.link := rfl
@[simp] theorem State.markRestart_port_sent : (s.markRestart).port.sent = s.port.sent := rfl

/-! `setAccessMark` -/

@[simp] theorem State.setAccessMark_pending (i : Fin 64) (v : Bool) : (s.setAccessMark i v).pending = s.pending := rfl
@[simp] theorem State.setAccessMark_now (i : Fin 64) (v : Bool) : (s.setAccessMark i v).now = s.now := rfl
@[simp] theorem State.setAccessMark_seq (i : Fin 64) (v : Bool) : (s.setAccessMark i v).seq = s.seq := rfl
@[simp] theorem State.setAccessMark_cfg (i : Fin 64) (v : Bool) : (s.setAccessMark i v).cfg = s.cfg := rfl
@[simp] theorem State.setAccessMark_pli (i : Fin 64) (v : Bool) : (s.setAccessMark i v).pli = s.pli := rfl
@[simp] theorem State.setAccessMark_peers (i : Fin 64) (v : Bool) : (s.setAccessMark i v).peers = s.peers := rfl
@[simp] theorem State.setAccessMark_clients (i : Fin 64) (v : Bool) : (s.setAccessMark i v).clients = s.clients := rfl
@[simp] theorem State.setAccessMark_time (i : Fin 64) (v : Bool) : (s.setAccessMark i v).time = s.time := rfl
@[simp] theorem State.setAccessMark_sched (i : Fin 64) (v : Bool) : (s.setAccessMark i v).sched = s.sched := rfl
@[simp] theorem State.setAccessMark_prio (i : Fin 64) (v : Bool) : (s.setAccessMark i v).prio = s.prio := rfl
@[simp] theorem State.setAccessMark_store (i : Fin 64) (v : Bool) : (s.setAccessMark i v).store = s.store := rfl
@[simp] theorem State.setAccessMark_dist (i : Fin 64) (v : Bool) : (s.setAccessMark i v).dist = s.dist := rfl
@[simp] theorem State.setAccessMark_act (i : Fin 64) (v : Bool) : (s.setAccessMark i v).act = s.act := rfl
@[simp] theorem State.setAccessMark_ev (i : Fin 64) (v : Bool) : (s.setAccessMark i v).ev = s.ev := rfl
@[simp] theorem State.setAccessMark_radioOut (i : Fin 64) (v : Bool) : (s.setAccessMark i v).radioOut = s.radioOut := rfl
@[simp] theorem State.setAccessMark_port_notices (i : Fin 64) (v : Bool) : (s.setAccessMark i v).port.notices = s.port.notices := rfl
@[simp] theorem State.setAccessMark_port_overflow (i : Fin 64) (v : Bool) : (s.setAccessMark i v).port.overflow = s.port.overflow := rfl
@[simp] theorem State.setAccessMark_port_replies (i : Fin 64) (v : Bool) : (s.setAccessMark i v).port.replies = s.port.replies := rfl
@[simp] theorem State.setAccessMark_port_link (i : Fin 64) (v : Bool) : (s.setAccessMark i v).port.link = s.port.link := rfl
@[simp] theorem State.setAccessMark_port_sent (i : Fin 64) (v : Bool) : (s.setAccessMark i v).port.sent = s.port.sent := rfl

/-! `setSteerMark` -/

@[simp] theorem State.setSteerMark_pending (i : Fin 64) (v : Bool) : (s.setSteerMark i v).pending = s.pending := rfl
@[simp] theorem State.setSteerMark_now (i : Fin 64) (v : Bool) : (s.setSteerMark i v).now = s.now := rfl
@[simp] theorem State.setSteerMark_seq (i : Fin 64) (v : Bool) : (s.setSteerMark i v).seq = s.seq := rfl
@[simp] theorem State.setSteerMark_cfg (i : Fin 64) (v : Bool) : (s.setSteerMark i v).cfg = s.cfg := rfl
@[simp] theorem State.setSteerMark_pli (i : Fin 64) (v : Bool) : (s.setSteerMark i v).pli = s.pli := rfl
@[simp] theorem State.setSteerMark_peers (i : Fin 64) (v : Bool) : (s.setSteerMark i v).peers = s.peers := rfl
@[simp] theorem State.setSteerMark_clients (i : Fin 64) (v : Bool) : (s.setSteerMark i v).clients = s.clients := rfl
@[simp] theorem State.setSteerMark_time (i : Fin 64) (v : Bool) : (s.setSteerMark i v).time = s.time := rfl
@[simp] theorem State.setSteerMark_sched (i : Fin 64) (v : Bool) : (s.setSteerMark i v).sched = s.sched := rfl
@[simp] theorem State.setSteerMark_prio (i : Fin 64) (v : Bool) : (s.setSteerMark i v).prio = s.prio := rfl
@[simp] theorem State.setSteerMark_store (i : Fin 64) (v : Bool) : (s.setSteerMark i v).store = s.store := rfl
@[simp] theorem State.setSteerMark_dist (i : Fin 64) (v : Bool) : (s.setSteerMark i v).dist = s.dist := rfl
@[simp] theorem State.setSteerMark_act (i : Fin 64) (v : Bool) : (s.setSteerMark i v).act = s.act := rfl
@[simp] theorem State.setSteerMark_ev (i : Fin 64) (v : Bool) : (s.setSteerMark i v).ev = s.ev := rfl
@[simp] theorem State.setSteerMark_radioOut (i : Fin 64) (v : Bool) : (s.setSteerMark i v).radioOut = s.radioOut := rfl
@[simp] theorem State.setSteerMark_port_notices (i : Fin 64) (v : Bool) : (s.setSteerMark i v).port.notices = s.port.notices := rfl
@[simp] theorem State.setSteerMark_port_overflow (i : Fin 64) (v : Bool) : (s.setSteerMark i v).port.overflow = s.port.overflow := rfl
@[simp] theorem State.setSteerMark_port_replies (i : Fin 64) (v : Bool) : (s.setSteerMark i v).port.replies = s.port.replies := rfl
@[simp] theorem State.setSteerMark_port_link (i : Fin 64) (v : Bool) : (s.setSteerMark i v).port.link = s.port.link := rfl
@[simp] theorem State.setSteerMark_port_sent (i : Fin 64) (v : Bool) : (s.setSteerMark i v).port.sent = s.port.sent := rfl

/-! `setClassMark` -/

@[simp] theorem State.setClassMark_pending (j : Fin 128) (v : Bool) : (s.setClassMark j v).pending = s.pending := rfl
@[simp] theorem State.setClassMark_now (j : Fin 128) (v : Bool) : (s.setClassMark j v).now = s.now := rfl
@[simp] theorem State.setClassMark_seq (j : Fin 128) (v : Bool) : (s.setClassMark j v).seq = s.seq := rfl
@[simp] theorem State.setClassMark_cfg (j : Fin 128) (v : Bool) : (s.setClassMark j v).cfg = s.cfg := rfl
@[simp] theorem State.setClassMark_pli (j : Fin 128) (v : Bool) : (s.setClassMark j v).pli = s.pli := rfl
@[simp] theorem State.setClassMark_peers (j : Fin 128) (v : Bool) : (s.setClassMark j v).peers = s.peers := rfl
@[simp] theorem State.setClassMark_clients (j : Fin 128) (v : Bool) : (s.setClassMark j v).clients = s.clients := rfl
@[simp] theorem State.setClassMark_time (j : Fin 128) (v : Bool) : (s.setClassMark j v).time = s.time := rfl
@[simp] theorem State.setClassMark_sched (j : Fin 128) (v : Bool) : (s.setClassMark j v).sched = s.sched := rfl
@[simp] theorem State.setClassMark_prio (j : Fin 128) (v : Bool) : (s.setClassMark j v).prio = s.prio := rfl
@[simp] theorem State.setClassMark_store (j : Fin 128) (v : Bool) : (s.setClassMark j v).store = s.store := rfl
@[simp] theorem State.setClassMark_dist (j : Fin 128) (v : Bool) : (s.setClassMark j v).dist = s.dist := rfl
@[simp] theorem State.setClassMark_act (j : Fin 128) (v : Bool) : (s.setClassMark j v).act = s.act := rfl
@[simp] theorem State.setClassMark_ev (j : Fin 128) (v : Bool) : (s.setClassMark j v).ev = s.ev := rfl
@[simp] theorem State.setClassMark_radioOut (j : Fin 128) (v : Bool) : (s.setClassMark j v).radioOut = s.radioOut := rfl
@[simp] theorem State.setClassMark_port_notices (j : Fin 128) (v : Bool) : (s.setClassMark j v).port.notices = s.port.notices := rfl
@[simp] theorem State.setClassMark_port_overflow (j : Fin 128) (v : Bool) : (s.setClassMark j v).port.overflow = s.port.overflow := rfl
@[simp] theorem State.setClassMark_port_replies (j : Fin 128) (v : Bool) : (s.setClassMark j v).port.replies = s.port.replies := rfl
@[simp] theorem State.setClassMark_port_link (j : Fin 128) (v : Bool) : (s.setClassMark j v).port.link = s.port.link := rfl
@[simp] theorem State.setClassMark_port_sent (j : Fin 128) (v : Bool) : (s.setClassMark j v).port.sent = s.port.sent := rfl

/-! `reply` -/

@[simp] theorem State.reply_pending (tag : Tag) (st : Status) : (s.reply tag st).pending = s.pending := rfl
@[simp] theorem State.reply_now (tag : Tag) (st : Status) : (s.reply tag st).now = s.now := rfl
@[simp] theorem State.reply_seq (tag : Tag) (st : Status) : (s.reply tag st).seq = s.seq := rfl
@[simp] theorem State.reply_cfg (tag : Tag) (st : Status) : (s.reply tag st).cfg = s.cfg := rfl
@[simp] theorem State.reply_pli (tag : Tag) (st : Status) : (s.reply tag st).pli = s.pli := rfl
@[simp] theorem State.reply_peers (tag : Tag) (st : Status) : (s.reply tag st).peers = s.peers := rfl
@[simp] theorem State.reply_clients (tag : Tag) (st : Status) : (s.reply tag st).clients = s.clients := rfl
@[simp] theorem State.reply_time (tag : Tag) (st : Status) : (s.reply tag st).time = s.time := rfl
@[simp] theorem State.reply_sched (tag : Tag) (st : Status) : (s.reply tag st).sched = s.sched := rfl
@[simp] theorem State.reply_prio (tag : Tag) (st : Status) : (s.reply tag st).prio = s.prio := rfl
@[simp] theorem State.reply_store (tag : Tag) (st : Status) : (s.reply tag st).store = s.store := rfl
@[simp] theorem State.reply_dist (tag : Tag) (st : Status) : (s.reply tag st).dist = s.dist := rfl
@[simp] theorem State.reply_act (tag : Tag) (st : Status) : (s.reply tag st).act = s.act := rfl
@[simp] theorem State.reply_ev (tag : Tag) (st : Status) : (s.reply tag st).ev = s.ev := rfl
@[simp] theorem State.reply_radioOut (tag : Tag) (st : Status) : (s.reply tag st).radioOut = s.radioOut := rfl
@[simp] theorem State.reply_port_dirty (tag : Tag) (st : Status) : (s.reply tag st).port.dirty = s.port.dirty := rfl
@[simp] theorem State.reply_port_notices (tag : Tag) (st : Status) : (s.reply tag st).port.notices = s.port.notices := rfl
@[simp] theorem State.reply_port_overflow (tag : Tag) (st : Status) : (s.reply tag st).port.overflow = s.port.overflow := rfl
@[simp] theorem State.reply_port_link (tag : Tag) (st : Status) : (s.reply tag st).port.link = s.port.link := rfl
@[simp] theorem State.reply_port_sent (tag : Tag) (st : Status) : (s.reply tag st).port.sent = s.port.sent := rfl

/-! `replyWith` -/

@[simp] theorem State.replyWith_pending (tag : Tag) (v : RecordView) : (s.replyWith tag v).pending = s.pending := rfl
@[simp] theorem State.replyWith_now (tag : Tag) (v : RecordView) : (s.replyWith tag v).now = s.now := rfl
@[simp] theorem State.replyWith_seq (tag : Tag) (v : RecordView) : (s.replyWith tag v).seq = s.seq := rfl
@[simp] theorem State.replyWith_cfg (tag : Tag) (v : RecordView) : (s.replyWith tag v).cfg = s.cfg := rfl
@[simp] theorem State.replyWith_pli (tag : Tag) (v : RecordView) : (s.replyWith tag v).pli = s.pli := rfl
@[simp] theorem State.replyWith_peers (tag : Tag) (v : RecordView) : (s.replyWith tag v).peers = s.peers := rfl
@[simp] theorem State.replyWith_clients (tag : Tag) (v : RecordView) : (s.replyWith tag v).clients = s.clients := rfl
@[simp] theorem State.replyWith_time (tag : Tag) (v : RecordView) : (s.replyWith tag v).time = s.time := rfl
@[simp] theorem State.replyWith_sched (tag : Tag) (v : RecordView) : (s.replyWith tag v).sched = s.sched := rfl
@[simp] theorem State.replyWith_prio (tag : Tag) (v : RecordView) : (s.replyWith tag v).prio = s.prio := rfl
@[simp] theorem State.replyWith_store (tag : Tag) (v : RecordView) : (s.replyWith tag v).store = s.store := rfl
@[simp] theorem State.replyWith_dist (tag : Tag) (v : RecordView) : (s.replyWith tag v).dist = s.dist := rfl
@[simp] theorem State.replyWith_act (tag : Tag) (v : RecordView) : (s.replyWith tag v).act = s.act := rfl
@[simp] theorem State.replyWith_ev (tag : Tag) (v : RecordView) : (s.replyWith tag v).ev = s.ev := rfl
@[simp] theorem State.replyWith_radioOut (tag : Tag) (v : RecordView) : (s.replyWith tag v).radioOut = s.radioOut := rfl
@[simp] theorem State.replyWith_port_dirty (tag : Tag) (v : RecordView) : (s.replyWith tag v).port.dirty = s.port.dirty := rfl
@[simp] theorem State.replyWith_port_notices (tag : Tag) (v : RecordView) : (s.replyWith tag v).port.notices = s.port.notices := rfl
@[simp] theorem State.replyWith_port_overflow (tag : Tag) (v : RecordView) : (s.replyWith tag v).port.overflow = s.port.overflow := rfl
@[simp] theorem State.replyWith_port_link (tag : Tag) (v : RecordView) : (s.replyWith tag v).port.link = s.port.link := rfl
@[simp] theorem State.replyWith_port_sent (tag : Tag) (v : RecordView) : (s.replyWith tag v).port.sent = s.port.sent := rfl

/-! `putRecord` -/

@[simp] theorem State.putRecord_pending (i : Fin 64) (r : ClientRecord) : (s.putRecord i r).pending = s.pending := rfl
@[simp] theorem State.putRecord_now (i : Fin 64) (r : ClientRecord) : (s.putRecord i r).now = s.now := rfl
@[simp] theorem State.putRecord_seq (i : Fin 64) (r : ClientRecord) : (s.putRecord i r).seq = s.seq := rfl
@[simp] theorem State.putRecord_cfg (i : Fin 64) (r : ClientRecord) : (s.putRecord i r).cfg = s.cfg := rfl
@[simp] theorem State.putRecord_pli (i : Fin 64) (r : ClientRecord) : (s.putRecord i r).pli = s.pli := rfl
@[simp] theorem State.putRecord_peers (i : Fin 64) (r : ClientRecord) : (s.putRecord i r).peers = s.peers := rfl
@[simp] theorem State.putRecord_time (i : Fin 64) (r : ClientRecord) : (s.putRecord i r).time = s.time := rfl
@[simp] theorem State.putRecord_sched (i : Fin 64) (r : ClientRecord) : (s.putRecord i r).sched = s.sched := rfl
@[simp] theorem State.putRecord_prio (i : Fin 64) (r : ClientRecord) : (s.putRecord i r).prio = s.prio := rfl
@[simp] theorem State.putRecord_store (i : Fin 64) (r : ClientRecord) : (s.putRecord i r).store = s.store := rfl
@[simp] theorem State.putRecord_dist (i : Fin 64) (r : ClientRecord) : (s.putRecord i r).dist = s.dist := rfl
@[simp] theorem State.putRecord_act (i : Fin 64) (r : ClientRecord) : (s.putRecord i r).act = s.act := rfl
@[simp] theorem State.putRecord_port (i : Fin 64) (r : ClientRecord) : (s.putRecord i r).port = s.port := rfl
@[simp] theorem State.putRecord_ev (i : Fin 64) (r : ClientRecord) : (s.putRecord i r).ev = s.ev := rfl
@[simp] theorem State.putRecord_radioOut (i : Fin 64) (r : ClientRecord) : (s.putRecord i r).radioOut = s.radioOut := rfl
@[simp] theorem State.putRecord_clients_heard (i : Fin 64) (r : ClientRecord) : (s.putRecord i r).clients.heard = s.clients.heard := rfl
@[simp] theorem State.putRecord_clients_refusals (i : Fin 64) (r : ClientRecord) : (s.putRecord i r).clients.refusals = s.clients.refusals := rfl
@[simp] theorem State.putRecord_clients_handed (i : Fin 64) (r : ClientRecord) : (s.putRecord i r).clients.handed = s.clients.handed := rfl

/-! `placeFrame` -/

@[simp] theorem State.placeFrame_pending (d : Nat) (b : FrameBody) : (s.placeFrame d b).pending = s.pending := rfl
@[simp] theorem State.placeFrame_now (d : Nat) (b : FrameBody) : (s.placeFrame d b).now = s.now := rfl
@[simp] theorem State.placeFrame_seq (d : Nat) (b : FrameBody) : (s.placeFrame d b).seq = s.seq := rfl
@[simp] theorem State.placeFrame_cfg (d : Nat) (b : FrameBody) : (s.placeFrame d b).cfg = s.cfg := rfl
@[simp] theorem State.placeFrame_peers (d : Nat) (b : FrameBody) : (s.placeFrame d b).peers = s.peers := rfl
@[simp] theorem State.placeFrame_clients (d : Nat) (b : FrameBody) : (s.placeFrame d b).clients = s.clients := rfl
@[simp] theorem State.placeFrame_time (d : Nat) (b : FrameBody) : (s.placeFrame d b).time = s.time := rfl
@[simp] theorem State.placeFrame_sched (d : Nat) (b : FrameBody) : (s.placeFrame d b).sched = s.sched := rfl
@[simp] theorem State.placeFrame_prio (d : Nat) (b : FrameBody) : (s.placeFrame d b).prio = s.prio := rfl
@[simp] theorem State.placeFrame_store (d : Nat) (b : FrameBody) : (s.placeFrame d b).store = s.store := rfl
@[simp] theorem State.placeFrame_dist (d : Nat) (b : FrameBody) : (s.placeFrame d b).dist = s.dist := rfl
@[simp] theorem State.placeFrame_act (d : Nat) (b : FrameBody) : (s.placeFrame d b).act = s.act := rfl
@[simp] theorem State.placeFrame_port (d : Nat) (b : FrameBody) : (s.placeFrame d b).port = s.port := rfl
@[simp] theorem State.placeFrame_ev (d : Nat) (b : FrameBody) : (s.placeFrame d b).ev = s.ev := rfl
@[simp] theorem State.placeFrame_radioOut (d : Nat) (b : FrameBody) : (s.placeFrame d b).radioOut = s.radioOut := rfl
@[simp] theorem State.placeFrame_pli_rx (d : Nat) (b : FrameBody) : (s.placeFrame d b).pli.rx = s.pli.rx := rfl
@[simp] theorem State.placeFrame_pli_rxRun (d : Nat) (b : FrameBody) : (s.placeFrame d b).pli.rxRun = s.pli.rxRun := rfl

/-! `mapPeer` -/

@[simp] theorem State.mapPeer_pending (id : Nat) (f : PeerEntry → PeerEntry) : (s.mapPeer id f).pending = s.pending := rfl
@[simp] theorem State.mapPeer_now (id : Nat) (f : PeerEntry → PeerEntry) : (s.mapPeer id f).now = s.now := rfl
@[simp] theorem State.mapPeer_seq (id : Nat) (f : PeerEntry → PeerEntry) : (s.mapPeer id f).seq = s.seq := rfl
@[simp] theorem State.mapPeer_cfg (id : Nat) (f : PeerEntry → PeerEntry) : (s.mapPeer id f).cfg = s.cfg := rfl
@[simp] theorem State.mapPeer_pli (id : Nat) (f : PeerEntry → PeerEntry) : (s.mapPeer id f).pli = s.pli := rfl
@[simp] theorem State.mapPeer_clients (id : Nat) (f : PeerEntry → PeerEntry) : (s.mapPeer id f).clients = s.clients := rfl
@[simp] theorem State.mapPeer_time (id : Nat) (f : PeerEntry → PeerEntry) : (s.mapPeer id f).time = s.time := rfl
@[simp] theorem State.mapPeer_sched (id : Nat) (f : PeerEntry → PeerEntry) : (s.mapPeer id f).sched = s.sched := rfl
@[simp] theorem State.mapPeer_prio (id : Nat) (f : PeerEntry → PeerEntry) : (s.mapPeer id f).prio = s.prio := rfl
@[simp] theorem State.mapPeer_store (id : Nat) (f : PeerEntry → PeerEntry) : (s.mapPeer id f).store = s.store := rfl
@[simp] theorem State.mapPeer_dist (id : Nat) (f : PeerEntry → PeerEntry) : (s.mapPeer id f).dist = s.dist := rfl
@[simp] theorem State.mapPeer_act (id : Nat) (f : PeerEntry → PeerEntry) : (s.mapPeer id f).act = s.act := rfl
@[simp] theorem State.mapPeer_port (id : Nat) (f : PeerEntry → PeerEntry) : (s.mapPeer id f).port = s.port := rfl
@[simp] theorem State.mapPeer_ev (id : Nat) (f : PeerEntry → PeerEntry) : (s.mapPeer id f).ev = s.ev := rfl
@[simp] theorem State.mapPeer_radioOut (id : Nat) (f : PeerEntry → PeerEntry) : (s.mapPeer id f).radioOut = s.radioOut := rfl
@[simp] theorem State.mapPeer_peers_ownPath (id : Nat) (f : PeerEntry → PeerEntry) : (s.mapPeer id f).peers.ownPath = s.peers.ownPath := rfl
@[simp] theorem State.mapPeer_peers_advertDue (id : Nat) (f : PeerEntry → PeerEntry) : (s.mapPeer id f).peers.advertDue = s.peers.advertDue := rfl
@[simp] theorem State.mapPeer_peers_sightings (id : Nat) (f : PeerEntry → PeerEntry) : (s.mapPeer id f).peers.sightings = s.peers.sightings := rfl

/-! `recomputePath` -/

@[simp] theorem State.recomputePath_pending : (s.recomputePath).pending = s.pending := rfl
@[simp] theorem State.recomputePath_now : (s.recomputePath).now = s.now := rfl
@[simp] theorem State.recomputePath_seq : (s.recomputePath).seq = s.seq := rfl
@[simp] theorem State.recomputePath_cfg : (s.recomputePath).cfg = s.cfg := rfl
@[simp] theorem State.recomputePath_pli : (s.recomputePath).pli = s.pli := rfl
@[simp] theorem State.recomputePath_clients : (s.recomputePath).clients = s.clients := rfl
@[simp] theorem State.recomputePath_time : (s.recomputePath).time = s.time := rfl
@[simp] theorem State.recomputePath_sched : (s.recomputePath).sched = s.sched := rfl
@[simp] theorem State.recomputePath_prio : (s.recomputePath).prio = s.prio := rfl
@[simp] theorem State.recomputePath_store : (s.recomputePath).store = s.store := rfl
@[simp] theorem State.recomputePath_dist : (s.recomputePath).dist = s.dist := rfl
@[simp] theorem State.recomputePath_act : (s.recomputePath).act = s.act := rfl
@[simp] theorem State.recomputePath_port : (s.recomputePath).port = s.port := rfl
@[simp] theorem State.recomputePath_ev : (s.recomputePath).ev = s.ev := rfl
@[simp] theorem State.recomputePath_radioOut : (s.recomputePath).radioOut = s.radioOut := rfl
@[simp] theorem State.recomputePath_peers_table : (s.recomputePath).peers.table = s.peers.table := rfl
@[simp] theorem State.recomputePath_peers_advertDue : (s.recomputePath).peers.advertDue = s.peers.advertDue := rfl
@[simp] theorem State.recomputePath_peers_sightings : (s.recomputePath).peers.sightings = s.peers.sightings := rfl

/-! `examine` -/

@[simp] theorem State.examine_pending (c : ClientId) : (s.examine c).pending = s.pending := rfl
@[simp] theorem State.examine_now (c : ClientId) : (s.examine c).now = s.now := rfl
@[simp] theorem State.examine_seq (c : ClientId) : (s.examine c).seq = s.seq := rfl
@[simp] theorem State.examine_cfg (c : ClientId) : (s.examine c).cfg = s.cfg := rfl
@[simp] theorem State.examine_pli (c : ClientId) : (s.examine c).pli = s.pli := rfl
@[simp] theorem State.examine_clients (c : ClientId) : (s.examine c).clients = s.clients := rfl
@[simp] theorem State.examine_time (c : ClientId) : (s.examine c).time = s.time := rfl
@[simp] theorem State.examine_sched (c : ClientId) : (s.examine c).sched = s.sched := rfl
@[simp] theorem State.examine_prio (c : ClientId) : (s.examine c).prio = s.prio := rfl
@[simp] theorem State.examine_store (c : ClientId) : (s.examine c).store = s.store := rfl
@[simp] theorem State.examine_dist (c : ClientId) : (s.examine c).dist = s.dist := rfl
@[simp] theorem State.examine_act (c : ClientId) : (s.examine c).act = s.act := rfl
@[simp] theorem State.examine_port (c : ClientId) : (s.examine c).port = s.port := rfl
@[simp] theorem State.examine_ev (c : ClientId) : (s.examine c).ev = s.ev := rfl
@[simp] theorem State.examine_radioOut (c : ClientId) : (s.examine c).radioOut = s.radioOut := rfl
@[simp] theorem State.examine_peers_table (c : ClientId) : (s.examine c).peers.table = s.peers.table := rfl
@[simp] theorem State.examine_peers_ownPath (c : ClientId) : (s.examine c).peers.ownPath = s.peers.ownPath := rfl
@[simp] theorem State.examine_peers_advertDue (c : ClientId) : (s.examine c).peers.advertDue = s.peers.advertDue := rfl

/-! `forgetHeard` -/

@[simp] theorem State.forgetHeard_pending (c : ClientId) : (s.forgetHeard c).pending = s.pending := rfl
@[simp] theorem State.forgetHeard_now (c : ClientId) : (s.forgetHeard c).now = s.now := rfl
@[simp] theorem State.forgetHeard_seq (c : ClientId) : (s.forgetHeard c).seq = s.seq := rfl
@[simp] theorem State.forgetHeard_cfg (c : ClientId) : (s.forgetHeard c).cfg = s.cfg := rfl
@[simp] theorem State.forgetHeard_pli (c : ClientId) : (s.forgetHeard c).pli = s.pli := rfl
@[simp] theorem State.forgetHeard_peers (c : ClientId) : (s.forgetHeard c).peers = s.peers := rfl
@[simp] theorem State.forgetHeard_time (c : ClientId) : (s.forgetHeard c).time = s.time := rfl
@[simp] theorem State.forgetHeard_sched (c : ClientId) : (s.forgetHeard c).sched = s.sched := rfl
@[simp] theorem State.forgetHeard_prio (c : ClientId) : (s.forgetHeard c).prio = s.prio := rfl
@[simp] theorem State.forgetHeard_store (c : ClientId) : (s.forgetHeard c).store = s.store := rfl
@[simp] theorem State.forgetHeard_dist (c : ClientId) : (s.forgetHeard c).dist = s.dist := rfl
@[simp] theorem State.forgetHeard_act (c : ClientId) : (s.forgetHeard c).act = s.act := rfl
@[simp] theorem State.forgetHeard_port (c : ClientId) : (s.forgetHeard c).port = s.port := rfl
@[simp] theorem State.forgetHeard_ev (c : ClientId) : (s.forgetHeard c).ev = s.ev := rfl
@[simp] theorem State.forgetHeard_radioOut (c : ClientId) : (s.forgetHeard c).radioOut = s.radioOut := rfl
@[simp] theorem State.forgetHeard_clients_table (c : ClientId) : (s.forgetHeard c).clients.table = s.clients.table := rfl
@[simp] theorem State.forgetHeard_clients_refusals (c : ClientId) : (s.forgetHeard c).clients.refusals = s.clients.refusals := rfl
@[simp] theorem State.forgetHeard_clients_handed (c : ClientId) : (s.forgetHeard c).clients.handed = s.clients.handed := rfl

/-! `mapRecords` -/

@[simp] theorem State.mapRecords_pending (f : ClientRecord → ClientRecord) : (s.mapRecords f).pending = s.pending := rfl
@[simp] theorem State.mapRecords_now (f : ClientRecord → ClientRecord) : (s.mapRecords f).now = s.now := rfl
@[simp] theorem State.mapRecords_seq (f : ClientRecord → ClientRecord) : (s.mapRecords f).seq = s.seq := rfl
@[simp] theorem State.mapRecords_cfg (f : ClientRecord → ClientRecord) : (s.mapRecords f).cfg = s.cfg := rfl
@[simp] theorem State.mapRecords_pli (f : ClientRecord → ClientRecord) : (s.mapRecords f).pli = s.pli := rfl
@[simp] theorem State.mapRecords_peers (f : ClientRecord → ClientRecord) : (s.mapRecords f).peers = s.peers := rfl
@[simp] theorem State.mapRecords_time (f : ClientRecord → ClientRecord) : (s.mapRecords f).time = s.time := rfl
@[simp] theorem State.mapRecords_sched (f : ClientRecord → ClientRecord) : (s.mapRecords f).sched = s.sched := rfl
@[simp] theorem State.mapRecords_prio (f : ClientRecord → ClientRecord) : (s.mapRecords f).prio = s.prio := rfl
@[simp] theorem State.mapRecords_store (f : ClientRecord → ClientRecord) : (s.mapRecords f).store = s.store := rfl
@[simp] theorem State.mapRecords_dist (f : ClientRecord → ClientRecord) : (s.mapRecords f).dist = s.dist := rfl
@[simp] theorem State.mapRecords_act (f : ClientRecord → ClientRecord) : (s.mapRecords f).act = s.act := rfl
@[simp] theorem State.mapRecords_port (f : ClientRecord → ClientRecord) : (s.mapRecords f).port = s.port := rfl
@[simp] theorem State.mapRecords_ev (f : ClientRecord → ClientRecord) : (s.mapRecords f).ev = s.ev := rfl
@[simp] theorem State.mapRecords_radioOut (f : ClientRecord → ClientRecord) : (s.mapRecords f).radioOut = s.radioOut := rfl
@[simp] theorem State.mapRecords_clients_heard (f : ClientRecord → ClientRecord) : (s.mapRecords f).clients.heard = s.clients.heard := rfl
@[simp] theorem State.mapRecords_clients_refusals (f : ClientRecord → ClientRecord) : (s.mapRecords f).clients.refusals = s.clients.refusals := rfl
@[simp] theorem State.mapRecords_clients_handed (f : ClientRecord → ClientRecord) : (s.mapRecords f).clients.handed = s.clients.handed := rfl

/-! `openCredits` -/

@[simp] theorem State.openCredits_pending : (s.openCredits).pending = s.pending := rfl
@[simp] theorem State.openCredits_now : (s.openCredits).now = s.now := rfl
@[simp] theorem State.openCredits_seq : (s.openCredits).seq = s.seq := rfl
@[simp] theorem State.openCredits_cfg : (s.openCredits).cfg = s.cfg := rfl
@[simp] theorem State.openCredits_pli : (s.openCredits).pli = s.pli := rfl
@[simp] theorem State.openCredits_peers : (s.openCredits).peers = s.peers := rfl
@[simp] theorem State.openCredits_clients : (s.openCredits).clients = s.clients := rfl
@[simp] theorem State.openCredits_time : (s.openCredits).time = s.time := rfl
@[simp] theorem State.openCredits_sched : (s.openCredits).sched = s.sched := rfl
@[simp] theorem State.openCredits_store : (s.openCredits).store = s.store := rfl
@[simp] theorem State.openCredits_dist : (s.openCredits).dist = s.dist := rfl
@[simp] theorem State.openCredits_act : (s.openCredits).act = s.act := rfl
@[simp] theorem State.openCredits_port : (s.openCredits).port = s.port := rfl
@[simp] theorem State.openCredits_ev : (s.openCredits).ev = s.ev := rfl
@[simp] theorem State.openCredits_radioOut : (s.openCredits).radioOut = s.radioOut := rfl
@[simp] theorem State.openCredits_prio_flows : (s.openCredits).prio.flows = s.prio.flows := rfl
@[simp] theorem State.openCredits_prio_pace : (s.openCredits).prio.pace = s.prio.pace := rfl

/-! `cutCredits` -/

@[simp] theorem State.cutCredits_pending : (s.cutCredits).pending = s.pending := rfl
@[simp] theorem State.cutCredits_now : (s.cutCredits).now = s.now := rfl
@[simp] theorem State.cutCredits_seq : (s.cutCredits).seq = s.seq := rfl
@[simp] theorem State.cutCredits_cfg : (s.cutCredits).cfg = s.cfg := rfl
@[simp] theorem State.cutCredits_pli : (s.cutCredits).pli = s.pli := rfl
@[simp] theorem State.cutCredits_peers : (s.cutCredits).peers = s.peers := rfl
@[simp] theorem State.cutCredits_clients : (s.cutCredits).clients = s.clients := rfl
@[simp] theorem State.cutCredits_time : (s.cutCredits).time = s.time := rfl
@[simp] theorem State.cutCredits_sched : (s.cutCredits).sched = s.sched := rfl
@[simp] theorem State.cutCredits_store : (s.cutCredits).store = s.store := rfl
@[simp] theorem State.cutCredits_dist : (s.cutCredits).dist = s.dist := rfl
@[simp] theorem State.cutCredits_act : (s.cutCredits).act = s.act := rfl
@[simp] theorem State.cutCredits_port : (s.cutCredits).port = s.port := rfl
@[simp] theorem State.cutCredits_ev : (s.cutCredits).ev = s.ev := rfl
@[simp] theorem State.cutCredits_radioOut : (s.cutCredits).radioOut = s.radioOut := rfl
@[simp] theorem State.cutCredits_prio_flows : (s.cutCredits).prio.flows = s.prio.flows := rfl
@[simp] theorem State.cutCredits_prio_pace : (s.cutCredits).prio.pace = s.prio.pace := rfl

/-! `setMesh` -/

@[simp] theorem State.setMesh_pending (m r : Nat) : (s.setMesh m r).pending = s.pending := rfl
@[simp] theorem State.setMesh_now (m r : Nat) : (s.setMesh m r).now = s.now := rfl
@[simp] theorem State.setMesh_seq (m r : Nat) : (s.setMesh m r).seq = s.seq := rfl
@[simp] theorem State.setMesh_cfg (m r : Nat) : (s.setMesh m r).cfg = s.cfg := rfl
@[simp] theorem State.setMesh_pli (m r : Nat) : (s.setMesh m r).pli = s.pli := rfl
@[simp] theorem State.setMesh_peers (m r : Nat) : (s.setMesh m r).peers = s.peers := rfl
@[simp] theorem State.setMesh_clients (m r : Nat) : (s.setMesh m r).clients = s.clients := rfl
@[simp] theorem State.setMesh_sched (m r : Nat) : (s.setMesh m r).sched = s.sched := rfl
@[simp] theorem State.setMesh_prio (m r : Nat) : (s.setMesh m r).prio = s.prio := rfl
@[simp] theorem State.setMesh_store (m r : Nat) : (s.setMesh m r).store = s.store := rfl
@[simp] theorem State.setMesh_dist (m r : Nat) : (s.setMesh m r).dist = s.dist := rfl
@[simp] theorem State.setMesh_act (m r : Nat) : (s.setMesh m r).act = s.act := rfl
@[simp] theorem State.setMesh_port (m r : Nat) : (s.setMesh m r).port = s.port := rfl
@[simp] theorem State.setMesh_ev (m r : Nat) : (s.setMesh m r).ev = s.ev := rfl
@[simp] theorem State.setMesh_radioOut (m r : Nat) : (s.setMesh m r).radioOut = s.radioOut := rfl
@[simp] theorem State.setMesh_time_minuteMark (m r : Nat) : (s.setMesh m r).time.minuteMark = s.time.minuteMark := rfl
@[simp] theorem State.setMesh_time_dayMark (m r : Nat) : (s.setMesh m r).time.dayMark = s.time.dayMark := rfl
@[simp] theorem State.setMesh_time_tickDue (m r : Nat) : (s.setMesh m r).time.tickDue = s.time.tickDue := rfl

/-! `closeRequest` -/

@[simp] theorem State.closeRequest_pending : (s.closeRequest).pending = s.pending := rfl
@[simp] theorem State.closeRequest_now : (s.closeRequest).now = s.now := rfl
@[simp] theorem State.closeRequest_seq : (s.closeRequest).seq = s.seq := rfl
@[simp] theorem State.closeRequest_cfg : (s.closeRequest).cfg = s.cfg := rfl
@[simp] theorem State.closeRequest_pli : (s.closeRequest).pli = s.pli := rfl
@[simp] theorem State.closeRequest_peers : (s.closeRequest).peers = s.peers := rfl
@[simp] theorem State.closeRequest_clients : (s.closeRequest).clients = s.clients := rfl
@[simp] theorem State.closeRequest_time : (s.closeRequest).time = s.time := rfl
@[simp] theorem State.closeRequest_sched : (s.closeRequest).sched = s.sched := rfl
@[simp] theorem State.closeRequest_prio : (s.closeRequest).prio = s.prio := rfl
@[simp] theorem State.closeRequest_store : (s.closeRequest).store = s.store := rfl
@[simp] theorem State.closeRequest_act : (s.closeRequest).act = s.act := rfl
@[simp] theorem State.closeRequest_port : (s.closeRequest).port = s.port := rfl
@[simp] theorem State.closeRequest_ev : (s.closeRequest).ev = s.ev := rfl
@[simp] theorem State.closeRequest_radioOut : (s.closeRequest).radioOut = s.radioOut := rfl
@[simp] theorem State.closeRequest_dist_slotA : (s.closeRequest).dist.slotA = s.dist.slotA := rfl
@[simp] theorem State.closeRequest_dist_slotB : (s.closeRequest).dist.slotB = s.dist.slotB := rfl
@[simp] theorem State.closeRequest_dist_active : (s.closeRequest).dist.active = s.dist.active := rfl
@[simp] theorem State.closeRequest_dist_serve : (s.closeRequest).dist.serve = s.dist.serve := rfl
@[simp] theorem State.closeRequest_dist_relay : (s.closeRequest).dist.relay = s.dist.relay := rfl
@[simp] theorem State.closeRequest_dist_busySkip : (s.closeRequest).dist.busySkip = s.dist.busySkip := rfl
@[simp] theorem State.closeRequest_dist_barred : (s.closeRequest).dist.barred = s.dist.barred := rfl
@[simp] theorem State.closeRequest_dist_manifestOwed : (s.closeRequest).dist.manifestOwed = s.dist.manifestOwed := rfl

/-! `mapServe` -/

@[simp] theorem State.mapServe_pending (f : ServeRequest → ServeRequest) : (s.mapServe f).pending = s.pending := rfl
@[simp] theorem State.mapServe_now (f : ServeRequest → ServeRequest) : (s.mapServe f).now = s.now := rfl
@[simp] theorem State.mapServe_seq (f : ServeRequest → ServeRequest) : (s.mapServe f).seq = s.seq := rfl
@[simp] theorem State.mapServe_cfg (f : ServeRequest → ServeRequest) : (s.mapServe f).cfg = s.cfg := rfl
@[simp] theorem State.mapServe_pli (f : ServeRequest → ServeRequest) : (s.mapServe f).pli = s.pli := rfl
@[simp] theorem State.mapServe_peers (f : ServeRequest → ServeRequest) : (s.mapServe f).peers = s.peers := rfl
@[simp] theorem State.mapServe_clients (f : ServeRequest → ServeRequest) : (s.mapServe f).clients = s.clients := rfl
@[simp] theorem State.mapServe_time (f : ServeRequest → ServeRequest) : (s.mapServe f).time = s.time := rfl
@[simp] theorem State.mapServe_sched (f : ServeRequest → ServeRequest) : (s.mapServe f).sched = s.sched := rfl
@[simp] theorem State.mapServe_prio (f : ServeRequest → ServeRequest) : (s.mapServe f).prio = s.prio := rfl
@[simp] theorem State.mapServe_store (f : ServeRequest → ServeRequest) : (s.mapServe f).store = s.store := rfl
@[simp] theorem State.mapServe_act (f : ServeRequest → ServeRequest) : (s.mapServe f).act = s.act := rfl
@[simp] theorem State.mapServe_port (f : ServeRequest → ServeRequest) : (s.mapServe f).port = s.port := rfl
@[simp] theorem State.mapServe_ev (f : ServeRequest → ServeRequest) : (s.mapServe f).ev = s.ev := rfl
@[simp] theorem State.mapServe_radioOut (f : ServeRequest → ServeRequest) : (s.mapServe f).radioOut = s.radioOut := rfl
@[simp] theorem State.mapServe_dist_slotA (f : ServeRequest → ServeRequest) : (s.mapServe f).dist.slotA = s.dist.slotA := rfl
@[simp] theorem State.mapServe_dist_slotB (f : ServeRequest → ServeRequest) : (s.mapServe f).dist.slotB = s.dist.slotB := rfl
@[simp] theorem State.mapServe_dist_active (f : ServeRequest → ServeRequest) : (s.mapServe f).dist.active = s.dist.active := rfl
@[simp] theorem State.mapServe_dist_outstanding (f : ServeRequest → ServeRequest) : (s.mapServe f).dist.outstanding = s.dist.outstanding := rfl
@[simp] theorem State.mapServe_dist_relay (f : ServeRequest → ServeRequest) : (s.mapServe f).dist.relay = s.dist.relay := rfl
@[simp] theorem State.mapServe_dist_busySkip (f : ServeRequest → ServeRequest) : (s.mapServe f).dist.busySkip = s.dist.busySkip := rfl
@[simp] theorem State.mapServe_dist_barred (f : ServeRequest → ServeRequest) : (s.mapServe f).dist.barred = s.dist.barred := rfl
@[simp] theorem State.mapServe_dist_manifestOwed (f : ServeRequest → ServeRequest) : (s.mapServe f).dist.manifestOwed = s.dist.manifestOwed := rfl

/-! `putSlotRecord` -/

@[simp] theorem State.putSlotRecord_pending (k : SlotId) (r : SlotRecord) : (s.putSlotRecord k r).pending = s.pending := by
  cases k <;> rfl
@[simp] theorem State.putSlotRecord_now (k : SlotId) (r : SlotRecord) : (s.putSlotRecord k r).now = s.now := by
  cases k <;> rfl
@[simp] theorem State.putSlotRecord_seq (k : SlotId) (r : SlotRecord) : (s.putSlotRecord k r).seq = s.seq := by
  cases k <;> rfl
@[simp] theorem State.putSlotRecord_cfg (k : SlotId) (r : SlotRecord) : (s.putSlotRecord k r).cfg = s.cfg := by
  cases k <;> rfl
@[simp] theorem State.putSlotRecord_pli (k : SlotId) (r : SlotRecord) : (s.putSlotRecord k r).pli = s.pli := by
  cases k <;> rfl
@[simp] theorem State.putSlotRecord_peers (k : SlotId) (r : SlotRecord) : (s.putSlotRecord k r).peers = s.peers := by
  cases k <;> rfl
@[simp] theorem State.putSlotRecord_clients (k : SlotId) (r : SlotRecord) : (s.putSlotRecord k r).clients = s.clients := by
  cases k <;> rfl
@[simp] theorem State.putSlotRecord_time (k : SlotId) (r : SlotRecord) : (s.putSlotRecord k r).time = s.time := by
  cases k <;> rfl
@[simp] theorem State.putSlotRecord_sched (k : SlotId) (r : SlotRecord) : (s.putSlotRecord k r).sched = s.sched := by
  cases k <;> rfl
@[simp] theorem State.putSlotRecord_prio (k : SlotId) (r : SlotRecord) : (s.putSlotRecord k r).prio = s.prio := by
  cases k <;> rfl
@[simp] theorem State.putSlotRecord_store (k : SlotId) (r : SlotRecord) : (s.putSlotRecord k r).store = s.store := by
  cases k <;> rfl
@[simp] theorem State.putSlotRecord_act (k : SlotId) (r : SlotRecord) : (s.putSlotRecord k r).act = s.act := by
  cases k <;> rfl
@[simp] theorem State.putSlotRecord_port (k : SlotId) (r : SlotRecord) : (s.putSlotRecord k r).port = s.port := by
  cases k <;> rfl
@[simp] theorem State.putSlotRecord_ev (k : SlotId) (r : SlotRecord) : (s.putSlotRecord k r).ev = s.ev := by
  cases k <;> rfl
@[simp] theorem State.putSlotRecord_radioOut (k : SlotId) (r : SlotRecord) : (s.putSlotRecord k r).radioOut = s.radioOut := by
  cases k <;> rfl
@[simp] theorem State.putSlotRecord_dist_active (k : SlotId) (r : SlotRecord) :
    (s.putSlotRecord k r).dist.active = s.dist.active := by
  cases k <;> rfl
@[simp] theorem State.putSlotRecord_dist_outstanding (k : SlotId) (r : SlotRecord) :
    (s.putSlotRecord k r).dist.outstanding = s.dist.outstanding := by
  cases k <;> rfl
@[simp] theorem State.putSlotRecord_dist_serve (k : SlotId) (r : SlotRecord) :
    (s.putSlotRecord k r).dist.serve = s.dist.serve := by
  cases k <;> rfl
@[simp] theorem State.putSlotRecord_dist_relay (k : SlotId) (r : SlotRecord) :
    (s.putSlotRecord k r).dist.relay = s.dist.relay := by
  cases k <;> rfl
@[simp] theorem State.putSlotRecord_dist_busySkip (k : SlotId) (r : SlotRecord) :
    (s.putSlotRecord k r).dist.busySkip = s.dist.busySkip := by
  cases k <;> rfl
@[simp] theorem State.putSlotRecord_dist_barred (k : SlotId) (r : SlotRecord) :
    (s.putSlotRecord k r).dist.barred = s.dist.barred := by
  cases k <;> rfl
@[simp] theorem State.putSlotRecord_dist_manifestOwed (k : SlotId) (r : SlotRecord) :
    (s.putSlotRecord k r).dist.manifestOwed = s.dist.manifestOwed := by
  cases k <;> rfl

/-- A slot record just put reads back. -/
@[simp] theorem State.slot_putSlotRecord_same (k : SlotId) (r : SlotRecord) : (s.putSlotRecord k r).slot k = r := by
  cases k <;> rfl

/-- Putting one slot's record leaves the other's. -/
@[simp] theorem State.slot_putSlotRecord_other (k : SlotId) (r : SlotRecord) :
    (s.putSlotRecord k r).slot k.other = s.slot k.other := by
  cases k <;> rfl

/-! `raise` (R176) -/

@[simp] theorem State.raise_pending (n : Notice) : (s.raise n).pending = s.pending := by
  unfold State.raise; split <;> rfl
@[simp] theorem State.raise_now (n : Notice) : (s.raise n).now = s.now := by
  unfold State.raise; split <;> rfl
@[simp] theorem State.raise_seq (n : Notice) : (s.raise n).seq = s.seq := by
  unfold State.raise; split <;> rfl
@[simp] theorem State.raise_cfg (n : Notice) : (s.raise n).cfg = s.cfg := by
  unfold State.raise; split <;> rfl
@[simp] theorem State.raise_pli (n : Notice) : (s.raise n).pli = s.pli := by
  unfold State.raise; split <;> rfl
@[simp] theorem State.raise_peers (n : Notice) : (s.raise n).peers = s.peers := by
  unfold State.raise; split <;> rfl
@[simp] theorem State.raise_clients (n : Notice) : (s.raise n).clients = s.clients := by
  unfold State.raise; split <;> rfl
@[simp] theorem State.raise_time (n : Notice) : (s.raise n).time = s.time := by
  unfold State.raise; split <;> rfl
@[simp] theorem State.raise_sched (n : Notice) : (s.raise n).sched = s.sched := by
  unfold State.raise; split <;> rfl
@[simp] theorem State.raise_prio (n : Notice) : (s.raise n).prio = s.prio := by
  unfold State.raise; split <;> rfl
@[simp] theorem State.raise_store (n : Notice) : (s.raise n).store = s.store := by
  unfold State.raise; split <;> rfl
@[simp] theorem State.raise_dist (n : Notice) : (s.raise n).dist = s.dist := by
  unfold State.raise; split <;> rfl
@[simp] theorem State.raise_act (n : Notice) : (s.raise n).act = s.act := by
  unfold State.raise; split <;> rfl
@[simp] theorem State.raise_ev (n : Notice) : (s.raise n).ev = s.ev := by
  unfold State.raise; split <;> rfl
@[simp] theorem State.raise_radioOut (n : Notice) : (s.raise n).radioOut = s.radioOut := by
  unfold State.raise; split <;> rfl
@[simp] theorem State.raise_port_dirty (n : Notice) : (s.raise n).port.dirty = s.port.dirty := by
  unfold State.raise; split <;> rfl
@[simp] theorem State.raise_port_replies (n : Notice) : (s.raise n).port.replies = s.port.replies := by
  unfold State.raise; split <;> rfl
@[simp] theorem State.raise_port_link (n : Notice) : (s.raise n).port.link = s.port.link := by
  unfold State.raise; split <;> rfl
@[simp] theorem State.raise_port_sent (n : Notice) : (s.raise n).port.sent = s.port.sent := by
  unfold State.raise; split <;> rfl

/-! `send` (R7, R8) -/

@[simp] theorem State.send_pending (d : Nat) (b : FrameBody) : (s.send d b).pending = s.pending := by
  unfold State.send; repeat' split
  all_goals first | rfl | simp
@[simp] theorem State.send_now (d : Nat) (b : FrameBody) : (s.send d b).now = s.now := by
  unfold State.send; repeat' split
  all_goals first | rfl | simp
@[simp] theorem State.send_seq (d : Nat) (b : FrameBody) : (s.send d b).seq = s.seq := by
  unfold State.send; repeat' split
  all_goals first | rfl | simp
@[simp] theorem State.send_cfg (d : Nat) (b : FrameBody) : (s.send d b).cfg = s.cfg := by
  unfold State.send; repeat' split
  all_goals first | rfl | simp
@[simp] theorem State.send_peers (d : Nat) (b : FrameBody) : (s.send d b).peers = s.peers := by
  unfold State.send; repeat' split
  all_goals first | rfl | simp
@[simp] theorem State.send_clients (d : Nat) (b : FrameBody) : (s.send d b).clients = s.clients := by
  unfold State.send; repeat' split
  all_goals first | rfl | simp
@[simp] theorem State.send_time (d : Nat) (b : FrameBody) : (s.send d b).time = s.time := by
  unfold State.send; repeat' split
  all_goals first | rfl | simp
@[simp] theorem State.send_sched (d : Nat) (b : FrameBody) : (s.send d b).sched = s.sched := by
  unfold State.send; repeat' split
  all_goals first | rfl | simp
@[simp] theorem State.send_prio (d : Nat) (b : FrameBody) : (s.send d b).prio = s.prio := by
  unfold State.send; repeat' split
  all_goals first | rfl | simp
@[simp] theorem State.send_store (d : Nat) (b : FrameBody) : (s.send d b).store = s.store := by
  unfold State.send; repeat' split
  all_goals first | rfl | simp
@[simp] theorem State.send_dist (d : Nat) (b : FrameBody) : (s.send d b).dist = s.dist := by
  unfold State.send; repeat' split
  all_goals first | rfl | simp
@[simp] theorem State.send_act (d : Nat) (b : FrameBody) : (s.send d b).act = s.act := by
  unfold State.send; repeat' split
  all_goals first | rfl | simp
@[simp] theorem State.send_ev (d : Nat) (b : FrameBody) : (s.send d b).ev = s.ev := by
  unfold State.send; repeat' split
  all_goals first | rfl | simp
@[simp] theorem State.send_radioOut (d : Nat) (b : FrameBody) : (s.send d b).radioOut = s.radioOut := by
  unfold State.send; repeat' split
  all_goals first | rfl | simp
@[simp] theorem State.send_pli_rx (d : Nat) (b : FrameBody) : (s.send d b).pli.rx = s.pli.rx := by
  unfold State.send; repeat' split
  all_goals first | rfl | simp

/-! Reading a record table -/

/-- A record just put reads back. -/
@[simp] theorem State.record_putRecord_same (i : Fin 64) (r : ClientRecord) : (s.putRecord i r).record i = some r :=
  putSlot_get_same s.clients.table i (some r)

/-- Putting one record leaves the others. -/
theorem State.record_putRecord_other (i j : Fin 64) (r : ClientRecord) (h : i ≠ j) :
    (s.putRecord i r).record j = s.record j :=
  putSlot_get_other s.clients.table i j (some r) h

end

end Sys2Proof.Machine
end

