-- ==== Sys2Proof/Laws/Keeps.lean ====
section
/-! SUPPORT. What every operation keeps, said once: `Keeps s s'` holds between the state before and after each operation
of the units outside starts, and the other files of Laws prove it operation by operation. -/

namespace Sys2Proof.Machine

/-- What an operation keeps: the queue of commands, the flash, the configuration and whether a start has completed stay,
and each predicate of Safety is kept by itself. -/
structure Keeps (s s' : State) : Prop where
  pending : s'.pending = s.pending
  flash : s'.store.flash = s.store.flash
  cfg : s'.cfg = s.cfg
  running : s'.running = s.running
  capacity : s.WithinCapacity → s'.WithinCapacity
  distinct : s.EntriesDistinct → s'.EntriesDistinct
  range : s.WithinRange → s'.WithinRange
  airtime : s.AirtimeKept → s'.AirtimeKept

theorem Keeps.refl (s : State) : Keeps s s := ⟨rfl, rfl, rfl, rfl, id, id, id, id⟩

theorem Keeps.trans {s u t : State} (h : Keeps s u) (k : Keeps u t) : Keeps s t :=
  ⟨k.pending.trans h.pending, k.flash.trans h.flash, k.cfg.trans h.cfg, k.running.trans h.running,
    k.capacity ∘ h.capacity, k.distinct ∘ h.distinct, k.range ∘ h.range, k.airtime ∘ h.airtime⟩

/-- A walk each of whose steps keeps, keeps. -/
theorem Keeps.walk {α : Type} {f : α → State → State} (h : ∀ x s, Keeps s (f x s)) (xs : List α) (s : State) :
    Keeps s (walk xs f s) :=
  walk_keeps (fun t => Keeps s t) f (fun x _ ht => ht.trans (h x _)) xs s (Keeps.refl s)

/-! ### Updates of what no predicate reads -/

/-- What the predicates read. -/
def State.core (s : State) : List Instr × List Host.Cell × ActiveConfig × Bool × List Frame × List Frame × List PeerEntry ×
    List SightingEntry × Nat × ClientUnit × Nat × Vector FlowSlot 128 × Pace × Nat × Nat × List StoreOp × List StoreOp ×
    List ServeRequest × List Notice :=
  (s.pending, s.store.flash, s.cfg, s.running, s.pli.rx, s.pli.tx, s.peers.table, s.peers.sightings, s.peers.ownPath,
    s.clients, s.time.rank, s.prio.flows, s.prio.pace, s.prio.pullCredits, s.prio.serveCredits, s.storeOps,
    s.store.waiting, s.dist.serve, s.port.notices)

/-- An update that leaves all of that alone keeps. -/
theorem Keeps.quiet {s s' : State} (h : s'.core = s.core) : Keeps s s' := by
  simp only [State.core, Prod.mk.injEq] at h
  obtain ⟨hp, hf, hc, hr, hrx, htx, hpt, hsg, hop, hcl, hrk, hfl, hpa, hpc, hsc, hso, hw, hsv, hn⟩ := h
  have hflow : ∀ j, s'.flow j = s.flow j := fun j => by simp only [State.flow, hfl]
  have hrec : ∀ i, s'.record i = s.record i := fun i => by simp only [State.record, hcl]
  have hheld : s'.heldPlaces = s.heldPlaces := by simp only [State.heldPlaces, hso]
  refine ⟨hp, hf, hc, hr, fun k => ?_, fun k => ?_, fun k => ?_, fun k => ?_⟩
  · refine ⟨by rw [hrx]; exact k.rx, ?_, ?_, by rw [htx]; exact k.adverts, by rw [hpt]; exact k.peers,
      by rw [hsg]; exact k.sightings, by rw [hcl]; exact k.heard, by rw [hcl]; exact k.refusals, by rw [hcl]; exact k.holds,
      by rw [hw]; exact k.waiting, by rw [hsv]; exact k.serve, by rw [hn]; exact k.notices⟩
    · have := k.tx
      simp only [State.txCount] at this ⊢
      rw [htx, hheld]; exact this
    · have := k.txChunks
      simp only [State.txChunkCount] at this ⊢
      rw [htx, hheld]; exact this
  · refine ⟨⟨by rw [hpt]; exact k.peers, by rw [hcl]; exact k.heard, by rw [hsg]; exact k.sightings,
      by rw [hsv]; exact k.serve⟩, by rw [hcl]; exact k.refusals, fun i j r q hi hj => ?_, fun i r hi => ?_,
      fun i j f g hi hj => ?_⟩
    · rw [hrec] at hi hj
      exact k.records i j r q hi hj
    · rw [hrec] at hi
      exact k.holds i r hi
    · rw [hflow] at hi hj
      exact k.flows i j f g hi hj
  · exact ⟨by rw [hpt]; exact k.linkCosts, by rw [hop]; exact k.ownPath, by rw [hrk]; exact k.rank,
      by rw [hcl]; exact k.records, by rw [hcl]; exact k.heard, by rw [hpa]; exact k.burst, by rw [hpc]; exact k.pullCredits,
      by rw [hsc]; exact k.serveCredits⟩
  · refine ⟨?_, ?_, ?_, ?_⟩
    · have := k.ceiling
      simp only [State.ownReserved] at this ⊢
      rw [hfl, hc]; exact this
    · intro j f hj
      rw [hflow] at hj
      simpa [hrec] using k.owned j f hj
    · intro i j r q hi hj
      rw [hrec] at hi hj
      exact k.oneRecord i j r q hi hj
    · intro hn j
      rw [hr] at hn
      rw [hflow]
      exact k.starting hn j

/-! ### Notices and the transmit side -/

/-- Raising a notice keeps (R176). -/
theorem State.raise_keeps (n : Notice) (s : State) : Keeps s (s.raise n) := by
  by_cases h : s.port.notices.length < Config.noticeEntries
  · have e : s.raise n = { s with port := { s.port with notices := s.port.notices ++ [n] } } := by simp [State.raise, h]
    rw [e]
    exact ⟨rfl, rfl, rfl, rfl, fun k => { k with notices := by simp only [List.length_append, List.length_singleton]; omega },
      fun k => { k with }, fun k => { k with }, fun k => { k with }⟩
  · have e : s.raise n = { s with port := { s.port with overflow := true } } := by simp [State.raise, h]
    rw [e]
    exact Keeps.quiet rfl

/-- A change of the transmit side that stays within its places keeps. -/
theorem Keeps.transmit {s : State} {p : Pli} (hrx : p.rx = s.pli.rx)
    (h : s.WithinCapacity → ({ s with pli := p } : State).txCount ≤ Config.txFrames ∧
      ({ s with pli := p } : State).txChunkCount ≤ Config.txChunks ∧ (p.tx.filter Frame.isAdvert).length ≤ 1) :
    Keeps s { s with pli := p } :=
  ⟨rfl, rfl, rfl, rfl,
    fun k => { k with rx := by rw [show ({ s with pli := p } : State).pli.rx = s.pli.rx from hrx]; exact k.rx
                      tx := (h k).1, txChunks := (h k).2.1, adverts := (h k).2.2 },
    fun k => { k with }, fun k => { k with }, fun k => { k with }⟩

/-- The figures of the transmit side with one more frame at its tail. -/
theorem State.tx_append (s : State) (f : Frame) (p : Pli) (hp : p.tx = s.pli.tx ++ [f]) :
    ({ s with pli := p } : State).txCount = s.txCount + (if f.isAdvert then 0 else 1) ∧
      ({ s with pli := p } : State).txChunkCount = s.txChunkCount + (if f.isChunk then 1 else 0) ∧
      (p.tx.filter Frame.isAdvert).length = (s.pli.tx.filter Frame.isAdvert).length + (if f.isAdvert then 1 else 0) := by
  have hh : ({ s with pli := p } : State).heldPlaces = s.heldPlaces := rfl
  refine ⟨?_, ?_, ?_⟩
  · simp only [State.txCount, hh, hp, List.filter_append, List.length_append]
    cases h : f.isAdvert <;> (simp [h]; try omega)
  · simp only [State.txChunkCount, hh, hp, List.filter_append, List.length_append]
    cases h : f.isChunk <;> (simp [h]; try omega)
  · simp only [hp, List.filter_append, List.length_append]
    cases h : f.isAdvert <;> simp [h]

/-- Sending a frame that is neither CHUNK nor ADVERT keeps (R7, R8). -/
theorem State.send_keeps (d : Nat) (b : FrameBody) (hc : b.kind ≠ .chunk) (ha : b.kind ≠ .advert) (s : State) :
    Keeps s (s.send d b) := by
  unfold State.send
  split
  · exact Keeps.refl s
  · split
    · rename_i hlt
      unfold State.placeFrame
      refine Keeps.transmit rfl fun k => ?_
      obtain ⟨h1, h2, h3⟩ := State.tx_append s { sender := s.cfg.nodeId, dest := d, body := b }
        { s.pli with tx := s.pli.tx ++ [{ sender := s.cfg.nodeId, dest := d, body := b }], txRun := false } rfl
      have ea : ({ sender := s.cfg.nodeId, dest := d, body := b } : Frame).isAdvert = false := by simp [Frame.isAdvert, ha]
      have ec : ({ sender := s.cfg.nodeId, dest := d, body := b } : Frame).isChunk = false := by simp [Frame.isChunk, hc]
      have := k.txChunks
      have := k.adverts
      rw [h1, h2, h3, ea, ec]
      simp only [Bool.false_eq_true, if_false]
      exact ⟨by omega, by omega, by omega⟩
    · split
      · exact Keeps.refl s
      · exact Keeps.trans (u := { s with pli := { s.pli with txRun := true } }) (Keeps.quiet rfl) (State.raise_keeps _ _)

/-- Replacing an ADVERT with an ADVERT leaves the counts of a transmit order. -/
theorem filter_map_advert (tx : List Frame) (f : Frame) (hf : f.isAdvert = true) (hc : f.isChunk = false) :
    ((tx.map fun g => if g.isAdvert then f else g).filter fun g => !g.isAdvert).length = (tx.filter fun g => !g.isAdvert).length ∧
    ((tx.map fun g => if g.isAdvert then f else g).filter Frame.isChunk).length = (tx.filter Frame.isChunk).length ∧
    ((tx.map fun g => if g.isAdvert then f else g).filter Frame.isAdvert).length = (tx.filter Frame.isAdvert).length := by
  induction tx with
  | nil => simp
  | cons g tx ih =>
    obtain ⟨h1, h2, h3⟩ := ih
    cases hg : g.isAdvert with
    | true =>
      have hgc : g.isChunk = false := by
        simp only [Frame.isAdvert, Frame.isChunk, beq_iff_eq, beq_eq_false_iff_ne] at hg ⊢
        simp [hg]
      simp [hg, hf, hc, hgc, h1, h2, h3]
    | false => cases hgc : g.isChunk <;> simp [hg, hgc, h1, h2, h3]

/-- Placing an ADVERT keeps (R5). -/
theorem State.placeAdvert_keeps (a : Advert) (s : State) : Keeps s (s.placeAdvert a) := by
  unfold State.placeAdvert
  simp only
  split
  · exact Keeps.refl s
  · split
    · refine Keeps.transmit rfl fun k => ?_
      obtain ⟨h1, h2, h3⟩ := filter_map_advert s.pli.tx { sender := s.cfg.nodeId, dest := 0, body := .advert a } rfl rfl
      have e1 := k.tx
      have e2 := k.txChunks
      simp only [State.txCount, State.txChunkCount] at e1 e2 ⊢
      rw [h1, h2, h3]
      exact ⟨e1, e2, k.adverts⟩
    · rename_i hno
      refine Keeps.transmit rfl fun k => ?_
      obtain ⟨h1, h2, h3⟩ := State.tx_append s { sender := s.cfg.nodeId, dest := 0, body := .advert a }
        { s.pli with tx := s.pli.tx ++ [{ sender := s.cfg.nodeId, dest := 0, body := .advert a }] } rfl
      have hz : s.pli.tx.filter Frame.isAdvert = [] := by
        rw [List.filter_eq_nil_iff]
        intro g hg hga
        exact hno (List.any_eq_true.mpr ⟨g, hg, hga⟩)
      have e1 := k.tx
      have e2 := k.txChunks
      have ea : ({ sender := s.cfg.nodeId, dest := 0, body := .advert a } : Frame).isAdvert = true := rfl
      have ec : ({ sender := s.cfg.nodeId, dest := 0, body := .advert a } : Frame).isChunk = false := rfl
      rw [h1, h2, h3, ea, ec, hz]
      simp only [Bool.false_eq_true, if_false, if_true, List.length_nil]
      exact ⟨by omega, by omega, by omega⟩

/-! ### Client records -/

/-- What a change of one record keeps: the client, at most 4 holds, one for a peer, levels in range. -/
structure RecordKept (r r' : ClientRecord) : Prop where
  client : r'.client = r.client
  holds : r.holds.length ≤ Config.holdEntries → r'.holds.length ≤ Config.holdEntries
  peers : (r.holds.Pairwise fun x y => x.peer ≠ y.peer) → r'.holds.Pairwise fun x y => x.peer ≠ y.peer
  levels : r.LevelsOk → r'.LevelsOk

theorem RecordKept.plain {r r' : ClientRecord} (hc : r'.client = r.client) (hh : r'.holds = r.holds)
    (hs : r'.samples = r.samples) (hq : r'.smoothed = r.smoothed) : RecordKept r r' :=
  ⟨hc, by rw [hh]; exact id, by rw [hh]; exact id, by rw [ClientRecord.LevelsOk, ClientRecord.LevelsOk, hs, hq]; exact id⟩

theorem LevelsOk_none {r : ClientRecord} (hs : r.samples = none) (hq : r.smoothed = none) : r.LevelsOk :=
  ⟨fun p h => (by rw [hs] at h; cases h), fun q h => (by rw [hq] at h; cases h)⟩

/-- The records after a change of one slot. -/
theorem State.record_putRecord (s : State) (i j : Fin 64) (r : ClientRecord) :
    (s.putRecord i r).record j = if i = j then some r else s.record j := by
  by_cases h : i = j
  · subst h; simp
  · simp [h, State.record_putRecord_other s i j r h]

/-- Changing a record leaves each client the record it had. -/
theorem State.putRecord_oneRecord {s : State} {i : Fin 64} {r r' : ClientRecord} (h : s.record i = some r)
    (hc : r'.client = r.client) (k : s.OneRecordEach) : (s.putRecord i r').OneRecordEach := by
  have hback : ∀ j q, (s.putRecord i r').record j = some q → ∃ q', s.record j = some q' ∧ q'.client = q.client := by
    intro j q hj
    rw [State.record_putRecord] at hj
    split at hj
    · cases hj
      rename_i hij
      subst hij
      exact ⟨r, h, hc.symm⟩
    · exact ⟨q, hj, rfl⟩
  intro j j' q q' hj hj' hc
  obtain ⟨a, ha, hac⟩ := hback j q hj
  obtain ⟨b, hb, hbc⟩ := hback j' q' hj'
  exact k j j' a b ha hb (by rw [hac, hbc, hc])

/-- Changing a record keeps. -/
theorem State.putRecord_keeps {s : State} {i : Fin 64} {r r' : ClientRecord} (h : s.record i = some r)
    (hk : RecordKept r r') : Keeps s (s.putRecord i r') := by
  have hrec := fun j => State.record_putRecord s i j r'
  refine ⟨rfl, rfl, rfl, rfl, fun k => { k with holds := ?_ },
    fun k => { k with records := State.putRecord_oneRecord h hk.client k.records, holds := ?_ },
    fun k => { k with records := ?_ },
    fun k => { ceiling := k.ceiling, owned := ?_, oneRecord := State.putRecord_oneRecord h hk.client k.oneRecord,
               starting := k.starting }⟩
  · intro j q hj
    rw [show (s.putRecord i r').clients.table[j] = (s.putRecord i r').record j from rfl, hrec] at hj
    split at hj
    · cases hj
      exact hk.holds (k.holds i r h)
    · exact k.holds j q hj
  · intro j q hj
    rw [hrec] at hj
    split at hj
    · cases hj
      exact hk.peers (k.holds i r h)
    · exact k.holds j q hj
  · intro j q hj
    rw [show (s.putRecord i r').clients.table[j] = (s.putRecord i r').record j from rfl, hrec] at hj
    split at hj
    · cases hj
      exact hk.levels (k.records i r h)
    · exact k.records j q hj
  · intro j f hj
    obtain ⟨q, hq, hqc⟩ := k.owned j f hj
    rw [hrec]
    by_cases hij : i = f.slot
    · subst hij
      rw [h] at hq
      cases hq
      exact ⟨r', by simp, hk.client.trans hqc⟩
    · exact ⟨q, by simp [hij, hq], hqc⟩

/-- A client's record is where `findClient` says (R21). -/
theorem State.findClient_some {s : State} {c : ClientId} {i : Fin 64} (h : s.findClient c = some i) :
    ∃ r, s.record i = some r ∧ r.client = c := by
  have := List.find?_some h
  unfold slotHolds at this
  split at this
  · rename_i r hr
    exact ⟨r, hr, by simpa using this⟩
  · simp at this

/-- No slot holds a record of a client that `findClient` does not find. -/
theorem State.findClient_none {s : State} {c : ClientId} (h : s.findClient c = none) (j : Fin 64) (r : ClientRecord)
    (hj : s.record j = some r) : r.client ≠ c := by
  intro hc
  have := List.find?_eq_none.mp h j (List.mem_finRange j)
  unfold slotHolds at this
  rw [show s.clients.table[j] = s.record j from rfl, hj] at this
  simp [hc] at this

/-- A record for a client that has none leaves one record for a client. -/
theorem State.newRecord_oneRecord {s : State} {r : ClientRecord} (i : Fin 64) (hno : s.findClient r.client = none)
    (k : s.OneRecordEach) : (s.putRecord i r).OneRecordEach := by
  intro j j' q q' hj hj' hc
  rw [State.record_putRecord] at hj hj'
  split at hj
  · rename_i e1
    cases hj
    split at hj'
    · rename_i e2; rw [← e1, ← e2]
    · exact absurd hc.symm (State.findClient_none hno j' q' hj')
  · split at hj'
    · cases hj'
      exact absurd hc (State.findClient_none hno j q hj)
    · exact k j j' q q' hj hj' hc

/-- A record without holds, for a client that has none, leaves the tables without duplicates. -/
theorem State.newRecord_distinct {s : State} {r : ClientRecord} (i : Fin 64) (hno : s.findClient r.client = none)
    (hh : r.holds = []) (k : s.EntriesDistinct) : (s.putRecord i r).EntriesDistinct :=
  { k with
    records := State.newRecord_oneRecord i hno k.records
    holds := fun j q hj => by
      rw [State.record_putRecord] at hj
      split at hj
      · cases hj
        rw [hh]
        exact List.Pairwise.nil
      · exact k.holds j q hj }

/-- Making a record in an empty slot for a client that has none keeps. -/
theorem State.newRecord_keeps {s : State} {i : Fin 64} {r : ClientRecord} (h : s.record i = none)
    (hn : s.findClient r.client = none) (hh : r.holds = []) (hl : r.LevelsOk) : Keeps s (s.putRecord i r) := by
  have hrec := fun j => State.record_putRecord s i j r
  refine ⟨rfl, rfl, rfl, rfl, fun k => { k with holds := ?_ }, State.newRecord_distinct i hn hh,
    fun k => { k with records := ?_ },
    fun k => { ceiling := k.ceiling, owned := ?_, oneRecord := State.newRecord_oneRecord i hn k.oneRecord,
               starting := k.starting }⟩
  · intro j q hj
    rw [show (s.putRecord i r).clients.table[j] = (s.putRecord i r).record j from rfl, hrec] at hj
    split at hj
    · cases hj
      simp [hh]
    · exact k.holds j q hj
  · intro j q hj
    rw [show (s.putRecord i r).clients.table[j] = (s.putRecord i r).record j from rfl, hrec] at hj
    split at hj
    · cases hj
      exact hl
    · exact k.records j q hj
  · intro j f hj
    obtain ⟨q, hq, hqc⟩ := k.owned j f hj
    have hij : i ≠ f.slot := fun e => by rw [← e, h] at hq; cases hq
    exact ⟨q, by rw [hrec]; simp [hij, hq], hqc⟩

/-- Changing every record by a function that keeps each, keeps. -/
theorem State.mapRecords_keeps (f : ClientRecord → ClientRecord) (hf : ∀ r, RecordKept r (f r)) (s : State) :
    Keeps s (s.mapRecords f) := by
  have hrec : ∀ j, (s.mapRecords f).record j = (s.record j).map f := fun j => by
    simp [State.mapRecords, State.record]
  have hback : ∀ j q, (s.mapRecords f).record j = some q → ∃ r, s.record j = some r ∧ q = f r := by
    intro j q hj
    rw [hrec] at hj
    cases hr : s.record j with
    | none => rw [hr] at hj; cases hj
    | some r => rw [hr] at hj; cases hj; exact ⟨r, rfl, rfl⟩
  have hone : s.OneRecordEach → (s.mapRecords f).OneRecordEach := by
    intro k j j' q q' hj hj' hc
    obtain ⟨a, ha, rfl⟩ := hback j q hj
    obtain ⟨b, hb, rfl⟩ := hback j' q' hj'
    exact k j j' a b ha hb (by rw [← (hf a).client, ← (hf b).client, hc])
  refine ⟨rfl, rfl, rfl, rfl, fun k => { k with holds := ?_ },
    fun k => { k with records := hone k.records, holds := ?_ }, fun k => { k with records := ?_ },
    fun k => { ceiling := k.ceiling, owned := ?_, oneRecord := hone k.oneRecord, starting := k.starting }⟩
  · intro j q hj
    obtain ⟨r, hr, rfl⟩ := hback j q hj
    exact (hf r).holds (k.holds j r hr)
  · intro j q hj
    obtain ⟨r, hr, rfl⟩ := hback j q hj
    exact (hf r).peers (k.holds j r hr)
  · intro j q hj
    obtain ⟨r, hr, rfl⟩ := hback j q hj
    exact (hf r).levels (k.records j r hr)
  · intro j g hj
    obtain ⟨q, hq, hqc⟩ := k.owned j g hj
    exact ⟨f q, by rw [hrec, hq]; rfl, (hf q).client.trans hqc⟩

/-! ### Flows -/

/-- A sum over a list with one element replaced. -/
theorem sum_map_set {α : Type} (g : α → Nat) (l : List α) (i : Nat) (hi : i < l.length) (x : α) :
    ((l.set i x).map g).sum + g l[i] = (l.map g).sum + g x := by
  induction l generalizing i with
  | nil => simp at hi
  | cons a l ih =>
    cases i with
    | zero => simp; omega
    | succ i =>
      have := ih i (by simpa using hi)
      simp only [List.set_cons_succ, List.map_cons, List.sum_cons, List.getElem_cons_succ]
      omega

/-- Own reserved airtime after a change of one slot (R106). -/
theorem sum_putSlot (v : Vector FlowSlot 128) (j : Fin 128) (x : FlowSlot) :
    ((putSlot v j x).toList.map FlowSlot.heldShare).sum + (v[j]).heldShare =
      (v.toList.map FlowSlot.heldShare).sum + x.heldShare := by
  have := sum_map_set FlowSlot.heldShare v.toList j.val (by simp) x
  simpa [putSlot, Vector.toList_set] using this

section
variable (j : Fin 128) (x : FlowSlot) (s : State)

theorem State.putFlow_prio_flows : (s.putFlow j x).prio.flows = putSlot s.prio.flows j x := by
  unfold State.putFlow; simp only; split <;> rfl

theorem State.putFlow_same : (s.putFlow j x).pending = s.pending ∧ (s.putFlow j x).now = s.now ∧ (s.putFlow j x).seq = s.seq ∧
    (s.putFlow j x).cfg = s.cfg ∧ (s.putFlow j x).pli = s.pli ∧ (s.putFlow j x).peers = s.peers ∧
    (s.putFlow j x).clients = s.clients ∧ (s.putFlow j x).time = s.time ∧ (s.putFlow j x).sched = s.sched ∧
    (s.putFlow j x).store = s.store ∧ (s.putFlow j x).dist = s.dist ∧ (s.putFlow j x).act = s.act ∧
    (s.putFlow j x).radioOut = s.radioOut ∧ (s.putFlow j x).prio.pace = s.prio.pace ∧
    (s.putFlow j x).prio.pullCredits = s.prio.pullCredits ∧ (s.putFlow j x).prio.serveCredits = s.prio.serveCredits ∧
    (s.putFlow j x).port.notices = s.port.notices := by
  unfold State.putFlow; simp only; split <;> simp

/-- A flow just put reads back. -/
theorem State.flow_putFlow_same : (s.putFlow j x).flow j = x := by
  simp only [State.flow, State.putFlow_prio_flows]
  exact putSlot_get_same _ _ _

/-- Putting one flow leaves the other slots. -/
theorem State.flow_putFlow_other (k : Fin 128) (h : j ≠ k) : (s.putFlow j x).flow k = s.flow k := by
  simp only [State.flow, State.putFlow_prio_flows]
  exact putSlot_get_other _ _ _ _ h

theorem State.ownReserved_putFlow : (s.putFlow j x).ownReserved + (s.flow j).heldShare = s.ownReserved + x.heldShare := by
  simp only [State.ownReserved, State.putFlow_prio_flows, State.flow]
  exact sum_putSlot s.prio.flows j x

end

/-- A part that holds a flow has completed a start. -/
theorem State.AirtimeKept.running {s : State} (k : s.AirtimeKept) {j : Fin 128} {f : FlowRecord} (h : s.flow j = .used f) :
    s.running = true := by
  cases hr : s.running with
  | true => rfl
  | false =>
    have := k.starting hr j
    rw [h] at this
    simp [FlowSlot.isUsed] at this

/-- `Keeps` without the airtime and the distinct entries. -/
structure Kept (s s' : State) : Prop where
  pending : s'.pending = s.pending
  flash : s'.store.flash = s.store.flash
  cfg : s'.cfg = s.cfg
  running : s'.running = s.running
  capacity : s.WithinCapacity → s'.WithinCapacity
  range : s.WithinRange → s'.WithinRange

theorem Kept.refl (s : State) : Kept s s := ⟨rfl, rfl, rfl, rfl, id, id⟩

theorem Kept.trans {s u t : State} (h : Kept s u) (k : Kept u t) : Kept s t :=
  ⟨k.pending.trans h.pending, k.flash.trans h.flash, k.cfg.trans h.cfg, k.running.trans h.running,
    k.capacity ∘ h.capacity, k.range ∘ h.range⟩

theorem Kept.keeps {s s' : State} (h : Kept s s') (hd : s.EntriesDistinct → s'.EntriesDistinct)
    (ha : s.AirtimeKept → s'.AirtimeKept) : Keeps s s' :=
  ⟨h.pending, h.flash, h.cfg, h.running, h.capacity, hd, h.range, ha⟩

theorem Keeps.kept {s s' : State} (h : Keeps s s') : Kept s s' :=
  ⟨h.pending, h.flash, h.cfg, h.running, h.capacity, h.range⟩

/-- Changing a flow slot keeps all but perhaps the airtime and the distinct flows. -/
theorem State.putFlow_kept (j : Fin 128) (x : FlowSlot) (s : State) : Kept s (s.putFlow j x) := by
  obtain ⟨e1, e2, e3, e4, e5, e6, e7, e8, e9, e10, e11, e12, e13, e14, e15, e16, e17⟩ := State.putFlow_same j x s
  have er : (s.putFlow j x).running = s.running := by simp only [State.running, e3]
  refine ⟨e1, by rw [e10], e4, er, fun k => ?_, fun k => ?_⟩
  · have ht : (s.putFlow j x).txCount = s.txCount := by
      simp only [State.txCount, State.heldPlaces, State.storeOps, e5, e10]
    have hch : (s.putFlow j x).txChunkCount = s.txChunkCount := by
      simp only [State.txChunkCount, State.heldPlaces, State.storeOps, e5, e10]
    exact ⟨by rw [e5]; exact k.rx, by rw [ht]; exact k.tx, by rw [hch]; exact k.txChunks, by rw [e5]; exact k.adverts,
      by rw [e6]; exact k.peers, by rw [e6]; exact k.sightings, by rw [e7]; exact k.heard, by rw [e7]; exact k.refusals,
      by rw [e7]; exact k.holds, by rw [e10]; exact k.waiting, by rw [e11]; exact k.serve, by rw [e17]; exact k.notices⟩
  · exact ⟨by rw [e6]; exact k.linkCosts, by rw [e6]; exact k.ownPath, by rw [e8]; exact k.rank, by rw [e7]; exact k.records,
      by rw [e7]; exact k.heard, by rw [e14]; exact k.burst, by rw [e15]; exact k.pullCredits, by rw [e16]; exact k.serveCredits⟩

/-- A flow record that may stand in a slot: no other slot has one of its client and digest (R102). -/
def State.FlowFits (s : State) (j : Fin 128) (x : FlowSlot) : Prop :=
  ∀ f, x = .used f → ∀ k g, j ≠ k → s.flow k = .used g → f.client = g.client → f.digest ≠ g.digest

/-- Changing a flow slot leaves the tables without duplicates, when the record put there fits (R102). -/
theorem State.putFlow_distinct {j : Fin 128} {x : FlowSlot} {s : State} (hx : s.FlowFits j x) (k : s.EntriesDistinct) :
    (s.putFlow j x).EntriesDistinct := by
  obtain ⟨e1, e2, e3, e4, e5, e6, e7, e8, e9, e10, e11, e12, e13, e14, e15, e16, e17⟩ := State.putFlow_same j x s
  have erec : ∀ i, (s.putFlow j x).record i = s.record i := fun i => by simp only [State.record, e7]
  refine ⟨⟨by rw [e6]; exact k.peers, by rw [e7]; exact k.heard, by rw [e6]; exact k.sightings, by rw [e11]; exact k.serve⟩,
    by rw [e7]; exact k.refusals, fun i i' r q hi hi' => ?_, fun i r hi => ?_, fun a b f g ha hb hc hd => ?_⟩
  · rw [erec] at hi hi'
    exact k.records i i' r q hi hi'
  · rw [erec] at hi
    exact k.holds i r hi
  · by_cases hja : j = a
    · subst hja
      rw [State.flow_putFlow_same] at ha
      by_contra hjb
      rw [State.flow_putFlow_other _ _ _ _ hjb] at hb
      exact hx f ha b g hjb hb hc hd
    · rw [State.flow_putFlow_other _ _ _ _ hja] at ha
      by_cases hjb : j = b
      · subst hjb
        rw [State.flow_putFlow_same] at hb
        exact absurd hd.symm (hx g hb a f hja ha hc.symm)
      · rw [State.flow_putFlow_other _ _ _ _ hjb] at hb
        exact k.flows a b f g ha hb hc hd

/-- A flow that keeps its client and digest fits its slot. -/
theorem State.FlowFits.of_flow {s : State} {j : Fin 128} {f g : FlowRecord} (k : s.EntriesDistinct) (h : s.flow j = .used f)
    (hcl : g.client = f.client) (hd : g.digest = f.digest) : s.FlowFits j (.used g) := by
  intro x hx i y hij hy hc he
  cases hx
  exact hij (k.flows j i f y h hy (hcl.symm.trans hc) (hd.symm.trans he))

/-- Changing a flow slot keeps, when a record put there belongs to the client record it names and own reserved airtime
stays within the ceiling. -/
theorem State.putFlow_keeps {j : Fin 128} {x : FlowSlot} {s : State} (hd : s.EntriesDistinct → s.FlowFits j x)
    (hu : s.AirtimeKept → ∀ f, x = .used f → s.running = true ∧ ∃ r, s.record f.slot = some r ∧ r.client = f.client)
    (hc : s.AirtimeKept → s.ownReserved + x.heldShare ≤ s.cfg.ceiling + (s.flow j).heldShare) :
    Keeps s (s.putFlow j x) := by
  obtain ⟨e1, e2, e3, e4, e5, e6, e7, e8, e9, e10, e11, e12, e13, e14, e15, e16, e17⟩ := State.putFlow_same j x s
  have er : (s.putFlow j x).running = s.running := by simp only [State.running, e3]
  have erec : ∀ i, (s.putFlow j x).record i = s.record i := fun i => by simp only [State.record, e7]
  refine (State.putFlow_kept j x s).keeps (fun k => State.putFlow_distinct (hd k) k) fun k => ⟨?_, ?_, ?_, ?_⟩
  · have h1 := State.ownReserved_putFlow j x s
    have h2 := hc k
    rw [e4]
    omega
  · intro i f hf
    rw [erec]
    by_cases hij : j = i
    · subst hij
      rw [State.flow_putFlow_same] at hf
      exact (hu k f hf).2
    · rw [State.flow_putFlow_other j x s i hij] at hf
      exact k.owned i f hf
  · intro i i' r q hi hi'
    rw [erec] at hi hi'
    exact k.oneRecord i i' r q hi hi'
  · intro hn i
    rw [er] at hn
    by_cases hij : j = i
    · subst hij
      rw [State.flow_putFlow_same]
      cases x with
      | free => rfl
      | release d c => rfl
      | used f =>
        have := (hu k f rfl).1
        rw [hn] at this
        cases this
    · rw [State.flow_putFlow_other j x s i hij]
      exact k.starting hn i

/-- Changing a flow that stays with its client and does not take more airtime keeps. -/
theorem State.putFlow_keeps_of_flow {j : Fin 128} {s : State} {f g : FlowRecord} (h : s.flow j = .used f)
    (hs : g.slot = f.slot) (hcl : g.client = f.client) (hdg : g.digest = f.digest)
    (hsh : (FlowSlot.used g).heldShare ≤ (FlowSlot.used f).heldShare) : Keeps s (s.putFlow j (.used g)) := by
  refine State.putFlow_keeps (fun k => .of_flow k h hcl hdg) (fun k x hx => ?_) (fun k => ?_)
  · cases hx
    refine ⟨k.running h, ?_⟩
    rw [hs, hcl]
    exact k.owned j f h
  · have := k.ceiling
    rw [h]
    omega

/-- Giving a flow its share within the ceiling keeps. -/
theorem State.putFlow_keeps_admit {j : Fin 128} {s : State} {f g : FlowRecord} (h : s.flow j = .used f)
    (hs : g.slot = f.slot) (hcl : g.client = f.client) (hdg : g.digest = f.digest)
    (hsh : s.viewTotal + (FlowSlot.used g).heldShare ≤ s.cfg.ceiling) : Keeps s (s.putFlow j (.used g)) := by
  refine State.putFlow_keeps (fun k => .of_flow k h hcl hdg) (fun k x hx => ?_) (fun _ => ?_)
  · cases hx
    refine ⟨k.running h, ?_⟩
    rw [hs, hcl]
    exact k.owned j f h
  · have : s.ownReserved ≤ s.viewTotal := by unfold State.viewTotal; omega
    omega

/-- Clearing a flow slot keeps. -/
theorem State.putFlow_keeps_clear {j : Fin 128} {x : FlowSlot} {s : State} (hx : x.isUsed = false) :
    Keeps s (s.putFlow j x) := by
  have h0 : x.heldShare = 0 := by
    cases x with
    | free => rfl
    | release d c => rfl
    | used f => simp [FlowSlot.isUsed] at hx
  refine State.putFlow_keeps (fun _ f hf => ?_) (fun _ f hf => ?_) (fun k => ?_)
  · subst hf
    simp [FlowSlot.isUsed] at hx
  · subst hf
    simp [FlowSlot.isUsed] at hx
  · have := k.ceiling
    omega

end Sys2Proof.Machine
end

