-- ==== Sys2Proof/Laws/Flows.lean ====
section
/-! SUPPORT. What the operations of the Priority Unit keep: the Flow Table, admission, re-test rounds, overshoot, the
Pace record and the credits. -/

namespace Sys2Proof.Machine

/-! ### The flows that meet a condition -/

theorem State.mem_flowsWhere {s : State} {p : FlowRecord → Bool} {x : Fin 128 × FlowRecord} :
    x ∈ s.flowsWhere p ↔ s.flow x.1 = .used x.2 ∧ p x.2 = true := by
  unfold State.flowsWhere
  rw [List.mem_filterMap]
  constructor
  · rintro ⟨j, _, hj⟩
    split at hj
    · rename_i f hf
      split at hj
      · rename_i hp
        cases hj
        exact ⟨hf, hp⟩
      · cases hj
    · cases hj
    · cases hj
  · rintro ⟨hf, hp⟩
    refine ⟨x.1, List.mem_finRange _, ?_⟩
    rw [hf]
    simp [hp]

/-- Each slot occurs once. -/
theorem State.flowsWhere_distinct (s : State) (p : FlowRecord → Bool) :
    (s.flowsWhere p).Pairwise fun x y => x.1 ≠ y.1 := by
  unfold State.flowsWhere
  rw [List.pairwise_filterMap]
  refine List.Pairwise.imp ?_ (List.nodup_finRange 128)
  intro i j hij x hx y hy
  have hi : x.1 = i := by
    split at hx
    · split at hx
      · cases hx; rfl
      · cases hx
    · cases hx
    · cases hx
  have hj : y.1 = j := by
    split at hy
    · split at hy
      · cases hy; rfl
      · cases hy
    · cases hy
    · cases hy
  rw [hi, hj]
  exact hij

/-- A walk over flows, each as the table holds it, keeps when each step keeps and changes no other slot. -/
theorem Keeps.walkFlows {g : Fin 128 × FlowRecord → State → State}
    (h : ∀ x s, s.flow x.1 = .used x.2 → Keeps s (g x s))
    (ho : ∀ x s k, x.1 ≠ k → (g x s).flow k = s.flow k) (l : List (Fin 128 × FlowRecord)) (s : State)
    (hl : ∀ x ∈ l, s.flow x.1 = .used x.2) (hd : l.Pairwise fun x y => x.1 ≠ y.1) :
    Keeps s (Machine.walk l g s) := by
  induction l generalizing s with
  | nil => exact Keeps.refl s
  | cons x l ih =>
    have hp := List.pairwise_cons.mp hd
    refine (h x s (hl x (by simp))).trans (ih (g x s) (fun y hy => ?_) hp.2)
    rw [ho x s y.1 (hp.1 y hy)]
    exact hl y (by simp [hy])

/-! ### Removal (R111, R118) -/

theorem State.removeFlow_keeps (j : Fin 128) (s : State) : Keeps s (s.removeFlow j) := by
  unfold State.removeFlow
  split
  · exact State.putFlow_keeps_clear (by split <;> rfl)
  · exact Keeps.refl s
  · exact Keeps.refl s

theorem State.removeFlow_clients (j : Fin 128) (s : State) : (s.removeFlow j).clients = s.clients := by
  unfold State.removeFlow
  split
  · exact (State.putFlow_same _ _ _).2.2.2.2.2.2.1
  · rfl
  · rfl

/-- After a removal the slot holds no record, and the others are as they were. -/
theorem State.flow_removeFlow (j k : Fin 128) (s : State) :
    (j = k → ((s.removeFlow j).flow k).isUsed = false) ∧ (j ≠ k → (s.removeFlow j).flow k = s.flow k) := by
  constructor
  · rintro rfl
    unfold State.removeFlow
    split
    · rw [State.flow_putFlow_same]
      split <;> rfl
    · rename_i h; rw [h]; rfl
    · rename_i h; rw [h]; rfl
  · intro h
    unfold State.removeFlow
    split
    · exact State.flow_putFlow_other _ _ _ _ h
    · rfl
    · rfl

theorem State.removeClientFlows_keeps (c : ClientId) (s : State) : Keeps s (s.removeClientFlows c) :=
  Keeps.walk State.removeFlow_keeps _ _

theorem State.removeClientFlows_clients (c : ClientId) (s : State) : (s.removeClientFlows c).clients = s.clients :=
  walk_same State.clients State.removeFlow State.removeFlow_clients _ _

/-- After the removal of a client's flows every flow left is one that was there, of another client (R111). -/
theorem State.removeClientFlows_flow {c : ClientId} {s : State} {j : Fin 128} {f : FlowRecord}
    (h : (s.removeClientFlows c).flow j = .used f) : s.flow j = .used f ∧ f.client ≠ c := by
  have key : ∀ (l : List (Fin 128)) (t : State), (Machine.walk l State.removeFlow t).flow j = .used f →
      t.flow j = .used f ∧ j ∉ l := by
    intro l
    induction l with
    | nil => intro t ht; exact ⟨ht, by simp⟩
    | cons k l ih =>
      intro t ht
      obtain ⟨h1, h2⟩ := ih _ ht
      have h3 := State.flow_removeFlow k j t
      by_cases hkj : k = j
      · have := h3.1 hkj
        rw [h1] at this
        simp [FlowSlot.isUsed] at this
      · rw [h3.2 hkj] at h1
        exact ⟨h1, by simp [h2, Ne.symm hkj]⟩
  obtain ⟨h1, h2⟩ := key _ s h
  refine ⟨h1, fun hc => h2 ?_⟩
  rw [List.mem_map]
  exact ⟨(j, f), State.mem_flowsWhere.mpr ⟨h1, by simp [hc]⟩, rfl⟩

/-! ### Admission (R107 to R109) -/

theorem State.admission_none {s : State} {r : ClientRecord} {n : Nat} (h : s.admission r n = none) :
    r.state ≠ .provisional ∧ r.access = .opened ∧ s.viewTotal + n ≤ s.cfg.ceiling := by
  unfold State.admission at h
  split at h
  · cases h
  · split at h
    · cases h
    · split at h
      · cases h
      · rename_i h1 h2 h3
        exact ⟨h1, by simpa using h2, by omega⟩

theorem State.testFlow_keeps (j : Fin 128) (s : State) : Keeps s (s.testFlow j) := by
  unfold State.testFlow
  split
  · rename_i f hf
    split
    · split
      · rename_i ha
        refine State.putFlow_keeps_admit hf rfl rfl rfl ?_
        have := (State.admission_none ha).2.2
        simpa [FlowSlot.heldShare, FlowRecord.holdsShare] using this
      · exact State.putFlow_keeps_of_flow hf rfl rfl rfl (by simp [FlowSlot.heldShare, FlowRecord.holdsShare])
    · exact Keeps.refl s
  · exact Keeps.refl s
  · exact Keeps.refl s

theorem State.round_keeps (s : State) : Keeps s s.round := Keeps.walk State.testFlow_keeps _ _

theorem State.flowActivity_keeps (j : Fin 128) (s : State) : Keeps s (s.flowActivity j) := by
  unfold State.flowActivity
  split
  · rename_i f hf
    have hr : Keeps s (s.putFlow j (.used { f with lastActivity := s.now })) :=
      State.putFlow_keeps_of_flow hf rfl rfl rfl (Nat.le_refl _)
    simp only
    split
    · exact hr
    · exact hr
    · exact hr
    · exact hr
    · exact hr.trans (State.testFlow_keeps _ _)
    · split
      · exact hr.trans (State.testFlow_keeps _ _)
      · exact hr
    · exact Keeps.refl s
  · exact Keeps.refl s
  · exact Keeps.refl s

/-- A FlowSlot of a flow that holds no share holds none. -/
theorem FlowSlot.heldShare_of_not {f : FlowRecord} (h : f.holdsShare = false) : (FlowSlot.used f).heldShare = 0 := by
  simp [FlowSlot.heldShare, h]

theorem State.classify_keeps {j : Fin 128} {f g : FlowRecord} (r : ClientRecord) {s : State} (hg : s.flow j = .used g)
    (hs : f.slot = g.slot) (hc : f.client = g.client) (hd : f.digest = g.digest) : Keeps s (s.classify j f r) := by
  unfold State.classify
  simp only
  split
  · split
    · rename_i ha
      refine State.putFlow_keeps_admit hg hs hc hd ?_
      have := (State.admission_none ha).2.2
      simpa [FlowSlot.heldShare, FlowRecord.holdsShare] using this
    · exact State.putFlow_keeps_of_flow hg hs hc hd (by simp [FlowSlot.heldShare, FlowRecord.holdsShare])
  · exact State.putFlow_keeps_of_flow hg hs hc hd (by simp [FlowSlot.heldShare, FlowRecord.holdsShare])
  · exact State.putFlow_keeps_of_flow hg hs hc hd (by simp [FlowSlot.heldShare, FlowRecord.holdsShare])

/-- A flow whose client and digest have no record fits any slot (R102). -/
theorem State.findFlow_fits {s : State} {f : FlowRecord} (j : Fin 128) (h : s.findFlow f.client f.digest = none) :
    s.FlowFits j (.used f) := by
  rintro x hx k g _ hg hc hd
  cases hx
  unfold State.findFlow at h
  rw [Option.map_eq_none_iff, List.head?_eq_none_iff] at h
  have : (k, g) ∈ s.flowsWhere fun y => y.client == f.client && y.digest == f.digest :=
    State.mem_flowsWhere.mpr ⟨hg, by simp [hc, hd]⟩
  rw [h] at this
  cases this

/-- A new record in a free slot, for a client that has a record here, keeps. -/
theorem State.newFlow_keeps {j : Fin 128} {f : FlowRecord} {r : ClientRecord} {s : State} (hrun : s.running = true)
    (hrec : s.record f.slot = some r) (hc : r.client = f.client) (hno : s.findFlow f.client f.digest = none)
    (hsh : s.AirtimeKept → s.ownReserved + (FlowSlot.used f).heldShare ≤ s.cfg.ceiling) : Keeps s (s.putFlow j (.used f)) := by
  refine State.putFlow_keeps (fun _ => State.findFlow_fits j hno) (fun _ x hx => ?_) (fun k => ?_)
  · cases hx
    exact ⟨hrun, r, hrec, hc⟩
  · have := hsh k
    omega

theorem State.findFlow_used {s : State} {c : ClientId} {d : Digest} {j : Fin 128} (h : s.findFlow c d = some j) :
    ∃ f, s.flow j = .used f ∧ f.client = c ∧ f.digest = d := by
  unfold State.findFlow at h
  cases hh : (s.flowsWhere fun f => f.client == c && f.digest == d).head? with
  | none => rw [hh] at h; cases h
  | some x =>
    rw [hh] at h
    cases h
    have := State.mem_flowsWhere.mp (List.mem_of_head? hh)
    exact ⟨x.2, this.1, by simpa using this.2⟩

theorem State.sampleFlow_keeps {i : Fin 64} {r : ClientRecord} (d : Digest) (x : FlowSample) {s : State}
    (hrun : s.running = true) (hrec : s.record i = some r) : Keeps s (s.sampleFlow i r d x) := by
  unfold State.sampleFlow
  split
  · rename_i hno
    split
    · exact State.newFlow_keeps hrun hrec rfl hno (fun k => by
        have := k.ceiling
        simpa [FlowSlot.heldShare, FlowRecord.holdsShare, FlowRecord.sampling] using this)
    · exact Keeps.refl s
  · split
    · rename_i f hf
      split
      · rename_i hst
        simp only
        split
        · exact State.classify_keeps r hf rfl rfl rfl
        · exact State.putFlow_keeps_of_flow hf rfl rfl rfl (Nat.le_refl _)
      · split
        · exact State.putFlow_keeps_of_flow hf rfl rfl rfl (Nat.le_refl _)
        · exact State.flowActivity_keeps _ _
    · exact Keeps.refl s
    · exact Keeps.refl s

/-! ### Access changes and handoff (R112 to R115) -/

theorem State.accessChanged_keeps (c : ClientId) (old new : Access) (s : State) : Keeps s (s.accessChanged c old new) := by
  unfold State.accessChanged
  split
  · refine Keeps.walkFlows ?_ ?_ _ s (fun x hx => (State.mem_flowsWhere.mp hx).1) (State.flowsWhere_distinct s _)
    · intro x s hx
      exact State.putFlow_keeps_of_flow hx rfl rfl rfl (by simp [FlowSlot.heldShare, FlowRecord.holdsShare])
    · intro x s k hk
      exact State.flow_putFlow_other _ _ _ _ hk
  · split
    · exact Keeps.walk State.testFlow_keeps _ _
    · exact Keeps.refl s

/-- With no flow of the client there is nothing to change (R112). -/
theorem State.accessChanged_none {c : ClientId} {s : State} (h : ∀ j f, s.flow j = .used f → f.client ≠ c) (old new : Access) :
    s.accessChanged c old new = s := by
  have hz : ∀ p : FlowRecord → Bool, (∀ f, p f = true → f.client = c) → s.flowsWhere p = [] := by
    intro p hp
    rw [List.eq_nil_iff_forall_not_mem]
    intro x hx
    obtain ⟨h1, h2⟩ := State.mem_flowsWhere.mp hx
    exact h _ _ h1 (hp _ h2)
  unfold State.accessChanged
  split
  · rw [hz _ (fun f hf => by simp at hf; exact hf.1)]
    rfl
  · split
    · rw [hz _ (fun f hf => by simp at hf; exact hf.1.1.1)]
      rfl
    · rfl

theorem State.settleFlow_keeps (o : Bool) (x : Fin 128 × FlowRecord) (s : State) (hx : s.flow x.1 = .used x.2)
    (hr : x.2.state = .reserved) : Keeps s (State.settleFlow o x s) := by
  unfold State.settleFlow
  refine State.putFlow_keeps_of_flow hx ?_ ?_ ?_ ?_
  · cases o <;> rfl
  · cases o <;> rfl
  · cases o <;> rfl
  · cases o <;> simp [FlowSlot.heldShare, FlowRecord.holdsShare, hr]

theorem State.settleReserved_keeps (r : ClientRecord) (s : State) : Keeps s (s.settleReserved r) := by
  unfold State.settleReserved
  have key : ∀ (l : List (Fin 128 × FlowRecord)) (t : State), (∀ x ∈ l, t.flow x.1 = .used x.2 ∧ x.2.state = .reserved) →
      (l.Pairwise fun x y => x.1 ≠ y.1) → Keeps t (Machine.walk l (State.settleFlow (r.access == .opened)) t) := by
    intro l
    induction l with
    | nil => exact fun t _ _ => Keeps.refl t
    | cons x l ih =>
      intro t hl hd
      have hp := List.pairwise_cons.mp hd
      obtain ⟨h1, h2⟩ := hl x (by simp)
      refine (State.settleFlow_keeps _ x t h1 h2).trans (ih _ (fun y hy => ?_) hp.2)
      refine ⟨?_, (hl y (by simp [hy])).2⟩
      unfold State.settleFlow
      simp only
      rw [State.flow_putFlow_other _ _ _ _ (hp.1 y hy)]
      exact (hl y (by simp [hy])).1
  refine key _ s (fun x hx => ?_) (State.flowsWhere_distinct s _)
  obtain ⟨h1, h2⟩ := State.mem_flowsWhere.mp hx
  exact ⟨h1, by simp at h2; exact h2.2⟩

theorem State.putFlow_record (j : Fin 128) (x : FlowSlot) (s : State) (i : Fin 64) : (s.putFlow j x).record i = s.record i := by
  simp only [State.record, (State.putFlow_same j x s).2.2.2.2.2.2.1]

theorem State.putFlow_running (j : Fin 128) (x : FlowSlot) (s : State) : (s.putFlow j x).running = s.running := by
  simp only [State.running, (State.putFlow_same j x s).2.2.1]

/-- Entering one carried flow keeps, when its share fits. -/
theorem State.enterCarried_keeps {i : Fin 64} {c : ClientId} {r : ClientRecord} (make : CarriedFlow → FlowRecord)
    (g : CarriedFlow) (hmake : (make g).digest = g.digest) {s : State} (hrun : s.running = true) (hrec : s.record i = some r) (hc : r.client = c)
    (hsh : s.AirtimeKept → s.ownReserved + (FlowSlot.used { make g with slot := i, client := c }).heldShare ≤ s.cfg.ceiling) :
    Keeps s (State.enterCarried i c make g s) := by
  unfold State.enterCarried
  split
  · exact Keeps.refl s
  · rename_i hno
    split
    · refine State.newFlow_keeps hrun hrec hc ?_ hsh
      rw [show ({ make g with slot := i, client := c } : FlowRecord).digest = g.digest from hmake]
      simpa using hno
    · exact Keeps.refl s

theorem State.enterCarried_record (i : Fin 64) (c : ClientId) (make : CarriedFlow → FlowRecord) (g : CarriedFlow) (s : State)
    (k : Fin 64) : (State.enterCarried i c make g s).record k = s.record k := by
  unfold State.enterCarried
  split
  · rfl
  · split
    · exact State.putFlow_record _ _ _ _
    · rfl

/-- Entering the flows of a CONTEXT keeps: none of them holds a share (R115). -/
theorem State.enterContext_keeps {i : Fin 64} {c : ClientId} {r : ClientRecord} (gs : List CarriedFlow) {s : State}
    (hrun : s.running = true) (hrec : s.record i = some r) (hc : r.client = c) : Keeps s (s.enterContext i c gs) := by
  unfold State.enterContext
  induction gs generalizing s with
  | nil => exact Keeps.refl s
  | cons g gs ih =>
    have h1 : Keeps s (State.enterCarried i c (fun g => g.record i c .waiting (some s.now) (some .context) s.now) g s) :=
      State.enterCarried_keeps _ g rfl hrun hrec hc (fun k => by
        have := k.ceiling
        simpa [CarriedFlow.record, FlowSlot.heldShare, FlowRecord.holdsShare] using this)
    have hn : (State.enterCarried i c (fun g => g.record i c .waiting (some s.now) (some .context) s.now) g s).now = s.now := by
      unfold State.enterCarried
      split
      · rfl
      · split
        · exact (State.putFlow_same _ _ _).2.1
        · rfl
    have := ih (s := State.enterCarried i c (fun g => g.record i c .waiting (some s.now) (some .context) s.now) g s)
      (h1.running.trans hrun) (by rw [State.enterCarried_record]; exact hrec)
    rw [hn] at this
    exact h1.trans this

theorem State.enterCarried_kept (i : Fin 64) (c : ClientId) (make : CarriedFlow → FlowRecord) (g : CarriedFlow) (s : State) :
    Kept s (State.enterCarried i c make g s) := by
  unfold State.enterCarried
  split
  · exact Kept.refl s
  · split
    · exact State.putFlow_kept _ _ _
    · exact Kept.refl s

theorem State.reserveFlows_kept (i : Fin 64) (c : ClientId) (gs : List CarriedFlow) (s : State) :
    Kept s (s.reserveFlows i c gs) :=
  walk_keeps (fun t => Kept s t) _ (fun g _ ht => ht.trans (State.enterCarried_kept i c _ g _)) gs s (Kept.refl s)

/-- Entering carried flows leaves the tables without duplicates (R102, R114). -/
theorem State.enterCarried_distinct (i : Fin 64) (c : ClientId) (make : CarriedFlow → FlowRecord) (g : CarriedFlow)
    (hmake : (make g).digest = g.digest) (s : State) (k : s.EntriesDistinct) :
    (State.enterCarried i c make g s).EntriesDistinct := by
  unfold State.enterCarried
  split
  · exact k
  · rename_i hno
    split
    · refine State.putFlow_distinct (State.findFlow_fits _ ?_) k
      rw [show ({ make g with slot := i, client := c } : FlowRecord).digest = g.digest from hmake]
      simpa using hno
    · exact k

theorem State.reserveFlows_distinct (i : Fin 64) (c : ClientId) (gs : List CarriedFlow) (s : State)
    (k : s.EntriesDistinct) : (s.reserveFlows i c gs).EntriesDistinct :=
  walk_keeps (fun t => t.EntriesDistinct) _ (fun g _ ht => State.enterCarried_distinct i c _ g rfl _ ht) gs s k

/-- Reserving the flows of an accepted OFFER keeps, when their shares fit together (R114). -/
theorem State.reserveFlows_keeps {i : Fin 64} {c : ClientId} {r : ClientRecord} (gs : List CarriedFlow) {s : State}
    (hrun : s.running = true) (hrec : s.record i = some r) (hc : r.client = c)
    (hsh : s.ownReserved + (gs.map CarriedFlow.share).sum ≤ s.cfg.ceiling) : Keeps s (s.reserveFlows i c gs) := by
  unfold State.reserveFlows
  generalize s.now = n
  induction gs generalizing s with
  | nil => exact Keeps.refl s
  | cons g gs ih =>
    simp only [List.map_cons, List.sum_cons] at hsh
    have hheld : ∀ f : FlowRecord, f = { (g.record i c .reserved none none n) with slot := i, client := c } →
        (FlowSlot.used f).heldShare = g.share := by
      rintro f rfl
      simp [CarriedFlow.record, FlowSlot.heldShare, FlowRecord.holdsShare]
    have h1 : Keeps s (State.enterCarried i c (fun g => g.record i c .reserved none none n) g s) :=
      State.enterCarried_keeps _ g rfl hrun hrec hc (fun _ => by
        rw [hheld _ rfl]
        omega)
    refine h1.trans (ih (h1.running.trans hrun) (by rw [State.enterCarried_record]; exact hrec) ?_)
    rw [h1.cfg]
    have hle : (State.enterCarried i c (fun g => g.record i c .reserved none none n) g s).ownReserved ≤ s.ownReserved + g.share := by
      unfold State.enterCarried
      split
      · omega
      · split
        · have := fun j f hf => hheld f hf ▸ State.ownReserved_putFlow j (.used f) s
          have := this ‹_› _ rfl
          simp only at this ⊢
          omega
        · omega
    omega

theorem State.resolveFlows_keeps (c : ClientId) (s : State) : Keeps s (s.resolveFlows c) :=
  Keeps.walk State.testFlow_keeps _ _

/-! ### Overshoot (R116) -/

theorem mem_byTime {time : FlowRecord → Option Nat} {x : Fin 128 × FlowRecord} {l : List (Fin 128 × FlowRecord)} :
    x ∈ byTime time l ↔ x ∈ l := mem_sortBy _ _ _

theorem State.newestAdmitted_flow {s : State} {x : Fin 128 × FlowRecord} (h : s.newestAdmitted = some x) :
    s.flow x.1 = .used x.2 ∧ x.2.state = .admitted := by
  have := State.mem_flowsWhere.mp (mem_byTime.mp (List.mem_of_getLast? h))
  exact ⟨this.1, by simpa using this.2⟩

theorem demoteOver_keeps (fair n : Nat) (s : State) : Keeps s (demoteOver fair n s) := by
  induction n generalizing s with
  | zero => exact Keeps.refl s
  | succ n ih =>
    unfold demoteOver
    split
    · split
      · rename_i x hx
        obtain ⟨h1, _⟩ := State.newestAdmitted_flow hx
        refine Keeps.trans ?_ (ih _)
        exact State.putFlow_keeps_of_flow h1 rfl rfl rfl (by simp [FlowSlot.heldShare, FlowRecord.holdsShare])
      · exact Keeps.refl s
    · exact Keeps.refl s

theorem State.overshoot_keeps (s : State) : Keeps s s.overshoot := by
  unfold State.overshoot
  split
  · exact demoteOver_keeps _ _ _
  · exact Keeps.refl s

/-! ### Pace and credits (R120 to R124) -/

/-- The bulk burst limit is 2,500 to 30,000 microseconds (R120). -/
theorem burstLimit_range (fixedPace : Bool) (i : Option Nat) :
    Config.paceFloor ≤ burstLimit fixedPace i ∧ burstLimit fixedPace i ≤ Config.paceCeiling := by
  unfold burstLimit Config.paceFloor Config.paceCeiling
  split
  · omega
  · split <;> omega

theorem State.workPace_keeps (s : State) : Keeps s s.workPace := by
  unfold State.workPace
  split
  · exact Keeps.refl s
  · refine ⟨rfl, rfl, rfl, rfl, fun k => { k with }, fun k => { k with }, fun k => { k with burst := ?_ },
      fun k => { k with }⟩
    exact burstLimit_range _ _

theorem State.pullLevel_le (s : State) : s.pullLevel ≤ Config.creditsOpen := by
  unfold State.pullLevel Config.creditsOwnGame Config.creditsPeerGame Config.creditsOpen
  split
  · omega
  · split <;> omega

theorem State.serveLevel_le (s : State) : s.serveLevel ≤ Config.creditsOpen := by
  unfold State.serveLevel Config.creditsOwnGame Config.creditsOpen
  split <;> omega

/-- A change of the credits that stays within the open levels keeps. -/
theorem Keeps.credits {s : State} (p q : Nat) (hp : s.WithinRange → p ≤ Config.creditsOpen)
    (hq : s.WithinRange → q ≤ Config.creditsOpen) :
    Keeps s { s with prio := { s.prio with pullCredits := p, serveCredits := q } } :=
  ⟨rfl, rfl, rfl, rfl, fun k => { k with }, fun k => { k with },
    fun k => { k with pullCredits := hp k, serveCredits := hq k }, fun k => { k with }⟩

theorem State.openCredits_keeps (s : State) : Keeps s s.openCredits :=
  Keeps.credits _ _ (fun _ => s.pullLevel_le) (fun _ => s.serveLevel_le)

theorem State.cutCredits_keeps (s : State) : Keeps s s.cutCredits :=
  Keeps.credits _ _ (fun k => le_trans (min_le_left _ _) k.pullCredits) (fun k => le_trans (min_le_left _ _) k.serveCredits)

theorem State.retest_keeps (s : State) : Keeps s s.retest := by
  unfold State.retest
  split
  · exact Keeps.trans (u := { s with ev := { s.ev with released := false } }) (Keeps.quiet rfl) (State.round_keeps _)
  · exact Keeps.refl s

theorem State.priorityEnd_keeps (s : State) : Keeps s s.priorityEnd := by
  unfold State.priorityEnd
  split
  · exact (State.retest_keeps s).trans ((State.workPace_keeps _).trans (State.cutCredits_keeps _))
  · exact State.retest_keeps s

end Sys2Proof.Machine
end

