-- ==== Sys2Proof/Laws/Memory.lean ====
section
/-! SUPPORT. The laws of the flash: every change keeps the canonical form, a read after a write gives what was written,
and a write leaves every other byte alone. -/

namespace Sys2Proof.Machine

/-! ### The canonical form -/

/-- The canonical form as two facts. -/
theorem Memory.wf_iff (m : List Host.Cell) :
    Memory.wf m = true ↔ m.Pairwise (fun c d => c.1 < d.1) ∧ ∀ c ∈ m, c.2 ≠ Memory.unlisted := by
  simp [Memory.wf]

theorem Memory.cellsOf_bounds (bs : List Byte) (a : Nat) :
    ∀ c ∈ Memory.cellsOf a bs, a ≤ c.1 ∧ c.1 < a + bs.length ∧ c.2 ≠ Memory.unlisted := by
  induction bs generalizing a with
  | nil => simp [Memory.cellsOf]
  | cons b bs ih =>
    intro c hc
    simp only [Memory.cellsOf] at hc
    split at hc
    · have h := ih (a + 1) c hc
      simp only [List.length_cons]
      exact ⟨by omega, by omega, h.2.2⟩
    · rcases List.mem_cons.mp hc with rfl | hc
      · simp only [List.length_cons]
        exact ⟨by omega, by omega, by assumption⟩
      · have h := ih (a + 1) c hc
        simp only [List.length_cons]
        exact ⟨by omega, by omega, h.2.2⟩

theorem Memory.cellsOf_rising (bs : List Byte) (a : Nat) :
    (Memory.cellsOf a bs).Pairwise (fun c d => c.1 < d.1) := by
  induction bs generalizing a with
  | nil => simp [Memory.cellsOf]
  | cons b bs ih =>
    simp only [Memory.cellsOf]
    split
    · exact ih (a + 1)
    · refine List.pairwise_cons.mpr ⟨fun c hc => ?_, ih (a + 1)⟩
      have := (Memory.cellsOf_bounds bs (a + 1) c hc).1
      simp only
      omega

/-- Writing keeps the canonical form. -/
theorem Memory.writeBytes_wf (m : List Host.Cell) (a : Nat) (bs : List Byte) (h : Memory.wf m = true) :
    Memory.wf (Memory.writeBytes m a bs) = true := by
  rw [Memory.wf_iff] at h ⊢
  constructor
  · simp only [Memory.writeBytes, List.pairwise_append, List.mem_append, List.mem_filter, decide_eq_true_eq]
    refine ⟨⟨h.1.filter _, Memory.cellsOf_rising bs a, fun c hc d hd => ?_⟩, h.1.filter _, fun c hc d hd => ?_⟩
    · have := Memory.cellsOf_bounds bs a d hd
      omega
    · rcases hc with hc | hc
      · omega
      · have := Memory.cellsOf_bounds bs a c hc
        omega
  · intro c hc
    simp only [Memory.writeBytes, List.mem_append, List.mem_filter] at hc
    rcases hc with (hc | hc) | hc
    · exact h.2 c hc.1
    · exact (Memory.cellsOf_bounds bs a c hc).2.2
    · exact h.2 c hc.1

/-- Erasing keeps the canonical form. -/
theorem Memory.erase_wf (m : List Host.Cell) (a n : Nat) (h : Memory.wf m = true) :
    Memory.wf (Memory.erase m a n) = true := by
  rw [Memory.wf_iff] at h ⊢
  constructor
  · simp only [Memory.erase, List.pairwise_append, List.mem_filter, decide_eq_true_eq]
    exact ⟨h.1.filter _, h.1.filter _, fun c hc d hd => by omega⟩
  · intro c hc
    simp only [Memory.erase, List.mem_append, List.mem_filter] at hc
    rcases hc with hc | hc <;> exact h.2 c hc.1

/-- What a device leaves otherwise than it was told keeps the canonical form. -/
theorem spoil_wf (cells m : List Host.Cell) (a n : Nat) (h : Memory.wf m = true) :
    Memory.wf (spoil cells m a n) = true := by
  unfold spoil
  generalize cells.filter _ = cs
  induction cs generalizing m with
  | nil => exact h
  | cons c cs ih => exact ih _ (Memory.writeBytes_wf m c.1 [c.2] h)

/-- Writing a record keeps the canonical form. -/
theorem writeArea_wf (m : List Host.Cell) (a : Area) (body : List Byte) (h : Memory.wf m = true) :
    Memory.wf (writeArea m a body) = true :=
  Memory.writeBytes_wf _ _ _ (Memory.erase_wf _ _ _ h)

/-! ### Reading -/

theorem Memory.read_append (m n : List Host.Cell) (x : Nat) :
    Memory.read (m ++ n) x = if m.any (fun c => c.1 == x) then Memory.read m x else Memory.read n x := by
  unfold Memory.read
  rw [List.find?_append]
  cases h : m.find? (fun c => c.1 == x) with
  | none =>
    have : m.any (fun c => c.1 == x) = false := by
      simpa [List.any_eq_false, List.find?_eq_none] using h
    simp [this]
  | some c =>
    have : m.any (fun c => c.1 == x) = true := by
      rw [List.any_eq_true]
      exact ⟨c, List.mem_of_find?_eq_some h, by simpa using List.find?_some h⟩
    simp [this]

theorem Memory.read_filter (m : List Host.Cell) (p : Nat → Bool) (x : Nat) :
    Memory.read (m.filter fun c => p c.1) x = if p x then Memory.read m x else Memory.unlisted := by
  induction m with
  | nil => cases p x <;> rfl
  | cons c m ih =>
    by_cases hc : c.1 = x
    · cases hp : p x with
      | true => simp [Memory.read, hc, hp]
      | false =>
        rw [hp] at ih
        simpa [hc, hp] using ih
    · cases hp : p c.1 with
      | true =>
        have e : ∀ l : List Host.Cell, Memory.read (c :: l) x = Memory.read l x := by
          intro l
          simp [Memory.read, hc]
        rw [List.filter_cons_of_pos (by simpa using hp), e, e, ih]
      | false =>
        have e : Memory.read (c :: m) x = Memory.read m x := by simp [Memory.read, hc]
        rw [List.filter_cons_of_neg (by simp [hp]), e, ih]

theorem Memory.any_filter (m : List Host.Cell) (p : Nat → Bool) (x : Nat) :
    (m.filter fun c => p c.1).any (fun c => c.1 == x) = (p x && m.any (fun c => c.1 == x)) := by
  rw [Bool.eq_iff_iff]
  simp only [List.any_eq_true, List.mem_filter, beq_iff_eq, Bool.and_eq_true]
  constructor
  · rintro ⟨c, ⟨hc, hp⟩, rfl⟩
    exact ⟨hp, c, hc, rfl⟩
  · rintro ⟨hp, c, hc, rfl⟩
    exact ⟨c, ⟨hc, hp⟩, rfl⟩

theorem Memory.read_of_not_any (m : List Host.Cell) (x : Nat) (h : m.any (fun c => c.1 == x) = false) :
    Memory.read m x = Memory.unlisted := by
  unfold Memory.read
  have : m.find? (fun c => c.1 == x) = none := by
    simpa [List.find?_eq_none, List.any_eq_false] using h
  rw [this]

theorem Memory.any_cellsOf_outside (bs : List Byte) (a x : Nat) (h : x < a ∨ a + bs.length ≤ x) :
    (Memory.cellsOf a bs).any (fun c => c.1 == x) = false := by
  rw [List.any_eq_false]
  intro c hc
  have := Memory.cellsOf_bounds bs a c hc
  simp only [beq_iff_eq]
  omega

theorem Memory.read_cellsOf (bs : List Byte) (a i : Nat) (h : i < bs.length) :
    Memory.read (Memory.cellsOf a bs) (a + i) = bs[i] := by
  induction bs generalizing a i with
  | nil => simp at h
  | cons b bs ih =>
    simp only [Memory.cellsOf]
    cases i with
    | zero =>
      split
      · rw [Memory.read_of_not_any _ _ (Memory.any_cellsOf_outside bs (a + 1) (a + 0) (by omega))]
        simp_all
      · simp [Memory.read]
    | succ i =>
      have hi : i < bs.length := by simpa using h
      have e : a + (i + 1) = a + 1 + i := by omega
      split
      · rw [e, ih (a + 1) i hi]; rfl
      · have hne : ((a, b).1 == a + 1 + i) = false := by simp only [beq_eq_false_iff_ne]; omega
        have hr : Memory.read ((a, b) :: Memory.cellsOf (a + 1) bs) (a + 1 + i) =
            Memory.read (Memory.cellsOf (a + 1) bs) (a + 1 + i) := by
          simp only [Memory.read, List.find?_cons, hne]
        rw [e, hr, ih (a + 1) i hi]
        rfl

/-- A write leaves every byte outside its range alone. -/
theorem Memory.read_writeBytes_outside (m : List Host.Cell) (a : Nat) (bs : List Byte) (x : Nat)
    (h : x < a ∨ a + bs.length ≤ x) : Memory.read (Memory.writeBytes m a bs) x = Memory.read m x := by
  have hc := Memory.any_cellsOf_outside bs a x h
  simp only [Memory.writeBytes]
  rw [Memory.read_append, List.any_append, hc, Bool.or_false, Memory.any_filter m (fun n => decide (n < a)) x]
  by_cases hx : x < a
  · cases hm : m.any (fun c => c.1 == x) with
    | true =>
      simp only [hx, decide_true, Bool.true_and, if_true]
      rw [Memory.read_append, Memory.any_filter m (fun n => decide (n < a)) x,
        Memory.read_filter m (fun n => decide (n < a)) x]
      simp [hx, hm]
    | false =>
      simp only [Bool.and_false, Bool.false_eq_true, if_false]
      rw [Memory.read_filter m (fun n => decide (a + bs.length ≤ n)) x, Memory.read_of_not_any m x hm]
      simp
  · have hx' : a + bs.length ≤ x := by omega
    simp only [hx, decide_false, Bool.false_and, Bool.false_eq_true, if_false]
    rw [Memory.read_filter m (fun n => decide (a + bs.length ≤ n)) x]
    simp [hx']

/-- A read after a write gives the byte written. -/
theorem Memory.read_writeBytes_inside (m : List Host.Cell) (a : Nat) (bs : List Byte) (i : Nat) (h : i < bs.length) :
    Memory.read (Memory.writeBytes m a bs) (a + i) = bs[i] := by
  have hlo : (m.filter fun c => decide (c.1 < a)).any (fun c => c.1 == a + i) = false := by
    rw [Memory.any_filter m (fun n => decide (n < a))]
    simp
  have hhi : Memory.read (m.filter fun c => decide (a + bs.length ≤ c.1)) (a + i) = Memory.unlisted := by
    rw [Memory.read_filter m (fun n => decide (a + bs.length ≤ n))]
    simp only [decide_eq_true_eq]
    rw [if_neg (by omega)]
  simp only [Memory.writeBytes]
  rw [Memory.read_append, List.any_append, hlo, Bool.false_or]
  cases hc : (Memory.cellsOf a bs).any (fun c => c.1 == a + i) with
  | true =>
    simp only [if_true]
    rw [Memory.read_append, hlo]
    simp [Memory.read_cellsOf bs a i h]
  | false =>
    simp only [Bool.false_eq_true, if_false]
    rw [hhi, ← Memory.read_cellsOf bs a i h, Memory.read_of_not_any _ _ hc]

/-- A run read after it was written is what was written. -/
theorem Memory.readBytes_writeBytes (m : List Host.Cell) (a : Nat) (bs : List Byte) :
    Memory.readBytes (Memory.writeBytes m a bs) a bs.length = bs := by
  apply List.ext_getElem
  · simp [Memory.readBytes]
  · intro i h1 h2
    simp only [Memory.readBytes, List.getElem_map, List.getElem_range]
    exact Memory.read_writeBytes_inside m a bs i h2

/-- An erase leaves every byte outside its range alone. -/
theorem Memory.read_erase_outside (m : List Host.Cell) (a n x : Nat) (h : x < a ∨ a + n ≤ x) :
    Memory.read (Memory.erase m a n) x = Memory.read m x := by
  simp only [Memory.erase]
  rw [Memory.read_append, Memory.any_filter m (fun n => decide (n < a)), Memory.read_filter m (fun k => decide (k < a)),
    Memory.read_filter m (fun k => decide (a + n ≤ k))]
  rcases h with h | h
  · simp only [h, decide_true, Bool.true_and, if_true]
    cases hm : m.any (fun c => c.1 == x) with
    | true => simp
    | false => simp [Memory.read_of_not_any m x hm]
  · have : ¬ x < a := by omega
    simp [this, h]

/-- An erased byte reads as all ones. -/
theorem Memory.read_erase_inside (m : List Host.Cell) (a n x : Nat) (h : a ≤ x ∧ x < a + n) :
    Memory.read (Memory.erase m a n) x = Memory.unlisted := by
  simp only [Memory.erase]
  rw [Memory.read_append, Memory.any_filter m (fun n => decide (n < a)), Memory.read_filter m (fun k => decide (k < a)),
    Memory.read_filter m (fun k => decide (a + n ≤ k))]
  have h1 : ¬ x < a := by omega
  have h2 : ¬ a + n ≤ x := by omega
  simp [h1, h2]

/-- A device's own cells change no byte outside the range of the operation. -/
theorem read_spoil_outside (cells m : List Host.Cell) (a n x : Nat) (h : x < a ∨ a + n ≤ x) :
    Memory.read (spoil cells m a n) x = Memory.read m x := by
  unfold spoil
  have hall : ∀ c ∈ cells.filter (fun c => decide (a ≤ c.1) && decide (c.1 < a + n)), a ≤ c.1 ∧ c.1 < a + n := by
    intro c hc
    simpa using (List.mem_filter.mp hc).2
  generalize cells.filter _ = cs at hall
  induction cs generalizing m with
  | nil => rfl
  | cons c cs ih =>
    have hc := hall c (by simp)
    rw [List.foldl_cons, ih _ (fun d hd => hall d (by simp [hd]))]
    exact Memory.read_writeBytes_outside m c.1 [c.2] x (by simp only [List.length_singleton]; omega)

/-- A written record changes no byte outside its area. -/
theorem read_writeArea_outside (m : List Host.Cell) (a : Area) (body : List Byte) (x : Nat)
    (h : x < a.base ∨ a.base + Config.blockBytes ≤ x) : Memory.read (writeArea m a body) x = Memory.read m x := by
  have hb : ((writeRecord a body).take Config.blockBytes).length ≤ Config.blockBytes := by
    rw [List.length_take]; omega
  unfold writeArea
  rw [Memory.read_writeBytes_outside _ _ _ _ (by omega), Memory.read_erase_outside _ _ _ _ h]

/-- An erased area reads invalid (R129). -/
theorem readArea_erase (m : List Host.Cell) (a : Area) :
    readArea [] (Memory.erase m a.base Config.blockBytes) a = none := by
  have hb : 3 ≤ Config.blockBytes := by decide
  have hr : ∀ i, i < 3 → Memory.read (Memory.erase m a.base Config.blockBytes) (a.base + i) = 0xFF := fun i hi =>
    Memory.read_erase_inside _ _ _ _ (by omega)
  generalize Memory.erase m a.base Config.blockBytes = e at hr
  have h : overlay [] (a.base + 0) (Memory.readBytes e (a.base + 0) 3) = [0xFF, 0xFF, 0xFF] := by
    show overlay [] (a.base + 0) [Memory.read e (a.base + 0), Memory.read e (a.base + 1), Memory.read e (a.base + 2)] = _
    rw [hr 0 (by decide), hr 1 (by decide), hr 2 (by decide)]
    rfl
  unfold readArea
  simp only [h]
  rw [if_pos]
  exact .inl (by rcases a with _ | _ | ⟨_ | _⟩ | _ | ⟨_ | _⟩ <;> decide)

/-- An area left invalid reads invalid, and no byte outside it is changed (R141, R170). -/
theorem readArea_leaveInvalid (m : List Host.Cell) (a : Area) : readArea [] (leaveInvalid m a) a = none := by
  unfold leaveInvalid
  split
  · exact readArea_erase m a
  · rename_i h
    simpa using h

theorem read_leaveInvalid_outside (m : List Host.Cell) (a : Area) (x : Nat)
    (h : x < a.base ∨ a.base + Config.blockBytes ≤ x) : Memory.read (leaveInvalid m a) x = Memory.read m x := by
  unfold leaveInvalid
  split
  · exact Memory.read_erase_outside _ _ _ _ h
  · rfl

/-- An area left as before reads as it did before or invalid, and no byte outside it is changed (R134). -/
theorem readArea_leaveAsBefore (before m : List Host.Cell) (a : Area) :
    readArea [] (leaveAsBefore before m a) a = readArea [] before a ∨ readArea [] (leaveAsBefore before m a) a = none := by
  unfold leaveAsBefore
  split
  · exact .inl ‹_›
  · exact .inr (readArea_leaveInvalid m a)

theorem read_leaveAsBefore_outside (before m : List Host.Cell) (a : Area) (x : Nat)
    (h : x < a.base ∨ a.base + Config.blockBytes ≤ x) : Memory.read (leaveAsBefore before m a) x = Memory.read m x := by
  unfold leaveAsBefore
  split
  · rfl
  · exact read_leaveInvalid_outside m a x h

/-- An operation that does not run to its end well changes no byte outside its range. -/
theorem read_spoilOp_outside (cells m : List Host.Cell) (op : StoreOp) (x : Nat)
    (h : ∀ b n, op.writes = some (b, n) → x < b ∨ b + n ≤ x) : Memory.read (spoilOp cells m op) x = Memory.read m x := by
  unfold spoilOp
  split
  · rename_i a n hw
    split
    · rename_i k hk
      have ha : a = (Area.manifest k).base ∧ n = Config.blockBytes := by
        simp only [StoreOp.writes, hk, Option.some.injEq, Prod.mk.injEq] at hw
        exact ⟨hw.1.symm, hw.2.symm⟩
      rw [read_leaveInvalid_outside _ _ _ (by have := h a n hw; rw [ha.1, ha.2] at this; exact this),
        read_spoil_outside _ _ _ _ _ (h a n hw)]
    · rename_i c p hk
      have ha : a = (Area.selector c).base ∧ n = Config.blockBytes := by
        simp only [StoreOp.writes, hk, Option.some.injEq, Prod.mk.injEq] at hw
        exact ⟨hw.1.symm, hw.2.symm⟩
      rw [read_leaveAsBefore_outside _ _ _ _ (by have := h a n hw; rw [ha.1, ha.2] at this; exact this),
        read_spoil_outside _ _ _ _ _ (h a n hw)]
    · exact read_spoil_outside _ _ _ _ _ (h a n hw)
  · rfl

end Sys2Proof.Machine
end

