-- ==== Sys2Proof/Laws/Store.lean ====
section
/-! SUPPORT. What the Store Controller's operations keep: submission, going into flight and completion. -/

namespace Sys2Proof.Machine

/-! ### Submission (R131 to R139) -/

theorem State.raiseRefused_keeps (op : StoreOp) (s : State) : Keeps s (s.raiseRefused op) := by
  unfold State.raiseRefused
  split
  · exact State.raise_keeps _ _
  · exact Keeps.refl s

theorem State.putSlotRecord_keeps (k : SlotId) (r : SlotRecord) (s : State) : Keeps s (s.putSlotRecord k r) := by
  cases k <;> exact Keeps.quiet rfl

theorem State.markAccepted_keeps (op : StoreOp) (s : State) : Keeps s (s.markAccepted op) := by
  unfold State.markAccepted
  split
  · exact Keeps.refl s
  · split
    · exact State.putSlotRecord_keeps _ _ _
    · exact State.putSlotRecord_keeps _ _ _
    · exact State.putSlotRecord_keeps _ _ _
    · exact Keeps.refl s

/-- Accepting a submission touches the Slot Table alone. -/
theorem State.markAccepted_same (op : StoreOp) (s : State) : (s.markAccepted op).store = s.store ∧
    (s.markAccepted op).pli = s.pli ∧ (s.markAccepted op).act = s.act ∧ (s.markAccepted op).prio = s.prio ∧
    (s.markAccepted op).clients = s.clients ∧ (s.markAccepted op).seq = s.seq ∧ (s.markAccepted op).ev = s.ev ∧
    (s.markAccepted op).dist.serve = s.dist.serve ∧ (s.markAccepted op).now = s.now ∧ (s.markAccepted op).port = s.port := by
  unfold State.markAccepted
  split
  · simp
  · split <;> simp

@[simp] theorem StoreUnit.direct_owner (st : StoreUnit) (op : StoreOp) : (st.direct op).owner = op.owner := by
  unfold StoreUnit.direct
  split <;> rfl

@[simp] theorem StoreUnit.direct_isServe (st : StoreUnit) (op : StoreOp) : (st.direct op).isServe = op.isServe := by
  simp [StoreOp.isServe]

/-- Everything a submission can do (R131 to R139): it is turned away with the state as it was, or refused as protected
with its notice, or accepted into flight or into the queue. -/
theorem State.submit_cases (op : StoreOp) (s : State) :
    ((s.submit op).1 = s ∧ ((s.submit op).2 = .range ∨ (s.submit op).2 = .badState ∨
      ((s.submit op).2 = .queueFull ∧ Config.storeWaiting ≤ s.store.waiting.length))) ∨
    ((s.submit op).1 = s.raiseRefused op ∧ (s.submit op).2 = .isProtected ∧ op.isProtected s.act.sel = true) ∨
    ((s.submit op).2 = .accepted ∧ op.isProtected s.act.sel = false ∧ s.outOfRange op = false ∧ s.slotStateOk op = true ∧
      ((s.store.inflight = none ∧ s.store.waiting = [] ∧
        (s.submit op).1 = State.markAccepted op { s with store := { s.store with inflight := some (s.store.direct op) } }) ∨
       (s.store.waiting.length < Config.storeWaiting ∧
        (s.submit op).1 = State.markAccepted op { s with store := { s.store with waiting := s.store.waiting ++ [op] } }))) := by
  unfold State.submit
  split
  · left; simp
  · rename_i h1
    split
    · rename_i h2; right; left; simp [h2]
    · rename_i h2
      split
      · left; simp
      · rename_i h3
        split
        · rename_i h4
          right; right
          refine ⟨rfl, by simpa using h2, by simpa using h1, by simpa using h3, Or.inl ⟨by simpa using h4.1, h4.2, rfl⟩⟩
        · split
          · rename_i h5
            right; right
            exact ⟨rfl, by simpa using h2, by simpa using h1, by simpa using h3, Or.inr ⟨h5, rfl⟩⟩
          · rename_i h5
            left
            exact ⟨rfl, Or.inr (Or.inr ⟨rfl, by omega⟩)⟩

/-- A change of the waiting operations that stays within the queue and the transmit side's places keeps. -/
theorem Keeps.store {s : State} {st : StoreUnit} (hf : st.flash = s.store.flash)
    (hw : s.WithinCapacity → st.waiting.length ≤ Config.storeWaiting)
    (hh : s.WithinCapacity → ({ s with store := st } : State).txCount ≤ Config.txFrames ∧
      ({ s with store := st } : State).txChunkCount ≤ Config.txChunks) : Keeps s { s with store := st } :=
  ⟨rfl, hf, rfl, rfl, fun k => { k with tx := (hh k).1, txChunks := (hh k).2, waiting := hw k }, fun k => { k with },
    fun k => { k with }, fun k => { k with }⟩

/-- A submission keeps; one of the serve engine's, when there is room for its CHUNK (R6). -/
theorem State.submit_keeps {op : StoreOp} {s : State} (h : op.isServe = true → s.roomForChunk = true) :
    Keeps s (s.submit op).1 := by
  rcases State.submit_cases op s with ⟨h1, _⟩ | ⟨h1, _⟩ | ⟨_, _, _, _, ⟨h2, h3, h1⟩ | ⟨h2, h1⟩⟩
  · rw [h1]; exact Keeps.refl s
  · rw [h1]; exact State.raiseRefused_keeps _ _
  · rw [h1]
    refine Keeps.trans ?_ (State.markAccepted_keeps _ _)
    refine Keeps.store rfl (fun k => k.waiting) (fun k => ?_)
    have e1 := k.tx
    have e2 := k.txChunks
    simp only [State.txCount, State.txChunkCount, State.heldPlaces, State.storeOps, h2, h3, Option.toList_none,
      Option.toList_some, List.append_nil, List.filter_nil, List.length_nil] at e1 e2 ⊢
    cases hs : op.isServe with
    | false => simp [hs]; omega
    | true =>
      have hr := h hs
      simp only [State.roomForChunk, State.txCount, State.txChunkCount, State.heldPlaces, State.storeOps, h2, h3,
        Option.toList_none, List.append_nil, List.filter_nil, List.length_nil, Bool.and_eq_true, decide_eq_true_eq] at hr
      simp [hs]; omega
  · rw [h1]
    refine Keeps.trans ?_ (State.markAccepted_keeps _ _)
    refine Keeps.store rfl (fun _ => by simpa using h2) (fun k => ?_)
    have e1 := k.tx
    have e2 := k.txChunks
    simp only [State.txCount, State.txChunkCount, State.heldPlaces, State.storeOps, List.filter_append,
      List.length_append] at e1 e2 ⊢
    cases hs : op.isServe with
    | false => simp [hs]; omega
    | true =>
      have hr := h hs
      simp only [State.roomForChunk, State.txCount, State.txChunkCount, State.heldPlaces, State.storeOps, List.filter_append,
        List.length_append, Bool.and_eq_true, decide_eq_true_eq] at hr
      simp [hs]; omega

/-- A submission by a unit other than the serve engine keeps. -/
theorem State.submit_keeps_of {op : StoreOp} {s : State} (h : op.isServe = false) : Keeps s (s.submit op).1 :=
  State.submit_keeps (fun hs => by rw [h] at hs; cases hs)

/-! ### Going into flight and completing (R131) -/

/-- Going into flight keeps. -/
theorem launch_keeps (l : List StoreOp) (s : State) (hw : l.length ≤ s.store.waiting.length)
    (hh : (l.filter StoreOp.isServe).length ≤ s.heldPlaces) : Keeps s (launch l s).1 := by
  induction l generalizing s with
  | nil =>
    unfold launch
    refine Keeps.store rfl (fun _ => by simp) (fun k => ?_)
    have e1 := k.tx
    have e2 := k.txChunks
    simp only [State.txCount, State.txChunkCount, State.heldPlaces, State.storeOps, List.filter_append,
      List.length_append, List.append_nil] at e1 e2 ⊢
    omega
  | cons op rest ih =>
    have hle : (rest.filter StoreOp.isServe).length ≤ ((op :: rest).filter StoreOp.isServe).length := by
      cases hs : op.isServe <;> simp [hs]
    simp only [List.length_cons] at hw
    unfold launch
    split
    · refine (State.raiseRefused_keeps op s).trans (ih _ ?_ ?_)
      · have : (s.raiseRefused op).store = s.store := by unfold State.raiseRefused; split <;> simp
        rw [this]; omega
      · have : (s.raiseRefused op).store = s.store := by unfold State.raiseRefused; split <;> simp
        simp only [State.heldPlaces, State.storeOps, this] at hh ⊢
        omega
    · split
      · exact ih s (by omega) (by omega)
      · refine Keeps.store rfl (fun k => by have := k.waiting; simp only; omega) (fun k => ?_)
        have e1 := k.tx
        have e2 := k.txChunks
        have e3 : ((op :: rest).filter StoreOp.isServe).length = ([s.store.direct op].filter StoreOp.isServe).length +
            (rest.filter StoreOp.isServe).length := by
          cases hs : op.isServe <;> simp [hs]; omega
        simp only [State.txCount, State.txChunkCount, State.heldPlaces, State.storeOps, List.filter_append,
          List.length_append, Option.toList_some] at e1 e2 hh ⊢
        omega

/-- A PROTECTED outcome changes the notices alone (R133). -/
theorem State.raiseRefused_parts (op : StoreOp) (s : State) :
    (s.raiseRefused op).act = s.act ∧ (s.raiseRefused op).dist = s.dist ∧ (s.raiseRefused op).store = s.store := by
  unfold State.raiseRefused State.raise
  split <;> [split; skip] <;> exact ⟨rfl, rfl, rfl⟩

/-- The first operation that is neither protected nor stale goes into flight, and those behind it wait on (R131, R133, R135). -/
theorem launch_runs (gone : List StoreOp) (op : StoreOp) (rest : List StoreOp) (s : State)
    (hg : ∀ x ∈ gone, x.isProtected s.act.sel = true ∨ s.stale x = true) (hp : op.isProtected s.act.sel = false)
    (ho : s.stale op = false) :
    (launch (gone ++ op :: rest) s).1.store.inflight = some (s.store.direct op) ∧
      (launch (gone ++ op :: rest) s).1.store.waiting = rest := by
  induction gone generalizing s with
  | nil => simp [launch, hp, ho]
  | cons x xs ih =>
    obtain ⟨ha, hd, hs⟩ := State.raiseRefused_parts x s
    have hst : ∀ y, (s.raiseRefused x).stale y = s.stale y := fun y => by unfold State.stale State.slot; rw [hd]
    simp only [List.cons_append, launch]
    split
    · have := ih (s.raiseRefused x) (fun y hy => by rw [ha, hst]; exact hg y (List.mem_cons_of_mem _ hy)) (by rw [ha]; exact hp)
        (by rw [hst]; exact ho)
      rwa [hs] at this
    · rename_i hx
      split
      · exact ih s (fun y hy => hg y (List.mem_cons_of_mem _ hy)) hp ho
      · rename_i hy
        exact absurd (hg x List.mem_cons_self) (by simp [hx, hy])

/-- Going into flight takes no more places of the transmit side than the queue held, and reports nothing but operations
turned away. -/
theorem launch_held (l : List StoreOp) (s : State) (hi : s.store.inflight = none) :
    (launch l s).1.heldPlaces ≤ (l.filter StoreOp.isServe).length ∧ (launch l s).1.pli = s.pli ∧
      ∀ x ∈ (launch l s).2, x.2 = .cancelled ∨ x.2 = .isProtected := by
  induction l generalizing s with
  | nil => simp [launch, State.heldPlaces, State.storeOps, hi]
  | cons op rest ih =>
    have hst : (s.raiseRefused op).store = s.store := by unfold State.raiseRefused; split <;> simp
    have hpl : (s.raiseRefused op).pli = s.pli := by unfold State.raiseRefused; split <;> simp
    have hle : (rest.filter StoreOp.isServe).length ≤ ((op :: rest).filter StoreOp.isServe).length := by
      cases hs : op.isServe <;> simp [hs]
    unfold launch
    split
    · obtain ⟨h1, h2, h3⟩ := ih (s.raiseRefused op) (by rw [hst]; exact hi)
      refine ⟨by simp only; omega, by simp only; rw [h2, hpl], fun x hx => ?_⟩
      rcases List.mem_cons.mp hx with rfl | hx
      · exact Or.inr rfl
      · exact h3 x hx
    · split
      · obtain ⟨h1, h2, h3⟩ := ih s hi
        refine ⟨by simp only; omega, by simp only; rw [h2], fun x hx => ?_⟩
        rcases List.mem_cons.mp hx with rfl | hx
        · exact Or.inl rfl
        · exact h3 x hx
      · refine ⟨?_, rfl, by simp⟩
        simp only [State.heldPlaces, State.storeOps, Option.toList_some, List.filter_append, List.length_append]
        cases hs : op.isServe <;> simp [hs]; omega

theorem State.takeSelector_keeps (op : StoreOp) (r : StoreResult) (s : State) : Keeps s (s.takeSelector op r) := by
  unfold State.takeSelector
  split
  · exact Keeps.quiet rfl
  · exact Keeps.refl s

/-- The store after the selector is taken holds the same operations. -/
theorem State.takeSelector_same (op : StoreOp) (r : StoreResult) (s : State) :
    (s.takeSelector op r).store.inflight = s.store.inflight ∧ (s.takeSelector op r).store.waiting = s.store.waiting ∧
      (s.takeSelector op r).store.flash = s.store.flash ∧ (s.takeSelector op r).pli = s.pli := by
  unfold State.takeSelector
  split <;> simp

/-- The completion of the operation in flight keeps all but the flash, which is as the operation leaves it. -/
theorem State.complete_keeps (op : StoreOp) (d : Device) (s : State) :
    Keeps { s with store := { s.store with flash := (s.perform op d).1 } } (s.complete op d).1 := by
  unfold State.complete
  simp only
  have h1 : Keeps { s with store := { s.store with flash := (s.perform op d).1 } }
      { s with store := { s.store with flash := (s.perform op d).1, inflight := none } } := by
    refine Keeps.store (s := { s with store := { s.store with flash := (s.perform op d).1 } })
      (st := { s.store with flash := (s.perform op d).1, inflight := none }) rfl (fun k => k.waiting) (fun k => ?_)
    have e1 := k.tx
    have e2 := k.txChunks
    simp only [State.txCount, State.txChunkCount, State.heldPlaces, State.storeOps, List.filter_append,
      List.length_append, Option.toList_none, List.filter_nil, List.length_nil] at e1 e2 ⊢
    omega
  have h2 := State.takeSelector_keeps op (s.perform op d).2
    { s with store := { s.store with flash := (s.perform op d).1, inflight := none } }
  obtain ⟨e1, e2, _, _⟩ := State.takeSelector_same op (s.perform op d).2
    { s with store := { s.store with flash := (s.perform op d).1, inflight := none } }
  refine (h1.trans h2).trans (launch_keeps _ _ (le_refl _) ?_)
  simp only [State.heldPlaces, State.storeOps, e1, e2, Option.toList_none, List.nil_append]
  exact le_refl _

/-- After a completion the transmit side has the places that the completed operation held (R6). -/
theorem State.complete_room {op : StoreOp} (d : Device) {s : State} (hi : s.store.inflight = some op) :
    (s.complete op d).1.txCount + (if op.isServe then 1 else 0) ≤ s.txCount ∧
      (s.complete op d).1.txChunkCount + (if op.isServe then 1 else 0) ≤ s.txChunkCount := by
  unfold State.complete
  simp only
  obtain ⟨e1, e2, _, e4⟩ := State.takeSelector_same op (s.perform op d).2
    { s with store := { s.store with flash := (s.perform op d).1, inflight := none } }
  obtain ⟨h1, h2, _⟩ := launch_held (State.takeSelector op (s.perform op d).2
    { s with store := { s.store with flash := (s.perform op d).1, inflight := none } }).store.waiting
    (State.takeSelector op (s.perform op d).2
      { s with store := { s.store with flash := (s.perform op d).1, inflight := none } }) e1
  rw [e2] at h1 h2
  have hs : s.heldPlaces = (if op.isServe then 1 else 0) + (s.store.waiting.filter StoreOp.isServe).length := by
    simp only [State.heldPlaces, State.storeOps, hi, Option.toList_some, List.filter_append, List.length_append]
    cases hs : op.isServe <;> simp [hs]
  rw [e2]
  simp only [State.txCount, State.txChunkCount, h2, e4]
  simp only at h1
  omega

/-- The operations that complete behind it were turned away. -/
theorem State.complete_rest (op : StoreOp) (d : Device) (s : State) :
    ∃ rest, (s.complete op d).2 = (op, (s.perform op d).2) :: rest ∧ ∀ x ∈ rest, x.2 = .cancelled ∨ x.2 = .isProtected := by
  unfold State.complete
  simp only
  refine ⟨_, rfl, ?_⟩
  have e1 := (State.takeSelector_same op (s.perform op d).2
    { s with store := { s.store with flash := (s.perform op d).1, inflight := none } }).1
  exact (launch_held _ _ e1).2.2

/-! ### The flash (R128, R129) -/

theorem leaveInvalid_wf (flash : List Host.Cell) (a : Area) (h : Memory.wf flash = true) :
    Memory.wf (leaveInvalid flash a) = true := by
  unfold leaveInvalid
  split
  · exact Memory.erase_wf _ _ _ h
  · exact h

theorem leaveAsBefore_wf (before flash : List Host.Cell) (a : Area) (h : Memory.wf flash = true) :
    Memory.wf (leaveAsBefore before flash a) = true := by
  unfold leaveAsBefore
  split
  · exact h
  · exact leaveInvalid_wf _ _ h

theorem spoilOp_wf (cells flash : List Host.Cell) (op : StoreOp) (h : Memory.wf flash = true) :
    Memory.wf (spoilOp cells flash op) = true := by
  unfold spoilOp
  split
  · split
    · exact leaveInvalid_wf _ _ (spoil_wf _ _ _ _ h)
    · exact leaveAsBefore_wf _ _ _ (spoil_wf _ _ _ _ h)
    · exact spoil_wf _ _ _ _ h
  · exact h

/-- An operation run to its end, or failed, leaves the flash in its canonical form. -/
theorem State.perform_wf (s : State) (op : StoreOp) (d : Device) (h : s.FlashCanonical) :
    Memory.wf (s.perform op d).1 = true := by
  unfold State.FlashCanonical at h
  unfold State.perform
  split
  · exact spoilOp_wf _ _ _ h
  · simp only
    split
    · exact h
    · exact spoil_wf _ _ _ _ (Memory.writeBytes_wf _ _ _ h)
    · exact Memory.erase_wf _ _ _ h
    · exact Memory.erase_wf _ _ _ h
    · exact h
    · exact h
    · exact writeArea_wf _ _ _ h
    · exact writeArea_wf _ _ _ h
    · exact h
    · exact h

/-- An operation cut short leaves the flash in its canonical form (R141). -/
theorem cutShort_wf (cells flash : List Host.Cell) (op : StoreOp) (h : Memory.wf flash = true) :
    Memory.wf (cutShort cells flash op) = true := by
  have hs := spoilOp_wf cells flash op h
  unfold cutShort
  simp only
  split
  · exact leaveInvalid_wf _ _ hs
  · exact leaveInvalid_wf _ _ hs
  · exact hs

end Sys2Proof.Machine
end

