-- ==== Sys2Proof/Laws/Clients.lean ====
section
/-! SUPPORT. Smoothing (R39, R40) and what the operations of the Client Unit keep. -/

namespace Sys2Proof.Machine

/-! ### Smoothing -/

/-- A clamped level is a sample (R39). -/
theorem clampLevel_ok (x : Int) : levelOk (clampLevel x) := by
  unfold levelOk clampLevel
  omega

/-- The middle of three values is one of them (R40). -/
theorem median_mem (a b c : Int) : median a b c = a ∨ median a b c = b ∨ median a b c = c := by
  unfold median
  omega

/-- The median of samples is a level (R40). -/
theorem Samples.median_ok {p : Samples} (h : p.Ok) : levelOk p.median := by
  obtain ⟨h1, h2, h3⟩ := h
  unfold Samples.median
  rcases median_mem p.s1 p.s2 p.s3 with e | e | e <;> rw [e] <;> assumption

theorem Samples.shift_ok {p : Samples} (h : p.Ok) {x : Int} (hx : levelOk x) : (p.shift x).Ok := ⟨h.2.1, h.2.2, hx⟩

theorem firstSamples_ok {x : Int} (hx : levelOk x) : (firstSamples x).Ok := ⟨hx, hx, hx⟩

/-- A quotient toward zero by 4 lies between 0 and the number. -/
theorem tdiv_four (d : Int) : (0 ≤ d → 0 ≤ d.tdiv 4 ∧ d.tdiv 4 ≤ d) ∧ (d ≤ 0 → d ≤ d.tdiv 4 ∧ d.tdiv 4 ≤ 0) := by
  constructor
  · intro h
    rw [Int.tdiv_eq_ediv_of_nonneg h]
    omega
  · intro h
    have h2 : (-d).tdiv 4 = -(d.tdiv 4) := Int.neg_tdiv d 4
    rw [Int.tdiv_eq_ediv_of_nonneg (by omega : 0 ≤ -d)] at h2
    omega

/-- A step of the smoothed value stays between it and four times the median (R40). -/
theorem smoothStep_between (q m : Int) : min q (4 * m) ≤ smoothStep q m ∧ smoothStep q m ≤ max q (4 * m) := by
  unfold smoothStep
  have h := tdiv_four (4 * m - q)
  omega

theorem smoothStep_ok {q m : Int} (hq : smoothedOk q) (hm : levelOk m) : smoothedOk (smoothStep q m) := by
  have := smoothStep_between q m
  unfold smoothedOk levelOk at *
  omega

theorem four_ok {x : Int} (hx : levelOk x) : smoothedOk (4 * x) := by
  unfold smoothedOk levelOk at *
  omega

/-- Taking a level keeps a record's client and holds, and its levels in range (R32, R39, R40). -/
theorem ClientRecord.smooth_kept (r : ClientRecord) (dbm : Int) : RecordKept r (r.smooth dbm) := by
  unfold ClientRecord.smooth
  simp only
  split
  · rename_i p q hp hq
    refine ⟨rfl, id, id, fun h => ⟨fun p' e => ?_, fun q' e => ?_⟩⟩
    · cases e
      exact Samples.shift_ok (h.1 p hp) (clampLevel_ok _)
    · cases e
      exact smoothStep_ok (h.2 q hq) (Samples.median_ok (Samples.shift_ok (h.1 p hp) (clampLevel_ok _)))
  · refine ⟨rfl, id, id, fun _ => ⟨fun p' e => ?_, fun q' e => ?_⟩⟩
    · cases e
      exact firstSamples_ok (clampLevel_ok _)
    · cases e
      exact four_ok (clampLevel_ok _)

/-! ### Access (R94, R95) -/

theorem State.setAccessMark_keeps (i : Fin 64) (v : Bool) (s : State) : Keeps s (s.setAccessMark i v) := Keeps.quiet rfl

theorem State.setSteerMark_keeps (i : Fin 64) (v : Bool) (s : State) : Keeps s (s.setSteerMark i v) := Keeps.quiet rfl

theorem State.recompute_keeps (i : Fin 64) (s : State) : Keeps s (s.recompute i) := by
  unfold State.recompute
  split
  · rename_i r hr
    split
    · simp only
      split
      · exact Keeps.refl s
      · refine Keeps.trans (Keeps.trans (State.putRecord_keeps hr ?_) (State.setAccessMark_keeps _ _ _))
          (State.accessChanged_keeps _ _ _ _)
        exact RecordKept.plain rfl rfl rfl rfl
    · exact Keeps.refl s
  · exact Keeps.refl s

theorem State.recomputeAll_keeps (s : State) : Keeps s s.recomputeAll := Keeps.walk State.recompute_keeps _ _

theorem State.testFlow_clients (j : Fin 128) (s : State) : (s.testFlow j).clients = s.clients := by
  unfold State.testFlow
  repeat' split
  all_goals first | rfl | exact (State.putFlow_same _ _ _).2.2.2.2.2.2.1

theorem State.accessChanged_clients (c : ClientId) (old new : Access) (s : State) :
    (s.accessChanged c old new).clients = s.clients := by
  unfold State.accessChanged
  split
  · exact walk_same State.clients _ (fun x s => (State.putFlow_same _ _ _).2.2.2.2.2.2.1) _ _
  · split
    · exact walk_same State.clients _ State.testFlow_clients _ _
    · rfl

/-- What a computation of the access state leaves of the records: the one in the slot with its access state alone
changed, and the others as they were (R94). -/
theorem State.record_recompute (i j : Fin 64) (s : State) :
    (s.recompute i).record j = if i = j then (s.record i).map fun r => if r.held then { r with access := s.accessOf r } else r
      else s.record j := by
  unfold State.recompute
  cases hr : s.record i with
  | none =>
    by_cases hij : i = j
    · subst hij; simp [hr]
    · simp [hij]
  | some r =>
    simp only [Option.map_some]
    split
    · rename_i hh
      split
      · rename_i ha
        by_cases hij : i = j
        · subst hij; rw [hr, if_pos rfl, ha]
        · rw [if_neg hij]
      · have e : ∀ t : State, t.record j = t.clients.table[j] := fun _ => rfl
        rw [e, State.accessChanged_clients, State.setAccessMark_clients, ← e, State.record_putRecord]
    · by_cases hij : i = j
      · subst hij; rw [hr, if_pos rfl]
      · rw [if_neg hij]

/-! ### Deletion (R29) -/

/-- The state between the removal of the flows and the clearing of the marks. -/
theorem State.deleteSlot_keeps (i : Fin 64) (s : State) : Keeps s (s.deleteSlot i) := by
  unfold State.deleteSlot
  split
  · rename_i r hr
    have h1 := State.removeClientFlows_keeps r.client s
    have hcl := State.removeClientFlows_clients r.client s
    simp only
    refine (h1.trans ?_).trans ((State.setAccessMark_keeps _ _ _).trans (State.setSteerMark_keeps _ _ _))
    have hback : ∀ j q, (putSlot (s.removeClientFlows r.client).clients.table i none)[j] = some q →
        i ≠ j ∧ (s.removeClientFlows r.client).record j = some q := by
      intro j q hj
      by_cases hij : i = j
      · subst hij
        rw [putSlot_get_same] at hj
        cases hj
      · rw [putSlot_get_other _ _ _ _ hij] at hj
        exact ⟨hij, hj⟩
    have hone : (s.removeClientFlows r.client).OneRecordEach → ∀ (j j' : Fin 64) (q q' : ClientRecord),
        (putSlot (s.removeClientFlows r.client).clients.table i none)[j] = some q →
          (putSlot (s.removeClientFlows r.client).clients.table i none)[j'] = some q' → q.client = q'.client → j = j' :=
      fun hu j j' q q' hj hj' => hu j j' q q' (hback j q hj).2 (hback j' q' hj').2
    refine ⟨rfl, rfl, rfl, rfl, fun k => { k with sightings := ?_, holds := ?_ },
      fun k => { k with sightings := ?_, records := hone k.records, holds := ?_ }, fun k => { k with records := ?_ },
      fun k => { ceiling := k.ceiling, owned := ?_, oneRecord := hone k.oneRecord, starting := k.starting }⟩
    · exact le_trans (List.length_filter_le _ _) k.sightings
    · intro j q hj
      exact k.holds j q (hback j q hj).2
    · exact k.sightings.filter _
    · intro j q hj
      exact k.holds j q (hback j q hj).2
    · intro j q hj
      exact k.records j q (hback j q hj).2
    · intro j f hj
      obtain ⟨h2, h3⟩ := State.removeClientFlows_flow hj
      obtain ⟨q, hq, hqc⟩ := k.owned j f hj
      have hij : i ≠ f.slot := by
        intro e
        rw [← e] at hq
        have : (s.removeClientFlows r.client).record i = s.record i := by simp only [State.record, hcl]
        rw [this, hr] at hq
        cases hq
        exact h3 hqc.symm
      refine ⟨q, ?_, hqc⟩
      show (putSlot (s.removeClientFlows r.client).clients.table i none)[f.slot] = some q
      rw [putSlot_get_other _ _ _ _ hij]
      exact hq
  · exact Keeps.refl s

/-- After a deletion the slot is empty and every other record is as it was. -/
theorem State.record_deleteSlot (i j : Fin 64) (s : State) : (s.deleteSlot i).record j = if i = j then none else s.record j := by
  unfold State.deleteSlot
  split
  · rename_i r hr
    have hcl := State.removeClientFlows_clients r.client s
    show (putSlot (s.removeClientFlows r.client).clients.table i none)[j] = _
    by_cases hij : i = j
    · subst hij
      rw [putSlot_get_same, if_pos rfl]
    · rw [putSlot_get_other _ _ _ _ hij, if_neg hij, hcl]
      rfl
  · rename_i hr
    by_cases hij : i = j
    · subst hij; simp [hr]
    · simp [hij]

/-- A deletion never gives a client a record. -/
theorem State.findClient_deleteSlot {c : ClientId} {s : State} (i : Fin 64) (h : s.findClient c = none) :
    (s.deleteSlot i).findClient c = none := by
  unfold State.findClient
  rw [List.find?_eq_none]
  intro j _
  have : (s.deleteSlot i).clients.table[j] = (s.deleteSlot i).record j := rfl
  rw [this, State.record_deleteSlot]
  unfold slotHolds
  by_cases hij : i = j
  · simp [hij]
  · rw [if_neg hij]
    cases hr : s.record j with
    | none => simp
    | some r => simpa using State.findClient_none h j r hr

/-! ### Slots (R21, R23) -/

theorem State.takeSlot_keeps (s : State) : Keeps s s.takeSlot.2 := by
  unfold State.takeSlot
  split
  · exact Keeps.refl s
  · split
    · exact State.deleteSlot_keeps _ _
    · exact Keeps.refl s

/-- The slot taken is empty, and a client without a record still has none. -/
theorem State.takeSlot_empty {s s' : State} {i : Fin 64} (h : s.takeSlot = (some i, s')) :
    s'.record i = none ∧ ∀ c, s.findClient c = none → s'.findClient c = none := by
  unfold State.takeSlot at h
  split at h
  · rename_i j hj
    cases h
    have := List.find?_some hj
    exact ⟨by simpa using this, fun _ hc => hc⟩
  · split at h
    · cases h
      refine ⟨?_, fun c hc => State.findClient_deleteSlot _ hc⟩
      rw [State.record_deleteSlot, if_pos rfl]
    · cases h

/-! ### Heard List and refusal list (R18, R25) -/

theorem State.forgetHeard_keeps (c : ClientId) (s : State) : Keeps s (s.forgetHeard c) :=
  ⟨rfl, rfl, rfl, rfl, fun k => { k with heard := le_trans (List.length_filter_le _ _) k.heard },
    fun k => { k with heard := k.heard.filter _ }, fun k => { k with heard := fun e he => k.heard e (List.mem_filter.mp he).1 },
    fun k => { k with }⟩

theorem refuse_length (c : ClientId) (l : List ClientId) (h : l.length ≤ Config.refusalEntries) :
    (refuse c l).length ≤ Config.refusalEntries := by
  unfold refuse
  split
  · exact h
  · split
    · rw [List.length_append, List.length_singleton]; omega
    · have : 0 < Config.refusalEntries := by decide
      rw [List.length_append, List.length_singleton, List.length_drop]; omega

/-- A refused client joins the list once (R25). -/
theorem refuse_nodup (c : ClientId) (l : List ClientId) (h : l.Nodup) : (refuse c l).Nodup := by
  unfold refuse
  split
  · exact h
  · rename_i hc
    have hc' : c ∉ l := by simpa using hc
    have happ : ∀ m : List ClientId, m.Sublist l → (m ++ [c]).Nodup := by
      intro m hm
      rw [List.nodup_append]
      refine ⟨h.sublist hm, List.nodup_singleton c, fun a ha b hb => ?_⟩
      rw [List.mem_singleton] at hb
      subst hb
      rintro rfl
      exact hc' (hm.subset ha)
    split
    · exact happ l (List.Sublist.refl l)
    · exact happ _ (List.drop_sublist 1 l)

/-- Changing the refusal list within its capacity keeps. -/
theorem Keeps.refusals {s : State} (l : List ClientId) (h : s.WithinCapacity → l.length ≤ Config.refusalEntries)
    (hn : s.clients.refusals.Nodup → l.Nodup) : Keeps s { s with clients := { s.clients with refusals := l } } :=
  ⟨rfl, rfl, rfl, rfl, fun k => { k with refusals := h k }, fun k => { k with refusals := hn k.refusals }, fun k => { k with },
    fun k => { k with }⟩

/-- A Heard List with one entry changed in place for its client. -/
theorem pairwise_map_heard (f : HeardEntry → HeardEntry) (hf : ∀ e, (f e).client = e.client) (l : List HeardEntry)
    (h : l.Pairwise fun x y => x.client ≠ y.client) : (l.map f).Pairwise fun x y => x.client ≠ y.client := by
  rw [List.pairwise_map]
  exact h.imp (fun {a b} hab => by rw [hf, hf]; exact hab)

theorem HeardEntry.smooth_client (e : HeardEntry) (dbm : Int) (now : Nat) : (e.smooth dbm now).client = e.client := rfl

/-- Hearing keeps the Heard List within 32 entries, one for a client, its levels in range (R18). -/
theorem hear_kept (c : ClientId) (dbm : Int) (now : Nat) (l : List HeardEntry) :
    (l.length ≤ Config.heardEntries → (hear c dbm now l).length ≤ Config.heardEntries) ∧
    ((l.Pairwise fun x y => x.client ≠ y.client) → (hear c dbm now l).Pairwise fun x y => x.client ≠ y.client) ∧
    ((∀ e ∈ l, e.samples.Ok ∧ smoothedOk e.smoothed) → ∀ e ∈ hear c dbm now l, e.samples.Ok ∧ smoothedOk e.smoothed) := by
  have hnew : (firstSamples (clampLevel dbm)).Ok ∧ smoothedOk (4 * clampLevel dbm) :=
    ⟨firstSamples_ok (clampLevel_ok _), four_ok (clampLevel_ok _)⟩
  unfold hear
  simp only
  split
  · refine ⟨fun h => by rw [List.length_map]; exact h, fun h => pairwise_map_heard _ (fun e => by split <;> rfl) l h, ?_⟩
    intro h e he
    obtain ⟨x, hx, rfl⟩ := List.mem_map.mp he
    split
    · obtain ⟨h1, h2⟩ := h x hx
      exact ⟨Samples.shift_ok h1 (clampLevel_ok _),
        smoothStep_ok h2 (Samples.median_ok (Samples.shift_ok h1 (clampLevel_ok _)))⟩
    · exact h x hx
  · rename_i hno
    have hnot : ∀ e ∈ l, e.client ≠ c := by
      intro e he hec
      exact hno (List.any_eq_true.mpr ⟨e, he, by simpa using hec⟩)
    have happ : ∀ m : List HeardEntry, (∀ e ∈ m, e ∈ l) → (m.Pairwise fun x y => x.client ≠ y.client) →
        (m ++ [(⟨c, firstSamples (clampLevel dbm), 4 * clampLevel dbm, now⟩ : HeardEntry)]).Pairwise
          fun x y => x.client ≠ y.client := by
      intro m hm hp
      rw [List.pairwise_append]
      refine ⟨hp, List.pairwise_singleton _ _, fun a ha b hb => ?_⟩
      rw [List.mem_singleton] at hb
      subst hb
      exact hnot a (hm a ha)
    have hmem : ∀ m : List HeardEntry, (∀ e ∈ m, e ∈ l) → (∀ e ∈ l, e.samples.Ok ∧ smoothedOk e.smoothed) →
        ∀ e ∈ m ++ [(⟨c, firstSamples (clampLevel dbm), 4 * clampLevel dbm, now⟩ : HeardEntry)],
          e.samples.Ok ∧ smoothedOk e.smoothed := by
      intro m hm h e he
      rcases List.mem_append.mp he with he | he
      · exact h e (hm e he)
      · rw [List.mem_singleton] at he
        subst he
        exact hnew
    split
    · rename_i hlt
      exact ⟨fun _ => by rw [List.length_append, List.length_singleton]; omega, happ l (fun _ h => h), hmem l (fun _ h => h)⟩
    · rename_i hge
      split
      · rename_i w hw
        split
        · refine ⟨fun h => ?_, fun h => happ _ (fun e he => (List.mem_filter.mp he).1) (h.filter _),
            hmem _ (fun e he => (List.mem_filter.mp he).1)⟩
          have hlt : (l.filter fun y => y.client != w.client).length < l.length := by
            rw [List.length_filter_lt_length_iff_exists]
            exact ⟨w, mem_of_head_sortBy hw, by simp⟩
          rw [List.length_append, List.length_singleton]
          omega
        · exact ⟨id, id, id⟩
      · rename_i hnone
        have hz : l.length = 0 := by
          have := length_sortBy HeardEntry.weaker l
          rw [List.head?_eq_none_iff.mp hnone] at this
          simpa using this.symm
        have : 0 < Config.heardEntries := by decide
        omega

/-! ### Creation, return and departure (R22 to R30) -/

theorem State.claim_keeps (c : ClientId) (s : State) : Keeps s (s.claim c) :=
  State.send_keeps _ _ (by simp [FrameBody.kind]) (by simp [FrameBody.kind]) s

theorem State.associateNew_keeps (c : ClientId) (rate : Nat) (st : Bool) (s : State) (h : s.findClient c = none) :
    Keeps s (s.associateNew c rate st) := by
  have hk := State.takeSlot_keeps s
  unfold State.associateNew
  split
  · rename_i s1 he
    rw [he] at hk
    exact hk.trans (Keeps.refusals _ (fun k => refuse_length _ _ k.refusals) (refuse_nodup _ _))
  · rename_i i s1 he
    rw [he] at hk
    obtain ⟨h1, h2⟩ := State.takeSlot_empty he
    simp only
    refine hk.trans ?_
    have hnew : Keeps s1 (s1.putRecord i { s1.provisionalRecord c rate st with access := s1.accessOf (s1.provisionalRecord c rate st) }) :=
      State.newRecord_keeps h1 (h2 c h) rfl (LevelsOk_none rfl rfl)
    refine (((hnew.trans (State.setAccessMark_keeps _ _ _)).trans (State.forgetHeard_keeps _ _)).trans
      (Keeps.refusals _ (fun k => le_trans (List.length_filter_le _ _) k.refusals) fun k => k.filter _)).trans (State.claim_keeps _ _)

theorem State.associateKnown_keeps {i : Fin 64} {r : ClientRecord} (rate : Nat) (st : Bool) {s : State}
    (h : s.record i = some r) : Keeps s (s.associateKnown i r rate st) := by
  unfold State.associateKnown
  split
  · exact State.putRecord_keeps h (RecordKept.plain rfl rfl rfl rfl)
  · exact State.putRecord_keeps h (RecordKept.plain rfl rfl rfl rfl)
  · exact State.putRecord_keeps h (RecordKept.plain rfl rfl rfl rfl)
  · exact State.putRecord_keeps h (RecordKept.plain rfl rfl rfl rfl)
  · refine Keeps.trans (Keeps.trans (Keeps.trans (State.putRecord_keeps h ?_) (State.recompute_keeps _ _))
      (State.setAccessMark_keeps _ _ _)) (State.forgetHeard_keeps _ _)
    exact ⟨rfl, fun _ => by simp [ClientRecord.restored], fun _ => by simp [ClientRecord.restored], fun _ => LevelsOk_none rfl rfl⟩
  · simp only
    have h1 : Keeps s ((s.putRecord i (r.arrived rate st s.now)).recompute i) := by
      refine Keeps.trans (State.putRecord_keeps h ?_) (State.recompute_keeps _ _)
      exact ⟨rfl, fun _ => by simp [ClientRecord.arrived], fun _ => by simp [ClientRecord.arrived], fun _ => LevelsOk_none rfl rfl⟩
    refine (Keeps.trans (h1.trans ?_) (State.setAccessMark_keeps _ _ _)).trans
      ((State.forgetHeard_keeps _ _).trans (State.claim_keeps _ _))
    split
    · exact State.settleReserved_keeps _ _
    · exact Keeps.refl _

theorem State.depart_keeps {i : Fin 64} {r : ClientRecord} {s : State} (h : s.record i = some r) : Keeps s (s.depart i r) := by
  unfold State.depart
  simp only
  have h1 : Keeps s (s.putRecord i (r.departedAt s.now)) :=
    State.putRecord_keeps h ⟨rfl, fun _ => by simp [ClientRecord.departedAt], fun _ => by simp [ClientRecord.departedAt], fun _ => LevelsOk_none rfl rfl⟩
  refine Keeps.trans (Keeps.trans (h1.trans ?_) (State.removeClientFlows_keeps _ _)) (Keeps.quiet rfl)
  split
  · exact State.setSteerMark_keeps _ _ _
  · exact Keeps.refl _

/-- Placing a decline hold keeps a record within 4 (R36). -/
theorem placeHold_length (p u : Nat) (hs : List Hold) (h : hs.length ≤ Config.holdEntries) :
    (placeHold p u hs).length ≤ Config.holdEntries := by
  unfold placeHold
  simp only
  split
  · rw [List.length_map]; exact h
  · split
    · rw [List.length_append, List.length_singleton]; omega
    · split
      · rw [List.length_map]; exact h
      · rename_i hge hnone
        have hz : hs.length = 0 := by
          have := length_sortBy Hold.sooner hs
          rw [List.head?_eq_none_iff.mp hnone] at this
          simpa using this.symm
        have : 0 < Config.holdEntries := by decide
        omega

/-- Holds with one replaced by a hold on a peer that no other has. -/
theorem holds_map {p : Nat} (h : Hold) (hp : h.peer = p) (f : Hold → Bool) (hs : List Hold)
    (hf : ∀ x ∈ hs, f x = false → x.peer ≠ p) (hone : hs.Pairwise fun x y => f x = true → f y = true → False)
    (hd : hs.Pairwise fun x y => x.peer ≠ y.peer) : (hs.map fun x => if f x then h else x).Pairwise fun x y => x.peer ≠ y.peer := by
  induction hs with
  | nil => exact List.Pairwise.nil
  | cons a hs ih =>
    obtain ⟨d1, d2⟩ := List.pairwise_cons.mp hd
    obtain ⟨o1, o2⟩ := List.pairwise_cons.mp hone
    rw [List.map_cons, List.pairwise_cons]
    refine ⟨fun y hy => ?_, ih (fun x hx => hf x (by simp [hx])) o2 d2⟩
    obtain ⟨x, hx, rfl⟩ := List.mem_map.mp hy
    cases ha : f a <;> cases hb : f x
    · simpa using d1 x hx
    · simpa [hp] using hf a (by simp) ha
    · simpa [hp] using (hf x (by simp [hx]) hb).symm
    · exact (o1 x hx ha hb).elim

/-- Placing a decline hold keeps one hold for a peer (R36). -/
theorem placeHold_distinct (p u : Nat) (hs : List Hold) (h : hs.Pairwise fun x y => x.peer ≠ y.peer) :
    (placeHold p u hs).Pairwise fun x y => x.peer ≠ y.peer := by
  unfold placeHold
  simp only
  split
  · refine holds_map (p := p) _ rfl (fun x => x.peer == p) hs (fun x _ hx => by simpa using hx) ?_ h
    exact h.imp fun {a b} hab ha hb => hab (by simp at ha hb; rw [ha, hb])
  · rename_i hno
    have hnot : ∀ x ∈ hs, x.peer ≠ p := fun x hx hxp => hno (List.any_eq_true.mpr ⟨x, hx, by simpa using hxp⟩)
    have happ : (hs ++ [(⟨p, u⟩ : Hold)]).Pairwise fun x y => x.peer ≠ y.peer := by
      rw [List.pairwise_append]
      refine ⟨h, List.pairwise_singleton _ _, fun a ha b hb => ?_⟩
      rw [List.mem_singleton] at hb
      subst hb
      exact hnot a ha
    split
    · exact happ
    · split
      · rename_i w hw
        refine holds_map (p := p) _ rfl (fun x => x == w) hs (fun x hx _ => hnot x hx) ?_ h
        exact h.imp fun {a b} hab ha hb => hab (by simp at ha hb; rw [ha, hb])
      · exact happ

/-! ### The table-wide occasions (R31, R33, R96, R97, R99) -/

theorem ClientRecord.countMinute_kept (r : ClientRecord) : RecordKept r r.countMinute := by
  unfold ClientRecord.countMinute
  extract_lets counts
  cases counts <;> exact RecordKept.plain rfl rfl rfl rfl

theorem ClientRecord.resetDay_kept (day : Nat) (r : ClientRecord) : RecordKept r (r.resetDay day) := by
  unfold ClientRecord.resetDay
  split
  · exact RecordKept.plain rfl rfl rfl rfl
  · exact RecordKept.plain rfl rfl rfl rfl

theorem ClientRecord.rebind_kept (b : Book) (r : ClientRecord) : RecordKept r (r.rebind b) := by
  unfold ClientRecord.rebind
  split
  · exact RecordKept.plain rfl rfl rfl rfl
  · exact RecordKept.plain rfl rfl rfl rfl

theorem State.deleteDeparted_keeps (s : State) : Keeps s s.deleteDeparted := Keeps.walk State.deleteSlot_keeps _ _

end Sys2Proof.Machine
end

