-- ==== Sys2Proof/Laws/Peers.lean ====
section
/-! SUPPORT. What the operations of the Peer Table Unit keep. -/

namespace Sys2Proof.Machine

/-! ### Path cost (R17) -/

theorem foldl_min_le (l : List Nat) (a : Nat) : l.foldl min a ≤ a := by
  induction l generalizing a with
  | nil => exact Nat.le_refl _
  | cons x l ih => exact le_trans (ih (min a x)) (min_le_left _ _)

/-- The least of a list under a bound is under every element. -/
theorem foldl_min_le_mem (l : List Nat) (a x : Nat) (h : x ∈ l) : l.foldl min a ≤ x := by
  induction l generalizing a with
  | nil => simp at h
  | cons y l ih =>
    rcases List.mem_cons.mp h with rfl | h
    · exact le_trans (foldl_min_le l _) (min_le_right _ _)
    · exact ih _ h

/-- The least of a list under a bound is the bound or an element. -/
theorem foldl_min_mem (l : List Nat) (a : Nat) : l.foldl min a = a ∨ l.foldl min a ∈ l := by
  induction l generalizing a with
  | nil => exact Or.inl rfl
  | cons y l ih =>
    rw [List.foldl_cons]
    rcases ih (min a y) with h | h
    · rw [h]
      rcases min_choice a y with e | e
      · exact Or.inl e
      · exact Or.inr (by rw [e]; simp)
    · exact Or.inr (by simp [h])

theorem State.pathCostNow_le (s : State) : s.pathCostNow ≤ Config.noPath := by
  unfold State.pathCostNow
  split
  · exact Nat.zero_le _
  · exact foldl_min_le _ _

theorem State.recomputePath_keeps (s : State) : Keeps s s.recomputePath :=
  ⟨rfl, rfl, rfl, rfl, fun k => { k with }, fun k => { k with }, fun k => { k with ownPath := s.pathCostNow_le },
    fun k => { k with }⟩

/-! ### Entries (R12, R14, R15) -/

/-- Changing a peer's entry keeps, when its id stays and its link cost stays within 31. -/
theorem State.mapPeer_keeps (id : Nat) (f : PeerEntry → PeerEntry) (hid : ∀ p, (f p).id = p.id)
    (hl : ∀ p, p.linkCost ≤ 31 → (f p).linkCost ≤ 31) (s : State) : Keeps s (s.mapPeer id f) := by
  refine ⟨rfl, rfl, rfl, rfl, fun k => { k with peers := ?_ }, fun k => { k with peers := ?_ },
    fun k => { k with linkCosts := ?_ }, fun k => { k with }⟩
  · simp only [State.mapPeer, List.length_map]
    exact k.peers
  · simp only [State.mapPeer]
    rw [List.pairwise_map]
    refine k.peers.imp (fun {a b} hab => ?_)
    have e : ∀ p : PeerEntry, (if p.id == id then f p else p).id = p.id := fun p => by split <;> simp [hid]
    rw [e, e]
    exact hab
  · intro p hp
    obtain ⟨q, hq, rfl⟩ := List.mem_map.mp hp
    split
    · exact hl q (k.linkCosts q hq)
    · exact k.linkCosts q hq

theorem State.enterPeer_keeps {id : Nat} {a : Advert} {s s' : State} (h : s.enterPeer id a = some s') : Keeps s s' := by
  unfold State.enterPeer at h
  split at h
  · cases h
    refine State.mapPeer_keeps id _ ?_ ?_ s
    · exact fun _ => rfl
    · exact fun _ hp => hp
  · rename_i hnone
    split at h
    · rename_i hlt
      cases h
      have hno : ∀ p ∈ s.peers.table, p.id ≠ id := by
        intro p hp he
        have := List.find?_eq_none.mp hnone p hp
        simp [he] at this
      refine Keeps.trans ?_ (State.raise_keeps _ _)
      refine ⟨rfl, rfl, rfl, rfl, fun k => { k with peers := ?_ }, fun k => { k with peers := ?_ },
        fun k => { k with linkCosts := ?_ }, fun k => { k with }⟩
      · simp only [length_insertBy]
        omega
      · have hs : s.peers.table.Pairwise fun x y => decide (x.id < y.id) = true := k.peers.imp (fun h => by simpa using h)
        have := pairwise_insertBy (fun x y : PeerEntry => decide (x.id < y.id)) (PeerEntry.new id a s.now) s.peers.table hs
          (fun a b c h1 h2 => by simp only [decide_eq_true_eq] at *; omega)
          (fun p hp => by
            have := hno p hp
            rcases Nat.lt_or_gt_of_ne this with h | h
            · exact Or.inr (decide_eq_true h)
            · exact Or.inl (decide_eq_true h))
        exact this.imp (fun h => by simpa using h)
      · intro p hp
        rcases (mem_insertBy _ _ _ _).mp hp with rfl | hp
        · simp [PeerEntry.new]
        · exact k.linkCosts p hp
    · cases h

theorem State.dropPeer_keeps (id : Nat) (s : State) : Keeps s (s.dropPeer id) :=
  ⟨rfl, rfl, rfl, rfl,
    fun k => { k with peers := le_trans (List.length_filter_le _ _) k.peers
                      sightings := le_trans (List.length_filter_le _ _) k.sightings },
    fun k => { k with peers := k.peers.filter _, sightings := k.sightings.filter _ },
    fun k => { k with linkCosts := fun p hp => k.linkCosts p (List.mem_filter.mp hp).1 }, fun k => { k with }⟩

/-! ### The Sighting Table (R19, R20) -/

theorem SightingEntry.samePair_comm (x y : SightingEntry) : x.samePair y = y.samePair x := by
  unfold SightingEntry.samePair
  rw [Bool.eq_iff_iff]
  simp only [Bool.and_eq_true, beq_iff_eq]
  constructor <;> rintro ⟨h1, h2⟩ <;> exact ⟨h1.symm, h2.symm⟩

theorem SightingEntry.samePair_trans {x y z : SightingEntry} (h : x.samePair y = true) (k : y.samePair z = true) :
    x.samePair z = true := by
  simp only [SightingEntry.samePair, Bool.and_eq_true, beq_iff_eq] at *
  exact ⟨h.1.trans k.1, h.2.trans k.2⟩

/-- Filing keeps the Sighting Table within 128 entries, one for a client and peer (R19). -/
theorem fileSighting_kept (g : SightingEntry) (l : List SightingEntry) :
    (l.length ≤ Config.sightingEntries → (fileSighting g l).length ≤ Config.sightingEntries) ∧
    ((l.Pairwise fun x y => x.samePair y = false) → (fileSighting g l).Pairwise fun x y => x.samePair y = false) := by
  unfold fileSighting
  split
  · refine ⟨fun h => by rw [List.length_map]; exact h, fun h => ?_⟩
    rw [List.pairwise_map]
    refine h.imp (fun {a b} hab => ?_)
    have swap : ∀ x : SightingEntry, ∀ c : SightingEntry,
        (if (g.samePair x && decide (x.validity ≤ g.validity)) = true then g else x).samePair c = x.samePair c := by
      intro x c
      split
      · rename_i hx
        simp only [Bool.and_eq_true] at hx
        rw [Bool.eq_iff_iff]
        constructor
        · intro h; exact SightingEntry.samePair_trans (by rw [SightingEntry.samePair_comm]; exact hx.1) h
        · intro h; exact SightingEntry.samePair_trans hx.1 h
      · rfl
    rw [swap, SightingEntry.samePair_comm, swap, SightingEntry.samePair_comm]
    exact hab
  · rename_i hno
    have hnot : ∀ x ∈ l, x.samePair g = false := by
      intro x hx
      rw [SightingEntry.samePair_comm]
      cases hgx : g.samePair x with
      | false => rfl
      | true => exact absurd (List.any_eq_true.mpr ⟨x, hx, hgx⟩) hno
    have happ : ∀ m : List SightingEntry, (∀ x ∈ m, x ∈ l) → (m.Pairwise fun x y => x.samePair y = false) →
        (m ++ [g]).Pairwise fun x y => x.samePair y = false := by
      intro m hm hp
      rw [List.pairwise_append]
      refine ⟨hp, List.pairwise_singleton _ _, fun a ha b hb => ?_⟩
      rw [List.mem_singleton] at hb
      subst hb
      exact hnot a (hm a ha)
    split
    · exact ⟨fun _ => by rw [List.length_append, List.length_singleton]; omega, happ l (fun _ h => h)⟩
    · split
      · rename_i w hw
        split
        · refine ⟨fun h => ?_, fun h => happ _ (fun e he => (List.mem_filter.mp he).1) (h.filter _)⟩
          have hlt : (l.filter fun x => !w.samePair x).length < l.length := by
            rw [List.length_filter_lt_length_iff_exists]
            exact ⟨w, mem_of_head_sortBy hw, by simp [SightingEntry.samePair]⟩
          rw [List.length_append, List.length_singleton]
          omega
        · exact ⟨id, id⟩
      · rename_i hge hnone
        have hz : l.length = 0 := by
          have := length_sortBy SightingEntry.weaker l
          rw [List.head?_eq_none_iff.mp hnone] at this
          simpa using this.symm
        have : 0 < Config.sightingEntries := by decide
        omega

/-- Changing the Sighting Table within its capacity and without duplicates keeps. -/
theorem Keeps.sightings {s : State} (l : List SightingEntry)
    (hl : s.peers.sightings.length ≤ Config.sightingEntries → l.length ≤ Config.sightingEntries)
    (hp : (s.peers.sightings.Pairwise fun x y => x.samePair y = false) → l.Pairwise fun x y => x.samePair y = false) :
    Keeps s { s with peers := { s.peers with sightings := l } } :=
  ⟨rfl, rfl, rfl, rfl, fun k => { k with sightings := hl k.sightings }, fun k => { k with sightings := hp k.sightings },
    fun k => { k with }, fun k => { k with }⟩

theorem State.fileSightings_keeps (id : Nat) (a : Advert) (s : State) : Keeps s (s.fileSightings id a) := by
  unfold State.fileSightings
  simp only
  have key : ∀ (gs : List AdvertSighting) (l : List SightingEntry),
      (l.length ≤ Config.sightingEntries → (gs.foldl (fun l g => if s.heldHere g.client then
          fileSighting { client := g.client, peer := id, smoothed := g.smoothed, validity := (s.now : Int) - g.age * 1000 } l
        else l) l).length ≤ Config.sightingEntries) ∧
      ((l.Pairwise fun x y => x.samePair y = false) → (gs.foldl (fun l g => if s.heldHere g.client then
          fileSighting { client := g.client, peer := id, smoothed := g.smoothed, validity := (s.now : Int) - g.age * 1000 } l
        else l) l).Pairwise fun x y => x.samePair y = false) := by
    intro gs
    induction gs with
    | nil => exact fun l => ⟨fun h => h, fun h => h⟩
    | cons g gs ih =>
      intro l
      rw [List.foldl_cons]
      split
      · obtain ⟨h1, h2⟩ := fileSighting_kept
          { client := g.client, peer := id, smoothed := g.smoothed, validity := (s.now : Int) - g.age * 1000 } l
        exact ⟨fun h => (ih _).1 (h1 h), fun h => (ih _).2 (h2 h)⟩
      · exact ih l
  refine Keeps.sightings _ (fun h => (key _ _).1 (le_trans (List.length_filter_le _ _) h)) (fun h => (key _ _).2 (h.filter _))

theorem State.examine_keeps (c : ClientId) (s : State) : Keeps s (s.examine c) :=
  Keeps.sightings _ (fun h => le_trans (List.length_filter_le _ _) h) (fun h => h.filter _)

end Sys2Proof.Machine
end

