-- ==== Sys2Proof/Laws/Roaming.lean ====
section
/-! SUPPORT. What the operations of the Roaming Unit keep. -/

namespace Sys2Proof.Machine

/-! ### Scoring (R45) -/

/-- The best candidate is a candidate, and none is better: each other scores lower, or as high with an id not lower (R45). -/
theorem State.bestCandidate_spec {s : State} {r : ClientRecord} {p : Nat} {score : Int}
    (h : s.bestCandidate r = some (p, score)) :
    (p, score) ∈ s.candidates r ∧ ∀ x ∈ s.candidates r, x.2 < score ∨ (x.2 = score ∧ p ≤ x.1) := by
  unfold State.bestCandidate at h
  refine ⟨mem_of_head_sortBy h, fun x hx => ?_⟩
  have hs := sortBy_sorted betterCandidate (s.candidates r)
    (fun a b c h1 h2 => by
      simp only [betterCandidate, Bool.or_eq_false_iff, decide_eq_false_iff_not, Bool.and_eq_false_iff, beq_eq_false_iff_ne] at *
      omega)
    (fun a b h1 => by
      simp only [betterCandidate, Bool.or_eq_true, decide_eq_true_eq, Bool.and_eq_true, beq_iff_eq, Bool.or_eq_false_iff,
        decide_eq_false_iff_not, Bool.and_eq_false_iff, beq_eq_false_iff_ne] at *
      omega)
  have hm := (mem_sortBy betterCandidate x (s.candidates r)).mpr hx
  cases hl : sortBy betterCandidate (s.candidates r) with
  | nil => rw [hl] at h; cases h
  | cons y l =>
    rw [hl] at h hs hm
    cases h
    rcases List.mem_cons.mp hm with rfl | hm
    · exact Or.inr ⟨rfl, Nat.le_refl _⟩
    · have := (List.pairwise_cons.mp hs).1 x hm
      simp only [betterCandidate, Bool.or_eq_false_iff, decide_eq_false_iff_not, Bool.and_eq_false_iff,
        beq_eq_false_iff_ne] at this
      omega

/-! ### Evaluation (R42 to R49) -/

theorem State.beginOffer_keeps {i : Fin 64} {r : ClientRecord} (p : Nat) {s : State} (h : s.record i = some r) :
    Keeps s (s.beginOffer i r p) := by
  unfold State.beginOffer
  refine Keeps.trans (State.putRecord_keeps h ?_) (State.send_keeps _ _ (by simp [FrameBody.kind]) (by simp [FrameBody.kind]) _)
  exact RecordKept.plain rfl rfl rfl rfl

theorem State.examine_record (c : ClientId) (s : State) (i : Fin 64) : (s.examine c).record i = s.record i := rfl

theorem State.evaluateRecord_keeps {i : Fin 64} {r : ClientRecord} (q : Int) {s : State} (h : s.record i = some r) :
    Keeps s (s.evaluateRecord i r q) := by
  have hx := State.examine_keeps r.client s
  have hr : (s.examine r.client).record i = some r := h
  unfold State.evaluateRecord
  split
  · simp only
    split
    · split
      · split
        · split
          · exact hx.trans (State.beginOffer_keeps _ hr)
          · exact hx.trans (State.putRecord_keeps hr (RecordKept.plain rfl rfl rfl rfl))
        · exact hx.trans (State.putRecord_keeps hr (RecordKept.plain rfl rfl rfl rfl))
      · exact hx.trans (State.putRecord_keeps hr (RecordKept.plain rfl rfl rfl rfl))
    · exact hx.trans (State.putRecord_keeps hr (RecordKept.plain rfl rfl rfl rfl))
  · exact State.putRecord_keeps h (RecordKept.plain rfl rfl rfl rfl)

theorem State.evaluateClient_keeps (c : ClientId) (s : State) : Keeps s (s.evaluateClient c) := by
  unfold State.evaluateClient
  split
  · split
    · rename_i r hr
      split
      · exact State.evaluateRecord_keeps _ hr
      · exact Keeps.refl s
    · exact Keeps.refl s
  · exact Keeps.refl s

theorem State.evacuateSlot_keeps (i : Fin 64) (s : State) : Keeps s (s.evacuateSlot i) := by
  unfold State.evacuateSlot
  split
  · rename_i r hr
    split
    · have hx := State.examine_keeps r.client s
      have hr' : (s.examine r.client).record i = some r := hr
      simp only
      split
      · split
        · exact hx.trans (State.beginOffer_keeps _ hr')
        · exact hx
      · exact hx
    · exact Keeps.refl s
  · exact Keeps.refl s

/-! ### The handoff at the candidate (R53 to R55) -/

theorem State.releaseDeparted_keeps (c : ClientId) (s : State) : Keeps s (s.releaseDeparted c) := by
  unfold State.releaseDeparted
  split
  · split
    · split
      · exact State.deleteSlot_keeps _ _
      · exact Keeps.refl s
    · exact Keeps.refl s
  · exact Keeps.refl s

/-- After the release of a DEPARTED record, a client with one record at most that is neither associated here nor ARRIVING
has none. -/
theorem State.releaseDeparted_none {c : ClientId} {s : State} (h : s.OneRecordEach)
    (h1 : (s.releaseDeparted c).recordIs c ClientRecord.associatedHere = false)
    (h2 : (s.releaseDeparted c).recordIs c (fun r => r.state == .arriving) = false) :
    (s.releaseDeparted c).findClient c = none := by
  have key : ∀ t : State, t.recordIs c ClientRecord.associatedHere = false →
      t.recordIs c (fun r => r.state == .arriving) = false → ∀ i r, t.findClient c = some i → t.record i = some r →
      r.state = .departed := by
    intro t k1 k2 i r hi hr
    have e : t.recordOf c = some r := by simp only [State.recordOf, hi, hr]
    simp only [State.recordIs, e] at k1 k2
    cases hst : r.state <;> simp [ClientRecord.associatedHere, hst] at k1 k2 ⊢
  cases hf : s.findClient c with
  | none =>
    have : s.releaseDeparted c = s := by unfold State.releaseDeparted; rw [hf]
    rw [this]; exact hf
  | some i =>
    obtain ⟨r, hr, hrc⟩ := State.findClient_some hf
    by_cases hd : r.state = .departed
    · have e : s.releaseDeparted c = s.deleteSlot i := by
        unfold State.releaseDeparted
        rw [hf]
        simp only [hr, hd, if_true]
      rw [e]
      unfold State.findClient
      rw [List.find?_eq_none]
      intro j _
      rw [show (s.deleteSlot i).clients.table[j] = (s.deleteSlot i).record j from rfl, State.record_deleteSlot]
      unfold slotHolds
      by_cases hij : i = j
      · simp [hij]
      · rw [if_neg hij]
        cases hq : s.record j with
        | none => simp
        | some q =>
          simp only [beq_iff_eq]
          intro hqc
          exact hij (h i j r q hr hq (hrc.trans hqc.symm))
    · have e : s.releaseDeparted c = s := by
        unfold State.releaseDeparted
        rw [hf]
        simp only [hr, hd, if_false]
      rw [e] at h1 h2
      exact absurd (key s h1 h2 i r hf hr) hd

/-- A deletion takes no airtime. -/
theorem State.deleteSlot_ownReserved (i : Fin 64) (s : State) : (s.deleteSlot i).ownReserved ≤ s.ownReserved := by
  have key : ∀ (l : List (Fin 128)) (t : State), (Machine.walk l State.removeFlow t).ownReserved ≤ t.ownReserved := by
    intro l
    induction l with
    | nil => exact fun t => Nat.le_refl _
    | cons j l ih =>
      intro t
      refine le_trans (ih _) ?_
      show (t.removeFlow j).ownReserved ≤ t.ownReserved
      unfold State.removeFlow
      split
      · rename_i f hf
        have := State.ownReserved_putFlow j (if (FlowSlot.used f).classValue.isSome then .release f.digest f.client else .free) t
        have h0 : (if (FlowSlot.used f).classValue.isSome then FlowSlot.release f.digest f.client else FlowSlot.free).heldShare = 0 := by
          split <;> rfl
        omega
      · exact Nat.le_refl _
      · exact Nat.le_refl _
  unfold State.deleteSlot
  split
  · exact key _ s
  · exact Nat.le_refl _

theorem State.takeSlot_ownReserved {s s' : State} {i : Fin 64} (h : s.takeSlot = (some i, s')) : s'.ownReserved ≤ s.ownReserved := by
  unfold State.takeSlot at h
  split at h
  · cases h; exact Nat.le_refl _
  · split at h
    · cases h; exact State.deleteSlot_ownReserved _ _
    · cases h

/-- Without flows of the client, working out its access changes no flow. -/
theorem State.recompute_flows {i : Fin 64} {r : ClientRecord} {s : State} (hr : s.record i = some r)
    (h : ∀ j f, s.flow j = .used f → f.client ≠ r.client) : (s.recompute i).prio.flows = s.prio.flows := by
  unfold State.recompute
  rw [hr]
  simp only
  split
  · split
    · rfl
    · rw [State.accessChanged_none]
      · rfl
      · exact h
  · rfl

/-- A record of an accepted OFFER in an empty slot keeps all but perhaps the airtime. -/
theorem State.arriving_kept {i : Fin 64} (h : Handover) (a : Access) (n : Nat) (s : State) :
    Kept s (s.putRecord i (h.arriving a n)) := by
  have hrec := fun j => State.record_putRecord s i j (h.arriving a n)
  have e : ∀ j, (s.putRecord i (h.arriving a n)).clients.table[j] = (s.putRecord i (h.arriving a n)).record j := fun _ => rfl
  refine ⟨rfl, rfl, rfl, rfl, fun k => { k with holds := ?_ }, fun k => { k with records := ?_ }⟩
  · intro j q hj
    rw [e, hrec] at hj
    split at hj
    · cases hj; simp [Handover.arriving, ClientRecord.blank]
    · exact k.holds j q hj
  · intro j q hj
    rw [e, hrec] at hj
    split at hj
    · cases hj; exact LevelsOk_none rfl rfl
    · exact k.records j q hj

theorem State.acceptOffer_kept (sender : Nat) (h : Handover) (a : Access) (s : State) : Kept s (s.acceptOffer sender h a) := by
  have hk := (State.takeSlot_keeps s).kept
  unfold State.acceptOffer
  split
  · rename_i s1 he
    rw [he] at hk
    exact hk
  · rename_i i s1 he
    rw [he] at hk
    refine Kept.trans ?_ (State.send_keeps _ _ (by simp [FrameBody.kind]) (by simp [FrameBody.kind]) _).kept
    exact Kept.trans (Kept.trans hk (Kept.trans (State.arriving_kept h a _ s1) (State.recompute_keeps i _).kept))
      (State.reserveFlows_kept _ _ _ _)

/-- Accepting an OFFER for a client without a record leaves the tables without duplicates (R55, R114). -/
theorem State.acceptOffer_distinct (sender : Nat) (h : Handover) (a : Access) (s : State)
    (hn : s.findClient h.client = none) (k : s.EntriesDistinct) : (s.acceptOffer sender h a).EntriesDistinct := by
  have hk := (State.takeSlot_keeps s).distinct k
  unfold State.acceptOffer
  split
  · rename_i s1 he
    rw [he] at hk
    exact hk
  · rename_i i s1 he
    rw [he] at hk
    refine (State.send_keeps _ _ (by simp [FrameBody.kind]) (by simp [FrameBody.kind]) _).distinct ?_
    refine State.reserveFlows_distinct _ _ _ _ ((State.recompute_keeps i _).distinct ?_)
    exact State.newRecord_distinct i ((State.takeSlot_empty he).2 _ hn) rfl hk

/-- Accepting an OFFER whose shares fit, for a client without a record, keeps (R55, R114). -/
theorem State.acceptOffer_keeps (sender : Nat) (h : Handover) (a : Access) (s : State) (hrun : s.running = true)
    (hair : s.AirtimeKept) (hn : s.findClient h.client = none)
    (hsh : h.flows ≠ [] → s.viewTotal + (h.flows.map CarriedFlow.share).sum ≤ s.cfg.ceiling) :
    Keeps s (s.acceptOffer sender h a) := by
  have hk := State.takeSlot_keeps s
  unfold State.acceptOffer
  split
  · rename_i s1 he
    rw [he] at hk
    exact hk
  · rename_i i s1 he
    rw [he] at hk
    simp only at hk ⊢
    obtain ⟨h1, h2⟩ := State.takeSlot_empty he
    have hown := State.takeSlot_ownReserved he
    have hput : (s1.putRecord i (h.arriving a s1.now)).record i = some (h.arriving a s1.now) := State.record_putRecord_same _ _ _
    refine Keeps.trans ?_ (State.send_keeps _ _ (by simp [FrameBody.kind]) (by simp [FrameBody.kind]) _)
    have hno := h2 _ hn
    have hair1 := hk.airtime hair
    have k1 : Keeps s1 (s1.putRecord i (h.arriving a s1.now)) :=
      State.newRecord_keeps h1 hno rfl (LevelsOk_none rfl rfl)
    have k2 := State.recompute_keeps i (s1.putRecord i (h.arriving a s1.now))
    have hflows : ((s1.putRecord i (h.arriving a s1.now)).recompute i).prio.flows = s1.prio.flows := by
      rw [State.recompute_flows hput]
      · rfl
      · intro j f hj hc
        obtain ⟨q, hq, hqc⟩ := hair1.owned j f hj
        exact State.findClient_none hno _ q hq (hqc.trans hc)
    have hrec : ∃ r, ((s1.putRecord i (h.arriving a s1.now)).recompute i).record i = some r ∧ r.client = h.client := by
      rw [State.record_recompute, if_pos rfl, hput]
      refine ⟨_, rfl, ?_⟩
      beta_reduce
      split <;> rfl
    obtain ⟨r, hr, hrc⟩ := hrec
    refine (hk.trans (k1.trans k2)).trans (State.reserveFlows_keeps (r := r) h.flows ?_ hr hrc ?_)
    · rw [k2.running, k1.running, hk.running, hrun]
    · have e : ((s1.putRecord i (h.arriving a s1.now)).recompute i).ownReserved = s1.ownReserved := by
        simp only [State.ownReserved, hflows]
      rw [e, k2.cfg, k1.cfg, hk.cfg]
      have hc := hair.ceiling
      by_cases hz : h.flows = []
      · rw [hz]
        simp only [List.map_nil, List.sum_nil]
        omega
      · have := hsh hz
        have : s.ownReserved ≤ s.viewTotal := by unfold State.viewTotal; omega
        omega

/-- When no check declines an OFFER (R54). -/
theorem State.declineReason_none {s : State} {h : Handover} (hd : s.declineReason h = none) :
    s.act.state.leaving = false ∧ s.recordIs h.client ClientRecord.associatedHere = false ∧
      s.recordIs h.client (fun r => r.state == .arriving) = false ∧
      ¬((s.emptySlot.isNone && s.reclaimable.isNone) = true ∨ s.freeFlowCount < h.flows.length) ∧ s.hearsWell h.client = true ∧
      (h.flows ≠ [] → s.viewTotal + (h.flows.map CarriedFlow.share).sum ≤ s.cfg.ceiling) := by
  unfold State.declineReason at hd
  split at hd
  · cases hd
  · split at hd
    · cases hd
    · split at hd
      · cases hd
      · split at hd
        · cases hd
        · split at hd
          · cases hd
          · split at hd
            · cases hd
            · rename_i h1 h2 h3 h4 h5 h6
              refine ⟨by simpa using h1, by simpa using h2, by simpa using h3, by simpa using h4, by simpa using h5, fun hz => ?_⟩
              by_contra hc
              exact h6 ⟨hz, by omega⟩

theorem State.takeOffer_keeps (sender : Nat) (h : Handover) (s : State) (hrun : s.running = true) :
    Keeps s (s.takeOffer sender h) := by
  unfold State.takeOffer
  split
  · have hk := State.releaseDeparted_keeps h.client s
    simp only
    split
    · exact hk.trans (State.send_keeps _ _ (by simp [FrameBody.kind]) (by simp [FrameBody.kind]) _)
    · rename_i hd
      obtain ⟨_, h1, h2, _, _, h3⟩ := State.declineReason_none hd
      refine (hk.kept.trans (State.acceptOffer_kept _ _ _ _)).keeps (fun hd => ?_) fun hair => ?_
      · exact State.acceptOffer_distinct _ _ _ _ (State.releaseDeparted_none hd.records h1 h2) (hk.distinct hd)
      exact (State.acceptOffer_keeps _ _ _ _ (hk.running.trans hrun) (hk.airtime hair)
        (State.releaseDeparted_none hair.oneRecord h1 h2) h3).airtime (hk.airtime hair)
  · exact Keeps.refl s

/-! ### The handoff at the serving node (R56 to R60, R63) -/

theorem State.releaseTo_keeps (i : Fin 64) (r : ClientRecord) (claimer : Nat) (s : State) :
    Keeps s (s.releaseTo i r claimer) := by
  unfold State.releaseTo
  exact Keeps.trans (Keeps.trans (State.send_keeps _ _ (by simp [FrameBody.kind]) (by simp [FrameBody.kind]) _)
    (State.deleteSlot_keeps _ _)) (State.raise_keeps _ _)

theorem State.takeAccept_keeps (sender : Nat) (c : ClientId) (s : State) : Keeps s (s.takeAccept sender c) := by
  unfold State.takeAccept
  split
  · split
    · rename_i r hr
      split
      · refine Keeps.trans (State.putRecord_keeps hr ?_) (State.setSteerMark_keeps _ _ _)
        exact RecordKept.plain rfl rfl rfl rfl
      · exact Keeps.refl s
    · exact Keeps.refl s
  · exact Keeps.refl s

theorem State.endOffer_keeps {i : Fin 64} {r : ClientRecord} (p : Nat) (why : FailReason) {s : State} (h : s.record i = some r) :
    Keeps s (s.endOffer i r p why) := by
  unfold State.endOffer
  refine Keeps.trans (State.putRecord_keeps h ?_) (State.raise_keeps _ _)
  exact ⟨rfl, fun hh => placeHold_length _ _ _ hh, fun hh => placeHold_distinct _ _ _ hh, fun hl => hl⟩

theorem State.takeDecline_keeps (sender : Nat) (c : ClientId) (reason : Nat) (s : State) :
    Keeps s (s.takeDecline sender c reason) := by
  unfold State.takeDecline
  split
  · exact Keeps.refl s
  · split
    · split
      · rename_i r hr
        split
        · split
          · exact State.releaseTo_keeps _ _ _ _
          · exact State.endOffer_keeps _ _ hr
        · exact Keeps.refl s
      · exact Keeps.refl s
    · exact Keeps.refl s

theorem State.takeClaim_keeps (sender : Nat) (c : ClientId) (s : State) : Keeps s (s.takeClaim sender c) := by
  unfold State.takeClaim
  split
  · split
    · split
      · exact Keeps.refl s
      · exact State.releaseTo_keeps _ _ _ _
    · exact Keeps.refl s
  · exact Keeps.refl s

/-! ### CONTEXT and expiries (R59 to R69) -/

theorem State.mergeContext_keeps {i : Fin 64} {r : ClientRecord} (h : Handover) {s : State} (hr : s.record i = some r) :
    Keeps s (s.mergeContext i r h) := by
  unfold State.mergeContext
  refine Keeps.trans (State.putRecord_keeps hr ?_) (State.recompute_keeps _ _)
  exact RecordKept.plain rfl rfl rfl rfl

theorem State.resolveContext_keeps {i : Fin 64} {r : ClientRecord} (h : Handover) {s : State} (hrun : s.running = true)
    (hr : s.record i = some r) : Keeps s (s.resolveContext i r h) := by
  unfold State.resolveContext
  simp only
  generalize mergeFigures 0 r.countedHere r.dayStamp h.used h.dayStamp = m
  have k1 : Keeps s (s.putRecord i (r.resolved m.1 m.2)) := State.putRecord_keeps hr (RecordKept.plain rfl rfl rfl rfl)
  have k2 := State.recompute_keeps i (s.putRecord i (r.resolved m.1 m.2))
  have hrec : ∃ q, ((s.putRecord i (r.resolved m.1 m.2)).recompute i).record i = some q ∧ q.client = r.client := by
    rw [State.record_recompute, if_pos rfl, State.record_putRecord_same]
    refine ⟨_, rfl, ?_⟩
    beta_reduce
    split <;> rfl
  obtain ⟨q, hq, hqc⟩ := hrec
  exact Keeps.trans ((k1.trans k2).trans (State.enterContext_keeps h.flows ((k2.running.trans k1.running).trans hrun) hq hqc))
    (State.resolveFlows_keeps _ _)

theorem State.takeContext_keeps (h : Handover) (s : State) (hrun : s.running = true) : Keeps s (s.takeContext h) := by
  unfold State.takeContext
  split
  · split
    · split
      · rename_i r hr
        split
        · split
          · exact State.resolveContext_keeps h hrun hr
          · exact State.mergeContext_keeps h hr
          · exact State.mergeContext_keeps h hr
          · exact State.mergeContext_keeps h hr
          · exact Keeps.refl s
          · exact Keeps.refl s
        · exact Keeps.refl s
      · exact Keeps.refl s
    · exact Keeps.refl s
  · exact Keeps.refl s

theorem State.offeringEnds_keeps {i : Fin 64} {r : ClientRecord} {s : State} (h : s.record i = some r) :
    Keeps s (s.offeringEnds i r) := by
  unfold State.offeringEnds
  split
  · exact State.endOffer_keeps _ _ h
  · exact Keeps.refl s

theorem State.handingEnds_keeps {i : Fin 64} {r : ClientRecord} {s : State} (h : s.record i = some r) :
    Keeps s (s.handingEnds i r) := by
  unfold State.handingEnds
  simp only
  refine Keeps.trans (Keeps.trans (State.putRecord_keeps h ?_) (State.setSteerMark_keeps _ _ _)) (State.raise_keeps _ _)
  exact RecordKept.plain rfl rfl rfl rfl

theorem State.provisionalEnds_keeps {i : Fin 64} {r : ClientRecord} {s : State} (h : s.record i = some r) :
    Keeps s (s.provisionalEnds i r) := by
  unfold State.provisionalEnds
  simp only
  refine Keeps.trans (Keeps.trans (State.putRecord_keeps h ?_) (State.recompute_keeps _ _)) (State.resolveFlows_keeps _ _)
  exact RecordKept.plain rfl rfl rfl rfl

end Sys2Proof.Machine
end

