-- ==== Sys2Proof/Laws/Activation.lean ====
section
/-! SUPPORT. What the operations of the Activation Controller, the Time Base and the Schedule Unit keep, and the end of an
event. -/

namespace Sys2Proof.Machine

/-! ### Selector writes (R158) -/

/-- A submission that is refused as protected keeps. -/
theorem State.submit_keeps_protected {op : StoreOp} {s : State} (h : op.isProtected s.act.sel = true) :
    Keeps s (s.submit op).1 := by
  rcases State.submit_cases op s with ⟨h1, _⟩ | ⟨h1, _⟩ | ⟨_, h2, _⟩
  · rw [h1]; exact Keeps.refl s
  · rw [h1]; exact State.raiseRefused_keeps _ _
  · rw [h] at h2; cases h2

theorem State.submitSelector_keeps (w : RetriedWrite) (s : State) : Keeps s (s.submitSelector w).1 := by
  have h : Keeps s (s.submit { owner := w.owner, kind := .selectorWrite w.order w.purpose w.sel none }).1 := by
    cases hp : (⟨w.owner, .selectorWrite w.order w.purpose w.sel none⟩ : StoreOp).isProtected s.act.sel with
    | true => exact State.submit_keeps_protected hp
    | false =>
      refine State.submit_keeps_of ?_
      simp only [StoreOp.isProtected, Bool.not_eq_false', Bool.or_eq_true, beq_iff_eq] at hp
      rcases hp with hp | hp <;> simp [StoreOp.isServe, hp]
  unfold State.submitSelector
  simp only
  split
  · exact h.trans (Keeps.quiet rfl)
  · exact h

theorem State.newWrite_keeps (o : Owner) (p : SelPurpose) (sel : Selector) (s : State) : Keeps s (s.newWrite o p sel).2 :=
  Keeps.quiet rfl

theorem State.startRetry_keeps (w : RetriedWrite) (s : State) : Keeps s (s.startRetry w) := by
  unfold State.startRetry
  extract_lets later
  cases later
  · exact Keeps.quiet rfl
  · exact Keeps.refl s

theorem State.endRetry_keeps (n : Nat) (s : State) : Keeps s (s.endRetry n) := by
  unfold State.endRetry
  split
  · split
    · exact Keeps.quiet rfl
    · exact Keeps.refl s
  · exact Keeps.refl s

theorem State.submitRetried_keeps (w : RetriedWrite) (s : State) : Keeps s (s.submitRetried w) := by
  unfold State.submitRetried
  simp only
  split
  · exact State.submitSelector_keeps w s
  · exact (State.submitSelector_keeps w s).trans (State.startRetry_keeps _ _)

/-- Dropping the ARRIVING records keeps (R34, R161). -/
theorem State.dropArriving_keeps (s : State) : Keeps s s.dropArriving := Keeps.walk State.deleteSlot_keeps _ _

/-- Emptying the serve queue on the way into RESTARTING keeps, and so does dropping the ARRIVING records (R151, R161). -/
theorem State.enterRestarting_keeps (s : State) : Keeps s s.enterRestarting := by
  unfold State.enterRestarting
  refine Keeps.trans (u := { s with act := { s.act with state := .restarting }, dist := { s.dist with serve := [] } }) ?_
    (State.dropArriving_keeps _)
  exact ⟨rfl, rfl, rfl, rfl, fun k => { k with serve := Nat.zero_le _ }, fun k => { k with serve := List.Pairwise.nil },
    fun k => { k with }, fun k => { k with }⟩

theorem State.confirmExpired_keeps (s : State) : Keeps s s.confirmExpired := by
  unfold State.confirmExpired
  simp only
  refine Keeps.trans (u := State.enterRestarting { s with act := { s.act with confirmHeld := false } }) ?_ ?_
  · exact Keeps.trans (u := { s with act := { s.act with confirmHeld := false } }) (Keeps.quiet rfl) (State.enterRestarting_keeps _)
  · exact Keeps.trans (State.newWrite_keeps .activation .revert s.act.sel.reverted _) (State.submitRetried_keeps _ _)

/-! ### Gates and evacuation (R160 to R164) -/

theorem State.pass_keeps (s : State) : Keeps s s.pass := Keeps.walk State.evacuateSlot_keeps _ _

theorem State.beginEvacuation_keeps (s : State) : Keeps s s.beginEvacuation := by
  unfold State.beginEvacuation
  simp only
  refine Keeps.trans (u := { s with act := { s.act with state := .evacuating, evacuationDue := some (s.now + Config.evacuationLimit) } })
    (Keeps.quiet rfl) ((State.dropArriving_keeps _).trans (State.pass_keeps _))

theorem State.reopen_keeps (s : State) : Keeps s s.reopen := by
  unfold State.reopen
  simp only
  have h : Keeps s { s with act := { s.act with state := .waiting } } := Keeps.quiet rfl
  split
  · exact h.trans (State.beginEvacuation_keeps _)
  · exact h

theorem State.commit_keeps (s : State) : Keeps s s.commit := by
  unfold State.commit
  extract_lets _ s1 w r
  have h1 : Keeps s s1 := Keeps.quiet rfl
  have h2 : Keeps s r.1 := by
    exact h1.trans (Keeps.trans (State.newWrite_keeps _ _ _ _) (State.submitSelector_keeps _ _))
  split
  · exact h2
  · exact h2.trans (State.reopen_keeps _)

theorem State.endCheck_keeps (s : State) : Keeps s s.endCheck := by
  unfold State.endCheck
  split
  · exact State.commit_keeps s
  · exact Keeps.refl s

theorem State.gateTest_keeps (s : State) : Keeps s s.gateTest := by
  unfold State.gateTest
  split
  · exact (State.beginEvacuation_keeps s).trans (State.endCheck_keeps _)
  · exact Keeps.refl s

theorem State.slotReady_keeps (s : State) : Keeps s s.slotReady := by
  unfold State.slotReady
  split
  · exact Keeps.trans (u := { s with act := { s.act with state := .waiting } }) (Keeps.quiet rfl) (State.gateTest_keeps _)
  · exact Keeps.refl s

theorem State.readyGivenUp_keeps (s : State) : Keeps s s.readyGivenUp := by
  unfold State.readyGivenUp
  split
  · exact Keeps.quiet rfl
  · exact Keeps.refl s

theorem State.hearFlags_keeps (peer : Nat) (e : Bool) (s : State) : Keeps s (s.hearFlags peer e) := by
  unfold State.hearFlags
  split
  · exact Keeps.trans (u := { s with act := { s.act with state := .waiting, evacuationDue := none } }) (Keeps.quiet rfl)
      (State.gateTest_keeps _)
  · exact State.gateTest_keeps s

/-- The end of an event keeps, and leaves the marks clear (log entry 8). -/
theorem State.settleWith_keeps (test : Bool) (s : State) : Keeps s (s.settleWith test) := by
  unfold State.settleWith
  extract_lets s1 s2 s3 s4
  have h2 : Keeps s s2 := by
    unfold s2
    split
    · exact (State.retest_keeps s).trans (State.gateTest_keeps _)
    · exact State.retest_keeps s
  have h4 : Keeps s s4 := by
    unfold s4
    split
    · exact (h2.trans (State.priorityEnd_keeps _)).trans (State.endCheck_keeps _)
    · exact h2.trans (State.priorityEnd_keeps _)
  exact h4.trans (Keeps.quiet rfl)

@[simp] theorem State.settleWith_ev (test : Bool) (s : State) : (s.settleWith test).ev = EventMarks.clear := rfl

theorem State.settle_keeps (s : State) : Keeps s s.settle := State.settleWith_keeps false s

@[simp] theorem State.settle_ev (s : State) : s.settle.ev = EventMarks.clear := rfl

/-- With no mark set, the end of an event that calls for no test of its own changes nothing. -/
theorem State.settle_clear {s : State} (h : s.ev = EventMarks.clear) : s.settle = s := by
  have hr : s.ev.released = false := by rw [h]; rfl
  have ha : s.ev.admittedChanged = false := by rw [h]; rfl
  have hd : s.ev.departed = false := by rw [h]; rfl
  have ht : s.retest = s := by simp [State.retest, hr]
  have hp : s.priorityEnd = s := by simp [State.priorityEnd, ht, ha]
  simp only [State.settle, State.settleWith, ht, hp, ha, hd, Bool.or_self, Bool.false_eq_true, if_false]
  rw [← h]

/-- With no mark set and nothing for the gates to open, the end of an event changes nothing. -/
theorem State.settleWith_clear {s : State} (test : Bool) (h : s.ev = EventMarks.clear)
    (hg : ¬(s.act.state = .waiting ∧ s.gatesOpen = true)) : s.settleWith test = s := by
  have hr : s.ev.released = false := by rw [h]; rfl
  have ha : s.ev.admittedChanged = false := by rw [h]; rfl
  have hd : s.ev.departed = false := by rw [h]; rfl
  have hn : s.retest = s := by simp [State.retest, hr]
  have hp : s.priorityEnd = s := by simp [State.priorityEnd, hn, ha]
  have ht : s.gateTest = s := by simp [State.gateTest, hg]
  simp only [State.settleWith, hn, hp, ha, hd, ht, ite_self, Bool.false_eq_true, if_false]
  rw [← h]

/-! ### Completions of selector writes (R158, R164, R166, R169) -/

theorem State.clearWriteMark_keeps (s : State) : Keeps s s.clearWriteMark := Keeps.quiet rfl

theorem State.reply_keeps (tag : Tag) (st : Status) (s : State) : Keeps s (s.reply tag st) := Keeps.quiet rfl

theorem State.replyWith_keeps (tag : Tag) (v : RecordView) (s : State) : Keeps s (s.replyWith tag v) := Keeps.quiet rfl

theorem State.markRestart_keeps (s : State) : Keeps s s.markRestart := Keeps.quiet rfl

theorem State.selectorWritten_keeps (w : RetriedWrite) (s : State) : Keeps s (s.selectorWritten w) := by
  unfold State.selectorWritten
  simp only
  have h : Keeps s (s.clearWriteMark.endRetry w.order) := (State.clearWriteMark_keeps s).trans (State.endRetry_keeps _ _)
  split
  · exact h.trans ((State.enterRestarting_keeps _).trans (State.markRestart_keeps _))
  · refine h.trans (Keeps.trans (u := { s.clearWriteMark.endRetry w.order with act := { (s.clearWriteMark.endRetry w.order).act with confirmDue := none, confirmHeld := false } })
      (Keeps.quiet rfl) (State.reply_keeps _ _ _))
  · exact h.trans (State.markRestart_keeps _)
  · split
    · exact h.trans (State.markRestart_keeps _)
    · exact h
  · exact h
  · exact h

theorem State.selectorFailed_keeps (w : RetriedWrite) (s : State) : Keeps s (s.selectorFailed w) := by
  unfold State.selectorFailed
  simp only
  have h := State.clearWriteMark_keeps s
  split
  · exact h.trans (Keeps.trans (u := { s.clearWriteMark with act := { s.clearWriteMark.act with state := .waiting } })
      (Keeps.quiet rfl) (State.gateTest_keeps _))
  · have h2 := h.trans (State.reply_keeps ‹_› .busy _)
    split
    · exact h2.trans (State.confirmExpired_keeps _)
    · exact h2
  · exact h.trans (State.startRetry_keeps _ _)
  · exact h.trans (State.startRetry_keeps _ _)
  · exact h.trans (State.startRetry_keeps _ _)
  · exact h.trans (State.startRetry_keeps _ _)

/-! ### Mesh time (R71 to R75) -/

theorem State.minuteEvent_keeps (s : State) : Keeps s s.minuteEvent := by
  unfold State.minuteEvent
  exact Keeps.trans (Keeps.trans (State.mapRecords_keeps _ ClientRecord.countMinute_kept s) (State.recomputeAll_keeps _))
    (State.settleWith_keeps _ _)

theorem State.dayEvent_keeps (day : Nat) (s : State) : Keeps s (s.dayEvent day) := by
  unfold State.dayEvent
  exact Keeps.trans (Keeps.trans (Keeps.trans (State.mapRecords_keeps _ (ClientRecord.resetDay_kept day) s)
    (State.deleteDeparted_keeps _)) (State.recomputeAll_keeps _)) (State.settle_keeps _)

theorem State.minuteStep_keeps (s : State) : Keeps s s.minuteStep := by
  unfold State.minuteStep
  split
  · exact Keeps.refl s
  · exact Keeps.trans (u := { s with time := { s.time with minuteMark := minuteIndexOf s.time.mesh } }) (Keeps.quiet rfl)
      (State.minuteEvent_keeps _)

theorem State.dayStep_keeps (s : State) : Keeps s s.dayStep := by
  unfold State.dayStep
  split
  · exact Keeps.trans (u := { s with time := { s.time with dayMark := dayOf s.time.mesh } }) (Keeps.quiet rfl)
      (State.dayEvent_keeps _ _)
  · exact Keeps.refl s

theorem State.timeChanged_keeps (b : Bool) (s : State) : Keeps s (s.timeChanged b) := by
  unfold State.timeChanged
  split
  · simp only
    have h := (State.minuteStep_keeps s).trans (State.dayStep_keeps _)
    split
    · exact h.trans ((State.recomputeAll_keeps _).trans (State.settle_keeps _))
    · exact h
  · exact Keeps.refl s

/-- Setting the mesh time at a rank within 15 keeps (R72, R73). -/
theorem State.setMesh_keeps (m r : Nat) (h : r ≤ Config.rankUnknown) (s : State) : Keeps s (s.setMesh m r) :=
  ⟨rfl, rfl, rfl, rfl, fun k => { k with }, fun k => { k with }, fun k => { k with rank := h }, fun k => { k with }⟩

theorem State.hearTime_keeps (peer mesh rank : Nat) (s : State) : Keeps s (s.hearTime peer mesh rank) := by
  unfold State.hearTime
  split
  · rename_i hlt
    refine Keeps.trans (Keeps.trans ?_ (State.raise_keeps _ _)) (State.timeChanged_keeps _ _)
    refine ⟨rfl, rfl, rfl, rfl, fun k => { k with }, fun k => { k with }, fun k => { k with rank := ?_ }, fun k => { k with }⟩
    have := k.rank
    show rank + 1 ≤ Config.rankUnknown
    omega
  · exact Keeps.refl s

theorem State.ageRank_keeps (due : Nat) (s : State) : Keeps s (s.ageRank due) :=
  ⟨rfl, rfl, rfl, rfl, fun k => { k with }, fun k => { k with }, fun k => { k with rank := min_le_left _ _ }, fun k => { k with }⟩

theorem State.tickTime_keeps (s : State) : Keeps s s.tickTime := by
  unfold State.tickTime
  exact Keeps.trans (u := { s with time := { s.time with mesh := nextMesh s.time.mesh } }) (Keeps.quiet rfl)
    (State.timeChanged_keeps _ _)

/-! ### The Schedule Book (R77 to R87) -/

theorem State.submitBook_keeps (s : State) : Keeps s s.submitBook := by
  unfold State.submitBook
  split
  · simp only
    split
    · exact (State.submit_keeps_of rfl).trans (Keeps.quiet rfl)
    · exact State.submit_keeps_of rfl
  · exact Keeps.refl s

theorem State.bookWritten_keeps (ok : Bool) (s : State) : Keeps s (s.bookWritten ok) := by
  unfold State.bookWritten
  split
  · exact Keeps.trans (u := { s with sched := { s.sched with writeInFlight := false } }) (Keeps.quiet rfl) (State.submitBook_keeps _)
  · exact Keeps.quiet rfl

theorem State.adopt_keeps (b : Book) (s : State) : Keeps s (s.adopt b) := by
  unfold State.adopt
  simp only
  refine Keeps.trans (u := { s with sched := { s.sched with book := b, writeOwed := true } }) (Keeps.quiet rfl) ?_
  exact Keeps.trans (Keeps.trans (Keeps.trans (Keeps.trans (State.mapRecords_keeps _ (ClientRecord.rebind_kept b) _)
    (State.recomputeAll_keeps _)) (State.submitBook_keeps _)) (State.raise_keeps _ _)) (State.settleWith_keeps _ _)

theorem State.hearBook_keeps (peer v o : Nat) (s : State) : Keeps s (s.hearBook peer v o) := by
  have h : Keeps s (s.send peer .bookRequest) := State.send_keeps _ _ (by simp [FrameBody.kind]) (by simp [FrameBody.kind]) s
  unfold State.hearBook
  split
  · split
    · exact h
    · split
      · exact h
      · exact Keeps.refl s
  · exact Keeps.refl s

theorem State.takeBookRequest_keeps (sender : Nat) (s : State) : Keeps s (s.takeBookRequest sender) := by
  unfold State.takeBookRequest
  simp only
  exact Keeps.trans (State.send_keeps _ _ (by simp [FrameBody.kind]) (by simp [FrameBody.kind]) _)
    (State.send_keeps _ _ (by simp [FrameBody.kind]) (by simp [FrameBody.kind]) _)

theorem State.stagingComplete_keeps (g : Staging) (bs : List Byte) (s : State) : Keeps s (s.stagingComplete g bs) := by
  unfold State.stagingComplete
  simp only
  have h : Keeps s { s with sched := { s.sched with staging := none } } := Keeps.quiet rfl
  split
  · split
    · exact h.trans (State.adopt_keeps _ _)
    · exact h
  · exact h

theorem State.stage_keeps (g : Staging) (s : State) : Keeps s (s.stage g) := by
  unfold State.stage
  split
  · exact State.stagingComplete_keeps _ _ _
  · exact Keeps.quiet rfl

theorem State.takeSegment_keeps (v o len i : Nat) (part : List Byte) (s : State) : Keeps s (s.takeSegment v o len i part) := by
  unfold State.takeSegment
  split
  · exact Keeps.refl s
  · split
    · exact Keeps.refl s
    · simp only
      split
      · exact State.stage_keeps _ _
      · split
        · split
          · exact State.stage_keeps _ _
          · exact Keeps.refl s
        · split
          · exact State.stage_keeps _ _
          · exact Keeps.refl s

theorem State.loadBook_keeps (bs : List Byte) (s : State) : Keeps s (s.loadBook bs).1 := by
  unfold State.loadBook
  split
  · exact Keeps.refl s
  · split
    · exact Keeps.refl s
    · exact State.adopt_keeps _ _

end Sys2Proof.Machine
end

