-- ==== Sys2Proof/Laws/Distribution.lean ====
section
/-! SUPPORT. What the operations of the Distribution Unit keep. -/

namespace Sys2Proof.Machine

/-! ### Manifests and fills -/

theorem State.takeManifestRequest_keeps (sender v : Nat) (s : State) : Keeps s (s.takeManifestRequest sender v) := by
  unfold State.takeManifestRequest
  split
  · exact State.send_keeps _ _ (by simp [FrameBody.kind]) (by simp [FrameBody.kind]) s
  · exact Keeps.refl s

theorem State.startFill_keeps (v : Nat) (s : State) : Keeps s (s.startFill v) := by
  unfold State.startFill
  extract_lets s1
  have h1 : Keeps s s1 := by
    unfold s1
    split
    · exact State.readyGivenUp_keeps s
    · exact Keeps.refl s
  refine h1.trans (Keeps.trans ?_ (State.putSlotRecord_keeps _ _ _))
  exact Keeps.quiet rfl

theorem State.hearImage_keeps (peer v : Nat) (s : State) : Keeps s (s.hearImage peer v) := by
  unfold State.hearImage
  extract_lets _ s1
  have h1 : Keeps s s1 := Keeps.quiet rfl
  split
  · exact h1.trans ((State.startFill_keeps _ _).trans
      (State.send_keeps _ _ (by simp [FrameBody.kind]) (by simp [FrameBody.kind]) _))
  · split
    · exact h1.trans (State.send_keeps _ _ (by simp [FrameBody.kind]) (by simp [FrameBody.kind]) _)
    · exact h1

theorem State.submitManifest_keeps (s : State) : Keeps s s.submitManifest := by
  unfold State.submitManifest
  split
  · split
    · simp only
      split
      · exact (State.submit_keeps_of rfl).trans (Keeps.quiet rfl)
      · exact State.submit_keeps_of rfl
    · exact Keeps.refl s
  · exact Keeps.refl s

theorem State.storeManifest_keeps (m : Manifest) (s : State) : Keeps s (s.storeManifest m) := by
  unfold State.storeManifest
  simp only
  refine Keeps.trans (Keeps.trans (State.putSlotRecord_keeps s.spareSlot { s.slot s.spareSlot with manifest := some m } s)
    ?_) (State.submitManifest_keeps _)
  exact Keeps.quiet rfl

theorem State.takeManifest_keeps (m : Manifest) (s : State) : Keeps s (s.takeManifest m) := by
  unfold State.takeManifest
  split
  · exact State.storeManifest_keeps m s
  · exact Keeps.refl s

theorem State.seedManifest_keeps (m : Manifest) (s : State) : Keeps s (s.seedManifest m).1 := by
  unfold State.seedManifest
  repeat' split
  all_goals first
    | exact Keeps.refl s
    | exact State.storeManifest_keeps m s
    | exact (State.startFill_keeps _ _).trans (State.storeManifest_keeps m _)

theorem State.manifestWritten_keeps (k : SlotId) (v : Nat) (failed : Bool) (s : State) : Keeps s (s.manifestWritten k v failed) := by
  unfold State.manifestWritten
  simp only
  refine Keeps.trans ?_ (State.submitManifest_keeps _)
  split
  · exact Keeps.quiet rfl
  · exact Keeps.refl s

/-! ### The pull step -/

theorem State.submitErase_keeps (k : SlotId) (v b : Nat) (s : State) : Keeps s (s.submitErase k v b) :=
  State.submit_keeps_of rfl

theorem State.sendRequest_keeps (r : SlotRecord) (v : Nat) (t : PullTarget) (p : PeerEntry) (s : State) :
    Keeps s (s.sendRequest r v t p) := by
  unfold State.sendRequest
  simp only
  refine Keeps.trans ?_ (State.send_keeps _ _ (by simp [FrameBody.kind]) (by simp [FrameBody.kind]) _)
  exact ⟨rfl, rfl, rfl, rfl, fun k => { k with }, fun k => { k with },
    fun k => { k with pullCredits := le_trans (Nat.sub_le _ _) k.pullCredits }, fun k => { k with }⟩

theorem State.pullStep_keeps (s : State) : Keeps s s.pullStep := by
  unfold State.pullStep
  extract_lets k r
  split
  · split
    · split
      · split
        · extract_lets s1
          have h1 : Keeps s s1 := Keeps.walk (State.submitErase_keeps _ _) _ _
          split
          · exact h1
          · exact h1.trans (State.sendRequest_keeps _ _ _ _ _)
        · exact Keeps.refl s
      · exact Keeps.refl s
    · exact Keeps.refl s
  · exact Keeps.refl s

/-! ### The outstanding request -/

theorem State.closeRequest_keeps (s : State) : Keeps s s.closeRequest := Keeps.quiet rfl

theorem State.takeRefuse_keeps (sender reason v b : Nat) (s : State) : Keeps s (s.takeRefuse sender reason v b) := by
  unfold State.takeRefuse
  repeat' split
  all_goals first | exact Keeps.refl s | exact Keeps.quiet rfl

theorem State.noteChunk_keeps (sender v i : Nat) (s : State) : Keeps s (s.noteChunk sender v i) := by
  unfold State.noteChunk
  repeat' split
  all_goals first | exact Keeps.refl s | exact Keeps.quiet rfl

/-! ### Taking chunks in -/

theorem State.submitProgram_keeps (k : SlotId) (v i : Nat) (data : List Byte) (x : Supplier) (s : State) :
    Keeps s (s.submitProgram k v i data x).1 := by
  unfold State.submitProgram
  simp only
  split
  · exact (State.submit_keeps_of rfl).trans (State.putSlotRecord_keeps _ _ _)
  · exact State.submit_keeps_of rfl

theorem State.takeChunk_keeps (sender v i : Nat) (data : List Byte) (s : State) : Keeps s (s.takeChunk sender v i data) := by
  have h := State.noteChunk_keeps sender v i s
  unfold State.takeChunk
  simp only
  repeat' split
  all_goals first
    | exact h
    | exact h.trans (State.submitErase_keeps _ _ _ _)
    | exact h.trans (State.submitProgram_keeps _ _ _ _ _ _)

theorem State.seedChunk_keeps (v i : Nat) (data : List Byte) (s : State) : Keeps s (s.seedChunk v i data).1 := by
  unfold State.seedChunk
  simp only
  repeat' split
  all_goals first
    | exact Keeps.refl s
    | exact State.submitErase_keeps _ _ _ _
    | exact State.submitProgram_keeps _ _ _ _ _ _

/-! ### Verification and check -/

theorem State.mapBlock_keeps (k : SlotId) (b : Nat) (f : Block → Block) (s : State) : Keeps s (s.mapBlock k b f) :=
  State.putSlotRecord_keeps _ _ _

theorem State.submitVerify_keeps (k : SlotId) (v b : Nat) (s : State) : Keeps s (s.submitVerify k v b) := by
  unfold State.submitVerify
  split
  · exact (State.submit_keeps_of rfl).trans (State.mapBlock_keeps _ _ _ _)
  · exact Keeps.refl s

theorem State.submitCheck_keeps (k : SlotId) (v : Nat) (s : State) : Keeps s (s.submitCheck k v) := by
  unfold State.submitCheck
  split
  · exact (State.submit_keeps_of rfl).trans (State.putSlotRecord_keeps _ _ _)
  · exact Keeps.refl s

theorem State.submitOwed_keeps (s : State) : Keeps s s.submitOwed := by
  unfold State.submitOwed
  extract_lets k r
  split
  · extract_lets s1 s2
    have h1 : Keeps s s1 := Keeps.walk (fun b s => State.submitVerify_keeps _ _ b s) _ _
    have h2 : Keeps s s2 := by
      unfold s2
      split
      · exact h1.trans (State.submitCheck_keeps _ _ _)
      · exact h1
    exact h2.trans (State.submitManifest_keeps _)
  · exact Keeps.refl s

theorem State.eraseDone_keeps (k : SlotId) (v b : Nat) (ok : Bool) (s : State) : Keeps s (s.eraseDone k v b ok) := by
  unfold State.eraseDone
  split
  · exact State.mapBlock_keeps _ _ _ _
  · exact Keeps.refl s

theorem State.programDone_keeps (k : SlotId) (v i : Nat) (r : StoreResult) (s : State) : Keeps s (s.programDone k v i r) := by
  unfold State.programDone
  split
  · split
    · simp only
      split
      · exact (State.mapBlock_keeps _ _ _ _).trans (State.submitVerify_keeps _ _ _ _)
      · exact State.mapBlock_keeps _ _ _ _
    · exact State.mapBlock_keeps _ _ _ _
    · exact State.mapBlock_keeps _ _ _ _
  · exact Keeps.refl s

theorem State.suspect_keeps (xs : List Supplier) (s : State) : Keeps s (s.suspect xs) := by
  have hid : ∀ p : PeerEntry, (if xs.contains (.peer p.id) then
      { p with suspectUntil := some (max (p.suspectUntil.getD 0) (s.now + Config.suspectTime)) } else p).id = p.id := by
    intro p; split <;> rfl
  have hl : ∀ p : PeerEntry, (if xs.contains (.peer p.id) then
      { p with suspectUntil := some (max (p.suspectUntil.getD 0) (s.now + Config.suspectTime)) } else p).linkCost = p.linkCost := by
    intro p; split <;> rfl
  refine ⟨rfl, rfl, rfl, rfl, fun k => { k with peers := ?_ }, fun k => { k with peers := ?_ },
    fun k => { k with linkCosts := ?_ }, fun k => { k with }⟩
  · simp only [State.suspect, List.length_map]
    exact k.peers
  · simp only [State.suspect]
    rw [List.pairwise_map]
    refine k.peers.imp (fun {a b} hab => ?_)
    rw [hid, hid]
    exact hab
  · intro p hp
    obtain ⟨q, hq, rfl⟩ := List.mem_map.mp hp
    rw [hl]
    exact k.linkCosts q hq

theorem State.enterChecking_keeps (k : SlotId) (v : Nat) (s : State) : Keeps s (s.enterChecking k v) := by
  unfold State.enterChecking
  split
  · exact (State.putSlotRecord_keeps _ _ _).trans (State.submitCheck_keeps _ _ _)
  · exact Keeps.refl s

theorem State.verifyDone_keeps (k : SlotId) (v b : Nat) (r : StoreResult) (s : State) : Keeps s (s.verifyDone k v b r) := by
  unfold State.verifyDone
  split
  · split
    · extract_lets s1 _ s2
      have h1 : Keeps s s1 := State.mapBlock_keeps _ _ _ _
      refine (h1.trans ?_).trans (State.enterChecking_keeps _ _ _)
      exact Keeps.quiet rfl
    · exact Keeps.trans (Keeps.trans (State.mapBlock_keeps _ _ _ _) (State.suspect_keeps _ _)) (State.raise_keeps _ _)
    · exact State.mapBlock_keeps _ _ _ _
  · exact Keeps.refl s

theorem State.checkDone_keeps (k : SlotId) (v : Nat) (r : StoreResult) (s : State) : Keeps s (s.checkDone k v r) := by
  unfold State.checkDone
  split
  · split
    · exact Keeps.trans (Keeps.trans (State.putSlotRecord_keeps _ _ _) (State.raise_keeps _ _)) (State.slotReady_keeps _)
    · refine Keeps.trans (Keeps.trans (State.putSlotRecord_keeps k { s.slot k with state := .failed } s) ?_)
        (State.raise_keeps _ _)
      exact Keeps.quiet rfl
    · exact State.putSlotRecord_keeps _ _ _
  · exact Keeps.refl s

/-! ### Serving (R150, R151) -/

theorem State.demand_keeps (v b start : Nat) (s : State) : Keeps s (s.demand v b start) := by
  unfold State.demand
  simp only
  split
  · exact Keeps.quiet rfl
  · exact Keeps.refl s

/-- A change of the serve queue within its capacity and without duplicates keeps. -/
theorem Keeps.serve {s : State} (l : List ServeRequest)
    (hl : s.dist.serve.length ≤ Config.serveEntries → l.length ≤ Config.serveEntries)
    (hp : (s.dist.serve.Pairwise fun x y => x.peer ≠ y.peer) → l.Pairwise fun x y => x.peer ≠ y.peer) :
    Keeps s { s with dist := { s.dist with serve := l } } :=
  ⟨rfl, rfl, rfl, rfl, fun k => { k with serve := hl k.serve }, fun k => { k with serve := hp k.serve },
    fun k => { k with }, fun k => { k with }⟩

/-- A submission leaves the serve queue alone. -/
theorem State.submit_serve (op : StoreOp) (s : State) : (s.submit op).1.dist.serve = s.dist.serve := by
  rcases State.submit_cases op s with ⟨h1, _⟩ | ⟨h1, _⟩ | ⟨_, _, _, _, ⟨_, _, h1⟩ | ⟨_, h1⟩⟩
  · rw [h1]
  · rw [h1]; unfold State.raiseRefused; split <;> simp
  · rw [h1]; exact (State.markAccepted_same op _).2.2.2.2.2.2.2.1
  · rw [h1]; exact (State.markAccepted_same op _).2.2.2.2.2.2.2.1

theorem serveTurns_keeps (n : Nat) (s : State) : Keeps s (serveTurns n s) := by
  induction n generalizing s with
  | zero => exact Keeps.refl s
  | succ n ih =>
    unfold serveTurns
    split
    · exact Keeps.refl s
    · split
      · exact Keeps.refl s
      · rename_i q rest hq
        have hdrop : Keeps s (serveTurns n { s with dist := { s.dist with serve := rest } }) := by
          refine Keeps.trans (Keeps.serve rest ?_ ?_) (ih _)
          · rw [hq, List.length_cons]; omega
          · rw [hq]; exact fun h => (List.pairwise_cons.mp h).2
        split
        · exact hdrop
        · split
          · exact Keeps.refl s
          · rename_i hroom
            have hr : s.roomForChunk = true := by
              cases h : s.roomForChunk with
              | true => rfl
              | false => exact absurd (Or.inr h) hroom
            split
            · exact hdrop
            extract_lets r _ _ s1
            have h1 : Keeps s r.1 := State.submit_keeps (fun _ => hr)
            have h2 : Keeps s s1 := h1.trans (Keeps.credits r.1.prio.pullCredits (r.1.prio.serveCredits - 1) (fun k => k.pullCredits)
              (fun k => le_trans (Nat.sub_le _ _) k.serveCredits))
            have hs1 : s1.dist.serve = q :: rest := (State.submit_serve _ s).trans hq
            have hput : ∀ q' : ServeRequest, q'.peer = q.peer →
                Keeps s { s1 with dist := { s1.dist with serve := q' :: rest } } := by
              intro q' hq'
              refine h2.trans (Keeps.serve _ ?_ ?_)
              · rw [hs1]; simp
              · rw [hs1]
                intro h
                have := List.pairwise_cons.mp h
                exact List.pairwise_cons.mpr ⟨fun x hx => by rw [hq']; exact this.1 x hx, this.2⟩
            split
            · exact hput _ rfl
            · exact Keeps.trans (hput { q with position := q.position + 1 } rfl) (ih _)

theorem State.serveEngine_keeps (s : State) : Keeps s s.serveEngine := serveTurns_keeps _ _

/-- Entering a request keeps the serve queue within 4, one for a peer, when it is not full or the peer has a place (R150). -/
theorem enqueueServe_kept (q : ServeRequest) (l : List ServeRequest) :
    ((l.length < Config.serveEntries ∨ l.any (fun x => x.peer == q.peer) = true) → l.length ≤ Config.serveEntries →
      (enqueueServe q l).length ≤ Config.serveEntries) ∧
    ((l.Pairwise fun x y => x.peer ≠ y.peer) → (enqueueServe q l).Pairwise fun x y => x.peer ≠ y.peer) := by
  unfold enqueueServe
  split
  · refine ⟨fun _ h => by rw [List.length_map]; exact h, fun h => ?_⟩
    rw [List.pairwise_map]
    refine h.imp (fun {a b} hab => ?_)
    have e : ∀ x : ServeRequest, (if x.peer == q.peer then q else x).peer = x.peer := by
      intro x
      split
      · rename_i hx; simpa using (beq_iff_eq.mp hx).symm
      · rfl
    rw [e, e]
    exact hab
  · rename_i hno
    refine ⟨fun h _ => ?_, fun h => ?_⟩
    · rw [List.length_append, List.length_singleton]
      rcases h with h | h
      · omega
      · exact absurd h hno
    · rw [List.pairwise_append]
      refine ⟨h, List.pairwise_singleton _ _, fun a ha b hb => ?_⟩
      rw [List.mem_singleton] at hb
      subst hb
      intro he
      exact hno (List.any_eq_true.mpr ⟨a, ha, by simpa using he⟩)

theorem State.takeChunkRequest_keeps (sender v b start count mode : Nat) (s : State) :
    Keeps s (s.takeChunkRequest sender v b start count mode) := by
  unfold State.takeChunkRequest
  split
  · exact Keeps.refl s
  · split
    · have h : ∀ reason, Keeps s (s.send sender (.chunkRefuse reason v b)) := fun reason =>
        State.send_keeps _ _ (by simp [FrameBody.kind]) (by simp [FrameBody.kind]) s
      simp only
      split
      · exact (h _).trans (State.demand_keeps _ _ _ _)
      · exact h _
    · rename_i hr
      simp only
      refine Keeps.trans (Keeps.serve _ (fun h => (enqueueServe_kept _ _).1 ?_ h) (enqueueServe_kept _ _).2)
        (State.serveEngine_keeps _)
      unfold State.refusalOf at hr
      split at hr
      · cases hr
      · rename_i hno
        simp only [not_or, not_and, Bool.not_eq_false] at hno
        by_cases hl : s.dist.serve.length < Config.serveEntries
        · exact Or.inl hl
        · exact Or.inr (hno.2 (by omega))

/-- A change of the queued requests that leaves their peers keeps. -/
theorem State.mapServe_keeps {f : ServeRequest → ServeRequest} (hf : ∀ q, (f q).peer = q.peer) (s : State) :
    Keeps s (s.mapServe f) :=
  Keeps.serve _ (fun h => by rw [List.length_map]; exact h) fun h => by
    rw [List.pairwise_map]
    exact h.imp (fun {a b} hab => by rw [hf, hf]; exact hab)

theorem State.passServe_keeps (s : State) : Keeps s (s.mapServe ServeRequest.pass) :=
  State.mapServe_keeps (fun q => by unfold ServeRequest.pass; split <;> rfl) s

/-- Sending a CHUNK into the place its read held keeps (R6). -/
theorem State.sendChunk_keeps (d v i : Nat) (data : List Byte) (s : State)
    (hroom : s.WithinCapacity → s.txCount + 1 ≤ Config.txFrames ∧ s.txChunkCount + 1 ≤ Config.txChunks) :
    Keeps s (s.sendChunk d v i data) := by
  unfold State.sendChunk
  split
  · exact Keeps.refl s
  · unfold State.placeFrame
    refine Keeps.transmit rfl fun k => ?_
    obtain ⟨h1, h2, h3⟩ := State.tx_append s { sender := s.cfg.nodeId, dest := d, body := .chunk v i data }
      { s.pli with tx := s.pli.tx ++ [{ sender := s.cfg.nodeId, dest := d, body := .chunk v i data }], txRun := false } rfl
    have ea : ({ sender := s.cfg.nodeId, dest := d, body := .chunk v i data } : Frame).isAdvert = false := rfl
    have ec : ({ sender := s.cfg.nodeId, dest := d, body := .chunk v i data } : Frame).isChunk = true := rfl
    have := hroom k
    have := k.adverts
    rw [h1, h2, h3, ea, ec]
    simp only [Bool.false_eq_true, if_false, if_true]
    exact ⟨by omega, by omega, by omega⟩

/-- The completion of a serve engine's read keeps; one that read a chunk, when the place its CHUNK needs is free (R126,
R151). -/
theorem State.readDone_keeps (peer : Nat) (k : SlotId) (v i : Nat) (r : StoreResult) (s : State)
    (hroom : (∃ bytes, r = .data bytes) → s.WithinCapacity →
      s.txCount + 1 ≤ Config.txFrames ∧ s.txChunkCount + 1 ≤ Config.txChunks) :
    Keeps s (s.readDone peer k v i r) := by
  have hp := State.passServe_keeps s
  have hu : Keeps s (s.mapServe ServeRequest.unread).serveEngine :=
    (State.mapServe_keeps (f := ServeRequest.unread) (fun _ => rfl) s).trans (State.serveEngine_keeps _)
  unfold State.readDone
  split
  · split
    · refine Keeps.trans ?_ (State.serveEngine_keeps _)
      refine Keeps.trans (Keeps.serve _ ?_ ?_) (State.send_keeps _ _ (by simp [FrameBody.kind]) (by simp [FrameBody.kind]) _)
      · exact fun h => le_trans (List.length_filter_le _ _) h
      · exact fun h => h.filter _
    · exact State.serveEngine_keeps s
  · rename_i bytes
    split
    · refine hp.trans (Keeps.trans (State.sendChunk_keeps _ _ _ _ _ (fun k => ?_)) (State.serveEngine_keeps _))
      by_cases hs : s.WithinCapacity
      · exact hroom ⟨bytes, rfl⟩ hs
      · -- the places are the same before and after the request passes the chunk
        refine absurd ⟨k.rx, k.tx, k.txChunks, k.adverts, k.peers, k.sightings, k.heard, k.refusals, k.holds, k.waiting, ?_, k.notices⟩ hs
        have := k.serve
        simpa [State.mapServe] using this
    · exact hu
  · split
    · exact hp.trans (State.serveEngine_keeps _)
    · exact hu

/-! ### The advert expiry (R9) -/

theorem State.advertExpiry_keeps (due : Nat) (s : State) : Keeps s (s.advertExpiry due) := by
  unfold State.advertExpiry
  extract_lets s1 _ s2 s3
  have h1 : Keeps s s1 := State.placeAdvert_keeps _ _
  have h2 : Keeps s s2 := h1.trans (Keeps.quiet rfl)
  have h3 : Keeps s s3 := h2.trans ((((State.openCredits_keeps _).trans (State.submitOwed_keeps _)).trans
    (State.pullStep_keeps _)).trans (State.serveEngine_keeps _))
  refine Keeps.trans ?_ (State.settle_keeps _)
  split
  · exact h3.trans ((State.pass_keeps _).trans (State.endCheck_keeps _))
  · exact h3

end Sys2Proof.Machine
end

