-- ==== Sys2Proof/Laws/Commands.lean ====
section
/-! SUPPORT. What the commands of the Peer Link, of the Local Port and of the timers keep, unit by unit; and that each
leaves the marks of the event clear. -/

namespace Sys2Proof.Machine

/-! ### Observations (R171) -/

theorem State.clockTo_keeps (t : Nat) (s : State) : Keeps s (s.clockTo t) := Keeps.quiet rfl

theorem State.takeAssociate_keeps (tag : Tag) (b : List Byte) (s : State) : Keeps s (s.takeAssociate tag b) := by
  unfold State.takeAssociate
  extract_lets c rate steerable
  refine Keeps.trans ?_ (State.settle_keeps _)
  split
  · split
    · rename_i r hr
      exact State.associateKnown_keeps _ _ hr
    · exact Keeps.refl s
  · rename_i hn
    exact State.associateNew_keeps _ _ _ s hn

theorem State.takeDisassociate_keeps (tag : Tag) (b : List Byte) (s : State) : Keeps s (s.takeDisassociate tag b) := by
  unfold State.takeDisassociate
  repeat' split
  all_goals first
    | exact Keeps.refl s
    | exact (State.depart_keeps ‹_›).trans (State.settle_keeps _)

theorem State.takeSignal_keeps (tag : Tag) (b : List Byte) (s : State) : Keeps s (s.takeSignal tag b) := by
  unfold State.takeSignal
  split
  · split
    · rename_i r hr
      split
      · simp only
        have h1 := State.putRecord_keeps hr (ClientRecord.smooth_kept r (signedByte b 6))
        exact h1.trans ⟨rfl, rfl, rfl, rfl, fun k => { k with }, fun k => { k with }, fun k => { k with }, fun k => { k with }⟩
      · exact Keeps.refl s
    · exact Keeps.refl s
  · exact Keeps.refl s

theorem State.takeSighting_keeps (tag : Tag) (b : List Byte) (s : State) : Keeps s (s.takeSighting tag b) := by
  unfold State.takeSighting
  simp only
  split
  · exact Keeps.refl s
  · obtain ⟨h1, h2, h3⟩ := hear_kept (clientField b 0) (signedByte b 6) s.now s.clients.heard
    exact ⟨rfl, rfl, rfl, rfl, fun k => { k with heard := h1 k.heard }, fun k => { k with heard := h2 k.heard },
      fun k => { k with heard := h3 k.heard }, fun k => { k with }⟩

theorem State.takeLink_keeps (tag : Tag) (b : List Byte) (s : State) : Keeps s (s.takeLink tag b) := by
  unfold State.takeLink
  simp only
  split
  · refine Keeps.trans (State.mapPeer_keeps _ _ ?_ ?_ s) (State.recomputePath_keeps _)
    · exact fun _ => rfl
    · exact fun _ _ => min_le_right _ _
  · exact Keeps.refl s

theorem State.noteActivity_keeps (c : ClientId) (s : State) : Keeps s (s.noteActivity c) := by
  unfold State.noteActivity
  split
  · split
    · rename_i r hr
      split
      · exact State.putRecord_keeps hr (RecordKept.plain rfl rfl rfl rfl)
      · exact Keeps.refl s
    · exact Keeps.refl s
  · exact Keeps.refl s

theorem State.takeFlowSample_keeps (tag : Tag) (b : List Byte) (s : State) (hrun : s.running = true) :
    Keeps s (s.takeFlowSample tag b) := by
  unfold State.takeFlowSample
  split
  · split
    · rename_i r hr
      split
      · exact (State.sampleFlow_keeps _ _ hrun hr).trans (State.settle_keeps _)
      · exact Keeps.refl s
    · exact Keeps.refl s
  · exact Keeps.refl s

theorem State.takeFlowActive_keeps (tag : Tag) (b : List Byte) (s : State) : Keeps s (s.takeFlowActive tag b) := by
  unfold State.takeFlowActive
  simp only
  have h := State.noteActivity_keeps (clientField b 0) s
  split
  · exact h.trans ((State.flowActivity_keeps _ _).trans (State.settle_keeps _))
  · exact h

theorem State.takeFlowEnd_keeps (tag : Tag) (b : List Byte) (s : State) : Keeps s (s.takeFlowEnd tag b) := by
  unfold State.takeFlowEnd
  simp only
  split
  · split
    · exact (State.removeFlow_keeps _ _).trans (State.settle_keeps _)
    · exact Keeps.refl s
  · exact Keeps.refl s

/-! ### Requests (R172) -/

theorem State.takeSetTime_keeps (tag : Tag) (b : List Byte) (s : State) : Keeps s (s.takeSetTime tag b) := by
  unfold State.takeSetTime
  exact Keeps.trans (Keeps.trans (State.setMesh_keeps _ 0 (Nat.zero_le _) s) (State.timeChanged_keeps _ _)) (State.reply_keeps _ _ _)

theorem State.takeActivateNow_keeps (tag : Tag) (b : List Byte) (s : State) : Keeps s (s.takeActivateNow tag b) := by
  unfold State.takeActivateNow
  extract_lets _ marked
  have h : Keeps s marked := Keeps.quiet rfl
  split
  · exact h.trans ((State.settleWith_keeps _ _).trans (State.reply_keeps _ _ _))
  · exact h.trans (State.reply_keeps _ _ _)
  · exact State.reply_keeps _ _ _
  · exact State.reply_keeps _ _ _
  · exact State.reply_keeps _ _ _

theorem State.takeConfirmImage_keeps (tag : Tag) (b : List Byte) (s : State) : Keeps s (s.takeConfirmImage tag b) := by
  unfold State.takeConfirmImage
  split
  · extract_lets w r
    have h : Keeps s r.1 := Keeps.trans (State.newWrite_keeps _ _ _ s) (State.submitSelector_keeps _ _)
    split
    · exact h
    · exact h.trans (State.reply_keeps _ _ _)
  · exact State.reply_keeps _ _ _

theorem State.takeWriteConfig_keeps (tag : Tag) (b : List Byte) (s : State) : Keeps s (s.takeWriteConfig tag b) := by
  unfold State.takeWriteConfig
  split
  · exact State.reply_keeps _ _ _
  · split
    · exact State.reply_keeps _ _ _
    · simp only
      split
      · exact State.submit_keeps_of rfl
      · exact (State.submit_keeps_of rfl).trans (State.reply_keeps _ _ _)

theorem State.takeReadRecord_keeps (tag : Tag) (b : List Byte) (s : State) : Keeps s (s.takeReadRecord tag b) := by
  unfold State.takeReadRecord
  extract_lets kind index
  split
  · split
    · exact State.submit_keeps_of rfl
    · exact (State.submit_keeps_of rfl).trans (State.reply_keeps _ _ _)
  · split
    · exact State.replyWith_keeps _ _ _
    · exact State.reply_keeps _ _ _

/-- What a unit does with a message keeps (R171, R172). -/
theorem State.handle_keeps (k : HostKind) (tag : Tag) (b : List Byte) (s : State) (hrun : s.running = true) :
    Keeps s (s.handle k tag b) := by
  cases k with
  | associate => exact State.takeAssociate_keeps tag b s
  | disassociate => exact State.takeDisassociate_keeps tag b s
  | signal => exact State.takeSignal_keeps tag b s
  | sighting => exact State.takeSighting_keeps tag b s
  | link => exact State.takeLink_keeps tag b s
  | clientActivity => exact State.noteActivity_keeps (clientField b 0) s
  | flowSample => exact State.takeFlowSample_keeps tag b s hrun
  | flowActive => exact State.takeFlowActive_keeps tag b s
  | flowEnd => exact State.takeFlowEnd_keeps tag b s
  | loadBook => exact (State.loadBook_keeps _ _).trans (State.reply_keeps _ _ _)
  | setTime => exact State.takeSetTime_keeps tag b s
  | seedManifest => exact (State.seedManifest_keeps _ _).trans (State.reply_keeps _ _ _)
  | seedChunk => exact (State.seedChunk_keeps _ _ _ _).trans (State.reply_keeps _ _ _)
  | activateNow => exact State.takeActivateNow_keeps tag b s
  | confirmImage => exact State.takeConfirmImage_keeps tag b s
  | readRecord => exact State.takeReadRecord_keeps tag b s
  | writeConfig => exact State.takeWriteConfig_keeps tag b s

theorem State.takeMessage_keeps (k : HostKind) (m : HostMsg) (s : State) (hrun : s.running = true) :
    Keeps s (s.takeMessage k m) := by
  unfold State.takeMessage
  split
  · exact Keeps.refl s
  · split
    · exact State.reply_keeps _ _ _
    · exact State.handle_keeps _ _ _ _ hrun

theorem State.portOpen_running {s : State} (h : s.portOpen = true) : s.running = true := by
  unfold State.portOpen at h
  simp only [Bool.and_eq_true] at h
  exact h.1

theorem State.hostMessage_keeps (k : HostKind) (t : Nat) (m : HostMsg) (s : State) : Keeps s (s.hostMessage k t m) := by
  unfold State.hostMessage
  simp only
  have h := State.clockTo_keeps t s
  split
  · rename_i ho
    simp only [Bool.and_eq_true] at ho
    exact h.trans (State.takeMessage_keeps _ _ _ (State.portOpen_running ho.1))
  · exact h.trans (Keeps.quiet rfl)

theorem drain_keeps (l : List (HostKind × HostMsg)) (s : State) : Keeps s (drain l s) := by
  induction l generalizing s with
  | nil => exact Keeps.refl s
  | cons x l ih =>
    obtain ⟨k, m⟩ := x
    unfold drain
    split
    · rename_i ho
      have h : Keeps s { s with port := { s.port with link := l } } := Keeps.quiet rfl
      exact (h.trans (State.takeMessage_keeps k m _ (State.portOpen_running ho))).trans (ih _)
    · exact Keeps.refl s

theorem State.resume_keeps (s : State) : Keeps s s.resume := drain_keeps _ _

/-! ### Sending (R175, R176) -/

theorem State.releaseSent_keeps (j : Fin 128) (s : State) : Keeps s (s.releaseSent j) := by
  unfold State.releaseSent
  split
  · rename_i d c hj
    have hfl : ∀ k, ({ s with prio := { s.prio with flows := putSlot s.prio.flows j .free } } : State).flow k =
        if j = k then FlowSlot.free else s.flow k := by
      intro k
      by_cases hjk : j = k
      · subst hjk
        rw [if_pos rfl]
        exact putSlot_get_same _ _ _
      · rw [if_neg hjk]
        exact putSlot_get_other _ _ _ _ hjk
    have hback : ∀ i f, ({ s with prio := { s.prio with flows := putSlot s.prio.flows j .free } } : State).flow i = .used f →
        s.flow i = .used f := by
      intro i f hf
      rw [hfl] at hf
      split at hf
      · cases hf
      · exact hf
    refine ⟨rfl, rfl, rfl, rfl, fun k => { k with },
      fun k => { k with flows := fun i i' f g hi hi' => k.flows i i' f g (hback i f hi) (hback i' g hi') }, fun k => { k with },
      fun k => { k with ceiling := ?_, owned := ?_, starting := ?_ }⟩
    · have h := sum_putSlot s.prio.flows j .free
      have h0 : (s.prio.flows[j]).heldShare = 0 := by
        have : s.prio.flows[j] = .release d c := hj
        rw [this]; rfl
      have hc := k.ceiling
      simp only [State.ownReserved] at hc ⊢
      have hz : FlowSlot.free.heldShare = 0 := rfl
      omega
    · exact fun i f hf => k.owned i f (hback i f hf)
    · intro hn i
      rw [hfl]
      split
      · rfl
      · exact k.starting hn i
  · exact Keeps.refl s
  · exact Keeps.refl s

theorem State.setClassMark_keeps (j : Fin 128) (v : Bool) (s : State) : Keeps s (s.setClassMark j v) := Keeps.quiet rfl

theorem State.nextDirective_keeps {s s' : State} {m : PortMessage} (h : s.nextDirective = some (m, s')) : Keeps s s' := by
  unfold State.nextDirective at h
  split at h
  · cases h; exact Keeps.quiet rfl
  · split at h
    · cases h; exact Keeps.quiet rfl
    · simp only at h
      split at h
      · rename_i x hx
        cases h
        obtain ⟨i, _, hi⟩ := List.exists_of_findSome?_eq_some hx
        split at hi
        · obtain ⟨r, _, hr⟩ := Option.map_eq_some_iff.mp hi
          cases hr
          exact State.setAccessMark_keeps _ _ _
        · cases hi
      · rename_i x _ hx
        cases h
        obtain ⟨i, _, hi⟩ := List.exists_of_findSome?_eq_some hx
        split at hi
        · obtain ⟨r, _, hr⟩ := Option.map_eq_some_iff.mp hi
          cases hr
          exact State.setSteerMark_keeps _ _ _
        · cases hi
      · obtain ⟨j, _, hj⟩ := List.exists_of_findSome?_eq_some h
        split at hj
        · obtain ⟨r, _, hr⟩ := Option.map_eq_some_iff.mp hj
          cases hr
          exact (State.releaseSent_keeps _ _).trans (State.setClassMark_keeps _ _ _)
        · cases hj

theorem State.nextMessage_keeps {s s' : State} {m : PortMessage} (h : s.nextMessage = some (m, s')) : Keeps s s' := by
  unfold State.nextMessage at h
  split at h
  · cases h; exact Keeps.quiet rfl
  · rename_i c rest _ hr
    cases h
    exact Keeps.refusals rest (fun k => by have := k.refusals; rw [hr, List.length_cons] at this; omega)
      fun k => by rw [hr] at k; exact (List.nodup_cons.mp k).2
  · split at h
    · rename_i x hx
      cases h
      exact State.nextDirective_keeps hx
    · split at h
      · rename_i n rest hn
        cases h
        refine ⟨rfl, rfl, rfl, rfl, fun k => { k with notices := ?_ }, fun k => { k with }, fun k => { k with }, fun k => { k with }⟩
        have := k.notices
        rw [hn, List.length_cons] at this
        simp only
        omega
      · cases h

theorem State.sendNext_keeps (s : State) : Keeps s s.sendNext := by
  unfold State.sendNext
  split
  · rename_i m s1 h
    exact (State.nextMessage_keeps h).trans (Keeps.quiet rfl)
  · exact Keeps.refl s

theorem State.accept_keeps (s : State) : Keeps s s.accept := by
  unfold State.accept
  split
  · exact (State.sendNext_keeps s).trans (State.resume_keeps _)
  · exact Keeps.refl s

theorem State.evaluateNext_keeps (s : State) : Keeps s s.evaluateNext := by
  unfold State.evaluateNext
  split
  · split
    · refine Keeps.trans (Keeps.trans ?_ (State.evaluateClient_keeps _ _)) (State.settle_keeps _)
      exact ⟨rfl, rfl, rfl, rfl, fun k => { k with }, fun k => { k with }, fun k => { k with }, fun k => { k with }⟩
    · exact Keeps.refl s
  · exact Keeps.refl s

/-! ### Frames (R2 to R8) -/

theorem State.queueFrame_keeps (f : Frame) (s : State) : Keeps s (s.queueFrame f) := by
  unfold State.queueFrame
  split
  · rename_i hlt
    refine ⟨rfl, rfl, rfl, rfl, fun k => { k with rx := ?_ }, fun k => { k with }, fun k => { k with }, fun k => { k with }⟩
    rw [List.length_append, List.length_singleton]
    omega
  · split
    · exact Keeps.refl s
    · exact Keeps.trans (u := { s with pli := { s.pli with rxRun := true } }) (Keeps.quiet rfl) (State.raise_keeps _ _)

theorem State.receive_keeps (w : WireFrame) (s : State) : Keeps s (s.receive w) := by
  unfold State.receive
  split
  · split
    · exact State.queueFrame_keeps _ _
    · exact Keeps.refl s
  · exact Keeps.refl s

/-- A frame taken by its unit keeps when what the unit does keeps (R3). -/
theorem State.onFrame_keeps {k : FrameKind} {take : Frame → State → State}
    (h : ∀ f s, s.running = true → Keeps s (take f s)) (t : Nat) (s : State) : Keeps s (s.onFrame k take t) := by
  unfold State.onFrame
  simp only
  have hc := State.clockTo_keeps t s
  split
  · rename_i f rest hrx
    split
    · rename_i hr
      simp only [Bool.and_eq_true] at hr
      have hq : Keeps (s.clockTo t) { s.clockTo t with pli := { (s.clockTo t).pli with rx := rest } } := by
        refine ⟨rfl, rfl, rfl, rfl, fun k => { k with rx := ?_ }, fun k => { k with }, fun k => { k with }, fun k => { k with }⟩
        have := k.rx
        rw [hrx, List.length_cons] at this
        simp only
        omega
      exact hc.trans (Keeps.trans (hq.trans (h f _ hr.1)) (State.settle_keeps _))
    · exact hc
  · exact hc

theorem State.hearAirtime_keeps (s : State) : Keeps s s.hearAirtime := by
  unfold State.hearAirtime
  simp only
  refine Keeps.trans (Keeps.trans (State.overshoot_keeps s) ?_) (State.cutCredits_keeps _)
  refine Keeps.trans ?_ (State.round_keeps _)
  exact Keeps.quiet rfl

theorem State.handOn_keeps (peer : Nat) (a : Advert) (s : State) : Keeps s (s.handOn peer a) := by
  unfold State.handOn
  simp only
  exact Keeps.trans (Keeps.trans (Keeps.trans (Keeps.trans (State.hearTime_keeps _ _ _ _) (State.hearBook_keeps _ _ _ _))
    (State.hearImage_keeps _ _ _)) (State.hearAirtime_keeps _)) (State.hearFlags_keeps _ _ _)

theorem State.takeAdvert_keeps (f : Frame) (s : State) : Keeps s (s.takeAdvert f) := by
  unfold State.takeAdvert
  split
  · split
    · exact State.raise_keeps _ _
    · split
      · split
        · rename_i s1 h1
          exact Keeps.trans (Keeps.trans (Keeps.trans (State.enterPeer_keeps h1) (State.recomputePath_keeps _))
            (State.fileSightings_keeps _ _ _)) (State.handOn_keeps _ _ _)
        · exact Keeps.refl s
      · exact Keeps.refl s
  · exact Keeps.refl s

theorem State.frameTaken_keeps (s : State) : Keeps s s.frameTaken := by
  unfold State.frameTaken
  split
  · rename_i f rest htx
    split
    · refine Keeps.trans ?_ (State.serveEngine_keeps _)
      have e : ∀ p : Frame → Bool, (rest.filter p).length ≤ (s.pli.tx.filter p).length := by
        intro p
        rw [htx]
        cases hp : p f <;> simp [hp]
      refine ⟨rfl, rfl, rfl, rfl, fun k => { k with tx := ?_, txChunks := ?_, adverts := ?_ }, fun k => { k with },
        fun k => { k with }, fun k => { k with }⟩
      · have h1 := k.tx
        have h2 := e fun f => !f.isAdvert
        simp only [State.txCount, State.heldPlaces, State.storeOps] at h1 ⊢
        omega
      · have h1 := k.txChunks
        have h2 := e Frame.isChunk
        simp only [State.txChunkCount, State.heldPlaces, State.storeOps] at h1 ⊢
        omega
      · exact le_trans (e _) k.adverts
    · exact Keeps.refl s
  · exact Keeps.refl s

/-! ### Timers -/

/-- An expiry keeps when what it does keeps. -/
theorem State.expire_keeps {due : Option Nat} {take : Nat → State → State} (h : ∀ d s, Keeps s (take d s)) (s : State) :
    Keeps s (s.expire due take) := by
  unfold State.expire
  split
  · split
    · exact (State.clockTo_keeps _ s).trans (h _ _)
    · exact Keeps.refl s
  · exact Keeps.refl s

theorem State.goStale_keeps (id : Nat) (s : State) : Keeps s (s.goStale id) := by
  unfold State.goStale
  refine Keeps.trans (Keeps.trans (Keeps.trans (State.mapPeer_keeps id _ ?_ ?_ s) (State.recomputePath_keeps _))
    (State.cutCredits_keeps _)) (State.settleWith_keeps _ _)
  · exact fun _ => rfl
  · exact fun _ h => h

theorem State.losePeer_keeps (id : Nat) (s : State) : Keeps s (s.losePeer id) := by
  unfold State.losePeer
  exact Keeps.trans (Keeps.trans (Keeps.trans (Keeps.trans (State.dropPeer_keeps id s) (State.recomputePath_keeps _))
    (State.raise_keeps _ _)) (State.cutCredits_keeps _)) (State.settleWith_keeps _ _)

theorem State.mapClient_keeps (c : ClientId) (f : ClientRecord → ClientRecord) (hf : ∀ r, RecordKept r (f r)) (s : State) :
    Keeps s (s.mapClient c f) := by
  unfold State.mapClient
  split
  · split
    · rename_i r hr
      exact State.putRecord_keeps hr (hf r)
    · exact Keeps.refl s
  · exact Keeps.refl s

theorem State.handoffEnds_keeps (c : ClientId) {take : Fin 64 → ClientRecord → State → State}
    (h : ∀ i r s, s.record i = some r → Keeps s (take i r s)) (s : State) : Keeps s (s.handoffEnds c take) := by
  unfold State.handoffEnds
  split
  · split
    · rename_i r hr
      exact (h _ r s hr).trans (State.settle_keeps _)
    · exact Keeps.refl s
  · exact Keeps.refl s

theorem State.tickAt_keeps (due : Nat) (s : State) : Keeps s (s.tickAt due) := by
  unfold State.tickAt
  refine Keeps.trans (Keeps.trans ?_ (State.tickTime_keeps _)) (State.submitBook_keeps _)
  exact Keeps.quiet rfl

/-- Changing a slot's flow that stays with its client and holds no more airtime keeps. -/
theorem State.mapFlow_keeps (j : Fin 128) (f : FlowRecord → FlowRecord)
    (hf : ∀ x, (f x).slot = x.slot ∧ (f x).client = x.client ∧ (f x).digest = x.digest ∧ (FlowSlot.used (f x)).heldShare ≤ (FlowSlot.used x).heldShare)
    (s : State) : Keeps s (s.mapFlow j f) := by
  unfold State.mapFlow
  split
  · rename_i x hx
    exact State.putFlow_keeps_of_flow hx (hf x).1 (hf x).2.1 (hf x).2.2.1 (hf x).2.2.2
  · exact Keeps.refl s
  · exact Keeps.refl s

theorem State.limitReached_keeps (s : State) : Keeps s s.limitReached := by
  unfold State.limitReached
  split
  · exact (State.commit_keeps s).trans (State.settle_keeps _)
  · exact Keeps.refl s

theorem State.confirmEnds_keeps (s : State) : Keeps s s.confirmEnds := by
  unfold State.confirmEnds
  extract_lets _ s1
  have h : Keeps s s1 := Keeps.quiet rfl
  split
  · exact h.trans (Keeps.quiet rfl)
  · exact h.trans (State.confirmExpired_keeps _)

theorem State.retryEnds_keeps (s : State) : Keeps s s.retryEnds := by
  unfold State.retryEnds
  split
  · split
    · exact Keeps.quiet rfl
    · exact Keeps.trans (u := { s with act := { s.act with retryDue := none } }) (Keeps.quiet rfl) (State.submitRetried_keeps _ _)
  · exact Keeps.refl s

end Sys2Proof.Machine
end

