-- ==== Sys2Proof/Laws/Starts.lean ====
section
/-! SUPPORT. What the start sequence and the delivery of completions keep, and what a start leaves. -/

namespace Sys2Proof.Machine

/-- What a step of the start sequence keeps: all of `Keeps` but the configuration, in a part that is starting. -/
structure SeqKeeps (s s' : State) : Prop where
  pending : s'.pending = s.pending
  flash : s'.store.flash = s.store.flash
  starting : s.running = false → s'.running = false
  capacity : s.WithinCapacity → s'.WithinCapacity
  distinct : s.EntriesDistinct → s'.EntriesDistinct
  range : s.WithinRange → s'.WithinRange
  airtime : s.running = false → s.AirtimeKept → s'.AirtimeKept

theorem SeqKeeps.refl (s : State) : SeqKeeps s s := ⟨rfl, rfl, id, id, id, id, fun _ => id⟩

theorem SeqKeeps.trans {s u t : State} (h : SeqKeeps s u) (k : SeqKeeps u t) : SeqKeeps s t :=
  ⟨k.pending.trans h.pending, k.flash.trans h.flash, k.starting ∘ h.starting, k.capacity ∘ h.capacity, k.distinct ∘ h.distinct,
    k.range ∘ h.range, fun hr ha => k.airtime (h.starting hr) (h.airtime hr ha)⟩

theorem Keeps.seq {s s' : State} (h : Keeps s s') : SeqKeeps s s' :=
  ⟨h.pending, h.flash, fun hr => h.running.trans hr, h.capacity, h.distinct, h.range, fun _ => h.airtime⟩

/-- A part that holds no flow has no airtime reserved. -/
theorem ownReserved_zero {s : State} (h : ∀ j : Fin 128, (s.flow j).isUsed = false) : s.ownReserved = 0 := by
  unfold State.ownReserved
  rw [List.sum_eq_zero]
  intro n hn
  obtain ⟨x, hx, rfl⟩ := List.mem_map.mp hn
  obtain ⟨i, hi, rfl⟩ := List.mem_iff_getElem.mp hx
  have hj := h ⟨i, by simpa using hi⟩
  simp only [State.flow, Fin.getElem_fin] at hj
  rw [Vector.getElem_toList]
  cases he : s.prio.flows[i]'(by simpa using hi) with
  | free => rfl
  | release d c => rfl
  | used f => rw [he] at hj; cases hj

/-- An update of what no predicate reads keeps. -/
theorem SeqKeeps.quiet {s s' : State} (h : s'.core = s.core) : SeqKeeps s s' := (Keeps.quiet h).seq

/-- Entering a stage before the last keeps. -/
theorem State.stageAt_keeps (st : Stage) (hst : st ≠ .running) (s : State) : SeqKeeps s (s.stageAt st) := by
  have hr : (s.stageAt st).running = false := by simp [State.running, State.stageAt, hst]
  exact ⟨rfl, rfl, fun _ => hr, fun k => { k with }, fun k => { k with }, fun k => { k with },
    fun h k => { ceiling := k.ceiling, owned := k.owned, oneRecord := k.oneRecord, starting := fun _ => k.starting h }⟩

/-- Settling the configuration of a part that is starting keeps (R166). -/
theorem State.setConfig_keeps (c : ActiveConfig) (s : State) : SeqKeeps s { s with cfg := c } := by
  refine ⟨rfl, rfl, id, fun k => { k with }, fun k => { k with }, fun k => { k with },
    fun h k => { ceiling := ?_, owned := k.owned, oneRecord := k.oneRecord, starting := k.starting }⟩
  have := ownReserved_zero (k.starting h)
  have e : ({ s with cfg := c } : State).ownReserved = s.ownReserved := rfl
  omega

theorem State.startOp_keeps (st : Stage) (hst : st ≠ .running) (kind : OpKind) (s : State) : SeqKeeps s (s.startOp st kind) :=
  (State.stageAt_keeps st hst s).trans (State.submit_keeps_of rfl).seq

theorem State.learnSelector_keeps (a b : Option (List Byte)) (s : State) : SeqKeeps s (s.learnSelector a b) :=
  SeqKeeps.quiet rfl

/-- Recording what the sequence decided keeps. -/
theorem State.setSeq_keeps (q : StartSeq) (s : State) (h : q.stage = s.seq.stage) : SeqKeeps s { s with seq := q } := by
  have hr : ({ s with seq := q } : State).running = s.running := by simp [State.running, h]
  exact ⟨rfl, rfl, fun k => hr.trans k, fun k => { k with }, fun k => { k with }, fun k => { k with },
    fun _ k => { ceiling := k.ceiling, owned := k.owned, oneRecord := k.oneRecord, starting := fun hn => k.starting (hr ▸ hn) }⟩

theorem State.seqReady_keeps (s : State) : SeqKeeps s s.seqReady := State.stageAt_keeps _ (by simp) s

theorem State.seqVerify_keeps (b : Nat) (m : Bool) (s : State) : SeqKeeps s (s.seqVerify b m) := by
  unfold State.seqVerify
  split
  · exact State.startOp_keeps _ (by simp) _ _
  · exact State.seqReady_keeps s

theorem State.seqRebuild_keeps (ma mb : Option Manifest) (s : State) : SeqKeeps s (s.seqRebuild ma mb) := by
  unfold State.seqRebuild
  extract_lets booted k mBooted mSpare _ s1 s2 _ s3
  have h1 : SeqKeeps s s1 := by
    refine (Keeps.trans ?_ (State.putSlotRecord_keeps _ _ _)).seq
    exact Keeps.quiet rfl
  have h2 : SeqKeeps s s2 := h1.trans (State.putSlotRecord_keeps _ _ _).seq
  have h3 : SeqKeeps s s3 := h2.trans (SeqKeeps.quiet rfl)
  split
  · exact (h3.trans (State.raise_keeps _ _).seq).trans (State.startOp_keeps _ (by simp) _ _)
  · split
    · exact (h1.trans (State.putSlotRecord_keeps _ _ _).seq).trans (State.seqReady_keeps _)
    · cases mSpare
      · exact (h1.trans (State.putSlotRecord_keeps _ _ _).seq).trans (State.seqReady_keeps _)
      · exact (h1.trans (State.putSlotRecord_keeps _ _ _).seq).trans (State.seqVerify_keeps _ _ _)

theorem State.seqVerified_keeps (b : Nat) (m : Bool) (s : State) : SeqKeeps s (s.seqVerified b m) := by
  unfold State.seqVerified
  simp only
  split
  · exact State.seqVerify_keeps _ _ _
  · split
    · exact State.startOp_keeps _ (by simp) _ _
    · exact (State.putSlotRecord_keeps _ _ _).seq.trans (State.seqReady_keeps _)

theorem State.seqChecked_keeps (m : Bool) (s : State) : SeqKeeps s (s.seqChecked m) := by
  unfold State.seqChecked
  simp only
  exact (State.putSlotRecord_keeps _ _ _).seq.trans (State.seqReady_keeps _)

theorem State.seqWrite_keeps (p : SelPurpose) (sel : Selector) (waitAt : Nat → Stage) (hw : ∀ n, waitAt n ≠ .running)
    (goOn : State → State) (hg : ∀ s, SeqKeeps s (goOn s)) (s : State) : SeqKeeps s (s.seqWrite p sel waitAt goOn) := by
  unfold State.seqWrite
  simp only
  have h := ((State.newWrite_keeps .start p sel s).seq.trans (State.stageAt_keeps (waitAt (s.newWrite .start p sel).1.order)
    (hw _) _)).trans (State.submitSelector_keeps (s.newWrite .start p sel).1 _).seq
  split
  · exact h
  · exact (h.trans (State.startRetry_keeps _ _).seq).trans (hg _)

theorem State.seqBook_keeps (s : State) : SeqKeeps s s.seqBook := State.startOp_keeps _ (by simp) _ _

theorem State.seqAction_keeps (s : State) : SeqKeeps s s.seqAction := by
  have hw : ∀ (p : SelPurpose) (sel : Selector) (t : State), SeqKeeps t (t.seqWrite p sel .writeSelector State.seqBook) :=
    fun p sel t => State.seqWrite_keeps p sel _ (fun _ => by simp) _ State.seqBook_keeps t
  unfold State.seqAction
  simp only
  split
  · refine SeqKeeps.trans (State.setSeq_keeps _ s ?_) (hw _ _ _)
    rfl
  · split
    · refine SeqKeeps.trans (State.setSeq_keeps _ s ?_) (hw _ _ _)
      rfl
    · split
      · refine SeqKeeps.trans (State.setSeq_keeps _ s ?_) (hw _ _ _)
        rfl
      · exact State.seqBook_keeps s

theorem State.seqConfig_keeps (b : Option (List Byte)) (s : State) : SeqKeeps s (s.seqConfig b) := by
  unfold State.seqConfig
  exact (State.setConfig_keeps _ s).trans (State.startOp_keeps _ (by simp) _ _)

theorem State.seqActive_keeps (a b : Option (List Byte)) (s : State) : SeqKeeps s (s.seqActive a b) := by
  unfold State.seqActive
  split
  · exact State.seqConfig_keeps _ _
  · split
    · exact State.seqConfig_keeps _ _
    · exact State.startOp_keeps _ (by simp) _ _

theorem State.seqStaged_keeps (s : State) : SeqKeeps s s.seqStaged := State.startOp_keeps _ (by simp) _ _

theorem State.seqEraseStaged_keeps (a : Bool) (s : State) : SeqKeeps s (s.seqEraseStaged a) :=
  State.startOp_keeps _ (by simp) _ _

theorem State.seqEraseManifest_keeps (a : Bool) (s : State) : SeqKeeps s (s.seqEraseManifest a) :=
  State.startOp_keeps _ (by simp) _ _

theorem State.seqErase_keeps (b : Nat) (a : Bool) (s : State) : SeqKeeps s (s.seqErase b a) :=
  State.startOp_keeps _ (by simp) _ _

theorem State.seqRecover_keeps (s : State) : SeqKeeps s s.seqRecover := by
  unfold State.seqRecover
  simp only
  split
  · exact State.seqWrite_keeps _ _ _ (fun _ => by simp) _ (State.seqEraseStaged_keeps false) _
  · exact State.seqErase_keeps _ _ _

theorem State.seqPromoted_keeps (x : List Byte) (ok : Bool) (s : State) : SeqKeeps s (s.seqPromoted x ok) := by
  unfold State.seqPromoted
  split
  · exact State.startOp_keeps _ (by simp) _ _
  · exact State.seqConfig_keeps _ _

theorem State.noteRevert_stage (p : SelPurpose) (ok : Bool) (s : State) : (s.noteRevert p ok).seq.stage = s.seq.stage := by
  unfold State.noteRevert
  split <;> rfl

/-- Noting a revert changes nothing once a start has completed. -/
theorem State.noteRevert_running (p : SelPurpose) (ok : Bool) (s : State) (h : s.seq.stage = .running) :
    s.noteRevert p ok = s := by
  unfold State.noteRevert
  rw [if_neg]
  simp [h]

theorem State.noteRevert_keeps (p : SelPurpose) (ok : Bool) (s : State) : SeqKeeps s (s.noteRevert p ok) := by
  unfold State.noteRevert
  split
  · refine State.setSeq_keeps _ s ?_
    rfl
  · exact SeqKeeps.refl s

theorem State.seqSelectorDone_keeps (n : Nat) (p : SelPurpose) (ok : Bool) (s : State) : SeqKeeps s (s.seqSelectorDone n p ok) := by
  unfold State.seqSelectorDone
  refine (State.noteRevert_keeps p ok s).trans ?_
  simp only
  split
  · split
    · split
      · exact State.seqErase_keeps _ _ _
      · exact State.seqEraseStaged_keeps _ _
    · exact SeqKeeps.refl _
  · split
    · exact State.seqBook_keeps _
    · exact SeqKeeps.refl _
  · exact SeqKeeps.refl _

theorem State.seqNext_keeps (r : StoreResult) (s : State) : SeqKeeps s (s.seqNext r) := by
  unfold State.seqNext
  split
  · exact State.startOp_keeps _ (by simp) _ _
  · exact (State.learnSelector_keeps _ _ s).trans (State.seqRecover_keeps _)
  · split
    · exact State.seqErase_keeps _ _ _
    · split
      · exact State.seqErase_keeps _ _ _
      · exact State.seqEraseManifest_keeps _ _
  · split
    · exact State.seqEraseManifest_keeps _ _
    · exact State.seqEraseStaged_keeps _ _
  · split
    · exact State.seqEraseStaged_keeps _ _
    · exact State.seqStaged_keeps _
  · exact State.startOp_keeps _ (by simp) _ _
  · exact State.seqActive_keeps _ _ _
  · exact State.seqPromoted_keeps _ _ _
  · exact State.seqConfig_keeps _ _
  · exact State.startOp_keeps _ (by simp) _ _
  · exact (State.learnSelector_keeps _ _ s).trans (State.seqAction_keeps _)
  · refine SeqKeeps.trans ?_ (State.startOp_keeps _ (by simp) _ _)
    exact SeqKeeps.quiet rfl
  · refine SeqKeeps.trans (State.setSeq_keeps _ s ?_) (State.startOp_keeps _ (by simp) _ _)
    rfl
  · exact State.seqRebuild_keeps _ _ _
  · exact State.seqReady_keeps _
  · exact State.seqVerified_keeps _ _ _
  · exact State.seqChecked_keeps _ _
  · exact SeqKeeps.refl s
  · exact SeqKeeps.refl s
  · exact SeqKeeps.refl s
  · exact SeqKeeps.refl s
  · exact SeqKeeps.refl s

/-! ### Delivery (R131) -/

/-- What the delivery of a completion keeps. -/
structure Passes (s s' : State) : Prop where
  pending : s'.pending = s.pending
  flash : s'.store.flash = s.store.flash
  capacity : s.WithinCapacity → s'.WithinCapacity
  distinct : s.EntriesDistinct → s'.EntriesDistinct
  range : s.WithinRange → s'.WithinRange
  airtime : s.AirtimeKept → s'.AirtimeKept

theorem Passes.refl (s : State) : Passes s s := ⟨rfl, rfl, id, id, id, id⟩

theorem Passes.trans {s u t : State} (h : Passes s u) (k : Passes u t) : Passes s t :=
  ⟨k.pending.trans h.pending, k.flash.trans h.flash, k.capacity ∘ h.capacity, k.distinct ∘ h.distinct, k.range ∘ h.range,
    k.airtime ∘ h.airtime⟩

theorem Keeps.passes {s s' : State} (h : Keeps s s') : Passes s s' :=
  ⟨h.pending, h.flash, h.capacity, h.distinct, h.range, h.airtime⟩

theorem SeqKeeps.passes {s s' : State} (h : SeqKeeps s s') (hr : s.running = false) : Passes s s' :=
  ⟨h.pending, h.flash, h.capacity, h.distinct, h.range, h.airtime hr⟩

/-- The sequence waits for nothing once a start has completed. -/
theorem Stage.waitsFor_starting {s : State} {kind : OpKind} (h : s.seq.stage.waitsFor kind = true) : s.running = false := by
  cases hr : s.running with
  | false => rfl
  | true =>
    simp only [State.running, beq_iff_eq] at hr
    rw [hr] at h
    simp [Stage.waitsFor] at h

theorem State.seqDone_passes (kind : OpKind) (r : StoreResult) (s : State) : Passes s (s.seqDone kind r) := by
  unfold State.seqDone
  split
  · rename_i h
    exact (State.seqNext_keeps r s).passes (Stage.waitsFor_starting h)
  · exact Passes.refl s

theorem State.seqSelectorDone_passes (n : Nat) (p : SelPurpose) (ok : Bool) (s : State) : Passes s (s.seqSelectorDone n p ok) := by
  cases hr : s.running with
  | false => exact (State.seqSelectorDone_keeps n p ok s).passes hr
  | true =>
    simp only [State.running, beq_iff_eq] at hr
    have : s.seqSelectorDone n p ok = s := by
      unfold State.seqSelectorDone
      simp only [State.noteRevert_running p ok s hr, hr]
    rw [this]
    exact Passes.refl s

theorem State.deliverSelector_passes (o : Owner) (n : Nat) (p : SelPurpose) (sel : Selector) (r : StoreResult) (s : State) :
    Passes s (s.deliverSelector o n p sel r) := by
  unfold State.deliverSelector
  extract_lets w s1
  have h1 : Passes s s1 := by
    unfold s1
    split
    · exact (State.selectorWritten_keeps w s).passes
    · exact (State.selectorFailed_keeps w s).passes
  split
  · exact h1.trans (State.seqSelectorDone_passes _ _ _ _)
  · exact h1

theorem State.deliverFill_keeps (kind : OpKind) (r : StoreResult) (s : State) : Keeps s (s.deliverFill kind r) := by
  unfold State.deliverFill
  split
  · exact State.eraseDone_keeps _ _ _ _ _
  · exact State.programDone_keeps _ _ _ _ _
  · exact State.verifyDone_keeps _ _ _ _ _
  · exact State.checkDone_keeps _ _ _ _
  · exact State.manifestWritten_keeps _ _ _ _
  · exact Keeps.refl s

/-- The delivery of a completion keeps; of a serve engine's read that has read its chunk, when the place its CHUNK needs
is free. -/
theorem State.deliver_passes (op : StoreOp) (r : StoreResult) (s : State)
    (hroom : op.isServe = true → (∃ bytes, r = .data bytes) → s.WithinCapacity →
      s.txCount + 1 ≤ Config.txFrames ∧ s.txChunkCount + 1 ≤ Config.txChunks) :
    Passes s (s.deliver op r) := by
  unfold State.deliver
  split
  · exact State.deliverSelector_passes _ _ _ _ _ _
  · split
    · exact State.seqDone_passes _ _ _
    · exact (State.deliverFill_keeps _ _ _).passes
    · rename_i peer block ho
      split
      · exact (State.readDone_keeps _ _ _ _ _ _ (hroom (by simp [StoreOp.isServe, ho]))).passes
      · exact Passes.refl s
    · exact (State.bookWritten_keeps _ _).passes
    · exact (State.reply_keeps _ _ _).passes
    · exact (State.replyWith_keeps _ _ _).passes
    · exact Passes.refl s

/-- `Passes` without the capacities. -/
structure Delivers (s s' : State) : Prop where
  pending : s'.pending = s.pending
  flash : s'.store.flash = s.store.flash
  distinct : s.EntriesDistinct → s'.EntriesDistinct
  range : s.WithinRange → s'.WithinRange
  airtime : s.AirtimeKept → s'.AirtimeKept

theorem Delivers.trans {s u t : State} (h : Delivers s u) (k : Delivers u t) : Delivers s t :=
  ⟨k.pending.trans h.pending, k.flash.trans h.flash, k.distinct ∘ h.distinct, k.range ∘ h.range, k.airtime ∘ h.airtime⟩

theorem Passes.delivers {s s' : State} (h : Passes s s') : Delivers s s' := ⟨h.pending, h.flash, h.distinct, h.range, h.airtime⟩

theorem State.sendChunk_delivers (d v i : Nat) (data : List Byte) (s : State) : Delivers s (s.sendChunk d v i data) := by
  unfold State.sendChunk
  split
  · exact (Passes.refl s).delivers
  · exact ⟨rfl, rfl, fun k => { k with }, fun k => { k with }, fun k => { k with }⟩

/-- The delivery of any completion keeps all but perhaps the capacities. -/
theorem State.deliver_delivers (op : StoreOp) (r : StoreResult) (s : State) : Delivers s (s.deliver op r) := by
  by_cases hd : op.isServe = true ∧ ∃ bytes, r = .data bytes
  · obtain ⟨ho, bytes, rfl⟩ := hd
    cases hk : op.kind with
    | readChunk k v i =>
      unfold State.deliver
      rw [hk]
      unfold StoreOp.isServe at ho
      split at ho
      · rename_i peer block hop
        simp only [hop]
        unfold State.readDone
        simp only
        split
        · exact ((State.passServe_keeps s).passes.delivers.trans (State.sendChunk_delivers _ _ _ _ _)).trans
            (State.serveEngine_keeps _).passes.delivers
        · exact ((State.mapServe_keeps (f := ServeRequest.unread) (fun _ => rfl) s).trans
            (State.serveEngine_keeps _)).passes.delivers
      · cases ho
    | selectorWrite n p sel dir =>
      unfold State.deliver
      rw [hk]
      exact (State.deliverSelector_passes _ _ _ _ _ _).delivers
    | _ =>
      unfold State.deliver
      rw [hk]
      unfold StoreOp.isServe at ho
      split at ho
      · rename_i peer block hop
        simp only [hop]
        exact (Passes.refl s).delivers
      · cases ho
  · exact (State.deliver_passes op r s (fun ho hb => absurd ⟨ho, hb⟩ hd)).delivers

/-- Delivering operations that were turned away keeps. -/
theorem walk_deliver_passes (l : List (StoreOp × StoreResult)) (s : State)
    (h : ∀ x ∈ l, x.2 = .cancelled ∨ x.2 = .isProtected) :
    Passes s (walk l (fun x s => (s.deliver x.1 x.2).settle) s) := by
  induction l generalizing s with
  | nil => exact Passes.refl s
  | cons x l ih =>
    have h1 : Passes s (s.deliver x.1 x.2) := by
      refine State.deliver_passes _ _ _ (fun _ hd => ?_)
      obtain ⟨bytes, hb⟩ := hd
      rcases h x (by simp) with e | e <;> rw [e] at hb <;> cases hb
    exact (h1.trans (State.settle_keeps _).passes).trans (ih _ (fun y hy => h y (by simp [hy])))

/-! ### Starts (R141, R165, R168) -/

/-- The blocks of a start, before the sequence submits its first operation, keep every predicate but the flash's own. -/
theorem State.fresh_safe (pending : List Instr) (flash : List Host.Cell) (link : List (HostKind × HostMsg)) :
    (State.fresh pending flash link).WithinCapacity ∧ (State.fresh pending flash link).EntriesDistinct ∧
      (State.fresh pending flash link).WithinRange ∧ (State.fresh pending flash link).AirtimeKept := by
  have hrec : ∀ i, (State.fresh pending flash link).record i = none := fun i => by
    simp [State.record, State.fresh]
  have hflow : ∀ j, ((State.fresh pending flash link).flow j).isUsed = false := fun j => by
    simp [State.flow, State.fresh, FlowSlot.isUsed]
  refine ⟨⟨?_, ?_, ?_, ?_, ?_, ?_, ?_, ?_, ?_, ?_, ?_, ?_⟩, ⟨⟨?_, ?_, ?_, ?_⟩, ?_, ?_, ?_, ?_⟩,
    ⟨?_, ?_, ?_, ?_, ?_, ?_, ?_, ?_⟩, ⟨?_, ?_, ?_, ?_⟩⟩
  · exact Nat.zero_le _
  · exact Nat.zero_le _
  · exact Nat.zero_le _
  · exact Nat.zero_le _
  · exact Nat.zero_le _
  · exact Nat.zero_le _
  · exact Nat.zero_le _
  · exact Nat.zero_le _
  · intro i r h
    have := hrec i
    simp only [State.record] at this
    rw [this] at h
    cases h
  · exact Nat.zero_le _
  · exact Nat.zero_le _
  · exact Nat.zero_le _
  · exact List.Pairwise.nil
  · exact List.Pairwise.nil
  · exact List.Pairwise.nil
  · exact List.Pairwise.nil
  · exact List.nodup_nil
  · intro i j r q hi
    rw [hrec] at hi
    cases hi
  · intro i r hi
    rw [hrec] at hi
    cases hi
  · intro i j f g hi
    have := hflow i
    rw [hi] at this
    cases this
  · intro p hp; cases hp
  · exact Nat.le_refl _
  · exact Nat.le_refl _
  · intro i r h
    have := hrec i
    simp only [State.record] at this
    rw [this] at h
    cases h
  · intro e he; cases he
  · show 2500 ≤ 30000 ∧ 30000 ≤ 30000
    omega
  · exact Nat.zero_le _
  · exact Nat.zero_le _
  · rw [ownReserved_zero hflow]
    exact Nat.zero_le _
  · intro j f hj
    have := hflow j
    rw [hj] at this
    cases this
  · intro i j r q hi
    rw [hrec] at hi
    cases hi
  · exact fun _ j => hflow j

/-- The completion of the sequence keeps (R165, R168). -/
theorem State.startCompletes_passes (s : State) (hr : s.running = false) : Passes s s.startCompletes := by
  unfold State.startCompletes
  extract_lets s1
  refine Passes.trans ?_ (State.settleWith_keeps _ _).passes
  refine ⟨rfl, rfl, fun k => { k with }, fun k => { k with }, fun k => { k with ownPath := ?_, burst := ?_ },
    fun k => { ceiling := k.ceiling, owned := k.owned, oneRecord := k.oneRecord, starting := fun _ => k.starting hr }⟩
  · show (if s.cfg.gateway then 0 else Config.noPath) ≤ Config.noPath
    split
    · exact Nat.zero_le _
    · exact Nat.le_refl _
  · show Config.paceFloor ≤ (Pace.atStart s.cfg.fixedPace).burst ∧ (Pace.atStart s.cfg.fixedPace).burst ≤ Config.paceCeiling
    cases s.cfg.fixedPace <;> simp [Pace.atStart, Config.paceFloor, Config.paceCeiling]

theorem State.sequenceEnds_passes (s : State) : Passes s s.sequenceEnds := by
  unfold State.sequenceEnds
  split
  · rename_i h
    have hr : s.running = false := by simp [State.running, h]
    exact (State.startCompletes_passes s hr).trans (State.resume_keeps _).passes
  · exact Passes.refl s

end Sys2Proof.Machine
end

