-- ==== Sys2Proof/Laws/Still.lean ====
section
/-! SUPPORT. What the client and flow operations and the end of an event leave alone: the clock, the time base, the book,
the Slot Table, the Peer Table's entries, the receive side, the reply path and the client lists. One lemma for each
operation, so that a result written there before the end of an event is still there after it. -/

namespace Sys2Proof.Machine

/-- The parts of the state the end of an event does not touch. -/
structure Still where
  now : Nat
  seq : StartSeq
  time : TimeBase
  sched : ScheduleUnit
  dist : DistributionUnit
  peers : List PeerEntry
  ownPath : Nat
  advertDue : Option Nat
  rx : List Frame
  rxRun : Bool
  radioOut : Option WireFrame
  replies : List Reply
  link : List (HostKind × HostMsg)
  sent : Option Sent
  heard : List HeardEntry
  refusals : List ClientId
  handed : List ClientId

def State.still (s : State) : Still :=
  { now := s.now, seq := s.seq, time := s.time, sched := s.sched, dist := s.dist, peers := s.peers.table,
    ownPath := s.peers.ownPath, advertDue := s.peers.advertDue, rx := s.pli.rx, rxRun := s.pli.rxRun,
    radioOut := s.radioOut, replies := s.port.replies, link := s.port.link, sent := s.port.sent, heard := s.clients.heard,
    refusals := s.clients.refusals, handed := s.clients.handed }

/-- The parts one by one. -/
theorem State.still_parts {s t : State} (h : t.still = s.still) :
    t.now = s.now ∧ t.seq = s.seq ∧ t.time = s.time ∧ t.sched = s.sched ∧ t.dist = s.dist ∧ t.peers.table = s.peers.table ∧
      t.peers.ownPath = s.peers.ownPath ∧ t.peers.advertDue = s.peers.advertDue ∧ t.pli.rx = s.pli.rx ∧
      t.pli.rxRun = s.pli.rxRun ∧ t.radioOut = s.radioOut ∧ t.port.replies = s.port.replies ∧ t.port.link = s.port.link ∧
      t.port.sent = s.port.sent ∧ t.clients.heard = s.clients.heard ∧ t.clients.refusals = s.clients.refusals ∧
      t.clients.handed = s.clients.handed := by
  simpa only [State.still, Still.mk.injEq] using h

/-- The state less the Flow Table, the client records, the Sighting Table, the dirty set and the marks of the event. -/
def State.beside (s : State) : State :=
  { s with
    prio := State.reset.prio
    clients := { s.clients with table := State.reset.clients.table }
    peers := { s.peers with sightings := [] }
    port := { s.port with dirty := State.reset.port.dirty }
    ev := EventMarks.clear }

theorem State.still_of_beside {s t : State} (h : t.beside = s.beside) : t.still = s.still :=
  show t.beside.still = s.beside.still from congrArg State.still h

theorem walk_beside {α : Type} {f : α → State → State} (h : ∀ x s, (f x s).beside = s.beside) (xs : List α) (s : State) :
    (walk xs f s).beside = s.beside := walk_same State.beside f h xs s

theorem walk_still {α : Type} {f : α → State → State} (h : ∀ x s, (f x s).still = s.still) (xs : List α) (s : State) :
    (walk xs f s).still = s.still := walk_same State.still f h xs s

/-! ### Flags and the transmit side -/

theorem State.raise_still (n : Notice) (s : State) : (s.raise n).still = s.still := by
  unfold State.raise; split <;> rfl

theorem State.send_still (d : Nat) (b : FrameBody) (s : State) : (s.send d b).still = s.still := by
  unfold State.send State.placeFrame
  split
  · rfl
  · split
    · rfl
    · split
      · rfl
      · rw [State.raise_still]; rfl

theorem State.putRecord_beside (i : Fin 64) (r : ClientRecord) (s : State) : (s.putRecord i r).beside = s.beside := rfl

theorem State.examine_beside (c : ClientId) (s : State) : (s.examine c).beside = s.beside := rfl

theorem State.mapRecords_beside (f : ClientRecord → ClientRecord) (s : State) : (s.mapRecords f).beside = s.beside := rfl


/-! ### Flows -/

theorem State.putFlow_beside (j : Fin 128) (x : FlowSlot) (s : State) : (s.putFlow j x).beside = s.beside := by
  unfold State.putFlow; simp only; split <;> rfl

theorem State.removeFlow_beside (j : Fin 128) (s : State) : (s.removeFlow j).beside = s.beside := by
  unfold State.removeFlow
  split
  · exact State.putFlow_beside _ _ _
  · rfl
  · rfl

theorem State.removeClientFlows_beside (c : ClientId) (s : State) : (s.removeClientFlows c).beside = s.beside :=
  walk_beside State.removeFlow_beside _ _

theorem State.testFlow_beside (j : Fin 128) (s : State) : (s.testFlow j).beside = s.beside := by
  unfold State.testFlow
  split
  · split
    · split <;> exact State.putFlow_beside _ _ _
    · rfl
  · rfl
  · rfl

theorem State.round_beside (s : State) : s.round.beside = s.beside := walk_beside State.testFlow_beside _ _

theorem State.flowActivity_beside (j : Fin 128) (s : State) : (s.flowActivity j).beside = s.beside := by
  unfold State.flowActivity
  split
  · simp only
    split
    · exact State.putFlow_beside _ _ _
    · exact State.putFlow_beside _ _ _
    · exact State.putFlow_beside _ _ _
    · exact State.putFlow_beside _ _ _
    · rw [State.testFlow_beside, State.putFlow_beside]
    · split
      · rw [State.testFlow_beside, State.putFlow_beside]
      · exact State.putFlow_beside _ _ _
    · rfl
  · rfl
  · rfl

theorem State.classify_beside (j : Fin 128) (f : FlowRecord) (r : ClientRecord) (s : State) :
    (s.classify j f r).beside = s.beside := by
  unfold State.classify
  simp only
  split
  · split <;> exact State.putFlow_beside _ _ _
  · exact State.putFlow_beside _ _ _
  · exact State.putFlow_beside _ _ _

theorem State.sampleFlow_beside (i : Fin 64) (r : ClientRecord) (d : Digest) (x : FlowSample) (s : State) :
    (s.sampleFlow i r d x).beside = s.beside := by
  unfold State.sampleFlow
  split
  · split
    · exact State.putFlow_beside _ _ _
    · rfl
  · split
    · split
      · simp only
        split
        · exact State.classify_beside _ _ _ _
        · exact State.putFlow_beside _ _ _
      · split
        · exact State.putFlow_beside _ _ _
        · exact State.flowActivity_beside _ _
    · rfl
    · rfl

theorem State.accessChanged_beside (c : ClientId) (old new : Access) (s : State) :
    (s.accessChanged c old new).beside = s.beside := by
  unfold State.accessChanged
  split
  · exact walk_beside (fun _ _ => State.putFlow_beside _ _ _) _ _
  · split
    · exact walk_beside State.testFlow_beside _ _
    · rfl

theorem State.enterCarried_beside (i : Fin 64) (c : ClientId) (make : CarriedFlow → FlowRecord) (g : CarriedFlow) (s : State) :
    (s.enterCarried i c make g).beside = s.beside := by
  unfold State.enterCarried
  split
  · rfl
  · split
    · exact State.putFlow_beside _ _ _
    · rfl

theorem State.reserveFlows_beside (i : Fin 64) (c : ClientId) (gs : List CarriedFlow) (s : State) :
    (s.reserveFlows i c gs).beside = s.beside := walk_beside (State.enterCarried_beside _ _ _) _ _

theorem State.enterContext_beside (i : Fin 64) (c : ClientId) (gs : List CarriedFlow) (s : State) :
    (s.enterContext i c gs).beside = s.beside := walk_beside (State.enterCarried_beside _ _ _) _ _

theorem State.settleReserved_beside (r : ClientRecord) (s : State) : (s.settleReserved r).beside = s.beside :=
  walk_beside (fun _ _ => State.putFlow_beside _ _ _) _ _

theorem State.resolveFlows_beside (c : ClientId) (s : State) : (s.resolveFlows c).beside = s.beside :=
  walk_beside State.testFlow_beside _ _

theorem demoteOver_beside (fair n : Nat) (s : State) : (demoteOver fair n s).beside = s.beside := by
  induction n generalizing s with
  | zero => rfl
  | succ n ih =>
    unfold demoteOver
    split
    · split
      · rw [ih, State.putFlow_beside]
      · rfl
    · rfl

theorem State.overshoot_beside (s : State) : s.overshoot.beside = s.beside := by
  unfold State.overshoot
  split
  · exact demoteOver_beside _ _ _
  · rfl

theorem State.workPace_beside (s : State) : s.workPace.beside = s.beside := by
  unfold State.workPace; split <;> rfl

theorem State.cutCredits_beside (s : State) : s.cutCredits.beside = s.beside := rfl

theorem State.openCredits_beside (s : State) : s.openCredits.beside = s.beside := rfl

theorem State.retest_beside (s : State) : s.retest.beside = s.beside := by
  unfold State.retest
  split
  · rw [State.round_beside]; rfl
  · rfl

theorem State.priorityEnd_beside (s : State) : s.priorityEnd.beside = s.beside := by
  unfold State.priorityEnd
  split
  · rw [State.cutCredits_beside, State.workPace_beside, State.retest_beside]
  · exact State.retest_beside s

/-! ### Client records -/

theorem State.recompute_beside (i : Fin 64) (s : State) : (s.recompute i).beside = s.beside := by
  unfold State.recompute
  split
  · split
    · simp only
      split
      · rfl
      · rw [State.accessChanged_beside]; rfl
    · rfl
  · rfl

theorem State.recomputeAll_beside (s : State) : s.recomputeAll.beside = s.beside := walk_beside State.recompute_beside _ _

theorem State.deleteSlot_beside (i : Fin 64) (s : State) : (s.deleteSlot i).beside = s.beside := by
  unfold State.deleteSlot
  split
  · exact State.removeClientFlows_beside _ s
  · rfl

theorem State.deleteDeparted_beside (s : State) : s.deleteDeparted.beside = s.beside := walk_beside State.deleteSlot_beside _ _

theorem State.takeSlot_beside (s : State) : s.takeSlot.2.beside = s.beside := by
  unfold State.takeSlot
  split
  · rfl
  · split
    · exact State.deleteSlot_beside _ _
    · rfl

/-! ### Offers -/

theorem State.beginOffer_still (i : Fin 64) (r : ClientRecord) (p : Nat) (s : State) : (s.beginOffer i r p).still = s.still := by
  unfold State.beginOffer
  rw [State.send_still]; rfl

theorem State.evaluateRecord_still (i : Fin 64) (r : ClientRecord) (q : Int) (s : State) :
    (s.evaluateRecord i r q).still = s.still := by
  unfold State.evaluateRecord
  split
  · simp only
    split
    · split
      · split
        · split
          · rw [State.beginOffer_still]; rfl
          · rfl
        · rfl
      · rfl
    · rfl
  · rfl

theorem State.evacuateSlot_still (i : Fin 64) (s : State) : (s.evacuateSlot i).still = s.still := by
  unfold State.evacuateSlot
  split
  · split
    · simp only
      split
      · split
        · rw [State.beginOffer_still]; rfl
        · rfl
      · rfl
    · rfl
  · rfl

/-! ### The Activation Controller and the end of an event -/

theorem State.submitSelector_still (w : RetriedWrite) (s : State) : (s.submitSelector w).1.still = s.still := by
  have h : ∀ op : StoreOp, (∃ n p sel x, op.kind = .selectorWrite n p sel x) → (s.submit op).1.still = s.still := by
    rintro op ⟨n, p, sel, x, hk⟩
    have hm : ∀ u : State, u.markAccepted op = u := by
      intro u; unfold State.markAccepted; split
      · rfl
      · simp [hk]
    unfold State.submit
    split
    · rfl
    · split
      · unfold State.raiseRefused; simp only [hk, OpKind.refusal]; exact State.raise_still _ _
      · split
        · rfl
        · split
          · simp only [hm]; rfl
          · split
            · simp only [hm]; rfl
            · rfl
  unfold State.submitSelector
  simp only
  split
  · exact h _ ⟨_, _, _, _, rfl⟩
  · exact h _ ⟨_, _, _, _, rfl⟩

theorem State.pass_still (s : State) : s.pass.still = s.still := walk_still State.evacuateSlot_still _ _

theorem State.dropArriving_still (s : State) : s.dropArriving.still = s.still :=
  State.still_of_beside (walk_beside State.deleteSlot_beside _ _)

theorem State.beginEvacuation_still (s : State) : s.beginEvacuation.still = s.still := by
  unfold State.beginEvacuation
  simp only
  rw [State.pass_still, State.dropArriving_still]
  rfl

theorem State.reopen_still (s : State) : s.reopen.still = s.still := by
  unfold State.reopen
  simp only
  split
  · rw [State.beginEvacuation_still]; rfl
  · rfl

theorem State.commit_still (s : State) : s.commit.still = s.still := by
  unfold State.commit State.newWrite
  simp only
  split
  · rw [State.submitSelector_still]; rfl
  · rw [State.reopen_still, State.submitSelector_still]; rfl

theorem State.endCheck_still (s : State) : s.endCheck.still = s.still := by
  unfold State.endCheck
  split
  · exact State.commit_still _
  · rfl

theorem State.gateTest_still (s : State) : s.gateTest.still = s.still := by
  unfold State.gateTest
  split
  · rw [State.endCheck_still, State.beginEvacuation_still]
  · rfl

/-- The end of an event (log entry 8). -/
theorem State.settleWith_still (test : Bool) (s : State) : (s.settleWith test).still = s.still := by
  have h1 := State.still_of_beside (State.retest_beside s)
  have h2 : ∀ u : State, (if test || u.ev.admittedChanged then u.gateTest else u).still = u.still := by
    intro u; split
    · exact State.gateTest_still u
    · rfl
  have h4 : ∀ u : State, (if u.ev.departed then u.endCheck else u).still = u.still := by
    intro u; split
    · exact State.endCheck_still u
    · rfl
  unfold State.settleWith
  show (if _ then _ else _ : State).still = _
  rw [h4, State.still_of_beside (State.priorityEnd_beside _), h2, h1]

theorem State.settle_still (s : State) : s.settle.still = s.still := State.settleWith_still false s

end Sys2Proof.Machine
end

