-- ==== Sys2Proof/Laws/Grows.lean ====
section
/-! SUPPORT. What is raised or sent in an event is still there at its end: the notice FIFO and the transmit order only
grow at their tails under the operations of the units outside the radio, the port's sending and the advert timer. -/

namespace Sys2Proof.Machine

/-- The notice FIFO and the transmit order of a later state begin with those of the earlier one. -/
structure Grows (s t : State) : Prop where
  notices : s.port.notices <+: t.port.notices
  tx : s.pli.tx <+: t.pli.tx

theorem Grows.refl (s : State) : Grows s s := ⟨List.prefix_rfl, List.prefix_rfl⟩

theorem Grows.trans {s t u : State} (h : Grows s t) (k : Grows t u) : Grows s u :=
  ⟨h.notices.trans k.notices, h.tx.trans k.tx⟩

theorem Grows.of_beside {s t : State} (h : t.beside = s.beside) : Grows s t := by
  have h1 : t.port.notices = s.port.notices :=
    show t.beside.port.notices = s.beside.port.notices from congrArg (fun x : State => x.port.notices) h
  have h2 : t.pli.tx = s.pli.tx :=
    show t.beside.pli.tx = s.beside.pli.tx from congrArg (fun x : State => x.pli.tx) h
  exact ⟨by rw [h1], by rw [h2]⟩

theorem Grows.walk {α : Type} {f : α → State → State} (h : ∀ x s, Grows s (f x s)) (xs : List α) (s : State) :
    Grows s (walk xs f s) := walk_keeps (fun t => Grows s t) f (fun x _ ht => ht.trans (h x _)) xs s (Grows.refl s)

theorem State.raise_grows (n : Notice) (s : State) : Grows s (s.raise n) := by
  unfold State.raise
  split
  · exact ⟨List.prefix_append _ _, List.prefix_rfl⟩
  · exact ⟨List.prefix_rfl, List.prefix_rfl⟩

/-- A notice raised while fewer than 16 are held is in the FIFO (R176). -/
theorem State.raise_mem (n : Notice) (s : State) (h : s.port.notices.length < Config.noticeEntries) :
    n ∈ (s.raise n).port.notices := by
  simp [State.raise, h]

theorem Grows.mem_notices {s t : State} (h : Grows s t) {n : Notice} (hn : n ∈ s.port.notices) : n ∈ t.port.notices :=
  h.notices.subset hn

theorem Grows.mem_tx {s t : State} (h : Grows s t) {f : Frame} (hf : f ∈ s.pli.tx) : f ∈ t.pli.tx := h.tx.subset hf

theorem State.send_grows (d : Nat) (b : FrameBody) (s : State) : Grows s (s.send d b) := by
  unfold State.send State.placeFrame
  split
  · exact Grows.refl s
  · split
    · exact ⟨List.prefix_rfl, List.prefix_append _ _⟩
    · split
      · exact Grows.refl s
      · exact Grows.trans (t := { s with pli := { s.pli with txRun := true } }) ⟨List.prefix_rfl, List.prefix_rfl⟩
          (State.raise_grows _ _)

theorem State.markAccepted_grows (op : StoreOp) (s : State) : Grows s (s.markAccepted op) := by
  have h : ∀ (k : SlotId) (r : SlotRecord), Grows s (s.putSlotRecord k r) := fun k r => by cases k <;> exact ⟨List.prefix_rfl, List.prefix_rfl⟩
  unfold State.markAccepted
  split
  · exact Grows.refl s
  · split
    · exact h _ _
    · exact h _ _
    · exact h _ _
    · exact Grows.refl s

theorem State.submit_grows (op : StoreOp) (s : State) : Grows s (s.submit op).1 := by
  unfold State.submit
  split
  · exact Grows.refl s
  · split
    · unfold State.raiseRefused
      split
      · exact State.raise_grows _ _
      · exact Grows.refl s
    · split
      · exact Grows.refl s
      · split
        · exact Grows.trans (t := { s with store := { s.store with inflight := some (s.store.direct op) } })
            ⟨List.prefix_rfl, List.prefix_rfl⟩ (State.markAccepted_grows _ _)
        · split
          · exact Grows.trans (t := { s with store := { s.store with waiting := s.store.waiting ++ [op] } })
              ⟨List.prefix_rfl, List.prefix_rfl⟩ (State.markAccepted_grows _ _)
          · exact Grows.refl s

theorem State.beginOffer_grows (i : Fin 64) (r : ClientRecord) (p : Nat) (s : State) : Grows s (s.beginOffer i r p) := by
  unfold State.beginOffer
  simp only
  exact Grows.trans (Grows.of_beside (State.putRecord_beside _ _ _)) (State.send_grows _ _ _)

theorem State.evacuateSlot_grows (i : Fin 64) (s : State) : Grows s (s.evacuateSlot i) := by
  have he : ∀ c : ClientId, Grows s (s.examine c) := fun c => Grows.of_beside (State.examine_beside _ _)
  unfold State.evacuateSlot
  split
  · split
    · simp only
      split
      · split
        · exact (he _).trans (State.beginOffer_grows _ _ _ _)
        · exact he _
      · exact he _
    · exact Grows.refl s
  · exact Grows.refl s

theorem State.submitSelector_grows (w : RetriedWrite) (s : State) : Grows s (s.submitSelector w).1 := by
  unfold State.submitSelector
  simp only
  split
  · exact (State.submit_grows _ _).trans ⟨List.prefix_rfl, List.prefix_rfl⟩
  · exact State.submit_grows _ _

theorem State.beginEvacuation_grows (s : State) : Grows s s.beginEvacuation := by
  unfold State.beginEvacuation
  simp only
  refine Grows.trans (t := { s with act := { s.act with state := .evacuating, evacuationDue := some (s.now + Config.evacuationLimit) } })
    ⟨List.prefix_rfl, List.prefix_rfl⟩ ?_
  exact (Grows.of_beside (walk_beside State.deleteSlot_beside _ _)).trans (Grows.walk State.evacuateSlot_grows _ _)

theorem State.reopen_grows (s : State) : Grows s s.reopen := by
  unfold State.reopen
  simp only
  have h : Grows s { s with act := { s.act with state := .waiting } } := ⟨List.prefix_rfl, List.prefix_rfl⟩
  split
  · exact h.trans (State.beginEvacuation_grows _)
  · exact h

theorem State.commit_grows (s : State) : Grows s s.commit := by
  unfold State.commit State.newWrite
  simp only
  have h : ∀ u : State, u.port = s.port → u.pli = s.pli → Grows s u := fun u h1 h2 => ⟨by rw [h1], by rw [h2]⟩
  split
  · exact Grows.trans (by exact h _ rfl rfl) (State.submitSelector_grows _ _)
  · exact (Grows.trans (by exact h _ rfl rfl) (State.submitSelector_grows _ _)).trans (State.reopen_grows _)

theorem State.endCheck_grows (s : State) : Grows s s.endCheck := by
  unfold State.endCheck
  split
  · exact State.commit_grows _
  · exact Grows.refl s

theorem State.gateTest_grows (s : State) : Grows s s.gateTest := by
  unfold State.gateTest
  split
  · exact (State.beginEvacuation_grows s).trans (State.endCheck_grows _)
  · exact Grows.refl s

/-- The end of an event (log entry 8). -/
theorem State.settleWith_grows (test : Bool) (s : State) : Grows s (s.settleWith test) := by
  have h2 : ∀ u : State, Grows u (if test || u.ev.admittedChanged then u.gateTest else u) := by
    intro u; split
    · exact State.gateTest_grows u
    · exact Grows.refl u
  have h4 : ∀ u : State, Grows u (if u.ev.departed then u.endCheck else u) := by
    intro u; split
    · exact State.endCheck_grows u
    · exact Grows.refl u
  have h5 : ∀ u : State, Grows u { u with ev := EventMarks.clear } := fun u => ⟨List.prefix_rfl, List.prefix_rfl⟩
  have hp : ∀ u : State, Grows u u.priorityEnd := fun u => Grows.of_beside (State.priorityEnd_beside u)
  exact ((((Grows.of_beside (State.retest_beside s)).trans (h2 _)).trans (hp _)).trans (h4 _)).trans (h5 _)

theorem State.settle_grows (s : State) : Grows s s.settle := State.settleWith_grows false s

/-! ### Time -/

theorem State.minuteStep_grows (s : State) : Grows s s.minuteStep := by
  unfold State.minuteStep State.minuteEvent
  split
  · exact Grows.refl s
  · refine Grows.trans (t := { s with time := { s.time with minuteMark := minuteIndexOf s.time.mesh } })
      ⟨List.prefix_rfl, List.prefix_rfl⟩ ?_
    exact (Grows.of_beside ((State.recomputeAll_beside _).trans (State.mapRecords_beside _ _))).trans (State.settleWith_grows _ _)

theorem State.dayStep_grows (s : State) : Grows s s.dayStep := by
  unfold State.dayStep State.dayEvent
  split
  · refine Grows.trans (t := { s with time := { s.time with dayMark := dayOf s.time.mesh } })
      ⟨List.prefix_rfl, List.prefix_rfl⟩ ?_
    exact (Grows.of_beside (((State.recomputeAll_beside _).trans (State.deleteDeparted_beside _)).trans
      (State.mapRecords_beside _ _))).trans (State.settle_grows _)
  · exact Grows.refl s

theorem State.timeChanged_grows (b : Bool) (s : State) : Grows s (s.timeChanged b) := by
  unfold State.timeChanged
  split
  · simp only
    have h := (State.minuteStep_grows s).trans (State.dayStep_grows _)
    split
    · exact (h.trans (Grows.of_beside (State.recomputeAll_beside _))).trans (State.settle_grows _)
    · exact h
  · exact Grows.refl s

theorem State.hearTime_grows (peer mesh rank : Nat) (s : State) : Grows s (s.hearTime peer mesh rank) := by
  unfold State.hearTime
  split
  · refine Grows.trans (t := s.setMesh mesh (rank + 1)) ⟨List.prefix_rfl, List.prefix_rfl⟩ ?_
    exact (State.raise_grows _ _).trans (State.timeChanged_grows _ _)
  · exact Grows.refl s

/-! ### The other parts of an ADVERT -/

theorem State.hearBook_grows (peer v o : Nat) (s : State) : Grows s (s.hearBook peer v o) := by
  unfold State.hearBook
  split
  · split
    · exact State.send_grows _ _ _
    · split
      · exact State.send_grows _ _ _
      · exact Grows.refl s
  · exact Grows.refl s

theorem State.startFill_grows (v : Nat) (s : State) : Grows s (s.startFill v) := by
  have h1 : Grows s (if (s.slot s.spareSlot).state = .ready then s.readyGivenUp else s) := by
    unfold State.readyGivenUp
    split
    · split
      · exact ⟨List.prefix_rfl, List.prefix_rfl⟩
      · exact Grows.refl s
    · exact Grows.refl s
  unfold State.startFill
  refine h1.trans ?_
  simp only
  generalize (if (s.slot s.spareSlot).state = .ready then s.readyGivenUp else s) = u
  cases u.spareSlot <;> exact ⟨List.prefix_rfl, List.prefix_rfl⟩

theorem State.hearImage_grows (peer v : Nat) (s : State) : Grows s (s.hearImage peer v) := by
  unfold State.hearImage
  extract_lets _ s1
  have h : Grows s s1 := ⟨List.prefix_rfl, List.prefix_rfl⟩
  split
  · exact (h.trans (State.startFill_grows _ _)).trans (State.send_grows _ _ _)
  · split
    · exact h.trans (State.send_grows _ _ _)
    · exact h

theorem State.hearAirtime_grows (s : State) : Grows s s.hearAirtime := by
  unfold State.hearAirtime
  refine Grows.of_beside ?_
  rw [State.cutCredits_beside, State.round_beside]
  exact State.overshoot_beside s

theorem State.hearFlags_grows (peer : Nat) (e : Bool) (s : State) : Grows s (s.hearFlags peer e) := by
  unfold State.hearFlags
  split
  · refine Grows.trans (t := { s with act := { s.act with state := .waiting, evacuationDue := none } })
      ⟨List.prefix_rfl, List.prefix_rfl⟩ (State.gateTest_grows _)
  · exact State.gateTest_grows _

theorem State.handOn_grows (peer : Nat) (a : Advert) (s : State) : Grows s (s.handOn peer a) :=
  ((((State.hearTime_grows _ _ _ s).trans (State.hearBook_grows _ _ _ _)).trans (State.hearImage_grows _ _ _)).trans
    (State.hearAirtime_grows _)).trans (State.hearFlags_grows _ _ _)

end Sys2Proof.Machine
end

