-- ==== Sys2Proof/WellFormed.lean ====
section
/-! DEFINITION. The checks a command's operands meet when the outside could really send it. The meanings do not need
them: `exec` gives every command an effect. -/

namespace Sys2Proof

/-- Cells of the Image Store lie in its 16 MiB (R128). -/
def cellsFit (cells : List Host.Cell) : Bool := cells.all fun c => c.1 < 0x1000000

/-- What a device did is told in cells of the store. -/
def Device.fits (d : Device) : Bool := cellsFit d.cells

/-- A frame or message has at most the 65,535 body bytes its length field can count (sections 12.5, 12.6). -/
def bodyFits (body : List Byte) : Bool := decide (body.length ≤ 65535)

/-- The kind codes of the messages from the host: observations 01h..09h, requests 11h..18h (section 12.6). -/
def isHostCode (code : Nat) : Bool := (1 ≤ code && code ≤ 9) || (0x11 ≤ code && code ≤ 0x18)

/-- A message delivered under a command carries the kind code of the message the command names, or a code that no message
from the host has (section 12.6, log entry 34). -/
def msgFits (code : Nat) (m : HostMsg) : Bool := bodyFits m.body && (m.kind.toNat == code || !isHostCode m.kind.toNat)

/-- A peer id is a node id, 1..63 (00_scope.md section 5.0). -/
def peerFits (id : Nat) : Bool := 1 ≤ id && id ≤ 63

/-- Whether a command's operands fit what the outside can send. -/
def Instr.wellFormed : Instr → Bool
  | .powerOnStart cells => cellsFit cells
  | .hostRestart cells => cellsFit cells
  | .recoveryStart cells => cellsFit cells
  | .startSequenceComplete _ => true
  | .frameReceived _ f => bodyFits f.body
  | .advert _ => true
  | .offer _ => true
  | .accept _ => true
  | .decline _ => true
  | .claim _ => true
  | .context _ => true
  | .bookRequest _ => true
  | .bookSegment _ => true
  | .manifestRequest _ => true
  | .manifest _ => true
  | .chunkRequest _ => true
  | .chunk _ => true
  | .chunkRefuse _ => true
  | .frameTakenByRadio _ => true
  | .associate _ m => msgFits 0x01 m
  | .disassociate _ m => msgFits 0x02 m
  | .signal _ m => msgFits 0x03 m
  | .evaluation _ => true
  | .sighting _ m => msgFits 0x04 m
  | .link _ m => msgFits 0x05 m
  | .clientActivity _ m => msgFits 0x06 m
  | .flowSample _ m => msgFits 0x07 m
  | .flowActive _ m => msgFits 0x08 m
  | .flowEnd _ m => msgFits 0x09 m
  | .loadBook _ m => msgFits 0x11 m
  | .setTime _ m => msgFits 0x12 m
  | .seedManifest _ m => msgFits 0x13 m
  | .seedChunk _ m => msgFits 0x14 m
  | .activateNow _ m => msgFits 0x15 m
  | .confirmImage _ m => msgFits 0x16 m
  | .readRecord _ m => msgFits 0x17 m
  | .writeConfig _ m => msgFits 0x18 m
  | .hostAcceptance _ => true
  | .advertTimerExpiry => true
  | .freshnessTimerExpiry peer => peerFits peer
  | .removalTimerExpiry peer => peerFits peer
  | .heardListExpiry _ => true
  | .suspectUntilReached peer => peerFits peer
  | .declineHoldExpiry _ peer => peerFits peer
  | .steerResistantExpiry _ => true
  | .offeringExpiry _ => true
  | .handingExpiry _ => true
  | .arrivingExpiry _ => true
  | .provisionalExpiry _ => true
  | .tick => true
  | .ageingTimerExpiry => true
  | .stagingTimerExpiry => true
  | .idleTimerExpiry _ => true
  | .flowRemovalTimerExpiry _ => true
  | .holdUntilReached _ => true
  | .chunkRequestExpiry => true
  | .evacuationLimitExpiry => true
  | .confirmTimerExpiry => true
  | .writeRetryTimerExpiry => true
  | .readChunkCompletion _ d => d.fits
  | .programChunkCompletion _ d => d.fits
  | .eraseBlockCompletion _ d => d.fits
  | .verifyBlockCompletion _ d => d.fits
  | .checkImageCompletion _ d => d.fits
  | .recordWriteCompletion _ d => d.fits
  | .recordReadCompletion _ d => d.fits

end Sys2Proof
end

