-- ==== Sys2Proof/Tests/Slice0.lean ====
section
/-! SUPPORT. Tests: ill-formed operands, the worked examples of the guide, and for each statement a state and operands that
meet its hypotheses (a witness), with the outcome read off where it is short. -/

namespace Sys2Proof.Tests

-- One kernel evaluation at a time: many at once ask for more threads than the memory limit gives.
set_option Elab.async false

open Sys2Proof Sys2Proof.Machine

/-! ### WellFormed: each check refuses an ill-formed term -/

def badCells : List Host.Cell := [(0x1000000, 0)]
def badDevice : Device := { failed := false, cells := badCells }
def longMsg : HostMsg := { kind := 1, tag := 0, len := 0, body := List.replicate 65536 0, crc := 0 }

theorem test_wellFormed_starts :
    (Instr.powerOnStart badCells).wellFormed = false ∧ (Instr.hostRestart badCells).wellFormed = false ∧
      (Instr.recoveryStart badCells).wellFormed = false ∧ (Instr.powerOnStart [(0xFFFFFF, 0)]).wellFormed = true := by decide

theorem test_wellFormed_completions :
    (Instr.readChunkCompletion 0 badDevice).wellFormed = false ∧ (Instr.programChunkCompletion 0 badDevice).wellFormed = false ∧
      (Instr.eraseBlockCompletion 0 badDevice).wellFormed = false ∧ (Instr.verifyBlockCompletion 0 badDevice).wellFormed = false ∧
      (Instr.checkImageCompletion 0 badDevice).wellFormed = false ∧ (Instr.recordWriteCompletion 0 badDevice).wellFormed = false ∧
      (Instr.recordReadCompletion 0 badDevice).wellFormed = false ∧ (Instr.recordReadCompletion 0 Device.sound).wellFormed = true := by
  decide

theorem test_wellFormed_peers :
    (Instr.freshnessTimerExpiry 0).wellFormed = false ∧ (Instr.removalTimerExpiry 64).wellFormed = false ∧
      (Instr.suspectUntilReached 64).wellFormed = false ∧ (Instr.declineHoldExpiry 0 0).wellFormed = false ∧
      (Instr.freshnessTimerExpiry 63).wellFormed = true := by decide

theorem longMsg_unfit : bodyFits longMsg.body = false := by
  unfold bodyFits longMsg
  simp only [List.length_replicate]
  decide

theorem test_wellFormed_messages :
    (Instr.associate 0 longMsg).wellFormed = false ∧ (Instr.disassociate 0 longMsg).wellFormed = false ∧
      (Instr.signal 0 longMsg).wellFormed = false ∧ (Instr.sighting 0 longMsg).wellFormed = false ∧
      (Instr.link 0 longMsg).wellFormed = false ∧ (Instr.clientActivity 0 longMsg).wellFormed = false ∧
      (Instr.flowSample 0 longMsg).wellFormed = false ∧ (Instr.flowActive 0 longMsg).wellFormed = false ∧
      (Instr.flowEnd 0 longMsg).wellFormed = false := by
  simp [Instr.wellFormed, msgFits, longMsg_unfit]

theorem test_wellFormed_requests :
    (Instr.loadBook 0 longMsg).wellFormed = false ∧ (Instr.setTime 0 longMsg).wellFormed = false ∧
      (Instr.seedManifest 0 longMsg).wellFormed = false ∧ (Instr.seedChunk 0 longMsg).wellFormed = false ∧
      (Instr.activateNow 0 longMsg).wellFormed = false ∧ (Instr.confirmImage 0 longMsg).wellFormed = false ∧
      (Instr.readRecord 0 longMsg).wellFormed = false ∧ (Instr.writeConfig 0 longMsg).wellFormed = false := by
  simp [Instr.wellFormed, msgFits, longMsg_unfit]

theorem test_wellFormed_frame :
    (Instr.frameReceived 0 { kind := 1, sender := 1, dest := 0, len := 0, body := longMsg.body, crc := 0 }).wellFormed = false := by
  simp [Instr.wellFormed, longMsg_unfit]

/-- The table gives no row any bits, so no word spells a command. -/
theorem test_no_word_spells_a_command : decodeTableWord 8 1 = none ∧ State.reset.withFetchWord 8 1 = State.reset := by
  constructor <;> rfl

/-! ### Worked examples of the guide -/

/-- The check value of the CRC of section 12.5, over the digits 1 to 9. -/
theorem test_crc_check_value : crc32 [0x31, 0x32, 0x33, 0x34, 0x35, 0x36, 0x37, 0x38, 0x39] = 0xCBF43926 := by
  decide +kernel

/-- R40: −71, −74, −73 give −73, and −72, −72, −60 give −72. -/
theorem test_median : median (-71) (-74) (-73) = -73 ∧ median (-72) (-72) (-60) = -72 := by decide

/-- R40: differences of −3, +3, −7 and +7 step by 0, 0, −1 and +1; the estimate rests at −243 below −240. -/
theorem test_smooth_step :
    smoothStep (-237) (-60) = -237 ∧ smoothStep (-243) (-60) = -243 ∧ smoothStep (-233) (-60) = -234 ∧
      smoothStep (-247) (-60) = -246 ∧ smoothStep (-288) (-73) = -289 := by decide

/-- Section 3.7.1: the scores −252 and −250. -/
theorem test_scores : scoreOf (-240) 3 4 20 12 = -252 ∧ scoreOf (-230) 9 4 10 12 = -250 := by decide

/-- Section 7.8.1: the console's samples across the wrap of the host's clock. -/
def consoleSamples : List FlowSample :=
  [65400, 65416, 65432, 65449, 65464, 65480, 65496, 65514, 65528, 8, 24, 40, 56, 73, 88, 104].map
    fun t => { size := 180, stamp := t }

theorem test_console_flow :
    meanSizeOf consoleSamples = 180 ∧ meanIntervalOf consoleSamples = 16 ∧ spreadOf consoleSamples = 4 ∧
      classOf consoleSamples = .game ∧ shareOf 180 16 144 = 40 := by decide

/-- Section 8.1.1: the burst limits of 16 ms and 33 ms, of no game and of fixed pace. -/
theorem test_burst_limits :
    burstLimit false (some 16) = 8000 ∧ burstLimit false (some 33) = 16500 ∧ burstLimit false none = 30000 ∧
      burstLimit true (some 33) = 2500 := by decide

/-- R88: BLOCK from 21:00 to 07:00 on the school nights, Sunday to Thursday. -/
def schoolNights : Span := { mask := 0x4F, start := 1260, stop := 420 }

theorem test_school_nights :
    schoolNights.activeAt 0 419 = true ∧ schoolNights.activeAt 0 420 = false ∧ schoolNights.activeAt 3 1260 = true ∧
      schoolNights.activeAt 4 390 = true ∧ schoolNights.activeAt 4 1260 = false ∧ schoolNights.activeAt 5 390 = false ∧
      schoolNights.activeAt 6 1335 = true := by decide

/-- Section 4.8: used 96 with 1 minute counted here meets a CONTEXT of 96 on the same day: 97. The other lines of R66. -/
theorem test_merge :
    mergeFigures 96 1 20210 96 20210 = (20210, 97) ∧ mergeFigures 5 3 20210 90 20209 = (20210, 5) ∧
      mergeFigures 90 2 20210 7 20211 = (20211, 9) ∧ mergeFigures 0 1440 1 1440 1 = (1, 1440) := by decide

/-- Day 20,210 is a Tuesday (section 4.8); 19:00 of it is minute 1,140. -/
theorem test_weekday : weekdayOf (20210 * 86400) = 1 ∧ minuteOf (20210 * 86400 + 19 * 3600) = 1140 := by decide

/-- Chunk 5 of slot A, block 2 of slot B, and the manifest area of slot B (R128). -/
theorem test_store_map :
    chunkAddr .a 5 = 0x401400 ∧ blockAddr .b 2 = 0x808000 ∧ (Area.manifest .b).base = 0x18000 ∧
      (imageBlocks 17, imageChunks 17 1) = (2, [16]) := by decide

/-- R177: all ones reads as the default, and values are clamped. -/
theorem test_config_defaults :
    readConfig (List.replicate 12 0xFF) = ActiveConfig.unread ∧ (readConfig [5, 1, 0, 1, 1, 0, 0, 1, 0, 0, 0, 1]).period = 200 ∧
      (readConfig [5, 1, 0, 1, 1, 0, 0, 1, 0, 0, 0, 1]).weakFloor = -70 := by decide +kernel

/-! ### States to test on -/

/-- The state a command leads to. -/
def after (c : Instr) (s : State) : State :=
  match exec c s with
  | .next t => t
  | .fault _ => s
  | .refused _ => s

/-- A node 5 whose start has completed, with default figures and nothing learned. -/
def node : State :=
  { State.reset with
    seq := { State.reset.seq with stage := .running }
    cfg := { ActiveConfig.unread with nodeId := 5 }
    peers := { State.reset.peers with advertDue := some 500 }
    time := { State.reset.time with tickDue := some 1000 } }

/-- The node before any start has completed. -/
def starting : State := { node with seq := { node.seq with stage := .ready } }

/-- The node without a usable id. -/
def unconfigured : State := { node with cfg := { node.cfg with nodeId := 64 } }

/-- A client and its record. -/
def client : ClientId := 0x9A0C315E7710
def other : ClientId := 0x3C5A00912E4F
def record (st : RecState) : ClientRecord :=
  { ClientRecord.blank client st 0 with linkRate := 144, steerable := true, samples := some (firstSamples (-72)), smoothed := some (-288) }

/-- A record in a slot. -/
def withRecord (i : Fin 64) (r : ClientRecord) (s : State := node) : State := s.putRecord i r

/-- A flow in a slot. -/
def withFlow (j : Fin 128) (f : FlowRecord) (s : State) : State :=
  { s with prio := { s.prio with flows := putSlot s.prio.flows j (.used f) } }

/-- A GAME flow of the client in slot 0. -/
def game (st : FlowState) : FlowRecord :=
  { digest := 0x7A31C0E2, slot := 0, client := client, state := st, samples := [], cls := some .game, meanSize := some 180
    meanInterval := some 16, share := some 40, classifiedAt := some 0, admittedAt := some 0, lastActivity := 0, reason := none
    holdUntil := none }

/-- A frame at the head of the receive queue. -/
def withFrame (sender : Nat) (body : FrameBody) (s : State) : State :=
  { s with pli := { s.pli with rx := [{ sender := sender, dest := 5, body := body }] } }

/-- An ADVERT with everything at its least. -/
def advert : Advert :=
  { pathCost := 3, clientCount := 20, freeSlots := 44, reserved := 0, meshTime := 86400, timeRank := 13, bookVersion := 0
    bookOrigin := 0, target := 0, stateA := 4, versionA := 0, stateB := 0, versionB := 0, bitmap := 0, evacuating := false
    actWaiting := false, gateway := false, sightings := [] }

/-- A peer entry with that ADVERT. -/
def peerEntry (id : Nat) : PeerEntry :=
  { id := id, advert := advert, heardAt := 0, linkCost := 2, fresh := true, suspectUntil := none }

def withPeers (l : List PeerEntry) (s : State := node) : State := { s with peers := { s.peers with table := l } }

/-- A message with tag 7. -/
def msg (k : HostKind) (body : List Byte) : HostMsg := hostMsg k 7 body

/-- A client id as bytes. -/
def id6 (c : ClientId) : List Byte := beBytes 6 c.toNat

/-- The reply of status to that tag. -/
def answered (st : Status) : List Reply := [{ tag := 7, status := st, view := none }]

/-- A check over the records of a state gives a property of each. -/
theorem records_check (s : State) (p : Fin 64 → ClientRecord → Prop) [∀ i r, Decidable (p i r)]
    (h : ∀ i : Fin 64, (match s.record i with | some r => decide (p i r) | none => true) = true) :
    ∀ i r, s.record i = some r → p i r := by
  intro i r hr
  have := h i
  rw [hr] at this
  simpa using this

/-- A check over the flows of a state gives a property of each. -/
theorem flows_check (s : State) (p : Fin 128 → FlowRecord → Prop) [∀ j f, Decidable (p j f)]
    (h : ∀ j : Fin 128, (match s.flow j with | .used f => decide (p j f) | .free => true | .release _ _ => true) = true) :
    ∀ j f, s.flow j = .used f → p j f := by
  intro j f hf
  have := h j
  rw [hf] at this
  simpa using this

/-! ### Witnesses: the queue and the starts -/

theorem witness_StepRunsTheQueue : State.reset.pending = [] ∧ step { node with pending := [.tick] } = exec .tick node := by
  constructor <;> rfl

/-- A part cut short while it writes its configuration, its book or a selector copy. -/
def writing (kind : OpKind) : State :=
  { node with store := { node.store with flash := [(0x10000, 7)], inflight := some { owner := .start, kind := kind } } }

theorem witness_StartsKeepTheStore :
    (writing (.recordWrite .book 1 [])).store.inflight = some { owner := .start, kind := .recordWrite .book 1 [] } ∧
      (after (.hostRestart [(0x10003, 9)]) (writing (.recordWrite .book 1 []))).store.waiting = [] ∧
      readArea [] (after (.hostRestart [(0x10003, 9)]) (writing (.recordWrite .book 1 []))).store.flash .book = none ∧
      Memory.read (after (.hostRestart [(0x10003, 9)]) (writing (.recordWrite .book 1 []))).store.flash 0x10000 = 7 := by
  decide +kernel

theorem witness_StartsKeepTheStore_selector :
    let s := writing (.selectorWrite 0 .trialStart Selector.blank (some (.zero, 1)))
    s.store.inflight = some { owner := .start, kind := .selectorWrite 0 .trialStart Selector.blank (some (.zero, 1)) } ∧
      readArea [] (after (.powerOnStart []) s).store.flash (.selector .zero) = none := by
  decide +kernel

theorem witness_StartSequenceCompletes :
    starting.seq.stage = .ready ∧ starting.port.link = [] ∧ starting.MarksClear ∧ starting.time.rank = 15 ∧
      starting.act.activateNow = false ∧ (after (.startSequenceComplete 3) starting).peers.advertDue = some 500 ∧
      (after (.startSequenceComplete 3) starting).now = 0 := by
  decide +kernel

/-! ### Witnesses: frames on arrival -/

/-- An ADVERT from node 9 as the radio delivers it. -/
def heard : WireFrame := writeFrame { sender := 9, dest := 0, body := .advert advert }

/-- A node with frames in its receive queue. -/
def queued (k : Nat) (run : Bool) : State :=
  { node with pli := { node.pli with rx := List.replicate k { sender := 9, dest := 0, body := .bookRequest }, rxRun := run } }

theorem heard_accepted (k : Nat) (run : Bool) :
    (queued k run).Accepts heard { sender := 9, dest := 0, body := .advert advert } := by
  refine ⟨by decide +kernel, .inl rfl, .inl ?_⟩
  show 9 ≠ 5
  decide

theorem witness_ArrivingFrames :
    (queued 7 true).running = true ∧ 1 ≤ (queued 7 true).cfg.nodeId ∧ (queued 7 true).cfg.nodeId ≤ 63 ∧
      (queued 7 true).pli.rx.length < 8 ∧ (after (.frameReceived 1 heard) (queued 7 true)).pli.rx.length = 8 ∧
      8 ≤ (queued 8 false).pli.rx.length ∧ (queued 8 false).pli.rxRun = false ∧
      (after (.frameReceived 1 heard) (queued 8 false)).port.notices = [.rxOverflow 9 .advert] ∧
      (queued 8 true).pli.rxRun = true ∧ (after (.frameReceived 1 heard) (queued 8 true)).port.notices = [] ∧
      63 < unconfigured.cfg.nodeId ∧ (after (.frameReceived 1 heard) unconfigured).pli.rx = [] := by
  decide +kernel

theorem witness_ArrivingFrames_start : IsStart (.powerOnStart []) ∧ ∃ t, exec (.powerOnStart []) State.reset = .next t :=
  ⟨⟨[], .inl rfl⟩, _, rfl⟩

theorem witness_ArrivingFrames_rejected : ¬∃ f, node.Accepts { heard with crc := 0 } f := by
  rintro ⟨f, h, -⟩
  have : readFrame { heard with crc := 0 } = none := by decide +kernel
  rw [this] at h
  cases h

/-! ### Witnesses: ADVERT -/

/-- Fifteen peers, ids 10 to 24. -/
def crowd : State := withFrame 9 (.advert advert) (withPeers ((List.range 15).map fun k => peerEntry (10 + k)))

theorem witness_AdvertsAreIgnored :
    let own := withFrame 5 (.advert advert) node
    let bad := withFrame 9 (.advert { advert with clientCount := 21 }) node
    (own.running = true ∧ own.MarksClear ∧ (after (.advert 1) own).port.notices = [.idConflict 5]) ∧
      (bad.running = true ∧ 9 ≠ bad.cfg.nodeId ∧ 21 + advert.freeSlots ≠ 64 ∧ (after (.advert 1) bad).peers.table = []) ∧
      (crowd.peer 9 = none ∧ 15 ≤ crowd.peers.table.length ∧ (after (.advert 1) crowd).peers.table = crowd.peers.table) := by
  decide +kernel

/-- Fourteen peers with one of them, id 10, sending; and an unknown sender. -/
def known : State := withFrame 10 (.advert advert) (withPeers ((List.range 14).map fun k => peerEntry (10 + k)))
def joining : State := withFrame 9 (.advert advert) (withPeers ((List.range 14).map fun k => peerEntry (10 + k)))

theorem witness_AdvertEntersThePeerTable :
    (known.running = true ∧ 10 ≠ known.cfg.nodeId ∧ advert.inRange = true ∧ known.peer 10 = some (peerEntry 10) ∧
        (after (.advert 44) known).peer 10 = some { peerEntry 10 with heardAt := 44 } ∧
        (after (.advert 44) known).peers.ownPath = 5) ∧
      (joining.peer 9 = none ∧ joining.peers.table.length < 15 ∧
        (after (.advert 44) joining).peers.table.map PeerEntry.id = (List.range 15).map (· + 9) ∧
        .peerJoined 9 ∈ (after (.advert 44) joining).port.notices) := by
  decide +kernel

theorem witness_AdvertAdoptsABetterTime :
    (known.time.rank = 15 ∧ advert.timeRank + 1 < known.time.rank ∧ advert.timeRank + 1 < 15 ∧ (known.peer 10).isSome = true ∧
        (after (.advert 44) known).time.mesh = 86400 ∧ (after (.advert 44) known).time.rank = 14 ∧
        (after (.advert 44) known).time.dayMark = 1 ∧ .timeAdopted 10 14 ∈ (after (.advert 44) known).port.notices) ∧
      (let ranked : State := { known with time := { known.time with rank := 14 } };
        ranked.time.rank ≤ advert.timeRank + 1 ∧ (after (.advert 44) ranked).time = ranked.time) := by
  decide +kernel

theorem witness_AdvertAdoptsABetterTime_entered :
    let near := { joining with port := { joining.port with notices := List.replicate 14 (.peerLost 1) } }
    joining.peer 9 = none ∧ joining.peers.table.length < 15 ∧ (after (.advert 44) joining).time.rank = 14 ∧
      near.port.notices.length < 15 ∧ .timeAdopted 9 14 ∈ (after (.advert 44) near).port.notices := by
  decide +kernel

/-! ### Witnesses: observations -/

/-- A Heard List of some length, entries weaker as their client ids rise. -/
def listening (k : Nat) : State :=
  { node with
    clients := { node.clients with
      heard := (List.range k).map fun (x : Nat) =>
        { client := BitVec.ofNat 48 x, samples := firstSamples (-60), smoothed := -240 - (x : Int), last := 0 } } }

def sighted (x : Byte) : HostMsg := msg .sighting (id6 client ++ [x])

/-- −72 dBm as a byte. -/
def dbm72 : Byte := BitVec.ofInt 8 (-72)

theorem witness_Sightings :
    (node.Takes ∧ hostMsgOk .sighting (sighted dbm72) = true) ∧
      ((withRecord 0 (record .associated)).heldHere client = true ∧
        (after (.sighting 5 (sighted dbm72)) (withRecord 0 (record .associated))).clients.heard = []) ∧
      ((listening 31).clients.heard.length < 32 ∧
        (after (.sighting 5 (sighted dbm72)) (listening 31)).clients.heard.length = 32) := by
  decide +kernel

theorem witness_Sightings_full :
    (listening 32).clients.heard.length = 32 ∧ (∀ y ∈ (listening 32).clients.heard, y.client ≠ client) ∧
      (∃ w ∈ (listening 32).clients.heard, ∀ y ∈ (listening 32).clients.heard,
        w.smoothed < y.smoothed ∨
          (w.smoothed = y.smoothed ∧ (w.last < y.last ∨ (w.last = y.last ∧ w.client.toNat ≤ y.client.toNat)))) ∧
      (after (.sighting 5 (sighted 0xC4)) (listening 32)).clients.heard.getLast?.map HeardEntry.client = some client ∧
      (after (.sighting 5 (sighted dbm72)) (listening 32)).clients.heard = (listening 32).clients.heard := by
  decide +kernel

theorem witness_Sightings_known :
    let s := after (.sighting 5 (sighted dbm72)) node
    s.Takes ∧ s.heldHere client = false ∧ (∃ y ∈ s.clients.heard, y.client = client) ∧
      (after (.sighting 9 (sighted 0xC4)) s).clients.heard.map HeardEntry.smoothed = [-288] := by
  decide +kernel

theorem witness_LinkSetsTheLinkCost :
    (node.Takes ∧ hostMsgOk .link (msg .link [10, 40]) = true ∧ node.peer 10 = none ∧
        (after (.link 5 (msg .link [10, 40])) node).peers.table = []) ∧
      ((withPeers [peerEntry 10]).peer 10 = some (peerEntry 10) ∧ 10 ≠ (withPeers [peerEntry 10]).cfg.nodeId ∧
        (after (.link 5 (msg .link [10, 40])) (withPeers [peerEntry 10])).peer 10 = some { peerEntry 10 with linkCost := 31 } ∧
        (after (.link 5 (msg .link [10, 40])) (withPeers [peerEntry 10])).peers.ownPath = 34) := by
  decide +kernel

theorem witness_ClientActivityIsNoted :
    let m := msg .clientActivity (id6 client)
    (node.Takes ∧ hostMsgOk .clientActivity m = true ∧ node.findClient client = none) ∧
      (∀ st ∈ [RecState.provisional, .associated, .offering, .handing],
        (withRecord 63 (record st)).Holds client 63 (record st) ∧
          ((after (.clientActivity 5 m) (withRecord 63 (record st))).record 63).map ClientRecord.active = some true) ∧
      ∀ st ∈ [RecState.arriving, .departed],
        (withRecord 63 (record st)).Holds client 63 (record st) ∧
          ((after (.clientActivity 5 m) (withRecord 63 (record st))).record 63).map ClientRecord.active = some false := by
  decide +kernel

theorem witness_SignalsAreSmoothedIn :
    let m := msg .signal (id6 client ++ [0xB7])
    let bare := { record .arriving with samples := none, smoothed := none }
    let old := { record .associated with samples := some { s1 := -72, s2 := -71, s3 := -74 } }
    (node.Takes ∧ hostMsgOk .signal m = true ∧ node.findClient client = none) ∧
      ((withRecord 0 bare).Holds client 0 bare ∧
        ((after (.signal 5 m) (withRecord 0 bare)).record 0).bind ClientRecord.smoothed = some (-292)) ∧
      ((withRecord 0 old).Holds client 0 old ∧
        ((after (.signal 5 m) (withRecord 0 old)).record 0).bind ClientRecord.smoothed = some (-289) ∧
        (after (.signal 5 m) (withRecord 0 old)).clients.handed = [client]) ∧
      ((withRecord 0 (record .departed)).Holds client 0 (record .departed) ∧
        (after (.signal 5 m) (withRecord 0 (record .departed))).clients.handed = []) := by
  decide +kernel

/-! ### Witnesses: timers that only clear -/

def held : ClientRecord := { record .associated with holds := [{ peer := 9, untilTime := 700 }], resistantUntil := some 900 }

theorem witness_TimersThatOnlyClear :
    let peers := withPeers [{ peerEntry 9 with suspectUntil := some 600 }]
    (peers.running = true ∧ (peers.peer 9).bind PeerEntry.suspectUntil = some 600 ∧
        ((after (.suspectUntilReached 9) peers).peer 9).bind PeerEntry.suspectUntil = none) ∧
      ((withRecord 0 held).Holds client 0 held ∧ held.holds.find? (fun x => x.peer = 9) = some { peer := 9, untilTime := 700 } ∧
        ((after (.declineHoldExpiry client 9) (withRecord 0 held)).record 0).map ClientRecord.holds = some [] ∧
        ((after (.steerResistantExpiry client) (withRecord 0 held)).record 0).map ClientRecord.resistantUntil = some none) := by
  decide +kernel

theorem witness_TimersThatOnlyClear_units :
    let held := withFlow 3 { game .waiting with holdUntil := some 400 } node
    let staged : State :=
      { node with
        sched := { node.sched with
          staging := some { version := 1, origin := 9, len := 63, part0 := none, part1 := none, due := 2000 } } }
    let asked : State :=
      { node with
        dist := { node.dist with
          outstanding := some
            { source := 9, version := 2, block := 0, start := 0, count := 1, hybrid := false, order := [0], last := 0, due := 800 } } }
    (held.running = true ∧ (after (.holdUntilReached 3) held).flow 3 = .used (game .waiting)) ∧
      ((listening 1).clients.heard ≠ [] ∧ (after (.heardListExpiry 0) (listening 1)).clients.heard = [] ∧
        (after (.heardListExpiry 0) (listening 1)).now = 3000) ∧
      (after .stagingTimerExpiry staged).sched.staging = none ∧ (after .chunkRequestExpiry asked).dist.outstanding = none ∧
      (after .chunkRequestExpiry asked).now = 800 := by
  decide +kernel

/-! ### Witnesses: the handoff -/

def offering : ClientRecord := { record .offering with offerTarget := some 9, confirm := 0, timer := some 400 }

theorem witness_AnswersMoveTheOffer_accept :
    let s := withFrame 9 (.accept client) (withRecord 7 offering)
    let wrong := withFrame 10 (.accept client) (withRecord 7 offering)
    (s.running = true ∧ s.MarksClear ∧ s.Holds client 7 offering ∧ offering.offerTarget = some 9 ∧
        ((after (.accept 45) s).record 7).map ClientRecord.timer = some (some 5045) ∧
        (after (.accept 45) s).port.dirty.steer[7] = true) ∧
      (wrong.Holds client 7 offering ∧ offering.offerTarget ≠ some 10 ∧ (after (.accept 45) wrong).record 7 = some offering) ∧
      (withFrame 9 (.accept other) node).findClient other = none := by
  decide +kernel

theorem witness_AnswersMoveTheOffer_decline :
    let s := withFrame 9 (.decline client 5) (withRecord 7 offering)
    let unknown := withFrame 9 (.decline client 6) (withRecord 7 offering)
    (s.Holds client 7 offering ∧ s.MarksClear ∧
        ((after (.decline 45) s).record 7).map ClientRecord.state = some .associated ∧
        ((after (.decline 45) s).record 7).map ClientRecord.holds = some [{ peer := 9, untilTime := 10045 }] ∧
        (after (.decline 45) s).port.notices = [.handoffFailed client (.declined 5) (some 9)]) ∧
      ((after (.decline 45) unknown).record 7 = some offering) ∧
      (withFrame 9 (.decline client 5) (withRecord 7 (record .associated))).Holds client 7 (record .associated) := by
  decide +kernel

theorem witness_AnswersMoveTheOffer_holds :
    let hs : List Hold := [⟨10, 400⟩, ⟨11, 300⟩, ⟨12, 300⟩, ⟨13, 500⟩]
    (placeHold 12 900 hs = [⟨10, 400⟩, ⟨11, 300⟩, ⟨12, 900⟩, ⟨13, 500⟩]) ∧
      ((∀ h ∈ hs.take 3, h.peer ≠ 9) ∧ (hs.take 3).length < 4 ∧ placeHold 9 900 (hs.take 3) = hs.take 3 ++ [⟨9, 900⟩]) ∧
      ((∀ h ∈ hs, h.peer ≠ 9) ∧ 4 ≤ hs.length ∧ placeHold 9 900 hs = [⟨10, 400⟩, ⟨9, 900⟩, ⟨12, 300⟩, ⟨13, 500⟩]) := by
  decide

theorem witness_ClaimsReleaseTheRecord :
    let s := withFrame 9 (.claim client) (withFlow 3 (game .admitted) (withRecord 0 (record .associated)))
    let declined := withFrame 9 (.decline client 1) (withRecord 0 offering)
    let arriving := withFrame 9 (.claim client) (withRecord 0 (record .arriving))
    (s.Holds client 0 (record .associated) ∧ s.MarksClear ∧ s.Calm ∧ s.txCount < 12 ∧ s.port.notices.length < 16 ∧
        (after (.claim 1) s).record 0 = none ∧ (after (.claim 1) s).flow 3 = .release 0x7A31C0E2 client ∧
        (after (.claim 1) s).port.notices = [.handoffDone client 9] ∧
        (after (.claim 1) s).pli.tx.map (fun f => f.body.kind) = [.context]) ∧
      (declined.Holds client 0 offering ∧ (after (.decline 1) declined).record 0 = none) ∧
      (arriving.Holds client 0 (record .arriving) ∧ (after (.claim 1) arriving).record 0 = some (record .arriving)) := by
  decide +kernel

/-- The OFFER of section 4.8 and the node it reaches: the client heard at −252 q. -/
def offered : Handover :=
  { client := client, used := 95, dayStamp := 20210, profile := 3, access := 0
    flows := [{ digest := 0x7A31C0E2, share := 40, interval := 16 }] }

def hearing (q : Int) : State :=
  { node with
    clients := { node.clients with heard := [{ client := client, samples := firstSamples (-63), smoothed := q, last := 0 }] } }

def offerTo (s : State) : State := withFrame 9 (.offer offered) s

/-- The reason of the DECLINE a node sends. -/
def declinedFor (s : State) : Option Nat :=
  match (after (.offer 400) s).pli.tx with
  | [f] => match f.body with
    | .decline _ reason => some reason
    | _ => none
  | _ => none

theorem witness_OffersAreDeclinedInOrder :
    let evacuating : State := { node with act := { node.act with state := .evacuating } }
    let full : State := { node with prio := { node.prio with flows := Vector.replicate 128 (.release 0 other) } }
    let spent : State := { hearing (-252) with cfg := { node.cfg with ceiling := 39 } }
    (offered.Sound ∧ (offerTo evacuating).Leaving ∧ declinedFor (offerTo evacuating) = some 0) ∧
      ((offerTo (withRecord 0 (record .handing))).Holds client 0 (record .handing) ∧
        declinedFor (offerTo (withRecord 0 (record .handing))) = some 1) ∧
      (declinedFor (offerTo (withRecord 0 (record .arriving))) = some 2) ∧
      (full.freeFlowCount = 0 ∧ declinedFor (offerTo full) = some 3) ∧
      (¬(hearing (-329)).HearsWell client 400 ∧ declinedFor (offerTo (hearing (-329))) = some 4) ∧
      ((hearing (-328)).HearsWell client 400 ∧ declinedFor (offerTo (hearing (-328))) = none) ∧
      (spent.HearsWell client 3000 ∧ spent.cfg.ceiling < spent.viewTotal + 40 ∧ declinedFor (offerTo spent) = some 5) := by
  decide +kernel

theorem witness_OffersAreDeclined_ignored :
    let bad : Handover := { offered with used := 1441 }
    let odd : Handover := { offered with access := 4 }
    (¬bad.Sound ∧ (after (.offer 1) (withFrame 9 (.offer bad) (hearing (-252)))).pli.tx = []) ∧
      (3 < odd.access ∧ (after (.offer 1) (withFrame 9 (.offer odd) (hearing (-252)))).pli.tx = []) := by
  decide +kernel

theorem hearing_distinct : (offerTo (hearing (-252))).ListsDistinct :=
  ⟨by decide, by decide, by decide, by decide⟩

theorem hearing_airtime : (offerTo (hearing (-252))).AirtimeKept where
  ceiling := by decide +kernel
  owned := by
    intro j f h
    have : ∀ j : Fin 128, (offerTo (hearing (-252))).flow j = .free := by decide +kernel
    rw [this j] at h
    cases h
  oneRecord := by
    intro i j r q h
    have : ∀ i : Fin 64, (offerTo (hearing (-252))).record i = none := by decide +kernel
    rw [this i] at h
    cases h
  starting := by intro h; cases h

theorem hearing_room : (offerTo (hearing (-252))).HasRoom offered :=
  ⟨⟨0, .inl (by decide +kernel)⟩, by decide +kernel⟩

theorem witness_OffersAreAccepted :
    let s := offerTo (hearing (-252))
    (s.running = true ∧ s.MarksClear ∧ 1 ≤ s.cfg.nodeId ∧ s.cfg.nodeId ≤ 63 ∧ offered.Sound ∧
        accessOfCode offered.access = some .opened ∧ ¬s.Leaving ∧ s.findClient client = none ∧ s.HearsWell client 400 ∧
        s.viewTotal + 40 ≤ s.cfg.ceiling ∧ (offered.flows.map CarriedFlow.digest).Nodup ∧ s.record 0 = none) ∧
      ((after (.offer 400) s).record 0).map ClientRecord.timer = some (some 6400) ∧
      (after (.offer 400) s).ownReserved = 40 ∧
      (after (.offer 400) s).pli.tx = [{ sender := 5, dest := 9, body := .accept client }] := by
  decide +kernel

/-- A record that awaits context. -/
def awaiting (st : RecState) : ClientRecord :=
  { record st with contextAwaited := true, used := 96, dayStamp := 20210, countedHere := 1 }

def contextAt (day : Nat) (st : RecState) : State :=
  withFrame 9 (.context { offered with used := 96, dayStamp := day, flows := [] }) (withRecord 0 (awaiting st))

theorem witness_ContextsAreMerged :
    ((contextAt 20210 .associated).Holds client 0 (awaiting .associated) ∧ (contextAt 20210 .associated).MarksClear ∧
        (contextAt 20210 .associated).Calm ∧ (awaiting .associated).contextAwaited = true ∧
        ((after (.context 1) (contextAt 20210 .associated)).record 0).map ClientRecord.used = some 97) ∧
      (((after (.context 1) (contextAt 20209 .handing)).record 0).map ClientRecord.used = some 96) ∧
      (((after (.context 1) (contextAt 20211 .offering)).record 0).map ClientRecord.dayStamp = some 20211) ∧
      ((contextAt 20210 .provisional).Holds client 0 (awaiting .provisional) ∧
        ((after (.context 1) (contextAt 20210 .provisional)).record 0).map ClientRecord.state = some .associated ∧
        ((after (.context 1) (contextAt 20209 .provisional)).record 0).map ClientRecord.used = some 1) ∧
      ((after (.context 1) (contextAt 20210 .arriving)).record 0 = some (awaiting .arriving)) := by
  decide +kernel

theorem provisional_airtime : (contextAt 20210 .provisional).AirtimeKept where
  ceiling := by decide +kernel
  owned := by
    intro j f h
    have : ∀ j : Fin 128, (contextAt 20210 .provisional).flow j = .free := by decide +kernel
    rw [this j] at h
    cases h
  oneRecord := by
    intro i j r q h g _
    have : ∀ i : Fin 64, i ≠ 0 → (contextAt 20210 .provisional).record i = none := by decide +kernel
    have hi : i = 0 := by by_contra k; rw [this i k] at h; cases h
    have hj : j = 0 := by by_contra k; rw [this j k] at g; cases g
    rw [hi, hj]
  starting := by intro h; cases h

theorem witness_HandoffTimersExpire :
    let handing := { record .handing with offerTarget := some 9, timer := some 5045, steerAttempts := 2 }
    let arriving := { record .arriving with timer := some 6000 }
    let provisional := { record .provisional with timer := some 2000 }
    ((withRecord 7 offering).Holds client 7 offering ∧ offering.timer = some 400 ∧ (withRecord 7 offering).MarksClear ∧
        ((after (.offeringExpiry client) (withRecord 7 offering)).record 7).map ClientRecord.holds
          = some [{ peer := 9, untilTime := 10400 }]) ∧
      ((withRecord 7 handing).Holds client 7 handing ∧
        ((after (.handingExpiry client) (withRecord 7 handing)).record 7).map ClientRecord.resistantUntil = some (some 605045) ∧
        ((after (.handingExpiry client) (withRecord 7 handing)).record 7).map ClientRecord.steerAttempts = some 0) ∧
      ((withRecord 7 arriving).Holds client 7 arriving ∧ (after (.arrivingExpiry client) (withRecord 7 arriving)).record 7 = none) ∧
      ((withRecord 7 provisional).Holds client 7 provisional ∧ (withRecord 7 provisional).Calm ∧
        ((after (.provisionalExpiry client) (withRecord 7 provisional)).record 7).map ClientRecord.state = some .associated) := by
  decide +kernel

/-! ### Witnesses: clients -/

def associating : HostMsg := msg .associate (id6 client ++ beBytes 2 3000 ++ [1])

/-- Every slot occupied by the record of another client: associated, or two of them departed as in section 2.6. -/
def fullTable (departed : Bool) : State :=
  { node with
    clients := { node.clients with
      table := Vector.ofFn fun i : Fin 64 =>
        some (if departed && (i == 17 || i == 40) then
            { ClientRecord.blank (BitVec.ofNat 48 i) .departed 0 with departure := some (if i = 17 then 400000 else 385000) }
          else ClientRecord.blank (BitVec.ofNat 48 i) .associated 0) } }

theorem witness_AssociateCreatesARecord :
    (node.Takes ∧ node.MarksClear ∧ hostMsgOk .associate associating = true ∧ node.findClient client = none ∧
        node.record 0 = none ∧
        ((after (.associate 7 associating) node).record 0).map ClientRecord.linkRate = some 2400 ∧
        (after (.associate 7 associating) node).pli.tx = [{ sender := 5, dest := 0, body := .claim client }]) ∧
      ((∀ k, (fullTable true).record k ≠ none) ∧ (fullTable true).findClient client = none ∧ (fullTable true).Calm ∧
        ((fullTable true).record 40).bind ClientRecord.departure = some 385000 ∧
        ((after (.associate 410000 associating) (fullTable true)).record 40).map ClientRecord.client = some client ∧
        (after (.associate 410000 associating) (fullTable true)).clientCount = 63) ∧
      ((fullTable false).findClient client = none ∧
        (after (.associate 410000 associating) (fullTable false)).clients.refusals = [client]) := by
  decide +kernel

theorem witness_AssociateCreatesARecord_earliest :
    ∀ k q, (fullTable true).record k = some q → q.state = .departed →
      ∃ e, q.departure = some e ∧ (385000 < e ∨ (385000 = e ∧ 40 ≤ k)) := by
  have := records_check (fullTable true)
    (fun k q => q.state = .departed → ∃ e ∈ q.departure, (385000 < e ∨ (385000 = e ∧ (40 : Fin 64) ≤ k))) (by decide +kernel)
  intro k q h hq
  obtain ⟨e, he, hk⟩ := this k q h hq
  exact ⟨e, he, hk⟩

theorem witness_AssociateCreatesARecord_held : ∀ k, ∃ q, (fullTable false).record k = some q ∧ q.state ≠ .departed := by
  intro k
  refine ⟨ClientRecord.blank (BitVec.ofNat 48 k) .associated 0, ?_, fun h => by cases h⟩
  simp [fullTable, State.record]

/-- R171: a message whose kind byte is none of section 12.6, or that of another message, is discarded. -/
theorem test_kind_byte :
    let odd : Byte → HostMsg := fun k =>
      { associating with kind := k, crc := crc32 (portHeader k.toNat associating.tag associating.len ++ associating.body) }
    hostMsgOk .associate (odd 0x01) = true ∧ hostMsgOk .associate (odd 0x99) = false ∧ hostMsgOk .associate (odd 0x02) = false ∧
      (after (.associate 7 (odd 0x99)) node).record 0 = none ∧
      (Instr.associate 7 (odd 0x99)).wellFormed = true ∧ (Instr.associate 7 (odd 0x02)).wellFormed = false := by
  decide +kernel

/-- An ARRIVING record with one RESERVED flow. -/
def arrived : State := withFlow 3 { game .reserved with classifiedAt := none, admittedAt := none } (withRecord 0 { record .arriving with timer := some 6000 })

theorem witness_AssociateFindsARecord :
    let here := withRecord 0 (record .handing)
    let back := withRecord 0 { record .departed with departure := some 1 }
    (here.Takes ∧ here.Holds client 0 (record .handing) ∧ hostMsgOk .associate associating = true ∧ here.MarksClear ∧
        (after (.associate 7 associating) here).record 0 = some { record .handing with linkRate := 2400 }) ∧
      (back.Calm ∧ back.Holds client 0 { record .departed with departure := some 1 } ∧
        ((after (.associate 7 associating) back).record 0).map ClientRecord.state = some .associated ∧
        (after (.associate 7 associating) back).port.dirty.access[0] = true ∧ (after (.associate 7 associating) back).pli.tx = []) ∧
      (arrived.Calm ∧ (arrived.record 0).map ClientRecord.state = some .arriving ∧ arrived.findClient client = some 0 ∧
        (after (.associate 7 associating) arrived).flow 3 =
          .used { game .admitted with classifiedAt := some 7, admittedAt := some 7, lastActivity := 7 } ∧
        (after (.associate 7 associating) arrived).prio.pace.burst = 8000 ∧
        (after (.associate 7 associating) arrived).pli.tx = [{ sender := 5, dest := 0, body := .claim client }]) := by
  decide +kernel

theorem arrived_airtime : arrived.AirtimeKept where
  ceiling := by decide +kernel
  owned := by
    have := flows_check arrived (fun _ f => f.slot = 0 ∧ f.client = client) (by decide +kernel)
    intro j f h
    obtain ⟨h0, hc⟩ := this j f h
    rw [h0, hc]
    exact ⟨{ record .arriving with timer := some 6000 }, by decide +kernel, rfl⟩
  oneRecord := by
    intro i j r q h g _
    have : ∀ i : Fin 64, i ≠ 0 → arrived.record i = none := by decide +kernel
    have hi : i = 0 := by by_contra k; rw [this i k] at h; cases h
    have hj : j = 0 := by by_contra k; rw [this j k] at g; cases g
    rw [hi, hj]
  starting := by intro h; cases h

theorem witness_DisassociateDeparts :
    let m := msg .disassociate (id6 client)
    let s := withFlow 3 (game .admitted) (withRecord 0 { record .handing with offerTarget := some 9, timer := some 5045 })
    (s.Takes ∧ s.MarksClear ∧ s.Calm ∧ hostMsgOk .disassociate m = true ∧ s.findClient client = some 0 ∧
        ((after (.disassociate 1700 m) s).record 0).map ClientRecord.departure = some (some 1700) ∧
        (after (.disassociate 1700 m) s).port.dirty.steer[0] = true ∧
        (after (.disassociate 1700 m) s).flow 3 = .release 0x7A31C0E2 client ∧ (after (.disassociate 1700 m) s).ownReserved = 0) ∧
      ((withRecord 0 (record .arriving)).Holds client 0 (record .arriving) ∧
        (after (.disassociate 1700 m) (withRecord 0 (record .arriving))).record 0 = some (record .arriving)) ∧
      (node.findClient client = none ∧ (after (.disassociate 1700 m) node).now = 1700) := by
  decide +kernel

/-! ### Witnesses: scoring -/

/-- The node of section 3.7.1: own path cost 4 and peers 10 and 11 at −252 and −250, with the record handed on. The load
term is shifted down by 12 clients on both sides. -/
def scoring (r : ClientRecord) : State :=
  let s := withRecord 0 r
  { s with
    peers := { s.peers with
      ownPath := 4
      table := [{ peerEntry 10 with advert := { advert with clientCount := 9, freeSlots := 55 } },
                { peerEntry 11 with advert := { advert with pathCost := 9, clientCount := 1, freeSlots := 63 } }]
      sightings := [{ client := client, peer := 10, smoothed := -240, validity := 40000 },
                    { client := client, peer := 11, smoothed := -230, validity := 40000 }] }
    clients := { s.clients with handed := [client] } }

theorem witness_BestCandidateIsTheHighest :
    (scoring (record .associated)).bestCandidate (record .associated) = some (11, -250) ∧
      (scoring (record .associated)).candidates (record .associated) = [(10, -252), (11, -250)] ∧
      node.bestCandidate (record .associated) = none := by
  decide +kernel

/-- Evaluations with the smoothed value given. -/
def judged (q : Int) (candidate : Option Nat) (confirm : Nat) : ClientRecord :=
  { record .associated with smoothed := some q, candidate := candidate, confirm := confirm }

/-- The candidate and confirm count, and the state, an evaluation leaves. -/
def verdict (n : Nat) (r : ClientRecord) : Option (RecState × Option Nat × Nat) :=
  ((after (.evaluation n) (scoring r)).record 0).map fun x => (x.state, x.candidate, x.confirm)

theorem witness_EvaluationsCountOrOffer :
    ((scoring (record .handing)).Holds client 0 (record .handing) ∧ verdict 30000 (record .handing) = some (.handing, none, 0)) ∧
      ((scoring (judged (-274) (some 11) 1)).Holds client 0 (judged (-274) (some 11) 1) ∧
        (scoring (judged (-274) (some 11) 1)).MarksClear ∧ (scoring (judged (-274) (some 11) 1)).cfg.steering = true) := by
  decide +kernel

theorem witness_EvaluationsCountOrOffer_verdicts :
    [verdict 29999 (judged (-274) (some 11) 1), verdict 30000 (judged (-273) (some 11) 1), verdict 30000 (judged (-274) (some 10) 1),
        verdict 30000 (judged (-274) (some 11) 0), verdict 30000 (judged (-274) (some 11) 1),
        verdict 43001 (judged (-274) (some 11) 1), verdict 5 (judged (-329) (some 11) 1)] =
      [some (.associated, none, 0), some (.associated, none, 0), some (.associated, some 11, 1),
        some (.associated, some 11, 1), some (.offering, some 11, 0), some (.associated, none, 0), some (.offering, some 11, 0)] := by
  decide +kernel

theorem witness_EvaluationsCountOrOffer_game :
    let s := withFlow 0 (game .admitted) (scoring (judged (-298) (some 11) 1))
    let t := withFlow 0 (game .admitted) (scoring (judged (-297) (some 11) 1))
    (∃ j : Fin 128, s.flow j = .used (game .admitted)) ∧
      ((after (.evaluation 30000) s).record 0).map ClientRecord.offerTarget = some (some 11) ∧
      (after (.evaluation 30000) s).pli.tx =
        [{ sender := 5, dest := 11, body := .offer { offered with used := 0, dayStamp := 0, profile := 0 } }] ∧
      ((after (.evaluation 30000) t).record 0).map ClientRecord.candidate = some none := by
  decide +kernel

/-! ### Witnesses: flows -/

def sampleMsg (size stamp : Nat) : HostMsg := msg .flowSample (id6 client ++ beBytes 4 0x7A31C0E2 ++ beBytes 2 size ++ beBytes 2 stamp)
def activeMsg : HostMsg := msg .flowActive (id6 client ++ beBytes 4 0x7A31C0E2)
def endMsg : HostMsg := msg .flowEnd (id6 client ++ beBytes 4 0x7A31C0E2)

/-- A SAMPLING flow with some of the console's samples. -/
def sampling (k : Nat) : FlowRecord :=
  { game .sampling with
    samples := consoleSamples.take k, cls := none, meanSize := none, meanInterval := none, share := none
    classifiedAt := none, admittedAt := none }

/-- The node with the console's flow in slot 0. -/
def serving (f : FlowRecord) : State := withFlow 0 f (withRecord 0 (record .associated))

theorem witness_FlowSamplesAreTaken :
    let s := withRecord 0 (record .associated)
    let full : State := { s with prio := { s.prio with flows := Vector.replicate 128 (.release 0 other) } }
    (s.Takes ∧ s.MarksClear ∧ hostMsgOk .flowSample (sampleMsg 0 65400) = true ∧ s.Holds client 0 (record .associated) ∧
        s.findFlow client 0x7A31C0E2 = none ∧ s.flow 0 = .free ∧
        (after (.flowSample 5 (sampleMsg 0 65400)) s).flow 0 =
          .used { sampling 0 with samples := [{ size := 1, stamp := 65400 }], lastActivity := 5 }) ∧
      ((∀ k, full.flow k ≠ .free) ∧ full.findFlow client 0x7A31C0E2 = none ∧
        (after (.flowSample 5 (sampleMsg 0 65400)) full).flow 0 = .release 0 other) ∧
      ((serving (sampling 14)).findFlow client 0x7A31C0E2 = some 0 ∧ (sampling 14).samples.length < 15 ∧
        (after (.flowSample 5 (sampleMsg 180 88)) (serving (sampling 14))).flow 0 = .used { sampling 15 with lastActivity := 5 }) := by
  decide +kernel

theorem witness_FlowSamplesAreTaken_sixteenth :
    let s := serving (sampling 15)
    (s.Calm ∧ (sampling 15).samples.length = 15 ∧ s.findFlow client 0x7A31C0E2 = some 0 ∧
        (after (.flowSample 5 (sampleMsg 180 104)) s).flow 0 = .used { game .admitted with
          samples := consoleSamples, lastActivity := 5, classifiedAt := some 5, admittedAt := some 5 }) ∧
      (let w := withFlow 0 (sampling 15) (withRecord 0 (record .provisional));
        (after (.flowSample 5 (sampleMsg 180 104)) w).flow 0 = .used { game .waiting with
          samples := consoleSamples, lastActivity := 5, classifiedAt := some 5, admittedAt := none, reason := some .context }) ∧
      ((withRecord 0 (record .arriving)).Holds client 0 (record .arriving) ∧ ¬(record .arriving).Here) ∧
      node.findClient client = none := by
  decide +kernel

theorem witness_FlowSamplesAreTaken_past :
    let take := fun n f => (after (.flowSample n (sampleMsg 180 104)) (serving f)).flow 0
    let quiet := { game .waiting with reason := some .airtime }
    ((serving quiet).Calm ∧ (serving quiet).findFlow client 0x7A31C0E2 = some 0 ∧ quiet.lastActivity + 10000 ≤ 10000) ∧
      (take 5 (game .standard) = .used { game .standard with lastActivity := 5 }) ∧
      (take 5 (game .reserved) = .used { game .reserved with lastActivity := 5 }) ∧
      (take 9999 quiet = .used { quiet with lastActivity := 9999 }) ∧
      (take 10000 { quiet with holdUntil := some 11000 } = .used { quiet with holdUntil := some 11000, lastActivity := 10000 }) ∧
      (take 10000 quiet = .used { game .admitted with lastActivity := 10000, admittedAt := some 10000 }) ∧
      (take 5 (game .idle) = .used { game .admitted with lastActivity := 5, admittedAt := some 5 }) := by
  decide +kernel

theorem witness_ClassAndShareFollowTheSamples :
    consoleSamples.length = 16 ∧ (∀ x ∈ consoleSamples, x.stamp < 65536) ∧ 0 < 16 ∧ 0 < 144 ∧
      classOf (consoleSamples.map fun x => { x with size := 321 }) = .standard ∧
      classOf (consoleSamples.map fun x => { x with size := 1000 }) = .bulk := by decide

theorem witness_FlowActivityRenewsOrTests :
    let quiet := { game .waiting with reason := some .airtime }
    (node.Takes ∧ hostMsgOk .flowActive activeMsg = true ∧ node.findClient client = none ∧
        node.findFlow client 0x7A31C0E2 = none ∧ (after (.flowActive 5 activeMsg) node).now = 5) ∧
      ((withRecord 0 (record .associated)).findFlow client 0x7A31C0E2 = none ∧
        ((after (.flowActive 5 activeMsg) (withRecord 0 (record .associated))).record 0).map ClientRecord.active = some true) ∧
      ((serving quiet).findFlow client 0x7A31C0E2 = some 0 ∧ quiet.slot = 0 ∧ (serving quiet).Calm ∧
        (after (.flowActive 9999 activeMsg) (serving quiet)).flow 0 = .used { quiet with lastActivity := 9999 } ∧
        (after (.flowActive 10000 activeMsg) (serving quiet)).flow 0 =
          .used { game .admitted with lastActivity := 10000, admittedAt := some 10000 }) ∧
      ((after (.flowActive 9 activeMsg) (serving (game .idle))).flow 0 = .used { game .admitted with lastActivity := 9, admittedAt := some 9 } ∧
        (after (.flowActive 9 activeMsg) (serving (game .bulk))).flow 0 = .used { game .bulk with lastActivity := 9 }) := by
  decide +kernel

theorem arrived_entitled : arrived.FlowsEntitled where
  starting := by intro h; cases h
  admitted := by
    have := flows_check arrived (fun _ f => f.state = .reserved) (by decide +kernel)
    intro j f h k
    rw [this j f h] at k
    cases k
  reserved := by
    have h1 := flows_check arrived (fun _ f => f.state = .reserved) (by decide +kernel)
    have h2 := records_check arrived (fun _ r => r.state = .arriving) (by decide +kernel)
    intro j f r h k
    rw [h1 j f h, h2 _ r k]
    decide
  departed := by
    have h2 := records_check arrived (fun _ r => r.state = .arriving) (by decide +kernel)
    intro j f r _ k
    rw [h2 _ r k]
    decide
  leaving := by intro h; rcases h with h | h | h <;> cases h

theorem witness_FlowActivity_arriving :
    (arrived.record 0).map ClientRecord.state = some .arriving ∧ arrived.findFlow client 0x7A31C0E2 = some 3 ∧
      (after (.flowActive 5 activeMsg) arrived).flow 3 = arrived.flow 3 ∧
      (after (.flowActive 5 activeMsg) arrived).record 0 = arrived.record 0 := by
  decide +kernel

theorem witness_FlowsEnd :
    let s := serving (game .admitted)
    (s.Takes ∧ s.MarksClear ∧ s.Calm ∧ hostMsgOk .flowEnd endMsg = true ∧ s.Holds client 0 (record .associated) ∧
        s.findFlow client 0x7A31C0E2 = some 0 ∧ (after (.flowEnd 5 endMsg) s).flow 0 = .release 0x7A31C0E2 client ∧
        (after (.flowEnd 5 endMsg) (serving (sampling 3))).flow 0 = .free) ∧
      (node.findFlow client 0x7A31C0E2 = none ∧ (after (.flowEnd 5 endMsg) node).now = 5) ∧
      ((after (.flowRemovalTimerExpiry 0) s).now = 60000 ∧ (after (.flowRemovalTimerExpiry 0) s).flow 0 = .release 0x7A31C0E2 client) ∧
      ((after (.idleTimerExpiry 0) s).now = 10000 ∧ (after (.idleTimerExpiry 0) s).flow 0 = .used (game .idle) ∧
        (after (.idleTimerExpiry 0) s).prio.pace.interval = none) := by
  decide +kernel

/-- Section 7.8.2: a waiting flow of 40 with 140 held here, a peer at 150 and another at 91, then 90. -/
def waitingFor (peerShare : Nat) : State :=
  let a := { advert with reserved := 150 }
  let b := { advert with reserved := peerShare }
  withPeers [{ peerEntry 9 with advert := a }, { peerEntry 12 with advert := b }]
    (withFlow 1 { game .admitted with digest := 1, share := some 120 } (serving { game .waiting with reason := some .airtime }))

theorem waiting_airtime (k : Nat) : (waitingFor k).AirtimeKept := by
  have hf : (waitingFor k).flow = (waitingFor 0).flow := rfl
  have hr : (waitingFor k).record = (waitingFor 0).record := rfl
  have ho : (waitingFor k).ownReserved = (waitingFor 0).ownReserved := rfl
  refine ⟨?_, ?_, ?_, ?_⟩
  · rw [ho]
    show (waitingFor 0).ownReserved ≤ 400
    decide +kernel
  · rw [hf, hr]
    have := flows_check (waitingFor 0) (fun _ f => f.slot = 0 ∧ f.client = client) (by decide +kernel)
    intro j f h
    obtain ⟨h0, hc⟩ := this j f h
    rw [h0, hc]
    exact ⟨record .associated, by decide +kernel, rfl⟩
  · intro i j r q h g _
    have : ∀ i : Fin 64, i ≠ 0 → (waitingFor 0).record i = none := by decide +kernel
    have hi : i = 0 := by by_contra n; rw [hr, this i n] at h; cases h
    have hj : j = 0 := by by_contra n; rw [hr, this j n] at g; cases g
    rw [hi, hj]
  · intro h; cases h

theorem witness_Rounds :
    (waitingFor 91).round.flow 0 = (waitingFor 91).flow 0 ∧ (waitingFor 90).viewTotal = 360 ∧
      (waitingFor 90).round.flow 0 = .used (game .admitted) ∧ (waitingFor 90).round.viewTotal = 400 := by
  decide +kernel

theorem witness_Overshoot :
    let s := { waitingFor 131 with now := 7 }
    (s.cfg.ceiling < s.viewTotal ∧ s.overshoot.ownReserved = 120 ∧ s.overshoot.flow 1 = s.flow 1) ∧
      (let t := { waitingFor 260 with now := 7, cfg := { node.cfg with ceiling := 300 } };
        t.overshoot.flow 1 = .used { game .waiting with
          digest := 1, share := some 120, reason := some .overshoot, holdUntil := some 5007 }) ∧
      (waitingFor 90).viewTotal ≤ (waitingFor 90).cfg.ceiling := by
  decide +kernel

/-- Two ADMITTED flows of the client, the one in slot 1 admitted later. -/
def admittedTwo (later : Nat) : State :=
  withFlow 1 { game .admitted with digest := 1, admittedAt := some later } (serving (game .admitted))

theorem witness_Overshoot_newest :
    let heavy := fun (later : Nat) => { admittedTwo later with cfg := { node.cfg with ceiling := 50 }, now := 7 }
    let bumped := { game .waiting with reason := some .overshoot, holdUntil := some 5007 }
    ((heavy 5).viewTotal = 80 ∧ (heavy 5).cfg.ceiling < (heavy 5).viewTotal ∧
        (heavy 5).overshoot.flow 1 = .used { bumped with digest := 1, admittedAt := some 5 } ∧
        (heavy 5).overshoot.flow 0 = (heavy 5).flow 0 ∧ (heavy 5).overshoot.ownReserved = 40) ∧
      ((heavy 0).overshoot.flow 1 = .used { bumped with digest := 1 } ∧ (heavy 0).overshoot.flow 0 = (heavy 0).flow 0) := by
  decide +kernel

theorem witness_Rounds_commands :
    let heard := withFrame 9 (.advert { advert with timeRank := 14, reserved := 310 }) (withPeers [peerEntry 9] (admittedTwo 5))
    let t := after (.advert 44) heard
    let w := withFlow 1 { game .waiting with digest := 1, share := some 390, reason := some .airtime } (serving (game .admitted))
    let low := withFlow 1 { game .waiting with digest := 1, share := some 390, reason := some .airtime } (serving (game .standard))
    (heard.Calm ∧ heard.MarksClear ∧ heard.time.rank ≤ 14 + 1 ∧ (heard.peer 9).isSome = true ∧
        t.prio.flows = (State.round (State.overshoot { heard.taking 44 [] with peers := t.peers })).prio.flows ∧
        t.flow 1 = heard.flow 1) ∧
      (w.Holds client 0 (record .associated) ∧ w.findFlow client 0x7A31C0E2 = some 0 ∧
        (after (.flowEnd 5 endMsg) w).flow 1 = .used { game .admitted with digest := 1, share := some 390, lastActivity := 0, admittedAt := some 5 } ∧
        (after (.flowEnd 5 endMsg) low).flow 1 = low.flow 1) := by
  decide +kernel

/-- R121: a flow of one interval ends, the evacuation it opens frees an arriving record's share, and the round then admits
another flow of that interval: the Pace record, worked out once from the set as the event leaves it, has not changed. -/
theorem test_pace_is_worked_once :
    let w := withFlow 2 { game .waiting with digest := 2, reason := some .airtime }
      (withFlow 1 { game .reserved with digest := 1, slot := 1, client := other, share := some 390 }
        (withRecord 1 { record .arriving with client := other, timer := some 6000 } (serving (game .admitted))))
    let s : State :=
      { w with
        act := { w.act with state := .waiting, activateNow := true }
        prio := { w.prio with pace := w.paceNow }
        port := { w.port with dirty := { w.port.dirty with pace := false } } }
    let t := after (.flowEnd 5 endMsg) s
    s.prio.pace.interval = some 16 ∧ t.act.state = .evacuating ∧ t.record 1 = none ∧
      t.flow 2 = .used { game .admitted with digest := 2, admittedAt := some 5 } ∧
      t.prio.pace = s.prio.pace ∧ t.port.dirty.pace = false := by
  decide +kernel

/-! ### Witnesses: peers and the radio -/

theorem witness_PeerTimersExpire :
    let s := withPeers [peerEntry 9, peerEntry 12]
    (s.running = true ∧ s.MarksClear ∧ s.Calm ∧ s.peer 9 = some (peerEntry 9) ∧ (peerEntry 9).fresh = true ∧
        (after (.freshnessTimerExpiry 9) s).now = 2000 ∧ (after (.freshnessTimerExpiry 9) s).peers.ownPath = 5) ∧
      ((after (.removalTimerExpiry 9) s).now = 4000 ∧ (after (.removalTimerExpiry 9) s).peers.table = [peerEntry 12] ∧
        (after (.removalTimerExpiry 9) s).port.notices = [.peerLost 9]) := by
  decide +kernel

theorem witness_AdvertExpiryBuildsAnAdvert :
    let s := serving (game .admitted)
    (s.running = true ∧ s.peers.advertDue = some 500 ∧ 1 ≤ s.cfg.nodeId ∧ s.cfg.nodeId ≤ 63 ∧ s.cfg.ceiling ≤ 800 ∧
        s.sched.book.origin ≤ 63) ∧
      (after .advertTimerExpiry s).peers.advertDue = some 1000 ∧ (after .advertTimerExpiry s).prio.pullCredits = 2 ∧
      (match (after .advertTimerExpiry s).pli.tx with
        | [f] => match f.body with
          | .advert a => a.reserved == 40 && a.clientCount == 1 && a.pathCost == 63 && a.inRange
          | _ => false
        | _ => false) = true := by
  decide +kernel

/-- A full Heard List of 20 entries of rising client ids, smoothed values falling by one each, and an entry that is 3 s old. -/
theorem witness_AdvertExpiry_sightings :
    let s := listening 20
    let old : State := { s with clients := { s.clients with heard := s.clients.heard.map fun e => if e.client = 3 then { e with last := 0 } else { e with last := 1 } } }
    let late : State := { old with peers := { old.peers with advertDue := some 3000 } }
    let published := fun (t : State) => match (after .advertTimerExpiry t).pli.tx with
      | [f] => match f.body with
        | .advert a => a.sightings.map fun g => g.client.toNat
        | _ => []
      | _ => []
    published s = List.range 16 ∧ published late = [0, 1, 2, 4, 5, 6, 7, 8, 9, 10, 11, 12, 13, 14, 15, 16] := by
  decide +kernel

theorem witness_RadioTakesTheHead :
    let f : Frame := { sender := 5, dest := 9, body := .claim client }
    let s : State := { node with pli := { node.pli with tx := [f, { f with body := .bookRequest }] } }
    (s.running = true ∧ s.dist.serve = [] ∧ (after (.frameTakenByRadio 1) s).pli.tx = [{ f with body := .bookRequest }] ∧
        ((after (.frameTakenByRadio 1) s).radioOut).bind readFrame = some f) ∧
      (node.pli.tx = [] ∧ (after (.frameTakenByRadio 1) node).now = 1) := by
  decide +kernel

/-! ### Witnesses: time and the book -/

theorem witness_TimeIsSetAndAges :
    let m := msg .setTime (beBytes 4 (20210 * 86400 + 61))
    let aged (r : Nat) : State := { node with time := { node.time with rank := r, ageingDue := some 86400000 } }
    (node.Takes ∧ node.configured = true ∧ hostMsgOk .setTime m = true ∧
        (after (.setTime 5 m) node).time =
          { node.time with
            mesh := 20210 * 86400 + 61, rank := 0, ageingDue := some 86400005, minuteMark := 20210 * 1440 + 1, dayMark := 20210 } ∧
        (after (.setTime 5 m) node).port.replies = answered .ok) ∧
      ((aged 13).time.rank < 14 ∧ (after .ageingTimerExpiry (aged 13)).time.rank = 14 ∧
        (after .ageingTimerExpiry (aged 13)).time.ageingDue = some 172800000) ∧
      ((aged 14).time.rank = 14 ∧ (after .ageingTimerExpiry (aged 14)).time.rank = 15 ∧
        (after .ageingTimerExpiry (aged 14)).time.ageingDue = none) := by
  decide +kernel

/-- Node 5 at Tuesday 23:59:59 of day 20,210 with a record active in the closing minute and a DEPARTED one. -/
def midnight : State :=
  let s := withRecord 1 { record .departed with client := other }
    (withRecord 0 { record .associated with active := true, used := 119, countedHere := 7, dayStamp := 20210 })
  { s with time := { s.time with mesh := 20210 * 86400 + 86399, rank := 1, minuteMark := 20210 * 1440 + 1439, dayMark := 20210 } }

theorem witness_TicksCountMinutesAndDays :
    (node.running = true ∧ node.MarksClear ∧ node.Calm ∧ node.time.tickDue = some 1000 ∧ node.sched.writeOwed = false ∧
        node.time.rank = 15 ∧ (after .tick { node with time := { node.time with mesh := 4294967295 } }).time.mesh = 0) ∧
      (midnight.time.rank < 15 ∧ (midnight.time.mesh + 1) % 4294967296 / 60 ≠ midnight.time.minuteMark ∧
        midnight.time.dayMark < (midnight.time.mesh + 1) % 4294967296 / 86400 ∧
        ((after .tick midnight).record 0).map (fun r => (r.used, r.dayStamp, r.countedHere, r.active)) = some (0, 20211, 0, false) ∧
        (after .tick midnight).record 1 = none) := by
  decide +kernel

theorem witness_TicksCountMinutes :
    let s := { midnight with time := { midnight.time with mesh := midnight.time.mesh - 60, minuteMark := midnight.time.minuteMark - 1 } }
    (s.time.mesh + 1) % 4294967296 / 86400 ≤ s.time.dayMark ∧
      ((after .tick s).record 0).map (fun r => (r.used, r.countedHere, r.active)) = some (120, 8, false) := by
  decide +kernel

/-- A small book and its two parts. -/
def book8 : Book := { Book.emptyBook with version := 8, origin := 9, bindings := [{ client := client, profile := 3 }] }

/-- Staging after the part 1 of that book, from node 9. -/
def staged : State :=
  let bs := writeBook book8
  let s := withFrame 9 (.bookSegment 8 9 bs.length 0 (bookParts bs).1) node
  { s with
    sched := { s.sched with
      staging := some { version := 8, origin := 9, len := bs.length, part0 := none, part1 := some (bookParts bs).2, due := 2000 } } }

theorem witness_BookFramesAreTaken :
    let bs := writeBook book8
    let first := withFrame 9 (.bookSegment 8 9 bs.length 1 (bookParts bs).2) node
    let short := withFrame 9 (.bookSegment 8 9 62 1 []) node
    (bs.length = 70 ∧ first.running = true ∧ first.MarksClear ∧ first.sched.staging = none ∧
        ((after (.bookSegment 3) first).sched.staging).map Staging.due = some 2003) ∧
      ((after (.bookSegment 3) short).sched = node.sched) ∧
      ((after (.bookSegment 3) staged).sched.book = book8 ∧ (after (.bookSegment 3) staged).sched.staging = none ∧
        (after (.bookSegment 3) staged).port.notices = [.bookAdopted 9 8]) := by
  decide +kernel

theorem witness_BookFramesAreTaken_others :
    let bs := writeBook book8
    let again := { staged with pli := { staged.pli with rx := [{ sender := 9, dest := 5, body := .bookSegment 8 9 bs.length 1 (bookParts bs).2 }] } }
    let lower := { staged with pli := { staged.pli with rx := [{ sender := 9, dest := 5, body := .bookSegment 8 8 bs.length 1 (bookParts bs).2 }] } }
    let spoiled := { staged with pli := { staged.pli with rx := [{ sender := 9, dest := 5, body := .bookSegment 8 9 bs.length 0 (List.replicate 35 0) }] } }
    let asked := withFrame 9 .bookRequest node
    ((after (.bookSegment 3) again).sched = staged.sched) ∧ ((after (.bookSegment 3) lower).sched = staged.sched) ∧
      ((after (.bookSegment 3) spoiled).sched.book = Book.emptyBook ∧ (after (.bookSegment 3) spoiled).sched.staging = none) ∧
      (after (.bookRequest 3) asked).pli.tx.map (fun f => f.body.kind) = [.bookSegment, .bookSegment] := by
  decide +kernel

theorem witness_LoadBookAdoptsTheBook :
    let m := msg .loadBook (writeBook book8)
    let bad := msg .loadBook (List.replicate 63 0)
    let last : State := { node with sched := { node.sched with book := { Book.emptyBook with version := 4294967295 } } }
    let s := withRecord 0 (record .associated)
    (s.Takes ∧ s.MarksClear ∧ s.configured = true ∧ s.Calm ∧ hostMsgOk .loadBook m = true ∧ readBook (writeBook book8) = some book8 ∧
        s.sched.book.version < 4294967295 ∧ (after (.loadBook 5 m) s).sched.book.version = 1 ∧
        (after (.loadBook 5 m) s).sched.book.origin = 5 ∧ (after (.loadBook 5 m) s).port.replies = answered .ok ∧
        ((after (.loadBook 5 m) s).record 0).map ClientRecord.profile = some 3) ∧
      (hostMsgOk .loadBook bad = true ∧ readBook (List.replicate 63 0) = none ∧
        (after (.loadBook 5 bad) node).port.replies = answered .malformed) ∧
      (4294967295 ≤ last.sched.book.version ∧ (after (.loadBook 5 m) last).port.replies = answered .limit) := by
  decide +kernel

theorem ranged_book : book8.Ranged := by
  refine ⟨by decide, fun p hp => ?_, by decide⟩
  have : p = { allowance := none, windows := [] } := List.eq_of_mem_replicate hp
  subst this
  exact ⟨fun a h => by (cases h), fun w h => by (cases h)⟩

theorem witness_LoadBook_clamps :
    let b : Book := { book8 with
      quiet := { mask := 0xFF, start := 1440, stop := 1441 }
      profiles := book8.profiles.set 1 { allowance := some 1441, windows := [{ span := { mask := 0x80, start := 65535, stop := 65535 }, action := .cap }] }
      bindings := [{ client := client, profile := 16 }] }
    b.clamped.quiet = { mask := 0x7F, start := 1439, stop := 1440 } ∧
      b.clamped.profiles[1]? = some { allowance := some 1440, windows := [{ span := { mask := 0, start := 1439, stop := 1440 }, action := .cap }] } ∧
      b.clamped.bindings = [{ client := client, profile := 15 }] ∧ book8.clamped = book8 := by
  decide +kernel

/-! ### Witnesses: image distribution -/

/-- A manifest copy of version 7 for an image of 17 chunks; and the manifest with its own CRC right, whose CRC over 1,034
bytes is not worked out here. -/
def manifest7 : Manifest :=
  { version := 7, n := 17, blockCrcs := List.replicate 256 0x11223344, imageCrc := 0x55667788, ownCrc := 0 }
def sound7 : Manifest := { manifest7 with ownCrc := crc32 (manifestHead manifest7) }

/-- A spare slot FILLING version 7, with its first blocks as given. -/
def fillSlot (m : Option Manifest) (b0 b1 : Block) : SlotRecord :=
  (({ SlotRecord.blank with state := .filling, version := some 7, manifest := m }).putBlock 0 b0).putBlock 1 b1

/-- The node filling its slot B. -/
def filling (m : Option Manifest) (b0 b1 : Block) : State := node.putSlotRecord .b (fillSlot m b0 b1)

def opened : Block := { Block.blank with state := .opened }

/-- A frame from node 9 before a state. -/
def from9 (body : FrameBody) (s : State) : State := withFrame 9 body s

theorem sound_wellFormed (m : Manifest) (h : 1 ≤ m.n) (h' : m.n ≤ Config.maxChunks) :
    ({ m with ownCrc := crc32 (manifestHead m) } : Manifest).wellFormed = true := by
  have e : manifestHead { m with ownCrc := crc32 (manifestHead m) } = manifestHead m := rfl
  simp only [Manifest.wellFormed, e, beq_self_eq_true, h, h', decide_true, Bool.and_self]

theorem sound7_wellFormed : sound7.wellFormed = true := sound_wellFormed manifest7 (by decide) (by decide)

theorem witness_ManifestFramesAreTaken :
    let s := from9 (.manifestRequest 7) (filling (some manifest7) opened opened)
    let none9 := from9 (.manifestRequest 8) (filling (some manifest7) opened opened)
    (s.running = true ∧ s.MarksClear ∧ (s.slot .b).state ≠ .failed ∧ (s.slot .b).version = some 7 ∧
        (s.slot .b).manifest = some manifest7 ∧ (s.slot .a).version ≠ (s.slot .b).version ∧
        (after (.manifestRequest 1) s).pli.tx.map (fun f => f.body.kind) = [.manifest]) ∧
      ((none9.slot .a).version ≠ some 8 ∧ (none9.slot .b).version ≠ some 8 ∧ (after (.manifestRequest 1) none9).pli.tx = []) := by
  decide +kernel

/-- An ADVERT at rank 14 that announces version 7, a higher book, and two sightings, one of a client held here. -/
def newsAdvert : Advert :=
  { advert with
    timeRank := 14, bookVersion := 1, target := 7
    sightings := [{ client := client, smoothed := -240, age := 1 }, { client := other, smoothed := -230, age := 0 }] }

def news (s : State) : State := withFrame 10 (.advert newsAdvert) (withPeers [peerEntry 10] s)

/-- A book that is being collected. -/
def collecting (v : Nat) (s : State) : State :=
  { s with sched := { s.sched with staging := some { version := v, origin := 9, len := 63, part0 := none, part1 := none, due := 2000 } } }

theorem witness_AdvertEntersThePeerTable_filing :
    let s := news (withRecord 0 (record .associated))
    let barred : State := { s with dist := { s.dist with barred := some 7 } }
    let t := after (.advert 44) s
    (newsAdvert.inRange = true ∧ s.MarksClear ∧ (s.peer 10).isSome = true ∧ s.Calm ∧ s.time.rank ≤ newsAdvert.timeRank + 1 ∧
        s.act.state = .idle ∧ s.IsNewer 7 ∧
        t.peers.sightings = [{ client := client, peer := 10, smoothed := -240, validity := -956 }] ∧
        t.pli.tx = [{ sender := 5, dest := 10, body := .bookRequest }, { sender := 5, dest := 10, body := .manifestRequest 7 }] ∧
        t.slot .b = { SlotRecord.blank with state := .filling, version := some 7 }) ∧
      ((after (.advert 44) barred).slot .b = SlotRecord.blank ∧ (after (.advert 44) barred).dist = barred.dist ∧
        (after (.advert 44) (collecting 1 barred)).pli.tx = []) := by
  decide +kernel

theorem witness_AdvertEntersThePeerTable_fill :
    let ready := news (node.putSlotRecord .b { SlotRecord.blank with state := .ready, version := some 6 })
    let waiting : State := { ready with act := { ready.act with state := .waiting, activateNow := true } }
    let bare := news (filling none opened opened)
    (waiting.act.state = .waiting ∧ (waiting.slot waiting.spareSlot).state = .ready ∧ waiting.MarksClear ∧
        (after (.advert 44) waiting).act.state = .idle ∧ (after (.advert 44) waiting).act.activateNow = false ∧
        ((after (.advert 44) waiting).slot .b).version = some 7) ∧
      ((bare.slot .b).version = some 7 ∧ (after (.advert 44) bare).slot .b = bare.slot .b ∧
        (after (.advert 44) bare).pli.tx.map (fun f => f.body.kind) = [.bookRequest, .manifestRequest]) := by
  decide +kernel

theorem witness_AdvertEntersThePeerTable_evacuation :
    let s := fun (sender : Nat) (e : Bool) =>
      let a := { advert with timeRank := 14, evacuating := e }
      let n := withFrame sender (.advert a) (withPeers [peerEntry sender])
      ({ n with act := { n.act with state := .evacuating, evacuationDue := some 30000 } } : State)
    ((s 3 true).act.state = .evacuating ∧ (after (.advert 44) (s 3 true)).act.state = .waiting ∧
        (after (.advert 44) (s 3 true)).act.evacuationDue = none) ∧
      (after (.advert 44) (s 10 true)).act = (s 10 true).act ∧ (after (.advert 44) (s 3 false)).act = (s 3 false).act := by
  decide +kernel

theorem witness_AdvertEntersThePeerTable_sightings :
    let l := (List.range 128).map fun (x : Nat) =>
      ({ client := BitVec.ofNat 48 x, peer := 9, smoothed := -240 - (x : Int), validity := 0 } : SightingEntry)
    let g : SightingEntry := { client := client, peer := 9, smoothed := -366, validity := 0 }
    (fileSighting { g with client := 5, validity := 1 } l = l.set 5 { g with client := 5, validity := 1 } ∧
        fileSighting { g with client := 5, validity := -1 } l = l) ∧
      fileSighting g (l.take 127) = l.take 127 ++ [g] ∧ fileSighting g l = l.take 127 ++ [g] ∧
      fileSighting { g with smoothed := -367 } l = l := by
  decide +kernel

/-- The node at a MANIFEST, with its slot B FILLING without a manifest, and with a manifest write in the store. -/
def manifestAt (m : Manifest) : State := from9 (.manifest m) (filling none opened opened)
def manifestBusy : State :=
  { manifestAt sound7 with
    store := { node.store with inflight := some { owner := .fill, kind := .recordWrite (.manifest .b) 7 [] } } }

theorem witness_ManifestFramesAreTaken_fill :
    let s := manifestAt sound7
    (s.running = true ∧ s.MarksClear ∧ s.IsNewer sound7.version ∧ (s.slot .b).state = .filling ∧
        (s.slot .b).version = some sound7.version ∧ (s.slot .b).manifest = none ∧ s.StoreIdle ∧ s.SpareOpen) ∧
      (∃ op ∈ manifestBusy.storeOps, op.isManifestWrite = true) ∧
      ((s.storeManifest manifest7).slot .b).manifest = some manifest7 ∧ (s.storeManifest manifest7).dist.manifestOwed = false ∧
      ((s.storeManifest manifest7).store.inflight).map StoreOp.isManifestWrite = some true ∧
      (manifestBusy.storeManifest manifest7).dist.manifestOwed = true ∧
      ¬(manifestAt { sound7 with version := 0 }).IsNewer 0 := by
  decide +kernel

/-- The request of node 9 for chunks of a block. -/
def asks (v b start count mode : Nat) (s : State) : State := from9 (.chunkRequest v b start count mode) s

/-- The reason of the refusal sent. -/
def refusedFor (s : State) : Option Nat :=
  match (after (.chunkRequest 1) s).pli.tx with
  | [f] => match f.body with
    | .chunkRefuse reason _ _ => some reason
    | _ => none
  | _ => none

/-- A request of a peer in the serve queue. -/
def request (peer : Nat) : ServeRequest :=
  { peer := peer, version := 7, block := 0, start := 0, count := 1, hybrid := false, position := 0, reading := true }

/-- A node filling slot B with block 0 VERIFIED and 4 requests queued, one of them read for now. -/
def serving9 : State :=
  let s := filling (some manifest7) { opened with state := .verified } opened
  { s with
    store := { s.store with inflight := some { owner := .serve 9 0, kind := .readChunk .b 7 0 } }
    dist := { s.dist with serve := [request 9, request 10, request 11, request 12] } }

theorem witness_ChunkRequestsAreAnswered :
    let idle := filling (some manifest7) { opened with state := .verified } opened
    let restarting : State := { idle with act := { idle.act with state := .restarting } }
    let full : State := { serving9 with dist := { serving9.dist with serve := [request 13, request 10, request 11, request 12] } }
    ((after (.chunkRequest 1) (asks 7 0 16 1 0 idle)).pli.tx = [] ∧ (after (.chunkRequest 1) (asks 7 0 0 33 0 idle)).pli.tx = []) ∧
      (refusedFor (asks 7 0 15 32 1 restarting) = some 0 ∧ 4 ≤ full.dist.serve.length ∧
        (∀ q ∈ full.dist.serve, q.peer ≠ 9) ∧ refusedFor (asks 7 0 0 1 0 full) = some 0) ∧
      (idle.servingSlot 8 = none ∧ refusedFor (asks 8 0 0 1 0 idle) = some 1) ∧
      (idle.servingSlot 7 = some .b ∧ (idle.slot .b).length = 17 ∧ (idle.slot .b).blockVerified 1 = false ∧ idle.Fills 7 manifest7 ∧
        refusedFor (asks 7 1 16 1 0 idle) = some 2 ∧
        (after (.chunkRequest 1) (asks 7 1 16 1 0 idle)).dist.relay = some { block := 1, start := 16 }) ∧
      (refusedFor (asks 7 1 17 1 0 idle) = some 2 ∧ (after (.chunkRequest 1) (asks 7 1 17 1 0 idle)).dist.relay = none) := by
  decide +kernel

theorem witness_ChunkRequestsAreAnswered_queued :
    let s := asks 7 0 15 32 1 serving9
    s.running = true ∧ s.MarksClear ∧ s.servingSlot 7 = some .b ∧ 15 < (s.slot .b).length ∧ (s.slot .b).blockVerified 0 = true ∧
      0 < s.heldPlaces ∧ (after (.chunkRequest 1) s).dist.serve.map (fun q => (q.peer, q.start, q.reading)) =
        [(9, 15, false), (10, 0, true), (11, 0, true), (12, 0, true)] := by
  decide +kernel

theorem witness_ChunkRequestsAreAnswered_submitted :
    let idle := filling (some manifest7) { opened with state := .verified } opened
    let credits : State := { idle with prio := { idle.prio with serveCredits := 2 } }
    let t := after (.chunkRequest 1) (asks 7 0 15 32 1 credits)
    let held := after (.chunkRequest 1) (asks 7 0 15 32 1 idle)
    (credits.StoreIdle ∧ credits.dist.serve = [] ∧ 0 < credits.prio.serveCredits ∧ credits.txChunkCount < 8 ∧
        t.prio.serveCredits = 1 ∧ t.store.inflight = some { owner := .serve 9 0, kind := .readChunk .b 7 15 } ∧
        t.dist.serve.map (fun q => (q.peer, q.start, q.position, q.reading)) = [(9, 15, 0, true)]) ∧
      (idle.prio.serveCredits = 0 ∧ held.store.inflight = none ∧
        held.dist.serve.map (fun q => (q.peer, q.start, q.position, q.reading)) = [(9, 15, 0, false)]) := by
  decide +kernel

theorem filling_sound (b0 b1 : Block) : (filling (some manifest7) b0 b1).SpareSound := by
  intro m h
  have : manifest7 = m := Option.some.inj h
  subst this
  decide

/-- The bytes of a chunk, one of them listed. -/
def chunkData : List Byte := [0x5A]

/-- The node asking node 9 for block 0. -/
def asking : State :=
  { node with
    dist := { node.dist with
      outstanding := some
        { source := 9, version := 7, block := 0, start := 0, count := 1, hybrid := false, order := [0], last := 0, due := 800 } } }

theorem witness_ChunksAreTaken_refuse :
    (asking.dist.outstanding.isSome = true ∧ (after (.chunkRefuse 100) (from9 (.chunkRefuse 0 7 0) asking)).dist.outstanding = none ∧
        (after (.chunkRefuse 100) (from9 (.chunkRefuse 0 7 0) asking)).dist.busySkip = some { peer := 9, untilTime := 600 }) ∧
      (after (.chunkRefuse 100) (from9 (.chunkRefuse 2 7 0) asking)).dist.busySkip = none ∧
      (after (.chunkRefuse 100) (from9 (.chunkRefuse 0 7 1) asking)).dist.outstanding.isSome = true ∧
      (after (.chunkRefuse 100) (from9 (.chunkRefuse 3 7 0) asking)).dist.outstanding.isSome = true := by
  decide +kernel

/-- A block with its four suppliers named. -/
def supplied : Block := { opened with suppliers := [.peer 10, .peer 11, .peer 12, .ownHost] }

theorem witness_ChunksAreTaken :
    let s := from9 (.chunk 7 16 chunkData) (filling (some manifest7) supplied opened)
    let t := after (.chunk 1) s
    (s.running = true ∧ s.MarksClear ∧ s.dist.outstanding = none ∧ s.Fills 7 manifest7 ∧ s.StoreIdle ∧ s.SpareOpen ∧
        ((s.slot .b).block 1).state = .opened ∧ (s.slot .b).mark 16 = .missing ∧
        (t.slot .b).mark 16 = .pending ∧ ((t.slot .b).block 1).suppliers = [.peer 9] ∧
        t.store.inflight = some { owner := .fill, kind := .programChunk .b 7 16 chunkData }) ∧
      (after (.chunk 1) (from9 (.chunk 7 17 chunkData) (filling (some manifest7) supplied opened))).store.inflight = none ∧
      ((.peer 9 : Supplier) ∉ supplied.suppliers ∧
        (after (.chunk 1) (from9 (.chunk 7 15 chunkData) (filling (some manifest7) supplied opened))).store.inflight = none) ∧
      (after (.chunk 1) (from9 (.chunk 7 0 chunkData) (filling (some manifest7) { opened with state := .verified } opened))).store.inflight
          = none ∧
      (after (.chunk 1) (from9 (.chunk 7 0 chunkData) (filling (some manifest7) Block.blank opened))).store.inflight
          = some { owner := .fill, kind := .eraseBlock .b 7 0 } := by
  decide +kernel

/-- The request that awaits chunk 16 after chunk 0 of version 7, before a state. -/
def awaitingChunks (s : State) : State :=
  { s with
    dist := { s.dist with
      outstanding := some
        { source := 9, version := 7, block := 0, start := 0, count := 2, hybrid := true, order := [0, 16], last := 16, due := 800 } } }

theorem witness_ChunksAreTaken_outstanding :
    let due := fun (sender i : Nat) =>
      (after (.chunk 100) (awaitingChunks (withFrame sender (.chunk 7 i chunkData) (filling (some manifest7) supplied opened)))).dist.outstanding.map
        Outstanding.due
    [due 9 0, due 9 16, due 9 15, due 10 0, due 10 16] = [some 1100, none, some 800, some 800, some 800] := by
  decide +kernel

theorem witness_ChunksAreTaken_suppliers :
    let s := withFrame 10 (.chunk 7 0 chunkData) (filling (some manifest7) supplied opened)
    let t := after (.chunk 1) s
    let op : StoreOp := { owner := .schedule, kind := .recordRead .book }
    let full : State := { s with store := { s.store with inflight := some op, waiting := List.replicate 8 op } }
    ((.peer 10 : Supplier) ∈ ((s.slot .b).block 0).suppliers ∧ (t.slot .b).mark 0 = .pending ∧
        ((t.slot .b).block 0).suppliers = supplied.suppliers ∧
        t.store.inflight = some { owner := .fill, kind := .programChunk .b 7 0 chunkData }) ∧
      (8 ≤ full.store.waiting.length ∧ full.SpareOpen ∧ ((after (.chunk 1) full).slot .b).mark 0 = .missing ∧
        (after (.chunk 1) full).store.waiting.length = 8) := by
  decide +kernel

/-- A peer that announces version 7 with the first two blocks, the second with a higher link cost. -/
def source (id cost : Nat) (map : BitVec 256) : PeerEntry :=
  { peerEntry id with advert := { advert with target := 7, bitmap := map }, linkCost := cost }

/-- Blocks 0 and 1 of 17 chunks. -/
def bothBlocks : BitVec 256 := 0xC000000000000000000000000000000000000000000000000000000000000000

/-- The node at an advert expiry of its fill, with its peers. -/
def pulling (b0 b1 : Block) (peers : List PeerEntry) (relay : Option RelayDemand) : State :=
  let s := withPeers peers (filling (some manifest7) b0 b1)
  { s with dist := { s.dist with relay := relay, busySkip := some { peer := 12, untilTime := 600 } } }

/-- What an advert expiry asks for: its source, block, start, count, mode and last chunk. -/
def pulled (s : State) : Option (List Nat) :=
  (after .advertTimerExpiry s).dist.outstanding.map fun o => [o.source, o.block, o.start, o.count, o.hybrid.toNat, o.last]

/-- Chunk 0 programmed and chunk 1 on its way. -/
def begun : Block := (opened.setMark 0 .programmed).setMark 1 .pending

/-- Four peers with both blocks: one dearer, one with an unknown link cost, and one that the busy skip passes over. -/
def sources : List PeerEntry := [source 9 3 bothBlocks, source 10 2 bothBlocks, source 11 0 bothBlocks, source 12 1 bothBlocks]

theorem witness_PullStep :
    let s := pulling begun opened sources none
    (s.running = true ∧ s.MarksClear ∧ s.Calm ∧ s.peers.advertDue = some 500 ∧ s.Fills 7 manifest7 ∧ s.SpareOpen ∧ s.StoreIdle ∧
        s.dist.serve = [] ∧ s.dist.outstanding = none ∧ s.dist.manifestOwed = false) ∧
      pulled s = some [10, 0, 2, 15, 1, 0] ∧ (after .advertTimerExpiry s).prio.pullCredits = 17 := by
  decide +kernel

theorem witness_PullStep_others :
    let demand := some { block := 1, start := 16 }
    let skipped := pulling begun opened [source 12 3 bothBlocks] none
    (after .advertTimerExpiry (pulling begun opened sources none)).pli.tx.map (fun f => (f.dest, f.body.kind)) =
        [(0, .advert), (10, .chunkRequest)] ∧
      pulled (pulling begun opened [source 9 3 bothBlocks] demand) = some [9, 1, 16, 1, 0, 16] ∧
      pulled skipped = none ∧ (after .advertTimerExpiry skipped).prio.pullCredits = 32 := by
  decide +kernel

theorem witness_PullStep_dirty :
    let s := pulling Block.blank Block.blank [source 9 3 bothBlocks] none
    let t := after .advertTimerExpiry s
    let held := awaitingChunks s
    (t.storeOps = [{ owner := .fill, kind := .eraseBlock .b 7 0 }, { owner := .fill, kind := .eraseBlock .b 7 1 }] ∧
        ((t.slot .b).block 1).state = .erasing ∧ t.dist.outstanding = none ∧ t.prio.pullCredits = 32) ∧
      (after .advertTimerExpiry held).dist.outstanding = held.dist.outstanding := by
  decide +kernel

theorem witness_PullStep_marks :
    let s := pulling begun opened sources none
    s.ListsDistinct ∧ (s.slot s.spareSlot).checkOwed = false ∧ (∀ b : Fin 256, (s.slot .b).blocks[b].verifyOwed = false) := by
  refine ⟨⟨by decide, by decide, by decide, by decide⟩, rfl, by decide +kernel⟩

theorem hostMsg_ok (k : HostKind) (tag : Tag) (body : List Byte) (h : hostLengthOk k body.length = true)
    (hb : body.length < 65536) : hostMsgOk k (hostMsg k tag body) = true := by
  have : (BitVec.ofNat 16 body.length).toNat = body.length := by simp; omega
  have hk : k.code < 256 := by cases k <;> decide
  simp [hostMsgOk, hostMsg, this, h, Nat.mod_eq_of_lt hk]

theorem writeManifest_length : (writeManifest sound7).length = 1038 := by
  have h1 : (manifestHead sound7).length = 1034 := by decide +kernel
  have h2 : ∀ c : Crc, (crcBytes c).length = 4 := fun c => rfl
  rw [writeManifest, List.length_append, h1, h2]

def seedManifestMsg : HostMsg := msg .seedManifest (writeManifest sound7)
def seedChunkMsg (i : Nat) : HostMsg := msg .seedChunk (beBytes 4 7 ++ beBytes 2 i ++ List.replicate 1024 0x5A)

theorem witness_SeedingIsAnswered_manifest :
    hostMsgOk .seedManifest seedManifestMsg = true ∧ node.Takes ∧ node.configured = true ∧ node.IsNewer 7 ∧ node.mayFill 7 = true ∧
      (node.slot .b).state ≠ .filling := by
  refine ⟨?_, by decide +kernel⟩
  apply hostMsg_ok
  · rw [writeManifest_length]; rfl
  · rw [writeManifest_length]; decide

/-- The first lines of R155 that stop a manifest: not well formed, not above the booted version and at the floor, no fill
during a trial. -/
theorem witness_SeedingIsAnswered_lines :
    (let trial : State := { node with act := { node.act with sel := { Selector.blank with trial := true, confirmed := .b } } };
        trial.mayFill 7 = false ∧ trial.IsNewer 7) ∧
      (let high : State := { node with act := { node.act with sel := { Selector.blank with floor := 8 } } }; ¬high.IsNewer 7) ∧
      (let t := (node.startFill 7).storeManifest manifest7;
        (t.slot .b).state = .filling ∧ (t.slot .b).version = some 7 ∧ (t.slot .b).manifest = some manifest7) ∧
      (filling (some manifest7) opened opened).filling 7 true = true ∧ (filling none opened opened).filling 7 false = true := by
  decide +kernel

theorem witness_SeedingIsAnswered_message (i : Nat) : hostMsgOk .seedChunk (seedChunkMsg i) = true :=
  have h : (beBytes 4 7 ++ beBytes 2 i ++ List.replicate 1024 (0x5A : Byte)).length = 1030 := by
    rw [List.length_append, List.length_append, List.length_replicate]
    rfl
  hostMsg_ok _ _ _ (by rw [h]; rfl) (by rw [h]; decide)

theorem witness_SeedingIsAnswered_chunk :
    let s := filling (some manifest7) supplied opened
    (s.Takes ∧ s.configured = true ∧ s.Fills 7 manifest7 ∧ s.StoreIdle ∧ s.SpareOpen) ∧
      ((s.seedChunk 7 16 chunkData).2 = .ok ∧ (((s.seedChunk 7 16 chunkData).1.slot .b).block 1).suppliers = [.ownHost] ∧
        (s.seedChunk 7 17 chunkData).2 = .range ∧ (s.seedChunk 8 16 chunkData).2 = .state) := by
  decide +kernel

theorem witness_SeedingIsAnswered_blocks :
    let four := filling (some manifest7) { opened with suppliers := [.peer 10, .peer 11, .peer 12, .peer 13] } opened
    let dirty := filling (some manifest7) Block.blank opened
    let busy := filling (some manifest7) { opened with state := .erasing } opened
    let done := filling (some manifest7) { opened with state := .verifying } opened
    ((.ownHost : Supplier) ∉ ((four.slot .b).block 0).suppliers ∧ (four.seedChunk 7 0 chunkData).2 = .busy) ∧
      ((dirty.seedChunk 7 0 chunkData).2 = .busy ∧ (((dirty.seedChunk 7 0 chunkData).1.slot .b).block 0).state = .erasing) ∧
      (busy.seedChunk 7 0 chunkData).2 = .busy ∧ (done.seedChunk 7 0 chunkData).2 = .ok := by
  decide +kernel

theorem witness_SeedingIsAnswered_suppliers :
    let s := filling (some manifest7) supplied opened
    let op : StoreOp := { owner := .schedule, kind := .recordRead .book }
    let full : State := { s with store := { s.store with inflight := some op, waiting := List.replicate 8 op } }
    ((.ownHost : Supplier) ∈ ((s.slot .b).block 0).suppliers ∧ (s.seedChunk 7 0 chunkData).2 = .ok ∧
        (((s.seedChunk 7 0 chunkData).1.slot .b).block 0).suppliers = supplied.suppliers ∧
        (s.seedChunk 7 0 chunkData).1.store.inflight = some { owner := .fill, kind := .programChunk .b 7 0 chunkData }) ∧
      (8 ≤ full.store.waiting.length ∧ (full.seedChunk 7 0 chunkData).2 = .busy ∧
        ((full.seedChunk 7 0 chunkData).1.slot .b).mark 0 = .missing) := by
  decide +kernel

/-! ### Witnesses: store completions -/

/-- An operation of the fill in flight. -/
def flying (kind : OpKind) (s : State) : State := { s with store := { s.store with inflight := some { owner := .fill, kind := kind } } }

theorem witness_ErasesAndProgramsComplete :
    let s := flying (.eraseBlock .b 7 0) (filling (some manifest7) { opened with state := .erasing } opened)
    let dirty : State := { s with store := { s.store with flash := [(0x800000, 1), (0x803FFF, 2), (0x804000, 3)] } }
    (s.MarksClear ∧ s.Fills 7 manifest7 ∧ s.Flies { owner := .fill, kind := .eraseBlock .b 7 0 } ∧
        (after (.eraseBlockCompletion 1 Device.sound) dirty).store.flash = [(0x804000, 3)] ∧
        (((after (.eraseBlockCompletion 1 Device.sound) dirty).slot .b).block 0).state = .opened) ∧
      (((after (.eraseBlockCompletion 1 { Device.sound with failed := true }) s).slot .b).block 0).state = .dirty := by
  decide +kernel

/-- Chunk 16, alone in its block, on its way to the flash. -/
def programming (b : Nat) (i : Nat) : State :=
  let s := filling (some manifest7) opened opened
  flying (.programChunk .b 7 i [0x5A])
    (s.putSlotRecord .b ((s.slot .b).putBlock b (((s.slot .b).block b).setMark (i % 16) .pending)))

theorem witness_ErasesAndProgramsComplete_programs :
    ((programming 1 16).Fills 7 manifest7 ∧ ((programming 1 16).slot .b).mark 16 = .pending ∧
        ((after (.programChunkCompletion 1 Device.sound) (programming 1 16)).slot .b).mark 16 = .programmed ∧
        (after (.programChunkCompletion 1 Device.sound) (programming 1 16)).store.flash = [(0x804000, 0x5A)] ∧
        (after (.programChunkCompletion 1 Device.sound) (programming 1 16)).store.inflight =
          some { owner := .fill, kind := .verifyBlock .b 7 1 0x11223344 }) ∧
      (((programming 0 15).slot .b).mark 15 = .pending ∧
        ((after (.programChunkCompletion 1 Device.sound) (programming 0 15)).slot .b).mark 15 = .programmed ∧
        (after (.programChunkCompletion 1 Device.sound) (programming 0 15)).store.inflight = none) ∧
      (((after (.programChunkCompletion 1 { Device.sound with failed := true }) (programming 0 15)).slot .b).block 0).state = .dirty := by
  decide +kernel

/-- An image of one chunk: its block being verified against a CRC. -/
def manifest1 : Manifest := { manifest7 with n := 1 }
def verifying (crc : Crc) : State :=
  let b : Block := { ((opened.setMark 0 .programmed)) with state := .verifying, suppliers := [.peer 9] }
  flying (.verifyBlock .b 7 0 crc) (withPeers [peerEntry 9] (filling (some manifest1) b opened))

/-- The CRC of the 1,024 erased bytes the read-back returns. -/
def erasedCrc : Crc := crc32 (overlay [] 0x800000 (Memory.readBytes [] 0x800000 1024))

theorem witness_VerificationsComplete :
    ((verifying erasedCrc).MarksClear ∧ (verifying erasedCrc).Flies { owner := .fill, kind := .verifyBlock .b 7 0 erasedCrc } ∧
      ((verifying erasedCrc).slot .b).state = .filling) ∧ crc32 (overlay [] 0x800000 (Memory.readBytes [] 0x800000 1024)) = erasedCrc ∧
      crc32 (overlay [] 0x800000 (Memory.readBytes [] 0x800000 1024)) ≠ erasedCrc + 1 := by
  refine ⟨⟨rfl, ⟨rfl, rfl⟩, rfl⟩, rfl, ?_⟩
  show erasedCrc ≠ erasedCrc + 1
  generalize erasedCrc = x
  bv_omega

theorem witness_VerificationsComplete_delivered :
    let s := { verifying 0 with store := node.store, now := 1 }
    let good := s.verifyDone .b 7 0 (.matched 0)
    let bad := s.verifyDone .b 7 0 (.mismatched 1)
    ((good.slot .b).state = .checking ∧
        good.store.inflight = some { owner := .fill, kind := .checkImage .b 7 1 manifest1.imageCrc }) ∧
      (((bad.slot .b).block 0).state = .dirty ∧ bad.port.notices = [.blockRejected .b 0 7 [.peer 9]] ∧
        (bad.peer 9).bind PeerEntry.suspectUntil = some 60001) := by
  decide +kernel

/-- The same image being checked. -/
def checking (crc : Crc) : State :=
  let s := flying (.checkImage .b 7 1 crc) (filling (some manifest1) { opened with state := .verified } opened)
  s.putSlotRecord .b { s.slot .b with state := .checking }

theorem witness_ChecksComplete :
    (checking erasedCrc).Flies { owner := .fill, kind := .checkImage .b 7 1 erasedCrc } ∧ ((checking erasedCrc).slot .b).state = .checking :=
  ⟨⟨rfl, rfl⟩, rfl⟩

theorem witness_ChecksComplete_delivered :
    let s := { checking 0 with store := node.store }
    let good := s.checkDone .b 7 (.matched 0)
    let bad := s.checkDone .b 7 (.mismatched 1)
    ((good.slot .b).state = .ready ∧ good.act.state = .waiting ∧ good.port.notices = [.imageReady .b 7]) ∧
      ((bad.slot .b).state = .failed ∧ bad.dist.barred = some 7 ∧ bad.port.notices = [.imageFailed .b 7]) := by
  decide +kernel

theorem witness_ServedChunksAreSent :
    let s : State := { serving9 with dist := { serving9.dist with serve := [request 9] } }
    (s.running = true ∧ s.MarksClear ∧ 1 ≤ s.cfg.nodeId ∧ s.cfg.nodeId ≤ 63 ∧
        s.Flies { owner := .serve 9 0, kind := .readChunk .b 7 0 } ∧ (request 9).count ≤ (request 9).position + 1) ∧
      (after (.readChunkCompletion 1 Device.sound) s).pli.tx.map (fun f => (f.dest, f.body.kind)) = [(9, .chunk)] ∧
      (after (.readChunkCompletion 1 Device.sound) s).dist.serve = [] ∧
      (after (.readChunkCompletion 1 { Device.sound with failed := true }) s).pli.tx = [] := by
  decide +kernel

/-- The read of the serve engine for node 9 completes. -/
def readFor (q : ServeRequest) (i : Nat) (s : State) : State :=
  { s with
    prio := { s.prio with serveCredits := 2 }
    store := { s.store with inflight := some { owner := .serve 9 0, kind := .readChunk .b 7 i } }
    dist := { s.dist with serve := [q] } }

theorem witness_ServedChunksAreSent_next :
    let s := readFor { request 9 with start := 15, count := 3 } 15 serving9
    let t := after (.readChunkCompletion 1 Device.sound) s
    let moved := readFor { request 9 with count := 3, position := 1 } 0 (node.putSlotRecord .b { SlotRecord.blank with state := .failed, version := some 7 })
    let stale := { moved with prio := { moved.prio with serveCredits := 0 } }
    (t.pli.tx.length = 1 ∧ t.store.inflight = some { owner := .serve 9 0, kind := .readChunk .b 7 0 } ∧ t.prio.serveCredits = 1 ∧
        t.dist.serve.map (fun q => (q.position, q.reading)) = [(1, true)]) ∧
      (stale.servingSlot 7 = none ∧ (after (.readChunkCompletion 1 Device.sound) stale).pli.tx = [] ∧
        (after (.readChunkCompletion 1 Device.sound) stale).dist.serve = [{ request 9 with count := 3, position := 1, reading := false }]) ∧
      (after (.readChunkCompletion 1 Device.sound) moved).dist.serve = [] := by
  decide +kernel

/-! ### Witnesses: activation -/

def withAct (st : ActState) (sel : Selector) : State := { node with act := { node.act with state := st, sel := sel } }
def onTrial : Selector := { booted := .b, confirmed := .a, trial := true, trialStarts := 1, floor := 3 }

theorem witness_ActivationRequestsAreTaken :
    let m := msg .activateNow []
    let c := msg .confirmImage []
    ((withAct .waiting Selector.blank).Takes ∧ (withAct .waiting Selector.blank).configured = true ∧ hostMsgOk .activateNow m = true ∧
        (after (.activateNow 1 m) (withAct .waiting Selector.blank)).act.state = .committing) ∧
      ((withAct .waiting onTrial).act.sel.trial = true ∧ (after (.activateNow 1 m) (withAct .waiting onTrial)).act.state = .waiting ∧
        (after (.activateNow 1 m) (withAct .waiting onTrial)).act.activateNow = true) ∧
      ((after (.activateNow 1 m) (withAct .idle Selector.blank)).port.replies = answered .state) ∧
      (hostMsgOk .confirmImage c = true ∧ (withAct .idle onTrial).StoreIdle ∧ (withAct .idle onTrial).MarksClear ∧
        (after (.confirmImage 1 c) (withAct .idle onTrial)).port.replies = [] ∧
        (after (.confirmImage 1 c) (withAct .idle onTrial)).act.writeInFlight = true ∧
        ((after (.confirmImage 1 c) (withAct .idle onTrial)).store.inflight).map StoreOp.isConfirm = some true) ∧
      ((after (.confirmImage 1 c) (withAct .waiting onTrial)).port.replies = answered .state) := by
  decide +kernel

theorem witness_ActivationTimersExpire :
    let evac : State := { withAct .evacuating Selector.blank with act := { (withAct .evacuating Selector.blank).act with evacuationDue := some 30000 } }
    let trial : State := { withAct .idle onTrial with act := { (withAct .idle onTrial).act with confirmDue := some 600000 } }
    let confirming : State :=
      { trial with store := { trial.store with inflight := some { owner := .activation, kind := .selectorWrite 0 (.confirm 7) onTrial none } } }
    (evac.running = true ∧ evac.MarksClear ∧ evac.StoreIdle ∧ (after .evacuationLimitExpiry evac).act.state = .committing) ∧
      ((∃ op ∈ confirming.storeOps, op.isConfirm = true) ∧ (after .confirmTimerExpiry confirming).act.confirmHeld = true ∧
        (after .confirmTimerExpiry confirming).act.state = .idle) ∧
      (trial.StoreIdle ∧ (after .confirmTimerExpiry trial).act.state = .restarting ∧ (after .confirmTimerExpiry trial).now = 600000) := by
  decide +kernel

theorem witness_ConfirmExpiry_arriving :
    let trial : State := { withAct .idle onTrial with act := { (withAct .idle onTrial).act with confirmDue := some 600000 } }
    let s := withFlow 3 (game .reserved) (withRecord 0 { record .arriving with timer := some 6000 } trial)
    let t := after .confirmTimerExpiry s
    s.StoreIdle ∧ t.act.state = .restarting ∧ t.record 0 = none ∧ t.flow 3 = .free ∧ t.ownReserved = 0 ∧
      t.store.inflight = some { owner := .activation, kind := .selectorWrite 0 .revert onTrial.reverted (some (.zero, 1)) } := by
  decide +kernel

theorem witness_ActivationTimersExpire_retry :
    let w : RetriedWrite := { order := 4, owner := .activation, purpose := .revert, sel := onTrial.reverted }
    let s : State := { withAct .restarting onTrial with act := { (withAct .restarting onTrial).act with retry := some w, retryDue := some 1000 } }
    let busy : State :=
      { s with store := { s.store with inflight := some { owner := .start, kind := .selectorWrite 0 .trialStart onTrial none } } }
    (s.StoreIdle ∧ s.act.retry = some w ∧ w.owner = .activation ∧ (after .writeRetryTimerExpiry s).act.retryDue = none ∧
        (after .writeRetryTimerExpiry s).store.inflight = some { owner := .activation, kind := .selectorWrite 4 .revert onTrial.reverted (some (.zero, 1)) }) ∧
      ((∃ op ∈ busy.storeOps, op.isSelectorWrite = true) ∧ (after .writeRetryTimerExpiry busy).act.retryDue = some 2000) := by
  decide +kernel

/-- A start that waits at a stage for an operation. -/
def startingAt (stage : Stage) (op : StoreOp) : State :=
  { node with seq := { node.seq with stage := stage }, store := { node.store with inflight := some op } }

/-- R177: after a promotion the active area is read, and a part that cannot read it is unconfigured. -/
theorem test_promoted_area_is_read :
    let cfg : List Byte := 5 :: List.replicate 11 0xFF
    let wrote := startingAt (.promote cfg) { owner := .start, kind := .recordWrite .configActive 0 cfg }
    let t := after (.recordWriteCompletion 1 Device.sound) wrote
    t.seq.stage = .readPromoted ∧ t.store.inflight = some { owner := .start, kind := .recordRead .configActive } ∧
      (after (.recordReadCompletion 2 { Device.sound with failed := true }) t).configured = false ∧
      (after (.recordReadCompletion 2 Device.sound) t).cfg.nodeId = 5 := by
  decide +kernel

/-- R158, R170: a revert of a recovery start that is done at its retry, before the start completes, leaves RESTARTING. -/
theorem test_retried_revert_restarts :
    let op : StoreOp := { owner := .start, kind := .selectorWrite 0 (.recovery true) onTrial.reverted (some (.one, 5)) }
    let t := after (.recordWriteCompletion 1 Device.sound) (startingAt .readBook op)
    t.seq.wroteRevert = true ∧ t.stateAfterStart = .restarting := by
  decide +kernel

/-- R170: a manifest area whose erase fails reads invalid, whatever the device has left of it. -/
theorem test_failed_manifest_erase_reads_invalid :
    let op : StoreOp := { owner := .start, kind := .eraseArea (.manifest .b) }
    let s := startingAt (.recoveryEraseManifest true) op
    let full : State := { s with store := { s.store with flash := writeArea [] (.manifest .b) [0] } }
    (readArea [] full.store.flash (.manifest .b)).isSome = true ∧
      (after (.eraseBlockCompletion 1 { Device.sound with failed := true }) full).store.flash = [] := by
  decide +kernel

/-- A selector write of the controller in flight, directed to copy 1. -/
def selecting (purpose : SelPurpose) : State :=
  { withAct .committing Selector.blank with
    store := { node.store with
      inflight := some { owner := .activation, kind := .selectorWrite 0 purpose onTrial (some (.one, 5)) } } }

theorem witness_RecordWritesComplete :
    let ok := fun p => after (.recordWriteCompletion 1 Device.sound) (selecting p)
    let bad := fun p => after (.recordWriteCompletion 1 { Device.sound with failed := true }) (selecting p)
    ((selecting .commit).running = true ∧ (selecting .commit).MarksClear ∧
        (selecting .commit).Flies { owner := .activation, kind := .selectorWrite 0 .commit onTrial (some (.one, 5)) }) ∧
      ((ok .commit).act.sel = onTrial ∧ (ok .commit).act.state = .restarting ∧ (ok .commit).port.dirty.restart = true ∧
        (ok .commit).store.copy = some .one ∧ (ok .commit).store.seqNo = 5 ∧ (ok (.confirm 7)).port.replies = answered .ok) ∧
      ((bad .commit).act.sel = Selector.blank ∧ (bad .commit).act.state = .waiting ∧ (bad (.confirm 7)).port.replies = answered .busy ∧
        (bad .revert).act.retryDue = some 1001) ∧
      readArea [] (ok .revert).store.flash (.selector .one) = some (writeSelector 5 onTrial) := by
  decide +kernel

theorem witness_RecordWritesComplete_others :
    let book : State := { node with store := { node.store with inflight := some { owner := .schedule, kind := .recordWrite .book 1 [1] } } }
    let config : State := { node with store := { node.store with inflight := some { owner := .writeConfig 7, kind := .recordWrite .configStaged 0 [1] } } }
    (book.Flies { owner := .schedule, kind := .recordWrite .book 1 [1] } ∧ book.sched.writeOwed = false ∧
        readArea [] (after (.recordWriteCompletion 1 Device.sound) book).store.flash .book = some [1] ∧
        (after (.recordWriteCompletion 1 { Device.sound with failed := true }) book).sched.writeOwed = true) ∧
      ((after (.recordWriteCompletion 1 Device.sound) config).port.replies = answered .ok ∧
        (after (.recordWriteCompletion 1 { Device.sound with failed := true }) config).port.replies = answered .busy) := by
  decide +kernel

/-! ### Witnesses: requests and the sending order -/

def reading (kind index : Byte) : HostMsg := msg .readRecord [kind, index]

/-- The reply to a READ-RECORD of the node with a record in slot 63. -/
def readOut (kind index : Byte) : List (Status × Bool) :=
  (after (.readRecord 1 (reading kind index)) (withRecord 63 (record .associated))).port.replies.map
    fun r => (r.status, r.view = some .emptyRecord)

theorem witness_RecordsAreRead :
    (node.Takes ∧ hostMsgOk .readRecord (reading 0 63) = true) ∧
      [readOut 0 63, readOut 0 62, readOut 0 64, readOut 1 127, readOut 1 128, readOut 2 14, readOut 2 15, readOut 3 1, readOut 3 2,
          readOut 4 1, readOut 5 0, readOut 5 2, readOut 6 0, readOut 6 1, readOut 7 1, readOut 8 0] =
        [[(.ok, false)], [(.ok, true)], [(.range, false)], [(.ok, true)], [(.range, false)], [(.ok, true)], [(.range, false)],
          [(.ok, false)], [(.range, false)], [(.range, false)], [(.ok, false)], [(.range, false)], [(.ok, false)],
          [(.range, false)], [(.range, false)], [(.range, false)]] := by
  decide +kernel

theorem witness_RecordsAreRead_staged :
    let s := after (.readRecord 1 (reading 5 1)) node
    (node.StoreIdle ∧ s.port.replies = [] ∧ s.Flies { owner := .readConfig 7, kind := .recordRead .configStaged } ∧ s.MarksClear) ∧
      ((after (.recordReadCompletion 2 Device.sound) s).port.replies = [{ tag := 7, status := .ok, view := some .emptyRecord }]) ∧
      (let w : State := { s with store := { s.store with flash := writeArea [] .configStaged [1, 2] } };
        (after (.recordReadCompletion 2 Device.sound) w).port.replies = [{ tag := 7, status := .ok, view := some (.storedConfig [1, 2]) }]) := by
  decide +kernel

theorem witness_RecordsAreRead_rest :
    let read := fun (kind index : Byte) (s : State) => (after (.readRecord 1 (reading kind index)) s).port.replies.map Reply.view
    let clock : State := { node with time := { node.time with mesh := 20210 * 86400 + 3660, rank := 2, ageingDue := some 100 } }
    (match read 3 1 serving9 with
      | [some (.slot v)] => v.slot == serving9.slot .b && v.counts.take 2 == [(0, 0), (0, 0)] && v.serve.length == 4
      | _ => false) = true ∧
      (match read 4 0 { node with sched := { node.sched with book := book8 } } with
        | [some (.bookHeader v)] => v.version == 8 && v.origin == 9 && v.len == 70 && v.bindingCount == 1 && v.staged == none
        | _ => false) = true ∧
      (match read 7 0 clock with
        | [some (.time v)] => v.day == 20210 && v.weekday == 1 && v.minute == 61 && v.ageingLeft == some 99
        | _ => false) = true := by
  decide +kernel

theorem witness_RecordsAreRead_waiting :
    let op : StoreOp := { owner := .schedule, kind := .recordRead .book }
    let busy : Nat → State := fun k => { node with store := { node.store with inflight := some op, waiting := List.replicate k op } }
    (after (.readRecord 1 (reading 5 1)) (busy 7)).port.replies = [] ∧
      (after (.readRecord 1 (reading 5 1)) (busy 7)).store.waiting.length = 8 ∧
      (after (.readRecord 1 (reading 5 1)) (busy 8)).port.replies = answered .busy := by
  decide +kernel

theorem witness_ConfigWritten :
    let config := fun (b : List Byte) => msg .writeConfig b
    let sent := fun (b : List Byte) => after (.writeConfig 1 (config b)) node
    let good : List Byte := [63, 0, 1, 0xF4, 6, 0xAE, 1, 0x90, 0, 60, 1, 255]
    let op : StoreOp := { owner := .schedule, kind := .recordRead .book }
    let full : State := { node with store := { node.store with inflight := some op, waiting := List.replicate 8 op } }
    let room : State := { node with store := { node.store with inflight := some op, waiting := List.replicate 7 op } }
    (hostMsgOk .writeConfig (config good) = true ∧ node.StoreIdle ∧ (sent good).port.replies = [] ∧
        (sent good).store.inflight = some { owner := .writeConfig 7, kind := .recordWrite .configStaged 0 good }) ∧
      ((sent (good.set 1 2)).port.replies = answered .malformed ∧ (sent (good.set 0 64)).port.replies = answered .range) ∧
      (room.store.waiting.length < 8 ∧ (after (.writeConfig 1 (config good)) room).store.waiting.length = 8) ∧
      (8 ≤ full.store.waiting.length ∧ (after (.writeConfig 1 (config good)) full).port.replies = answered .busy) := by
  decide +kernel

/-- The message an acceptance sends, from a node with PACE clear. -/
def quietNode : State := { node with port := { node.port with dirty := { node.port.dirty with pace := false } } }
def accepted (s : State) : Option PortMessage := (after (.hostAcceptance 1) s).port.sent.map Sent.message

theorem witness_AcceptanceSendsInOrder :
    let reply : Reply := { tag := 7, status := .ok, view := none }
    (node.running = true ∧ node.port.link = [] ∧ accepted node = some (.pace { interval := none, burst := 30000 })) ∧
      accepted { node with port := { node.port with replies := [reply] } } = some (.reply reply) ∧
      accepted { node with clients := { node.clients with refusals := [other] } } = some (.refuseAssociation other) ∧
      accepted (quietNode.markRestart.setAccessMark 0 true) = some .restart ∧
      accepted ((withRecord 63 (record .associated) quietNode).setAccessMark 63 true) = some (.access client .opened) ∧
      accepted ((withRecord 63 { record .handing with offerTarget := some 9 } quietNode).setSteerMark 63 true) = some (.steer client (some 9)) ∧
      accepted quietNode = none := by
  decide +kernel

theorem witness_AcceptanceSendsInOrder_rest :
    let owing : State := { quietNode with prio := { quietNode.prio with flows := putSlot quietNode.prio.flows 127 (.release 1 client) } }
    let full : State := { quietNode with port := { quietNode.port with notices := [.peerLost 9, .peerLost 10], overflow := true } }
    (accepted (owing.setClassMark 127 true) = some (.flowClass 1 client .released) ∧
        (after (.hostAcceptance 1) (owing.setClassMark 127 true)).flow 127 = .free) ∧
      (accepted full = some (.notice (.peerLost 9) true) ∧ (after (.hostAcceptance 1) full).port.overflow = false) ∧
      (∀ i : Fin 64, full.port.dirty.access[i] = false ∧ full.port.dirty.steer[i] = false) ∧
      ∀ j : Fin 128, full.port.dirty.cls[j] = false := by
  decide +kernel

theorem witness_AcceptanceSendsInOrder_class :
    let marked := fun (f : FlowRecord) => (withFlow 5 f quietNode).setClassMark 5 true
    let owing := fun (f : FlowRecord) =>
      { marked f with prio := { (marked f).prio with flows := putSlot (marked f).prio.flows 9 (.release 0x7A31C0E2 client) } }
    let cls := fun (f : FlowRecord) => accepted (marked f)
    [cls (game .admitted), cls (game .bulk), cls (game .waiting), cls (game .idle), cls (game .sampling), accepted (owing (game .admitted))] =
      [some (.flowClass 0x7A31C0E2 client .game), some (.flowClass 0x7A31C0E2 client .bulk), some (.flowClass 0x7A31C0E2 client .standard),
        some (.flowClass 0x7A31C0E2 client .standard), none, none] ∧
      (after (.hostAcceptance 1) (marked (game .admitted))).port.dirty.cls[5] = false ∧
      (after (.hostAcceptance 1) (owing (game .admitted))).port.dirty.cls[5] = true := by
  decide +kernel

/-! ### Witnesses: messages and bytes -/

theorem witness_Messages :
    let m := msg .setTime (beBytes 4 60)
    let bad : HostMsg := { m with crc := 0 }
    let eight : State := { node with port := { node.port with replies := List.replicate 8 { tag := 0, status := .ok, view := none } } }
    let waits : State := { node with port := { node.port with link := [(.activateNow, msg .activateNow [])] } }
    (node.Takes ∧ hostMsgOk .setTime bad = false ∧ (after (HostKind.setTime.command 5 bad) node).port.replies = []) ∧
      (unconfigured.Takes ∧ hostMsgOk .setTime m = true ∧ 63 < unconfigured.cfg.nodeId ∧
        (after (HostKind.setTime.command 5 m) unconfigured).port.replies = answered .state) ∧
      (starting.running = false ∧ (after (HostKind.setTime.command 5 m) starting).port.link.length = 1) ∧
      (8 ≤ eight.heldRequests ∧ (after (HostKind.setTime.command 5 m) eight).port.link.length = 1) ∧
      (waits.port.link ≠ [] ∧ (after (HostKind.setTime.command 5 m) waits).port.link.length = 2) := by
  decide +kernel

/-- Frames at the ends of their fields. -/
def edgeAdvert : Advert :=
  { advert with
    pathCost := 255, reserved := 65535, meshTime := 4294967295, bitmap := 1, evacuating := true, gateway := true
    sightings := [{ client := client, smoothed := -32768, age := 255 }, { client := other, smoothed := 32767, age := 0 }] }

theorem witness_FramesReadBack :
    edgeAdvert.Fits ∧ offered.Fits ∧ manifest7.Fits ∧
      readFrame (writeFrame { sender := 63, dest := 255, body := .advert edgeAdvert }) =
        some { sender := 63, dest := 255, body := .advert edgeAdvert } ∧
      readFrame (writeFrame { sender := 1, dest := 0, body := .offer offered }) = some { sender := 1, dest := 0, body := .offer offered } ∧
      readFrame (writeFrame { sender := 64, dest := 0, body := .bookRequest }) = none := by
  refine ⟨?_, ?_, ?_, by decide +kernel⟩
  · refine ⟨?_, ?_, ?_, ?_, ?_, ?_, ?_, ?_, ?_, ?_, ?_, ?_, ?_, ?_, ?_⟩ <;> decide
  · refine ⟨?_, ?_, ?_, ?_, ?_, ?_⟩ <;> decide
  · refine ⟨by decide, by decide, List.length_replicate⟩

/-- The bytes of an ACCEPT written out from section 12.5. -/
theorem test_accept_bytes :
    (writeFrame { sender := 5, dest := 9, body := .accept client }).kind = 3 ∧
      (writeFrame { sender := 5, dest := 9, body := .accept client }).len = 6 ∧
      (writeFrame { sender := 5, dest := 9, body := .accept client }).body = [0x9A, 0x0C, 0x31, 0x5E, 0x77, 0x10] := by
  decide +kernel

/-- The bytes of an OFFER of section 4.8 written out from section 12.5. -/
theorem test_offer_bytes :
    (writeFrame { sender := 9, dest := 5, body := .offer offered }).body =
      [0x9A, 0x0C, 0x31, 0x5E, 0x77, 0x10, 0, 95, 0x4E, 0xF2, 3, 0, 1, 0x7A, 0x31, 0xC0, 0xE2, 0, 40, 16] := by decide +kernel

/-- A book of the tablet of section 6.6. -/
def tabletBook : Book :=
  let p : Profile := { allowance := some 120, windows := [{ span := schoolNights, action := .block }, { span := ⟨0x7F, 1140, 1260⟩, action := .cap }] }
  { Book.emptyBook with version := 8, origin := 9, profiles := Book.emptyBook.profiles.set 3 p, bindings := [{ client := other, profile := 3 }] }

theorem witness_RecordsReadBack :
    tabletBook.Fits ∧ node.cfg.Fits ∧ onTrial.trialStarts < 256 ∧ onTrial.floor < 2 ^ 32 ∧ readBook (writeBook tabletBook) = some tabletBook ∧
      readConfig (writeConfig node.cfg) = node.cfg ∧ readSelector (writeSelector 5 onTrial) = some (5, onTrial) ∧
      readArea [] (writeArea [(3, 1)] .book [1, 2, 3]) .book = some [1, 2, 3] := by
  refine ⟨?_, ?_, by decide +kernel⟩
  · refine ⟨by decide, by decide, by decide, by decide, ?_, by decide, by decide⟩
    have h : ∀ p ∈ tabletBook.profiles, (match p.allowance with | some a => a < 65535 | none => True) ∧ p.windows.length ≤ 8 ∧
        ∀ w ∈ p.windows, w.span.start < 65536 ∧ w.span.stop < 65536 := by
      intro p hp
      have hp : p ∈ Book.emptyBook.profiles.set 3 { allowance := some 120, windows := [{ span := schoolNights, action := .block },
        { span := ⟨0x7F, 1140, 1260⟩, action := .cap }] } := hp
      rcases List.mem_or_eq_of_mem_set hp with h | rfl
      · have : p = { allowance := none, windows := [] } := List.eq_of_mem_replicate h
        subst this
        decide
      · decide
    intro p hp
    obtain ⟨h1, h2, h3⟩ := h p hp
    refine ⟨fun a ha => ?_, h2, h3⟩
    rw [ha] at h1
    exact h1
  · refine ⟨?_, ?_, ?_, ?_, ?_, ?_, ?_, ?_, ?_, ?_⟩ <;> decide

/-- The tablet's day of section 6.6, line by line: access at 00:00, 07:00, 19:00 and 21:00 of a Tuesday, and the allowance. -/
theorem test_tablet_access :
    let p := tabletBook.profileAt 3
    accessByWindows p false 1 0 = .blocked ∧ accessByWindows p false 1 420 = .opened ∧ accessByWindows p false 1 1140 = .capped ∧
      accessByWindows p true 1 1151 = .exhausted ∧ accessByWindows p true 1 1260 = .blocked ∧
      allowanceLine p 60 { record .associated with used := 120 } = true ∧ allowanceLine p 60 { record .associated with used := 119 } = false ∧
      countedFigure p 60 { record .provisional with used := 0 } = 60 := by decide +kernel

/-! ### Witnesses: what every step keeps -/

/-- A node with an ADMITTED game whose Pace record is worked out. -/
def gaming : State :=
  let s := serving (game .admitted)
  { s with prio := { s.prio with pace := { interval := some 16, burst := 8000 } } }

theorem witness_UnitsAreLeftAlone : exec .tick node = .next (after .tick node) ∧ step { node with pending := [.tick] } = .next (after .tick node) := by
  constructor <;> rfl

theorem gaming_records : ∀ i r, gaming.record i = some r → i = 0 ∧ r = record .associated :=
  records_check gaming (fun i r => i = 0 ∧ r = record .associated) (by decide +kernel)

theorem gaming_flows : ∀ j f, gaming.flow j = .used f → j = 0 ∧ f = game .admitted :=
  flows_check gaming (fun j f => j = 0 ∧ f = game .admitted) (by decide +kernel)

theorem witness_AirtimeStaysWithinTheCeiling : gaming.AirtimeKept where
  ceiling := by decide +kernel
  owned := by
    intro j f h
    obtain ⟨-, rfl⟩ := gaming_flows j f h
    exact ⟨record .associated, by decide +kernel, rfl⟩
  oneRecord := by
    intro i j r q h g _
    rw [(gaming_records i r h).1, (gaming_records j q g).1]
  starting := by intro h; cases h

theorem witness_FlowsStayEntitled : gaming.FlowsEntitled where
  starting := by intro h; cases h
  admitted := by
    intro j f h _
    obtain ⟨-, rfl⟩ := gaming_flows j f h
    exact ⟨record .associated, by decide +kernel, rfl, .inl rfl, rfl⟩
  reserved := by
    intro j f r h k
    obtain ⟨-, rfl⟩ := gaming_flows j f h
    obtain ⟨-, rfl⟩ := gaming_records _ r k
    decide
  departed := by
    intro j f r _ k
    obtain ⟨-, rfl⟩ := gaming_records _ r k
    decide
  leaving := by
    intro _ i r k
    obtain ⟨-, rfl⟩ := gaming_records _ r k
    decide

theorem witness_PaceFollowsTheAdmittedSet :
    gaming.MarksClear ∧ gaming.Paced ∧ gaming.prio.pace = gaming.paceNow ∧ gaming.prio.pace.interval = some 16 ∧
      (∃ f, f.state = .admitted ∧ (∃ j, gaming.flow j = .used f) ∧ f.meanInterval = some 16) ∧
      (∀ f, f.state = .admitted ∧ (∃ j, gaming.flow j = .used f) → ∃ m, f.meanInterval = some m ∧ 5 ≤ m) := by
  refine ⟨rfl, fun _ => by decide +kernel, by decide +kernel, rfl, ⟨game .admitted, rfl, ⟨0, by decide +kernel⟩, rfl⟩, ?_⟩
  rintro f ⟨-, j, h⟩
  obtain ⟨-, rfl⟩ := gaming_flows j f h
  exact ⟨16, rfl, by decide⟩

theorem witness_InvariantsAreKept : gaming.FlashCanonical ∧ gaming.WithinCapacity ∧ gaming.EntriesDistinct ∧ gaming.WithinRange := by
  refine ⟨rfl, ⟨by decide, by decide +kernel, by decide +kernel, by decide, by decide, by decide, by decide, by decide, ?_,
    by decide, by decide, by decide⟩, ⟨⟨by decide, by decide, by decide, by decide⟩, List.nodup_nil, witness_AirtimeStaysWithinTheCeiling.oneRecord, ?_, ?_⟩,
    ⟨fun p h => (by cases h), by decide, by decide, ?_, fun e h => (by cases h), by decide, by decide, by decide⟩⟩
  · intro i r h
    rw [(gaming_records i r h).2]
    decide
  · intro i r h
    rw [(gaming_records i r h).2]
    exact List.Pairwise.nil
  · intro j k f g h1 h2 _ _
    rw [(gaming_flows j f h1).1, (gaming_flows k g h2).1]
  · intro i r h
    rw [(gaming_records i r h).2]
    refine ⟨fun p hp => ?_, fun q hq => ?_⟩
    · cases hp
      refine ⟨?_, ?_, ?_⟩ <;> constructor <;> decide
    · cases hq
      constructor <;> decide

theorem witness_ProtectedFlashIsKept :
    let s := programming 1 16
    s.OpsFit ∧ s.FlightUnprotected ∧ s.OneAtATime ∧ s.running = true ∧ s.Guarded 0x7FFFFF ∧ s.Guarded 0x14000 := by
  refine ⟨?_, ?_, (fun h => by cases h), rfl, ⟨.a, by decide, .inl (by unfold SlotId.holds; decide)⟩, ⟨.a, by decide, .inr (by decide)⟩⟩
  · intro op h
    have : op = { owner := .fill, kind := .programChunk .b 7 16 [0x5A] } := by
      have : (programming 1 16).storeOps = [{ owner := .fill, kind := .programChunk .b 7 16 [0x5A] }] := rfl
      rw [this] at h
      exact List.mem_singleton.mp h
    rw [this]
    show 16 < Config.maxChunks
    decide
  · intro op h
    have : { owner := .fill, kind := .programChunk .b 7 16 [0x5A] } = op := Option.some.inj h
    rw [← this]
    rfl

theorem witness_UsedMinutesNeverDecrease :
    gaming.port.link = [] ∧ (∀ i r, gaming.record i = some r → r.used ≤ 1440) ∧
      (∀ i r, gaming.record i = some r → r.state = .provisional → r.used = 0) ∧
      (∀ p ∈ gaming.sched.book.profiles, ∀ a, p.allowance = some a → a ≤ 1440) ∧ gaming.record 0 = some (record .associated) := by
  refine ⟨rfl, fun i r h => ?_, fun i r h hp => ?_, ?_, by decide +kernel⟩
  · rw [(gaming_records i r h).2]; decide
  · rw [(gaming_records i r h).2] at hp; cases hp
  · intro p hp a ha
    have : p = { allowance := none, windows := [] } := List.eq_of_mem_replicate hp
    rw [this] at ha
    cases ha

/-! ### Witnesses: the start sequence, stage by stage -/

/-- A start that waits at a stage for an operation of its own. -/
def standing (stage : Stage) (kind : OpKind) : State := startingAt stage { owner := .start, kind := kind }

/-- A device on which the operation fails. -/
def deadDevice : Device := { Device.sound with failed := true }

/-- What comes next in a start: the stage, and the operation then in flight. -/
def stageAfter (c : Instr) (s : State) : Stage × Option OpKind :=
  ((after c s).seq.stage, ((after c s).store.inflight).map StoreOp.kind)

/-- Two bodies of which only the first reads as a selector give that one. -/
theorem learned_first (q : Nat) (sel : Selector) (s : State) (h : readSelector (writeSelector q sel) = some (q, sel)) :
    s.Learned (some (writeSelector q sel)) none
      { s with store := { s.store with copy := some .zero, seqNo := q }, act := { s.act with sel := sel } } :=
  ⟨some .zero, q, sel, rfl, .inl ⟨rfl, h, fun _ _ k => by cases k⟩⟩

/-- A start that has read selector copy 0 and reads an erased copy 1. -/
def secondRead (stage : Option (List Byte) → Stage) (sel : Selector) : State :=
  standing (stage (some (writeSelector 5 sel))) (.recordRead (.selector .one))

/-- A selector on trial at a count of starts. -/
def trialStarts (k : Nat) : Selector := { onTrial with trialStarts := k }

theorem witness_SelectorCopies :
    let read := fun sel => (readSelector (writeSelector 5 sel), (secondRead .readSelector1 sel).readBody Device.sound (.selector .one))
    read (trialStarts 0) = (some (5, trialStarts 0), none) ∧ read (trialStarts 1) = (some (5, trialStarts 1), none) ∧
      read (trialStarts 2) = (some (5, trialStarts 2), none) ∧
      read (trialStarts 1).reverted = (some (5, (trialStarts 1).reverted), none) ∧ read Selector.blank = (some (5, Selector.blank), none) ∧
      selectorOf (some (writeSelector 5 onTrial)) (some (writeSelector 6 Selector.blank)) = (some .one, 6, Selector.blank) ∧
      selectorOf none none = (none, 0, Selector.blank) := by
  decide +kernel

theorem witness_StartsBeginAfresh_selector :
    let next := fun sel => stageAfter (.recordReadCompletion 1 Device.sound) (secondRead .recoverySelector1 sel)
    ((standing .recoverySelector0 (.recordRead (.selector .zero))).Stands .recoverySelector0 (.recordRead (.selector .zero)) ∧
        stageAfter (.recordReadCompletion 1 Device.sound) (standing .recoverySelector0 (.recordRead (.selector .zero))) =
          (.recoverySelector1 none, some (.recordRead (.selector .one)))) ∧
      ((secondRead .recoverySelector1 onTrial).Stands (.recoverySelector1 (some (writeSelector 5 onTrial))) (.recordRead (.selector .one)) ∧
        next onTrial = (.recoveryRevert 0, some (.selectorWrite 0 (.recovery true)
          { booted := .a, confirmed := .a, trial := false, trialStarts := 0, floor := 3 } (some (.one, 6)))) ∧
        (next onTrial.reverted).1 = .recoveryRevert 0 ∧
        next Selector.blank = (.recoveryErase 0 false, some (.eraseBlock .b 0 0))) := by
  decide +kernel

theorem witness_StartsBeginAfresh_revert :
    let sel := { onTrial.reverted with trialStarts := 0 }
    let s := standing (.recoveryRevert 0) (.selectorWrite 0 (.recovery true) sel (some (.one, 6)))
    s.Stands (.recoveryRevert 0) (.selectorWrite 0 (.recovery true) sel (some (.one, 6))) ∧ s.act.retry = none ∧ sel.trial = false ∧
      stageAfter (.recordWriteCompletion 1 Device.sound) s = (.recoveryErase 0 false, some (.eraseBlock .b 0 0)) ∧
      stageAfter (.recordWriteCompletion 1 deadDevice) s = (.recoveryEraseStaged false, some (.eraseArea .configStaged)) ∧
      (after (.recordWriteCompletion 1 deadDevice) s).act.retryDue = some 1001 := by
  decide +kernel

theorem witness_StartsBeginAfresh_erases :
    let block := fun b again => standing (.recoveryErase b again) (.eraseBlock .b 0 b)
    let area := fun again => standing (.recoveryEraseManifest again) (.eraseArea (.manifest .b))
    let staged := fun again => standing (.recoveryEraseStaged again) (.eraseArea .configStaged)
    let next := fun d s => (stageAfter (.eraseBlockCompletion 1 d) s).1
    ((block 0 false).act.sel.booted.other = .b ∧ (block 0 false).act.sel.trial = false ∧
        (block 0 false).Stands (.recoveryErase 0 false) (.eraseBlock .b 0 0) ∧ (area true).Stands (.recoveryEraseManifest true) (.eraseArea (.manifest .b)) ∧
        (staged true).Stands (.recoveryEraseStaged true) (.eraseArea .configStaged)) ∧
      (next deadDevice (block 0 false) = .recoveryErase 0 true ∧ next Device.sound (block 0 false) = .recoveryErase 1 false ∧
        next deadDevice (block 254 true) = .recoveryErase 255 false ∧ next Device.sound (block 255 false) = .recoveryEraseManifest false) ∧
      (next deadDevice (area false) = .recoveryEraseManifest true ∧ next deadDevice (area true) = .recoveryEraseStaged false) ∧
      (next deadDevice (staged false) = .recoveryEraseStaged true ∧ next deadDevice (staged true) = .readStaged) := by
  decide +kernel

theorem witness_StartsBeginAfresh_configuration :
    let cfg : List Byte := 5 :: List.replicate 11 0xFF
    let hold := fun (a : Area) (s : State) => s.holding (writeArea [] a cfg)
    let read := fun s => stageAfter (.recordReadCompletion 1 Device.sound) s
    let active := fun x => standing (.readActive x) (.recordRead .configActive)
    let promoting := standing (.promote cfg) (.recordWrite .configActive 0 cfg)
    ((standing .readStaged (.recordRead .configStaged)).Stands .readStaged (.recordRead .configStaged) ∧
        read (hold .configStaged (standing .readStaged (.recordRead .configStaged))) = (.readActive (some cfg), some (.recordRead .configActive))) ∧
      ((active none).Stands (.readActive none) (.recordRead .configActive) ∧ (read (active none)).1 = .readSelector0 ∧
        (after (.recordReadCompletion 1 Device.sound) (active none)).configured = false ∧
        (read (hold .configActive (active (some cfg)))).1 = .readSelector0 ∧
        read (active (some cfg)) = (.promote cfg, some (.recordWrite .configActive 0 cfg))) ∧
      (promoting.Stands (.promote cfg) (.recordWrite .configActive 0 cfg) ∧
        (stageAfter (.recordWriteCompletion 1 Device.sound) promoting).1 = .readPromoted ∧
        (stageAfter (.recordWriteCompletion 1 deadDevice) promoting).1 = .readSelector0 ∧
        (after (.recordWriteCompletion 1 deadDevice) promoting).cfg.nodeId = 5) ∧
      (read (hold .configActive (standing .readPromoted (.recordRead .configActive)))).1 = .readSelector0 := by
  decide +kernel

theorem witness_StartSequenceCompletes_selector :
    let next := fun sel => stageAfter (.recordReadCompletion 1 Device.sound) (secondRead .readSelector1 sel)
    let writes := fun p sel => (Stage.writeSelector 0, some (OpKind.selectorWrite 0 p sel (some (.one, 6))))
    ((standing .readSelector0 (.recordRead (.selector .zero))).Stands .readSelector0 (.recordRead (.selector .zero)) ∧
        (secondRead .readSelector1 onTrial).Stands (.readSelector1 (some (writeSelector 5 onTrial))) (.recordRead (.selector .one))) ∧
      (next (trialStarts 0) = writes .trialStart (trialStarts 1) ∧ next (trialStarts 1) = writes .revert onTrial.reverted ∧
        next (trialStarts 2) = writes .revert onTrial.reverted ∧
        next onTrial.reverted = writes .clearRevert { onTrial.reverted with trialStarts := 0 } ∧
        next Selector.blank = (.readBook, some (.recordRead .book))) := by
  decide +kernel

theorem witness_StartSequenceCompletes_write :
    let s := standing (.writeSelector 0) (.selectorWrite 0 .revert onTrial.reverted (some (.one, 6)))
    s.Stands (.writeSelector 0) (.selectorWrite 0 .revert onTrial.reverted (some (.one, 6))) ∧ s.act.retry = none ∧
      stageAfter (.recordWriteCompletion 1 Device.sound) s = (.readBook, some (.recordRead .book)) ∧
      (after (.recordWriteCompletion 1 Device.sound) s).act.sel = onTrial.reverted ∧
      (after (.recordWriteCompletion 1 Device.sound) s).port.dirty.restart = true ∧
      (after (.recordWriteCompletion 1 deadDevice) s).act.sel = s.act.sel ∧
      (after (.recordWriteCompletion 1 deadDevice) s).act.retryDue = some 1001 := by
  decide +kernel

/-- A start at the last manifest copy, with slot B booted and its own copy erased: slot A is the other one. -/
def rebuilding (reverted : Bool) (sel : Selector) (m : Option Manifest) : State :=
  let s := standing .readManifestB (.recordRead (.manifest .b))
  { s with seq := { s.seq with manifestA := m, reverted := reverted }, act := { s.act with sel := sel } }

theorem witness_StartSequenceCompletes_rebuild :
    let kept : Selector := { Selector.blank with booted := .b, confirmed := .b }
    let t := fun reverted sel m => after (.recordReadCompletion 1 Device.sound) (rebuilding reverted sel m)
    let seen := fun (t : State) => ((t.slot .a).state, (t.slot .b).state, (t.slot .a).version, t.seq.stage)
    ((standing .readBook (.recordRead .book)).Stands .readBook (.recordRead .book) ∧
        stageAfter (.recordReadCompletion 1 Device.sound) (standing .readBook (.recordRead .book)) = (.readManifestA, some (.recordRead (.manifest .a))) ∧
        stageAfter (.recordReadCompletion 1 Device.sound) (standing .readManifestA (.recordRead (.manifest .a))) =
          (.readManifestB, some (.recordRead (.manifest .b)))) ∧
      ((rebuilding true kept (some manifest7)).Stands .readManifestB (.recordRead (.manifest .b)) ∧
        seen (t true kept (some manifest7)) = (.failed, .active, some 7, .eraseReverted) ∧
        (t true kept (some manifest7)).port.notices = [.trialReverted .a (some 7)] ∧ (t true kept (some manifest7)).dist.barred = some 7) ∧
      seen (t false onTrial (some manifest7)) = (.retained, .active, some 7, .ready) ∧
      seen (t false kept none) = (.empty, .active, none, .ready) ∧
      (seen (t false kept (some manifest7)) = (.empty, .active, some 7, .verify 0 true) ∧
        (t false kept (some manifest7)).store.inflight = some { owner := .start, kind := .verifyBlock .a 7 0 0x11223344 }) := by
  decide +kernel

/-- Slot B as a start verifies it, with an image of one chunk. -/
def checkingStart (stage : Stage) (kind : OpKind) : State :=
  (standing stage kind).putSlotRecord .b (rebuilt (some manifest1) .empty)

theorem witness_StartSequenceCompletes_verify :
    let s := checkingStart (.verify 0 true) (.verifyBlock .b 7 0 erasedCrc)
    let c := checkingStart .check (.checkImage .b 7 1 erasedCrc)
    let e := standing .eraseReverted (.eraseArea (.manifest .b))
    s.Stands (.verify 0 true) (.verifyBlock .b 7 0 erasedCrc) ∧ c.Stands .check (.checkImage .b 7 1 erasedCrc) ∧
      e.Stands .eraseReverted (.eraseArea (.manifest .b)) ∧ (s.slot s.spareSlot).manifest = some manifest1 ∧
      (s.slot s.spareSlot).version = some manifest1.version ∧
      crc32 (overlay [] 0x800000 (Memory.readBytes s.store.flash 0x800000 1024)) = erasedCrc :=
  ⟨⟨rfl, ⟨rfl, rfl⟩, rfl⟩, ⟨rfl, ⟨rfl, rfl⟩, rfl⟩, ⟨rfl, ⟨rfl, rfl⟩, rfl⟩, rfl, rfl, rfl⟩

theorem witness_StartSequenceCompletes_verified :
    let s := { checkingStart (.verify 0 true) (.verifyBlock .b 7 0 0) with store := node.store }
    let two := s.putSlotRecord .b (rebuilt (some manifest7) .empty)
    let newer : State := { s with act := { s.act with sel := { s.act.sel with floor := 8 } } }
    (s.IsNewer 7 ∧ ¬newer.IsNewer 7) ∧
      ((s.seqVerified 0 true).seq.stage = .check ∧ (s.seqVerified 0 false).seq.stage = .ready ∧
        (two.seqVerified 0 false).seq.stage = .verify 1 false) ∧
      (((s.seqChecked true).slot .b).state = .ready ∧ ((newer.seqChecked true).slot .b).state = .retained ∧
        ((s.seqChecked false).slot .b).state = .empty) ∧
      (after (.eraseBlockCompletion 1 deadDevice) (standing .eraseReverted (.eraseArea (.manifest .b)))).seq.stage = .ready := by
  decide +kernel

/-! ### Witnesses: departed records, claims and access -/

/-- The client's record DEPARTED at a node that heard it. -/
def departedHere (q : Int) : State := offerTo (withRecord 0 { record .departed with departure := some 0 } (hearing q))

theorem departed_records (q : Int) : ∀ i r, (departedHere q).record i = some r → i = 0 ∧ r = { record .departed with departure := some 0 } :=
  fun i r h => records_check (departedHere 0) (fun i r => i = 0 ∧ r = { record .departed with departure := some 0 })
    (by decide +kernel) i r h

theorem departed_airtime (q : Int) : (departedHere q).AirtimeKept where
  ceiling := by
    show (departedHere 0).ownReserved ≤ (departedHere 0).cfg.ceiling
    decide +kernel
  owned := by
    intro j f h
    have : ∀ j : Fin 128, (departedHere 0).flow j = .free := by decide +kernel
    rw [show (departedHere q).flow j = _ from this j] at h
    cases h
  oneRecord := by
    intro i j r x h g _
    rw [(departed_records q i r h).1, (departed_records q j x g).1]
  starting := by intro h; cases h

theorem departed_entitled (q : Int) : (departedHere q).FlowsEntitled := by
  have none_used : ∀ j f, (departedHere q).flow j ≠ .used f := by
    intro j f h
    have : ∀ j : Fin 128, (departedHere 0).flow j = .free := by decide +kernel
    rw [show (departedHere q).flow j = _ from this j] at h
    cases h
  exact
    { admitted := fun j f h => absurd h (none_used j f)
      reserved := fun j f r h => absurd h (none_used j f)
      departed := fun j f r h => absurd h (none_used j f)
      leaving := fun _ i r h => by rw [(departed_records q i r h).2]; decide
      starting := fun h => by cases h }

theorem witness_OffersAreDeclined_departed :
    let leaving : State := { departedHere (-252) with act := { node.act with state := .restarting } }
    let full : State := { departedHere (-252) with prio := { node.prio with flows := Vector.replicate 128 (.release 0 other) } }
    let spent : State := { departedHere (-252) with cfg := { node.cfg with ceiling := 39 } }
    let gone := fun s => declinedFor s = some 4 ∧ (after (.offer 400) s).record 0 = none
    ((departedHere (-252)).Holds client 0 { record .departed with departure := some 0 } ∧ offered.Sound ∧
        (departedHere (-252)).txCount < 12) ∧
      (leaving.Leaving ∧ declinedFor leaving = some 0 ∧ (after (.offer 400) leaving).record 0 = none) ∧
      (declinedFor full = some 3) ∧ gone (departedHere (-329)) ∧ (declinedFor spent = some 5) := by
  decide +kernel

theorem witness_OffersAreAccepted_departed :
    let s := departedHere (-252)
    let full : State := offerTo { fullTable true with clients := { (fullTable true).clients with heard := (hearing (-252)).clients.heard } }
    (s.HearsWell client 400 ∧ s.HasRoom offered ∧ s.record 0 ≠ none ∧
        ((after (.offer 400) s).record 0).map (fun r => (r.state, r.used)) = some (.arriving, 95) ∧
        (after (.offer 400) s).pli.tx.map (fun f => f.body) = [.accept client]) ∧
      ((∀ k, full.record k ≠ none) ∧ full.findClient client = none ∧ full.HearsWell client 400 ∧
        (full.record 40).bind ClientRecord.departure = some 385000 ∧
        ((after (.offer 400) full).record 40).map (fun r => (r.client, r.state)) = some (client, .arriving) ∧
        (after (.offer 400) full).record 17 = full.record 17) := by
  refine ⟨⟨?_, ⟨⟨0, .inr ⟨{ record .departed with departure := some 0 }, ?_, ?_⟩⟩, ?_⟩, ?_⟩, ?_⟩ <;> decide +kernel

theorem witness_ClaimsReleaseTheRecord_notices :
    let held : List Notice := List.replicate 15 (.peerLost 1)
    let full : List Frame := List.replicate 12 { sender := 5, dest := 9, body := .bookRequest }
    let s := withFrame 9 (.claim client) (withRecord 0 (record .associated))
    let late : State := { s with port := { s.port with notices := held } }
    let run : State := { late with pli := { late.pli with tx := full, txRun := true } }
    late.port.notices.length = 15 ∧ late.txCount < 12 ∧ .handoffDone client 9 ∈ (after (.claim 1) late).port.notices ∧
      run.txCount = 12 ∧ run.pli.txRun = true ∧ .handoffDone client 9 ∈ (after (.claim 1) run).port.notices := by
  decide +kernel

/-- Tuesday of the tablet of section 6.6 at a minute, and its record. -/
def tabletAt (rank minute : Nat) : State :=
  { node with
    time := { node.time with mesh := 20210 * 86400 + 60 * minute, rank := rank }
    sched := { node.sched with book := tabletBook } }
def tablet (st : RecState) (a : Access) (used : Nat) : ClientRecord := { record st with client := other, profile := 3, access := a, used := used }

theorem witness_TicksCountMinutes_access :
    let known := fun m used => (tabletAt 1 m).accessOf (tablet .associated .opened used)
    let lost := fun a used => (tabletAt 15 1260).accessOf (tablet .associated a used)
    (tabletAt 1 0).sched.book.profiles[(tablet .associated .opened 0).profile]? = some (tabletBook.profileAt 3) ∧
      (schoolNights.ActiveAt 1 0 ∧ schoolNights.ActiveAt 1 419 ∧ ¬schoolNights.ActiveAt 1 420 ∧ schoolNights.ActiveAt 1 1260) ∧
      (known 0 0 = .blocked ∧ known 420 119 = .opened ∧ known 420 120 = .exhausted ∧ known 1140 119 = .capped ∧ known 1260 120 = .blocked) ∧
      ((tabletAt 1 420).accessOf (tablet .provisional .opened 0) = .opened) ∧
      (lost .blocked 0 = .blocked ∧ lost .opened 120 = .exhausted ∧ lost .exhausted 119 = .opened ∧ lost .capped 119 = .capped ∧
        lost .opened 0 = .opened) := by
  decide +kernel

theorem witness_AdvertExpiry_target :
    let s := node.putSlotRecord .b { SlotRecord.blank with state := .ready, version := some 7, manifest := some manifest7 }
    (s.slot .b).Serves 7 ∧ s.ServedBy 7 .b ∧ (s.slot .b).Verified 1 ∧ ¬(s.slot .b).Verified 2 ∧ node.Unserved 0 ∧
      (match (after .advertTimerExpiry s).pli.tx with
        | [f] => match f.body with
          | .advert a => a.target == 7 && a.bitmap == bothBlocks && a.versionB == 7 && a.versionA == 0
          | _ => false
        | _ => false) = true := by
  decide +kernel

/-- R113: the flows a frame carries, the ADMITTED ones first and the WAITING ones behind them in a CONTEXT alone. -/
theorem witness_CarriedFlows :
    let s := withFlow 5 { game .waiting with digest := 3, share := some 9 } (withFlow 2 { game .admitted with digest := 2, admittedAt := some 5 }
      (withFlow 3 (game .admitted) (withFlow 7 { game .admitted with digest := 4, client := other } node)))
    (s.contextFlows client).map CarriedFlow.digest = [0x7A31C0E2, 2, 3] ∧ (s.offerFlows client).map CarriedFlow.digest = [0x7A31C0E2, 2] ∧
      (game .waiting).carriedAt false = none ∧ (game .idle).carriedAt true = some (1, 0) := by
  decide +kernel

/-! ### Witnesses: gates, evacuation and a failed selector write -/

/-- A waiting controller asked to activate now, with a peer that may evacuate and a client's record. -/
def gated (evacuating : Bool) (rs : Option ClientRecord) : State :=
  let peer : PeerEntry := { peerEntry 9 with advert := { advert with evacuating := evacuating } }
  let s := withPeers [peer] (withAct .waiting Selector.blank)
  let s : State := { s with act := { s.act with activateNow := true } }
  match rs with
  | some r => withRecord 0 r s
  | none => s

theorem gates_open (s : State) (h : s.act.sel.trial = false) (now : s.act.activateNow = true) (peers : s.peers.table = []) :
    s.GatesOpen := ⟨h, .inr now, .inr now, fun p hp => by rw [peers] at hp; cases hp⟩

theorem witness_ActivationRequests_gates :
    let lone := gated true none
    let open9 : State := { lone with peers := { lone.peers with table := [] } }
    let served := gated true (some (record .associated))
    let ended := fun c s => ((after c s).act.state, (after c s).act.evacuationDue)
    (lone.running = true ∧ lone.MarksClear ∧ lone.StoreIdle ∧ (lone.peer 9).isSome = true) ∧ open9.GatesOpen ∧ ¬lone.GatesOpen ∧
      (record .associated).HoldsOpen ∧
      ended (.freshnessTimerExpiry 9) lone = (.committing, none) ∧ ended (.removalTimerExpiry 9) lone = (.committing, none) ∧
      ended (.freshnessTimerExpiry 9) served = (.evacuating, some 32000) ∧ ended (.removalTimerExpiry 9) served = (.evacuating, some 34000) := by
  refine ⟨by decide +kernel, gates_open _ rfl rfl rfl, ?_, by decide, by decide +kernel, by decide +kernel, by decide +kernel, by decide +kernel⟩
  intro h
  exact absurd (h.2.2.2 _ (List.mem_singleton.mpr rfl) rfl) (by decide)

theorem witness_ActivationRequests_minute :
    let s := gated false none
    let s : State := { s with time := { s.time with mesh := 20210 * 86400 + 59, rank := 1, minuteMark := 20210 * 1440, dayMark := 20210 } }
    let shut : State := { s with act := { s.act with activateNow := false } }
    let quiet : State := { shut with sched := { shut.sched with book := { shut.sched.book with quiet := ⟨0x7F, 0, 300⟩ } } }
    ((s.time.mesh + 1) % 4294967296 / 60 ≠ s.time.minuteMark ∧ (s.time.mesh + 1) % 4294967296 / 86400 ≤ s.time.dayMark ∧
        s.time.tickDue = some 1000 ∧ (∀ j, s.flow j = .free)) ∧ quiet.sched.book.quiet.ActiveAt 1 1 ∧
      (after .tick s).act.state = .committing ∧ (after .tick shut).act.state = .waiting ∧ (after .tick quiet).act.state = .committing := by
  decide +kernel

theorem witness_ActivationRequests_ready :
    let s := { checking 0 with store := node.store }
    let asked : State := { s with act := { s.act with activateNow := true } }
    let served := withRecord 0 (record .associated) asked
    s.act.state = .idle ∧ asked.GatesOpen ∧ (s.checkDone .b 7 (.matched 0)).act.state = .waiting ∧
      (asked.checkDone .b 7 (.matched 0)).act.state = .committing ∧ (served.checkDone .b 7 (.matched 0)).act.state = .evacuating := by
  refine ⟨rfl, gates_open _ rfl rfl rfl, ?_⟩
  decide +kernel

/-- An evacuating node at an advert expiry, with the client's record and the peers of section 3.7.1. -/
def evacuating (q : Int) : State :=
  let s := scoring (judged q none 0)
  { s with act := { s.act with state := .evacuating, evacuationDue := some 30000 }, clients := { s.clients with handed := [] }
           peers := { s.peers with sightings := s.peers.sightings.map fun g => { g with validity := 0 } } }

theorem witness_ActivationTimers_pass :
    let due : State := evacuating (-250)
    let kept : State := evacuating (-249)
    let ready : SlotRecord := { SlotRecord.blank with state := .ready }
    let still : State := { withAct .evacuating Selector.blank with act := { (withAct .evacuating Selector.blank).act with evacuationDue := some 9000 } }
    let still := still.putSlotRecord .b ready
    let t := after .advertTimerExpiry due
    (due.peers.advertDue = some 500 ∧ due.act.state = .evacuating ∧ due.Holds client 0 (judged (-250) none 0) ∧ due.txCount < 10 ∧
        due.bestCandidate (judged (-250) none 0) = some (11, -250) ∧ (judged (-250) none 0).HoldsOpen) ∧
      ((t.record 0).map (fun r => (r.state, r.offerTarget, r.timer)) = some (.offering, some 11, some 900) ∧ t.act = due.act ∧
        (t.pli.tx.filter fun f => f.dest == 11).map (fun f => f.body.kind) = [.offer]) ∧
      ((after .advertTimerExpiry kept).record 0 = kept.record 0) ∧
      (still.StoreIdle ∧ (still.slot still.spareSlot).state = .ready ∧ still.dist.manifestOwed = false ∧ still.dist.serve = [] ∧
        (after .advertTimerExpiry still).act.state = .committing) := by
  decide +kernel

theorem witness_ActivationTimers_departure :
    let m := msg .disassociate (id6 client)
    let one : State := { evacuating (-250) with store := node.store }
    let two := withRecord 1 { record .associated with client := other } one
    one.Takes ∧ hostMsgOk .disassociate m = true ∧ one.StoreIdle ∧ (after (.disassociate 9 m) one).act.state = .committing ∧
      (after (.disassociate 9 m) two).act = two.act := by
  decide +kernel

/-- R134: what a failed selector write leaves is read by a start as before the write, though the device has put a valid copy
with a higher sequence number there. -/
theorem test_failed_selector_write_is_not_taken :
    let base := (Area.selector .one).base
    let bytes := writeRecord (.selector .one) (writeSelector 9 onTrial.reverted)
    let cells := (List.range bytes.length).map fun i => (base + i, bytes.getD i 0)
    let s := selecting .commit
    let t := after (.recordWriteCompletion 1 { failed := true, cells := cells }) s
    readArea [] (spoil cells s.store.flash base 16384) (.selector .one) = some (writeSelector 9 onTrial.reverted) ∧
      readArea [] t.store.flash (.selector .one) = none ∧ readArea [] t.store.flash (.selector .zero) = none := by
  decide +kernel

/-! ### Witnesses: operations and messages that wait -/

/-- An erase of the fill in flight, with a stale verification, an erase of the booted slot, a read and a book write behind it. -/
def manyWait : State :=
  let s := flying (.eraseBlock .b 7 0) (filling (some manifest7) { opened with state := .erasing } opened)
  { s with store := { s.store with waiting :=
      [{ owner := .fill, kind := .verifyBlock .b 6 1 0 }, { owner := .fill, kind := .eraseBlock .a 6 0 },
        { owner := .readConfig 9, kind := .recordRead .configStaged }, { owner := .schedule, kind := .recordWrite .book 1 [1] }] } }

theorem witness_QueueMoves :
    let t := after (.eraseBlockCompletion 1 Device.sound) manyWait
    manyWait.MovedOn { owner := .fill, kind := .verifyBlock .b 6 1 0 } ∧ manyWait.MovedOn { owner := .fill, kind := .eraseBlock .a 6 0 } ∧
      ¬manyWait.MovedOn { owner := .readConfig 9, kind := .recordRead .configStaged } ∧
      StoreOp.AimsAt { owner := .fill, kind := .eraseBlock .a 6 0 } .a (.block .a 0) .eraseBlock ∧ t.act.sel.Protects .a ∧
      StoreOp.Rightful { owner := .schedule, kind := .recordWrite .book 1 [1] } ∧
      t.store.inflight = some { owner := .readConfig 9, kind := .recordRead .configStaged } ∧
      t.store.waiting = [{ owner := .schedule, kind := .recordWrite .book 1 [1] }] ∧
      t.port.notices = [.storeRefused (.block .a 0) .eraseBlock .distribution] ∧ ((t.slot .b).block 0).state = .opened := by
  refine ⟨⟨by decide, by decide +kernel⟩, ⟨by decide, by decide +kernel⟩, fun h => h.2, .inr (.inl ⟨6, 0, rfl, rfl, rfl⟩), .inl (by decide +kernel), ?_, ?_⟩
  · exact rfl
  · decide +kernel

/-- A selector write of the confirmation waits behind a program. -/
theorem witness_QueueMoves_selector :
    let op : StoreOp := { owner := .activation, kind := .selectorWrite 3 (.confirm 7) onTrial none }
    let s := programming 0 15
    let s : State := { s with store := { s.store with waiting := [op], copy := some .one, seqNo := 4 } }
    let t := after (.programChunkCompletion 1 deadDevice) s
    t.store.waiting = [] ∧ t.store.inflight = some { op with kind := .selectorWrite 3 (.confirm 7) onTrial (some (.zero, 5)) } ∧
      t.nextSelector = (.zero, 5) := by
  decide +kernel

/-- R138, R139: a verification and a check that fail; R147: what they and a full queue leave owed is submitted. -/
theorem witness_VerificationsComplete_owed :
    let owed : Block := { opened.setMark 0 .programmed with verifyOwed := true }
    let s := filling (some manifest7) opened owed
    let full : State := { s with store := { s.store with waiting := List.replicate 8 { owner := .schedule, kind := .recordRead .book } } }
    let check := (checking 0).putSlotRecord .b { (checking 0).slot .b with checkOwed := true }
    let check : State := { check with store := node.store }
    let failed := after (.verifyBlockCompletion 1 deadDevice) (verifying 0)
    ((s.slot .b).blockProgrammed 1 = true ∧ s.StoreIdle ∧ s.peers.advertDue = some 500 ∧
        (after .advertTimerExpiry s).storeOps = [{ owner := .fill, kind := .verifyBlock .b 7 1 0x11223344 }] ∧
        ((after .advertTimerExpiry s).slot .b).block 1 = { owed with state := .verifying, verifyOwed := false }) ∧
      (8 ≤ full.store.waiting.length ∧ ((after .advertTimerExpiry full).slot .b).block 1 = owed) ∧
      ((check.slot .b).state = .checking ∧ check.StoreIdle ∧ ((after .advertTimerExpiry check).slot .b).checkOwed = false ∧
        (after .advertTimerExpiry check).store.inflight = some { owner := .fill, kind := .checkImage .b 7 1 0x55667788 }) ∧
      (((failed.slot .b).block 0).state = .dirty ∧ failed.port.notices = [] ∧ (failed.peer 9).bind PeerEntry.suspectUntil = none) ∧
      ((after (.checkImageCompletion 1 deadDevice) (checking 0)).slot .b).checkOwed = true := by
  decide +kernel

/-- R151: the chunk behind the last VERIFIED block ends a request; a read that waited too long is refused. -/
theorem witness_ServedChunksAreSent_ends :
    let q := { request 9 with hybrid := true, count := 32, position := 15 }
    let s := readFor q 15 serving9
    let t := after (.readChunkCompletion 1 deadDevice) s
    let late := flying (.eraseBlock .b 8 0) (node.putSlotRecord .b { fillSlot none opened opened with version := some 8 })
    let late : State :=
      { late with
        store := { late.store with waiting := [{ owner := .serve 9 0, kind := .readChunk .b 7 0 }] }
        dist := { late.dist with serve := [request 9] } }
    let u := after (.eraseBlockCompletion 1 Device.sound) late
    (s.ServedBy 7 .b ∧ ¬(s.slot .b).Verified 1 ∧ 0 < s.prio.serveCredits ∧ t.dist.serve = [] ∧ t.StoreIdle ∧ t.prio.serveCredits = 2) ∧
      late.MovedOn { owner := .serve 9 0, kind := .readChunk .b 7 0 } ∧ late.MarksClear ∧ late.txCount ≤ 12 ∧
      u.pli.tx = [{ sender := 5, dest := 9, body := .chunkRefuse 1 7 0 }] ∧ u.dist.serve = [] ∧ u.StoreIdle := by
  refine ⟨by decide +kernel, ⟨by decide, .inl (by decide +kernel)⟩, ?_⟩
  decide +kernel

theorem witness_ActivationRequests_refused :
    let m := msg .confirmImage []
    let op : StoreOp := { owner := .schedule, kind := .recordRead .book }
    let with_ := fun n : Nat => { withAct .idle onTrial with store := { node.store with inflight := some op, waiting := List.replicate n op } }
    let t := after (.confirmImage 1 m) (with_ 7)
    ((with_ 8).Takes ∧ (with_ 8).MarksClear ∧ 8 ≤ (with_ 8).store.waiting.length ∧
        (after (.confirmImage 1 m) (with_ 8)).port.replies = answered .busy ∧ (after (.confirmImage 1 m) (with_ 8)).act.writeInFlight = false) ∧
      (¬(with_ 7).StoreIdle ∧ t.port.replies = [] ∧ t.act.writeInFlight = true ∧ (t.store.waiting.drop 7).map StoreOp.isConfirm = [true]) := by
  decide +kernel

theorem witness_RecordWritesComplete_failed :
    let marked : State := { selecting .commit with act := { (selecting .commit).act with writeInFlight := true } }
    let asked : State := { marked with act := { marked.act with activateNow := true } }
    let held : State := { selecting (.confirm 7) with act := { (selecting (.confirm 7)).act with sel := onTrial, state := .idle, confirmHeld := true } }
    let bad := after (.recordWriteCompletion 1 deadDevice)
    ¬marked.GatesOpen ∧ asked.GatesOpen ∧ (bad marked).act = { marked.act with state := .waiting, writeInFlight := false } ∧
      (bad asked).act.state = .committing ∧ (bad (withRecord 0 (record .associated) asked)).act.state = .evacuating ∧
      (bad held).act.state = .restarting ∧ (bad held).port.replies = answered .busy ∧
      (bad held).store.inflight = some { owner := .activation, kind := .selectorWrite 0 .revert onTrial.reverted (some (.zero, 1)) } := by
  refine ⟨?_, gates_open _ rfl rfl rfl, by decide +kernel⟩
  intro h
  rcases h.2.1 with g | g
  · exact absurd g.1 (by decide +kernel)
  · exact absurd g (by decide +kernel)

/-- A flow's digest, state, reason, classified-at and admitted-at. -/
def shown (t : State) (j : Fin 128) : Option (Digest × FlowState × Option WaitReason × Option Nat × Option Nat) :=
  match t.flow j with
  | .used f => some (f.digest, f.state, f.reason, f.classifiedAt, f.admittedAt)
  | .free | .release _ _ => none

/-- R115: a CONTEXT enters the flows it carries, whose digests have no record, and the flows that wait are tested. -/
theorem witness_ContextsAreMerged_flows :
    let h : Handover := { offered with used := 96, dayStamp := 20210
                                       flows := [⟨0x7A31C0E2, 30, 16⟩, ⟨8, 200, 16⟩, ⟨9, 180, 16⟩] }
    let s := withFlow 1 { game .waiting with reason := some .context } (withFrame 9 (.context h) (withRecord 0 (awaiting .provisional)))
    let t := after (.context 1) s
    s.MarksClear ∧ s.Calm ∧ (h.flows.map CarriedFlow.digest).Nodup ∧ s.findFlow client 0x7A31C0E2 = some 1 ∧
      shown t 0 = some (8, .admitted, none, some 1, some 1) ∧ shown t 1 = some (0x7A31C0E2, .admitted, none, some 0, some 1) ∧
      shown t 2 = some (9, .waiting, some .airtime, some 1, none) ∧ t.flow 3 = .free ∧
      (t.port.dirty.cls[0] = true ∧ t.port.dirty.cls[2] = true) := by
  refine ⟨?_, ?_, ?_, ?_, ?_, ?_, ?_, ?_, ?_⟩ <;> decide +kernel

theorem onlyAwaits_free (s : State) (c : ClientId) (h : ∀ j, s.flow j = .free) : s.OnlyAwaits c := by
  intro j f hf
  rw [h j] at hf
  cases hf

theorem witness_OnlyAwaits : (contextAt 20210 .provisional).OnlyAwaits client ∧
    (withRecord 7 { record .provisional with timer := some 2000 }).OnlyAwaits client := by
  constructor
  · have h : ∀ j : Fin 128, (contextAt 20210 .provisional).flow j = .free := by decide +kernel
    exact onlyAwaits_free _ _ h
  · have h : ∀ j : Fin 128, (withRecord 7 { record .provisional with timer := some 2000 }).flow j = .free := by decide +kernel
    exact onlyAwaits_free _ _ h

/-- A record of the tablet with a flow, at a minute of its Tuesday less a second. -/
def tabletGame (minute : Nat) (a : Access) (f : FlowRecord) : State :=
  let s := withFlow 0 { f with client := other } (withRecord 0 (tablet .associated a 0) (tabletAt 1 minute))
  { s with time := { s.time with mesh := s.time.mesh - 1, minuteMark := s.time.mesh / 60 - 1, dayMark := 20210 } }

/-- R112 at a minute event, with the hours of section 6.6. -/
theorem witness_TicksCountMinutes_flows :
    let capped := after .tick (tabletGame 1140 .opened (game .admitted))
    let open7 := after .tick (tabletGame 420 .blocked { game .waiting with reason := some .cap })
    ((tabletGame 1140 .opened (game .admitted)).Calm ∧ (tabletGame 1140 .opened (game .admitted)).MarksClear ∧
        (tabletGame 1140 .opened (game .admitted)).time.tickDue = some 1000) ∧
      ((capped.record 0).map ClientRecord.access = some .capped ∧ shown capped 0 = some (0x7A31C0E2, .waiting, some .cap, some 0, some 0)) ∧
      ((open7.record 0).map ClientRecord.access = some .opened ∧ shown open7 0 = some (0x7A31C0E2, .admitted, none, some 0, some 1000)) := by
  refine ⟨⟨?_, ?_, ?_⟩, ⟨?_, ?_⟩, ?_, ?_⟩ <;> decide +kernel

/-- R7: with 12 frames queued a MANIFEST is dropped. -/
theorem witness_RadioTakesTheHead_full :
    let s := from9 (.manifestRequest 7) (filling (some manifest7) opened opened)
    let f : Frame := { sender := 5, dest := 9, body := .bookRequest }
    let s : State := { s with pli := { s.pli with tx := List.replicate 12 f } }
    let t := after (.manifestRequest 1) s
    12 ≤ s.txCount ∧ s.pli.txRun = false ∧ s.MarksClear ∧ s.Head { sender := 9, dest := 5, body := .manifestRequest 7 } [] ∧
      t.pli.tx.length = 12 ∧ t.pli.txRun = true ∧ t.port.notices = [.txOverflow 9 .manifest] := by
  decide +kernel

/-- R165, R171: messages that waited are taken oldest first, as many as there is room for. -/
theorem witness_MessagesWait :
    let set := fun k : Nat => (HostKind.setTime, msg .setTime (beBytes 4 k))
    let reply : Reply := { tag := 0, status := .ok, view := none }
    let eight : State := { node with port := { node.port with replies := List.replicate 8 reply, link := [set 60, set 120] } }
    let t := after (.hostAcceptance 1) eight
    let begun := after (.startSequenceComplete 0) { starting with port := { starting.port with link := [set 60, set 120] } }
    (t.time.mesh = 60 ∧ t.port.link = [set 120] ∧ t.heldRequests = 8) ∧
      (begun.time.mesh = 120 ∧ begun.port.link = [] ∧ begun.heldRequests = 2) := by
  decide +kernel

theorem witness_AdvertExpiry_distinct :
    let e : HeardEntry := { client := client, samples := firstSamples (-72), smoothed := -288, last := 0 }
    let s : State := { node with clients := { node.clients with heard := [e, { e with client := other }] } }
    s.ListsDistinct ∧ s.peers.advertDue = some 500 ∧ s.buildAdvert.sightings.map (·.client) = [other, client] :=
  ⟨⟨by decide +kernel, by decide +kernel, by decide +kernel, by decide +kernel⟩, rfl, by decide +kernel⟩

end Sys2Proof.Tests
end

section
/-! SUPPORT. Proofs: what every step keeps (the canonical flash, the capacities, the tables without duplicates, the ranges). -/

namespace Sys2Proof.Machine

/-- The four invariants of O55 pass from one state to another, each by itself. -/
structure Sustains (s t : State) : Prop where
  flash : s.FlashCanonical → t.FlashCanonical
  capacity : s.WithinCapacity → t.WithinCapacity
  distinct : s.EntriesDistinct → t.EntriesDistinct
  range : s.WithinRange → t.WithinRange

theorem Sustains.refl (s : State) : Sustains s s := ⟨id, id, id, id⟩

theorem Sustains.trans {s u t : State} (h : Sustains s u) (k : Sustains u t) : Sustains s t :=
  ⟨k.flash ∘ h.flash, k.capacity ∘ h.capacity, k.distinct ∘ h.distinct, k.range ∘ h.range⟩

theorem Passes.sustains {s t : State} (h : Passes s t) : Sustains s t :=
  ⟨fun hf => by unfold State.FlashCanonical; rw [h.flash]; exact hf, h.capacity, h.distinct, h.range⟩

theorem Keeps.sustains {s t : State} (h : Keeps s t) : Sustains s t := h.passes.sustains

/-- No invariant reads the queue of commands. -/
theorem Sustains.dequeued (s : State) (rest : List Instr) : Sustains s { s with pending := rest } :=
  ⟨id, fun k => { k with }, fun k => { k with }, fun k => { k with }⟩

/-- Another flash in canonical form leaves the other three invariants. -/
theorem Sustains.setFlash (s : State) (flash : List Host.Cell) (h : s.FlashCanonical → Memory.wf flash = true) :
    Sustains s { s with store := { s.store with flash := flash } } :=
  ⟨h, fun k => { k with }, fun k => { k with }, fun k => { k with }⟩

/-! #### Starts -/

theorem State.flashAtStart_wf (cells : List Host.Cell) {s : State} (h : s.FlashCanonical) :
    Memory.wf (s.flashAtStart cells) = true := by
  unfold State.flashAtStart
  split
  · exact cutShort_wf _ _ _ h
  · exact h

/-- A start leaves a fresh part over a canonical flash (R141, R168), so it needs nothing of the part it ends. -/
theorem State.beginStart_sustains (recovery : Bool) (cells : List Host.Cell) (s : State) :
    Sustains s (s.beginStart recovery cells) := by
  obtain ⟨hc, hd, hr, _⟩ := State.fresh_safe s.pending (s.flashAtStart cells) s.port.link
  have hfresh : Sustains s (State.fresh s.pending (s.flashAtStart cells) s.port.link) :=
    ⟨s.flashAtStart_wf cells, fun _ => hc, fun _ => hd, fun _ => hr⟩
  have hseq := hfresh.trans ((State.setSeq_keeps { (State.fresh [] [] []).seq with recovery := recovery }
    (State.fresh s.pending (s.flashAtStart cells) s.port.link) rfl).passes rfl).sustains
  unfold State.beginStart
  simp only
  split
  · exact hseq.trans ((State.startOp_keeps _ (by simp) _ _).passes rfl).sustains
  · exact hseq.trans ((State.startOp_keeps _ (by simp) _ _).passes rfl).sustains

/-! #### Store completions -/

/-- The operation in flight completes and those behind it move: the flash stays canonical and the queues within capacity. -/
theorem State.complete_sustains (op : StoreOp) (d : Device) (s : State) : Sustains s (s.complete op d).1 :=
  (Sustains.setFlash s _ (s.perform_wf op d)).trans (State.complete_keeps op d s).sustains

/-- The delivery of the completed operation. A CHUNK goes into the place that its read held, so the capacities are those
before the completion. -/
theorem State.deliverDone_sustains {op : StoreOp} (d : Device) {s : State} (hi : s.store.inflight = some op) (r : StoreResult) :
    Sustains s ((s.complete op d).1.deliver op r) := by
  have hc := s.complete_sustains op d
  have hd := State.deliver_delivers op r (s.complete op d).1
  obtain ⟨htx, hch⟩ := State.complete_room d hi
  refine ⟨fun k => ?_, fun k => ?_, hd.distinct ∘ hc.distinct, hd.range ∘ hc.range⟩
  · have := hc.flash k
    unfold State.FlashCanonical at this ⊢
    rw [hd.flash]
    exact this
  · refine (State.deliver_passes op r _ fun hs _ _ => ?_).capacity (hc.capacity k)
    rw [hs, if_pos rfl] at htx hch
    exact ⟨htx.trans k.tx, hch.trans k.txChunks⟩

theorem State.completeOp_sustains {op : StoreOp} (d : Device) {s : State} (hi : s.store.inflight = some op) :
    Sustains s (s.completeOp op d) := by
  obtain ⟨rest, hrest, hmoved⟩ := State.complete_rest op d s
  unfold State.completeOp
  simp only [hrest, walk_cons]
  exact ((State.deliverDone_sustains d hi _).trans (State.settle_keeps _).sustains).trans
    (walk_deliver_passes rest _ hmoved).sustains

theorem State.completion_sustains (p : OpKind → Bool) (n : Nat) (d : Device) (s : State) :
    Sustains s (s.completion p n d) := by
  have hclock := (State.clockTo_keeps n s).sustains
  unfold State.completion
  simp only
  split
  · rename_i op hi
    split
    · exact hclock.trans (State.completeOp_sustains d hi)
    · exact hclock
  · exact hclock

/-! #### Every command -/

/-- An idle flow holds no share (R110). -/
theorem State.idleFlow_keeps (j : Fin 128) (s : State) : Keeps s (s.mapFlow j fun f => { f with state := .idle }) := by
  refine State.mapFlow_keeps j (fun f => { f with state := .idle }) (fun f => ⟨rfl, rfl, rfl, ?_⟩) s
  rw [FlowSlot.heldShare_of_not rfl]
  exact Nat.zero_le _

theorem exec_sustains (c : Instr) {s t : State} (h : exec c s = .next t) : Sustains s t := by
  have frame : ∀ {k take n}, exec c s = .next (s.onFrame k take n) →
      (∀ f u, u.running = true → Keeps u (take f u)) → Sustains s t := fun he hk =>
    Host.Outcome.next.inj (he.symm.trans h) ▸ (State.onFrame_keeps hk _ s).sustains
  have timer : ∀ {due take}, exec c s = .next (s.expire due take) → (∀ d u, Keeps u (take d u)) → Sustains s t :=
    fun he hk => Host.Outcome.next.inj (he.symm.trans h) ▸ (State.expire_keeps hk s).sustains
  have host : ∀ {k n m}, exec c s = .next (s.hostMessage k n m) → Sustains s t := fun he =>
    Host.Outcome.next.inj (he.symm.trans h) ▸ (State.hostMessage_keeps _ _ _ s).sustains
  have clocked : ∀ {n} {f : State → State}, exec c s = .next (f (s.clockTo n)) → (∀ u, Passes u (f u)) → Sustains s t :=
    fun he hk => Host.Outcome.next.inj (he.symm.trans h) ▸ ((State.clockTo_keeps _ s).passes.trans (hk _)).sustains
  have store : ∀ {p n d}, exec c s = .next (s.completion p n d) → Sustains s t := fun he =>
    Host.Outcome.next.inj (he.symm.trans h) ▸ State.completion_sustains _ _ _ s
  have start : ∀ {b cells}, exec c s = .next (s.beginStart b cells) → Sustains s t := fun he =>
    Host.Outcome.next.inj (he.symm.trans h) ▸ State.beginStart_sustains _ _ s
  cases c with
  | powerOnStart | hostRestart | recoveryStart => exact start rfl
  | startSequenceComplete => exact clocked rfl State.sequenceEnds_passes
  | frameReceived => exact clocked rfl (fun u => (State.receive_keeps _ u).passes)
  | advert => exact frame rfl (fun f u _ => State.takeAdvert_keeps f u)
  | offer => exact frame rfl (fun f u hr => by unfold State.onOffer; split; exacts [State.takeOffer_keeps _ _ u hr, .refl u])
  | accept => exact frame rfl (fun f u _ => by unfold State.onAccept; split; exacts [State.takeAccept_keeps _ _ u, .refl u])
  | decline => exact frame rfl (fun f u _ => by unfold State.onDecline; split; exacts [State.takeDecline_keeps _ _ _ u, .refl u])
  | claim => exact frame rfl (fun f u _ => by unfold State.onClaim; split; exacts [State.takeClaim_keeps _ _ u, .refl u])
  | context => exact frame rfl (fun f u hr => by unfold State.onContext; split; exacts [State.takeContext_keeps _ u hr, .refl u])
  | bookRequest => exact frame rfl (fun f u _ => State.takeBookRequest_keeps _ u)
  | bookSegment =>
    exact frame rfl (fun f u _ => by unfold State.onBookSegment; split; exacts [State.takeSegment_keeps _ _ _ _ _ u, .refl u])
  | manifestRequest =>
    exact frame rfl (fun f u _ => by unfold State.onManifestRequest; split; exacts [State.takeManifestRequest_keeps _ _ u, .refl u])
  | manifest => exact frame rfl (fun f u _ => by unfold State.onManifest; split; exacts [State.takeManifest_keeps _ u, .refl u])
  | chunkRequest =>
    exact frame rfl (fun f u _ => by
      unfold State.onChunkRequest; split; exacts [State.takeChunkRequest_keeps _ _ _ _ _ _ u, .refl u])
  | chunk => exact frame rfl (fun f u _ => by unfold State.onChunk; split; exacts [State.takeChunk_keeps _ _ _ _ u, .refl u])
  | chunkRefuse =>
    exact frame rfl (fun f u _ => by unfold State.onChunkRefuse; split; exacts [State.takeRefuse_keeps _ _ _ _ u, .refl u])
  | frameTakenByRadio => exact clocked rfl (fun u => (State.frameTaken_keeps u).passes)
  | associate | disassociate | signal | sighting | link | clientActivity | flowSample | flowActive | flowEnd | loadBook
  | setTime | seedManifest | seedChunk | activateNow | confirmImage | readRecord | writeConfig => exact host rfl
  | evaluation => exact clocked rfl (fun u => (State.evaluateNext_keeps u).passes)
  | hostAcceptance => exact clocked rfl (fun u => (State.accept_keeps u).passes)
  | advertTimerExpiry => exact timer rfl State.advertExpiry_keeps
  | freshnessTimerExpiry => exact timer rfl (fun _ => State.goStale_keeps _)
  | removalTimerExpiry => exact timer rfl (fun _ => State.losePeer_keeps _)
  | heardListExpiry => exact timer rfl (fun _ => State.forgetHeard_keeps _)
  | suspectUntilReached => exact timer rfl (fun _ => State.mapPeer_keeps _ _ (fun _ => rfl) fun _ => id)
  | declineHoldExpiry =>
    exact timer rfl (fun _ => State.mapClient_keeps _ _ fun r =>
      ⟨rfl, (List.length_filter_le _ _).trans, List.Pairwise.filter _, id⟩)
  | steerResistantExpiry => exact timer rfl (fun _ => State.mapClient_keeps _ _ fun r => .plain rfl rfl rfl rfl)
  | offeringExpiry => exact timer rfl (fun _ => State.handoffEnds_keeps _ fun _ _ _ => State.offeringEnds_keeps)
  | handingExpiry => exact timer rfl (fun _ => State.handoffEnds_keeps _ fun _ _ _ => State.handingEnds_keeps)
  | arrivingExpiry => exact timer rfl (fun _ => State.handoffEnds_keeps _ fun i _ u _ => State.deleteSlot_keeps i u)
  | provisionalExpiry => exact timer rfl (fun _ => State.handoffEnds_keeps _ fun _ _ _ => State.provisionalEnds_keeps)
  | tick => exact timer rfl State.tickAt_keeps
  | ageingTimerExpiry => exact timer rfl State.ageRank_keeps
  | stagingTimerExpiry => exact timer rfl (fun _ _ => Keeps.quiet rfl)
  | idleTimerExpiry =>
    exact timer rfl fun _ u => (State.idleFlow_keeps _ u).trans (State.settle_keeps _)
  | flowRemovalTimerExpiry => exact timer rfl (fun _ u => (State.removeFlow_keeps _ u).trans (State.settle_keeps _))
  | holdUntilReached => exact timer rfl (fun _ => State.mapFlow_keeps _ _ fun x => ⟨rfl, rfl, rfl, le_rfl⟩)
  | chunkRequestExpiry => exact timer rfl (fun _ => State.closeRequest_keeps)
  | evacuationLimitExpiry => exact timer rfl (fun _ => State.limitReached_keeps)
  | confirmTimerExpiry => exact timer rfl (fun _ u => (State.confirmEnds_keeps u).trans (State.settle_keeps _))
  | writeRetryTimerExpiry =>
    obtain rfl : s.retryExpiry = t := Host.Outcome.next.inj h
    unfold State.retryExpiry
    split
    · exact ((State.clockTo_keeps _ s).trans (State.retryEnds_keeps _)).sustains
    · exact .refl s
  | readChunkCompletion | programChunkCompletion | eraseBlockCompletion | verifyBlockCompletion | checkImageCompletion
  | recordWriteCompletion | recordReadCompletion => exact store rfl

theorem step_sustains {s t : State} (h : step s = .next t) : Sustains s t := by
  unfold step at h
  split at h
  · exact (Sustains.dequeued s _).trans (exec_sustains _ h)
  · obtain rfl := Host.Outcome.next.inj h
    exact .refl s

/-- Settles O55: what a command does keeps each invariant, and taking the command from the queue touches none. -/
theorem invariantsAreKept : Obligations.InvariantsAreKept := by
  intro s t h
  have k := step_sustains h
  exact ⟨k.flash, k.capacity, k.distinct, k.range⟩

end Sys2Proof.Machine
end

section
/-! SUPPORT. Proofs: how a command reaches its unit (the head frame, the host message, the timer that is due), what a
submission leaves alone, and the first element of a sorted list. -/

namespace Sys2Proof.Machine

/-! ### From the command to its unit -/

theorem State.configured_iff {s : State} : s.configured = true ↔ 1 ≤ s.cfg.nodeId ∧ s.cfg.nodeId ≤ 63 := by
  simp [State.configured]

theorem State.not_configured {s : State} (h : s.cfg.nodeId = 0 ∨ 63 < s.cfg.nodeId) : s.configured = false := by
  rw [Bool.eq_false_iff, Ne, State.configured_iff]
  omega

/-- A timer that is due in a running part expires at its time. -/
theorem State.expire_due {s : State} {due : Option Nat} {d : Nat} (take : Nat → State → State) (hr : s.running = true)
    (h : due = some d) : s.expire due take = take d (s.clockTo d) := by
  simp [State.expire, h, hr]

/-- The head frame, when it is of the command's kind, goes to its unit (R3). -/
theorem State.onFrame_head {s : State} {f : Frame} {rest : List Frame} {k : FrameKind} (take : Frame → State → State) (n : Nat)
    (h : s.Head f rest) (hk : f.body.kind = k) : s.onFrame k take n = (take f (s.taking n rest)).settle := by
  obtain ⟨hr, hrx⟩ := h
  have hr' : (s.clockTo n).running = true := hr
  simp [State.onFrame, hrx, hr', hk, State.taking]

/-- The end of an event changes nothing when the marks are clear and no gate test is called for. -/
theorem State.settle_of_ev {s t : State} (h : s.MarksClear) (ht : t.ev = s.ev) : t.settle = t := State.settle_clear (ht.trans h)

@[simp] theorem State.taking_ev (s : State) (n : Nat) (rest : List Frame) : (s.taking n rest).ev = s.ev := rfl

/-- A port that takes messages hands an observation that passes its checks to its unit (R171). -/
theorem State.hostMessage_observed {s : State} {k : HostKind} {m : HostMsg} (n : Nat) (h : s.Takes) (hk : k.isRequest = false)
    (hm : hostMsgOk k m = true) : s.hostMessage k n m = (s.clockTo n).handle k m.tag m.body := by
  obtain ⟨hr, hheld, hlink⟩ := h
  have hopen : (s.clockTo n).portOpen = true := by
    have hr' : (s.clockTo n).running = true := hr
    have hh' : (s.clockTo n).heldRequests < Config.heldRequests := hheld
    simp [State.portOpen, hr', hh']
  simp [State.hostMessage, hopen, hlink, State.takeMessage, hm, HostKind.needsNode, hk]

/-! ### What a submission leaves alone -/

theorem State.raiseRefused_pli (op : StoreOp) (s : State) : (s.raiseRefused op).pli = s.pli := by
  unfold State.raiseRefused
  split <;> simp

theorem State.submit_pli (op : StoreOp) (s : State) : (s.submit op).1.pli = s.pli := by
  rcases State.submit_cases op s with ⟨h, _⟩ | ⟨h, _⟩ | ⟨_, _, _, _, ⟨_, _, h⟩ | ⟨_, h⟩⟩ <;> rw [h]
  · exact State.raiseRefused_pli op s
  · rw [(State.markAccepted_same op _).2.1]
  · rw [(State.markAccepted_same op _).2.1]

theorem State.startOp_pli (st : Stage) (kind : OpKind) (s : State) : (s.startOp st kind).pli = s.pli := State.submit_pli _ _

/-! ### The first of a sorted list -/

/-- Nothing comes before the first element of a sorted list. -/
theorem not_before_head_sortBy {α : Type} {before : α → α → Bool} {l : List α} {w : α}
    (ht : ∀ a b c, before b a = false → before c b = false → before c a = false)
    (hto : ∀ a b, before a b = true → before b a = false) (h : (sortBy before l).head? = some w) :
    ∀ x ∈ l, before x w = false := by
  intro x hx
  have hs := sortBy_sorted before l ht hto
  have hm := (mem_sortBy before x l).mpr hx
  have hirr : before w w = false := by
    cases hw : before w w with
    | false => rfl
    | true => exact (hw.symm.trans (hto w w hw)).symm ▸ rfl
  cases hl : sortBy before l with
  | nil => rw [hl] at h; cases h
  | cons y ys =>
    rw [hl] at h hs hm
    cases h
    rcases List.mem_cons.mp hm with rfl | hm
    · exact hirr
    · exact (List.pairwise_cons.mp hs).1 x hm

/-- A list with an element has a first one in order. -/
theorem head_sortBy_of_mem {α : Type} (before : α → α → Bool) {l : List α} {x : α} (hx : x ∈ l) :
    ∃ w, (sortBy before l).head? = some w := by
  cases hl : sortBy before l with
  | nil =>
    have := (mem_sortBy before x l).mpr hx
    rw [hl] at this
    cases this
  | cons w ws => exact ⟨w, rfl⟩

/-! ### The Peer Table (R12, R17) -/

/-- A change of one peer's entry shows at that peer alone. -/
theorem State.peer_mapPeer {f : PeerEntry → PeerEntry} (hid : ∀ p, (f p).id = p.id) (s : State) (id k : Nat) :
    (s.mapPeer id f).peer k = if k = id then (s.peer k).map f else s.peer k := by
  have hkey : ∀ p : PeerEntry, (if p.id == id then f p else p).id = p.id := fun p => by split <;> simp [hid]
  have hcomp : ((fun p : PeerEntry => p.id == k) ∘ fun p => if p.id == id then f p else p) = fun p => p.id == k :=
    funext fun p => by simp only [Function.comp_apply, hkey]
  simp only [State.peer, State.mapPeer, List.find?_map, hcomp]
  cases hp : s.peers.table.find? (fun p => p.id == k) with
  | none => simp
  | some p =>
    have hpk : p.id = k := by simpa using List.find?_some hp
    by_cases h : k = id <;> simp [hpk, h]

/-- Recomputing the own path cost gives what R17 asks for. -/
theorem State.pathIsLeast_recomputePath (s : State) : s.recomputePath.PathIsLeast := by
  unfold State.PathIsLeast State.recomputePath State.pathCostNow
  cases hg : s.cfg.gateway with
  | true => simp
  | false =>
    have hsum : ∀ {p : PeerEntry} {n : Nat}, p.pathSum = some n ↔
        (p.fresh = true ∧ 0 < p.linkCost) ∧ p.advert.pathCost + p.linkCost = n := by
      intro p n
      unfold PeerEntry.pathSum
      split <;> simp_all
    simp only [Bool.false_eq_true, if_false]
    refine ⟨foldl_min_le _ _, fun p hp hf hl => ?_, ?_⟩
    · exact foldl_min_le_mem _ _ _ (List.mem_filterMap.mpr ⟨p, hp, hsum.mpr ⟨⟨hf, hl⟩, rfl⟩⟩)
    · rcases foldl_min_mem (s.peers.table.filterMap PeerEntry.pathSum) Config.noPath with h | h
      · exact Or.inl h
      · obtain ⟨p, hp, hn⟩ := List.mem_filterMap.mp h
        obtain ⟨⟨hf, hl⟩, hn⟩ := hsum.mp hn
        exact Or.inr ⟨p, hp, hf, hl, hn.symm⟩

/-- The own path cost stands with the table, the cost and the configuration. -/
theorem State.PathIsLeast.of_same {s t : State} (h : s.PathIsLeast) (hc : t.cfg = s.cfg)
    (ht : t.peers.table = s.peers.table) (ho : t.peers.ownPath = s.peers.ownPath) : t.PathIsLeast := by
  unfold State.PathIsLeast at h ⊢
  rw [hc, ht, ho]
  exact h

end Sys2Proof.Machine
end

section
/-! SUPPORT. Proofs: the reset state, the timers that only clear, frames that arrive and frames the radio takes, and the
ADVERTs that are ignored. -/

namespace Sys2Proof.Machine

/-! ### O3: the state at reset -/

theorem State.reset_flow (j : Fin 128) : State.reset.flow j = .free := by
  simp [State.flow, State.reset, State.fresh]

theorem State.reset_record (i : Fin 64) : State.reset.record i = none := by
  simp [State.record, State.reset, State.fresh]

theorem State.reset_ownReserved : State.reset.ownReserved = 0 :=
  ownReserved_zero fun j => by rw [State.reset_flow]; rfl

theorem State.reset_safe : State.reset.Safe := by
  obtain ⟨hc, hd, hr, ha⟩ := State.fresh_safe [] [] []
  exact ⟨rfl, hc, hd, hr, ha, rfl⟩

theorem State.reset_flowsEntitled : State.reset.FlowsEntitled where
  admitted j f h := by rw [State.reset_flow] at h; cases h
  reserved j f r h := by rw [State.reset_flow] at h; cases h
  departed j f r h := by rw [State.reset_flow] at h; cases h
  leaving _ i r h := by rw [State.reset_record] at h; cases h
  starting _ i := State.reset_record i

/-- Settles O3: the values by evaluation of the reset state, the invariants over its empty tables. -/
theorem resetHoldsTheStartValues : Obligations.ResetHoldsTheStartValues := by
  refine ⟨⟨rfl, rfl, rfl, rfl⟩, ⟨rfl, rfl⟩, ⟨State.reset_record, rfl, rfl⟩, ⟨rfl, rfl, rfl, rfl, rfl⟩, ⟨rfl, rfl, rfl, rfl⟩,
    ⟨State.reset_flow, State.reset_ownReserved, rfl, rfl⟩, ⟨rfl, rfl⟩, ⟨rfl, rfl, rfl, rfl, rfl⟩, ⟨rfl, rfl, rfl⟩,
    ⟨rfl, rfl, rfl, rfl, rfl, fun i => ?_, fun j => ?_⟩,
    State.reset_safe, State.reset_flowsEntitled, fun h => ?_, fun op h => ?_, fun op h => ?_, fun _ => le_rfl⟩
  · simp [State.reset, State.fresh, Dirty.atStart]
  · simp [State.reset, State.fresh, Dirty.atStart]
  · cases h
  · cases h
  · cases h

/-! ### O15: the timers that only clear -/

theorem State.recordOf_of_holds {s : State} {c : ClientId} {i : Fin 64} {r : ClientRecord} (h : s.Holds c i r) :
    s.recordOf c = some r := by
  simp [State.recordOf, h.1, h.2]

theorem State.mapClient_of_holds {s : State} {c : ClientId} {i : Fin 64} {r : ClientRecord} (h : s.Holds c i r) (n : Nat)
    (f : ClientRecord → ClientRecord) : State.mapClient c f (s.clockTo n) = State.putRecord i (f r) (s.clockTo n) := by
  have hf : (s.clockTo n).findClient c = some i := h.1
  have hr : (s.clockTo n).record i = some r := h.2
  simp [State.mapClient, hf, hr]

/-- With one entry for a client, a member of the Heard List is the one found for its client (R18). -/
theorem find?_heard_of_mem {l : List HeardEntry} {e : HeardEntry} (hd : l.Pairwise fun x y => x.client ≠ y.client)
    (he : e ∈ l) : l.find? (fun x => x.client == e.client) = some e := by
  induction l with
  | nil => cases he
  | cons x xs ih =>
    obtain ⟨hx, hxs⟩ := List.pairwise_cons.mp hd
    rcases List.mem_cons.mp he with rfl | he
    · simp
    · rw [List.find?_cons_of_neg (by simpa using hx e he)]
      exact ih hxs he

/-- Settles O15: each timer is due at its time, and its expiry clears its mark or entry. -/
theorem timersThatOnlyClear : Obligations.TimersThatOnlyClear := by
  intro s hrun
  have next : ∀ {t u : State}, t = u → Host.Outcome.next (φ := Fault) (ρ := Refusal) t = .next u := fun h => h ▸ rfl
  refine ⟨fun id p d hp hd => next ?_, fun c i r h hh hf => next ?_, fun c i r d hh hd => next ?_, fun j f d hj hd => next ?_,
    fun e he hdist => next ?_, fun g hg => next ?_, fun o ho => next ?_⟩
  · rw [State.expire_due _ hrun (d := d) (by simp [State.suspectDue, hp, hd])]
    simp [State.mapPeer]
  · have hdue : s.holdDue c h.peer = some h.untilTime := by
      have hf' : r.holds.find? (fun x => x.peer == h.peer) = some h := by rw [← hf]; congr
      simp [State.holdDue, State.recordOf_of_holds hh, hf']
    rw [State.expire_due _ hrun hdue, State.mapClient_of_holds hh]
    congr
    funext x
    simp [bne, Bool.beq_eq_decide_eq]
  · rw [State.expire_due _ hrun (d := d) (by simp [State.resistanceDue, State.recordOf_of_holds hh, hd]),
      State.mapClient_of_holds hh]
  · have hj' : (s.clockTo d).flow j = .used f := hj
    rw [State.expire_due _ hrun (d := d) (by simp [State.flowDue, hj, hd])]
    have hcls : (FlowSlot.used { f with holdUntil := none }).classValue = (FlowSlot.used f).classValue := rfl
    have hsh : (FlowSlot.used { f with holdUntil := none }).holdsShare = (FlowSlot.used f).holdsShare := rfl
    have had : (FlowSlot.used { f with holdUntil := none }).isAdmitted = (FlowSlot.used f).isAdmitted := rfl
    simp [State.mapFlow, hj', State.putFlow, hcls, hsh, had]
  · have hfind := find?_heard_of_mem hdist.heard he
    rw [State.expire_due _ hrun (d := e.last + 3000) (by simp [State.heardDue, hfind, Config.sightingLife])]
    simp [State.forgetHeard, bne, Bool.beq_eq_decide_eq]
  · rw [State.expire_due _ hrun (d := g.due) (by simp [hg])]
    rfl
  · rw [State.expire_due _ hrun (d := o.due) (by simp [ho])]
    rfl

/-! ### O7: frames that arrive -/

/-- The checks of R2 let through what `State.Accepts` describes. -/
theorem State.acceptable_eq_some {s : State} {w : WireFrame} {f : Frame} : s.acceptable w = some f ↔ s.Accepts w f := by
  unfold State.acceptable State.Accepts
  cases hr : readFrame w with
  | none => simp
  | some g =>
    simp only [Option.some.injEq, Option.ite_none_right_eq_some, Frame.isAdvert, beq_iff_eq]
    constructor
    · rintro ⟨⟨hd, hs⟩, rfl⟩
      exact ⟨rfl, hd, hs⟩
    · rintro ⟨rfl, hd, hs⟩
      exact ⟨⟨hd, hs⟩, rfl⟩

theorem State.receive_accepted {s : State} {w : WireFrame} {f : Frame} (hr : s.running = true) (hc : s.configured = true)
    (h : s.Accepts w f) : s.receive w = s.queueFrame f := by
  simp [State.receive, hr, hc, State.acceptable_eq_some.mpr h]

theorem State.receive_other {s : State} {w : WireFrame} (h : ¬∃ f, s.Accepts w f) : s.receive w = s := by
  have hn : s.acceptable w = none := by
    cases ha : s.acceptable w with
    | none => rfl
    | some f => exact absurd ⟨f, State.acceptable_eq_some.mp ha⟩ h
  simp [State.receive, hn]

theorem State.raise_room {s : State} (n : Notice) (h : s.port.notices.length < 16) :
    s.raise n = { s with port := { s.port with notices := s.port.notices ++ [n] } } := if_pos h

theorem State.raise_full {s : State} (n : Notice) (h : 16 ≤ s.port.notices.length) :
    s.raise n = { s with port := { s.port with overflow := true } } := if_neg (by unfold Config.noticeEntries; omega)

theorem State.beginStart_pli (recovery : Bool) (cells : List Host.Cell) (s : State) :
    (s.beginStart recovery cells).pli = State.reset.pli := by
  unfold State.beginStart
  cases recovery <;> exact State.startOp_pli _ _ _

/-- A start leaves what `State.beginStart` does (R165). -/
theorem exec_start {c : Instr} {s t : State} (hs : IsStart c) (h : exec c s = .next t) :
    ∃ recovery cells, t = s.beginStart recovery cells := by
  obtain ⟨cells, rfl | rfl | rfl⟩ := hs
  · exact ⟨false, cells, (Host.Outcome.next.inj h).symm⟩
  · exact ⟨false, cells, (Host.Outcome.next.inj h).symm⟩
  · exact ⟨true, cells, (Host.Outcome.next.inj h).symm⟩

/-- Settles O7: by the room in the receive queue and the run mark. -/
theorem arrivingFramesAreQueuedOrDropped : Obligations.ArrivingFramesAreQueuedOrDropped := by
  refine ⟨fun x s => ⟨State.raise_room x, State.raise_full x⟩, fun n w s hrun h1 h63 => ?_, fun n w s h => ?_,
    fun c s t hc h => ?_⟩
  · have hcfg : (s.clockTo n).configured = true := State.configured_iff.mpr ⟨h1, h63⟩
    have htaken : ∀ {f}, s.Accepts w f → exec (.frameReceived n w) s = .next ((s.clockTo n).queueFrame f) := fun h =>
      congrArg Host.Outcome.next (State.receive_accepted (s := s.clockTo n) hrun hcfg h)
    refine ⟨fun f hf hroom => ?_, fun f hf hfull hmark => ?_, fun f hf hfull hmark => ?_, fun hno => ?_⟩
    · rw [htaken hf, State.queueFrame, if_pos (by simpa [Config.rxFrames] using hroom)]
    · rw [htaken hf, State.queueFrame, if_neg (by simpa [Config.rxFrames] using hfull), if_neg (by simp [hmark])]
    · rw [htaken hf, State.queueFrame, if_neg (by simpa [Config.rxFrames] using hfull), if_pos (by simp [hmark])]
    · exact congrArg Host.Outcome.next (State.receive_other (s := s.clockTo n) hno)
  · have hcfg : (s.clockTo n).configured = false := State.not_configured h
    exact congrArg Host.Outcome.next (by simp [State.receive, hcfg])
  · obtain ⟨recovery, cells, rfl⟩ := exec_start hc h
    rw [State.beginStart_pli]
    rfl

/-! ### O8: ADVERTs that are ignored -/

theorem Advert.inRange_iff {a : Advert} : a.inRange = true ↔
    a.pathCost ≤ 63 ∧ a.clientCount ≤ 64 ∧ a.freeSlots ≤ 64 ∧ a.clientCount + a.freeSlots = 64 ∧ a.reserved ≤ 1000 ∧
      a.timeRank ≤ 15 ∧ a.sightings.length ≤ 16 ∧ a.bookOrigin ≤ 63 ∧
      ∀ g ∈ a.sightings, g.age ≤ 3 ∧ -400 ≤ g.smoothed ∧ g.smoothed ≤ -80 := by
  simp only [Advert.inRange, Bool.and_eq_true, decide_eq_true_eq, beq_iff_eq, List.all_eq_true, and_assoc]
  rfl

theorem Advert.not_inRange {a : Advert}
    (h : 63 < a.pathCost ∨ 64 < a.clientCount ∨ 64 < a.freeSlots ∨ a.clientCount + a.freeSlots ≠ 64 ∨ 1000 < a.reserved ∨
      15 < a.timeRank ∨ 16 < a.sightings.length ∨ 63 < a.bookOrigin ∨
      (∃ g ∈ a.sightings, 3 < g.age ∨ g.smoothed < -400 ∨ -80 < g.smoothed)) : a.inRange = false := by
  rw [Bool.eq_false_iff, Ne, Advert.inRange_iff]
  rintro ⟨h1, h2, h3, h4, h5, h6, h7, h8, h9⟩
  rcases h with h | h | h | h | h | h | h | h | ⟨g, hg, h⟩
  case inr.inr.inr.inr.inr.inr.inr.inr =>
    have := h9 g hg
    omega
  all_goals omega

/-- Settles O8: each of the three cases leaves the state the unit began with, but for the notice. -/
theorem advertsAreIgnored : Obligations.AdvertsAreIgnored := by
  intro n s f rest a hhead hbody hclear
  have hexec : ∀ {t}, State.takeAdvert f (s.taking n rest) = t → t.ev = s.ev → exec (.advert n) s = .next t := fun ht he => by
    rw [show exec (.advert n) s = .next (s.onFrame .advert State.takeAdvert n) from rfl,
      State.onFrame_head _ n hhead (by rw [hbody]; rfl), ht, State.settle_of_ev hclear he]
  have hcfg : (s.taking n rest).cfg = s.cfg := rfl
  refine ⟨fun hown => ?_, fun hother hbad => ?_, fun hother hnone hfull => ?_⟩
  · refine hexec ?_ (by simp)
    simp [State.takeAdvert, hbody, hown, hcfg]
  · refine hexec ?_ rfl
    simp [State.takeAdvert, hbody, hother, hcfg, Advert.not_inRange hbad]
  · refine hexec ?_ rfl
    have hpeer : (s.taking n rest).peer f.sender = none := hnone
    have htab : ¬(s.taking n rest).peers.table.length < Config.peerEntries := Nat.not_lt.mpr hfull
    have henter : (s.taking n rest).enterPeer f.sender a = none := by simp only [State.enterPeer, hpeer, if_neg htab]
    simp [State.takeAdvert, hbody, hother, hcfg, henter]

/-! ### O12: LINK -/

theorem State.peer_clockTo (s : State) (n k : Nat) : (s.clockTo n).peer k = s.peer k := rfl

/-- Settles O12. -/
theorem linkSetsTheLinkCost : Obligations.LinkSetsTheLinkCost := by
  intro n m s ht hm
  have hexec : exec (.link n m) s = .next ((s.clockTo n).takeLink m.tag m.body) :=
    congrArg Host.Outcome.next (State.hostMessage_observed n ht rfl hm)
  refine ⟨fun h => ?_, fun p hp hid => ?_⟩
  · rw [hexec]
    rcases h with h | h <;> simp [State.takeLink, State.peer_clockTo, h]
  · let f : PeerEntry → PeerEntry := fun p => { p with linkCost := min (field m.body 1 1) 31 }
    let u : State := (s.clockTo n).mapPeer (field m.body 0 1) f
    have htake : (s.clockTo n).takeLink m.tag m.body = u.recomputePath := by
      simp [State.takeLink, State.peer_clockTo, hp, hid, u, f]
    have hpeer : ∀ k, u.recomputePath.peer k = if k = field m.body 0 1 then (s.peer k).map f else s.peer k :=
      State.peer_mapPeer (f := f) (fun _ => rfl) (s.clockTo n) _
    refine ⟨u.recomputePath, by rw [hexec, htake], rfl, rfl, rfl, ?_, fun k hk => ?_, u.pathIsLeast_recomputePath⟩
    · rw [hpeer, if_pos rfl, hp]
      rfl
    · rw [hpeer, if_neg hk]

/-! ### O11: SIGHTING -/

/-- The order of R18 is total on what it compares, so what is weakest is weakest by its figures. -/
theorem HeardEntry.weaker_eq_false {x y : HeardEntry} : x.weaker y = false ↔
    y.smoothed < x.smoothed ∨ (x.smoothed = y.smoothed ∧ (y.last < x.last ∨ (x.last = y.last ∧ y.client.toNat ≤ x.client.toNat))) := by
  simp only [HeardEntry.weaker, Bool.or_eq_false_iff, decide_eq_false_iff_not, Bool.and_eq_false_iff, beq_eq_false_iff_ne]
  omega

theorem HeardEntry.weaker_asymm (x y : HeardEntry) (h : x.weaker y = true) : y.weaker x = false := by
  rw [HeardEntry.weaker_eq_false]
  simp only [HeardEntry.weaker, Bool.or_eq_true, decide_eq_true_eq, Bool.and_eq_true, beq_iff_eq] at h
  omega

/-- The weakest entry of R18 is the first in its order, up to its figures and its client. -/
theorem weakest_heard {l : List HeardEntry} {w v : HeardEntry} (hw : w ∈ l)
    (hleast : ∀ y ∈ l, w.smoothed < y.smoothed ∨
      (w.smoothed = y.smoothed ∧ (w.last < y.last ∨ (w.last = y.last ∧ w.client.toNat ≤ y.client.toNat))))
    (hv : (sortBy HeardEntry.weaker l).head? = some v) : v.smoothed = w.smoothed ∧ v.client = w.client := by
  have h1 := hleast v (mem_of_head_sortBy hv)
  have h2 := HeardEntry.weaker_eq_false.mp
    (not_before_head_sortBy (fun a b c => by simp only [HeardEntry.weaker_eq_false]; omega) HeardEntry.weaker_asymm hv w hw)
  have hc : v.client.toNat = w.client.toNat := by omega
  exact ⟨by omega, BitVec.eq_of_toNat_eq hc⟩

theorem isMiddle_median (a b c : Int) : IsMiddle a b c (median a b c) := by
  refine ⟨by simpa using median_mem a b c, ?_, ?_⟩ <;> unfold median <;> simp only [List.filter_cons, List.filter_nil] <;>
    split <;> split <;> split <;> simp <;> simp_all <;> omega

/-- Settles O11. -/
theorem sightingsEnterTheHeardList : Obligations.SightingsEnterTheHeardList := by
  refine ⟨isMiddle_median, fun n m s ht hm => ?_⟩
  have hexec : exec (.sighting n m) s = .next ((s.clockTo n).takeSighting m.tag m.body) :=
    congrArg Host.Outcome.next (State.hostMessage_observed n ht rfl hm)
  have hheld : (s.clockTo n).heldHere (clientField m.body 0) = s.heldHere (clientField m.body 0) := rfl
  intro c x e heard answer
  refine ⟨fun h => by simp [hexec, State.takeSighting, hheld, h, c] , fun h => ?_⟩
  have hans : ∀ l, hear c (signedByte m.body 6) (max s.now n) heard = l → answer l := fun l hl => by
    simp only [answer, hexec, State.takeSighting, hheld]
    rw [if_neg (by simpa [c] using h)]
    rw [← hl]
    rfl
  refine ⟨fun hany => hans _ ?_, fun hnew hroom => hans _ ?_, fun hnew hfull w hw hleast => hans _ ?_⟩
  · rw [hear, if_pos (by simpa using hany)]
    refine List.map_congr_left fun y _ => ?_
    by_cases hy : y.client = c
    · simp [hy, HeardEntry.smooth, Samples.shift, Samples.median, smoothStep, clampLevel, x]
    · simp [hy]
  · rw [hear, if_neg (by simpa using hnew), if_pos (by simpa [Config.heardEntries] using hroom)]
    rfl
  · obtain ⟨v, hv⟩ := head_sortBy_of_mem HeardEntry.weaker hw
    obtain ⟨hsm, hcl⟩ := weakest_heard hw hleast hv
    rw [hear, if_neg (by simpa using hnew), if_neg (by simpa [Config.heardEntries] using hfull)]
    simp only [hv, hsm, hcl]
    simp [e, x, firstSamples, clampLevel, bne, Bool.beq_eq_decide_eq]

end Sys2Proof.Machine
end

section
/-! SUPPORT. Proofs: what the operations of the units leave alone of the parts that O54 speaks of: the flash and the store's
account of the selector copies, the held selector, the configuration, the start sequence, time, the book, the receive queue,
the Heard List, the refusal list, the frame the radio took and the message sent. One lemma for each operation. -/

namespace Sys2Proof.Machine

/-- The parts that O54 speaks of, and the messages that wait in the link. -/
structure Fixed where
  flash : List Host.Cell
  copy : Option CopyId
  seqNo : Nat
  sel : Selector
  cfg : ActiveConfig
  seq : StartSeq
  time : TimeBase
  book : Book
  rx : List Frame
  heard : List HeardEntry
  refusals : List ClientId
  radioOut : Option WireFrame
  sent : Option Sent
  link : List (HostKind × HostMsg)

/-- Those parts of a state. -/
def State.fixed (s : State) : Fixed :=
  { flash := s.store.flash, copy := s.store.copy, seqNo := s.store.seqNo, sel := s.act.sel, cfg := s.cfg, seq := s.seq,
    time := s.time, book := s.sched.book, rx := s.pli.rx, heard := s.clients.heard, refusals := s.clients.refusals,
    radioOut := s.radioOut, sent := s.port.sent, link := s.port.link }

/-- What changes only beside those parts leaves them. -/
theorem State.fixed_of_beside {s t : State} (h : t.beside = s.beside) : t.fixed = s.fixed :=
  show t.beside.fixed = s.beside.fixed by rw [h]

theorem State.time_of_fixed {s t : State} (h : t.fixed = s.fixed) : t.time = s.time := congrArg Fixed.time h

theorem walk_fixed {α : Type} {f : α → State → State} (h : ∀ x s, (f x s).fixed = s.fixed) (xs : List α) (s : State) :
    (walk xs f s).fixed = s.fixed := walk_same State.fixed f h xs s

/-! ### Notices, frames, slot records and the store -/

theorem State.raise_fixed (n : Notice) (s : State) : (s.raise n).fixed = s.fixed := by
  unfold State.raise
  split <;> rfl

theorem State.send_fixed (d : Nat) (b : FrameBody) (s : State) : (s.send d b).fixed = s.fixed := by
  unfold State.send
  split
  · rfl
  · split
    · rfl
    · split
      · rfl
      · exact State.raise_fixed _ _

theorem State.sendChunk_fixed (d v i : Nat) (data : List Byte) (s : State) : (s.sendChunk d v i data).fixed = s.fixed := by
  unfold State.sendChunk
  split <;> rfl

theorem State.placeAdvert_fixed (a : Advert) (s : State) : (s.placeAdvert a).fixed = s.fixed := by
  unfold State.placeAdvert
  split
  · rfl
  · split <;> rfl

theorem State.putSlotRecord_fixed (k : SlotId) (r : SlotRecord) (s : State) : (s.putSlotRecord k r).fixed = s.fixed := by
  cases k <;> rfl

theorem State.mapBlock_fixed (k : SlotId) (b : Nat) (f : Block → Block) (s : State) : (s.mapBlock k b f).fixed = s.fixed :=
  State.putSlotRecord_fixed _ _ _

theorem State.raiseRefused_fixed (op : StoreOp) (s : State) : (s.raiseRefused op).fixed = s.fixed := by
  unfold State.raiseRefused
  split
  · exact State.raise_fixed _ _
  · rfl

theorem State.markAccepted_fixed (op : StoreOp) (s : State) : (s.markAccepted op).fixed = s.fixed := by
  unfold State.markAccepted
  split
  · rfl
  · split
    · exact State.putSlotRecord_fixed _ _ _
    · exact State.putSlotRecord_fixed _ _ _
    · exact State.putSlotRecord_fixed _ _ _
    · rfl

theorem State.submit_fixed (op : StoreOp) (s : State) : (s.submit op).1.fixed = s.fixed := by
  rcases State.submit_cases op s with ⟨h, _⟩ | ⟨h, _⟩ | ⟨_, _, _, _, ⟨_, _, h⟩ | ⟨_, h⟩⟩ <;> rw [h]
  · exact State.raiseRefused_fixed op s
  · exact State.markAccepted_fixed op _
  · exact State.markAccepted_fixed op _

theorem launch_fixed (l : List StoreOp) (s : State) : (launch l s).1.fixed = s.fixed := by
  induction l generalizing s with
  | nil => rfl
  | cons op rest ih =>
    unfold launch
    split
    · exact (ih _).trans (State.raiseRefused_fixed op s)
    · split
      · exact ih s
      · rfl

/-! ### Selector writes and the Activation Controller -/

theorem State.submitSelector_fixed (w : RetriedWrite) (s : State) : (s.submitSelector w).1.fixed = s.fixed := by
  unfold State.submitSelector
  simp only
  split <;> exact State.submit_fixed _ s

theorem State.startRetry_fixed (w : RetriedWrite) (s : State) : (s.startRetry w).fixed = s.fixed := by
  unfold State.startRetry
  simp only
  split
  · split <;> rfl
  · split <;> rfl

theorem State.endRetry_fixed (n : Nat) (s : State) : (s.endRetry n).fixed = s.fixed := by
  unfold State.endRetry
  split
  · split <;> rfl
  · rfl

theorem State.submitRetried_fixed (w : RetriedWrite) (s : State) : (s.submitRetried w).fixed = s.fixed := by
  unfold State.submitRetried
  simp only
  split
  · exact State.submitSelector_fixed w s
  · exact (State.startRetry_fixed w _).trans (State.submitSelector_fixed w s)

theorem State.dropArriving_fixed (s : State) : s.dropArriving.fixed = s.fixed :=
  State.fixed_of_beside (walk_beside State.deleteSlot_beside _ _)

theorem State.enterRestarting_fixed (s : State) : s.enterRestarting.fixed = s.fixed := State.dropArriving_fixed _

theorem State.confirmExpired_fixed (s : State) : s.confirmExpired.fixed = s.fixed :=
  (State.submitRetried_fixed _ _).trans (State.enterRestarting_fixed _)

theorem State.beginOffer_fixed (i : Fin 64) (r : ClientRecord) (p : Nat) (s : State) : (s.beginOffer i r p).fixed = s.fixed :=
  State.send_fixed _ _ _

theorem State.evacuateSlot_fixed (i : Fin 64) (s : State) : (s.evacuateSlot i).fixed = s.fixed := by
  unfold State.evacuateSlot
  split
  · split
    · simp only
      split
      · split
        · exact State.beginOffer_fixed _ _ _ _
        · rfl
      · rfl
    · rfl
  · rfl

theorem State.pass_fixed (s : State) : s.pass.fixed = s.fixed := walk_fixed State.evacuateSlot_fixed _ s

theorem State.beginEvacuation_fixed (s : State) : s.beginEvacuation.fixed = s.fixed :=
  (State.pass_fixed _).trans (State.dropArriving_fixed _)

theorem State.reopen_fixed (s : State) : s.reopen.fixed = s.fixed := by
  unfold State.reopen
  simp only
  split
  · exact State.beginEvacuation_fixed _
  · rfl

theorem State.commit_fixed (s : State) : s.commit.fixed = s.fixed := by
  unfold State.commit
  simp only
  split
  · exact State.submitSelector_fixed _ _
  · exact (State.reopen_fixed _).trans (State.submitSelector_fixed _ _)

theorem State.endCheck_fixed (s : State) : s.endCheck.fixed = s.fixed := by
  unfold State.endCheck
  split
  · exact State.commit_fixed s
  · rfl

theorem State.gateTest_fixed (s : State) : s.gateTest.fixed = s.fixed := by
  unfold State.gateTest
  split
  · exact (State.endCheck_fixed _).trans (State.beginEvacuation_fixed s)
  · rfl

theorem State.slotReady_fixed (s : State) : s.slotReady.fixed = s.fixed := by
  unfold State.slotReady
  split
  · exact State.gateTest_fixed _
  · rfl

theorem State.readyGivenUp_fixed (s : State) : s.readyGivenUp.fixed = s.fixed := by
  unfold State.readyGivenUp
  split <;> rfl

theorem State.hearFlags_fixed (peer : Nat) (e : Bool) (s : State) : (s.hearFlags peer e).fixed = s.fixed := by
  unfold State.hearFlags
  split <;> exact State.gateTest_fixed _

theorem State.settleWith_fixed (test : Bool) (s : State) : (s.settleWith test).fixed = s.fixed := by
  have h2 : ∀ u : State, (if test || u.ev.admittedChanged then u.gateTest else u).fixed = u.fixed := by
    intro u
    split
    · exact State.gateTest_fixed u
    · rfl
  have h4 : ∀ u : State, (if u.ev.departed then u.endCheck else u).fixed = u.fixed := by
    intro u
    split
    · exact State.endCheck_fixed u
    · rfl
  exact (h4 _).trans ((State.fixed_of_beside (State.priorityEnd_beside _)).trans
    ((h2 _).trans (State.fixed_of_beside (State.retest_beside s))))

theorem State.settle_fixed (s : State) : s.settle.fixed = s.fixed := State.settleWith_fixed false s

theorem State.selectorWritten_fixed (w : RetriedWrite) (s : State) : (s.selectorWritten w).fixed = s.fixed := by
  have h : (s.clearWriteMark.endRetry w.order).fixed = s.fixed := State.endRetry_fixed _ _
  unfold State.selectorWritten
  simp only
  split
  · exact (State.enterRestarting_fixed _).trans h
  · exact h
  · exact h
  · split <;> exact h
  · exact h
  · exact h

theorem State.selectorFailed_fixed (w : RetriedWrite) (s : State) : (s.selectorFailed w).fixed = s.fixed := by
  unfold State.selectorFailed
  simp only
  split
  · exact State.gateTest_fixed _
  · split
    · exact State.confirmExpired_fixed _
    · rfl
  · exact State.startRetry_fixed _ _
  · exact State.startRetry_fixed _ _
  · exact State.startRetry_fixed _ _
  · exact State.startRetry_fixed _ _

/-! ### The Schedule Unit -/

theorem State.submitBook_fixed (s : State) : s.submitBook.fixed = s.fixed := by
  unfold State.submitBook
  split
  · simp only
    split <;> exact State.submit_fixed _ s
  · rfl

theorem State.bookWritten_fixed (ok : Bool) (s : State) : (s.bookWritten ok).fixed = s.fixed := by
  unfold State.bookWritten
  split
  · exact State.submitBook_fixed _
  · rfl

theorem State.hearBook_fixed (peer v o : Nat) (s : State) : (s.hearBook peer v o).fixed = s.fixed := by
  unfold State.hearBook
  split
  · split
    · exact State.send_fixed _ _ _
    · split
      · exact State.send_fixed _ _ _
      · rfl
  · rfl

theorem State.takeBookRequest_fixed (sender : Nat) (s : State) : (s.takeBookRequest sender).fixed = s.fixed :=
  (State.send_fixed _ _ _).trans (State.send_fixed _ _ _)

/-! ### The Distribution Unit -/

theorem State.takeManifestRequest_fixed (sender v : Nat) (s : State) : (s.takeManifestRequest sender v).fixed = s.fixed := by
  unfold State.takeManifestRequest
  split
  · exact State.send_fixed _ _ _
  · rfl

theorem State.startFill_fixed (v : Nat) (s : State) : (s.startFill v).fixed = s.fixed := by
  unfold State.startFill
  simp only
  rw [State.putSlotRecord_fixed]
  split
  · exact State.readyGivenUp_fixed s
  · rfl

theorem State.hearImage_fixed (peer v : Nat) (s : State) : (s.hearImage peer v).fixed = s.fixed := by
  have h : ∀ u : State, (if u.mayFill v then (u.startFill v).send peer (.manifestRequest v)
      else if u.filling v false then u.send peer (.manifestRequest v) else u).fixed = u.fixed := by
    intro u
    split
    · exact (State.send_fixed _ _ _).trans (State.startFill_fixed _ u)
    · split
      · exact State.send_fixed _ _ u
      · rfl
  exact h _

theorem State.submitManifest_fixed (s : State) : s.submitManifest.fixed = s.fixed := by
  unfold State.submitManifest
  split
  · split
    · simp only
      split <;> exact State.submit_fixed _ s
    · rfl
  · rfl

theorem State.storeManifest_fixed (m : Manifest) (s : State) : (s.storeManifest m).fixed = s.fixed :=
  (State.submitManifest_fixed _).trans (State.putSlotRecord_fixed s.spareSlot _ s)

theorem State.takeManifest_fixed (m : Manifest) (s : State) : (s.takeManifest m).fixed = s.fixed := by
  unfold State.takeManifest
  split
  · exact State.storeManifest_fixed m s
  · rfl

theorem State.seedManifest_fixed (m : Manifest) (s : State) : (s.seedManifest m).1.fixed = s.fixed := by
  unfold State.seedManifest
  split
  · rfl
  · split
    · rfl
    · split
      · exact State.storeManifest_fixed m s
      · split
        · rfl
        · split
          · exact (State.storeManifest_fixed m _).trans (State.startFill_fixed _ s)
          · rfl

theorem State.manifestWritten_fixed (k : SlotId) (v : Nat) (failed : Bool) (s : State) :
    (s.manifestWritten k v failed).fixed = s.fixed := by
  unfold State.manifestWritten
  simp only
  rw [State.submitManifest_fixed]
  split <;> rfl

theorem State.submitErase_fixed (k : SlotId) (v b : Nat) (s : State) : (s.submitErase k v b).fixed = s.fixed :=
  State.submit_fixed _ s

theorem State.sendRequest_fixed (r : SlotRecord) (v : Nat) (t : PullTarget) (p : PeerEntry) (s : State) :
    (s.sendRequest r v t p).fixed = s.fixed := State.send_fixed _ _ _

theorem State.pullStep_fixed (s : State) : s.pullStep.fixed = s.fixed := by
  unfold State.pullStep
  simp only
  split
  · split
    · split
      · split
        · have h := fun l v => walk_fixed (State.submitErase_fixed s.spareSlot v) l s
          split
          · exact h _ _
          · exact (State.sendRequest_fixed _ _ _ _ _).trans (h _ _)
        · rfl
      · rfl
    · rfl
  · rfl

theorem State.takeRefuse_fixed (sender reason v b : Nat) (s : State) : (s.takeRefuse sender reason v b).fixed = s.fixed := by
  unfold State.takeRefuse
  split
  · split
    · simp only
      split <;> rfl
    · rfl
  · rfl

theorem State.noteChunk_fixed (sender v i : Nat) (s : State) : (s.noteChunk sender v i).fixed = s.fixed := by
  unfold State.noteChunk
  split
  · split
    · split
      · rfl
      · split <;> rfl
    · rfl
  · rfl

theorem State.submitProgram_fixed (k : SlotId) (v i : Nat) (data : List Byte) (x : Supplier) (s : State) :
    (s.submitProgram k v i data x).1.fixed = s.fixed := by
  unfold State.submitProgram
  simp only
  split
  · exact (State.putSlotRecord_fixed _ _ _).trans (State.submit_fixed _ s)
  · exact State.submit_fixed _ s

theorem State.takeChunk_fixed (sender v i : Nat) (data : List Byte) (s : State) :
    (s.takeChunk sender v i data).fixed = s.fixed := by
  have h := State.noteChunk_fixed sender v i s
  unfold State.takeChunk
  simp only
  split
  · split
    · exact (State.submitErase_fixed _ _ _ _).trans h
    · split
      · exact (State.submitProgram_fixed _ _ _ _ _ _).trans h
      · exact h
    · exact h
    · exact h
    · exact h
  · exact h

theorem State.seedChunk_fixed (v i : Nat) (data : List Byte) (s : State) : (s.seedChunk v i data).1.fixed = s.fixed := by
  unfold State.seedChunk
  simp only
  split
  · rfl
  · split
    · rfl
    · split
      · exact State.submitErase_fixed _ _ _ _
      · rfl
      · split
        · split
          · exact State.submitProgram_fixed _ _ _ _ _ _
          · rfl
        · rfl
      · rfl
      · rfl

theorem State.submitVerify_fixed (k : SlotId) (v b : Nat) (s : State) : (s.submitVerify k v b).fixed = s.fixed := by
  unfold State.submitVerify
  split
  · exact (State.mapBlock_fixed _ _ _ _).trans (State.submit_fixed _ s)
  · rfl

theorem State.submitCheck_fixed (k : SlotId) (v : Nat) (s : State) : (s.submitCheck k v).fixed = s.fixed := by
  unfold State.submitCheck
  split
  · exact (State.putSlotRecord_fixed _ _ _).trans (State.submit_fixed _ s)
  · rfl

theorem State.submitOwed_fixed (s : State) : s.submitOwed.fixed = s.fixed := by
  unfold State.submitOwed
  simp only
  split
  · have h := fun l v => walk_fixed (fun b => State.submitVerify_fixed s.spareSlot v b) l s
    rw [State.submitManifest_fixed]
    split
    · exact (State.submitCheck_fixed _ _ _).trans (h _ _)
    · exact h _ _
  · rfl

theorem State.eraseDone_fixed (k : SlotId) (v b : Nat) (ok : Bool) (s : State) : (s.eraseDone k v b ok).fixed = s.fixed := by
  unfold State.eraseDone
  split
  · exact State.mapBlock_fixed _ _ _ _
  · rfl

theorem State.programDone_fixed (k : SlotId) (v i : Nat) (r : StoreResult) (s : State) :
    (s.programDone k v i r).fixed = s.fixed := by
  unfold State.programDone
  split
  · split
    · simp only
      split
      · exact (State.submitVerify_fixed _ _ _ _).trans (State.mapBlock_fixed _ _ _ _)
      · exact State.mapBlock_fixed _ _ _ _
    · exact State.mapBlock_fixed _ _ _ _
    · exact State.mapBlock_fixed _ _ _ _
  · rfl

theorem State.enterChecking_fixed (k : SlotId) (v : Nat) (s : State) : (s.enterChecking k v).fixed = s.fixed := by
  unfold State.enterChecking
  split
  · exact (State.submitCheck_fixed _ _ _).trans (State.putSlotRecord_fixed _ _ _)
  · rfl

theorem State.verifyDone_fixed (k : SlotId) (v b : Nat) (r : StoreResult) (s : State) :
    (s.verifyDone k v b r).fixed = s.fixed := by
  unfold State.verifyDone
  split
  · split
    · simp only
      rw [State.enterChecking_fixed]
      exact State.mapBlock_fixed k b _ s
    · simp only
      rw [State.raise_fixed]
      exact State.mapBlock_fixed k b _ s
    · exact State.mapBlock_fixed _ _ _ _
  · rfl

theorem State.checkDone_fixed (k : SlotId) (v : Nat) (r : StoreResult) (s : State) : (s.checkDone k v r).fixed = s.fixed := by
  unfold State.checkDone
  split
  · split
    · rw [State.slotReady_fixed, State.raise_fixed, State.putSlotRecord_fixed]
    · simp only
      rw [State.raise_fixed]
      exact State.putSlotRecord_fixed k _ s
    · exact State.putSlotRecord_fixed _ _ _
  · rfl

theorem State.demand_fixed (v b start : Nat) (s : State) : (s.demand v b start).fixed = s.fixed := by
  unfold State.demand
  simp only
  split <;> rfl

theorem serveTurns_fixed (n : Nat) (s : State) : (serveTurns n s).fixed = s.fixed := by
  induction n generalizing s with
  | zero => rfl
  | succ n ih =>
    unfold serveTurns
    split
    · rfl
    · split
      · rfl
      · split
        · exact ih _
        · split
          · rfl
          · split
            · exact ih _
            · simp only
              split
              · exact State.submit_fixed _ s
              · exact (ih _).trans (State.submit_fixed _ s)

theorem State.serveEngine_fixed (s : State) : s.serveEngine.fixed = s.fixed := serveTurns_fixed _ s

theorem State.takeChunkRequest_fixed (sender v b start count mode : Nat) (s : State) :
    (s.takeChunkRequest sender v b start count mode).fixed = s.fixed := by
  unfold State.takeChunkRequest
  split
  · rfl
  · split
    · simp only
      split
      · exact (State.demand_fixed _ _ _ _).trans (State.send_fixed _ _ s)
      · exact State.send_fixed _ _ s
    · exact State.serveEngine_fixed _

theorem State.readDone_fixed (peer : Nat) (k : SlotId) (v i : Nat) (r : StoreResult) (s : State) :
    (s.readDone peer k v i r).fixed = s.fixed := by
  unfold State.readDone
  split
  · split
    · exact (State.serveEngine_fixed _).trans (State.send_fixed _ _ _)
    · exact State.serveEngine_fixed _
  · split
    · exact (State.serveEngine_fixed _).trans (State.sendChunk_fixed _ _ _ _ _)
    · exact State.serveEngine_fixed _
  · split <;> exact State.serveEngine_fixed _

theorem State.advertExpiry_fixed (due : Nat) (s : State) : (s.advertExpiry due).fixed = s.fixed := by
  have h : ∀ u : State, (if u.act.state = .evacuating then u.pass.endCheck else u).fixed = u.fixed := by
    intro u
    split
    · exact (State.endCheck_fixed _).trans (State.pass_fixed u)
    · rfl
  unfold State.advertExpiry
  simp only
  rw [State.settle_fixed, h, State.serveEngine_fixed, State.pullStep_fixed, State.submitOwed_fixed]
  exact State.placeAdvert_fixed _ s

theorem State.deliverFill_fixed (kind : OpKind) (r : StoreResult) (s : State) : (s.deliverFill kind r).fixed = s.fixed := by
  unfold State.deliverFill
  split
  · exact State.eraseDone_fixed _ _ _ _ _
  · exact State.programDone_fixed _ _ _ _ _
  · exact State.verifyDone_fixed _ _ _ _ _
  · exact State.checkDone_fixed _ _ _ _
  · exact State.manifestWritten_fixed _ _ _ _
  · rfl

/-! ### The Roaming Unit and the Client Unit -/

theorem State.evaluateRecord_fixed (i : Fin 64) (r : ClientRecord) (q : Int) (s : State) :
    (s.evaluateRecord i r q).fixed = s.fixed := by
  unfold State.evaluateRecord
  split
  · simp only
    split
    · split
      · split
        · split
          · exact State.beginOffer_fixed _ _ _ _
          · rfl
        · rfl
      · rfl
    · rfl
  · rfl

theorem State.evaluateClient_fixed (c : ClientId) (s : State) : (s.evaluateClient c).fixed = s.fixed := by
  unfold State.evaluateClient
  split
  · split
    · split
      · exact State.evaluateRecord_fixed _ _ _ _
      · rfl
    · rfl
  · rfl

theorem State.takeOffer_fixed (sender : Nat) (h : Handover) (s : State) : (s.takeOffer sender h).fixed = s.fixed := by
  have hrel : (s.releaseDeparted h.client).fixed = s.fixed := by
    unfold State.releaseDeparted
    split
    · split
      · split
        · exact State.fixed_of_beside (State.deleteSlot_beside _ _)
        · rfl
      · rfl
    · rfl
  have hacc : ∀ a (u : State), (u.acceptOffer sender h a).fixed = u.fixed := by
    intro a u
    have ht := State.fixed_of_beside (State.takeSlot_beside u)
    unfold State.acceptOffer
    split
    · rename_i e
      rw [e] at ht
      exact ht
    · rename_i e
      rw [e] at ht
      rw [State.send_fixed, State.fixed_of_beside (State.reserveFlows_beside _ _ _ _),
        State.fixed_of_beside (State.recompute_beside _ _)]
      exact ht
  unfold State.takeOffer
  split
  · simp only
    split
    · exact (State.send_fixed _ _ _).trans hrel
    · exact (hacc _ _).trans hrel
  · rfl

theorem State.takeAccept_fixed (sender : Nat) (c : ClientId) (s : State) : (s.takeAccept sender c).fixed = s.fixed := by
  unfold State.takeAccept
  split
  · split
    · split <;> rfl
    · rfl
  · rfl

theorem State.releaseTo_fixed (i : Fin 64) (r : ClientRecord) (claimer : Nat) (s : State) :
    (s.releaseTo i r claimer).fixed = s.fixed := by
  unfold State.releaseTo
  rw [State.raise_fixed, State.fixed_of_beside (State.deleteSlot_beside _ _), State.send_fixed]

theorem State.takeDecline_fixed (sender : Nat) (c : ClientId) (reason : Nat) (s : State) :
    (s.takeDecline sender c reason).fixed = s.fixed := by
  unfold State.takeDecline
  split
  · rfl
  · split
    · split
      · split
        · split
          · exact State.releaseTo_fixed _ _ _ _
          · exact State.raise_fixed _ _
        · rfl
      · rfl
    · rfl

theorem State.takeClaim_fixed (sender : Nat) (c : ClientId) (s : State) : (s.takeClaim sender c).fixed = s.fixed := by
  unfold State.takeClaim
  split
  · split
    · split
      · rfl
      · exact State.releaseTo_fixed _ _ _ _
    · rfl
  · rfl

theorem State.takeContext_fixed (h : Handover) (s : State) : (s.takeContext h).fixed = s.fixed := by
  unfold State.takeContext
  split
  · split
    · split
      · split
        · split
          · unfold State.resolveContext
            simp only
            rw [State.fixed_of_beside (State.resolveFlows_beside _ _), State.fixed_of_beside (State.enterContext_beside _ _ _ _),
              State.fixed_of_beside (State.recompute_beside _ _)]
            rfl
          · exact State.fixed_of_beside (State.recompute_beside _ _)
          · exact State.fixed_of_beside (State.recompute_beside _ _)
          · exact State.fixed_of_beside (State.recompute_beside _ _)
          · rfl
          · rfl
        · rfl
      · rfl
    · rfl
  · rfl

theorem State.handoffEnds_fixed (c : ClientId) {take : Fin 64 → ClientRecord → State → State}
    (h : ∀ i r s, (take i r s).fixed = s.fixed) (s : State) : (s.handoffEnds c take).fixed = s.fixed := by
  unfold State.handoffEnds
  split
  · split
    · exact (State.settle_fixed _).trans (h _ _ s)
    · rfl
  · rfl

theorem State.offeringEnds_fixed (i : Fin 64) (r : ClientRecord) (s : State) : (s.offeringEnds i r).fixed = s.fixed := by
  unfold State.offeringEnds
  split
  · exact State.raise_fixed _ _
  · rfl

theorem State.handingEnds_fixed (i : Fin 64) (r : ClientRecord) (s : State) : (s.handingEnds i r).fixed = s.fixed :=
  State.raise_fixed _ _

theorem State.provisionalEnds_fixed (i : Fin 64) (r : ClientRecord) (s : State) :
    (s.provisionalEnds i r).fixed = s.fixed := by
  unfold State.provisionalEnds
  simp only
  rw [State.fixed_of_beside (State.resolveFlows_beside _ _), State.fixed_of_beside (State.recompute_beside _ _)]
  rfl

theorem State.mapClient_fixed (c : ClientId) (f : ClientRecord → ClientRecord) (s : State) :
    (s.mapClient c f).fixed = s.fixed := by
  unfold State.mapClient
  split
  · split <;> rfl
  · rfl

theorem State.mapFlow_fixed (j : Fin 128) (f : FlowRecord → FlowRecord) (s : State) : (s.mapFlow j f).fixed = s.fixed := by
  unfold State.mapFlow
  split
  · exact State.fixed_of_beside (State.putFlow_beside _ _ _)
  · rfl
  · rfl

/-! ### The Time Base and its table-wide events -/

theorem State.minuteEvent_fixed (s : State) : s.minuteEvent.fixed = s.fixed := by
  unfold State.minuteEvent
  rw [State.settleWith_fixed, State.fixed_of_beside (State.recomputeAll_beside _)]
  rfl

theorem State.dayEvent_fixed (day : Nat) (s : State) : (s.dayEvent day).fixed = s.fixed := by
  unfold State.dayEvent
  rw [State.settle_fixed, State.fixed_of_beside (State.recomputeAll_beside _),
    State.fixed_of_beside (State.deleteDeparted_beside _)]
  rfl

/-- A change of mesh time moves, of those parts, the Time Base alone (R75). -/
theorem State.timeChanged_fixed (timeSet : Bool) (s : State) :
    (s.timeChanged timeSet).fixed = { s.fixed with time := (s.timeChanged timeSet).time } := by
  have hm : s.minuteStep.fixed = { s.fixed with time := s.minuteStep.time } := by
    unfold State.minuteStep
    split
    · rfl
    · rw [State.minuteEvent_fixed, State.time_of_fixed (State.minuteEvent_fixed _)]
      rfl
  have hd : ∀ u : State, u.dayStep.fixed = { u.fixed with time := u.dayStep.time } := by
    intro u
    unfold State.dayStep
    split
    · rw [State.dayEvent_fixed, State.time_of_fixed (State.dayEvent_fixed _ _)]
      rfl
    · rfl
  have hall : ∀ u : State, u.recomputeAll.settle.fixed = u.fixed := fun u =>
    (State.settle_fixed _).trans (State.fixed_of_beside (State.recomputeAll_beside u))
  have hmd : s.minuteStep.dayStep.fixed = { s.fixed with time := s.minuteStep.dayStep.time } := by rw [hd, hm]
  unfold State.timeChanged
  split
  · simp only
    split
    · rw [hall, State.time_of_fixed (hall _), hmd]
    · exact hmd
  · rfl

theorem State.hearTime_fixed (peer mesh rank : Nat) (s : State) :
    (s.hearTime peer mesh rank).fixed = { s.fixed with time := (s.hearTime peer mesh rank).time } := by
  unfold State.hearTime
  split
  · rw [State.timeChanged_fixed]
    simp only [State.raise_fixed]
    rfl
  · rfl

end Sys2Proof.Machine
end

section
/-! SUPPORT. Proofs: what each command may change, unit by unit (O54). -/

namespace Sys2Proof.Machine

/-! ### What a completion leaves alone -/

/-- The parts that no completion moves, and the book, which one read of a start moves. -/
structure Far where
  time : TimeBase
  book : Book
  rx : List Frame
  heard : List HeardEntry
  refusals : List ClientId
  radioOut : Option WireFrame
  sent : Option Sent

/-- Those parts of a state. -/
def State.far (s : State) : Far :=
  { time := s.time, book := s.sched.book, rx := s.pli.rx, heard := s.clients.heard, refusals := s.clients.refusals,
    radioOut := s.radioOut, sent := s.port.sent }

theorem State.far_of_fixed {s t : State} (h : t.fixed = s.fixed) : t.far = s.far :=
  congrArg (fun x : Fixed =>
    ({ time := x.time, book := x.book, rx := x.rx, heard := x.heard, refusals := x.refusals, radioOut := x.radioOut,
       sent := x.sent } : Far)) h

theorem State.startOp_far (st : Stage) (kind : OpKind) (s : State) : (s.startOp st kind).far = s.far :=
  (State.far_of_fixed (State.submit_fixed _ (s.stageAt st))).trans rfl

theorem State.seqVerify_far (b : Nat) (m : Bool) (s : State) : (s.seqVerify b m).far = s.far := by
  unfold State.seqVerify
  split
  · exact State.startOp_far _ _ _
  · rfl

theorem State.putSlotRecord_far (k : SlotId) (r : SlotRecord) (s : State) : (s.putSlotRecord k r).far = s.far :=
  State.far_of_fixed (State.putSlotRecord_fixed k r s)

theorem State.seqReady_far (s : State) : s.seqReady.far = s.far := rfl

theorem State.seqRebuild_far (ma mb : Option Manifest) (s : State) : (s.seqRebuild ma mb).far = s.far := by
  have hs : ∀ (k k' : SlotId) (r r' : SlotRecord), ((State.putSlotRecord k r { s with dist := { s.dist with active := k } }).putSlotRecord
      k' r').far = s.far := fun k k' r r' => by rw [State.putSlotRecord_far, State.putSlotRecord_far]; rfl
  unfold State.seqRebuild
  simp only
  split
  · rw [State.startOp_far, State.far_of_fixed (State.raise_fixed _ _)]
    exact hs _ _ _ _
  · split
    · exact hs _ _ _ _
    · split
      · exact hs _ _ _ _
      · rw [State.seqVerify_far]
        exact hs _ _ _ _

theorem State.seqVerified_far (b : Nat) (m : Bool) (s : State) : (s.seqVerified b m).far = s.far := by
  unfold State.seqVerified
  simp only
  split
  · exact State.seqVerify_far _ _ _
  · split
    · exact State.startOp_far _ _ _
    · exact State.putSlotRecord_far _ _ _

theorem State.seqChecked_far (m : Bool) (s : State) : (s.seqChecked m).far = s.far := State.putSlotRecord_far _ _ _

theorem State.seqWrite_far (p : SelPurpose) (sel : Selector) (waitAt : Nat → Stage) {goOn : State → State}
    (h : ∀ u, (goOn u).far = u.far) (s : State) : (s.seqWrite p sel waitAt goOn).far = s.far := by
  unfold State.seqWrite
  simp only
  split
  · exact (State.far_of_fixed (State.submitSelector_fixed _ _)).trans rfl
  · rw [h, State.far_of_fixed (State.startRetry_fixed _ _)]
    exact (State.far_of_fixed (State.submitSelector_fixed _ _)).trans rfl

theorem State.seqBook_far (s : State) : s.seqBook.far = s.far := State.startOp_far _ _ s

theorem State.seqAction_far (s : State) : s.seqAction.far = s.far := by
  unfold State.seqAction
  simp only
  split
  · exact State.seqWrite_far _ _ _ State.seqBook_far _
  · split
    · exact State.seqWrite_far _ _ _ State.seqBook_far _
    · split
      · exact State.seqWrite_far _ _ _ State.seqBook_far _
      · exact State.seqBook_far s

theorem State.seqConfig_far (b : Option (List Byte)) (s : State) : (s.seqConfig b).far = s.far := State.startOp_far _ _ _

theorem State.seqActive_far (a b : Option (List Byte)) (s : State) : (s.seqActive a b).far = s.far := by
  unfold State.seqActive
  split
  · exact State.seqConfig_far _ s
  · split
    · exact State.seqConfig_far _ s
    · exact State.startOp_far _ _ s

theorem State.seqPromoted_far (x : List Byte) (ok : Bool) (s : State) : (s.seqPromoted x ok).far = s.far := by
  unfold State.seqPromoted
  split
  · exact State.startOp_far _ _ s
  · exact State.seqConfig_far _ s

theorem State.seqRecover_far (s : State) : s.seqRecover.far = s.far := by
  unfold State.seqRecover
  simp only
  split
  · exact State.seqWrite_far _ _ _ (State.startOp_far _ _) s
  · exact State.startOp_far _ _ s

theorem State.far_of_book {s t : State} {b : Book} (h : t.far = { s.far with book := b }) :
    t.far = { s.far with book := t.sched.book } := by
  rw [show t.sched.book = b from congrArg Far.book h]
  exact h

/-- Of those parts the sequence moves the book alone, when the read of the book area is done (R79, R167). -/
theorem State.seqNext_far (r : StoreResult) (s : State) :
    (s.seqNext r).far = { s.far with book := (s.seqNext r).sched.book } ∧
      (s.seq.stage ≠ .readBook → (s.seqNext r).far = s.far) := by
  have keep : ∀ {t : State}, t.far = s.far → t.far = { s.far with book := t.sched.book } ∧
      (s.seq.stage ≠ .readBook → t.far = s.far) := fun {t} h =>
    ⟨State.far_of_book (b := s.sched.book) h, fun _ => h⟩
  unfold State.seqNext
  split
  case h_12 h =>
    exact ⟨State.far_of_book ((State.startOp_far _ _ _).trans rfl), fun hne => absurd h hne⟩
  case h_2 => exact keep (State.seqRecover_far _)
  case h_3 => split <;> [skip; split] <;> exact keep (State.startOp_far _ _ s)
  case h_4 => split <;> exact keep (State.startOp_far _ _ s)
  case h_5 => split <;> exact keep (State.startOp_far _ _ s)
  case h_7 => exact keep (State.seqActive_far _ _ s)
  case h_8 => exact keep (State.seqPromoted_far _ _ s)
  case h_9 => exact keep (State.seqConfig_far _ s)
  case h_11 => exact keep (State.seqAction_far _)
  case h_14 => exact keep (State.seqRebuild_far _ _ s)
  case h_16 => exact keep (State.seqVerified_far _ _ s)
  case h_17 => exact keep (State.seqChecked_far _ s)
  case h_1 | h_6 | h_10 => exact keep (State.startOp_far _ _ s)
  case h_13 => exact keep (State.startOp_far _ _ _)
  case h_15 => exact keep (State.seqReady_far s)
  case h_18 | h_19 | h_20 | h_21 | h_22 => exact keep rfl

theorem State.seqSelectorDone_far (n : Nat) (p : SelPurpose) (ok : Bool) (s : State) :
    (s.seqSelectorDone n p ok).far = s.far := by
  have hnote : (s.noteRevert p ok).far = s.far := by
    unfold State.noteRevert
    split <;> rfl
  unfold State.seqSelectorDone
  simp only
  split
  · split
    · split <;> exact (State.startOp_far _ _ _).trans hnote
    · exact hnote
  · split
    · exact (State.seqBook_far _).trans hnote
    · exact hnote
  · exact hnote

theorem State.deliverSelector_far (o : Owner) (n : Nat) (p : SelPurpose) (sel : Selector) (r : StoreResult) (s : State) :
    (s.deliverSelector o n p sel r).far = s.far := by
  have h : ∀ w, (if r = .ok then s.selectorWritten w else s.selectorFailed w).far = s.far := by
    intro w
    split
    · exact State.far_of_fixed (State.selectorWritten_fixed w s)
    · exact State.far_of_fixed (State.selectorFailed_fixed w s)
  unfold State.deliverSelector
  simp only
  split
  · exact (State.seqSelectorDone_far _ _ _ _).trans (h _)
  · exact h _

/-- Of those parts a delivery moves the book alone, and only that of a record's read. -/
theorem State.deliver_far (op : StoreOp) (r : StoreResult) (s : State) :
    (s.deliver op r).far = { s.far with book := (s.deliver op r).sched.book } ∧
      (op.kind.isRecordRead = false → (s.deliver op r).far = s.far) := by
  have keep : ∀ {t : State}, t.far = s.far → t.far = { s.far with book := t.sched.book } ∧
      (op.kind.isRecordRead = false → t.far = s.far) := fun {t} h => ⟨State.far_of_book (b := s.sched.book) h, fun _ => h⟩
  unfold State.deliver
  split
  · exact keep (State.deliverSelector_far _ _ _ _ _ s)
  · split
    · unfold State.seqDone
      split
      · rename_i hw
        obtain ⟨h1, h2⟩ := State.seqNext_far r s
        refine ⟨h1, fun hread => h2 fun hst => ?_⟩
        rw [hst] at hw
        cases hk : op.kind <;> rw [hk] at hw hread <;> simp [Stage.waitsFor, OpKind.isRecordRead] at hw hread
      · exact keep rfl
    · exact keep (State.far_of_fixed (State.deliverFill_fixed _ _ s))
    · split
      · exact keep (State.far_of_fixed (State.readDone_fixed _ _ _ _ _ s))
      · exact keep rfl
    · exact keep (State.far_of_fixed (State.bookWritten_fixed _ s))
    · exact keep rfl
    · exact keep rfl
    · exact keep rfl

/-- A record's read is never stale nor protected, so it goes into flight. -/
theorem launch_cut (l : List StoreOp) (s : State) : ∀ x ∈ (launch l s).2, x.1.kind.isRecordRead = false := by
  induction l generalizing s with
  | nil => simp [launch]
  | cons op rest ih =>
    unfold launch
    split
    · rename_i hp
      intro x hx
      rcases List.mem_cons.mp hx with rfl | hx
      · cases hk : op.kind <;> simp [OpKind.isRecordRead, StoreOp.isProtected, hk] at hp ⊢
      · exact ih _ x hx
    · split
      · rename_i hs
        intro x hx
        rcases List.mem_cons.mp hx with rfl | hx
        · cases hk : op.kind <;> simp [OpKind.isRecordRead, State.stale, hk] at hs ⊢
        · exact ih _ x hx
      · simp

theorem walk_deliver_far (l : List (StoreOp × StoreResult)) (s : State) (h : ∀ x ∈ l, x.1.kind.isRecordRead = false) :
    (walk l (fun x s => (s.deliver x.1 x.2).settle) s).far = s.far := by
  induction l generalizing s with
  | nil => rfl
  | cons x xs ih =>
    rw [walk_cons, ih _ fun y hy => h y (List.mem_cons_of_mem _ hy), State.far_of_fixed (State.settle_fixed _)]
    exact (State.deliver_far x.1 x.2 s).2 (h x List.mem_cons_self)

theorem State.complete_far (op : StoreOp) (d : Device) (s : State) : (s.complete op d).1.far = s.far := by
  have h : ∀ (r : StoreResult) (u : State), (u.takeSelector op r).far = u.far := by
    intro r u
    unfold State.takeSelector
    split <;> rfl
  unfold State.complete
  simp only
  rw [State.far_of_fixed (launch_fixed _ _), h]
  rfl

theorem State.completion_far (p : OpKind → Bool) (n : Nat) (d : Device) (s : State) :
    (s.completion p n d).far = { s.far with book := (s.completion p n d).sched.book } ∧
      ((∀ a, p (.recordRead a) = false) → (s.completion p n d).far = s.far) := by
  have keep : (s.clockTo n).far = { s.far with book := (s.clockTo n).sched.book } ∧
      ((∀ a, p (.recordRead a) = false) → (s.clockTo n).far = s.far) := ⟨rfl, fun _ => rfl⟩
  unfold State.completion
  simp only
  split
  · rename_i op hop
    split
    · rename_i hpk
      have hwalk : ((s.clockTo n).completeOp op d).far = (((s.clockTo n).complete op d).1.deliver op ((s.clockTo n).perform op d).2).far := by
        unfold State.completeOp State.complete
        simp only [walk_cons]
        rw [walk_deliver_far _ _ (launch_cut _ _), State.far_of_fixed (State.settle_fixed _)]
      obtain ⟨h1, h2⟩ := State.deliver_far op ((s.clockTo n).perform op d).2 ((s.clockTo n).complete op d).1
      have hc : ((s.clockTo n).complete op d).1.far = s.far := State.complete_far op d _
      rw [hc] at h1 h2
      refine ⟨State.far_of_book (hwalk.trans h1), fun hno => hwalk.trans (h2 ?_)⟩
      cases hk : op.kind <;> simp [OpKind.isRecordRead]
      rw [hk, hno] at hpk
      cases hpk
    · exact keep
  · exact keep

end Sys2Proof.Machine
end

section
/-! SUPPORT. Proofs: the bytes of the flash that a command may change, and the statement of O54. -/

namespace Sys2Proof.Machine

/-! ### The flash -/

/-- An operation changes no byte outside the range it may change (R130, R141). -/
theorem State.read_perform_outside (s : State) (op : StoreOp) (d : Device) (x : Nat)
    (h : ∀ b m, op.writes = some (b, m) → x < b ∨ b + m ≤ x) :
    Memory.read (s.perform op d).1 x = Memory.read s.store.flash x := by
  unfold State.perform
  simp only
  split
  · exact read_spoilOp_outside _ _ _ _ h
  · unfold StoreOp.writes at h
    split
    case h_2 k v i data hk =>
      rw [hk] at h
      have hx := h _ _ rfl
      rw [read_spoil_outside _ _ _ _ _ hx, Memory.read_writeBytes_outside]
      have : (data.take Config.chunkBytes).length ≤ Config.chunkBytes := List.length_take_le _ _
      omega
    case h_3 hk =>
      rw [hk] at h
      exact Memory.read_erase_outside _ _ _ _ (h _ _ rfl)
    case h_4 hk =>
      rw [hk] at h
      exact Memory.read_erase_outside _ _ _ _ (h _ _ rfl)
    case h_7 hk =>
      rw [hk] at h
      exact read_writeArea_outside _ _ _ _ (h _ _ rfl)
    case h_8 hk =>
      rw [hk] at h
      exact read_writeArea_outside _ _ _ _ (h _ _ rfl)
    all_goals rfl

theorem read_cutShort_outside (cells m : List Host.Cell) (op : StoreOp) (x : Nat)
    (h : ∀ b n, op.writes = some (b, n) → x < b ∨ b + n ≤ x) : Memory.read (cutShort cells m op) x = Memory.read m x := by
  have hs := read_spoilOp_outside cells m op x h
  unfold StoreOp.writes at h
  unfold cutShort
  simp only
  split
  · rename_i hk
    rw [hk] at h
    rw [read_leaveInvalid_outside _ _ _ (h _ _ rfl), hs]
  · rename_i hk
    rw [hk] at h
    rw [read_leaveInvalid_outside _ _ _ (h _ _ rfl), hs]
  · exact hs

theorem State.completeOp_flash (op : StoreOp) (d : Device) (s : State) :
    (s.completeOp op d).store.flash = (s.perform op d).1 := by
  obtain ⟨rest, hrest, hmoved⟩ := State.complete_rest op d s
  unfold State.completeOp
  simp only [hrest, walk_cons]
  rw [(walk_deliver_passes rest _ hmoved).flash, (State.settle_keeps _).flash, (State.deliver_delivers _ _ _).flash,
    (State.complete_keeps op d s).flash]

/-- The operation in flight of a completion, for what it writes. -/
theorem State.read_completion_outside (p : OpKind → Bool) (n : Nat) (d : Device) (s : State) (x : Nat)
    (h : ∀ op b m, s.store.inflight = some op → op.writes = some (b, m) → x < b ∨ b + m ≤ x) :
    Memory.read (s.completion p n d).store.flash x = Memory.read s.store.flash x := by
  unfold State.completion
  simp only
  split
  · rename_i op hop
    split
    · rw [State.completeOp_flash]
      exact State.read_perform_outside (s.clockTo n) op d x fun b m => h op b m hop
    · rfl
  · rfl

theorem State.read_beginStart_outside (recovery : Bool) (cells : List Host.Cell) (s : State) (x : Nat)
    (h : ∀ op b m, s.store.inflight = some op → op.writes = some (b, m) → x < b ∨ b + m ≤ x) :
    Memory.read (s.beginStart recovery cells).store.flash x = Memory.read s.store.flash x := by
  have hf : (s.beginStart recovery cells).store.flash = s.flashAtStart cells := by
    unfold State.beginStart
    cases recovery <;> exact (State.startOp_keeps _ (by simp) _ _).flash
  rw [hf]
  unfold State.flashAtStart
  split
  · rename_i op hop
    exact read_cutShort_outside _ _ _ _ fun b m => h op b m hop
  · rfl

/-! ### The units -/

/-- What O54 says of a command that is no start. -/
structure LeftAlone (c : Instr) (s t : State) : Prop where
  flash : ¬IsCompletion c → t.store.flash = s.store.flash ∧ t.store.copy = s.store.copy ∧ t.store.seqNo = s.store.seqNo ∧
    t.act.sel = s.act.sel
  config : ¬IsCompletion c → (∀ n, c ≠ .startSequenceComplete n) → t.cfg = s.cfg ∧ t.seq = s.seq
  time : ¬Resumes c → (∀ n m, c ≠ .advert n ∧ c ≠ .setTime n m) → c ≠ .tick → c ≠ .ageingTimerExpiry → t.time = s.time
  book : ¬Resumes c → (∀ n m d, c ≠ .bookSegment n ∧ c ≠ .loadBook n m ∧ c ≠ .recordReadCompletion n d) →
    t.sched.book = s.sched.book
  rx : ¬TakesFrame c → (∀ n w, c ≠ .frameReceived n w) → t.pli.rx = s.pli.rx
  heard : ¬Resumes c → (∀ n m x, c ≠ .associate n m ∧ c ≠ .sighting n m ∧ c ≠ .heardListExpiry x) →
    t.clients.heard = s.clients.heard
  refusals : ¬Resumes c → (∀ n m, c ≠ .associate n m) → t.clients.refusals = s.clients.refusals
  radioOut : (∀ n, c ≠ .frameTakenByRadio n) → t.radioOut = s.radioOut
  sent : (∀ n, c ≠ .hostAcceptance n) → t.port.sent = s.port.sent

/-! ### Host messages -/

theorem State.noteActivity_fixed (c : ClientId) (s : State) : (s.noteActivity c).fixed = s.fixed := by
  unfold State.noteActivity
  split
  · split
    · split <;> rfl
    · rfl
  · rfl

theorem State.takeDisassociate_fixed (tag : Tag) (b : List Byte) (s : State) : (s.takeDisassociate tag b).fixed = s.fixed := by
  unfold State.takeDisassociate
  split
  · split
    · split
      · rw [State.settle_fixed]
        unfold State.depart
        simp only
        refine (State.fixed_of_beside (State.removeClientFlows_beside _ _) :
          (State.removeClientFlows _ _).fixed = _).trans ?_
        split <;> rfl
      · rfl
    · rfl
  · rfl

theorem State.takeSignal_fixed (tag : Tag) (b : List Byte) (s : State) : (s.takeSignal tag b).fixed = s.fixed := by
  unfold State.takeSignal
  split
  · split
    · split <;> rfl
    · rfl
  · rfl

theorem State.takeLink_fixed (tag : Tag) (b : List Byte) (s : State) : (s.takeLink tag b).fixed = s.fixed := by
  unfold State.takeLink
  simp only
  split <;> rfl

theorem State.takeFlowSample_fixed (tag : Tag) (b : List Byte) (s : State) : (s.takeFlowSample tag b).fixed = s.fixed := by
  unfold State.takeFlowSample
  split
  · split
    · split
      · rw [State.settle_fixed, State.fixed_of_beside (State.sampleFlow_beside _ _ _ _ _)]
      · rfl
    · rfl
  · rfl

theorem State.takeFlowActive_fixed (tag : Tag) (b : List Byte) (s : State) : (s.takeFlowActive tag b).fixed = s.fixed := by
  unfold State.takeFlowActive
  simp only
  split
  · rw [State.settle_fixed, State.fixed_of_beside (State.flowActivity_beside _ _), State.noteActivity_fixed]
  · exact State.noteActivity_fixed _ s

theorem State.takeFlowEnd_fixed (tag : Tag) (b : List Byte) (s : State) : (s.takeFlowEnd tag b).fixed = s.fixed := by
  unfold State.takeFlowEnd
  simp only
  split
  · split
    · rw [State.settle_fixed, State.fixed_of_beside (State.removeFlow_beside _ _)]
    · rfl
  · rfl

theorem State.reply_fixed (tag : Tag) (st : Status) (s : State) : (s.reply tag st).fixed = s.fixed := rfl

theorem State.takeActivateNow_fixed (tag : Tag) (b : List Byte) (s : State) : (s.takeActivateNow tag b).fixed = s.fixed := by
  unfold State.takeActivateNow
  simp only
  split
  · exact (State.reply_fixed _ _ _).trans (State.settleWith_fixed _ _)
  all_goals rfl

theorem State.takeConfirmImage_fixed (tag : Tag) (b : List Byte) (s : State) : (s.takeConfirmImage tag b).fixed = s.fixed := by
  unfold State.takeConfirmImage
  split
  · simp only
    split
    · exact State.submitSelector_fixed _ _
    · exact (State.reply_fixed _ _ _).trans (State.submitSelector_fixed _ _)
  · rfl

theorem State.takeReadRecord_fixed (tag : Tag) (b : List Byte) (s : State) : (s.takeReadRecord tag b).fixed = s.fixed := by
  unfold State.takeReadRecord
  simp only
  split
  · split
    · exact State.submit_fixed _ s
    · exact (State.reply_fixed _ _ _).trans (State.submit_fixed _ s)
  · split <;> rfl

theorem State.takeWriteConfig_fixed (tag : Tag) (b : List Byte) (s : State) : (s.takeWriteConfig tag b).fixed = s.fixed := by
  unfold State.takeWriteConfig
  split
  · rfl
  · split
    · rfl
    · simp only
      split
      · exact State.submit_fixed _ s
      · exact (State.reply_fixed _ _ _).trans (State.submit_fixed _ s)

/-- The messages that move none of those parts: all but ASSOCIATE, SIGHTING, LOAD-BOOK and SET-TIME. -/
theorem State.handle_fixed {k : HostKind} (hk : k ≠ .associate ∧ k ≠ .sighting ∧ k ≠ .loadBook ∧ k ≠ .setTime) (tag : Tag)
    (b : List Byte) (s : State) : (s.handle k tag b).fixed = s.fixed := by
  cases k with
  | associate => exact absurd rfl hk.1
  | sighting => exact absurd rfl hk.2.1
  | loadBook => exact absurd rfl hk.2.2.1
  | setTime => exact absurd rfl hk.2.2.2
  | disassociate => exact State.takeDisassociate_fixed tag b s
  | signal => exact State.takeSignal_fixed tag b s
  | link => exact State.takeLink_fixed tag b s
  | clientActivity => exact State.noteActivity_fixed _ s
  | flowSample => exact State.takeFlowSample_fixed tag b s
  | flowActive => exact State.takeFlowActive_fixed tag b s
  | flowEnd => exact State.takeFlowEnd_fixed tag b s
  | seedManifest => exact State.seedManifest_fixed _ s
  | seedChunk => exact State.seedChunk_fixed _ _ _ s
  | activateNow => exact State.takeActivateNow_fixed tag b s
  | confirmImage => exact State.takeConfirmImage_fixed tag b s
  | readRecord => exact State.takeReadRecord_fixed tag b s
  | writeConfig => exact State.takeWriteConfig_fixed tag b s

/-- An ASSOCIATE moves the client lists alone (R18, R25). -/
theorem State.takeAssociate_fixed (tag : Tag) (b : List Byte) (s : State) :
    ∃ heard refusals, (s.takeAssociate tag b).fixed = { s.fixed with heard := heard, refusals := refusals } := by
  have hset : ∀ {u : State}, (∃ heard refusals, u.fixed = { s.fixed with heard := heard, refusals := refusals }) →
      ∃ heard refusals, u.settle.fixed = { s.fixed with heard := heard, refusals := refusals } := fun {u} ⟨h, r, e⟩ =>
    ⟨h, r, (State.settle_fixed u).trans e⟩
  have hrec : ∀ (i : Fin 64) (r : ClientRecord), ((s.putRecord i r).recompute i).fixed = s.fixed := fun i r =>
    (State.fixed_of_beside (State.recompute_beside i _)).trans rfl
  unfold State.takeAssociate
  refine hset ?_
  split
  · split
    · rename_i r _
      unfold State.associateKnown
      split
      · exact ⟨_, _, rfl⟩
      · exact ⟨_, _, rfl⟩
      · exact ⟨_, _, rfl⟩
      · exact ⟨_, _, rfl⟩
      · refine ⟨s.clients.heard.filter fun e => e.client != r.client, s.clients.refusals, ?_⟩
        have h := hrec ‹_› (r.restored (max 6 (min (field b 6 2) 2400)) (field b 8 1 != 0) s.now)
        exact congrArg (fun x : Fixed => { x with heard := x.heard.filter fun e => e.client != r.client }) h
      · refine ⟨s.clients.heard.filter fun e => e.client != r.client, s.clients.refusals, ?_⟩
        have h := hrec ‹_› (r.arrived (max 6 (min (field b 6 2) 2400)) (field b 8 1 != 0) s.now)
        have h2 : ∀ u : State, u.fixed = s.fixed → (match u.record ‹_› with
            | some r1 => u.settleReserved r1
            | none => u).fixed = s.fixed := by
          intro u hu
          split
          · exact (State.fixed_of_beside (State.settleReserved_beside _ u)).trans hu
          · exact hu
        refine (State.send_fixed _ _ _).trans ?_
        exact congrArg (fun x : Fixed => { x with heard := x.heard.filter fun e => e.client != r.client }) (h2 _ h)
    · exact ⟨_, _, rfl⟩
  · have ht := State.fixed_of_beside (State.takeSlot_beside s)
    unfold State.associateNew
    split
    · rename_i s1 e
      rw [e] at ht
      exact ⟨s.clients.heard, refuse (clientField b 0) s.clients.refusals,
        congrArg (fun x : Fixed => { x with refusals := refuse (clientField b 0) x.refusals }) ht⟩
    · rename_i i s1 e
      rw [e] at ht
      refine ⟨s.clients.heard.filter fun e => e.client != clientField b 0, s.clients.refusals.filter fun y => y != clientField b 0,
        (State.send_fixed _ _ _).trans ?_⟩
      exact congrArg (fun x : Fixed =>
        { x with heard := x.heard.filter fun e => e.client != clientField b 0, refusals := x.refusals.filter fun y => y != clientField b 0 }) ht

theorem State.takeSighting_fixed (tag : Tag) (b : List Byte) (s : State) :
    ∃ heard, (s.takeSighting tag b).fixed = { s.fixed with heard := heard } := by
  unfold State.takeSighting
  simp only
  split <;> exact ⟨_, rfl⟩

theorem State.takeSetTime_fixed (tag : Tag) (b : List Byte) (s : State) :
    ∃ time, (s.takeSetTime tag b).fixed = { s.fixed with time := time } :=
  ⟨_, (State.reply_fixed _ _ _).trans ((State.timeChanged_fixed true (s.setMesh (field b 0 4) 0)).trans rfl)⟩

theorem State.adopt_fixed (b : Book) (s : State) : (s.adopt b).fixed = { s.fixed with book := b } := by
  unfold State.adopt
  simp only
  rw [State.settleWith_fixed, State.raise_fixed, State.submitBook_fixed, State.fixed_of_beside (State.recomputeAll_beside _)]
  rfl

theorem State.takeLoadBook_fixed (tag : Tag) (b : List Byte) (s : State) :
    ∃ book, (s.takeLoadBook tag b).fixed = { s.fixed with book := book } := by
  unfold State.takeLoadBook answer State.loadBook
  split
  · exact ⟨_, rfl⟩
  · split
    · exact ⟨_, rfl⟩
    · exact ⟨_, (State.reply_fixed _ _ _).trans (State.adopt_fixed _ s)⟩

theorem State.takeSegment_fixed (v o len i : Nat) (part : List Byte) (s : State) :
    ∃ book, (s.takeSegment v o len i part).fixed = { s.fixed with book := book } := by
  have hstage : ∀ g : Staging, ∃ book, (s.stage g).fixed = { s.fixed with book := book } := by
    intro g
    unfold State.stage
    split
    · unfold State.stagingComplete
      simp only
      split
      · split
        · exact ⟨_, State.adopt_fixed _ _⟩
        · exact ⟨_, rfl⟩
      · exact ⟨_, rfl⟩
    · exact ⟨_, rfl⟩
  unfold State.takeSegment
  split
  · exact ⟨_, rfl⟩
  · split
    · exact ⟨_, rfl⟩
    · simp only
      split
      · exact hstage _
      · split
        · split
          · exact hstage _
          · exact ⟨_, rfl⟩
        · split
          · exact hstage _
          · exact ⟨_, rfl⟩

/-- The messages of a kind move what the kind's unit moves. -/
theorem State.handle_moves (k : HostKind) (tag : Tag) (b : List Byte) (s : State) :
    ∃ time book heard refusals, (s.handle k tag b).fixed =
      { s.fixed with time := time, book := book, heard := heard, refusals := refusals } := by
  by_cases hk : k ≠ .associate ∧ k ≠ .sighting ∧ k ≠ .loadBook ∧ k ≠ .setTime
  · exact ⟨_, _, _, _, State.handle_fixed hk tag b s⟩
  · cases k with
    | associate => exact ⟨_, _, _, _, (State.takeAssociate_fixed tag b s).choose_spec.choose_spec⟩
    | sighting => exact ⟨_, _, _, _, (State.takeSighting_fixed tag b s).choose_spec⟩
    | loadBook => exact ⟨_, _, _, _, (State.takeLoadBook_fixed tag b s).choose_spec⟩
    | setTime => exact ⟨_, _, _, _, (State.takeSetTime_fixed tag b s).choose_spec⟩
    | _ => exact absurd ⟨nofun, nofun, nofun, nofun⟩ hk

theorem State.takeMessage_moves (k : HostKind) (m : HostMsg) (s : State) :
    ∃ time book heard refusals, (s.takeMessage k m).fixed =
      { s.fixed with time := time, book := book, heard := heard, refusals := refusals } := by
  unfold State.takeMessage
  split
  · exact ⟨_, _, _, _, rfl⟩
  · split
    · exact ⟨_, _, _, _, rfl⟩
    · exact State.handle_moves _ _ _ s

/-- The messages that waited move what messages move (R171). -/
theorem drain_moves (l : List (HostKind × HostMsg)) (s : State) :
    ∃ time book heard refusals link, (drain l s).fixed =
      { s.fixed with time := time, book := book, heard := heard, refusals := refusals, link := link } := by
  induction l generalizing s with
  | nil => exact ⟨_, _, _, _, _, rfl⟩
  | cons x rest ih =>
    unfold drain
    split
    · obtain ⟨t1, b1, h1, r1, e1⟩ := State.takeMessage_moves x.1 x.2 { s with port := { s.port with link := rest } }
      obtain ⟨t2, b2, h2, r2, l2, e2⟩ := ih (State.takeMessage x.1 x.2 { s with port := { s.port with link := rest } })
      refine ⟨t2, b2, h2, r2, l2, ?_⟩
      rw [e2, e1]
      rfl
    · exact ⟨_, _, _, _, _, rfl⟩

/-- A delivered message waits in the link, is answered at once, or is handed to its unit. -/
theorem State.hostMessage_fixed (k : HostKind) (n : Nat) (m : HostMsg) (s : State) :
    (∃ link, (s.hostMessage k n m).fixed = { s.fixed with link := link }) ∨ s.hostMessage k n m = (s.clockTo n).handle k m.tag m.body := by
  unfold State.hostMessage
  simp only
  split
  · unfold State.takeMessage
    split
    · exact Or.inl ⟨_, rfl⟩
    · split
      · exact Or.inl ⟨_, rfl⟩
      · exact Or.inr rfl
  · exact Or.inl ⟨_, rfl⟩

end Sys2Proof.Machine
end

section
/-! SUPPORT. Proofs: what a command may change, unit by unit (O54), from what each operation leaves alone. -/

namespace Sys2Proof.Machine

section
variable {c : Instr} {s t : State}

/-- What remains to be said of a command that moves neither the flash nor the configuration: that each part it moves is one
that O54 lets it move. -/
theorem LeftAlone.of_fixed {time : TimeBase} {book : Book} {rx : List Frame} {heard : List HeardEntry}
    {refusals : List ClientId} {radioOut : Option WireFrame} {sent : Option Sent} {link : List (HostKind × HostMsg)}
    (h : t.fixed = { s.fixed with time := time, book := book, rx := rx, heard := heard, refusals := refusals,
                                  radioOut := radioOut, sent := sent, link := link })
    (ht : ¬Resumes c → (∀ n m, c ≠ .advert n ∧ c ≠ .setTime n m) → c ≠ .tick → c ≠ .ageingTimerExpiry → time = s.time :=
      by exact fun _ _ _ _ => rfl)
    (hb : ¬Resumes c → (∀ n m d, c ≠ .bookSegment n ∧ c ≠ .loadBook n m ∧ c ≠ .recordReadCompletion n d) →
      book = s.sched.book := by exact fun _ _ => rfl)
    (hr : ¬TakesFrame c → (∀ n w, c ≠ .frameReceived n w) → rx = s.pli.rx := by exact fun _ _ => rfl)
    (hh : ¬Resumes c → (∀ n m x, c ≠ .associate n m ∧ c ≠ .sighting n m ∧ c ≠ .heardListExpiry x) →
      heard = s.clients.heard := by exact fun _ _ => rfl)
    (hf : ¬Resumes c → (∀ n m, c ≠ .associate n m) → refusals = s.clients.refusals := by exact fun _ _ => rfl)
    (ho : (∀ n, c ≠ .frameTakenByRadio n) → radioOut = s.radioOut := by exact fun _ => rfl)
    (hs : (∀ n, c ≠ .hostAcceptance n) → sent = s.port.sent := by exact fun _ => rfl) : LeftAlone c s t where
  flash _ := ⟨congrArg Fixed.flash h, congrArg Fixed.copy h, congrArg Fixed.seqNo h, congrArg Fixed.sel h⟩
  config _ _ := ⟨congrArg Fixed.cfg h, congrArg Fixed.seq h⟩
  time h1 h2 h3 h4 := (congrArg Fixed.time h).trans (ht h1 h2 h3 h4)
  book h1 h2 := (congrArg Fixed.book h).trans (hb h1 h2)
  rx h1 h2 := (congrArg Fixed.rx h).trans (hr h1 h2)
  heard h1 h2 := (congrArg Fixed.heard h).trans (hh h1 h2)
  refusals h1 h2 := (congrArg Fixed.refusals h).trans (hf h1 h2)
  radioOut h1 := (congrArg Fixed.radioOut h).trans (ho h1)
  sent h1 := (congrArg Fixed.sent h).trans (hs h1)

theorem LeftAlone.plain (h : t.fixed = s.fixed) : LeftAlone c s t := LeftAlone.of_fixed h

theorem LeftAlone.settled (h : LeftAlone c s t) : LeftAlone c s t.settle :=
  have e := State.settle_fixed t
  { flash := fun hn =>
      have ⟨hf, hc, hs, hl⟩ := h.flash hn
      ⟨(congrArg Fixed.flash e).trans hf, (congrArg Fixed.copy e).trans hc, (congrArg Fixed.seqNo e).trans hs,
        (congrArg Fixed.sel e).trans hl⟩
    config := fun hn hc =>
      ⟨(congrArg Fixed.cfg e).trans (h.config hn hc).1, (congrArg Fixed.seq e).trans (h.config hn hc).2⟩
    time := fun h1 h2 h3 h4 => (congrArg Fixed.time e).trans (h.time h1 h2 h3 h4)
    book := fun h1 h2 => (congrArg Fixed.book e).trans (h.book h1 h2)
    rx := fun h1 h2 => (congrArg Fixed.rx e).trans (h.rx h1 h2)
    heard := fun h1 h2 => (congrArg Fixed.heard e).trans (h.heard h1 h2)
    refusals := fun h1 h2 => (congrArg Fixed.refusals e).trans (h.refusals h1 h2)
    radioOut := fun h1 => (congrArg Fixed.radioOut e).trans (h.radioOut h1)
    sent := fun h1 => (congrArg Fixed.sent e).trans (h.sent h1) }

/-- A unit takes the frame at the head of the receive queue. -/
theorem LeftAlone.frame {k : FrameKind} {take : Frame → State → State} (n : Nat) (hc : TakesFrame c)
    (h : ∀ f u, LeftAlone c u (take f u)) : LeftAlone c s (s.onFrame k take n) := by
  have hrx : ∀ {rx u}, LeftAlone c { s.clockTo n with pli := { s.pli with rx := rx } } u → LeftAlone c s u := fun hu =>
    { hu with rx := fun hn => absurd hc hn }
  unfold State.onFrame
  simp only
  split
  · split
    · exact (hrx (h _ _)).settled
    · exact .plain rfl
  · exact .plain rfl

theorem LeftAlone.of_clock {n : Nat} (h : LeftAlone c (s.clockTo n) t) : LeftAlone c s t := { h with }

theorem LeftAlone.timer {due : Option Nat} {take : Nat → State → State} (h : ∀ d u, LeftAlone c u (take d u)) :
    LeftAlone c s (s.expire due take) := by
  unfold State.expire
  split
  · split
    · exact .of_clock (h _ _)
    · exact .plain rfl
  · exact .plain rfl

/-- A host message, by what its unit moves. -/
theorem LeftAlone.message {k : HostKind} {n : Nat} {m : HostMsg}
    (h : LeftAlone c s ((s.clockTo n).handle k m.tag m.body)) : LeftAlone c s (s.hostMessage k n m) := by
  rcases State.hostMessage_fixed k n m s with ⟨link, e⟩ | e
  · exact .of_fixed e
  · rw [e]
    exact h

/-- A completion moves only the flash, the selector, the configuration, the sequence and, at a record's read, the book. -/
theorem LeftAlone.completed {p : OpKind → Bool} {n : Nat} {d : Device} (hc : IsCompletion c)
    (hp : (∃ m e, c = .recordReadCompletion m e) ∨ ∀ a, p (.recordRead a) = false) : LeftAlone c s (s.completion p n d) := by
  obtain ⟨h, hb⟩ := State.completion_far p n d s
  exact
    { flash := fun hn => absurd hc hn
      config := fun hn => absurd hc hn
      time := fun _ _ _ _ => congrArg Far.time h
      book := fun _ hno => by
        rcases hp with ⟨m, e, rfl⟩ | hp
        · exact absurd rfl (hno m { kind := 0, tag := 0, len := 0, body := [], crc := 0 } e).2.2
        · exact congrArg Far.book (hb hp)
      rx := fun _ _ => congrArg Far.rx h
      heard := fun _ _ => congrArg Far.heard h
      refusals := fun _ _ => congrArg Far.refusals h
      radioOut := fun _ => congrArg Far.radioOut h
      sent := fun _ => congrArg Far.sent h }

end

/-! ### The commands that move a part -/

theorem State.hearAirtime_fixed (s : State) : s.hearAirtime.fixed = s.fixed :=
  State.fixed_of_beside ((State.cutCredits_beside _).trans ((State.round_beside _).trans (State.overshoot_beside _)))

/-- An ADVERT moves the Base's time beside the receive queue. -/
theorem State.takeAdvert_fixed (f : Frame) (s : State) : ∃ time, (s.takeAdvert f).fixed = { s.fixed with time := time } := by
  have hon : ∀ (peer : Nat) (a : Advert) (u : State), u.fixed = s.fixed →
      ∃ time, (u.handOn peer a).fixed = { s.fixed with time := time } := fun peer a u hu =>
    ⟨(u.hearTime peer a.meshTime a.timeRank).time, by
      unfold State.handOn
      simp only [State.hearFlags_fixed, State.hearAirtime_fixed, State.hearImage_fixed, State.hearBook_fixed]
      rw [State.hearTime_fixed, hu]⟩
  unfold State.takeAdvert
  split
  · split
    · exact ⟨_, State.raise_fixed _ s⟩
    · split
      · split
        · rename_i s1 he
          refine hon _ _ _ ?_
          unfold State.enterPeer at he
          split at he
          · cases he
            rfl
          · split at he
            · cases he
              exact (State.raise_fixed _ _ : (State.raise _ _).fixed = _)
            · cases he
        · exact ⟨_, rfl⟩
      · exact ⟨_, rfl⟩
  · exact ⟨_, rfl⟩

theorem State.receive_fixed (w : WireFrame) (s : State) : ∃ rx, (s.receive w).fixed = { s.fixed with rx := rx } := by
  unfold State.receive
  split
  · split
    · unfold State.queueFrame
      split
      · exact ⟨_, rfl⟩
      · split
        · exact ⟨_, rfl⟩
        · exact ⟨_, State.raise_fixed _ _⟩
    · exact ⟨_, rfl⟩
  · exact ⟨_, rfl⟩

theorem State.frameTaken_fixed (s : State) : ∃ out, s.frameTaken.fixed = { s.fixed with radioOut := out } := by
  unfold State.frameTaken
  split
  · split
    · exact ⟨_, State.serveEngine_fixed _⟩
    · exact ⟨_, rfl⟩
  · exact ⟨_, rfl⟩

theorem State.evaluateNext_fixed (s : State) : s.evaluateNext.fixed = s.fixed := by
  unfold State.evaluateNext
  split
  · split
    · exact (State.settle_fixed _).trans (State.evaluateClient_fixed _ _)
    · rfl
  · rfl

theorem State.tickAt_fixed (due : Nat) (s : State) : ∃ time, (s.tickAt due).fixed = { s.fixed with time := time } :=
  ⟨_, (State.submitBook_fixed _).trans ((State.timeChanged_fixed _ _).trans rfl)⟩

theorem State.retryExpiry_fixed (s : State) : s.retryExpiry.fixed = s.fixed := by
  have h : ∀ u : State, u.retryEnds.fixed = u.fixed := by
    intro u
    unfold State.retryEnds
    split
    · split
      · rfl
      · exact State.submitRetried_fixed _ _
    · rfl
  unfold State.retryExpiry
  split
  · exact h _
  · rfl

theorem State.confirmEnds_fixed (s : State) : s.confirmEnds.fixed = s.fixed := by
  unfold State.confirmEnds
  simp only
  split
  · rfl
  · exact State.confirmExpired_fixed _

theorem State.limitReached_fixed (s : State) : s.limitReached.fixed = s.fixed := by
  unfold State.limitReached
  split
  · exact (State.settle_fixed _).trans (State.commit_fixed s)
  · rfl

theorem State.goStale_fixed (id : Nat) (s : State) : (s.goStale id).fixed = s.fixed := State.settleWith_fixed _ _

theorem State.losePeer_fixed (id : Nat) (s : State) : (s.losePeer id).fixed = s.fixed :=
  (State.settleWith_fixed _ _).trans ((State.fixed_of_beside (State.cutCredits_beside _)).trans (State.raise_fixed _ _))

theorem State.releaseSent_fixed (j : Fin 128) (s : State) : (s.releaseSent j).fixed = s.fixed := by
  unfold State.releaseSent
  split <;> rfl

theorem State.nextDirective_fixed {s s' : State} {m : PortMessage} (h : s.nextDirective = some (m, s')) :
    s'.fixed = s.fixed := by
  unfold State.nextDirective at h
  split at h
  · cases h
    rfl
  · split at h
    · cases h
      rfl
    · simp only at h
      split at h
      · rename_i x hx
        cases h
        obtain ⟨i, _, hi⟩ := List.exists_of_findSome?_eq_some hx
        split at hi
        · obtain ⟨r, _, hr⟩ := Option.map_eq_some_iff.mp hi
          cases hr
          rfl
        · cases hi
      · rename_i x _ hx
        cases h
        obtain ⟨i, _, hi⟩ := List.exists_of_findSome?_eq_some hx
        split at hi
        · obtain ⟨r, _, hr⟩ := Option.map_eq_some_iff.mp hi
          cases hr
          rfl
        · cases hi
      · obtain ⟨j, _, hj⟩ := List.exists_of_findSome?_eq_some h
        split at hj
        · obtain ⟨r, _, hr⟩ := Option.map_eq_some_iff.mp hj
          cases hr
          exact State.releaseSent_fixed _ _
        · cases hj

/-- A message takes its subject out of the refusal list, the replies, the marks or the notices (R175, R176). -/
theorem State.nextMessage_fixed {s s' : State} {m : PortMessage} (h : s.nextMessage = some (m, s')) :
    ∃ refusals, s'.fixed = { s.fixed with refusals := refusals } := by
  unfold State.nextMessage at h
  split at h
  · cases h
    exact ⟨_, rfl⟩
  · cases h
    exact ⟨_, rfl⟩
  · split at h
    · rename_i x hx
      cases h
      exact ⟨_, State.nextDirective_fixed hx⟩
    · split at h
      · cases h
        exact ⟨_, rfl⟩
      · cases h

theorem State.sendNext_fixed (s : State) :
    ∃ refusals sent, s.sendNext.fixed = { s.fixed with refusals := refusals, sent := sent } := by
  unfold State.sendNext
  split
  · rename_i m s1 h
    obtain ⟨r, e⟩ := State.nextMessage_fixed h
    exact ⟨r, _, congrArg (fun x : Fixed => { x with sent := some { message := m, wire := writePort m } }) e⟩
  · exact ⟨_, _, rfl⟩

theorem State.startCompletes_fixed (s : State) :
    ∃ seq time, s.startCompletes.fixed = { s.fixed with seq := seq, time := time } :=
  ⟨_, _, State.settleWith_fixed _ _⟩

/-- The start sequence completes, and the messages that waited are taken (R165, R171). -/
theorem State.sequenceEnds_leftAlone (n : Nat) (s : State) : LeftAlone (.startSequenceComplete n) s s.sequenceEnds := by
  unfold State.sequenceEnds
  split
  · obtain ⟨seq, time, h1⟩ := State.startCompletes_fixed s
    obtain ⟨t, b, h, r, l, h2⟩ := drain_moves s.startCompletes.port.link s.startCompletes
    have h : s.startCompletes.resume.fixed =
        { s.fixed with seq := seq, time := t, book := b, heard := h, refusals := r, link := l } := by rw [State.resume, h2, h1]
    have hr : Resumes (.startSequenceComplete n) := ⟨n, .inl rfl⟩
    exact
      { flash := fun _ => ⟨congrArg Fixed.flash h, congrArg Fixed.copy h, congrArg Fixed.seqNo h, congrArg Fixed.sel h⟩
        config := fun _ hn => absurd rfl (hn n)
        time := fun hn => absurd hr hn
        book := fun hn => absurd hr hn
        rx := fun _ _ => congrArg Fixed.rx h
        heard := fun hn => absurd hr hn
        refusals := fun hn => absurd hr hn
        radioOut := fun _ => congrArg Fixed.radioOut h
        sent := fun _ => congrArg Fixed.sent h }
  · exact .plain rfl

/-- The host's side accepts a message, and the messages that waited may be taken (R171, R175). -/
theorem State.accept_leftAlone (n : Nat) (s : State) : LeftAlone (.hostAcceptance n) s s.accept := by
  have hr : Resumes (.hostAcceptance n) := ⟨n, .inr rfl⟩
  unfold State.accept
  split
  · obtain ⟨refusals, sent, h1⟩ := State.sendNext_fixed s
    obtain ⟨t, b, h, r, l, h2⟩ := drain_moves s.sendNext.port.link s.sendNext
    have h : s.sendNext.resume.fixed =
        { s.fixed with time := t, book := b, heard := h, refusals := r, sent := sent, link := l } := by rw [State.resume, h2, h1]
    exact .of_fixed h (fun hn => absurd hr hn) (fun hn => absurd hr hn) (fun _ _ => rfl) (fun hn => absurd hr hn)
      (fun hn => absurd hr hn) (fun _ => rfl) (fun hn => absurd rfl (hn n))
  · exact .plain rfl

/-! ### Every command -/

/-- A host message moves only what its kind lets it move. -/
theorem State.hostMessage_leftAlone (k : HostKind) (n : Nat) (m : HostMsg) (s : State) :
    LeftAlone (k.command n m) s (s.hostMessage k n m) := by
  refine .message ?_
  by_cases hk : k ≠ .associate ∧ k ≠ .sighting ∧ k ≠ .loadBook ∧ k ≠ .setTime
  · exact .plain (State.handle_fixed hk m.tag m.body _)
  · cases k with
    | associate =>
      obtain ⟨h, r, e⟩ := State.takeAssociate_fixed m.tag m.body (s.clockTo n)
      exact .of_fixed e (hh := fun _ hn => absurd rfl (hn n m 0).1) (hf := fun _ hn => absurd rfl (hn n m))
    | sighting =>
      obtain ⟨h, e⟩ := State.takeSighting_fixed m.tag m.body (s.clockTo n)
      exact .of_fixed e (hh := fun _ hn => absurd rfl (hn n m 0).2.1)
    | loadBook =>
      obtain ⟨b, e⟩ := State.takeLoadBook_fixed m.tag m.body (s.clockTo n)
      exact .of_fixed e (hb := fun _ hn => absurd rfl (hn n m .sound).2.1)
    | setTime =>
      obtain ⟨t, e⟩ := State.takeSetTime_fixed m.tag m.body (s.clockTo n)
      exact .of_fixed e (fun _ hn => absurd rfl (hn n m).2)
    | _ => exact absurd ⟨nofun, nofun, nofun, nofun⟩ hk

theorem exec_leftAlone (c : Instr) {s t : State} (h : exec c s = .next t) (hc : ¬IsStart c) : LeftAlone c s t := by
  have ends : ∀ {u}, exec c s = .next u → LeftAlone c s u → LeftAlone c s t := fun he hu =>
    Host.Outcome.next.inj (he.symm.trans h) ▸ hu
  have timer : ∀ {due take}, exec c s = .next (s.expire due take) → (∀ d u, (take d u).fixed = u.fixed) → LeftAlone c s t :=
    fun he hk => ends he (.timer fun d u => .plain (hk d u))
  have frame : ∀ {k take m}, exec c s = .next (s.onFrame k take m) → TakesFrame c →
      (∀ f u, (take f u).fixed = u.fixed) → LeftAlone c s t :=
    fun he hi hk => ends he (.frame _ hi fun f u => .plain (hk f u))
  have store : ∀ {p n d}, exec c s = .next (s.completion p n d) → IsCompletion c →
      ((∃ m e, c = .recordReadCompletion m e) ∨ ∀ a, p (.recordRead a) = false) → LeftAlone c s t := fun he hi hp =>
    ends he (.completed hi hp)
  cases c with
  | powerOnStart cells => exact absurd ⟨cells, .inl rfl⟩ hc
  | hostRestart cells => exact absurd ⟨cells, .inr (.inl rfl)⟩ hc
  | recoveryStart cells => exact absurd ⟨cells, .inr (.inr rfl)⟩ hc
  | startSequenceComplete n => exact ends rfl (.of_clock (n := n) (State.sequenceEnds_leftAlone n _))
  | frameReceived n w =>
    obtain ⟨rx, e⟩ := State.receive_fixed w (s.clockTo n)
    exact ends rfl (.of_clock (n := n) (.of_fixed e (hr := fun _ hn => absurd rfl (hn n w))))
  | advert n =>
    refine ends rfl (.frame n ⟨n, by simp⟩ fun f u => ?_)
    obtain ⟨t, e⟩ := State.takeAdvert_fixed f u
    exact .of_fixed e (fun _ hn => absurd rfl (hn n ⟨0, 0, 0, [], 0⟩).1)
  | bookSegment n =>
    refine ends rfl (.frame n ⟨n, by simp⟩ fun f u => ?_)
    unfold State.onBookSegment
    split
    · obtain ⟨b, e⟩ := State.takeSegment_fixed _ _ _ _ _ u
      exact .of_fixed e (hb := fun _ hn => absurd rfl (hn n ⟨0, 0, 0, [], 0⟩ .sound).1)
    · exact .plain rfl
  | offer n =>
    exact frame rfl ⟨n, by simp⟩ fun f u => by
      unfold State.onOffer; split; exacts [State.takeOffer_fixed _ _ u, rfl]
  | accept n =>
    exact frame rfl ⟨n, by simp⟩ fun f u => by
      unfold State.onAccept; split; exacts [State.takeAccept_fixed _ _ u, rfl]
  | decline n =>
    exact frame rfl ⟨n, by simp⟩ fun f u => by
      unfold State.onDecline; split; exacts [State.takeDecline_fixed _ _ _ u, rfl]
  | claim n =>
    exact frame rfl ⟨n, by simp⟩ fun f u => by
      unfold State.onClaim; split; exacts [State.takeClaim_fixed _ _ u, rfl]
  | context n =>
    exact frame rfl ⟨n, by simp⟩ fun f u => by
      unfold State.onContext; split; exacts [State.takeContext_fixed _ u, rfl]
  | bookRequest n => exact frame rfl ⟨n, by simp⟩ fun f u => State.takeBookRequest_fixed _ u
  | manifestRequest n =>
    exact frame rfl ⟨n, by simp⟩ fun f u => by
      unfold State.onManifestRequest; split; exacts [State.takeManifestRequest_fixed _ _ u, rfl]
  | manifest n =>
    exact frame rfl ⟨n, by simp⟩ fun f u => by
      unfold State.onManifest; split; exacts [State.takeManifest_fixed _ u, rfl]
  | chunkRequest n =>
    exact frame rfl ⟨n, by simp⟩ fun f u => by
      unfold State.onChunkRequest; split; exacts [State.takeChunkRequest_fixed _ _ _ _ _ _ u, rfl]
  | chunk n =>
    exact frame rfl ⟨n, by simp⟩ fun f u => by
      unfold State.onChunk; split; exacts [State.takeChunk_fixed _ _ _ _ u, rfl]
  | chunkRefuse n =>
    exact frame rfl ⟨n, by simp⟩ fun f u => by
      unfold State.onChunkRefuse; split; exacts [State.takeRefuse_fixed _ _ _ _ u, rfl]
  | frameTakenByRadio n =>
    obtain ⟨out, e⟩ := State.frameTaken_fixed (s.clockTo n)
    exact ends rfl (.of_clock (n := n) (.of_fixed e (ho := fun hn => absurd rfl (hn n))))
  | associate n m => exact ends rfl (State.hostMessage_leftAlone .associate n m s)
  | disassociate n m => exact ends rfl (State.hostMessage_leftAlone .disassociate n m s)
  | signal n m => exact ends rfl (State.hostMessage_leftAlone .signal n m s)
  | sighting n m => exact ends rfl (State.hostMessage_leftAlone .sighting n m s)
  | link n m => exact ends rfl (State.hostMessage_leftAlone .link n m s)
  | clientActivity n m => exact ends rfl (State.hostMessage_leftAlone .clientActivity n m s)
  | flowSample n m => exact ends rfl (State.hostMessage_leftAlone .flowSample n m s)
  | flowActive n m => exact ends rfl (State.hostMessage_leftAlone .flowActive n m s)
  | flowEnd n m => exact ends rfl (State.hostMessage_leftAlone .flowEnd n m s)
  | loadBook n m => exact ends rfl (State.hostMessage_leftAlone .loadBook n m s)
  | setTime n m => exact ends rfl (State.hostMessage_leftAlone .setTime n m s)
  | seedManifest n m => exact ends rfl (State.hostMessage_leftAlone .seedManifest n m s)
  | seedChunk n m => exact ends rfl (State.hostMessage_leftAlone .seedChunk n m s)
  | activateNow n m => exact ends rfl (State.hostMessage_leftAlone .activateNow n m s)
  | confirmImage n m => exact ends rfl (State.hostMessage_leftAlone .confirmImage n m s)
  | readRecord n m => exact ends rfl (State.hostMessage_leftAlone .readRecord n m s)
  | writeConfig n m => exact ends rfl (State.hostMessage_leftAlone .writeConfig n m s)
  | evaluation n => exact ends rfl (.of_clock (n := n) (.plain (State.evaluateNext_fixed _)))
  | hostAcceptance n => exact ends rfl (.of_clock (n := n) (State.accept_leftAlone n _))
  | advertTimerExpiry => exact timer rfl State.advertExpiry_fixed
  | freshnessTimerExpiry => exact timer rfl fun _ => State.goStale_fixed _
  | removalTimerExpiry => exact timer rfl fun _ => State.losePeer_fixed _
  | heardListExpiry x => exact ends rfl (.timer fun _ u =>
      .of_fixed (heard := (u.forgetHeard x).clients.heard) rfl (hh := fun _ hn => absurd rfl (hn 0 ⟨0, 0, 0, [], 0⟩ x).2.2))
  | suspectUntilReached => exact timer rfl fun _ _ => rfl
  | declineHoldExpiry => exact timer rfl fun _ => State.mapClient_fixed _ _
  | steerResistantExpiry => exact timer rfl fun _ => State.mapClient_fixed _ _
  | offeringExpiry => exact timer rfl fun _ => State.handoffEnds_fixed _ fun _ _ => State.offeringEnds_fixed _ _
  | handingExpiry => exact timer rfl fun _ => State.handoffEnds_fixed _ fun _ _ => State.handingEnds_fixed _ _
  | arrivingExpiry => exact timer rfl fun _ => State.handoffEnds_fixed _ fun i _ u => State.fixed_of_beside (State.deleteSlot_beside i u)
  | provisionalExpiry => exact timer rfl fun _ => State.handoffEnds_fixed _ fun _ _ => State.provisionalEnds_fixed _ _
  | tick =>
    refine ends rfl (.timer fun d u => ?_)
    obtain ⟨time, e⟩ := State.tickAt_fixed d u
    exact .of_fixed e (fun _ _ hn => absurd rfl hn)
  | ageingTimerExpiry =>
    exact ends rfl (.timer fun d u => .of_fixed (time := (u.ageRank d).time) rfl (fun _ _ _ hn => absurd rfl hn))
  | stagingTimerExpiry => exact timer rfl fun _ _ => rfl
  | idleTimerExpiry j =>
    exact timer rfl fun _ u => (State.settle_fixed _).trans (State.mapFlow_fixed _ _ u)
  | flowRemovalTimerExpiry j =>
    exact timer rfl fun _ u => (State.settle_fixed _).trans (State.fixed_of_beside (State.removeFlow_beside _ u))
  | holdUntilReached => exact timer rfl fun _ => State.mapFlow_fixed _ _
  | chunkRequestExpiry => exact timer rfl fun _ _ => rfl
  | evacuationLimitExpiry => exact timer rfl fun _ => State.limitReached_fixed
  | confirmTimerExpiry => exact timer rfl fun _ u => (State.settle_fixed _).trans (State.confirmEnds_fixed u)
  | writeRetryTimerExpiry => exact ends rfl (.plain (State.retryExpiry_fixed s))
  | readChunkCompletion n d => exact store rfl ⟨n, d, by simp⟩ (.inr fun _ => rfl)
  | programChunkCompletion n d => exact store rfl ⟨n, d, by simp⟩ (.inr fun _ => rfl)
  | eraseBlockCompletion n d => exact store rfl ⟨n, d, by simp⟩ (.inr fun _ => rfl)
  | verifyBlockCompletion n d => exact store rfl ⟨n, d, by simp⟩ (.inr fun _ => rfl)
  | checkImageCompletion n d => exact store rfl ⟨n, d, by simp⟩ (.inr fun _ => rfl)
  | recordWriteCompletion n d => exact store rfl ⟨n, d, by simp⟩ (.inr fun _ => rfl)
  | recordReadCompletion n d => exact store rfl ⟨n, d, by simp⟩ (.inl ⟨n, d, rfl⟩)

/-- Settles O54: each command's unit moves only its own parts, and a byte outside the operation in flight stands. -/
theorem unitsAreLeftAlone : Obligations.UnitsAreLeftAlone := by
  unfold Obligations.UnitsAreLeftAlone
  intro c s t h
  refine ⟨fun a ha => ?_, fun hc => ?_⟩
  · have start : ∀ {b cells}, exec c s = .next (s.beginStart b cells) →
        Memory.read t.store.flash a = Memory.read s.store.flash a := fun he =>
      Host.Outcome.next.inj (he.symm.trans h) ▸ State.read_beginStart_outside _ _ s a ha
    have store : ∀ {p n d}, exec c s = .next (s.completion p n d) →
        Memory.read t.store.flash a = Memory.read s.store.flash a := fun he =>
      Host.Outcome.next.inj (he.symm.trans h) ▸ State.read_completion_outside _ _ _ s a ha
    by_cases hs : IsStart c
    · obtain ⟨cells, rfl | rfl | rfl⟩ := hs
      · exact start rfl
      · exact start rfl
      · exact start rfl
    · by_cases hd : IsCompletion c
      · obtain ⟨n, d, rfl | rfl | rfl | rfl | rfl | rfl | rfl⟩ := hd
        · exact store rfl
        · exact store rfl
        · exact store rfl
        · exact store rfl
        · exact store rfl
        · exact store rfl
        · exact store rfl
      · rw [((exec_leftAlone c h hs).flash hd).1]
  · obtain ⟨hflash, hconfig, htime, hbook, hrx, hheard, hrefusals, hradio, hsent⟩ := exec_leftAlone c h hc
    exact ⟨hflash, hconfig, htime, hbook, hrx, hheard, hrefusals, hradio, hsent⟩

end Sys2Proof.Machine
end

section
/-! SUPPORT. Proofs: what sending a frame does, and the frame the radio takes (O34). -/

namespace Sys2Proof.Machine

/-! ### Sending (R6, R7, R8) -/

section
variable {s : State} (dest : Nat) (body : FrameBody)

theorem State.send_unconfigured (h : s.configured = false) : s.send dest body = s := by simp [State.send, h]

theorem State.send_placed (hc : s.configured = true) (h : s.txCount < 12) : s.send dest body = s.placeFrame dest body := by
  simp [State.send, hc, Config.txFrames, h]

theorem State.send_dropped (hc : s.configured = true) (h : 12 ≤ s.txCount) (hrun : s.pli.txRun = false) :
    s.send dest body = State.raise (.txOverflow dest body.kind) { s with pli := { s.pli with txRun := true } } := by
  simp [State.send, hc, Config.txFrames, Nat.not_lt.mpr h, hrun]

theorem State.send_dropped_again (hc : s.configured = true) (h : 12 ≤ s.txCount) (hrun : s.pli.txRun = true) :
    s.send dest body = s := by
  simp [State.send, hc, Config.txFrames, Nat.not_lt.mpr h, hrun]

end

/-- A manifest is held where a slot that is not FAILED holds one for the version (R144). -/
theorem State.manifestOf_isSome {s : State} {k : SlotId} {v : Nat} {m : Manifest} (hv : (s.slot k).version = some v)
    (hm : (s.slot k).manifest = some m) (hs : (s.slot k).state ≠ .failed) : ∃ m', s.manifestOf v = some m' := by
  unfold State.manifestOf
  cases k with
  | a => exact ⟨m, by simp [hv, hm, hs]⟩
  | b =>
    simp only [hv, hm]
    split
    · exact ⟨_, rfl⟩
    · exact ⟨m, by simp [hs]⟩

/-! ### The serve engine -/

theorem serveTurns_pli (n : Nat) (s : State) : (serveTurns n s).pli = s.pli := by
  induction n generalizing s with
  | zero => rfl
  | succ n ih =>
    unfold serveTurns
    split
    · rfl
    · split
      · rfl
      · split
        · exact ih _
        · split
          · rfl
          · split
            · exact ih _
            · simp only
              split
              · exact State.submit_pli _ s
              · exact (ih _).trans (State.submit_pli _ s)

theorem State.serveEngine_idle {s : State} (h : s.dist.serve = []) : s.serveEngine = s := by
  simp [State.serveEngine, serveTurns, h]

/-- Settles O34: sending by cases, and the radio's frame by the head of the transmit order. -/
theorem radioTakesTheHead : Obligations.RadioTakesTheHead := by
  unfold Obligations.RadioTakesTheHead
  refine ⟨fun dest body s => ⟨fun hn => State.send_unconfigured dest body (State.not_configured hn), fun hlo hhi => ?_⟩,
    fun n s f rest k v m hhead hmarks hbody hlo hhi hv hm hst hfull hrun => ?_, fun n s => ⟨fun f rest hr htx => ?_, fun htx => ?_⟩⟩
  · have hc : s.configured = true := State.configured_iff.mpr ⟨hlo, hhi⟩
    exact ⟨State.send_placed dest body hc, State.send_dropped dest body hc, State.send_dropped_again dest body hc⟩
  · have hc : (s.taking n rest).configured = true := State.configured_iff.mpr ⟨hlo, hhi⟩
    obtain ⟨m', hof⟩ := State.manifestOf_isSome (s := s.taking n rest) hv hm hst
    have htake : State.onManifestRequest f (s.taking n rest) = State.raise (.txOverflow f.sender .manifest)
        { s.taking n rest with pli := { s.pli with rx := rest, txRun := true } } := by
      unfold State.onManifestRequest State.takeManifestRequest
      rw [hbody]
      simp only [hof]
      exact State.send_dropped _ _ hc hfull hrun
    refine congrArg Host.Outcome.next ?_
    rw [State.onFrame_head _ n hhead (by rw [hbody]; rfl), htake]
    exact State.settle_of_ev hmarks (State.raise_ev _ _)
  · have hr' : (s.clockTo n).running = true := hr
    have htake : (s.clockTo n).frameTaken =
        State.serveEngine { s.clockTo n with pli := { s.pli with tx := rest }, radioOut := some (writeFrame f) } := by
      unfold State.frameTaken
      rw [show (s.clockTo n).pli.tx = f :: rest from htx]
      simp only [hr', if_true]
      rfl
    refine ⟨_, congrArg Host.Outcome.next htake, serveTurns_pli _ _, ?_, fun h => State.serveEngine_idle h⟩
    exact congrArg Fixed.radioOut (State.serveEngine_fixed _)
  · refine congrArg Host.Outcome.next ?_
    unfold State.frameTaken
    rw [show (s.clockTo n).pli.tx = [] from htx]

end Sys2Proof.Machine
end

section
/-! SUPPORT. Proofs: bytes read back as written, field by field and frame by frame (O52). -/

namespace Sys2Proof.Machine

/-! ### Numbers in bytes -/

@[simp] theorem length_beBytes (w v : Nat) : (beBytes w v).length = w := by
  induction w with
  | zero => rfl
  | succ w ih => simp [beBytes, ih]

theorem foldl_beBytes (w v n : Nat) :
    (beBytes w v).foldl (fun n b => n * 256 + b.toNat) n = n * 256 ^ w + v % 256 ^ w := by
  induction w generalizing n with
  | zero => simp [beBytes, Nat.mod_one]
  | succ w ih =>
    have hsplit : v % 256 ^ (w + 1) = 256 ^ w * (v / 256 ^ w % 256) + v % 256 ^ w := by
      rw [Nat.pow_succ, Nat.mod_mul, Nat.add_comm]
    rw [beBytes, List.foldl_cons, ih, hsplit, BitVec.toNat_ofNat]
    ring

/-- The bytes of a number give the number, as far as they reach. -/
theorem beNat_beBytes (w v : Nat) : beNat (beBytes w v) = v % 256 ^ w :=
  (foldl_beBytes w v 0).trans (by simp)

/-! ### A field of a layout -/

section
variable {w v off u : Nat} {rest : List Byte}

theorem field_here : field (beBytes w v ++ rest) 0 w = v % 256 ^ w := by
  rw [field, List.drop_zero, List.take_append_of_le_length (by simp), List.take_of_length_le (by simp), beNat_beBytes]

theorem field_last : field (beBytes w v) 0 w = v % 256 ^ w := by simpa using field_here (w := w) (v := v) (rest := [])

theorem drop_past (h : w ≤ off) : (beBytes w v ++ rest).drop off = rest.drop (off - w) := by
  rw [List.drop_append, List.drop_eq_nil_of_le (by simpa using h), length_beBytes, List.nil_append]

theorem field_past (h : w ≤ off) : field (beBytes w v ++ rest) off u = field rest (off - w) u := by
  rw [field, drop_past h, field]

end

theorem ofNat_toNat_mod {n w : Nat} (h : 256 ^ w = 2 ^ n) (x : BitVec n) : BitVec.ofNat n (x.toNat % 256 ^ w) = x := by
  rw [h, Nat.mod_eq_of_lt x.isLt, BitVec.ofNat_toNat, BitVec.setWidth_eq]

theorem toInt_ofInt_pair {q : Int} (hlo : -32768 ≤ q) (hhi : q ≤ 32767) : (BitVec.ofInt 16 q).toInt = q := by
  rw [BitVec.toInt_ofInt, Int.bmod_def]
  omega

theorem oneByte {v : Nat} : v < 256 → v % 256 ^ 1 = v := Nat.mod_eq_of_lt

theorem twoBytes {v : Nat} : v < 65536 → v % 256 ^ 2 = v := Nat.mod_eq_of_lt

theorem fourBytes {v : Nat} : v < 2 ^ 32 → v % 256 ^ 4 = v := Nat.mod_eq_of_lt

/-! ### The lists -/

theorem readSightings_write (l : List AdvertSighting) (h : ∀ g ∈ l, -32768 ≤ g.smoothed ∧ g.smoothed ≤ 32767 ∧ g.age < 256) :
    readSightings l.length (l.flatMap fun g => beBytes 6 g.client.toNat ++ signedBytes g.smoothed ++ beBytes 1 g.age) = l := by
  induction l with
  | nil => rfl
  | cons g l ih =>
    obtain ⟨⟨hlo, hhi, hage⟩, hl⟩ := List.forall_mem_cons.mp h
    have ih := ih hl
    simp only [signedBytes, List.append_assoc] at ih
    simp only [List.length_cons, List.flatMap_cons, readSightings, clientField, signedPair, signedBytes, List.append_assoc,
      field_here, field_past, drop_past, Nat.reduceLeDiff, Nat.reduceSub, List.drop_zero, ih,
      ofNat_toNat_mod (n := 48) (w := 6) rfl, ofNat_toNat_mod (n := 16) (w := 2) rfl, toInt_ofInt_pair hlo hhi, oneByte hage]

theorem readFlows_write (l : List CarriedFlow) (h : ∀ g ∈ l, g.share < 65536 ∧ g.interval < 256) :
    readFlows l.length (l.flatMap fun f => beBytes 4 f.digest.toNat ++ beBytes 2 f.share ++ beBytes 1 f.interval) = l := by
  induction l with
  | nil => rfl
  | cons g l ih =>
    obtain ⟨⟨hshare, hinterval⟩, hl⟩ := List.forall_mem_cons.mp h
    have ih := ih hl
    simp only [List.append_assoc] at ih
    simp only [List.length_cons, List.flatMap_cons, readFlows, digestField, List.append_assoc, field_here, field_past, drop_past,
      Nat.reduceLeDiff, Nat.reduceSub, List.drop_zero, ih, ofNat_toNat_mod (n := 32) (w := 4) rfl, twoBytes hshare,
      oneByte hinterval]

theorem readCrcs_write (l : List Crc) (rest : List Byte) : readCrcs l.length (l.flatMap crcBytes ++ rest) = l := by
  induction l with
  | nil => rfl
  | cons c l ih =>
    simp only [List.length_cons, List.flatMap_cons, readCrcs, crcBytes, List.append_assoc, field_here, drop_past,
      le_refl, Nat.sub_self, List.drop_zero, ofNat_toNat_mod (n := 32) (w := 4) rfl]
    exact congrArg _ ih

theorem length_flatMap_const {α : Type} {g : α → List Byte} {n : Nat} (h : ∀ x, (g x).length = n) (l : List α) :
    (l.flatMap g).length = n * l.length := by
  induction l with
  | nil => rfl
  | cons x l ih => rw [List.flatMap_cons, List.length_append, h, ih, List.length_cons]; ring

/-! ### The bodies -/

theorem testBit_flags (e w g : Bool) :
    (flagBit e + 2 * flagBit w + 4 * flagBit g) % 256 ^ 1 = flagBit e + 2 * flagBit w + 4 * flagBit g ∧
      (flagBit e + 2 * flagBit w + 4 * flagBit g).testBit 0 = e ∧
      (flagBit e + 2 * flagBit w + 4 * flagBit g).testBit 1 = w ∧
      (flagBit e + 2 * flagBit w + 4 * flagBit g).testBit 2 = g := by
  revert e w g
  decide

theorem readAdvert_write {a : Advert} (h : a.Fits) : readAdvert (writeAdvert a) = a := by
  obtain ⟨hpath, hcount, hfree, hres, hmesh, hrank, hbook, horigin, htarget, hsa, hva, hsb, hvb, hlen, hsight⟩ := h
  obtain ⟨hflags, hev, hact, hgate⟩ := testBit_flags a.evacuating a.actWaiting a.gateway
  have hlist := readSightings_write a.sightings hsight
  simp only [signedBytes, List.append_assoc] at hlist
  simp only [readAdvert, writeAdvert, signedBytes, List.append_assoc, field_here, field_past, drop_past, Nat.reduceLeDiff,
    Nat.reduceSub, List.drop_zero, oneByte hpath, oneByte hcount, oneByte hfree, twoBytes hres, fourBytes hmesh, oneByte hrank, fourBytes hbook,
    oneByte horigin, fourBytes htarget, oneByte hsa, fourBytes hva, oneByte hsb, fourBytes hvb, oneByte hlen, hflags, hev, hact, hgate, hlist,
    ofNat_toNat_mod (n := 256) (w := 32) rfl]

theorem readHandover_write {h : Handover} (hf : h.Fits) : readHandover (writeHandover h) = h := by
  obtain ⟨hused, hday, hprofile, haccess, hlen, hflows⟩ := hf
  have hlist := readFlows_write h.flows hflows
  simp only [List.append_assoc] at hlist
  simp only [readHandover, writeHandover, clientField, List.append_assoc, field_here, field_past, drop_past, Nat.reduceLeDiff,
    Nat.reduceSub, List.drop_zero, ofNat_toNat_mod (n := 48) (w := 6) rfl, twoBytes hused, twoBytes hday, oneByte hprofile,
    oneByte haccess, oneByte hlen, hlist]

theorem length_crcs (l : List Crc) : (l.flatMap crcBytes).length = 4 * l.length :=
  length_flatMap_const (fun _ => length_beBytes _ _) l

theorem readManifest_write {m : Manifest} (h : m.Fits) : readManifest (writeManifest m) = m := by
  obtain ⟨hversion, hn, hlen⟩ := h
  have hlist := readCrcs_write m.blockCrcs (beBytes 4 m.imageCrc.toNat ++ beBytes 4 m.ownCrc.toNat)
  rw [hlen] at hlist
  have hskip : ∀ off u, field (m.blockCrcs.flatMap crcBytes ++ (beBytes 4 m.imageCrc.toNat ++ beBytes 4 m.ownCrc.toNat))
      (1024 + off) u = field (beBytes 4 m.imageCrc.toNat ++ beBytes 4 m.ownCrc.toNat) off u := fun off u => by
    rw [field, List.drop_append, List.drop_eq_nil_of_le (by rw [length_crcs, hlen]; omega), length_crcs, hlen, List.nil_append,
      Nat.add_sub_cancel_left, field]
  simp only [readManifest, writeManifest, manifestHead, crcBytes, List.append_assoc, field_here, field_last, field_past, drop_past,
    Nat.reduceLeDiff, Nat.reduceSub, List.drop_zero, hlist, hskip 0, hskip 4, ofNat_toNat_mod (n := 32) (w := 4) rfl,
    fourBytes hversion, twoBytes hn]

/-- A body reads back from its bytes. -/
theorem readBody_write {b : FrameBody} (h : b.Fits) : readBody b.kind (writeBody b) = b := by
  have client : ∀ c : ClientId, BitVec.ofNat 48 (c.toNat % 256 ^ 6) = c := ofNat_toNat_mod rfl
  cases b with
  | advert a => exact congrArg _ (readAdvert_write h)
  | offer o => exact congrArg _ (readHandover_write h)
  | context o => exact congrArg _ (readHandover_write h)
  | manifest m => exact congrArg _ (readManifest_write h)
  | bookRequest => rfl
  | accept c => simp only [readBody, writeBody, FrameBody.kind, clientField, field_last, client]
  | claim c => simp only [readBody, writeBody, FrameBody.kind, clientField, field_last, client]
  | decline c reason =>
    simp only [readBody, writeBody, FrameBody.kind, clientField, field_here, field_past, field_last, le_refl, Nat.sub_self, client,
      oneByte h]
  | bookSegment v o len index part =>
    obtain ⟨hv, ho, hl, hi, _⟩ := h
    simp only [readBody, writeBody, FrameBody.kind, List.append_assoc, field_here, field_past, drop_past, Nat.reduceLeDiff,
      Nat.reduceSub, List.drop_zero, fourBytes hv, oneByte ho, twoBytes hl, oneByte hi]
  | manifestRequest v => simp only [readBody, writeBody, FrameBody.kind, field_last, fourBytes h]
  | chunkRequest v b start count mode =>
    obtain ⟨hv, hb, hs, hc, hm⟩ := h
    simp only [readBody, writeBody, FrameBody.kind, List.append_assoc, field_here, field_past, field_last, Nat.reduceLeDiff,
      Nat.reduceSub, fourBytes hv, oneByte hb, twoBytes hs, oneByte hc, oneByte hm]
  | chunk v i data =>
    obtain ⟨hv, hi, _⟩ := h
    simp only [readBody, writeBody, FrameBody.kind, List.append_assoc, field_here, field_past, drop_past, Nat.reduceLeDiff,
      Nat.reduceSub, List.drop_zero, fourBytes hv, twoBytes hi]
  | chunkRefuse reason v b =>
    obtain ⟨hr, hv, hb⟩ := h
    simp only [readBody, writeBody, FrameBody.kind, List.append_assoc, field_here, field_past, field_last, Nat.reduceLeDiff,
      Nat.reduceSub, oneByte hr, fourBytes hv, oneByte hb]

/-! ### The lengths (R2) -/

theorem length_writeAdvert (a : Advert) : (writeAdvert a).length = 63 + 9 * a.sightings.length := by
  simp only [writeAdvert, List.length_append, length_beBytes]
  rw [length_flatMap_const (n := 9) (fun g => by simp [signedBytes])]

theorem length_writeHandover (h : Handover) : (writeHandover h).length = 13 + 7 * h.flows.length := by
  simp only [writeHandover, List.length_append, length_beBytes]
  rw [length_flatMap_const (n := 7) (fun g => by simp)]

theorem length_writeManifest {m : Manifest} (h : m.Fits) : (writeManifest m).length = 1038 := by
  obtain ⟨_, _, hlen⟩ := h
  simp only [writeManifest, manifestHead, crcBytes, List.length_append, length_beBytes]
  rw [length_crcs, hlen]

theorem field_count_handover {o : Handover} (h : o.Fits) : field (writeHandover o) 12 1 = o.flows.length := by
  obtain ⟨_, _, _, _, hlen, _⟩ := h
  simp only [writeHandover, List.append_assoc, field_here, field_past, Nat.reduceLeDiff, Nat.reduceSub, oneByte hlen]

/-- A body has the length that its kind and its count field call for. -/
theorem frameLengthOk_write {b : FrameBody} (h : b.Fits) : frameLengthOk b.kind (writeBody b) = true := by
  cases b with
  | advert a =>
    obtain ⟨_, _, _, _, _, _, _, _, _, _, _, _, _, hlen, _⟩ := h
    have hfield : field (writeAdvert a) 62 1 = a.sightings.length := by
      simp only [writeAdvert, List.append_assoc, field_here, field_past, Nat.reduceLeDiff, Nat.reduceSub, oneByte hlen]
    simp [frameLengthOk, FrameBody.kind, writeBody, hfield, length_writeAdvert]
  | offer o | context o =>
    simp [frameLengthOk, FrameBody.kind, writeBody, field_count_handover h, length_writeHandover]
  | manifest m => simp only [frameLengthOk, FrameBody.kind, writeBody, length_writeManifest h, beq_self_eq_true]
  | chunk v i data =>
    obtain ⟨_, _, hlen⟩ := h
    simp only [frameLengthOk, FrameBody.kind, writeBody, List.length_append, length_beBytes, hlen, Nat.reduceAdd, beq_self_eq_true]
  | bookSegment v o len index part =>
    simp only [frameLengthOk, FrameBody.kind, writeBody, List.length_append, length_beBytes, decide_eq_true_eq]
    omega
  | accept | claim | decline | bookRequest | manifestRequest | chunkRequest | chunkRefuse =>
    simp [frameLengthOk, FrameBody.kind, writeBody]

theorem length_writeBody {b : FrameBody} (h : b.Fits) : (writeBody b).length < 65536 := by
  have hok := frameLengthOk_write h
  cases b with
  | advert a =>
    obtain ⟨_, _, _, _, _, _, _, _, _, _, _, _, _, hlen, _⟩ := h
    rw [writeBody, length_writeAdvert]
    omega
  | offer o | context o =>
    obtain ⟨_, _, _, _, hlen, _⟩ := h
    rw [writeBody, length_writeHandover]
    omega
  | bookSegment v o len index part =>
    obtain ⟨_, _, _, _, hlen⟩ := h
    simp only [writeBody, List.length_append, length_beBytes]
    omega
  | accept | claim | decline | bookRequest | manifestRequest | manifest | chunkRequest | chunk | chunkRefuse =>
    simp only [frameLengthOk, FrameBody.kind, beq_iff_eq] at hok
    omega

theorem frameKindOf_code (k : FrameKind) : frameKindOf (BitVec.ofNat 8 k.code).toNat = some k := by
  cases k <;> rfl

/-- Settles O52: the checks of R2 pass by construction, and each field of a body reads back from its place. -/
theorem framesReadBack : Obligations.FramesReadBack := by
  unfold Obligations.FramesReadBack
  intro f ⟨hlo, hhi, hdest, hbody⟩
  have hsender : (BitVec.ofNat 8 f.sender).toNat = f.sender := Nat.mod_eq_of_lt (by omega)
  have hdest' : (BitVec.ofNat 8 f.dest).toNat = f.dest := Nat.mod_eq_of_lt hdest
  have hlen : (BitVec.ofNat 16 (writeBody f.body).length).toNat = (writeBody f.body).length :=
    Nat.mod_eq_of_lt (length_writeBody hbody)
  simp only [readFrame, writeFrame, frameKindOf_code, hsender, hdest', hlen, frameLengthOk_write hbody, readBody_write hbody, hlo,
    hhi, and_self, if_true]

end Sys2Proof.Machine
end

section
/-! SUPPORT. Proofs: a peer's timers (O32). -/

namespace Sys2Proof.Machine

theorem State.anyAdmitted_iff {s : State} : s.anyAdmitted = true ↔ ∃ j f, s.flow j = .used f ∧ f.state = .admitted := by
  have hslot : ∀ x : FlowSlot, x.isAdmitted = true ↔ ∃ f, x = .used f ∧ f.state = .admitted := fun x => by
    cases x <;> simp [FlowSlot.isAdmitted]
  simp only [State.anyAdmitted, List.any_eq_true, Vector.mem_toList_iff, hslot]
  constructor
  · rintro ⟨x, hx, f, rfl, hf⟩
    obtain ⟨i, hi, hget⟩ := Vector.mem_iff_getElem.mp hx
    exact ⟨⟨i, hi⟩, f, hget, hf⟩
  · rintro ⟨j, f, hj, hf⟩
    exact ⟨_, Vector.getElem_mem j.isLt, f, hj, hf⟩

theorem State.anyPeerGames_iff {s : State} : (s.freshPeers.any fun p => decide (0 < p.advert.reserved)) = true ↔
    ∃ q ∈ s.peers.table, q.fresh = true ∧ 0 < q.advert.reserved := by
  simp [State.freshPeers]

/-- The credits of `t` are those of `s` cut to the grant levels of R123. -/
def State.CreditsCut (s t : State) : Prop :=
  let admits := ∃ j f, s.flow j = .used f ∧ f.state = .admitted
  let games := ∃ q ∈ t.peers.table, q.fresh = true ∧ 0 < q.advert.reserved
  (admits → t.prio.pullCredits = min s.prio.pullCredits 2 ∧ t.prio.serveCredits = min s.prio.serveCredits 2) ∧
    (¬admits → games → t.prio.pullCredits = min s.prio.pullCredits 8) ∧
    (¬admits → ¬games → t.prio.pullCredits = min s.prio.pullCredits 32) ∧
    (¬admits → t.prio.serveCredits = min s.prio.serveCredits 32)

/-- The cut brings the credits down to their levels (R124). -/
theorem State.cutCredits_cut {s u : State} (h : u.prio = s.prio) : s.CreditsCut u.cutCredits := by
  have hlevels : u.cutCredits.prio.pullCredits = min s.prio.pullCredits u.pullLevel ∧
      u.cutCredits.prio.serveCredits = min s.prio.serveCredits u.serveLevel := by rw [← h]; exact ⟨rfl, rfl⟩
  have hadm : (∃ j f, s.flow j = .used f ∧ f.state = .admitted) ↔ u.anyAdmitted = true := by
    rw [State.anyAdmitted_iff]
    simp only [State.flow, h]
  have hgames : (∃ q ∈ u.cutCredits.peers.table, q.fresh = true ∧ 0 < q.advert.reserved) ↔ _ := u.anyPeerGames_iff.symm
  unfold State.CreditsCut
  rw [hlevels.1, hlevels.2, hadm, hgames]
  refine ⟨fun ha => ?_, fun ha hg => ?_, fun ha hg => ?_, fun ha => ?_⟩
  · simp [State.pullLevel, State.serveLevel, ha, Config.creditsOwnGame]
  · simp [State.pullLevel, ha, hg, Config.creditsPeerGame]
  · simp [State.pullLevel, ha, hg, Config.creditsOpen]
  · simp [State.serveLevel, ha, Config.creditsOpen]

/-- A removed entry is gone, and every other stands. -/
theorem State.peer_dropPeer (s : State) (id k : Nat) : (s.dropPeer id).peer k = if k = id then none else s.peer k := by
  simp only [State.peer, State.dropPeer, List.find?_filter]
  split
  · rename_i hk
    simp [hk]
  · rename_i hk
    refine congrArg (fun g => List.find? g s.peers.table) (funext fun p => ?_)
    by_cases hp : p.id = k
    · simp [hp, hk]
    · simp [hp]

/-- Settles O32: each expiry is a change of the table, the path cost and the credits, and a calm part's gates stay shut. -/
theorem peerTimersExpire : Obligations.PeerTimersExpire := by
  unfold Obligations.PeerTimersExpire
  intro s id p hr hm hcalm hp
  have hsettle : ∀ t : State, t.ev = s.ev → t.act = s.act → t.settleWith true = t := fun t he ha =>
    State.settleWith_clear true (he.trans hm) fun h => hcalm.1 (ha ▸ h.1)
  refine ⟨fun hf => ?_, ?_⟩
  · let u : State := (s.clockTo (p.heardAt + 4 * s.cfg.period)).mapPeer id fun q => { q with fresh := false }
    have hdue : s.freshnessDue id = some (p.heardAt + 4 * s.cfg.period) := by simp [State.freshnessDue, hp, hf]
    have hpeer : ∀ k, u.recomputePath.cutCredits.peer k =
        if k = id then (s.peer k).map fun q => { q with fresh := false } else s.peer k :=
      State.peer_mapPeer (f := fun q => { q with fresh := false }) (fun _ => rfl) (s.clockTo _) id
    refine ⟨u.recomputePath.cutCredits, congrArg Host.Outcome.next ?_, rfl, ?_, fun k hk => ?_, ?_, ?_⟩
    · rw [State.expire_due _ hr hdue]
      exact hsettle _ rfl rfl
    · rw [hpeer, if_pos rfl, hp]
      rfl
    · rw [hpeer, if_neg hk]
    · exact u.pathIsLeast_recomputePath.of_same rfl rfl rfl
    · exact State.cutCredits_cut rfl
  · let u : State := (s.clockTo (p.heardAt + 8 * s.cfg.period)).dropPeer id
    let v : State := u.recomputePath.raise (.peerLost id)
    have hdue : s.removalDue id = some (p.heardAt + 8 * s.cfg.period) := by simp [State.removalDue, hp]
    have hpeers : v.cutCredits.peers = u.recomputePath.peers := State.raise_peers _ _
    have hpeer : ∀ k, v.cutCredits.peer k = if k = id then none else s.peer k := fun k => by
      rw [State.peer, hpeers]
      exact State.peer_dropPeer (s.clockTo _) id k
    have hprio : v.prio = s.prio := State.raise_prio _ _
    refine ⟨v.cutCredits, congrArg Host.Outcome.next ?_, ?_, ?_, fun k hk => ?_, ?_, ?_, ?_, fun hn => ?_⟩
    · rw [State.expire_due _ hr hdue]
      exact hsettle _ (State.raise_ev _ _) (State.raise_act _ _)
    · exact State.raise_now _ _
    · rw [hpeer, if_pos rfl]
    · rw [hpeer, if_neg hk]
    · exact u.pathIsLeast_recomputePath.of_same (State.raise_cfg _ _) (by rw [hpeers]) (by rw [hpeers])
    · exact State.cutCredits_cut hprio
    · rw [hpeers]
      exact List.filter_congr fun g _ => by rw [bne, beq_eq_decide, decide_not]
    · have hroom : v = { u.recomputePath with port := { s.port with notices := s.port.notices ++ [.peerLost id] } } :=
        State.raise_room _ hn
      rw [show v.cutCredits.port = v.port from rfl, hroom]
      simp

end Sys2Proof.Machine
end

section
/-! SUPPORT. Proofs: what the store's and the pull and serve side's turns leave alone, and that they only grow the transmit
order. -/

namespace Sys2Proof.Machine

/-- The state less the Image Store, the Slot Table, the credits, the transmit side and the notices. -/
def State.aside (s : State) : State :=
  { s with
    store := State.reset.store
    dist := State.reset.dist
    prio := { s.prio with pullCredits := 0, serveCredits := 0 }
    pli := { s.pli with tx := [], txRun := false }
    port := { s.port with notices := [], overflow := false } }

/-- The parts one by one. -/
theorem State.aside_parts {s t : State} (h : t.aside = s.aside) :
    t.now = s.now ∧ t.seq = s.seq ∧ t.cfg = s.cfg ∧ t.peers = s.peers ∧ t.clients = s.clients ∧ t.time = s.time ∧
      t.sched = s.sched ∧ t.prio.flows = s.prio.flows ∧ t.act = s.act ∧ t.ev = s.ev ∧ t.pli.rx = s.pli.rx := by
  have part : ∀ {β : Type} (g : State → β), g t.aside = g s.aside := fun g => congrArg g h
  exact ⟨part State.now, part State.seq, part State.cfg, part State.peers, part State.clients, part State.time, part State.sched,
    part fun u => u.prio.flows, part State.act, part State.ev, part fun u => u.pli.rx⟩

theorem walk_aside {α : Type} {f : α → State → State} (h : ∀ x s, (f x s).aside = s.aside) (l : List α) (s : State) :
    (walk l f s).aside = s.aside := walk_same State.aside f h l s

theorem State.raise_aside (n : Notice) (s : State) : (s.raise n).aside = s.aside := by
  unfold State.raise
  split <;> rfl

theorem State.send_aside (dest : Nat) (b : FrameBody) (s : State) : (s.send dest b).aside = s.aside := by
  unfold State.send
  split
  · rfl
  · split
    · rfl
    · split
      · rfl
      · exact State.raise_aside _ _

theorem State.putSlotRecord_aside (k : SlotId) (r : SlotRecord) (s : State) : (s.putSlotRecord k r).aside = s.aside := by
  cases k <;> rfl

theorem State.mapBlock_aside (k : SlotId) (b : Nat) (f : Block → Block) (s : State) :
    (s.mapBlock k b f).aside = s.aside := State.putSlotRecord_aside _ _ _

theorem State.raiseRefused_aside (op : StoreOp) (s : State) : (s.raiseRefused op).aside = s.aside := by
  unfold State.raiseRefused
  split
  · exact State.raise_aside _ s
  · rfl

theorem State.markAccepted_aside (op : StoreOp) (s : State) : (s.markAccepted op).aside = s.aside := by
  unfold State.markAccepted
  split
  · rfl
  · split
    · exact State.putSlotRecord_aside _ _ s
    · exact State.putSlotRecord_aside _ _ s
    · exact State.putSlotRecord_aside _ _ s
    · rfl

theorem State.submit_aside (op : StoreOp) (s : State) : (s.submit op).1.aside = s.aside := by
  rcases State.submit_cases op s with ⟨h, _⟩ | ⟨h, _⟩ | ⟨_, _, _, _, ⟨_, _, h⟩ | ⟨_, h⟩⟩ <;> rw [h]
  · exact State.raiseRefused_aside op s
  · exact State.markAccepted_aside op _
  · exact State.markAccepted_aside op _

theorem State.submitManifest_aside (s : State) : s.submitManifest.aside = s.aside := by
  unfold State.submitManifest
  split
  · split
    · simp only
      split
      · exact (State.submit_aside _ s)
      · exact State.submit_aside _ s
    · rfl
  · rfl

theorem State.submitVerify_aside (k : SlotId) (v b : Nat) (s : State) : (s.submitVerify k v b).aside = s.aside := by
  unfold State.submitVerify
  split
  · exact (State.mapBlock_aside _ _ _ _).trans (State.submit_aside _ s)
  · rfl

theorem State.submitCheck_aside (k : SlotId) (v : Nat) (s : State) : (s.submitCheck k v).aside = s.aside := by
  unfold State.submitCheck
  split
  · exact (State.putSlotRecord_aside _ _ _).trans (State.submit_aside _ s)
  · rfl

theorem State.submitOwed_aside (s : State) : s.submitOwed.aside = s.aside := by
  unfold State.submitOwed
  simp only
  split
  · have h := fun l v => walk_aside (fun b => State.submitVerify_aside s.spareSlot v b) l s
    rw [State.submitManifest_aside]
    split
    · exact (State.submitCheck_aside _ _ _).trans (h _ _)
    · exact h _ _
  · rfl

theorem State.sendRequest_aside (r : SlotRecord) (v : Nat) (t : PullTarget) (p : PeerEntry) (s : State) :
    (s.sendRequest r v t p).aside = s.aside := (State.send_aside _ _ _).trans rfl

theorem State.pullStep_aside (s : State) : s.pullStep.aside = s.aside := by
  unfold State.pullStep
  simp only
  split
  · split
    · split
      · split
        · have h := fun l v => walk_aside (f := State.submitErase s.spareSlot v) (fun b => State.submit_aside _) l s
          split
          · exact h _ _
          · exact (State.sendRequest_aside _ _ _ _ _).trans (h _ _)
        · rfl
      · rfl
    · rfl
  · rfl

theorem serveTurns_aside (n : Nat) (s : State) : (serveTurns n s).aside = s.aside := by
  induction n generalizing s with
  | zero => rfl
  | succ n ih =>
    unfold serveTurns
    split
    · rfl
    · split
      · rfl
      · split
        · exact ih _
        · split
          · rfl
          · split
            · exact ih _
            · simp only
              have h := fun op => congrArg (fun u : State => { u with prio := { u.prio with serveCredits := 0 } })
                (State.submit_aside op s)
              split
              · exact h _
              · exact (ih _).trans (h _)

theorem State.serveEngine_aside (s : State) : s.serveEngine.aside = s.aside := serveTurns_aside _ s

/-! ### The transmit order and the notices grow -/

theorem Grows.after {s u t : State} (h : Grows u t) (hn : u.port.notices = s.port.notices) (ht : u.pli.tx = s.pli.tx) :
    Grows s t := ⟨hn ▸ h.notices, ht ▸ h.tx⟩

theorem State.submitManifest_grows (s : State) : Grows s s.submitManifest := by
  unfold State.submitManifest
  split
  · split
    · simp only
      split
      · exact (State.submit_grows _ s).trans ⟨List.prefix_rfl, List.prefix_rfl⟩
      · exact State.submit_grows _ s
    · exact .refl s
  · exact .refl s

theorem State.putSlotRecord_grows (k : SlotId) (r : SlotRecord) (s : State) : Grows s (s.putSlotRecord k r) := by
  cases k <;> exact ⟨List.prefix_rfl, List.prefix_rfl⟩

theorem State.submitVerify_grows (k : SlotId) (v b : Nat) (s : State) : Grows s (s.submitVerify k v b) := by
  unfold State.submitVerify
  split
  · exact (State.submit_grows _ s).trans (State.putSlotRecord_grows _ _ _)
  · exact .refl s

theorem State.submitCheck_grows (k : SlotId) (v : Nat) (s : State) : Grows s (s.submitCheck k v) := by
  unfold State.submitCheck
  split
  · exact (State.submit_grows _ s).trans (State.putSlotRecord_grows _ _ _)
  · exact .refl s

theorem State.submitOwed_grows (s : State) : Grows s s.submitOwed := by
  unfold State.submitOwed
  simp only
  split
  · have h := fun l v => Grows.walk (fun b => State.submitVerify_grows s.spareSlot v b) l s
    refine Grows.trans ?_ (State.submitManifest_grows _)
    split
    · exact (h _ _).trans (State.submitCheck_grows _ _ _)
    · exact h _ _
  · exact .refl s

theorem State.sendRequest_grows (r : SlotRecord) (v : Nat) (t : PullTarget) (p : PeerEntry) (s : State) :
    Grows s (s.sendRequest r v t p) := (State.send_grows _ _ _).after rfl rfl

theorem State.pullStep_grows (s : State) : Grows s s.pullStep := by
  unfold State.pullStep
  simp only
  split
  · split
    · split
      · split
        · have h := fun l v => Grows.walk (f := State.submitErase s.spareSlot v) (fun b => State.submit_grows _) l s
          split
          · exact h _ _
          · exact (h _ _).trans (State.sendRequest_grows _ _ _ _ _)
        · exact .refl s
      · exact .refl s
    · exact .refl s
  · exact .refl s

theorem serveTurns_grows (n : Nat) (s : State) : Grows s (serveTurns n s) := by
  induction n generalizing s with
  | zero => exact .refl s
  | succ n ih =>
    have quiet : ∀ {d : DistributionUnit}, Grows s { s with dist := d } := ⟨List.prefix_rfl, List.prefix_rfl⟩
    unfold serveTurns
    split
    · exact .refl s
    · split
      · exact .refl s
      · split
        · exact quiet.trans (ih _)
        · split
          · exact .refl s
          · split
            · exact quiet.trans (ih _)
            · simp only
              split
              · exact (State.submit_grows _ s).trans ⟨List.prefix_rfl, List.prefix_rfl⟩
              · exact (State.submit_grows _ s).trans ((ih _).after rfl rfl)

theorem State.serveEngine_grows (s : State) : Grows s s.serveEngine := serveTurns_grows _ s

/-- What an advert expiry does before the event's end, behind the ADVERT it builds (R9). -/
def State.advertTurns (s : State) : State := s.openCredits.submitOwed.pullStep.serveEngine

theorem State.advertTurns_aside (s : State) : s.advertTurns.aside = s.aside :=
  (State.serveEngine_aside _).trans ((State.pullStep_aside _).trans ((State.submitOwed_aside _).trans rfl))

theorem State.advertTurns_grows (s : State) : Grows s s.advertTurns :=
  (((Grows.of_beside (State.openCredits_beside s)).trans (State.submitOwed_grows _)).trans (State.pullStep_grows _)).trans
    (State.serveEngine_grows _)

end Sys2Proof.Machine
end

section
/-! SUPPORT. Proofs: sorting as the tables use it, and the ADVERT an expiry builds (O33). -/

namespace Sys2Proof.Machine

/-! ### Sorting -/

section
variable {α : Type}

theorem insertBy_perm (before : α → α → Bool) (x : α) (l : List α) : (insertBy before x l).Perm (x :: l) := by
  induction l with
  | nil => exact .refl _
  | cons a l ih =>
    simp only [insertBy]
    split
    · exact .refl _
    · exact (ih.cons a).trans (.swap x a l)

theorem sortBy_perm (before : α → α → Bool) (l : List α) : (sortBy before l).Perm l := by
  have h : ∀ xs acc : List α, (xs.foldl (fun ys x => insertBy before x ys) acc).Perm (xs ++ acc) := by
    intro xs
    induction xs with
    | nil => exact fun acc => .refl _
    | cons x xs ih => exact fun acc => (ih _).trans (((insertBy_perm before x acc).append_left xs).trans List.perm_middle)
  simpa [sortBy] using h l []

/-- Sorting keeps what tied elements had to one another: `R` is a relation that the list's order gives, the slot order say. -/
theorem sortBy_stable {before : α → α → Bool} {R : α → α → Prop} {l : List α} (hl : l.Pairwise R)
    (ht : ∀ a b c, before b a = false → before c b = false → before c a = false)
    (hto : ∀ a b, before a b = true → before b a = false) :
    (sortBy before l).Pairwise fun a b => before b a = false ∧ (before a b = false → R a b) := by
  have hins : ∀ (x : α) (acc : List α), (∀ a ∈ acc, R a x) →
      acc.Pairwise (fun a b => before b a = false ∧ (before a b = false → R a b)) →
      (insertBy before x acc).Pairwise (fun a b => before b a = false ∧ (before a b = false → R a b)) := by
    intro x acc
    induction acc with
    | nil => simp [insertBy]
    | cons a acc ih =>
      intro hx hp
      obtain ⟨ha, hp⟩ := List.pairwise_cons.mp hp
      obtain ⟨hxa, hx⟩ := List.forall_mem_cons.mp hx
      simp only [insertBy]
      split
      · rename_i h
        refine List.pairwise_cons.mpr ⟨fun b hb => ?_, List.pairwise_cons.mpr ⟨ha, hp⟩⟩
        rcases List.mem_cons.mp hb with rfl | hb
        · exact ⟨hto _ _ h, fun hf => by rw [h] at hf; cases hf⟩
        · exact ⟨ht _ _ _ (hto _ _ h) (ha b hb).1, fun hf => by rw [ht _ _ _ (ha b hb).1 hf] at h; cases h⟩
      · rename_i h
        refine List.pairwise_cons.mpr ⟨fun b hb => ?_, ih hx hp⟩
        rcases (mem_insertBy _ _ _ _).mp hb with rfl | hb
        · exact ⟨by simpa using h, fun _ => hxa⟩
        · exact ha b hb
  have h : ∀ xs acc : List α, xs.Pairwise R → (∀ x ∈ xs, ∀ a ∈ acc, R a x) →
      acc.Pairwise (fun a b => before b a = false ∧ (before a b = false → R a b)) →
      (xs.foldl (fun ys x => insertBy before x ys) acc).Pairwise
        (fun a b => before b a = false ∧ (before a b = false → R a b)) := by
    intro xs
    induction xs with
    | nil => exact fun acc _ _ hp => hp
    | cons x xs ih =>
      intro acc hxs hacc hp
      obtain ⟨hx, hxs⟩ := List.pairwise_cons.mp hxs
      obtain ⟨hxacc, hacc⟩ := List.forall_mem_cons.mp hacc
      refine ih _ hxs (fun y hy a ha => ?_) (hins x acc hxacc hp)
      rcases (mem_insertBy _ _ _ _).mp ha with rfl | ha
      · exact hx y hy
      · exact hacc y hy a ha
  exact h l [] hl (by simp) .nil

end

/-! ### The bitmap (R143) -/

theorem testBit_foldl_flags (f : Nat → Bool) (n i : Nat) :
    ((List.range n).foldl (fun a b => 2 * a + flagBit (f b)) 0).testBit i = (decide (i < n) && f (n - 1 - i)) := by
  induction n generalizing i with
  | zero => simp
  | succ n ih =>
    rw [List.range_succ, List.foldl_append, List.foldl_cons, List.foldl_nil]
    generalize (List.range n).foldl (fun a b => 2 * a + flagBit (f b)) 0 = v at ih
    have hbit : 2 * v + flagBit (f n) = Nat.bit (f n) v := by cases f n <;> simp [flagBit, Nat.bit]
    rw [hbit]
    cases i with
    | zero => simp
    | succ i =>
      rw [Nat.testBit_bit_succ, ih]
      congr 2
      · simp
      · omega

theorem marksBlock_bitmapOf (f : Nat → Bool) {b : Nat} (h : b < 256) : marksBlock (bitmapOf f) b = f b := by
  unfold marksBlock bitmapOf
  rw [BitVec.getMsbD_eq_getLsbD, BitVec.getLsbD_ofNat, testBit_foldl_flags]
  have hb : 256 - 1 - (256 - 1 - b) = b := by omega
  simp [h, hb]
  omega

/-! ### The slots that count for the target (R143) -/

theorem SlotRecord.targetVersion_eq_some {r : SlotRecord} {v : Nat} : r.targetVersion = some v ↔ r.Serves v := by
  unfold SlotRecord.targetVersion SlotRecord.Serves
  cases hs : r.state <;> simp
  exact and_comm

theorem SlotRecord.blockVerified_iff {r : SlotRecord} {b : Nat} : r.blockVerified b = true ↔ r.Verified b := by
  have hv : r.Verified b ↔ b < imageBlocks r.length ∧
      (r.state = .active ∨ r.state = .ready ∨ r.state = .retained ∨ r.state = .checking ∨ (r.block b).state = .verified) := Iff.rfl
  rw [hv, SlotRecord.blockVerified]
  cases hs : r.state <;> simp

theorem State.le_targetVersion {s : State} {k : SlotId} {v : Nat} (h : (s.slot k).Serves v) : v ≤ s.targetVersion := by
  rw [← SlotRecord.targetVersion_eq_some] at h
  unfold State.targetVersion
  cases k <;> simp [h]

theorem State.targetVersion_served (s : State) : s.targetVersion = 0 ∨ ∃ k, (s.slot k).Serves s.targetVersion := by
  have hslot : ∀ k, ((s.slot k).targetVersion.getD 0) = 0 ∨ (s.slot k).Serves ((s.slot k).targetVersion.getD 0) := fun k => by
    cases h : (s.slot k).targetVersion with
    | none => exact .inl rfl
    | some v => exact .inr (SlotRecord.targetVersion_eq_some.mp h)
  unfold State.targetVersion
  rcases max_choice ((s.slot .a).targetVersion.getD 0) ((s.slot .b).targetVersion.getD 0) with h | h <;> rw [h]
  · exact (hslot .a).imp id fun hs => ⟨.a, hs⟩
  · exact (hslot .b).imp id fun hs => ⟨.b, hs⟩

theorem State.bitmap_marks {s : State} {k : SlotId} (h : s.ServedBy s.targetVersion k) {b : Nat} (hb : b < 256) :
    marksBlock s.bitmap b = true ↔ (s.slot k).Verified b := by
  obtain ⟨hk, hfirst⟩ := h
  have htarget : s.targetSlot = some k := by
    simp only [State.targetSlot, SlotRecord.targetVersion_eq_some]
    cases k with
    | a => simp [hk]
    | b => simp [hk, hfirst.resolve_left]
  unfold State.bitmap
  rw [htarget, ← SlotRecord.blockVerified_iff]
  simp only
  rw [marksBlock_bitmapOf _ hb]

theorem State.bitmap_unserved {s : State} (h : s.Unserved s.targetVersion) : s.bitmap = 0 := by
  simp [State.bitmap, State.targetSlot, SlotRecord.targetVersion_eq_some, h.1, h.2]

/-! ### The sightings (R11) -/

theorem HeardEntry.stronger_eq_false {x y : HeardEntry} : y.stronger x = false ↔
    y.smoothed < x.smoothed ∨ (y.smoothed = x.smoothed ∧ x.client.toNat ≤ y.client.toNat) := by
  simp only [HeardEntry.stronger, Bool.or_eq_false_iff, decide_eq_false_iff_not, Bool.and_eq_false_iff, beq_eq_false_iff_ne]
  omega

/-- In the ranking of R11 no entry comes before a stronger one. -/
theorem stronger_ranked (l : List HeardEntry) : (sortBy HeardEntry.stronger l).Pairwise fun x y =>
    y.smoothed < x.smoothed ∨ (y.smoothed = x.smoothed ∧ x.client.toNat ≤ y.client.toNat) := by
  refine (sortBy_sorted HeardEntry.stronger l (fun a b c => ?_) fun a b h => ?_).imp HeardEntry.stronger_eq_false.mp
  · simp only [HeardEntry.stronger_eq_false]
    omega
  · rw [HeardEntry.stronger_eq_false]
    rcases Bool.eq_false_or_eq_true (b.stronger a) with hb | hb
    · simp only [HeardEntry.stronger, Bool.or_eq_true, decide_eq_true_eq, Bool.and_eq_true, beq_iff_eq] at h hb
      omega
    · exact HeardEntry.stronger_eq_false.mp hb

/-- The entries that an ADVERT's sightings are taken from, in their ranking. -/
def State.ranked (s : State) : List HeardEntry :=
  sortBy HeardEntry.stronger (s.clients.heard.filter fun e => s.now < e.last + Config.sightingLife)

theorem State.mem_ranked {s : State} {e : HeardEntry} :
    e ∈ s.ranked ↔ e ∈ s.clients.heard ∧ s.now < e.last + 3000 := by
  rw [State.ranked, mem_sortBy, List.mem_filter]
  exact and_congr_right fun _ => decide_eq_true_iff

/-- A listed sighting as its entry gives it. -/
def HeardEntry.listed (now : Nat) (e : HeardEntry) : AdvertSighting :=
  { client := e.client, smoothed := e.smoothed, age := (now - e.last) / 1000 }

theorem State.advertSightings_eq (s : State) : s.advertSightings = (s.ranked.take 16).map (HeardEntry.listed s.now) := rfl

theorem State.mem_advertSightings {s : State} {g : AdvertSighting} (h : g ∈ s.advertSightings) :
    ∃ e ∈ s.clients.heard, s.now < e.last + 3000 ∧ g = e.listed s.now := by
  rw [State.advertSightings_eq] at h
  obtain ⟨e, he, rfl⟩ := List.mem_map.mp h
  obtain ⟨hmem, hlive⟩ := State.mem_ranked.mp (List.mem_of_mem_take he)
  exact ⟨e, hmem, hlive, rfl⟩

theorem State.length_advertSightings (s : State) :
    s.advertSightings.length = min 16 (s.clients.heard.filter fun e => s.now < e.last + 3000).length := by
  rw [State.advertSightings_eq, List.length_map, List.length_take, State.ranked, length_sortBy]
  rfl

theorem State.advertSightings_distinct {s : State} (h : s.clients.heard.Pairwise fun x y => x.client ≠ y.client) :
    s.advertSightings.Pairwise fun x y => x.client ≠ y.client := by
  rw [State.advertSightings_eq, List.pairwise_map]
  exact List.Pairwise.take (((sortBy_perm _ _).pairwise_iff fun hab => hab.symm).mpr (h.filter _))

theorem State.advertSightings_ranked (s : State) : s.advertSightings.Pairwise fun x y =>
    y.smoothed < x.smoothed ∨ (y.smoothed = x.smoothed ∧ x.client.toNat ≤ y.client.toNat) := by
  rw [State.advertSightings_eq, List.pairwise_map]
  exact List.Pairwise.take (stronger_ranked _)

/-- An entry that is left out comes behind every one that is listed. -/
theorem State.advertSightings_first {s : State} {e : HeardEntry} (he : e ∈ s.clients.heard) (hlive : s.now < e.last + 3000)
    (hout : ∀ g ∈ s.advertSightings, g.client ≠ e.client) : ∀ g ∈ s.advertSightings,
      e.smoothed < g.smoothed ∨ (e.smoothed = g.smoothed ∧ g.client.toNat ≤ e.client.toNat) := by
  rw [State.advertSightings_eq] at hout ⊢
  have hmem : e ∈ s.ranked.take 16 ++ s.ranked.drop 16 := by
    rw [List.take_append_drop]
    exact State.mem_ranked.mpr ⟨he, hlive⟩
  have hdrop : e ∈ s.ranked.drop 16 := (List.mem_append.mp hmem).resolve_left fun h => hout _ (List.mem_map_of_mem h) rfl
  have hsort := stronger_ranked (s.clients.heard.filter fun e => s.now < e.last + Config.sightingLife)
  rw [← State.ranked, ← List.take_append_drop 16 s.ranked] at hsort
  intro g hg
  obtain ⟨x, hx, rfl⟩ := List.mem_map.mp hg
  exact (List.pairwise_append.mp hsort).2.2 x hx e hdrop

/-! ### The ADVERT -/

theorem State.clientCount_le (s : State) : s.clientCount ≤ 64 :=
  (List.length_filter_le _ _).trans (by simp)

/-- From a state within its ranges the ADVERT passes the checks of R13. -/
theorem State.buildAdvert_inRange {s : State} (hr : s.WithinRange) (ha : s.ownReserved ≤ s.cfg.ceiling) (hc : s.cfg.ceiling ≤ 800)
    (ho : s.sched.book.origin ≤ 63) : s.buildAdvert.inRange = true := by
  have hcount := s.clientCount_le
  refine Advert.inRange_iff.mpr ⟨hr.ownPath, hcount, Nat.sub_le _ _, Nat.add_sub_cancel' hcount,
    ha.trans (hc.trans (by decide)), hr.rank, ?_, ho, fun g hg => ?_⟩
  · exact (Nat.le_of_eq s.length_advertSightings).trans (min_le_left _ _)
  · obtain ⟨e, he, hlive, rfl⟩ := State.mem_advertSightings hg
    obtain ⟨_, hlo, hhi⟩ := hr.heard e he
    refine ⟨?_, hlo, hhi⟩
    simp only [HeardEntry.listed]
    omega

theorem State.placeAdvert_tx {s : State} (a : Advert) (hc : s.configured = true) :
    (s.placeAdvert a).pli.tx = (if s.pli.tx.any Frame.isAdvert then
      s.pli.tx.map (fun g => if g.isAdvert then { sender := s.cfg.nodeId, dest := 0, body := .advert a } else g)
      else s.pli.tx ++ [{ sender := s.cfg.nodeId, dest := 0, body := .advert a }]) := by
  unfold State.placeAdvert
  simp only [hc, Bool.not_true, Bool.false_eq_true, if_false]
  split <;> rfl

theorem State.placeAdvert_cfg (a : Advert) (s : State) : (s.placeAdvert a).cfg = s.cfg := by
  unfold State.placeAdvert
  simp only
  split
  · rfl
  · split <;> rfl

/-- What is left of an advert expiry once the ADVERT stands in its place and the timer runs (R9, R162). -/
def State.advertRest (s : State) : State :=
  (if s.advertTurns.act.state = .evacuating then s.advertTurns.pass.endCheck else s.advertTurns).settle

theorem State.pass_grows (s : State) : Grows s s.pass := Grows.walk State.evacuateSlot_grows _ _

theorem State.advertRest_grows (s : State) : Grows s s.advertRest := by
  refine s.advertTurns_grows.trans (Grows.trans ?_ (State.settle_grows _))
  split
  · exact (State.pass_grows _).trans (State.endCheck_grows _)
  · exact .refl _

theorem State.advertRest_advertDue (s : State) : s.advertRest.peers.advertDue = s.peers.advertDue := by
  obtain ⟨_, _, _, hpeers, _⟩ := State.aside_parts s.advertTurns_aside
  have hstill : s.advertRest.still = s.advertTurns.still := by
    unfold State.advertRest
    rw [State.settle_still]
    split
    · rw [State.endCheck_still, State.pass_still]
    · rfl
  exact (congrArg Still.advertDue hstill).trans (congrArg PeerUnit.advertDue hpeers)

/-- Settles O33: the ADVERT by its fields, then the turns behind it, which only add to the transmit order. -/
theorem advertExpiryBuildsAnAdvert : Obligations.AdvertExpiryBuildsAnAdvert := by
  unfold Obligations.AdvertExpiryBuildsAnAdvert
  intro s d hr hd hlo hhi
  let u : State := s.clockTo d
  have hc : u.configured = true := State.configured_iff.mpr ⟨hlo, hhi⟩
  let p : State := u.placeAdvert u.buildAdvert
  let v : State := { p with peers := { p.peers with advertDue := some (d + p.cfg.period) } }
  refine ⟨v.advertRest, u.buildAdvert, congrArg Host.Outcome.next (State.expire_due _ hr hd), ?_, rfl, rfl, rfl, rfl, rfl, rfl, rfl, rfl,
    fun k w => State.le_targetVersion (s := u), u.targetVersion_served, fun k b h hb => State.bitmap_marks (s := u) h hb,
    fun h => State.bitmap_unserved (s := u) h, rfl, rfl, rfl, rfl, ?_, ?_, rfl, ⟨u.length_advertSightings, fun h => ?_,
    u.advertSightings_ranked, fun e he hout => ?_⟩, fun g hg => ?_, fun hrange hair hceil horigin => ?_, ?_⟩
  · rw [State.advertRest_advertDue]
    exact congrArg (fun c : ActiveConfig => some (d + c.period)) (State.placeAdvert_cfg _ u)
  · exact beq_iff_eq
  · exact beq_iff_eq
  · exact State.advertSightings_distinct (s := u) h.heard
  · obtain ⟨hmem, hlive⟩ := List.mem_filter.mp he
    exact State.advertSightings_first (s := u) hmem (of_decide_eq_true hlive) hout
  · obtain ⟨e, he, hlive, rfl⟩ := State.mem_advertSightings hg
    exact ⟨e, he, rfl, rfl, hlive, rfl⟩
  · exact State.buildAdvert_inRange (s := u) { hrange with } hair.ceiling hceil horigin
  · have hgrows := v.advertRest_grows.tx
    rwa [show v.pli.tx = _ from State.placeAdvert_tx (s := u) u.buildAdvert hc] at hgrows

end Sys2Proof.Machine
end

section
/-! SUPPORT. Proofs: the flow list that an OFFER or CONTEXT carries (R52, R64, R113). -/

namespace Sys2Proof.Machine

theorem State.flowsWhere_slots (s : State) (p : FlowRecord → Bool) : (s.flowsWhere p).Pairwise fun x y => x.1 < y.1 := by
  refine List.pairwise_filterMap.mpr ((List.pairwise_lt_finRange 128).imp fun {i j} hij x hx y hy => ?_)
  have hslot : ∀ {k : Fin 128} {z : Fin 128 × FlowRecord}, (match s.flow k with
      | .used f => if p f then some (k, f) else none
      | .free => none
      | .release _ _ => none) = some z → z.1 = k := fun {k z} hz => by
    split at hz
    · split at hz <;> cases hz
      rfl
    · cases hz
    · cases hz
  rw [hslot hx, hslot hy]
  exact hij

/-- Flows in order of a time stand, among equals, in slot order. -/
theorem byTime_sorted (time : FlowRecord → Option Nat) {fs : List (Fin 128 × FlowRecord)} (h : fs.Pairwise fun x y => x.1 < y.1) :
    (byTime time fs).Pairwise fun x y =>
      (time x.2).getD 0 < (time y.2).getD 0 ∨ ((time x.2).getD 0 = (time y.2).getD 0 ∧ x.1 < y.1) := by
  refine (sortBy_stable h (fun a b c => ?_) fun a b => ?_).imp fun {x y} hxy => ?_
  · simp only [decide_eq_false_iff_not]
    omega
  · simp only [decide_eq_true_eq, decide_eq_false_iff_not]
    omega
  · obtain ⟨hle, htie⟩ := hxy
    simp only [decide_eq_false_iff_not, not_lt] at hle htie
    rcases Nat.lt_or_ge ((time x.2).getD 0) ((time y.2).getD 0) with hlt | hge
    · exact .inl hlt
    · exact .inr ⟨Nat.le_antisymm hle hge, htie hge⟩

/-- The first 8 of a client's carried flows, once they stand in their order. -/
theorem State.carriesFlows_take {s : State} {ctx : Bool} {c : ClientId} {l : List (Fin 128 × FlowRecord)}
    (hord : l.Pairwise (CarriedBefore ctx))
    (hmem : ∀ x, x ∈ l ↔ s.flow x.1 = .used x.2 ∧ x.2.client = c ∧ (x.2.carriedAt ctx).isSome = true) :
    s.CarriesFlows ctx c ((l.take 8).map fun x => x.2.carried) := by
  refine ⟨l.take 8, rfl, List.length_take_le _ _, hord.take, fun x hx => (hmem x).mp (List.mem_of_mem_take hx),
    fun j f hf hc hk => ?_⟩
  have hin : (j, f) ∈ l.take 8 ++ l.drop 8 := by
    rw [List.take_append_drop]
    exact (hmem _).mpr ⟨hf, hc, hk⟩
  rcases List.mem_append.mp hin with h | h
  · exact .inl h
  · have hlen : 8 < l.length := by
      by_contra hle
      rw [List.drop_eq_nil_of_le (Nat.le_of_not_lt hle)] at h
      cases h
    rw [← List.take_append_drop 8 l] at hord
    exact .inr ⟨by rw [List.length_take]; omega, fun x hx => (List.pairwise_append.mp hord).2.2 x hx _ h⟩

theorem FlowRecord.carriedAt_admitted {f : FlowRecord} (ctx : Bool) (h : f.state = .admitted) :
    f.carriedAt ctx = some (0, f.admittedAt.getD 0) := by rw [FlowRecord.carriedAt, h]

theorem FlowRecord.carriedAt_behind {f : FlowRecord} (h : f.state = .waiting ∨ f.state = .idle) :
    f.carriedAt true = some (1, f.classifiedAt.getD 0) := by
  rcases h with h | h <;> rw [FlowRecord.carriedAt, h] <;> rfl

theorem State.carriesFlows_offer (s : State) (c : ClientId) : s.CarriesFlows false c (s.offerFlows c) := by
  have hmem : ∀ x, x ∈ byTime FlowRecord.admittedAt (s.flowsWhere fun f => f.client == c && f.state == .admitted) ↔
      s.flow x.1 = .used x.2 ∧ x.2.client = c ∧ x.2.state = .admitted := fun x => by
    rw [mem_byTime, State.mem_flowsWhere, Bool.and_eq_true, beq_iff_eq, beq_iff_eq]
  have hat : ∀ f : FlowRecord, (f.carriedAt false).isSome = true ↔ f.state = .admitted := fun f => by
    cases h : f.state <;> simp [FlowRecord.carriedAt, h]
  refine State.carriesFlows_take ?_ fun x => (hmem x).trans (by rw [hat])
  refine (byTime_sorted FlowRecord.admittedAt (s.flowsWhere_slots _)).imp_of_mem fun {x y} hx hy h => ?_
  obtain ⟨_, _, hx⟩ := (hmem x).mp hx
  obtain ⟨_, _, hy⟩ := (hmem y).mp hy
  exact ⟨_, _, FlowRecord.carriedAt_admitted _ hx, FlowRecord.carriedAt_admitted _ hy, .inr ⟨rfl, h⟩⟩

theorem State.carriesFlows_context (s : State) (c : ClientId) : s.CarriesFlows true c (s.contextFlows c) := by
  have hadm : ∀ x, x ∈ byTime FlowRecord.admittedAt (s.flowsWhere fun f => f.client == c && f.state == .admitted) ↔
      s.flow x.1 = .used x.2 ∧ x.2.client = c ∧ x.2.state = .admitted := fun x => by
    rw [mem_byTime, State.mem_flowsWhere, Bool.and_eq_true, beq_iff_eq, beq_iff_eq]
  have hrest : ∀ x, x ∈ byTime FlowRecord.classifiedAt
      (s.flowsWhere fun f => f.client == c && (f.state == .waiting || f.state == .idle)) ↔
      s.flow x.1 = .used x.2 ∧ x.2.client = c ∧ (x.2.state = .waiting ∨ x.2.state = .idle) := fun x => by
    rw [mem_byTime, State.mem_flowsWhere, Bool.and_eq_true, Bool.or_eq_true, beq_iff_eq, beq_iff_eq, beq_iff_eq]
  have hat : ∀ f : FlowRecord, (f.carriedAt true).isSome = true ↔ f.state = .admitted ∨ f.state = .waiting ∨ f.state = .idle :=
    fun f => by cases h : f.state <;> simp [FlowRecord.carriedAt, h]
  refine State.carriesFlows_take (List.pairwise_append.mpr ⟨?_, ?_, fun x hx y hy => ?_⟩) fun x => ?_
  · refine (byTime_sorted FlowRecord.admittedAt (s.flowsWhere_slots _)).imp_of_mem fun {x y} hx hy h => ?_
    obtain ⟨_, _, hx⟩ := (hadm x).mp hx
    obtain ⟨_, _, hy⟩ := (hadm y).mp hy
    exact ⟨_, _, FlowRecord.carriedAt_admitted _ hx, FlowRecord.carriedAt_admitted _ hy, .inr ⟨rfl, h⟩⟩
  · refine (byTime_sorted FlowRecord.classifiedAt (s.flowsWhere_slots _)).imp_of_mem fun {x y} hx hy h => ?_
    obtain ⟨_, _, hx⟩ := (hrest x).mp hx
    obtain ⟨_, _, hy⟩ := (hrest y).mp hy
    exact ⟨_, _, FlowRecord.carriedAt_behind hx, FlowRecord.carriedAt_behind hy, .inr ⟨rfl, h⟩⟩
  · obtain ⟨_, _, hx⟩ := (hadm x).mp hx
    obtain ⟨_, _, hy⟩ := (hrest y).mp hy
    exact ⟨_, _, FlowRecord.carriedAt_admitted _ hx, FlowRecord.carriedAt_behind hy, .inl Nat.zero_lt_one⟩
  · rw [List.mem_append, hadm, hrest, hat]
    tauto

/-- What the carried list is read from is the Flow Table alone. -/
theorem State.CarriesFlows.of_flows {s t : State} {ctx : Bool} {c : ClientId} {gs : List CarriedFlow}
    (h : t.CarriesFlows ctx c gs) (hf : t.prio.flows = s.prio.flows) : s.CarriesFlows ctx c gs := by
  unfold State.CarriesFlows State.flow at h ⊢
  rwa [hf] at h

end Sys2Proof.Machine
end

section
/-! SUPPORT. Proofs: the evaluation of a record handed on (O25). -/

namespace Sys2Proof.Machine

theorem State.Holds.client_eq {s : State} {c : ClientId} {i : Fin 64} {r : ClientRecord} (h : s.Holds c i r) : r.client = c := by
  obtain ⟨r', hr', hc⟩ := State.findClient_some h.1
  rw [h.2] at hr'
  cases hr'
  exact hc

theorem State.hasAdmitted_iff {s : State} {c : ClientId} :
    s.hasAdmitted c = true ↔ ∃ j f, s.flow j = .used f ∧ f.client = c ∧ f.state = .admitted := by
  have hmem : ∀ x, x ∈ (s.flowsWhere fun f => f.client == c && f.state == .admitted) ↔
      s.flow x.1 = .used x.2 ∧ x.2.client = c ∧ x.2.state = .admitted := fun x => by
    rw [State.mem_flowsWhere, Bool.and_eq_true, beq_iff_eq, beq_iff_eq]
  unfold State.hasAdmitted
  rw [Bool.not_eq_true', ← Bool.not_eq_true, List.isEmpty_iff]
  refine ⟨fun h => ?_, fun ⟨j, f, h⟩ => List.ne_nil_of_mem ((hmem (j, f)).mpr h)⟩
  obtain ⟨x, hx⟩ := List.exists_mem_of_ne_nil _ h
  exact ⟨x.1, x.2, (hmem x).mp hx⟩

theorem State.mayTrigger_iff {s : State} {r : ClientRecord} {q : Int} : s.mayTrigger r q = true ↔
    s.cfg.steering = true ∧ r.steerable = true ∧ r.resistantUntil = none ∧
      (r.arrival + 30000 ≤ s.now ∨ q < 4 * s.cfg.weakFloor) := by
  simp only [State.mayTrigger, State.isWeak, Bool.and_eq_true, Bool.or_eq_true, decide_eq_true_eq, Option.isNone_iff_eq_none,
    and_assoc]
  exact Iff.rfl

/-- The margin of R46, from the case that holds. -/
theorem State.margin_eq {s : State} {r : ClientRecord} {q : Int} {m : Nat}
    (hweak : q < 4 * s.cfg.weakFloor → m = 8)
    (hgame : ¬q < 4 * s.cfg.weakFloor → (∃ j f, s.flow j = .used f ∧ f.client = r.client ∧ f.state = .admitted) →
      m = 8 * s.cfg.hysteresis)
    (hplain : ¬q < 4 * s.cfg.weakFloor → ¬(∃ j f, s.flow j = .used f ∧ f.client = r.client ∧ f.state = .admitted) →
      m = 4 * s.cfg.hysteresis) : s.margin r q = m := by
  unfold State.margin State.isWeak
  by_cases hw : q < 4 * s.cfg.weakFloor
  · simp [hw, hweak hw]
  · by_cases ha : ∃ j f, s.flow j = .used f ∧ f.client = r.client ∧ f.state = .admitted
    · simp [hw, State.hasAdmitted_iff.mpr ha, hgame hw ha]
    · simp [hw, State.hasAdmitted_iff, ha, hplain hw ha]

section
variable {s : State} {i : Fin 64} {r : ClientRecord} {q : Int}

theorem State.evaluateRecord_barred (h : ¬s.mayTrigger r q = true) :
    s.evaluateRecord i r q = s.putRecord i { r with candidate := none, confirm := 0 } := by
  simp [State.evaluateRecord, h]

theorem State.evaluateRecord_alone (h : s.mayTrigger r q = true) (hb : (s.examine r.client).bestCandidate r = none) :
    s.evaluateRecord i r q = (s.examine r.client).putRecord i { r with candidate := none, confirm := 0 } := by
  simp [State.evaluateRecord, h, hb]

/-- With a best candidate the evaluation goes by the margin and the candidate's count (R46, R47). -/
theorem State.evaluateRecord_best {p : Nat} {score : Int} (h : s.mayTrigger r q = true)
    (hb : (s.examine r.client).bestCandidate r = some (p, score)) :
    s.evaluateRecord i r q =
      if q + (s.examine r.client).margin r q ≤ score then
        if r.candidate = some p then
          if 2 ≤ r.confirm + 1 then (s.examine r.client).beginOffer i r p
          else (s.examine r.client).putRecord i { r with confirm := r.confirm + 1 }
        else (s.examine r.client).putRecord i { r with candidate := some p, confirm := 1 }
      else (s.examine r.client).putRecord i { r with candidate := none, confirm := 0 } := by
  simp [State.evaluateRecord, h, hb]

end

theorem State.evaluateNext_head {s : State} {c : ClientId} {rest : List ClientId} (hr : s.running = true)
    (hh : s.clients.handed = c :: rest) :
    s.evaluateNext = (State.evaluateClient c { s with clients := { s.clients with handed := rest } }).settle := by
  simp [State.evaluateNext, hh, hr]

/-- Settles O25: the record handed on first is evaluated by its trigger, its best candidate, the margin and the count. -/
theorem evaluationsCountOrOffer : Obligations.EvaluationsCountOrOffer := by
  unfold Obligations.EvaluationsCountOrOffer
  intro n s c rest i r hr hm hh hold now u v reset
  have hclient : r.client = c := hold.client_eq
  have hexec : exec (.evaluation n) s = .next ((State.evaluateClient c u).settle) :=
    congrArg Host.Outcome.next (State.evaluateNext_head (s := s.clockTo n) hr hh)
  have ends : ∀ {t : State}, State.evaluateClient c u = t → t.ev = u.ev → exec (.evaluation n) s = .next t := fun he hev => by
    rw [hexec, he, State.settle_of_ev (s := s) hm hev]
  have hfind : u.findClient c = some i := hold.1
  have hrec : u.record i = some r := hold.2
  have hexamine : u.examine r.client = v := by
    have hfilter : (u.peers.sightings.filter fun g => g.client != c || g.usable u.now) =
        u.peers.sightings.filter fun g => g.client ≠ c ∨ (now : Int) ≤ g.validity + 3000 := by
      refine List.filter_congr fun g _ => ?_
      rw [Bool.decide_or, decide_not, bne, beq_eq_decide]
      rfl
    rw [hclient]
    exact congrArg (fun l : List SightingEntry => { u with peers := { u.peers with sightings := l } }) hfilter
  refine ⟨fun h => ends ?_ rfl, fun q hst hsm => ?_⟩
  · unfold State.evaluateClient
    simp only [hfind, hrec]
    split
    · rename_i h1 h2
      rcases h with h | h
      · exact absurd h1 h
      · rw [h] at h2
        cases h2
    · rfl
  · have heval : State.evaluateClient c u = u.evaluateRecord i r q := by
      simp [State.evaluateClient, hfind, hrec, hst, hsm]
    intro weak eligible
    refine ⟨fun hne => ends (heval.trans (State.evaluateRecord_barred (mt State.mayTrigger_iff.mp hne))) rfl, fun he => ?_⟩
    have hmay : u.mayTrigger r q = true := State.mayTrigger_iff.mpr he
    refine ⟨fun hb => ends (heval.trans ?_) rfl, fun p score margin hb hweak hgame hplain => ?_⟩
    · rw [State.evaluateRecord_alone hmay (by rw [hexamine]; exact hb), hexamine]
    · have hbest := State.evaluateRecord_best (i := i) hmay (by rw [hexamine]; exact hb)
      have hmargin : v.margin r q = margin := State.margin_eq hweak (by rw [hclient]; exact hgame) (by rw [hclient]; exact hplain)
      rw [hexamine, hmargin] at hbest
      refine ⟨fun hlow => ends (heval.trans ?_) rfl, fun hhigh hnew => ends (heval.trans ?_) rfl,
        fun hhigh hsame hzero => ends (heval.trans ?_) rfl, fun hhigh hsame hone => ?_⟩
      · rw [hbest, if_neg (not_le.mpr hlow)]
      · rw [hbest, if_pos hhigh, if_neg hnew]
      · rw [hbest, if_pos hhigh, if_pos hsame, hzero, if_neg (by decide)]
      · refine ⟨s.offerFlows c, s.carriesFlows_offer c, ends (heval.trans ?_) (State.send_ev _ _ _)⟩
        rw [hbest, if_pos hhigh, if_pos hsame, hone, if_pos (by decide)]
        subst hclient
        rfl

end Sys2Proof.Machine
end

section
/-! SUPPORT. Proofs: a CLAIM answered (O17). What was deleted does not come back at the event's end. -/

namespace Sys2Proof.Machine

/-- From `s` to `t` no record, directive mark, flow or sighting appears that was not there. -/
structure Ebbs (s t : State) : Prop where
  records : ∀ i, s.record i = none → t.record i = none
  access : ∀ i : Fin 64, s.record i = none → s.port.dirty.access[i] = false → t.port.dirty.access[i] = false
  steer : ∀ i : Fin 64, s.record i = none → s.port.dirty.steer[i] = false → t.port.dirty.steer[i] = false
  flows : ∀ j f, t.flow j = .used f → ∃ f', s.flow j = .used f' ∧ f'.client = f.client
  sightings : ∀ g ∈ t.peers.sightings, g ∈ s.peers.sightings

theorem Ebbs.refl (s : State) : Ebbs s s := ⟨fun _ => id, fun _ _ => id, fun _ _ => id, fun _ f h => ⟨f, h, rfl⟩, fun _ => id⟩

theorem Ebbs.trans {s t u : State} (h : Ebbs s t) (k : Ebbs t u) : Ebbs s u where
  records i hi := k.records i (h.records i hi)
  access i hi ha := k.access i (h.records i hi) (h.access i hi ha)
  steer i hi ha := k.steer i (h.records i hi) (h.steer i hi ha)
  flows j f hf := by
    obtain ⟨f1, hf1, hc1⟩ := k.flows j f hf
    obtain ⟨f2, hf2, hc2⟩ := h.flows j f1 hf1
    exact ⟨f2, hf2, hc2.trans hc1⟩
  sightings g hg := h.sightings g (k.sightings g hg)

theorem Ebbs.walk {α : Type} {f : α → State → State} (h : ∀ x s, Ebbs s (f x s)) (xs : List α) (s : State) :
    Ebbs s (walk xs f s) := walk_keeps (fun t => Ebbs s t) f (fun x _ ht => ht.trans (h x _)) xs s (.refl s)

/-- What was released stays released. -/
theorem Ebbs.released {s t : State} (h : Ebbs s t) {c : ClientId} {i : Fin 64} (hs : s.Released c i) : t.Released c i := by
  obtain ⟨hr, ha, hst, hf, hg⟩ := hs
  refine ⟨h.records i hr, h.access i hr ha, h.steer i hr hst, fun j f hj => ?_, fun g hm => hg g (h.sightings g hm)⟩
  obtain ⟨f', hj', hc⟩ := h.flows j f hj
  exact hc ▸ hf j f' hj'

theorem Ebbs.of_same {s t : State} (hc : t.clients.table = s.clients.table) (hf : t.prio.flows = s.prio.flows)
    (hp : t.peers = s.peers) (ha : t.port.dirty.access = s.port.dirty.access) (hs : t.port.dirty.steer = s.port.dirty.steer) :
    Ebbs s t := by
  refine ⟨fun i => ?_, fun i _ => ?_, fun i _ => ?_, fun j f h => ⟨f, ?_, rfl⟩, fun g => ?_⟩
  · rw [State.record, State.record, hc]; exact id
  · rw [ha]; exact id
  · rw [hs]; exact id
  · rw [State.flow, hf] at h; exact h
  · rw [hp]; exact id

theorem Ebbs.after {s u t : State} (h : Ebbs u t) (hc : u.clients.table = s.clients.table) (hf : u.prio.flows = s.prio.flows)
    (hp : u.peers = s.peers) (ha : u.port.dirty.access = s.port.dirty.access) (hs : u.port.dirty.steer = s.port.dirty.steer) :
    Ebbs s t := (Ebbs.of_same hc hf hp ha hs).trans h

theorem Ebbs.of_aside {s t : State} (h : t.aside = s.aside) : Ebbs s t :=
  have part : ∀ {β : Type} (g : State → β), g t.aside = g s.aside := fun g => congrArg g h
  .of_same (part fun u => u.clients.table) (part fun u => u.prio.flows) (part State.peers) (part fun u => u.port.dirty.access)
    (part fun u => u.port.dirty.steer)

/-! ### Flows -/

theorem State.putFlow_marks (j : Fin 128) (x : FlowSlot) (s : State) :
    (s.putFlow j x).port.dirty.access = s.port.dirty.access ∧ (s.putFlow j x).port.dirty.steer = s.port.dirty.steer := by
  unfold State.putFlow
  simp only
  split <;> exact ⟨rfl, rfl⟩

theorem State.putFlow_ebbs {j : Fin 128} {x : FlowSlot} {s : State}
    (h : ∀ f, x = .used f → ∃ f', s.flow j = .used f' ∧ f'.client = f.client) : Ebbs s (s.putFlow j x) := by
  obtain ⟨ha, hst⟩ := State.putFlow_marks j x s
  have hsame := State.putFlow_same j x s
  refine ⟨fun i => ?_, fun i _ => ?_, fun i _ => ?_, fun k f hf => ?_, fun g => ?_⟩
  · rw [State.record, State.record, hsame.2.2.2.2.2.2.1]; exact id
  · rw [ha]; exact id
  · rw [hst]; exact id
  · by_cases hjk : j = k
    · subst hjk
      rw [State.flow_putFlow_same] at hf
      exact h f hf
    · rw [State.flow_putFlow_other _ _ _ _ hjk] at hf
      exact ⟨f, hf, rfl⟩
  · rw [hsame.2.2.2.2.2.1]; exact id

theorem State.testFlow_ebbs (j : Fin 128) (s : State) : Ebbs s (s.testFlow j) := by
  unfold State.testFlow
  split
  · rename_i f hf
    have hput : ∀ f1 : FlowRecord, f1.client = f.client → Ebbs s (s.putFlow j (.used f1)) := fun f1 hc =>
      State.putFlow_ebbs fun f2 h2 => ⟨f, hf, by cases h2; exact hc.symm⟩
    split
    · split
      · exact hput _ rfl
      · exact hput _ rfl
    · exact .refl s
  · exact .refl s
  · exact .refl s

theorem State.removeFlow_ebbs (j : Fin 128) (s : State) : Ebbs s (s.removeFlow j) := by
  unfold State.removeFlow
  split
  · exact State.putFlow_ebbs fun f h => by split at h <;> cases h
  · exact .refl s
  · exact .refl s

theorem State.removeClientFlows_ebbs (c : ClientId) (s : State) : Ebbs s (s.removeClientFlows c) :=
  Ebbs.walk State.removeFlow_ebbs _ _

theorem State.round_ebbs (s : State) : Ebbs s s.round := Ebbs.walk State.testFlow_ebbs _ _

/-! ### Records -/

theorem State.deleteSlot_eq {s : State} {i : Fin 64} {r : ClientRecord} (h : s.record i = some r) :
    s.deleteSlot i = State.setSteerMark i false (State.setAccessMark i false
      { s.removeClientFlows r.client with
        clients := { (s.removeClientFlows r.client).clients with
          table := putSlot (s.removeClientFlows r.client).clients.table i none }
        peers := { (s.removeClientFlows r.client).peers with
          sightings := (s.removeClientFlows r.client).peers.sightings.filter fun g => g.client != r.client }
        ev := { (s.removeClientFlows r.client).ev with departed := true } }) := by
  rw [State.deleteSlot, h]

/-- A deleted record takes its client's flows, sightings and directive marks along (R29). -/
theorem State.deleteSlot_released {s : State} {i : Fin 64} {r : ClientRecord} (h : s.record i = some r) :
    (s.deleteSlot i).Released r.client i := by
  have heq := State.deleteSlot_eq h
  refine ⟨by rw [State.record_deleteSlot, if_pos rfl], ?_, ?_, fun j f hf => ?_, fun g hg => ?_⟩
  · rw [heq]
    exact putSlot_get_same _ _ _
  · rw [heq]
    exact putSlot_get_same _ _ _
  · rw [heq] at hf
    exact (State.removeClientFlows_flow (s := s) hf).2
  · rw [heq] at hg
    exact bne_iff_ne.mp (List.mem_filter.mp hg).2

theorem State.deleteSlot_ebbs (i : Fin 64) (s : State) : Ebbs s (s.deleteSlot i) := by
  cases h : s.record i with
  | none =>
    have heq : s.deleteSlot i = s := by rw [State.deleteSlot, h]
    rw [heq]
    exact .refl s
  | some r =>
    have heq := State.deleteSlot_eq h
    have hcl := s.removeClientFlows_ebbs r.client
    refine ⟨fun k hk => ?_, fun k hk ha => ?_, fun k hk ha => ?_, fun j f hf => ?_, fun g hg => ?_⟩
    · rw [State.record_deleteSlot, hk, ite_self]
    · rw [heq]
      by_cases hik : i = k
      · subst hik
        exact putSlot_get_same _ _ _
      · exact (putSlot_get_other _ _ _ _ hik).trans (hcl.access k hk ha)
    · rw [heq]
      by_cases hik : i = k
      · subst hik
        exact putSlot_get_same _ _ _
      · exact (putSlot_get_other _ _ _ _ hik).trans (hcl.steer k hk ha)
    · rw [heq] at hf
      exact hcl.flows j f hf
    · rw [heq] at hg
      exact hcl.sightings g (List.mem_filter.mp hg).1

theorem State.putRecord_ebbs {s : State} {i : Fin 64} {r : ClientRecord} (r1 : ClientRecord) (h : s.record i = some r) :
    Ebbs s (s.putRecord i r1) := by
  refine ⟨fun k hk => ?_, fun _ _ => id, fun _ _ => id, fun _ f hf => ⟨f, hf, rfl⟩, fun _ => id⟩
  by_cases hik : i = k
  · subst hik
    rw [h] at hk
    cases hk
  · rw [State.record_putRecord_other _ _ _ _ hik, hk]

theorem State.examine_ebbs (c : ClientId) (s : State) : Ebbs s (s.examine c) :=
  ⟨fun _ => id, fun _ _ => id, fun _ _ => id, fun _ f hf => ⟨f, hf, rfl⟩, fun _ hg => (List.mem_filter.mp hg).1⟩

theorem State.evacuateSlot_ebbs (i : Fin 64) (s : State) : Ebbs s (s.evacuateSlot i) := by
  unfold State.evacuateSlot
  split
  · rename_i r hr
    split
    · simp only
      split
      · split
        · refine (State.examine_ebbs r.client s).trans ?_
          unfold State.beginOffer
          exact (State.putRecord_ebbs (s := s.examine r.client) _ hr).trans (.of_aside (State.send_aside _ _ _))
        · exact State.examine_ebbs _ s
      · exact State.examine_ebbs _ s
    · exact .refl s
  · exact .refl s

/-! ### The event's end -/

theorem State.beginEvacuation_ebbs (s : State) : Ebbs s s.beginEvacuation := by
  have h1 : Ebbs s { s with act := { s.act with state := .evacuating, evacuationDue := some (s.now + Config.evacuationLimit) } } :=
    .of_same rfl rfl rfl rfl rfl
  exact h1.trans ((Ebbs.walk State.deleteSlot_ebbs _ _).trans (Ebbs.walk State.evacuateSlot_ebbs _ _))

theorem State.submitSelector_ebbs (w : RetriedWrite) (s : State) : Ebbs s (s.submitSelector w).1 := by
  unfold State.submitSelector
  simp only
  split
  · exact (Ebbs.of_aside (State.submit_aside _ s)).trans (.of_same rfl rfl rfl rfl rfl)
  · exact .of_aside (State.submit_aside _ s)

theorem State.reopen_ebbs (s : State) : Ebbs s s.reopen := by
  have h : Ebbs s { s with act := { s.act with state := .waiting } } := .of_same rfl rfl rfl rfl rfl
  unfold State.reopen
  simp only
  split
  · exact h.trans (State.beginEvacuation_ebbs _)
  · exact h

theorem State.commit_ebbs (s : State) : Ebbs s s.commit := by
  have h : ∀ w : RetriedWrite, Ebbs s (State.submitSelector w
      { s with act := { s.act with state := .committing, evacuationDue := none }
               store := { s.store with orders := s.store.orders + 1 } }).1 := fun w =>
    (State.submitSelector_ebbs w _).after rfl rfl rfl rfl rfl
  unfold State.commit State.newWrite
  simp only
  split
  · exact h _
  · exact (h _).trans (State.reopen_ebbs _)

theorem State.endCheck_ebbs (s : State) : Ebbs s s.endCheck := by
  unfold State.endCheck
  split
  · exact State.commit_ebbs s
  · exact .refl s

theorem State.gateTest_ebbs (s : State) : Ebbs s s.gateTest := by
  unfold State.gateTest
  split
  · exact (State.beginEvacuation_ebbs s).trans (State.endCheck_ebbs _)
  · exact .refl s

theorem State.retest_ebbs (s : State) : Ebbs s s.retest := by
  unfold State.retest
  split
  · exact (State.round_ebbs _).after rfl rfl rfl rfl rfl
  · exact .refl s

theorem State.priorityEnd_ebbs (s : State) : Ebbs s s.priorityEnd := by
  have hpace : ∀ u : State, Ebbs u u.workPace.cutCredits := fun u => by
    unfold State.workPace
    split <;> exact .of_same rfl rfl rfl rfl rfl
  unfold State.priorityEnd
  split
  · exact (State.retest_ebbs s).trans (hpace _)
  · exact State.retest_ebbs s

theorem State.settleWith_ebbs (test : Bool) (s : State) : Ebbs s (s.settleWith test) := by
  have hgate : ∀ u : State, Ebbs u (if test || u.ev.admittedChanged then u.gateTest else u) := fun u => by
    split
    · exact State.gateTest_ebbs u
    · exact .refl u
  have hend : ∀ u : State, Ebbs u (if u.ev.departed then u.endCheck else u) := fun u => by
    split
    · exact State.endCheck_ebbs u
    · exact .refl u
  exact ((((State.retest_ebbs s).trans (hgate _)).trans (State.priorityEnd_ebbs _)).trans (hend _)).trans
    (.of_same rfl rfl rfl rfl rfl)

end Sys2Proof.Machine
end

section
/-! SUPPORT. Proofs: a CLAIM answered (O17), put together. -/

namespace Sys2Proof.Machine

/-! ### The end of an event in a calm part -/

theorem State.act_of_beside {s t : State} (h : t.beside = s.beside) : t.act = s.act :=
  show t.beside.act = s.beside.act from congrArg State.act h

theorem State.notices_of_beside {s t : State} (h : t.beside = s.beside) : t.port.notices = s.port.notices :=
  show t.beside.port.notices = s.beside.port.notices from congrArg (fun u : State => u.port.notices) h

/-- In a calm part the end of an event is the Priority Unit's alone. -/
theorem State.settleWith_calm {s : State} (test : Bool) (h : s.Calm) :
    s.settleWith test = { s.retest.priorityEnd with ev := EventMarks.clear } := by
  have hact : s.retest.priorityEnd.act = s.act :=
    (State.act_of_beside (State.priorityEnd_beside _)).trans (State.act_of_beside (State.retest_beside s))
  have hgate : s.retest.gateTest = s.retest := by
    have hw : s.retest.act.state ≠ .waiting := by rw [State.act_of_beside (State.retest_beside s)]; exact h.1
    simp [State.gateTest, hw]
  have hend : s.retest.priorityEnd.endCheck = s.retest.priorityEnd := by
    have he : s.retest.priorityEnd.act.state ≠ .evacuating := by rw [hact]; exact h.2
    simp [State.endCheck, he]
  simp only [State.settleWith, hgate, ite_self, hend]

theorem State.retest_clients (s : State) : s.retest.clients = s.clients := by
  unfold State.retest
  split
  · exact walk_same State.clients State.testFlow State.testFlow_clients _ _
  · rfl

theorem State.priorityEnd_clients (s : State) : s.priorityEnd.clients = s.clients := by
  have hpace : ∀ u : State, u.workPace.cutCredits.clients = u.clients := fun u => by
    unfold State.workPace
    split <;> rfl
  unfold State.priorityEnd
  split
  · exact (hpace _).trans s.retest_clients
  · exact s.retest_clients

theorem State.settleWith_clients {s : State} (test : Bool) (h : s.Calm) : (s.settleWith test).clients = s.clients := by
  rw [State.settleWith_calm test h]
  exact (State.priorityEnd_clients _).trans s.retest_clients

/-! ### The release -/

section
variable {s : State} {i : Fin 64} {r : ClientRecord} (claimer : Nat)

/-- A record that is released leaves its slot, and the CONTEXT goes out before it goes (R58, R63, R29). -/
theorem State.releaseTo_released (h : s.record i = some r) : (s.releaseTo i r claimer).Released r.client i := by
  have hsent : (s.send claimer (.context (s.contextOf r))).record i = some r := by
    rw [State.record, State.send_clients]
    exact h
  exact (Ebbs.of_aside (State.raise_aside _ _)).released (State.deleteSlot_released hsent)

theorem State.releaseTo_record {k : Fin 64} (h : k ≠ i) : (s.releaseTo i r claimer).record k = s.record k := by
  rw [State.releaseTo, State.record, State.raise_clients, ← State.record, State.record_deleteSlot, if_neg (Ne.symm h), State.record,
    State.send_clients, State.record]

theorem State.releaseTo_act : (s.releaseTo i r claimer).act = s.act := by
  rw [State.releaseTo, State.raise_act, State.act_of_beside (State.deleteSlot_beside _ _), State.send_act]

/-- The CONTEXT is in the transmit order while there is room (R64). -/
theorem State.releaseTo_tx (hc : s.configured = true) (htx : s.txCount < 12) :
    { sender := s.cfg.nodeId, dest := claimer, body := .context (s.contextOf r) } ∈ (s.releaseTo i r claimer).pli.tx := by
  have hgrows : Grows (s.send claimer (.context (s.contextOf r))) (s.releaseTo i r claimer) :=
    (Grows.of_beside (State.deleteSlot_beside _ _)).trans (State.raise_grows _ _)
  refine hgrows.mem_tx ?_
  rw [State.send_placed _ _ hc htx]
  simp [State.placeFrame]

/-- HANDOFF-DONE is in the FIFO unless the TX-OVERFLOW of a dropped CONTEXT takes the last place (R7, R176). -/
theorem State.releaseTo_notice (h : s.port.notices.length < 15 ∨
    (s.port.notices.length = 15 ∧ (s.txCount < 12 ∨ s.pli.txRun = true))) :
    .handoffDone r.client claimer ∈ (s.releaseTo i r claimer).port.notices := by
  have hsend : (s.send claimer (.context (s.contextOf r))).port.notices.length ≤ 15 := by
    unfold State.send
    split
    · omega
    · split
      · exact (by omega : s.port.notices.length ≤ 15)
      · rename_i hfull
        split
        · omega
        · rename_i hrun
          have hlen : s.port.notices.length < 15 := h.resolve_right fun ⟨_, hor⟩ => hor.elim (fun hlt => hfull hlt) hrun
          unfold State.raise
          split
          · simpa using Nat.succ_le_of_lt hlen
          · exact hlen.le
  have hdel : ((s.send claimer (.context (s.contextOf r))).deleteSlot i).port.notices =
      (s.send claimer (.context (s.contextOf r))).port.notices :=
    State.notices_of_beside (State.deleteSlot_beside i _)
  exact State.raise_mem _ _ (by rw [hdel]; exact Nat.lt_succ_of_le hsend)

end

theorem State.contextOf_eq {s : State} {r : ClientRecord} : s.contextOf r =
    { client := r.client
      used := if r.state = .provisional then fallbackFigure (s.sched.book.profileAt r.profile).allowance s.cfg.fallback r.used
        else r.used
      dayStamp := r.dayStamp, profile := r.profile, access := 0, flows := s.contextFlows r.client } := by
  unfold State.contextOf State.contextUsed countedFigure
  cases r.state <;> rfl

/-- Settles O17: both frames release the record; the end of the event brings nothing of it back and drops no frame or notice. -/
theorem claimsReleaseTheRecord : Obligations.ClaimsReleaseTheRecord := by
  unfold Obligations.ClaimsReleaseTheRecord
  intro n s f rest c cmd hhead hm
  refine ⟨fun i r hold hcmd => ?_, fun hbody harr => ?_⟩
  · let u : State := s.taking n rest
    have hclient : r.client = c := hold.client_eq
    have hfind : u.findClient c = some i := hold.1
    have hrec : u.record i = some r := hold.2
    have hexec : exec cmd s = .next (u.releaseTo i r f.sender).settle := by
      rcases hcmd with ⟨rfl, hbody, hst⟩ | ⟨rfl, hbody, hst, htarget⟩
      · refine congrArg Host.Outcome.next ?_
        rw [State.onFrame_head _ n hhead (by rw [hbody]; rfl)]
        refine congrArg State.settle (?_ : State.onClaim f u = _)
        unfold State.onClaim State.takeClaim
        rw [hbody]
        simp only [hfind, hrec, hst, if_false]
      · refine congrArg Host.Outcome.next ?_
        rw [State.onFrame_head _ n hhead (by rw [hbody]; rfl)]
        refine congrArg State.settle (?_ : State.onDecline f u = _)
        unfold State.onDecline State.takeDecline
        rw [hbody]
        simp [hfind, hrec, hst, htarget]
    have hgrows := State.settle_grows (u.releaseTo i r f.sender)
    refine ⟨_, hexec, ?_, fun hcalm k hk => ?_, fun hnotice => ?_, fun hlo hhi htx => ?_⟩
    · rw [← hclient]
      exact (State.settleWith_ebbs false _).released (State.releaseTo_released _ hrec)
    · have hcalm' : (u.releaseTo i r f.sender).Calm := by
        rw [State.Calm, State.releaseTo_act]
        exact hcalm
      have hclients : (u.releaseTo i r f.sender).settle.clients = _ := State.settleWith_clients false hcalm'
      rw [State.record, hclients]
      exact State.releaseTo_record _ hk
    · rw [← hclient]
      exact hgrows.mem_notices (State.releaseTo_notice (s := u) f.sender hnotice)
    · refine ⟨s.contextFlows c, s.carriesFlows_context c, ?_⟩
      have htx' := hgrows.mem_tx (State.releaseTo_tx (s := u) (r := r) (i := i) f.sender (State.configured_iff.mpr ⟨hlo, hhi⟩) htx)
      rw [State.contextOf_eq, hclient] at htx'
      exact htx'
  · refine congrArg Host.Outcome.next ?_
    rw [State.onFrame_head _ n hhead (by rw [hbody]; rfl)]
    have htake : State.onClaim f (s.taking n rest) = s.taking n rest := by
      unfold State.onClaim State.takeClaim
      rw [hbody]
      simp only
      split
      · rename_i i hi
        split
        · rename_i r hr
          rw [if_pos (harr i r ⟨hi, hr⟩)]
        · rfl
      · rfl
    rw [htake]
    exact State.settle_of_ev hm rfl

end Sys2Proof.Machine
end

section
/-! SUPPORT. Proofs: selector writes submitted to an idle store, and the end of an event of an evacuating part (O47). -/

namespace Sys2Proof.Machine

/-! ### A selector write goes into flight (R131, R134) -/

/-- A selector write directed to a copy and sequence number. -/
def RetriedWrite.op (w : RetriedWrite) (q : CopyId × Nat) : StoreOp :=
  { owner := w.owner, kind := .selectorWrite w.order w.purpose w.sel (some q) }

/-- On an idle store an operation that passes the checks goes into flight. -/
theorem State.submit_idle {s : State} {op : StoreOp} (h : s.StoreIdle) (hr : s.outOfRange op = false)
    (hp : op.isProtected s.act.sel = false) (hs : s.slotStateOk op = true) :
    s.submit op = (State.markAccepted op (s.flying (s.store.direct op)), .accepted) := by
  obtain ⟨hidle, hnone⟩ := h
  unfold State.submit
  rw [if_neg (by simp [hr]), if_neg (by simp [hp]), if_neg (by simp [hs]), if_pos ⟨by rw [hidle]; rfl, hnone⟩]
  rfl

section
variable {s : State} {w : RetriedWrite}

theorem State.submit_selector_idle (h : s.StoreIdle) (ho : w.owner = .activation ∨ w.owner = .start) :
    s.submit { owner := w.owner, kind := .selectorWrite w.order w.purpose w.sel none } = (s.flying (w.op s.nextSelector), .accepted) := by
  have hstate : s.slotStateOk { owner := w.owner, kind := .selectorWrite w.order w.purpose w.sel none } = true := by
    unfold State.slotStateOk
    split <;> rfl
  have hprot : StoreOp.isProtected s.act.sel { owner := w.owner, kind := .selectorWrite w.order w.purpose w.sel none } = false := by
    rcases ho with ho | ho <;> rw [StoreOp.isProtected, ho] <;> rfl
  rw [State.submit_idle h rfl hprot hstate]
  unfold State.markAccepted
  split <;> rfl

theorem State.submitSelector_idle (h : s.StoreIdle) (ho : w.owner = .activation) : s.submitSelector w =
    ({ s.flying (w.op s.nextSelector) with act := { s.act with writeInFlight := true } }, .accepted) := by
  unfold State.submitSelector
  simp only
  rw [State.submit_selector_idle h (.inl ho), if_pos ⟨rfl, ho⟩]
  rfl

theorem State.submitRetried_idle (h : s.StoreIdle) (ho : w.owner = .activation) : s.submitRetried w =
    { s.flying (w.op s.nextSelector) with act := { s.act with writeInFlight := true } } := by
  simp only [State.submitRetried, State.submitSelector_idle h ho, if_true]

theorem State.submitRetried_idle_start (h : s.StoreIdle) (ho : w.owner = .start) :
    s.submitRetried w = s.flying (w.op s.nextSelector) := by
  have hsel : s.submitSelector w = (s.flying (w.op s.nextSelector), .accepted) := by
    unfold State.submitSelector
    simp only
    rw [State.submit_selector_idle h (.inr ho), if_neg (by simp [ho])]
  simp only [State.submitRetried, hsel, if_true]

end

/-- On an idle store the commit's write is in flight at once (R164). -/
theorem State.commit_idle {s : State} (h : s.StoreIdle) : s.commit =
    { s with
      act := { s.act with state := .committing, evacuationDue := none, writeInFlight := true }
      store := { s.store with
        orders := s.store.orders + 1
        inflight := some
          { owner := .activation
            kind := .selectorWrite s.store.orders .commit (s.act.sel.committed s.spareSlot) (some s.nextSelector) } } } := by
  unfold State.commit State.newWrite
  simp only
  rw [State.submitSelector_idle (by exact h) rfl, if_pos rfl]
  rfl

/-- What O47 asks of a commit at once. -/
theorem State.commit_idle_flies {s : State} (h : s.StoreIdle) : s.commit.act.state = .committing ∧
    s.commit.act.evacuationDue = none ∧ s.commit.act.writeInFlight = true ∧ s.commit.Flies
      { owner := .activation
        kind := .selectorWrite s.store.orders .commit (s.act.sel.committed s.spareSlot) (some s.nextSelector) } := by
  rw [State.commit_idle h]
  exact ⟨rfl, rfl, rfl, rfl, h.2⟩

/-! ### Who holds an evacuation open (R162) -/

theorem holdsOpen_iff {r : ClientRecord} : holdsOpen (some r) = true ↔ r.HoldsOpen := by
  unfold holdsOpen ClientRecord.associatedHere ClientRecord.HoldsOpen ClientRecord.Here
  cases hs : r.state <;> simp [hs]

theorem State.anyHoldsOpen_iff {s : State} : s.clients.table.toList.any holdsOpen = true ↔
    ∃ i r, s.record i = some r ∧ r.HoldsOpen := by
  rw [List.any_eq_true]
  constructor
  · rintro ⟨x, hx, hopen⟩
    obtain ⟨i, hi, hget⟩ := Vector.mem_iff_getElem.mp (Vector.mem_toList_iff.mp hx)
    cases x with
    | none => cases hopen
    | some r => exact ⟨⟨i, hi⟩, r, hget, holdsOpen_iff.mp hopen⟩
  · rintro ⟨i, r, hr, hopen⟩
    exact ⟨some r, Vector.mem_toList_iff.mpr (hr ▸ Vector.getElem_mem i.isLt), holdsOpen_iff.mpr hopen⟩

theorem State.endCheck_open {s : State} (h : ∃ i r, s.record i = some r ∧ r.HoldsOpen) : s.endCheck = s := by
  simp [State.endCheck, State.anyHoldsOpen_iff.mpr h]

theorem State.endCheck_closed {s : State} (he : s.act.state = .evacuating)
    (h : ∀ i r, s.record i = some r → ¬r.HoldsOpen) : s.endCheck = s.commit := by
  have hany : s.clients.table.toList.any holdsOpen = false :=
    Bool.eq_false_iff.mpr fun ht => by
      obtain ⟨i, r, hr, hopen⟩ := State.anyHoldsOpen_iff.mp ht
      exact h i r hr hopen
  simp [State.endCheck, he, hany]

/-! ### The end of an event while EVACUATING (R162) -/

theorem State.testFlow_departed (j : Fin 128) (s : State) : (s.testFlow j).ev.departed = s.ev.departed := by
  have hput : ∀ x, (s.putFlow j x).ev.departed = s.ev.departed := fun x => by
    unfold State.putFlow
    simp only
    split <;> rfl
  unfold State.testFlow
  split
  · split
    · split
      · exact hput _
      · exact hput _
    · rfl
  · rfl
  · rfl

theorem State.retest_departed (s : State) : s.retest.ev.departed = s.ev.departed := by
  unfold State.retest
  split
  · exact walk_same (fun u : State => u.ev.departed) State.testFlow State.testFlow_departed _ _
  · rfl

theorem State.priorityEnd_departed (s : State) : s.priorityEnd.ev.departed = s.ev.departed := by
  have hpace : ∀ u : State, u.workPace.cutCredits.ev.departed = u.ev.departed := fun u => by
    unfold State.workPace
    split <;> rfl
  unfold State.priorityEnd
  split
  · exact (hpace _).trans s.retest_departed
  · exact s.retest_departed

/-- What the Priority Unit leaves of a part at the end of an event. -/
theorem State.priority_same (s : State) : s.retest.priorityEnd.beside = s.beside ∧ s.retest.priorityEnd.clients = s.clients ∧
    s.retest.priorityEnd.ev.departed = s.ev.departed :=
  ⟨(State.priorityEnd_beside _).trans (State.retest_beside s), (State.priorityEnd_clients _).trans s.retest_clients,
    (State.priorityEnd_departed _).trans s.retest_departed⟩

/-- While EVACUATING no gate is tested; a departure is followed by the end check. -/
theorem State.settle_evacuating {s : State} (he : s.act.state = .evacuating) (hd : s.ev.departed = true) :
    s.settle = { s.retest.priorityEnd.endCheck with ev := EventMarks.clear } := by
  have hgate : s.retest.gateTest = s.retest := by
    have hw : s.retest.act.state ≠ .waiting := by rw [State.act_of_beside (State.retest_beside s), he]; exact nofun
    simp [State.gateTest, hw]
  obtain ⟨_, _, hdep⟩ := s.priority_same
  rw [hd] at hdep
  simp only [State.settle, State.settleWith, hgate, ite_self, hdep, if_true]

end Sys2Proof.Machine
end

section
/-! SUPPORT. Proofs: an evacuation pass (R49, R162), for O47. -/

namespace Sys2Proof.Machine

/-! ### What a candidate's score reads (R44, R45) -/

/-- `t` scores every client's candidates at a running time as `s` does: the peers, the own path, the number of records held,
and the client's usable sightings. -/
structure Scores (s t : State) : Prop where
  now : t.now = s.now
  table : t.peers.table = s.peers.table
  ownPath : t.peers.ownPath = s.peers.ownPath
  count : t.clientCount = s.clientCount
  sightings : ∀ c, (t.peers.sightings.filter fun g => g.client == c && g.usable s.now) =
    s.peers.sightings.filter fun g => g.client == c && g.usable s.now

theorem Scores.refl (s : State) : Scores s s := ⟨rfl, rfl, rfl, rfl, fun _ => rfl⟩

theorem Scores.trans {s t u : State} (h : Scores s t) (k : Scores t u) : Scores s u where
  now := k.now.trans h.now
  table := k.table.trans h.table
  ownPath := k.ownPath.trans h.ownPath
  count := k.count.trans h.count
  sightings c := by
    rw [← h.sightings c]
    have hc := k.sightings c
    rwa [h.now] at hc

/-- The sightings that an evacuation pass scores by: those that are usable. -/
def State.usableAt (s : State) (now : Nat) : State :=
  { s with peers := { s.peers with sightings := s.peers.sightings.filter fun g => (now : Int) ≤ g.validity + 3000 } }

theorem Scores.bestCandidate {s t : State} (h : Scores s t) (r : ClientRecord) :
    (t.examine r.client).bestCandidate r = (s.usableAt s.now).bestCandidate r := by
  have hleft : (t.examine r.client).peers.sightings.filter (fun g => g.client == r.client) =
      s.peers.sightings.filter fun g => g.client == r.client && g.usable s.now := by
    rw [← h.sightings r.client]
    refine List.filter_filter.trans (List.filter_congr fun g _ => ?_)
    rw [h.now]
    cases hg : g.client == r.client <;> simp [bne, hg]
  have hright : (s.usableAt s.now).peers.sightings.filter (fun g => g.client == r.client) =
      s.peers.sightings.filter fun g => g.client == r.client && g.usable s.now :=
    List.filter_filter.trans (List.filter_congr fun g _ => rfl)
  have hcount : (t.examine r.client).clientCount = (s.usableAt s.now).clientCount := h.count
  have hpeer : ∀ id, (t.examine r.client).peer id = (s.usableAt s.now).peer id := fun id =>
    congrArg (List.find? fun p : PeerEntry => p.id == id) h.table
  unfold State.bestCandidate State.candidates
  rw [hleft, hright]
  refine congrArg (fun f => (sortBy betterCandidate (List.filterMap f _)).head?) (funext fun g => ?_)
  rw [hpeer, hcount, show (t.examine r.client).peers.ownPath = (s.usableAt s.now).peers.ownPath from h.ownPath]

theorem State.examine_scores (c : ClientId) (s : State) : Scores s (s.examine c) := by
  refine ⟨rfl, rfl, rfl, rfl, fun d => ?_⟩
  simp only [State.examine, List.filter_filter]
  refine List.filter_congr fun g _ => ?_
  by_cases hg : g.usable s.now = true <;> simp [hg]

theorem State.clientCount_putRecord {s : State} {i : Fin 64} {r r1 : ClientRecord} (h : s.record i = some r)
    (hr : r1.held = r.held) : (s.putRecord i r1).clientCount = s.clientCount := by
  have hget : s.clients.table.toList[i.val]'(by simp) = some r := (Vector.getElem_toList _).trans h
  have hmap : ∀ p : Option ClientRecord → Bool, p (some r1) = p (some r) →
      ((putSlot s.clients.table i (some r1)).toList.filter p).length = (s.clients.table.toList.filter p).length := by
    intro p hp
    have hpos : p (some r) = true → 0 < List.countP p s.clients.table.toList := fun ht =>
      List.countP_pos_iff.mpr ⟨some r, hget ▸ List.getElem_mem _, ht⟩
    rw [← List.countP_eq_length_filter, ← List.countP_eq_length_filter, putSlot, Vector.toList_set, List.countP_set, hget, hp]
    · split
      · have := hpos ‹_›
        omega
      · omega
    · simp
  exact hmap _ hr

/-! ### One slot of a pass -/

section
variable {s : State} {i : Fin 64} {r : ClientRecord} {q : Int} {p : Nat} {score : Int}

/-- The record that an evaluation of the pass makes of one that is offered. -/
def ClientRecord.offeredTo (r : ClientRecord) (p now : Nat) : ClientRecord :=
  { r with state := .offering, offerTarget := some p, confirm := 0, timer := some (now + 400) }

theorem State.evacuateSlot_offers (h : s.record i = some r) (hst : r.state = .associated) (hsteer : r.steerable = true)
    (hsm : r.smoothed = some q) (hb : (s.examine r.client).bestCandidate r = some (p, score)) (hle : q ≤ score) :
    s.evacuateSlot i = (s.examine r.client).beginOffer i r p := by
  simp [State.evacuateSlot, h, hst, hsteer, hsm, hb, hle]

/-- A slot whose record is not offered keeps its record. -/
theorem State.evacuateSlot_stands (h : ∀ r q p score, s.record i = some r → r.state = .associated → r.steerable = true →
    r.smoothed = some q → (s.examine r.client).bestCandidate r = some (p, score) → ¬q ≤ score) :
    (s.evacuateSlot i).clients = s.clients := by
  unfold State.evacuateSlot
  split
  · rename_i r hr
    split
    · rename_i q hst hsteer hsm
      simp only
      split
      · rename_i p score hb
        rw [if_neg (h r q p score hr hst hsteer hsm hb)]
        rfl
      · rfl
    · rfl
  · rfl

theorem State.beginOffer_record (r : ClientRecord) (p : Nat) (k : Fin 64) :
    (s.beginOffer i r p).record k = if k = i then some (r.offeredTo p s.now) else s.record k := by
  unfold State.beginOffer
  rw [State.record, State.send_clients, ← State.record, State.record_putRecord]
  by_cases hik : i = k
  · subst hik
    rw [if_pos rfl, if_pos rfl]
    rfl
  · rw [if_neg hik, if_neg (Ne.symm hik)]

theorem State.evacuateSlot_record_other {k : Fin 64} (hk : k ≠ i) : (s.evacuateSlot i).record k = s.record k := by
  unfold State.evacuateSlot
  split
  · rename_i r hr
    split
    · simp only
      split
      · split
        · exact (State.beginOffer_record (s := s.examine r.client) r _ k).trans (if_neg hk)
        · rfl
      · rfl
    · rfl
  · rfl

theorem State.evacuateSlot_scores (i : Fin 64) (s : State) : Scores s (s.evacuateSlot i) := by
  unfold State.evacuateSlot
  split
  · rename_i r hr
    split
    · rename_i q hst hsteer hsm
      simp only
      split
      · rename_i p score _
        split
        · have hput := State.clientCount_putRecord (s := s.examine r.client) (i := i) (r1 := r.offeredTo p s.now) hr
            (by rw [ClientRecord.held, ClientRecord.held, hst]; rfl)
          refine (State.examine_scores r.client s).trans ⟨?_, ?_, ?_, ?_, fun c => ?_⟩
          · rw [State.beginOffer, State.send_now]; rfl
          · rw [State.beginOffer, State.send_peers]; rfl
          · rw [State.beginOffer, State.send_peers]; rfl
          · rw [State.beginOffer, State.clientCount, State.send_clients]; exact hput
          · rw [State.beginOffer, State.send_peers]; rfl
        · exact State.examine_scores r.client s
      · exact State.examine_scores r.client s
    · exact .refl s
  · exact .refl s

end

/-! ### The pass -/

/-- Slots that are passed leave the record of another slot. -/
theorem walk_evacuateSlot_record {l : List (Fin 64)} {i : Fin 64} (hi : i ∉ l) (s : State) :
    (walk l State.evacuateSlot s).record i = s.record i := by
  induction l generalizing s with
  | nil => rfl
  | cons k l ih =>
    obtain ⟨hk, hl⟩ := not_or.mp (mt List.mem_cons.mpr hi)
    rw [walk_cons, ih hl, State.evacuateSlot_record_other hk]

theorem walk_evacuateSlot_scores (l : List (Fin 64)) (s : State) : Scores s (walk l State.evacuateSlot s) :=
  walk_keeps (fun t => Scores s t) State.evacuateSlot (fun i t ht => ht.trans (State.evacuateSlot_scores i t)) l s (.refl s)

/-- A pass is the turns before a slot's, its turn, and those behind it. -/
theorem State.pass_split (i : Fin 64) : ∃ before after, i ∉ before ∧ i ∉ after ∧ ∀ s : State,
    s.pass = walk after State.evacuateSlot ((walk before State.evacuateSlot s).evacuateSlot i) := by
  obtain ⟨before, after, hsplit⟩ := List.append_of_mem (List.mem_finRange i)
  have hnodup := List.nodup_finRange 64
  rw [hsplit] at hnodup
  obtain ⟨_, hafter, hdisj⟩ := List.nodup_append.mp hnodup
  refine ⟨before, after, fun hb => hdisj i hb i (List.mem_cons_self ..) rfl, (List.nodup_cons.mp hafter).1, fun s => ?_⟩
  rw [State.pass, slots, hsplit, walk, List.foldl_append]
  rfl

/-- What the pass makes of a slot is what its own turn makes of it. -/
theorem State.pass_record {s : State} {i : Fin 64} {x : Option ClientRecord}
    (h : ∀ t, Scores s t → t.record i = s.record i → (t.evacuateSlot i).record i = x) : s.pass.record i = x := by
  obtain ⟨before, after, hbefore, hafter, hpass⟩ := State.pass_split i
  rw [hpass, walk_evacuateSlot_record hafter]
  exact h _ (walk_evacuateSlot_scores before s) (walk_evacuateSlot_record hbefore s)

theorem State.pass_passed (s : State) : s.Passed s.pass s.now := by
  unfold State.Passed
  intro u i r hr asked
  refine ⟨fun q p score hasked => ?_, fun _ hnone => ?_⟩
  · obtain ⟨hst, hsteer, hsm, hbest, hle⟩ := hasked
    refine State.pass_record fun t hsc htr => ?_
    have hr' : t.record i = some r := htr.trans hr
    rw [State.evacuateSlot_offers hr' hst hsteer hsm ((hsc.bestCandidate r).trans hbest) hle,
      State.beginOffer_record (s := t.examine r.client), if_pos rfl]
    exact congrArg (fun n => some (r.offeredTo p n)) hsc.now
  · refine State.pass_record fun t hsc htr => ?_
    have hr' : t.record i = some r := htr.trans hr
    have hstand : (t.evacuateSlot i).clients = t.clients := State.evacuateSlot_stands fun r' q p score hr1 hst hsteer hsm hb hle => by
      rw [hr'] at hr1
      cases hr1
      exact hnone q p score ⟨hst, hsteer, hsm, (hsc.bestCandidate r).symm.trans hb, hle⟩
    rw [State.record, hstand]
    exact hr'

end Sys2Proof.Machine
end

section
/-! SUPPORT. Proofs: the turns of an advert expiry, by the room they leave in the transmit order and by what they submit
(O47). -/

namespace Sys2Proof.Machine

/-! ### Room in the transmit order (R5, R6) -/

/-- A submission leaves the store as it was or, accepted, adds its operation at the end. -/
theorem State.submit_storeOps (op : StoreOp) (s : State) : (s.submit op).1.storeOps = s.storeOps ∨
    ((s.submit op).2 = .accepted ∧ ∃ op', op'.isServe = op.isServe ∧ (s.submit op).1.storeOps = s.storeOps ++ [op']) := by
  have hsame : ∀ {t : State}, t.store = s.store → t.storeOps = s.storeOps := fun h => by simp only [State.storeOps, h]
  rcases State.submit_cases op s with ⟨h, _⟩ | ⟨h, _⟩ | ⟨ha, _, _, _, ⟨hi, hw, h⟩ | ⟨_, h⟩⟩
  · exact .inl (hsame (by rw [h]))
  · refine .inl (hsame ?_)
    rw [h, State.raiseRefused]
    split
    · exact State.raise_store _ _
    · rfl
  · refine .inr ⟨ha, s.store.direct op, StoreUnit.direct_isServe _ _, ?_⟩
    rw [h]
    simp only [State.storeOps, (State.markAccepted_same op _).1, hi, hw]
    rfl
  · refine .inr ⟨ha, op, rfl, ?_⟩
    rw [h]
    simp only [State.storeOps, (State.markAccepted_same op _).1, List.append_assoc]

theorem State.submit_heldPlaces_le (op : StoreOp) (s : State) : (s.submit op).1.heldPlaces ≤ s.heldPlaces + 1 := by
  unfold State.heldPlaces
  rcases State.submit_storeOps op s with h | ⟨_, op', _, h⟩
  · rw [h]
    exact Nat.le_succ _
  · rw [h, List.filter_append, List.length_append]
    exact Nat.add_le_add_left (List.length_filter_le _ _) _

theorem State.submit_heldPlaces {op : StoreOp} {s : State} (hop : op.isServe = false ∨ (s.submit op).2 ≠ .accepted) :
    (s.submit op).1.heldPlaces = s.heldPlaces := by
  unfold State.heldPlaces
  rcases State.submit_storeOps op s with h | ⟨ha, op', hs, h⟩
  · rw [h]
  · rw [h, List.filter_append]
    have hop' : op'.isServe = false := hs.trans (hop.resolve_right fun hne => hne ha)
    simp [hop']

theorem State.txCount_of {s t : State} (hp : t.pli = s.pli) (hh : t.heldPlaces = s.heldPlaces) : t.txCount = s.txCount := by
  rw [State.txCount, State.txCount, hp, hh]

theorem State.putSlotRecord_txCount (k : SlotId) (r : SlotRecord) (s : State) : (s.putSlotRecord k r).txCount = s.txCount := by
  cases k <;> rfl

theorem State.submit_txCount {op : StoreOp} (s : State) (hop : op.isServe = false) : (s.submit op).1.txCount = s.txCount :=
  State.txCount_of (State.submit_pli op s) (State.submit_heldPlaces (.inl hop))

theorem State.submitVerify_txCount (k : SlotId) (v b : Nat) (s : State) : (s.submitVerify k v b).txCount = s.txCount := by
  unfold State.submitVerify
  split
  · exact (State.putSlotRecord_txCount _ _ _).trans (State.submit_txCount s rfl)
  · rfl

theorem State.submitCheck_txCount (k : SlotId) (v : Nat) (s : State) : (s.submitCheck k v).txCount = s.txCount := by
  unfold State.submitCheck
  split
  · exact (State.putSlotRecord_txCount _ _ _).trans (State.submit_txCount s rfl)
  · rfl

theorem State.submitManifest_txCount (s : State) : s.submitManifest.txCount = s.txCount := by
  unfold State.submitManifest
  split
  · split
    · rename_i m _
      have h := State.submit_txCount s
        (op := { owner := .fill, kind := .recordWrite (.manifest s.spareSlot) m.version (writeManifest m) }) rfl
      simp only
      split
      · exact h
      · exact h
    · rfl
  · rfl

theorem State.submitOwed_txCount (s : State) : s.submitOwed.txCount = s.txCount := by
  unfold State.submitOwed
  simp only
  split
  · have h := fun l v => walk_same State.txCount _ (fun b => State.submitVerify_txCount s.spareSlot v b) l s
    rw [State.submitManifest_txCount]
    split
    · exact (State.submitCheck_txCount _ _ _).trans (h _ _)
    · exact h _ _
  · rfl

theorem State.send_txCount_le (dest : Nat) (b : FrameBody) (s : State) : (s.send dest b).txCount ≤ s.txCount + 1 := by
  unfold State.send
  split
  · exact Nat.le_succ _
  · split
    · have hone := List.length_filter_le (fun f : Frame => !f.isAdvert) [{ sender := s.cfg.nodeId, dest := dest, body := b }]
      have hlen : (s.placeFrame dest b).txCount = (s.pli.tx.filter fun f => !f.isAdvert).length +
          ([{ sender := s.cfg.nodeId, dest := dest, body := b }].filter fun f : Frame => !f.isAdvert).length + s.heldPlaces := by
        rw [State.txCount, State.placeFrame, List.filter_append, List.length_append]
        rfl
      rw [hlen, State.txCount]
      simp only [List.length_singleton] at hone
      omega
    · split
      · exact Nat.le_succ _
      · have hsame : (State.raise (.txOverflow dest b.kind) { s with pli := { s.pli with txRun := true } }).txCount = s.txCount := by
          simp only [State.txCount, State.heldPlaces, State.storeOps, State.raise_pli, State.raise_store]
        omega

theorem State.pullStep_txCount_le (s : State) : s.pullStep.txCount ≤ s.txCount + 1 := by
  unfold State.pullStep
  simp only
  split
  · split
    · split
      · split
        · have h := fun l v => walk_same State.txCount (State.submitErase s.spareSlot v) (fun b u => State.submit_txCount u rfl) l s
          split
          · rw [h]
            exact Nat.le_succ _
          · exact (State.send_txCount_le _ _ _).trans (Nat.add_le_add_right (Nat.le_of_eq (h _ _)) 1)
        · exact Nat.le_succ _
      · exact Nat.le_succ _
    · exact Nat.le_succ _
  · exact Nat.le_succ _

/-- The serve engine puts at most one read in the store: it stands while one is there (R126). -/
theorem serveTurns_heldPlaces_le (n : Nat) (s : State) : (serveTurns n s).heldPlaces ≤ s.heldPlaces + 1 := by
  induction n generalizing s with
  | zero => exact Nat.le_succ _
  | succ n ih =>
    unfold serveTurns
    split
    · exact Nat.le_succ _
    · split
      · exact Nat.le_succ _
      · split
        · exact ih _
        · split
          · exact Nat.le_succ _
          · split
            · exact ih _
            · simp only
              split
              · exact State.submit_heldPlaces_le _ s
              · rename_i hne
                exact (ih _).trans (Nat.add_le_add_right (Nat.le_of_eq (State.submit_heldPlaces (.inr hne))) 1)

theorem State.serveEngine_txCount_le (s : State) : s.serveEngine.txCount ≤ s.txCount + 1 := by
  have h := serveTurns_heldPlaces_le (s.prio.serveCredits + s.dist.serve.length + 1) s
  rw [State.txCount, State.txCount, State.serveEngine, serveTurns_pli]
  omega

theorem State.advertTurns_txCount_le (s : State) : s.advertTurns.txCount ≤ s.txCount + 2 := by
  have hpull := State.pullStep_txCount_le s.openCredits.submitOwed
  have hserve := State.serveEngine_txCount_le s.openCredits.submitOwed.pullStep
  rw [State.submitOwed_txCount, show s.openCredits.txCount = s.txCount from rfl] at hpull
  unfold State.advertTurns
  omega

/-- An ADVERT takes no place in the transmit order (R5). -/
theorem State.placeAdvert_txCount (a : Advert) (s : State) : (s.placeAdvert a).txCount = s.txCount := by
  have hheld : ∀ tx, State.heldPlaces { s with pli := { s.pli with tx := tx } } = s.heldPlaces := fun _ => rfl
  unfold State.placeAdvert
  simp only
  split
  · rfl
  · split
    · rw [State.txCount, State.txCount, hheld]
      simp only
      congr 1
      generalize s.pli.tx = l
      induction l with
      | nil => rfl
      | cons g l ih =>
        cases hg : g.isAdvert
        · simp only [List.map_cons, hg, Bool.false_eq_true, if_false, List.filter_cons, Bool.not_false, if_true, List.length_cons, ih]
        · simp only [List.map_cons, hg, if_true, List.filter_cons, Bool.not_true, Bool.false_eq_true, if_false]
          exact ih
    · rw [State.txCount, State.txCount, hheld]
      have hadvert : [({ sender := s.cfg.nodeId, dest := 0, body := .advert a } : Frame)].filter (fun f => !f.isAdvert) = [] := rfl
      simp only [List.filter_append, hadvert, List.append_nil]

end Sys2Proof.Machine
end

section
/-! SUPPORT. Proofs: an advert expiry's turns beside a READY slot submit nothing, and what a closed evacuation's end leaves of
the records (O47). -/

namespace Sys2Proof.Machine

/-! ### The turns beside a READY slot -/

/-- A part whose non-booted slot is READY with nothing else to submit (R142, R162). -/
structure Resting (s t : State) : Prop where
  store : t.store = s.store
  spare : t.spareSlot = s.spareSlot
  ready : (t.slot s.spareSlot).state = .ready
  manifestOwed : t.dist.manifestOwed = false
  serve : t.dist.serve = []

theorem Resting.putSlotRecord {s t : State} (h : Resting s t) {r : SlotRecord} (hr : r.state = .ready) :
    Resting s (t.putSlotRecord s.spareSlot r) := by
  have hsame : ∀ k, (t.putSlotRecord k r).store = t.store ∧ (t.putSlotRecord k r).spareSlot = t.spareSlot ∧
      (t.putSlotRecord k r).dist.manifestOwed = t.dist.manifestOwed ∧ (t.putSlotRecord k r).dist.serve = t.dist.serve := fun k => by
    cases k <;> exact ⟨rfl, rfl, rfl, rfl⟩
  obtain ⟨hstore, hspare, howed, hserve⟩ := hsame s.spareSlot
  exact ⟨hstore.trans h.store, hspare.trans h.spare, by rw [State.slot_putSlotRecord_same]; exact hr, howed.trans h.manifestOwed,
    hserve.trans h.serve⟩

/-- Beside a READY slot a verification or a check of that slot is refused for the slot's state. -/
theorem Resting.submit {s t : State} (h : Resting s t) {op : StoreOp}
    (hop : (∃ v b crc, op = { owner := .fill, kind := .verifyBlock s.spareSlot v b crc }) ∨
      ∃ v n crc, op = { owner := .fill, kind := .checkImage s.spareSlot v n crc }) : (t.submit op).1 = t := by
  have hbad : t.slotStateOk op = false := by
    rcases hop with ⟨v, b, crc, rfl⟩ | ⟨v, n, crc, rfl⟩
    · simp [State.slotStateOk, h.ready]
    · simp [State.slotStateOk, h.ready]
  have hprot : op.isProtected t.act.sel = false := by
    rcases hop with ⟨v, b, crc, rfl⟩ | ⟨v, n, crc, rfl⟩
    · rfl
    · rfl
  unfold State.submit
  split
  · rfl
  · rw [if_neg (by simp [hprot]), if_pos (by simp [hbad])]

theorem SlotRecord.putBlock_state (r : SlotRecord) (b : Nat) (x : Block) : (r.putBlock b x).state = r.state := by
  unfold SlotRecord.putBlock
  split <;> rfl

theorem Resting.submitVerify {s t : State} (h : Resting s t) (v b : Nat) : Resting s (t.submitVerify s.spareSlot v b) := by
  unfold State.submitVerify
  split
  · simp only
    rw [h.submit (.inl ⟨_, _, _, rfl⟩)]
    exact h.putSlotRecord ((SlotRecord.putBlock_state _ _ _).trans h.ready)
  · exact h

theorem Resting.submitCheck {s t : State} (h : Resting s t) (v : Nat) : Resting s (t.submitCheck s.spareSlot v) := by
  unfold State.submitCheck
  split
  · simp only
    rw [h.submit (.inr ⟨_, _, _, rfl⟩)]
    exact h.putSlotRecord h.ready
  · exact h

theorem Resting.submitOwed {s : State} (h : Resting s s) : Resting s s.submitOwed := by
  have hmanifest : ∀ {t : State}, Resting s t → Resting s t.submitManifest := fun {t} ht => by
    unfold State.submitManifest
    rw [ht.manifestOwed]
    exact ht
  unfold State.submitOwed
  simp only
  split
  · have hwalk := fun l v => walk_keeps (fun t => Resting s t) (fun b t => t.submitVerify s.spareSlot v b)
      (fun b t ht => ht.submitVerify v b) l s h
    refine hmanifest ?_
    split
    · exact (hwalk _ _).submitCheck _
    · exact hwalk _ _
  · exact h

/-- The turns of an advert expiry leave the store and the choice of the slots as they were. -/
theorem State.advertTurns_resting {s : State} (hready : (s.slot s.spareSlot).state = .ready) (howed : s.dist.manifestOwed = false)
    (hserve : s.dist.serve = []) : s.advertTurns.store = s.store ∧ s.advertTurns.spareSlot = s.spareSlot := by
  have h : Resting s.openCredits s.openCredits.submitOwed := Resting.submitOwed ⟨rfl, rfl, hready, howed, hserve⟩
  have hpull : s.openCredits.submitOwed.pullStep = s.openCredits.submitOwed := by
    have hstate : (s.openCredits.submitOwed.slot s.openCredits.submitOwed.spareSlot).state ≠ .filling := by
      rw [h.spare, h.ready]
      exact nofun
    unfold State.pullStep
    simp only
    split
    · rw [if_neg fun hf => hstate hf.1]
    · rfl
  unfold State.advertTurns
  rw [hpull, State.serveEngine_idle h.serve]
  exact ⟨h.store, h.spare⟩

/-! ### Records when no record holds the evacuation open -/

/-- No record holds an evacuation open. -/
def State.Closed (s : State) : Prop := ∀ i r, s.record i = some r → ¬r.HoldsOpen

/-- From `s` to `t` every record but an ARRIVING one stands, and none is new. -/
structure Spares (s t : State) : Prop where
  stand : ∀ i r, s.record i = some r → r.state ≠ .arriving → t.record i = some r
  only : ∀ i r, t.record i = some r → s.record i = some r

theorem Spares.refl (s : State) : Spares s s := ⟨fun _ _ h _ => h, fun _ _ => id⟩

theorem Spares.trans {s t u : State} (h : Spares s t) (k : Spares t u) : Spares s u :=
  ⟨fun i r hr hs => k.stand i r (h.stand i r hr hs) hs, fun i r hr => h.only i r (k.only i r hr)⟩

theorem Spares.closed {s t : State} (h : Spares s t) (hs : s.Closed) : t.Closed := fun i r hr => hs i r (h.only i r hr)

theorem Spares.of_clients {s t : State} (h : t.clients = s.clients) : Spares s t := by
  have hr : ∀ i, t.record i = s.record i := fun i => by rw [State.record, State.record, h]
  exact ⟨fun i r hs _ => (hr i).trans hs, fun i r ht => (hr i).symm.trans ht⟩

theorem State.clients_of_aside {s t : State} (h : t.aside = s.aside) : t.clients = s.clients :=
  show t.aside.clients = s.aside.clients from congrArg State.clients h

theorem State.deleteSlot_spares {i : Fin 64} {s : State} (h : ∀ r, s.record i = some r → r.state = .arriving) :
    Spares s (s.deleteSlot i) := by
  refine ⟨fun k r hr hs => ?_, fun k r hr => ?_⟩
  · rw [State.record_deleteSlot, if_neg fun hik => hs (h r (by rw [hik]; exact hr)), hr]
  · rw [State.record_deleteSlot] at hr
    split at hr
    · cases hr
    · exact hr

theorem State.mem_slotsIn {s : State} {st : RecState} {i : Fin 64} : i ∈ s.slotsIn st ↔ ∃ r, s.record i = some r ∧ r.state = st := by
  unfold State.slotsIn
  rw [List.mem_filter]
  cases h : s.record i with
  | none => simp
  | some r => simp [slots]

theorem walk_deleteSlot_spares {l : List (Fin 64)} {s : State} (h : ∀ i ∈ l, ∀ r, s.record i = some r → r.state = .arriving) :
    Spares s (walk l State.deleteSlot s) := by
  induction l generalizing s with
  | nil => exact .refl s
  | cons i l ih =>
    obtain ⟨hi, hl⟩ := List.forall_mem_cons.mp h
    have hfirst := State.deleteSlot_spares hi
    exact hfirst.trans (ih fun k hk r hr => hl k hk r (hfirst.only k r hr))

theorem State.dropArriving_spares (s : State) : Spares s s.dropArriving := walk_deleteSlot_spares fun i hi r hr => by
  obtain ⟨r', hr', hst⟩ := State.mem_slotsIn.mp hi
  rw [hr] at hr'
  cases hr'
  exact hst

theorem walk_deleteSlot_none {l : List (Fin 64)} {i : Fin 64} (hi : i ∈ l) (s : State) :
    (walk l State.deleteSlot s).record i = none := by
  induction l generalizing s with
  | nil => cases hi
  | cons k l ih =>
    rcases List.mem_cons.mp hi with rfl | hi
    · exact (Ebbs.walk State.deleteSlot_ebbs l _).records i (by rw [State.record_deleteSlot, if_pos rfl])
    · exact ih hi _

/-- No ARRIVING record is left (R161). -/
theorem State.dropArriving_gone {s : State} {i : Fin 64} {r : ClientRecord} (h : s.dropArriving.record i = some r) :
    r.state ≠ .arriving := fun hst => by
  have hmem : i ∈ s.slotsIn .arriving := State.mem_slotsIn.mpr ⟨r, s.dropArriving_spares.only i r h, hst⟩
  rw [State.dropArriving, walk_deleteSlot_none hmem] at h
  cases h

/-- With no record to hold it open a pass offers nothing. -/
theorem State.pass_clients {s : State} (h : s.Closed) : s.pass.clients = s.clients := by
  refine walk_keeps (fun t => t.clients = s.clients) State.evacuateSlot (fun i t ht => ?_) _ s rfl
  refine (State.evacuateSlot_stands fun r q p score hr hst hsteer _ _ => ?_).trans ht
  exact absurd ⟨.inr (.inl hst), hsteer⟩ (h i r (by rw [State.record, ← ht]; exact hr))

theorem State.beginEvacuation_spares {s : State} (h : s.Closed) : Spares s s.beginEvacuation := by
  have hdrop := State.dropArriving_spares
    { s with act := { s.act with state := .evacuating, evacuationDue := some (s.now + Config.evacuationLimit) } }
  have hclosed := hdrop.closed h
  exact Spares.trans ⟨hdrop.stand, hdrop.only⟩ (.of_clients (State.pass_clients hclosed))

theorem State.reopen_spares {s : State} (h : s.Closed) : Spares s s.reopen := by
  unfold State.reopen
  simp only
  split
  · have hb := State.beginEvacuation_spares (s := { s with act := { s.act with state := .waiting } }) h
    exact ⟨hb.stand, hb.only⟩
  · exact .of_clients rfl

theorem State.submitSelector_clients (w : RetriedWrite) (s : State) : (s.submitSelector w).1.clients = s.clients := by
  have h := State.clients_of_aside
    (State.submit_aside { owner := w.owner, kind := .selectorWrite w.order w.purpose w.sel none } s)
  unfold State.submitSelector
  simp only
  split
  · exact h
  · exact h

theorem State.commit_spares {s : State} (h : s.Closed) : Spares s s.commit := by
  unfold State.commit
  extract_lets _ s1 w r
  have hr : Spares s r.1 := .of_clients (State.submitSelector_clients _ _)
  split
  · exact hr
  · exact hr.trans (State.reopen_spares (hr.closed h))

theorem State.endCheck_spares {s : State} (h : s.Closed) : Spares s s.endCheck := by
  unfold State.endCheck
  split
  · exact State.commit_spares h
  · exact .refl s

theorem State.gateTest_spares {s : State} (h : s.Closed) : Spares s s.gateTest := by
  unfold State.gateTest
  split
  · have hb := State.beginEvacuation_spares h
    exact hb.trans (State.endCheck_spares (hb.closed h))
  · exact .refl s

theorem State.settleWith_spares {s : State} (test : Bool) (h : s.Closed) : Spares s (s.settleWith test) := by
  have h1 : Spares s s.retest := .of_clients s.retest_clients
  have hgate : ∀ {u : State}, Spares s u → Spares s (if test || u.ev.admittedChanged then u.gateTest else u) := fun {u} hu => by
    split
    · exact hu.trans (State.gateTest_spares (hu.closed h))
    · exact hu
  have hpriority : ∀ {u : State}, Spares s u → Spares s u.priorityEnd := fun {u} hu =>
    hu.trans (.of_clients u.priorityEnd_clients)
  have hend : ∀ {u : State}, Spares s u → Spares s (if u.ev.departed then u.endCheck else u) := fun {u} hu => by
    split
    · exact hu.trans (State.endCheck_spares (hu.closed h))
    · exact hu
  exact (hend (hpriority (hgate h1))).trans (.of_clients rfl)

end Sys2Proof.Machine
end

section
/-! SUPPORT. Proofs: the Activation Controller's timers (O47). -/

namespace Sys2Proof.Machine

/-! ### The pass of an advert expiry -/

theorem State.bestCandidate_congr {s t : State} (hg : t.peers.sightings = s.peers.sightings) (ht : t.peers.table = s.peers.table)
    (ho : t.peers.ownPath = s.peers.ownPath) (hc : t.clients = s.clients) (r : ClientRecord) :
    t.bestCandidate r = s.bestCandidate r := by
  simp only [State.bestCandidate, State.candidates, State.peer, State.clientCount, hg, ht, ho, hc]

/-- A pass of a part with the same clients and peers is a pass of this one. -/
theorem State.Passed.of_same {s w t : State} {now : Nat} (h : w.Passed t now) (hg : w.peers.sightings = s.peers.sightings)
    (ht : w.peers.table = s.peers.table) (ho : w.peers.ownPath = s.peers.ownPath) (hc : w.clients = s.clients) : s.Passed t now := by
  unfold State.Passed
  intro u i r hr asked
  obtain ⟨h1, h2⟩ := h i r (by rw [State.record, hc]; exact hr)
  have hbest : (w.usableAt now).bestCandidate r = u.bestCandidate r :=
    State.bestCandidate_congr (s := u) (t := w.usableAt now)
      (congrArg (List.filter fun g : SightingEntry => (now : Int) ≤ g.validity + 3000) hg) ht ho hc r
  exact ⟨fun q p score ⟨a, b, c, e, f⟩ => h1 q p score ⟨a, b, c, hbest.trans e, f⟩,
    fun hs hn => h2 hs fun q p score ⟨a, b, c, e, f⟩ => hn q p score ⟨a, b, c, hbest.symm.trans e, f⟩⟩

theorem State.evacuateSlot_same (i : Fin 64) (s : State) : (s.evacuateSlot i).act = s.act ∧ (s.evacuateSlot i).store = s.store ∧
    (s.evacuateSlot i).ev = s.ev := by
  unfold State.evacuateSlot
  split
  · split
    · simp only
      split
      · split
        · unfold State.beginOffer
          exact ⟨State.send_act _ _ _, State.send_store _ _ _, State.send_ev _ _ _⟩
        · exact ⟨rfl, rfl, rfl⟩
      · exact ⟨rfl, rfl, rfl⟩
    · exact ⟨rfl, rfl, rfl⟩
  · exact ⟨rfl, rfl, rfl⟩

theorem State.pass_same (s : State) : s.pass.act = s.act ∧ s.pass.store = s.store ∧ s.pass.ev = s.ev :=
  ⟨walk_same State.act _ (fun i u => (State.evacuateSlot_same i u).1) _ _,
    walk_same State.store _ (fun i u => (State.evacuateSlot_same i u).2.1) _ _,
    walk_same State.ev _ (fun i u => (State.evacuateSlot_same i u).2.2) _ _⟩

/-- A record that holds the evacuation open holds it open after the pass (R162). -/
theorem State.Passed.open {s t : State} {now : Nat} (h : s.Passed t now) (hs : ∃ i r, s.record i = some r ∧ r.HoldsOpen) :
    ∃ i r, t.record i = some r ∧ r.HoldsOpen := by
  obtain ⟨i, r, hr, hopen⟩ := hs
  obtain ⟨h1, h2⟩ := h i r hr
  by_cases hask : ∃ q p score, r.state = .associated ∧ r.steerable = true ∧ r.smoothed = some q ∧
      (s.usableAt now).bestCandidate r = some (p, score) ∧ q ≤ score
  · obtain ⟨q, p, score, hask⟩ := hask
    exact ⟨i, _, h1 q p score hask, .inr (.inr (.inl rfl)), hopen.2⟩
  · refine ⟨i, r, h2 (fun harr => ?_) fun q p score ha => hask ⟨q, p, score, ha⟩, hopen⟩
    have hhere := hopen.1
    rw [ClientRecord.Here, harr] at hhere
    simp at hhere

/-- What the end of an event leaves of a pass: with a record that holds the evacuation open nothing more happens; without one no
record was offered. -/
theorem State.passed_settle {s : State} (hm : s.MarksClear) : s.Passed s.pass.endCheck.settle s.now := by
  obtain ⟨hact, _, hev⟩ := s.pass_same
  by_cases hopen : ∃ i r, s.pass.record i = some r ∧ r.HoldsOpen
  · rw [State.endCheck_open hopen, State.settle_clear (hev.trans hm)]
    exact s.pass_passed
  · have hclosed : s.pass.Closed := fun i r hr ho => hopen ⟨i, r, hr, ho⟩
    have hspares : Spares s.pass s.pass.endCheck.settle :=
      (State.endCheck_spares hclosed).trans (State.settleWith_spares false ((State.endCheck_spares hclosed).closed hclosed))
    unfold State.Passed
    intro u i r hr asked
    obtain ⟨h1, h2⟩ := s.pass_passed i r hr
    refine ⟨fun q p score hask => ?_, fun hs hn => hspares.stand i r (h2 hs hn) hs⟩
    exact absurd ⟨.inr (.inr (.inl rfl)), hask.2.1⟩ (hclosed i _ (h1 q p score hask))

/-- With one ASSOCIATED record at most the pass is that record's turn. -/
theorem State.pass_single {s : State} {i : Fin 64} (h : ∀ k x, k ≠ i → s.record k = some x → x.state ≠ .associated) :
    Grows (s.evacuateSlot i) s.pass := by
  have hidle : ∀ k, k ≠ i → s.evacuateSlot k = s := fun k hk => by
    unfold State.evacuateSlot
    split
    · rename_i r hr
      split
      · rename_i hst _ _
        exact absurd hst (h k r hk hr)
      · rfl
    · rfl
  have hwalk : ∀ l : List (Fin 64), i ∉ l → walk l State.evacuateSlot s = s := fun l => by
    induction l with
    | nil => exact fun _ => rfl
    | cons k l ih =>
      intro hl
      obtain ⟨hk, hl⟩ := not_or.mp (mt List.mem_cons.mpr hl)
      rw [walk_cons, hidle k (Ne.symm hk)]
      exact ih hl
  obtain ⟨before, after, hbefore, _, hpass⟩ := State.pass_split i
  rw [hpass, hwalk before hbefore]
  exact Grows.walk State.evacuateSlot_grows _ _

end Sys2Proof.Machine
end

section
/-! SUPPORT. Proofs: the Activation Controller's timers (O47), put together. -/

namespace Sys2Proof.Machine

/-! ### An advert expiry while EVACUATING (R9, R162) -/

theorem State.placeAdvert_aside (a : Advert) (s : State) : (s.placeAdvert a).aside = s.aside := by
  unfold State.placeAdvert
  simp only
  split
  · rfl
  · split <;> rfl

theorem State.placeAdvert_same (a : Advert) (s : State) : (s.placeAdvert a).store = s.store ∧ (s.placeAdvert a).dist = s.dist := by
  unfold State.placeAdvert
  simp only
  split
  · exact ⟨rfl, rfl⟩
  · split <;> exact ⟨rfl, rfl⟩

/-- The part once the ADVERT of an expiry due at a time stands in its place, before the turns behind it. -/
def State.advertised (s : State) (d : Nat) : State :=
  let p := (s.clockTo d).placeAdvert (s.clockTo d).buildAdvert
  { p with peers := { p.peers with advertDue := some (d + p.cfg.period) } }

theorem State.advertTimer_exec {s : State} {d : Nat} (hr : s.running = true) (hd : s.peers.advertDue = some d) :
    exec .advertTimerExpiry s = .next (s.advertised d).advertRest :=
  congrArg Host.Outcome.next (State.expire_due _ hr hd)

/-- What the turns of an advert expiry leave as it was, for the pass behind them. -/
theorem State.advertised_turns {s w : State} {d : Nat} (hw : (s.advertised d).advertTurns = w) :
    w.now = max s.now d ∧ w.clients = s.clients ∧ w.act = s.act ∧ w.ev = s.ev ∧ w.prio.flows = s.prio.flows ∧ w.cfg = s.cfg ∧
      w.peers.sightings = s.peers.sightings ∧ w.peers.table = s.peers.table ∧ w.peers.ownPath = s.peers.ownPath := by
  subst hw
  obtain ⟨hn, _, hc, hp, hcl, _, _, hf, ha, he, _⟩ := State.aside_parts (s.advertised d).advertTurns_aside
  obtain ⟨kn, _, kc, kp, kcl, _, _, kf, ka, ke, _⟩ :=
    State.aside_parts (State.placeAdvert_aside (s.clockTo d).buildAdvert (s.clockTo d))
  have ks := congrArg PeerUnit.sightings kp
  have kt := congrArg PeerUnit.table kp
  have ko := congrArg PeerUnit.ownPath kp
  exact ⟨hn.trans kn, hcl.trans kcl, ha.trans ka, he.trans ke, hf.trans kf, hc.trans kc,
    (congrArg PeerUnit.sightings hp).trans ks, (congrArg PeerUnit.table hp).trans kt, (congrArg PeerUnit.ownPath hp).trans ko⟩

/-- Beside a READY slot, with nothing else to submit, the turns leave the store idle (R142). -/
theorem State.advertised_resting {s w : State} {d : Nat} (hw : (s.advertised d).advertTurns = w)
    (hready : (s.slot s.spareSlot).state = .ready) (howed : s.dist.manifestOwed = false) (hserve : s.dist.serve = []) :
    w.store = s.store ∧ w.spareSlot = s.spareSlot := by
  subst hw
  obtain ⟨hstore, hdist⟩ := State.placeAdvert_same (s.clockTo d).buildAdvert (s.clockTo d)
  have hdist' : (s.advertised d).dist = s.dist := hdist
  have hslot : ∀ k, (s.advertised d).slot k = s.slot k := fun k => by cases k <;> simp only [State.slot, hdist']
  have hspare : (s.advertised d).spareSlot = s.spareSlot := by rw [State.spareSlot, hdist', State.spareSlot]
  obtain ⟨h1, h2⟩ := State.advertTurns_resting (s := s.advertised d) (by rw [hspare, hslot]; exact hready)
    (by rw [hdist']; exact howed) (by rw [hdist']; exact hserve)
  exact ⟨h1.trans hstore, h2.trans hspare⟩

/-- A record that the pass left OFFERING toward a peer was asked about, and that peer is its best candidate. -/
theorem State.Passed.asked {s t : State} {now : Nat} {i : Fin 64} {r : ClientRecord} {p : Nat} (h : s.Passed t now)
    (hr : s.record i = some r) (hst : r.state = .associated) (ht : t.record i = some (r.offeredTo p now)) :
    ∃ q score, r.steerable = true ∧ r.smoothed = some q ∧ (s.usableAt now).bestCandidate r = some (p, score) ∧ q ≤ score := by
  obtain ⟨hoffer, hstand⟩ := h i r hr
  by_contra hno
  have hnone : ∀ q p' score, ¬(r.state = .associated ∧ r.steerable = true ∧ r.smoothed = some q ∧
      (s.usableAt now).bestCandidate r = some (p', score) ∧ q ≤ score) := fun q p' score hask => by
    have hsame : some (r.offeredTo p' now) = some (r.offeredTo p now) := (hoffer q p' score hask).symm.trans ht
    have hp : p' = p := by
      simpa [ClientRecord.offeredTo] using congrArg (fun x : Option ClientRecord => x.bind ClientRecord.offerTarget) hsame
    subst hp
    exact hno ⟨q, score, hask.2⟩
  have hsame : some r = some (r.offeredTo p now) := (hstand (by rw [hst]; exact nofun) hnone).symm.trans ht
  have hstate : r.state = .offering := congrArg (fun x : Option ClientRecord => (x.getD r).state) hsame
  rw [hst] at hstate
  cases hstate

/-- An offer of a pass is in the transmit order while there is room (R52). -/
theorem State.beginOffer_tx {s : State} {i : Fin 64} {r : ClientRecord} (p : Nat) (hc : s.configured = true) (htx : s.txCount < 12) :
    { sender := s.cfg.nodeId
      dest := p
      body := .offer { client := r.client, used := r.used, dayStamp := r.dayStamp, profile := r.profile, access := r.access.code
                       flows := s.offerFlows r.client } } ∈ (s.beginOffer i r p).pli.tx := by
  show _ ∈ (State.send p _ (State.putRecord i _ s)).pli.tx
  rw [State.send_placed (s := s.putRecord i _) _ _ hc htx]
  exact List.mem_append_right _ (List.mem_singleton.mpr rfl)

theorem State.commit_idle_ev {s : State} (h : s.StoreIdle) : s.commit.ev = s.ev := by rw [State.commit_idle h]

/-- With no record to hold the evacuation open the pass is followed by the commit (R162, R164). -/
theorem State.pass_commits {w : State} (he : w.act.state = .evacuating) (hm : w.MarksClear) (hc : w.Closed) (hi : w.StoreIdle) :
    w.pass.endCheck.settle.act.state = .committing ∧ w.pass.endCheck.settle.act.evacuationDue = none ∧
      w.pass.endCheck.settle.Flies
        { owner := .activation
          kind := .selectorWrite w.store.orders .commit (w.act.sel.committed w.spareSlot) (some w.nextSelector) } := by
  obtain ⟨hact, hstore, hev⟩ := w.pass_same
  have hclosed : w.pass.Closed := fun i r hr => hc i r (by rw [State.record, ← State.pass_clients hc]; exact hr)
  obtain ⟨_, _, _, _, hdist, _⟩ := State.still_parts w.pass_still
  have hidle : w.pass.StoreIdle := by rw [State.StoreIdle, hstore]; exact hi
  rw [State.endCheck_closed (by rw [hact, he]) hclosed, State.settle_clear ((State.commit_idle_ev hidle).trans (hev.trans hm))]
  obtain ⟨h1, h2, _, h4⟩ := State.commit_idle_flies hidle
  rw [State.nextSelector, hstore, hact, State.spareSlot, hdist] at h4
  exact ⟨h1, h2, h4⟩

/-- The one ASSOCIATED record is offered, and its OFFER is in the transmit order (R52, R162). -/
theorem State.pass_offers {w : State} {i : Fin 64} {r : ClientRecord} {q : Int} {p : Nat} {score : Int} (hr : w.record i = some r)
    (hst : r.state = .associated) (hsteer : r.steerable = true) (hsm : r.smoothed = some q)
    (hb : (w.usableAt w.now).bestCandidate r = some (p, score)) (hle : q ≤ score)
    (hothers : ∀ k x, k ≠ i → w.record k = some x → x.state ≠ .associated) (hc : w.configured = true) (htx : w.txCount < 12) :
    { sender := w.cfg.nodeId
      dest := p
      body := .offer { client := r.client, used := r.used, dayStamp := r.dayStamp, profile := r.profile, access := r.access.code
                       flows := w.offerFlows r.client } } ∈ w.pass.pli.tx := by
  have hturn := State.evacuateSlot_offers hr hst hsteer hsm (((Scores.refl w).bestCandidate r).trans hb) hle
  have hgrows : Grows (w.evacuateSlot i) w.pass := State.pass_single hothers
  rw [hturn] at hgrows
  exact hgrows.mem_tx (State.beginOffer_tx (s := w.examine r.client) p hc htx)

/-! ### A departure -/

theorem State.store_of_beside {s t : State} (h : t.beside = s.beside) : t.store = s.store :=
  show t.beside.store = s.beside.store from congrArg State.store h

/-- A departure leaves the record DEPARTED, and with it goes what hung on it; the other records stand (R30). -/
theorem State.depart_same {s : State} (i : Fin 64) (r : ClientRecord) : (s.depart i r).beside = s.beside ∧
    (s.depart i r).ev.departed = true ∧
    ∀ k, (s.depart i r).record k = if k = i then some (r.departedAt s.now) else s.record k := by
  have hsteer : ∀ u : State, (if r.state = .handing then u.setSteerMark i true else u).beside = u.beside ∧
      (if r.state = .handing then u.setSteerMark i true else u).clients = u.clients := fun u => by
    split <;> exact ⟨rfl, rfl⟩
  refine ⟨?_, rfl, fun k => ?_⟩
  · have hflows := State.removeClientFlows_beside r.client
      (if r.state = .handing then (s.putRecord i (r.departedAt s.now)).setSteerMark i true else s.putRecord i (r.departedAt s.now))
    exact hflows.trans (hsteer (s.putRecord i (r.departedAt s.now))).1
  · have hclients : (s.depart i r).clients = (s.putRecord i (r.departedAt s.now)).clients :=
      (State.removeClientFlows_clients _ _).trans (hsteer _).2
    rw [State.record, hclients, ← State.record, State.record_putRecord]
    by_cases hki : k = i
    · rw [if_pos hki, if_pos hki.symm]
    · rw [if_neg hki, if_neg (Ne.symm hki)]

/-! ### The confirm timer (R169) -/

/-- On an idle store the expiry's revert is in flight at once, and RESTARTING holds no ARRIVING record (R161, R166). -/
theorem State.confirmExpired_idle {s : State} (h : s.StoreIdle) :
    s.confirmExpired.act.state = .restarting ∧ s.confirmExpired.act.confirmDue = s.act.confirmDue ∧
      s.confirmExpired.dist.serve = [] ∧ (∀ i r, s.confirmExpired.record i = some r → r.state ≠ .arriving) ∧
      s.confirmExpired.Flies { owner := .activation
                               kind := .selectorWrite s.store.orders .revert s.act.sel.reverted (some s.nextSelector) } := by
  obtain ⟨z, hz⟩ : ∃ z : State, z = { s with act := { s.act with state := .restarting, confirmHeld := false }
                                             dist := { s.dist with serve := [] } } := ⟨_, rfl⟩
  have hbeside : z.dropArriving.beside = z.beside := walk_beside State.deleteSlot_beside _ _
  have hstore : z.dropArriving.store = s.store := (State.store_of_beside hbeside).trans (by rw [hz])
  have hact : z.dropArriving.act = z.act := State.act_of_beside hbeside
  obtain ⟨_, _, _, _, hdist, _⟩ := State.still_parts (State.still_of_beside hbeside)
  have hexp : s.confirmExpired = State.submitRetried
      { order := z.dropArriving.store.orders, owner := .activation, purpose := .revert, sel := s.act.sel.reverted }
      { z.dropArriving with store := { z.dropArriving.store with orders := z.dropArriving.store.orders + 1 } } := by
    rw [hz]
    rfl
  have hidle : State.StoreIdle
      { z.dropArriving with store := { z.dropArriving.store with orders := z.dropArriving.store.orders + 1 } } := by
    rw [hstore]
    exact h
  rw [State.submitRetried_idle hidle rfl] at hexp
  rw [hexp]
  refine ⟨?_, ?_, ?_, fun i r hr => State.dropArriving_gone hr, ?_, ?_⟩
  · exact (congrArg ActivationUnit.state hact).trans (by rw [hz])
  · exact (congrArg ActivationUnit.confirmDue hact).trans (by rw [hz])
  · exact (congrArg DistributionUnit.serve hdist).trans (by rw [hz])
  · simp only [State.flying, RetriedWrite.op, State.nextSelector, hstore]
  · simp only [State.flying, hstore]
    exact h.2

/-! ### The write retry timer (R158) -/

section
variable {s : State} {w : RetriedWrite}

theorem State.retryEnds_held (hw : s.act.retry = some w) (h : s.storeOps.any StoreOp.isSelectorWrite = true) :
    s.retryEnds = { s with act := { s.act with retryDue := some (s.now + 1000) } } := by
  unfold State.retryEnds
  split
  · rw [if_pos h]
    rfl
  · rename_i hnone
    rw [hw] at hnone
    cases hnone

theorem State.retryEnds_free (hw : s.act.retry = some w) (h : s.storeOps.any StoreOp.isSelectorWrite = false) :
    s.retryEnds = State.submitRetried w { s with act := { s.act with retryDue := none } } := by
  unfold State.retryEnds
  split
  · rename_i w' hw'
    rw [hw] at hw'
    cases hw'
    rw [if_neg (by rw [h]; exact Bool.false_ne_true)]
  · rename_i hnone
    rw [hw] at hnone
    cases hnone

theorem State.retryExpiry_due {d : Nat} (h : s.act.retryDue = some d) : s.retryExpiry = (s.clockTo d).retryEnds := by
  rw [State.retryExpiry, h]

theorem State.storeOps_idle (h : s.StoreIdle) : s.storeOps = [] := by
  rw [State.storeOps, h.1, h.2]
  rfl

/-- On an idle store the write kept is in flight again. -/
theorem State.retryEnds_flies (hw : s.act.retry = some w) (h : s.StoreIdle) (ho : w.owner = .activation ∨ w.owner = .start) :
    s.retryEnds.act.retryDue = none ∧ s.retryEnds.Flies (w.op s.nextSelector) := by
  rw [State.retryEnds_free hw (by rw [State.storeOps_idle h]; rfl)]
  rcases ho with ho | ho
  · have hsub := State.submitRetried_idle (s := { s with act := { s.act with retryDue := none } }) h ho
    rw [hsub]
    exact ⟨rfl, rfl, h.2⟩
  · have hsub := State.submitRetried_idle_start (s := { s with act := { s.act with retryDue := none } }) h ho
    rw [hsub]
    exact ⟨rfl, rfl, h.2⟩

end

/-- Settles O47: each timer's own effect, a write into an idle store, and the end of the event. -/
theorem activationTimersExpire : Obligations.ActivationTimersExpire := by
  unfold Obligations.ActivationTimersExpire
  intro s hr hm held committed reverted q
  refine ⟨fun d hd he hidle => ?_, fun d hd he => ?_, fun n m i r htakes hok he hold hhere => ?_, fun d hd hop => ?_,
    fun d hd hidle => ?_, fun d w hd hw hop => ?_, fun d w hd hw hidle howner => ?_⟩
  · let u : State := s.clockTo d
    have hexec : exec .evacuationLimitExpiry s = .next u.commit := by
      refine congrArg Host.Outcome.next ((State.expire_due _ hr hd).trans ?_)
      have he' : u.act.state = .evacuating := he
      have hev : u.commit.ev = s.ev := by rw [State.commit_idle (s := u) hidle]; rfl
      exact (if_pos he').trans (State.settle_of_ev hm hev)
    obtain ⟨h1, h2, h3, h4⟩ := State.commit_idle_flies (s := u) hidle
    exact ⟨u.commit, hexec, h1, h2, h3, h4⟩
  · obtain ⟨w, hw⟩ : ∃ w, (s.advertised d).advertTurns = w := ⟨_, rfl⟩
    obtain ⟨hnow, hclients, hact, hev, hflows, hcfg, hsight, htable, hown⟩ := State.advertised_turns hw
    have hevac : w.act.state = .evacuating := (congrArg ActivationUnit.state hact).trans he
    have hrest : (s.advertised d).advertRest = w.pass.endCheck.settle := by
      unfold State.advertRest
      rw [hw, if_pos hevac]
    obtain ⟨hpact, hpstore, hpev⟩ := w.pass_same
    have hmw : w.MarksClear := hev.trans hm
    have hpassed : s.Passed w.pass.endCheck.settle (max s.now d) :=
      hnow ▸ (State.passed_settle hmw).of_same hsight htable hown hclients
    have hpassed0 : s.Passed w.pass (max s.now d) := hnow ▸ w.pass_passed.of_same hsight htable hown hclients
    refine ⟨_, State.advertTimer_exec hr hd, ?_⟩
    rw [hrest]
    refine ⟨hpassed, fun hopen => ?_, fun hclosed hidle hready howed hserve => ?_, fun i r p hri hst hti hothers hlo hhi htx => ?_⟩
    · rw [State.endCheck_open (hpassed0.open hopen), State.settle_clear (hpev.trans hmw), hpact, hact]
    · obtain ⟨hwstore, hwspare⟩ := State.advertised_resting hw hready howed hserve
      have hwclosed : w.Closed := fun i r hr => hclosed i r (by rw [State.record, ← hclients]; exact hr)
      obtain ⟨h1, h2, h4⟩ := State.pass_commits hevac hmw hwclosed (by rw [State.StoreIdle, hwstore]; exact hidle)
      rw [State.nextSelector, hwstore, hact, hwspare] at h4
      exact ⟨h1, h2, h4⟩
    · obtain ⟨q', score, hsteer, hsm, hbest, hle⟩ := hpassed.asked hri hst hti
      have hwr : w.record i = some r := by rw [State.record, hclients]; exact hri
      have hwbest : (w.usableAt w.now).bestCandidate r = some (p, score) := by
        rw [hnow]
        refine (State.bestCandidate_congr (s := s.usableAt (max s.now d)) (t := w.usableAt (max s.now d)) ?_ htable hown hclients
          r).trans hbest
        exact congrArg (List.filter fun g : SightingEntry => ((max s.now d : Nat) : Int) ≤ g.validity + 3000) hsight
      have hroom : w.txCount < 12 := by
        have h1 : w.txCount ≤ _ := hw ▸ (s.advertised d).advertTurns_txCount_le
        have h2 : (s.advertised d).txCount = s.txCount := State.placeAdvert_txCount (s.clockTo d).buildAdvert (s.clockTo d)
        omega
      have hconf : w.configured = true := State.configured_iff.mpr (by rw [hcfg]; exact ⟨hlo, hhi⟩)
      have hin := State.pass_offers hwr hst hsteer hsm hwbest hle (fun k x hk hx =>
        hothers k x hk (by rw [State.record, ← hclients]; exact hx)) hconf hroom
      rw [hcfg] at hin
      exact ⟨w.offerFlows r.client, (w.carriesFlows_offer r.client).of_flows hflows,
        ((State.endCheck_grows _).trans (State.settle_grows _)).mem_tx hin⟩
  · let u : State := s.clockTo n
    obtain ⟨hfind, hri⟩ := hold
    have hri' : u.record i = some r := hri
    let v : State := u.depart i r
    obtain ⟨hvb, hvev, hvrec⟩ := State.depart_same (s := u) i r
    obtain ⟨hxb, hxc, _⟩ := v.priority_same
    let x : State := v.retest.priorityEnd
    have hvevac : v.act.state = .evacuating := (congrArg ActivationUnit.state (State.act_of_beside hvb)).trans he
    have hexec : exec (.disassociate n m) s = .next { x.endCheck with ev := EventMarks.clear } := by
      refine congrArg Host.Outcome.next ((State.hostMessage_observed n htakes rfl hok).trans ?_)
      have htake : State.takeDisassociate m.tag m.body u = v.settle := by
        have hfind' : u.findClient (clientField m.body 0) = some i := hfind
        have hass : r.associatedHere = true := by
          unfold ClientRecord.associatedHere
          rcases hhere with h | h | h | h <;> rw [h]
        simp [State.takeDisassociate, hfind', hri', hass, v]
      exact htake.trans (State.settle_evacuating hvevac hvev)
    have hxact : x.act = s.act := (State.act_of_beside hxb).trans (State.act_of_beside (s := u) (t := v) hvb)
    have hxrec : ∀ k, x.record k = if k = i then some (r.departedAt u.now) else s.record k := fun k => by
      rw [State.record, hxc]
      exact hvrec k
    refine ⟨_, hexec, fun ⟨k, y, hk, hy, hopen⟩ => ?_, fun hclosed hidle => ?_⟩
    · rw [State.endCheck_open ⟨k, y, by rw [hxrec, if_neg hk]; exact hy, hopen⟩]
      exact hxact
    · have hxclosed : ∀ k y, x.record k = some y → ¬y.HoldsOpen := fun k y hy => by
        rw [hxrec] at hy
        split at hy
        · cases hy
          rintro ⟨h | h | h | h, _⟩ <;> cases h
        · exact hclosed k y ‹_› hy
      have hxstore : x.store = s.store := (State.store_of_beside hxb).trans (State.store_of_beside (s := u) (t := v) hvb)
      have hxspare : x.spareSlot = s.spareSlot :=
        (congrArg (fun y : Still => y.dist.active.other) (State.still_of_beside hxb)).trans
          (congrArg (fun y : Still => y.dist.active.other) (State.still_of_beside hvb))
      have hxidle : x.StoreIdle := by rw [State.StoreIdle, hxstore]; exact hidle
      rw [State.endCheck_closed (by rw [hxact, he]) hxclosed]
      obtain ⟨h1, h2, _, h4⟩ := State.commit_idle_flies hxidle
      rw [State.nextSelector, hxstore, hxact, hxspare] at h4
      exact ⟨h1, h2, h4⟩
  · refine congrArg Host.Outcome.next ((State.expire_due _ hr hd).trans ?_)
    have hany : (s.clockTo d).storeOps.any StoreOp.isConfirm = true := List.any_eq_true.mpr hop
    have hends : (s.clockTo d).confirmEnds =
        { s.clockTo d with act := { s.act with confirmDue := none, confirmHeld := true } } := by
      simp only [State.confirmEnds, hany, if_true]
      rfl
    rw [hends]
    exact State.settle_of_ev hm rfl
  · let v : State := { s.clockTo d with act := { s.act with confirmDue := none } }
    obtain ⟨h1, h2, h3, h4, h5⟩ := State.confirmExpired_idle (s := v) hidle
    have hends : (s.clockTo d).confirmEnds = v.confirmExpired := by
      have hnone : (s.clockTo d).storeOps.any StoreOp.isConfirm = false := by
        rw [State.storeOps_idle (s := s.clockTo d) hidle]
        rfl
      simp only [State.confirmEnds, hnone, Bool.false_eq_true, if_false]
      rfl
    have hcalm : v.confirmExpired.Calm := by rw [State.Calm, h1]; exact ⟨nofun, nofun⟩
    have hexec : exec .confirmTimerExpiry s = .next v.confirmExpired.settle := by
      refine congrArg Host.Outcome.next ((State.expire_due _ hr hd).trans ?_)
      rw [hends]
    have hsettle : v.confirmExpired.settle = _ := State.settleWith_calm false hcalm
    obtain ⟨hb, hc, _⟩ := v.confirmExpired.priority_same
    refine ⟨_, hexec, ?_⟩
    rw [hsettle]
    obtain ⟨_, _, _, _, hdist, _⟩ := State.still_parts (State.still_of_beside hb)
    refine ⟨(congrArg ActivationUnit.state (State.act_of_beside hb)).trans h1,
      (congrArg ActivationUnit.confirmDue (State.act_of_beside hb)).trans h2, (congrArg DistributionUnit.serve hdist).trans h3,
      fun i r hri => h4 i r ?_, ?_⟩
    · rw [State.record, ← hc]
      exact hri
    · have hstore := State.store_of_beside hb
      exact ⟨(congrArg StoreUnit.inflight hstore).trans h5.1, (congrArg StoreUnit.waiting hstore).trans h5.2⟩
  · have hany : (s.clockTo d).storeOps.any StoreOp.isSelectorWrite = true := List.any_eq_true.mpr hop
    exact congrArg Host.Outcome.next ((State.retryExpiry_due hd).trans (State.retryEnds_held (s := s.clockTo d) hw hany))
  · obtain ⟨hdue, hflies⟩ := State.retryEnds_flies (s := s.clockTo d) hw hidle howner
    have hexec : exec .writeRetryTimerExpiry s = .next (s.clockTo d).retryEnds :=
      congrArg Host.Outcome.next (State.retryExpiry_due hd)
    exact ⟨_, hexec, hdue, hflies⟩

end Sys2Proof.Machine
end

section
/-! SUPPORT. Proofs: what the units make of a completion once the next operation is in flight. The operation in flight stays
there, those that wait keep their places at the head of the queue, the selector and its copies stand, and what was raised or
sent is still there. -/

namespace Sys2Proof.Machine

/-- The parts that `Follows` is about. -/
def State.followed (s : State) :
    List Notice × List Frame × Option StoreOp × List StoreOp × Option CopyId × Nat × Selector :=
  (s.port.notices, s.pli.tx, s.store.inflight, s.store.waiting, s.store.copy, s.store.seqNo, s.act.sel)

/-- A later state of an event in which the store has an operation in flight. -/
structure Follows (s t : State) : Prop where
  grows : Grows s t
  queue : ∀ op, s.store.inflight = some op → t.store.inflight = some op ∧ s.store.waiting <+: t.store.waiting
  copy : t.store.copy = s.store.copy
  seqNo : t.store.seqNo = s.store.seqNo
  sel : t.act.sel = s.act.sel

theorem Follows.refl (s : State) : Follows s s := ⟨.refl s, fun _ h => ⟨h, List.prefix_rfl⟩, rfl, rfl, rfl⟩

theorem Follows.trans {s t u : State} (h : Follows s t) (k : Follows t u) : Follows s u where
  grows := h.grows.trans k.grows
  queue := fun op ho =>
    have ⟨h1, h2⟩ := h.queue op ho
    have ⟨k1, k2⟩ := k.queue op h1
    ⟨k1, h2.trans k2⟩
  copy := k.copy.trans h.copy
  seqNo := k.seqNo.trans h.seqNo
  sel := k.sel.trans h.sel

/-- A change that leaves the store and the selector. -/
theorem Follows.of_store {s t : State} (hg : Grows s t) (hs : t.store = s.store) (hsel : t.act.sel = s.act.sel) : Follows s t :=
  ⟨hg, fun _ h => ⟨hs ▸ h, by rw [hs]⟩, by rw [hs], by rw [hs], hsel⟩

theorem Follows.of_beside {s t : State} (h : t.beside = s.beside) : Follows s t :=
  .of_store (.of_beside h) (State.store_of_beside h)
    (show t.beside.act.sel = s.beside.act.sel from congrArg (fun x : State => x.act.sel) h)

/-- A change outside the parts that `Follows` is about. -/
theorem Follows.plain {s t : State} (h : t.followed = s.followed) : Follows s t := by
  obtain ⟨hn, ht, hi, hw, hc, hq, hs⟩ : t.port.notices = s.port.notices ∧ t.pli.tx = s.pli.tx ∧
      t.store.inflight = s.store.inflight ∧ t.store.waiting = s.store.waiting ∧ t.store.copy = s.store.copy ∧
      t.store.seqNo = s.store.seqNo ∧ t.act.sel = s.act.sel := by simpa [State.followed] using h
  exact ⟨⟨by rw [hn], by rw [ht]⟩, fun _ h => ⟨hi ▸ h, by rw [hw]⟩, hc, hq, hs⟩

theorem Follows.after {s u t : State} (h : Follows u t) (hu : u.followed = s.followed) : Follows s t := (Follows.plain hu).trans h

theorem Follows.walk {α : Type} {f : α → State → State} (h : ∀ x s, Follows s (f x s)) (xs : List α) (s : State) :
    Follows s (walk xs f s) := walk_keeps (fun t => Follows s t) f (fun x _ ht => ht.trans (h x _)) xs s (.refl s)

variable (s : State)

theorem State.raise_follows (n : Notice) : Follows s (s.raise n) :=
  .of_store (State.raise_grows n s) (State.raise_store s n) (by rw [State.raise_act])

theorem State.send_follows (d : Nat) (b : FrameBody) : Follows s (s.send d b) :=
  .of_store (State.send_grows d b s) (State.send_store s d b) (by rw [State.send_act])

theorem State.sendChunk_follows (d v i : Nat) (data : List Byte) : Follows s (s.sendChunk d v i data) := by
  unfold State.sendChunk State.placeFrame
  split
  · exact .refl s
  · exact .of_store ⟨List.prefix_rfl, List.prefix_append _ _⟩ rfl rfl

theorem State.putSlotRecord_follows (k : SlotId) (r : SlotRecord) : Follows s (s.putSlotRecord k r) := by
  cases k <;> exact .plain rfl

theorem State.markAccepted_follows (op : StoreOp) : Follows s (s.markAccepted op) := by
  obtain ⟨hst, _, hact, _⟩ := State.markAccepted_same op s
  exact .of_store (State.markAccepted_grows op s) hst (by rw [hact])

theorem State.submit_follows (op : StoreOp) : Follows s (s.submit op).1 := by
  rcases State.submit_cases op s with ⟨h, _⟩ | ⟨h, _, _⟩ | ⟨_, _, _, _, ⟨hi, hw, h⟩ | ⟨hroom, h⟩⟩
  · rw [h]
    exact .refl s
  · obtain ⟨hact, _, hst⟩ := State.raiseRefused_parts op s
    exact .of_store (State.submit_grows op s) (by rw [h, hst]) (by rw [h, hact])
  · rw [h]
    have fly : ∀ y, Follows s { s with store := { s.store with inflight := y } } := fun y =>
      ⟨⟨List.prefix_rfl, List.prefix_rfl⟩, fun x hx => absurd (hi.symm.trans hx) (by simp), rfl, rfl, rfl⟩
    exact (fly _).trans (State.markAccepted_follows _ op)
  · rw [h]
    have wait : ∀ l, Follows s { s with store := { s.store with waiting := s.store.waiting ++ l } } := fun l =>
      ⟨⟨List.prefix_rfl, List.prefix_rfl⟩, fun x hx => ⟨hx, List.prefix_append _ _⟩, rfl, rfl, rfl⟩
    exact (wait _).trans (State.markAccepted_follows _ op)

/-! ### The Activation Controller and the end of an event -/

theorem State.submitSelector_follows (w : RetriedWrite) : Follows s (s.submitSelector w).1 := by
  unfold State.submitSelector
  simp only
  split
  · exact (State.submit_follows s _).trans (.plain rfl)
  · exact State.submit_follows s _

theorem State.startRetry_follows (w : RetriedWrite) : Follows s (s.startRetry w) := by
  unfold State.startRetry
  simp only
  split
  · split <;> exact .plain rfl
  · split <;> exact .plain rfl

theorem State.submitRetried_follows (w : RetriedWrite) : Follows s (s.submitRetried w) := by
  unfold State.submitRetried
  simp only
  split
  · exact State.submitSelector_follows s w
  · exact (State.submitSelector_follows s w).trans (State.startRetry_follows _ w)

theorem State.dropArriving_follows : Follows s s.dropArriving :=
  .of_beside (walk_beside State.deleteSlot_beside _ _)

theorem State.pass_follows : Follows s s.pass := by
  obtain ⟨hact, hst, _⟩ := State.pass_same s
  exact .of_store (Grows.walk State.evacuateSlot_grows _ s) hst (by rw [hact])

theorem State.beginEvacuation_follows : Follows s s.beginEvacuation :=
  ((State.dropArriving_follows _).trans (State.pass_follows _)).after rfl

theorem State.reopen_follows : Follows s s.reopen := by
  have h : Follows s { s with act := { s.act with state := .waiting } } := .plain rfl
  unfold State.reopen
  simp only
  split
  · exact h.trans (State.beginEvacuation_follows _)
  · exact h

theorem State.commit_follows : Follows s s.commit := by
  unfold State.commit
  extract_lets _ s1 w r
  have h : Follows s r.1 := (State.submitSelector_follows _ _).after rfl
  split
  · exact h
  · exact h.trans (State.reopen_follows _)

theorem State.endCheck_follows : Follows s s.endCheck := by
  unfold State.endCheck
  split
  · exact State.commit_follows s
  · exact .refl s

theorem State.gateTest_follows : Follows s s.gateTest := by
  unfold State.gateTest
  split
  · exact (State.beginEvacuation_follows s).trans (State.endCheck_follows _)
  · exact .refl s

theorem State.slotReady_follows : Follows s s.slotReady := by
  unfold State.slotReady
  split
  · exact (State.gateTest_follows _).after rfl
  · exact .refl s

theorem State.settle_follows : Follows s s.settle := by
  have gate : ∀ u : State, Follows u (if u.ev.admittedChanged then u.gateTest else u) := fun u => by
    split
    · exact State.gateTest_follows u
    · exact .refl u
  have check : ∀ u : State, Follows u (if u.ev.departed then u.endCheck else u) := fun u => by
    split
    · exact State.endCheck_follows u
    · exact .refl u
  have clear : ∀ u : State, Follows u { u with ev := EventMarks.clear } := fun _ => .plain rfl
  exact ((((Follows.of_beside (State.retest_beside s)).trans (gate _)).trans
    (.of_beside (State.priorityEnd_beside _))).trans (check _)).trans (clear _)

/-! ### Completions of selector writes -/

theorem State.endRetry_follows (n : Nat) : Follows s (s.endRetry n) := by
  unfold State.endRetry
  split
  · split <;> exact .plain rfl
  · exact .refl s

theorem State.enterRestarting_follows : Follows s s.enterRestarting :=
  (State.dropArriving_follows _).after rfl

theorem State.confirmExpired_follows : Follows s s.confirmExpired := by
  unfold State.confirmExpired
  have order : ∀ u : State, Follows u (u.newWrite .activation .revert s.act.sel.reverted).2 := fun _ => .plain rfl
  exact (((State.enterRestarting_follows _).trans (order _)).trans (State.submitRetried_follows _ _)).after rfl

theorem State.selectorWritten_follows (w : RetriedWrite) : Follows s (s.selectorWritten w) := by
  have clear : Follows s s.clearWriteMark := .plain rfl
  have h : Follows s (s.clearWriteMark.endRetry w.order) := clear.trans (State.endRetry_follows _ _)
  unfold State.selectorWritten
  simp only
  split
  · exact h.trans ((State.enterRestarting_follows _).trans (.plain rfl))
  · exact h.trans (.plain rfl)
  · exact h.trans (.plain rfl)
  · split
    · exact h.trans (.plain rfl)
    · exact h
  · exact h
  · exact h

theorem State.selectorFailed_follows (w : RetriedWrite) : Follows s (s.selectorFailed w) := by
  have clear : Follows s s.clearWriteMark := .plain rfl
  unfold State.selectorFailed
  simp only
  split
  · exact (State.gateTest_follows _).after rfl
  · split
    · exact (State.confirmExpired_follows _).after rfl
    · exact .plain rfl
  case h_3 | h_4 | h_5 | h_6 => exact clear.trans (State.startRetry_follows _ w)

/-! ### The start sequence -/

theorem State.startOp_follows (st : Stage) (kind : OpKind) : Follows s (s.startOp st kind) :=
  (State.submit_follows _ _).after rfl

theorem State.seqConfig_follows (b : Option (List Byte)) : Follows s (s.seqConfig b) :=
  (State.startOp_follows _ _ _).after rfl

theorem State.putReady_follows (k : SlotId) (r : SlotRecord) : Follows s (s.putSlotRecord k r).seqReady :=
  (State.putSlotRecord_follows s k r).trans (.plain rfl)

theorem State.seqVerified_follows (b : Nat) (m : Bool) : Follows s (s.seqVerified b m) := by
  unfold State.seqVerified
  simp only
  split
  · unfold State.seqVerify
    split
    · exact State.startOp_follows s _ _
    · exact .plain rfl
  · split
    · exact State.startOp_follows s _ _
    · exact State.putReady_follows s _ _

theorem State.seqSelectorDone_follows (n : Nat) (p : SelPurpose) (ok : Bool) : Follows s (s.seqSelectorDone n p ok) := by
  have note : Follows s (s.noteRevert p ok) := by
    unfold State.noteRevert
    split <;> exact .plain rfl
  unfold State.seqSelectorDone
  simp only
  split
  · split
    · split <;> exact note.trans (State.startOp_follows _ _ _)
    · exact note
  · split
    · exact note.trans (State.startOp_follows _ _ _)
    · exact note
  · exact note

/-- A step of the sequence that follows an operation other than a read of a record. -/
theorem State.seqDone_follows {kind : OpKind} (r : StoreResult) (hk : kind.isRecordRead = false) : Follows s (s.seqDone kind r) := by
  unfold State.seqDone
  split
  · rename_i hw
    unfold State.seqNext
    split
    case h_1 h | h_2 h | h_6 h | h_7 h | h_9 h | h_10 h | h_11 h | h_12 h | h_13 h | h_14 h =>
      rw [h] at hw
      cases kind <;> simp [Stage.waitsFor, OpKind.isRecordRead] at hw hk
    case h_3 => split <;> [skip; split] <;> exact State.startOp_follows s _ _
    case h_4 => split <;> exact State.startOp_follows s _ _
    case h_5 => split <;> exact State.startOp_follows s _ _
    case h_8 =>
      unfold State.seqPromoted
      split
      · exact State.startOp_follows s _ _
      · exact State.seqConfig_follows s _
    case h_15 => exact .plain rfl
    case h_16 => exact State.seqVerified_follows s _ _
    case h_17 => exact State.putReady_follows s _ _
    case h_18 | h_19 | h_20 | h_21 | h_22 => exact .refl s
  · exact .refl s

/-! ### The Distribution Unit -/

theorem State.mapBlock_follows (k : SlotId) (b : Nat) (f : Block → Block) : Follows s (s.mapBlock k b f) :=
  State.putSlotRecord_follows s _ _

theorem State.submitVerify_follows (k : SlotId) (v b : Nat) : Follows s (s.submitVerify k v b) := by
  unfold State.submitVerify
  split
  · exact (State.submit_follows s _).trans (State.mapBlock_follows _ _ _ _)
  · exact .refl s

theorem State.submitCheck_follows (k : SlotId) (v : Nat) : Follows s (s.submitCheck k v) := by
  unfold State.submitCheck
  split
  · exact (State.submit_follows s _).trans (State.putSlotRecord_follows _ _ _)
  · exact .refl s

theorem State.submitManifest_follows : Follows s s.submitManifest := by
  unfold State.submitManifest
  split
  · split
    · simp only
      split
      · exact (State.submit_follows s _).trans (.plain rfl)
      · exact State.submit_follows s _
    · exact .refl s
  · exact .refl s

theorem State.manifestWritten_follows (k : SlotId) (v : Nat) (failed : Bool) : Follows s (s.manifestWritten k v failed) := by
  unfold State.manifestWritten
  simp only
  split
  · exact (State.submitManifest_follows _).after rfl
  · exact State.submitManifest_follows s

theorem State.eraseDone_follows (k : SlotId) (v b : Nat) (ok : Bool) : Follows s (s.eraseDone k v b ok) := by
  unfold State.eraseDone
  split
  · exact State.mapBlock_follows s _ _ _
  · exact .refl s

theorem State.programDone_follows (k : SlotId) (v i : Nat) (r : StoreResult) : Follows s (s.programDone k v i r) := by
  unfold State.programDone
  split
  · split
    · simp only
      split
      · exact (State.mapBlock_follows s _ _ _).trans (State.submitVerify_follows _ _ _ _)
      · exact State.mapBlock_follows s _ _ _
    · exact State.mapBlock_follows s _ _ _
    · exact State.mapBlock_follows s _ _ _
  · exact .refl s

theorem State.enterChecking_follows (k : SlotId) (v : Nat) : Follows s (s.enterChecking k v) := by
  unfold State.enterChecking
  split
  · exact (State.putSlotRecord_follows s _ _).trans (State.submitCheck_follows _ _ _)
  · exact .refl s

theorem State.verifyDone_follows (k : SlotId) (v b : Nat) (r : StoreResult) : Follows s (s.verifyDone k v b r) := by
  unfold State.verifyDone
  split
  · split
    · exact (State.mapBlock_follows s _ _ _).trans ((State.enterChecking_follows _ _ _).after rfl)
    · exact (State.mapBlock_follows s _ _ _).trans ((State.raise_follows _ _).after rfl)
    · exact State.mapBlock_follows s _ _ _
  · exact .refl s

theorem State.checkDone_follows (k : SlotId) (v : Nat) (r : StoreResult) : Follows s (s.checkDone k v r) := by
  unfold State.checkDone
  split
  · split
    · exact ((State.putSlotRecord_follows s _ _).trans (State.raise_follows _ _)).trans (State.slotReady_follows _)
    · exact (State.putSlotRecord_follows s _ _).trans ((State.raise_follows _ _).after rfl)
    · exact State.putSlotRecord_follows s _ _
  · exact .refl s

theorem serveTurns_follows (n : Nat) : Follows s (serveTurns n s) := by
  induction n generalizing s with
  | zero => exact .refl s
  | succ n ih =>
    have quiet : ∀ {u : State} {d : DistributionUnit}, Follows u { u with dist := d } := .plain rfl
    unfold serveTurns
    split
    · exact .refl s
    · split
      · exact .refl s
      · split
        · exact quiet.trans (ih _)
        · split
          · exact .refl s
          · split
            · exact quiet.trans (ih _)
            · simp only
              split
              · exact (State.submit_follows s _).trans (.plain rfl)
              · exact (State.submit_follows s _).trans ((ih _).after rfl)

theorem State.serveEngine_follows : Follows s s.serveEngine := serveTurns_follows s _

theorem State.readDone_follows (peer : Nat) (k : SlotId) (v i : Nat) (r : StoreResult) : Follows s (s.readDone peer k v i r) := by
  have map : ∀ f, Follows s (s.mapServe f) := fun _ => .plain rfl
  unfold State.readDone
  split
  · split
    · exact ((State.send_follows _ _ _).trans (State.serveEngine_follows _)).after rfl
    · exact State.serveEngine_follows s
  · split
    · exact ((map _).trans (State.sendChunk_follows _ _ _ _ _)).trans (State.serveEngine_follows _)
    · exact (map _).trans (State.serveEngine_follows _)
  · split <;> exact (map _).trans (State.serveEngine_follows _)

/-! ### Deliveries -/

theorem State.submitBook_follows : Follows s s.submitBook := by
  unfold State.submitBook
  split
  · simp only
    split
    · exact (State.submit_follows s _).trans (.plain rfl)
    · exact State.submit_follows s _
  · exact .refl s

theorem State.bookWritten_follows (ok : Bool) : Follows s (s.bookWritten ok) := by
  unfold State.bookWritten
  split
  · exact (State.submitBook_follows _).after rfl
  · exact .plain rfl

theorem State.deliverSelector_follows (o : Owner) (n : Nat) (p : SelPurpose) (sel : Selector) (r : StoreResult) :
    Follows s (s.deliverSelector o n p sel r) := by
  have h : ∀ w, Follows s (if r = .ok then s.selectorWritten w else s.selectorFailed w) := fun w => by
    split
    · exact State.selectorWritten_follows s w
    · exact State.selectorFailed_follows s w
  unfold State.deliverSelector
  simp only
  split
  · exact (h _).trans (State.seqSelectorDone_follows _ _ _ _)
  · exact h _

theorem State.deliverFill_follows (kind : OpKind) (r : StoreResult) : Follows s (s.deliverFill kind r) := by
  unfold State.deliverFill
  split
  · exact State.eraseDone_follows s _ _ _ _
  · exact State.programDone_follows s _ _ _ _
  · exact State.verifyDone_follows s _ _ _ _
  · exact State.checkDone_follows s _ _ _
  · exact State.manifestWritten_follows s _ _ _
  · exact .refl s

/-- The delivery of an operation other than a read of a record (R131). -/
theorem State.deliver_follows {op : StoreOp} (r : StoreResult) (hk : op.kind.isRecordRead = false) : Follows s (s.deliver op r) := by
  unfold State.deliver
  split
  · exact State.deliverSelector_follows s _ _ _ _ _
  · split
    · exact State.seqDone_follows s r hk
    · exact State.deliverFill_follows s _ _
    · split
      · exact State.readDone_follows s _ _ _ _ _
      · exact .refl s
    · exact State.bookWritten_follows s _
    · exact .plain rfl
    · exact .plain rfl
    · exact .refl s

theorem walk_deliver_follows (l : List (StoreOp × StoreResult)) (h : ∀ x ∈ l, x.1.kind.isRecordRead = false) :
    Follows s (walk l (fun x s => (s.deliver x.1 x.2).settle) s) := by
  induction l generalizing s with
  | nil => exact .refl s
  | cons x xs ih =>
    exact ((State.deliver_follows s x.2 (h x List.mem_cons_self)).trans (State.settle_follows _)).trans
      (ih _ fun y hy => h y (List.mem_cons_of_mem _ hy))

/-- A completion of any operation but a read of a record, once those behind it have gone into flight. -/
theorem State.completeOp_follows {op : StoreOp} (d : Device) (hk : op.kind.isRecordRead = false) :
    Follows (s.complete op d).1 (s.completeOp op d) := by
  refine walk_deliver_follows _ _ fun x hx => ?_
  rcases List.mem_cons.mp hx with rfl | hx
  · exact hk
  · exact launch_cut _ _ x hx

end Sys2Proof.Machine
end

section
/-! SUPPORT. Proofs: what a completion makes of the operations that wait (R131, R133 to R135). -/

namespace Sys2Proof.Machine

/-! ### Protected and stale operations -/

theorem Selector.protects_iff {sel : Selector} {k : SlotId} : sel.protects k = true ↔ sel.Protects k := by
  simp [Selector.protects, Selector.Protects]

/-- An operation that a completion finds aimed at what the selector protects (R133). -/
def StoreOp.Hits (op : StoreOp) (sel : Selector) (target : StoreTarget) (kind : RefusedKind) : Prop :=
  ∃ k, op.AimsAt k target kind ∧ sel.Protects k

/-- Of the areas that a unit may write, the protected ones are the manifest areas of the protected slots (R133, R134). -/
theorem Area.isProtected_of_writable {sel : Selector} {a : Area} {o : Owner} (h : a.writableBy o = true) :
    a.isProtected sel o = true ↔ ∃ k, a = .manifest k ∧ sel.Protects k := by
  cases a with
  | manifest k => simp [Area.isProtected, Selector.protects_iff]
  | configStaged => simp [Area.isProtected]
  | book => simp [Area.isProtected]
  | configActive => cases o <;> [simp [Area.isProtected]; cases h; cases h; cases h; cases h; cases h; cases h]
  | selector c =>
    cases o <;> [simp [Area.isProtected]; cases h; cases h; cases h; simp [Area.isProtected]; cases h; cases h]

/-- A protected operation is one that its unit may not submit, or one aimed at what the selector protects (R133, R134). -/
theorem StoreOp.isProtected_iff {sel : Selector} {op : StoreOp} : op.isProtected sel = true ↔
    ¬op.Rightful ∨ ∃ target kind, op.Hits sel target kind := by
  obtain ⟨owner, kind⟩ := op
  cases kind with
  | recordWrite a v body =>
    have hits : (∃ target kind, StoreOp.Hits ⟨owner, .recordWrite a v body⟩ sel target kind) ↔
        ∃ k, a = .manifest k ∧ sel.Protects k := by simp [StoreOp.Hits, StoreOp.AimsAt]
    rw [hits]
    show (!a.writableBy owner || a.isProtected sel owner) = true ↔ ¬a.writableBy owner = true ∨ _
    cases hw : a.writableBy owner with
    | false => simp
    | true => simpa using Area.isProtected_of_writable hw
  | eraseArea a =>
    cases a <;> cases owner <;>
      simp [StoreOp.isProtected, StoreOp.Rightful, StoreOp.Hits, StoreOp.AimsAt, Area.isProtected, Selector.protects_iff]
  | _ => simp [StoreOp.isProtected, StoreOp.Rightful, StoreOp.Hits, StoreOp.AimsAt, Selector.protects_iff]

theorem State.stale_iff {s : State} {op : StoreOp} : s.stale op = true ↔ s.MovedOn op := by
  unfold State.stale State.MovedOn
  by_cases ho : op.owner = .start
  · simp [ho]
  · cases hk : op.kind with
    | readChunk k v i => cases hst : (s.slot k).state <;> simp [ho, SlotRecord.readable, hst]
    | programChunk k v i data => simp [ho]; tauto
    | _ => simp [ho, imp_iff_not_or]

/-- A notice of an operation that is aimed at a slot (R133). -/
theorem StoreOp.AimsAt.refusal {op : StoreOp} {k : SlotId} {target : StoreTarget} {kind : RefusedKind}
    (h : op.AimsAt k target kind) : op.kind.refusal = some (target, kind) := by
  rcases h with ⟨v, i, data, hk, rfl, rfl⟩ | ⟨v, b, hk, rfl, rfl⟩ | ⟨v, body, hk, rfl, rfl⟩ | ⟨hk, rfl, rfl⟩ <;> rw [hk] <;> rfl

theorem State.raiseRefused_hits {op : StoreOp} {sel : Selector} {target : StoreTarget} {kind : RefusedKind}
    (h : op.Hits sel target kind) (s : State) : s.raiseRefused op = s.raise (.storeRefused target kind op.owner.unit) := by
  obtain ⟨k, haim, _⟩ := h
  unfold State.raiseRefused
  rw [haim.refusal]

/-! ### Going into flight -/

theorem launch_protected {op : StoreOp} {s : State} (rest : List StoreOp) (h : op.isProtected s.act.sel = true) :
    launch (op :: rest) s = ((launch rest (s.raiseRefused op)).1, (op, .isProtected) :: (launch rest (s.raiseRefused op)).2) := by
  rw [launch, if_pos h]

theorem launch_stale {op : StoreOp} {s : State} (rest : List StoreOp) (hp : op.isProtected s.act.sel = false)
    (h : s.stale op = true) : launch (op :: rest) s = ((launch rest s).1, (op, .cancelled) :: (launch rest s).2) := by
  rw [launch, hp, if_neg Bool.false_ne_true, if_pos h]

theorem launch_grows (l : List StoreOp) (s : State) : Grows s (launch l s).1 := by
  induction l generalizing s with
  | nil => exact ⟨List.prefix_rfl, List.prefix_rfl⟩
  | cons op rest ih =>
    have hr : Grows s (s.raiseRefused op) := by
      unfold State.raiseRefused
      split
      · exact State.raise_grows _ s
      · exact .refl s
    unfold launch
    split
    · exact hr.trans (ih _)
    · split
      · exact ih s
      · exact ⟨List.prefix_rfl, List.prefix_rfl⟩

/-- What going into flight leaves alone. -/
theorem launch_same (l : List StoreOp) (s : State) : (launch l s).1.dist = s.dist ∧ (launch l s).1.act = s.act := by
  induction l generalizing s with
  | nil => exact ⟨rfl, rfl⟩
  | cons op rest ih =>
    obtain ⟨hact, hdist, _⟩ := State.raiseRefused_parts op s
    unfold launch
    split
    · rw [← hact, ← hdist]
      exact ih _
    · split
      · exact ih s
      · exact ⟨rfl, rfl⟩

/-- Which operations go into flight does not depend on what the store still calls waiting. -/
theorem launch_waiting (l w : List StoreOp) (s : State) :
    launch l { s with store := { s.store with waiting := w } } = launch l s := by
  induction l generalizing s with
  | nil => rfl
  | cons op rest ih =>
    have hraise : State.raiseRefused op { s with store := { s.store with waiting := w } } =
        { s.raiseRefused op with store := { (s.raiseRefused op).store with waiting := w } } := by
      unfold State.raiseRefused State.raise
      split <;> [split; skip] <;> rfl
    unfold launch
    rw [hraise, ih, ih]
    rfl

/-- A protected operation that waits raises its notice, wherever before it every operation was turned away (R133). -/
theorem launch_raises {gone : List StoreOp} {op : StoreOp} (rest : List StoreOp) {s : State} {target : StoreTarget}
    {kind : RefusedKind} (hg : ∀ x ∈ gone, x.isProtected s.act.sel = true ∨ s.stale x = true) (hh : op.Hits s.act.sel target kind)
    (hroom : s.port.notices.length + gone.length < 16) :
    .storeRefused target kind op.owner.unit ∈ (launch (gone ++ op :: rest) s).1.port.notices := by
  induction gone generalizing s with
  | nil =>
    have hp : op.isProtected s.act.sel = true := StoreOp.isProtected_iff.mpr (.inr ⟨_, _, hh⟩)
    rw [List.nil_append, launch_protected rest hp]
    have hmem : .storeRefused target kind op.owner.unit ∈ (s.raiseRefused op).port.notices := by
      rw [State.raiseRefused_hits hh]
      exact State.raise_mem _ s hroom
    exact (launch_grows rest _).mem_notices hmem
  | cons x xs ih =>
    obtain ⟨hact, hdist, _⟩ := State.raiseRefused_parts x s
    have hstale : ∀ y, (s.raiseRefused x).stale y = s.stale y := fun y => by unfold State.stale State.slot; rw [hdist]
    have hlen : (s.raiseRefused x).port.notices.length ≤ s.port.notices.length + 1 := by
      unfold State.raiseRefused State.raise
      split <;> [split; skip] <;> simp
    have hxs : ∀ y ∈ xs, y.isProtected s.act.sel = true ∨ s.stale y = true := fun y hy => hg y (List.mem_cons_of_mem _ hy)
    simp only [List.length_cons] at hroom
    rw [List.cons_append]
    cases hx : x.isProtected s.act.sel with
    | true =>
      rw [launch_protected _ hx]
      exact ih (by rw [hact]; simpa only [hstale] using hxs) (by rw [hact]; exact hh) (by omega)
    | false =>
      have hs : s.stale x = true := (hg x List.mem_cons_self).resolve_left (by simp [hx])
      rw [launch_stale _ hx hs]
      exact ih hxs hh (by omega)

/-- A stale operation of the fill's leaves nothing behind when it is delivered (R135). -/
theorem State.deliver_stale {op : StoreOp} {s : State} (r : StoreResult) (ho : op.owner = .fill) (hc : op.kind.isCheck = false)
    (hs : s.stale op = true) : s.deliver op r = s := by
  have hm := (State.stale_iff.mp hs).2
  unfold State.deliver
  rw [ho]
  cases hk : op.kind with
  | readChunk k v i => rfl
  | eraseBlock k v b =>
    have : s.stillFilling k v = false := by simpa [State.stillFilling, hk, not_and_or, imp_iff_not_or] using hm
    simp [State.deliverFill, State.eraseDone, this]
  | programChunk k v i data =>
    have : (s.stillFilling k v && (s.slot k).mark i == .pending) = false := by
      simpa [State.stillFilling, hk, and_assoc] using hm
    simp [State.deliverFill, State.programDone, this]
  | verifyBlock k v b crc =>
    have : s.stillFilling k v = false := by simpa [State.stillFilling, hk, not_and_or, imp_iff_not_or] using hm
    simp [State.deliverFill, State.verifyDone, this]
  | checkImage k v n crc => simp [hk, OpKind.isCheck] at hc
  | eraseArea a => simp [hk] at hm
  | recordWrite a v body => simp [hk] at hm
  | selectorWrite n p sel q => simp [hk] at hm
  | recordRead a => simp [hk] at hm

end Sys2Proof.Machine
end

section
/-! SUPPORT. Proofs: a completion with operations behind it, as `State.QueueMoves` tells it. -/

namespace Sys2Proof.Machine

/-- The part at a completion, before the next operation goes into flight. -/
def State.freed (op : StoreOp) (d : Device) (s : State) : State :=
  State.takeSelector op (s.perform op d).2 { s with store := { s.store with flash := (s.perform op d).1, inflight := none } }

/-- The part once the operations that wait have gone into flight or completed, and all that completed are delivered. -/
def State.answered (op : StoreOp) (d : Device) (ops : List StoreOp) (s : State) : State :=
  walk ((op, (s.perform op d).2) :: (launch ops (s.freed op d)).2) (fun x u => (u.deliver x.1 x.2).settle)
    (launch ops (s.freed op d)).1

section
variable {s : State} {op : StoreOp} (d : Device)

theorem State.freed_parts : (s.freed op d).store.inflight = none ∧ (s.freed op d).store.waiting = s.store.waiting ∧
    (s.freed op d).dist = s.dist ∧ (s.freed op d).port = s.port := by
  unfold State.freed State.takeSelector
  split <;> exact ⟨rfl, rfl, rfl, rfl⟩

theorem State.freed_stale (x : StoreOp) : (s.freed op d).stale x = s.stale x := by
  unfold State.stale State.slot
  rw [(State.freed_parts d).2.2.1]

theorem State.freed_behind (ops : List StoreOp) : State.freed op d { s with store := { s.store with waiting := ops } } =
    { s.freed op d with store := { (s.freed op d).store with waiting := ops } } := by
  unfold State.freed State.takeSelector
  have hp : State.perform { s with store := { s.store with waiting := ops } } op d = s.perform op d := rfl
  rw [hp]
  split <;> rfl

theorem State.freed_raise (n : Notice) : (s.raise n).freed op d = (s.freed op d).raise n := by
  have hp : (s.raise n).perform op d = s.perform op d := by
    unfold State.raise
    split <;> rfl
  unfold State.freed
  rw [hp]
  unfold State.raise State.takeSelector
  split <;> split <;> simp

theorem State.completeOp_answered (s : State) : s.completeOp op d = s.answered op d s.store.waiting := by
  have hw : (s.freed op d).store.waiting = s.store.waiting := (State.freed_parts d).2.1
  unfold State.answered
  rw [← hw]
  rfl

theorem State.answered_behind (s : State) (ops w : List StoreOp) :
    State.answered op d ops { s with store := { s.store with waiting := w } } = s.answered op d ops := by
  unfold State.answered
  rw [State.freed_behind, launch_waiting]
  rfl

theorem State.completeOp_behind (s : State) (ops : List StoreOp) :
    State.completeOp op d { s with store := { s.store with waiting := ops } } = s.answered op d ops :=
  (State.completeOp_answered d _).trans (State.answered_behind d s ops ops)

theorem State.answered_flash (ops : List StoreOp) : (s.answered op d ops).store.flash = (s.perform op d).1 := by
  rw [← State.completeOp_behind, State.completeOp_flash]
  rfl

theorem State.answered_follows (hk : op.kind.isRecordRead = false) (ops : List StoreOp) :
    Follows (launch ops (s.freed op d)).1 (s.answered op d ops) := by
  refine walk_deliver_follows _ _ fun x hx => ?_
  rcases List.mem_cons.mp hx with rfl | hx
  · exact hk
  · exact launch_cut _ _ x hx

/-- The selector that the operations behind a completion meet is the one the units leave (R133, R134). -/
theorem State.answered_sel (hk : op.kind.isRecordRead = false) (ops : List StoreOp) :
    (s.answered op d ops).act.sel = (s.freed op d).act.sel := by
  rw [(State.answered_follows d hk ops).sel, (launch_same ops _).2]

/-- So is the copy and sequence number that the next selector write goes to (R134). -/
theorem State.answered_nextSelector (hk : op.kind.isRecordRead = false) (ops : List StoreOp) :
    (s.answered op d ops).nextSelector = (s.freed op d).nextSelector := by
  have hf := State.answered_follows (s := s) d hk ops
  have hl := launch_fixed ops (s.freed op d)
  unfold State.nextSelector
  rw [hf.copy, hf.seqNo, show (launch ops (s.freed op d)).1.store.copy = _ from congrArg Fixed.copy hl,
    show (launch ops (s.freed op d)).1.store.seqNo = _ from congrArg Fixed.seqNo hl]
  rfl

/-- The first operation that may run is in flight, and those behind it lead the queue (R131). -/
theorem State.answered_runs (hk : op.kind.isRecordRead = false) {gone : List StoreOp} {x : StoreOp} (rest : List StoreOp)
    (hg : ∀ y ∈ gone, y.isProtected (s.freed op d).act.sel = true ∨ (s.freed op d).stale y = true)
    (hp : x.isProtected (s.freed op d).act.sel = false) (hs : (s.freed op d).stale x = false) :
    (s.answered op d (gone ++ x :: rest)).store.inflight = some ((s.freed op d).store.direct x) ∧
      rest <+: (s.answered op d (gone ++ x :: rest)).store.waiting := by
  obtain ⟨hfly, hwait⟩ := launch_runs gone x rest (s.freed op d) hg hp hs
  have hq := (State.answered_follows d hk (gone ++ x :: rest)).queue _ hfly
  rwa [hwait] at hq

end

/-- A selector write goes into flight directed to the next copy (R134). -/
theorem State.direct_selectorWrite {s : State} {x : StoreOp} {n : Nat} {p : SelPurpose} {sel : Selector}
    {q : Option (CopyId × Nat)} (hx : x.kind = .selectorWrite n p sel q) :
    s.store.direct x = { x with kind := .selectorWrite n p sel (some s.nextSelector) } := by
  unfold StoreUnit.direct
  rw [hx]
  rfl

theorem StoreUnit.direct_other {st : StoreUnit} {x : StoreOp} (hx : x.isSelectorWrite = false) : st.direct x = x := by
  unfold StoreUnit.direct
  unfold StoreOp.isSelectorWrite at hx
  split
  · rename_i h
    rw [h] at hx
    cases hx
  · rfl

/-- A stale operation of the fill's next behind a completion is delivered to no effect. -/
theorem walk_deliver_skips {op x : StoreOp} {r r' : StoreResult} {l : List (StoreOp × StoreResult)} {s : State}
    (ho : x.owner = .fill) (hc : x.kind.isCheck = false) (hs : (s.deliver op r).stale x = true) :
    walk ((op, r) :: (x, r') :: l) (fun x u => (u.deliver x.1 x.2).settle) s =
      walk ((op, r) :: l) (fun x u => (u.deliver x.1 x.2).settle) s := by
  have hst : (s.deliver op r).settle.stale x = true := by
    unfold State.stale State.slot at hs ⊢
    rwa [(State.still_parts (State.settle_still (s.deliver op r))).2.2.2.2.1]
  simp only [walk_cons]
  rw [State.deliver_stale r' ho hc hst, State.settle_clear (State.settle_ev _)]

/-- Whether an operation is stale is for the Slot Table to say. -/
theorem State.stale_of_dist {s t : State} (h : t.dist = s.dist) (x : StoreOp) : t.stale x = s.stale x := by
  unfold State.stale State.slot
  rw [h]

section
variable {op x : StoreOp} {s : State} (d : Device) (rest : List StoreOp)
  (hstale : ∀ (u : State) (r : StoreResult), u.stale x = true → (u.deliver op r).stale x = true)
include hstale

/-- A stale operation of the fill's that is not protected leaves as if it had never waited (R135). -/
theorem State.answered_stale (ho : x.owner = .fill) (hc : x.kind.isCheck = false) (hs : s.stale x = true)
    (hp : x.isProtected (s.freed op d).act.sel = false) : s.answered op d (x :: rest) = s.answered op d rest := by
  have hl := launch_stale (s := s.freed op d) rest hp ((State.freed_stale d x).trans hs)
  have hs' : (launch rest (s.freed op d)).1.stale x = true := by
    rw [State.stale_of_dist (launch_same rest _).1, State.freed_stale, hs]
  unfold State.answered
  rw [hl]
  exact walk_deliver_skips ho hc (hstale _ _ hs')

/-- One that is protected too leaves its notice alone (R133; log entry 58). -/
theorem State.answered_hit (ho : x.owner = .fill) (hc : x.kind.isCheck = false) (hs : s.stale x = true)
    {target : StoreTarget} {kind : RefusedKind} (hh : x.Hits (s.freed op d).act.sel target kind) :
    s.answered op d (x :: rest) = (s.raise (.storeRefused target kind .distribution)).answered op d rest := by
  have hl := launch_protected (s := s.freed op d) rest (StoreOp.isProtected_iff.mpr (.inr ⟨_, _, hh⟩))
  have hraise : (s.freed op d).raiseRefused x = (s.raise (.storeRefused target kind .distribution)).freed op d := by
    rw [State.raiseRefused_hits hh, ho, State.freed_raise]
    rfl
  have hperform : (s.raise (.storeRefused target kind .distribution)).perform op d = s.perform op d := by
    unfold State.raise
    split <;> rfl
  have hs' : (launch rest ((s.raise (.storeRefused target kind .distribution)).freed op d)).1.stale x = true := by
    rw [State.stale_of_dist (launch_same rest _).1, State.freed_stale, State.stale_of_dist (State.raise_dist _ _), hs]
  unfold State.answered
  rw [hl, hraise, hperform]
  exact walk_deliver_skips ho hc (hstale _ _ hs')

end

/-- A stale operation is one its unit may submit. -/
theorem State.MovedOn.rightful {s : State} {x : StoreOp} (h : s.MovedOn x) : x.Rightful := by
  have hx := h.2
  unfold StoreOp.Rightful
  split
  case h_1 a v body hk => rw [hk] at hx; exact hx.elim
  case h_2 n p sel q hk => rw [hk] at hx; exact hx.elim
  case h_3 a hk => rw [hk] at hx; exact hx.elim
  all_goals trivial

section
variable {p : OpKind → Bool} {s : State} {op : StoreOp} (n : Nat) (d : Device) (hi : s.store.inflight = some op)
  (hp : p op.kind = true) (ops : List StoreOp)
include hi hp

theorem State.completion_behind :
    State.completion p n d { s with store := { s.store with waiting := ops } } = (s.clockTo n).answered op d ops := by
  rw [← State.completeOp_behind]
  unfold State.completion
  simp only [State.clockTo, hi, hp, if_true]

theorem State.completion_raised (m : Notice) :
    (State.raise m { s with store := { s.store with waiting := ops } }).completion p n d =
      ((s.clockTo n).raise m).answered op d ops := by
  have hwait : State.raise m { s with store := { s.store with waiting := ops } } =
      { s.raise m with store := { (s.raise m).store with waiting := ops } } := by
    unfold State.raise
    split <;> rfl
  have hclock : (s.raise m).clockTo n = (s.clockTo n).raise m := by
    by_cases h : s.port.notices.length < Config.noticeEntries <;> simp [State.raise, State.clockTo, h]
  rw [hwait, State.completion_behind n d (by rw [State.raise_store, hi]) hp, hclock]

end

/-- A completion of any operation but a read of a record moves the queue on as R131 to R135 give, when the delivery of the
completed operation makes no stale operation of the fill's current. -/
theorem State.queueMoves_of {c : Instr} {p : OpKind → Bool} {n : Nat} {d : Device} {s : State} {op : StoreOp}
    (hexec : ∀ u : State, exec c u = .next (u.completion p n d)) (hi : s.store.inflight = some op)
    (hp : p op.kind = true) (hk : op.kind.isRecordRead = false)
    (hstale : ∀ (x : StoreOp) (u : State) (r : StoreResult), x.owner = .fill → x.kind.isCheck = false → u.stale x = true →
      (u.deliver op r).stale x = true) : s.QueueMoves c := by
  obtain ⟨s1, hs1⟩ : ∃ s1, s.clockTo n = s1 := ⟨_, rfl⟩
  have hnotices : (s1.freed op d).port.notices = s.port.notices := by rw [(State.freed_parts d).2.2.2, ← hs1]; rfl
  have hmoved : ∀ x, s1.stale x = true ↔ s.MovedOn x := fun x => by rw [← hs1]; exact State.stale_iff
  have hbehind : ∀ ops, exec c { s with store := { s.store with waiting := ops } } = .next (s1.answered op d ops) := fun ops => by
    rw [hexec, State.completion_behind n d hi hp, hs1]
  have hself : exec c s = .next (s1.answered op d s.store.waiting) := hbehind s.store.waiting
  obtain ⟨t, ht⟩ : ∃ t, s1.answered op d s.store.waiting = t := ⟨_, rfl⟩
  have hsel : (s1.freed op d).act.sel = t.act.sel := by rw [← ht, State.answered_sel d hk]
  have hturned : ∀ x, x.isProtected (s1.freed op d).act.sel = true ∨ (s1.freed op d).stale x = true ↔
      (¬x.Rightful ∨ ∃ target kind, x.Hits t.act.sel target kind) ∨ s.MovedOn x := fun x => by
    rw [StoreOp.isProtected_iff, hsel, State.freed_stale, hmoved]
  refine ⟨t, hself.trans (by rw [ht]), ?_⟩
  intro behind hit runs
  have hruns : ∀ x, runs x ↔ x.Rightful ∧ ¬s.MovedOn x ∧ ∀ target kind, ¬x.Hits t.act.sel target kind := fun x => Iff.rfl
  have hgone : ∀ x, ¬runs x → x.isProtected (s1.freed op d).act.sel = true ∨ (s1.freed op d).stale x = true := fun x hx => by
    rw [hturned]
    by_contra hno
    rw [not_or, not_or, not_not] at hno
    exact hx ((hruns x).mpr ⟨hno.1.1, hno.2, fun target kind h => hno.1.2 ⟨target, kind, h⟩⟩)
  refine ⟨fun u hu => ?_, fun gone x rest hw hg => ⟨fun hx => ?_, fun target kind hhit hroom => ?_⟩,
    fun x rest hw ho hc hx => ⟨fun hno => ?_, fun target kind hhit => ?_⟩⟩
  · rw [← Host.Outcome.next.inj ((hbehind []).symm.trans hu), ← ht, State.answered_flash, State.answered_flash]
  · have hfree : ¬(x.isProtected (s1.freed op d).act.sel = true ∨ (s1.freed op d).stale x = true) := by
      rw [hturned]
      obtain ⟨h1, h2, h3⟩ := (hruns x).mp hx
      rintro ((h | ⟨_, _, h⟩) | h)
      · exact h h1
      · exact h3 _ _ h
      · exact h2 h
    rw [not_or, Bool.not_eq_true, Bool.not_eq_true] at hfree
    obtain ⟨hfly, hwait⟩ := State.answered_runs d hk rest (fun y hy => hgone y (hg y hy)) hfree.1 hfree.2
    rw [← hw, ht] at hfly hwait
    refine ⟨hwait, fun ho => ?_, fun m q sel y hy => ?_⟩
    · rw [hfly, StoreUnit.direct_other ho]
    · rw [hfly, State.direct_selectorWrite hy, ← ht, State.answered_nextSelector d hk]
  · have hmem := launch_raises rest (fun y hy => hgone y (hg y hy)) (by rw [hsel]; exact hhit) (by rw [hnotices]; exact hroom)
    have hin := (State.answered_follows (s := s1) d hk _).grows.mem_notices hmem
    rw [← hw, ht] at hin
    exact ⟨fun ho => by rw [ho] at hin; exact hin, fun ho => by rw [ho] at hin; exact hin⟩
  · have hp' : x.isProtected (s1.freed op d).act.sel = false := by
      rw [Bool.eq_false_iff, Ne, StoreOp.isProtected_iff, hsel]
      rintro (h | ⟨_, _, h⟩)
      · exact h hx.rightful
      · exact hno _ _ h
    rw [hself, hw, State.answered_stale d rest (fun u r => hstale x u r ho hc) ho hc ((hmoved x).mpr hx) hp']
    exact (hbehind rest).symm
  · rw [hself, hw, State.answered_hit d rest (fun u r => hstale x u r ho hc) ho hc ((hmoved x).mpr hx) (by rw [hsel]; exact hhit)]
    rw [hexec, State.completion_raised n d hi hp, hs1]

end Sys2Proof.Machine
end

section
/-! SUPPORT. Proofs: the serve engine with one request, and O45. -/

namespace Sys2Proof.Machine

/-! ### What serves a version, and in what order -/

theorem SlotRecord.serves_iff {r : SlotRecord} {v : Nat} : r.serves v = true ↔ r.Serves v := by
  unfold SlotRecord.serves SlotRecord.Serves
  cases hs : r.state <;> simp

theorem State.servingSlot_of {s : State} {v : Nat} {k : SlotId} (h : s.ServedBy v k) : s.servingSlot v = some k := by
  obtain ⟨hk, hfirst⟩ := h
  unfold State.servingSlot
  simp only [SlotRecord.serves_iff]
  cases k with
  | a => simp [hk]
  | b => simp [hk, hfirst.resolve_left]

theorem State.servingSlot_none {s : State} {v : Nat} (h : s.Unserved v) : s.servingSlot v = none := by
  unfold State.servingSlot
  simp only [SlotRecord.serves_iff]
  simp [h.1, h.2]

theorem imageChunks_eq (n b : Nat) : imageChunks n b = ((List.range 16).map (16 * b + ·)).filter fun i => i < n := by
  unfold imageChunks
  rw [← List.filterMap_eq_map, ← List.filterMap_eq_filter, List.filterMap_filterMap]
  congr 1
  funext i
  simp [Option.guard]

theorem lt_of_mem_imageChunks {n b i : Nat} (h : i ∈ imageChunks n b) : i < n := by
  rw [imageChunks_eq] at h
  simpa using (List.mem_filter.mp h).2

/-- Every chunk of a request's order lies in the image. -/
theorem lt_of_mem_serveOrder {n b start i : Nat} {hybrid : Bool} (h : i ∈ serveOrder n b start hybrid) : i < n := by
  unfold serveOrder wrappedPart at h
  rcases List.mem_append.mp h with h | h
  · rcases List.mem_append.mp h with h | h <;> exact lt_of_mem_imageChunks (List.mem_filter.mp h).1
  · split at h
    · obtain ⟨x, -, hx⟩ := List.mem_flatMap.mp h
      exact lt_of_mem_imageChunks hx
    · cases h

theorem SlotRecord.readable_iff {r : SlotRecord} {v : Nat} : r.readable v = true ↔ r.version = some v ∧
    (r.state = .active ∨ r.state = .ready ∨ r.state = .retained ∨ r.state = .filling ∨ r.state = .checking) := by
  unfold SlotRecord.readable
  cases hs : r.state <;> simp

/-! ### The serve engine's turns -/

section
variable {s : State} {q : ServeRequest} (n : Nat)

theorem serveTurns_empty (h : s.dist.serve = []) : serveTurns n s = s := by
  cases n with
  | zero => rfl
  | succ n =>
    rw [serveTurns]
    split
    · rfl
    · rw [h]

variable (hst : s.act.state ≠ .restarting) (hheld : s.heldPlaces = 0) (hq : s.dist.serve = [q])
include hst hheld hq

/-- A request that has passed its chunks leaves (R151). -/
theorem serveTurns_passed (hp : s.passedAll q = true) :
    serveTurns (n + 1) s = { s with dist := { s.dist with serve := [] } } := by
  rw [serveTurns, if_neg (by simp [hst, hheld]), hq]
  simp only [hp, if_true]
  exact serveTurns_empty n rfl

/-- A request whose next chunk is not at hand leaves (R151). -/
theorem serveTurns_drops (hp : s.passedAll q = false) (hc : 0 < s.prio.serveCredits) (hr : s.roomForChunk = true)
    (hn : s.nextServed q = none) : serveTurns (n + 1) s = { s with dist := { s.dist with serve := [] } } := by
  have hcred : ¬(s.prio.serveCredits = 0 ∨ s.roomForChunk = false) := by
    rw [hr]
    simp only [Bool.true_eq_false, or_false]
    omega
  rw [serveTurns, if_neg (by simp [hst, hheld]), hq]
  simp only [hp, Bool.false_eq_true, if_false, if_neg hcred, hn]
  exact serveTurns_empty n rfl

/-- A request whose next chunk is at hand has it read for a credit (R126, R151). -/
theorem serveTurns_reads {k : SlotId} {i : Nat} {u : State} (hp : s.passedAll q = false) (hc : 0 < s.prio.serveCredits)
    (hr : s.roomForChunk = true) (hn : s.nextServed q = some (k, i))
    (hu : s.submit { owner := .serve q.peer q.block, kind := .readChunk k q.version i } = (u, .accepted)) :
    serveTurns (n + 1) s =
      { u with
        prio := { u.prio with serveCredits := u.prio.serveCredits - 1 }
        dist := { u.dist with serve := [{ q with reading := true }] } } := by
  have hcred : ¬(s.prio.serveCredits = 0 ∨ s.roomForChunk = false) := by
    rw [hr]
    simp only [Bool.true_eq_false, or_false]
    omega
  rw [serveTurns, if_neg (by simp [hst, hheld]), hq]
  simp only [hp, Bool.false_eq_true, if_false, if_neg hcred, hn, hu, if_true]

end

/-! ### Submissions of the serve engine -/

/-- A submission that asks nothing of the Slot Table leaves it (R135 to R138). -/
theorem State.submit_dist {op : StoreOp} (s : State) (h : op.kind.isErase = false ∧ op.kind.isProgram = false ∧ op.kind.isVerify = false) :
    (s.submit op).1.dist = s.dist := by
  have hm : ∀ u : State, u.markAccepted op = u := fun u => by
    unfold State.markAccepted
    split
    · rfl
    · split <;> rename_i hk <;> simp [hk, OpKind.isErase, OpKind.isProgram, OpKind.isVerify] at h ⊢
  rcases State.submit_cases op s with ⟨h, _⟩ | ⟨h, _, _⟩ | ⟨_, _, _, _, ⟨_, _, h⟩ | ⟨_, h⟩⟩
  · rw [h]
  · rw [h]
    exact (State.raiseRefused_parts op s).2.1
  · rw [h, hm]
  · rw [h, hm]

theorem State.submitRead_idle {s : State} {peer block v i : Nat} {k : SlotId} (h : s.StoreIdle) (hi : i < (s.slot k).length) :
    s.submit { owner := .serve peer block, kind := .readChunk k v i } =
      (s.flying { owner := .serve peer block, kind := .readChunk k v i }, .accepted) := by
  rw [State.submit_idle h (by simpa [State.outOfRange] using hi) rfl rfl]
  rfl

theorem serveTurns_slot (n : Nat) (s : State) (k : SlotId) : (serveTurns n s).slot k = s.slot k := by
  have slot_of : ∀ {t u : State}, t.dist = u.dist → t.slot k = u.slot k := fun {t u} h => by unfold State.slot; rw [h]
  have serve : ∀ (u : State) (l : List ServeRequest), State.slot { u with dist := { u.dist with serve := l } } k = u.slot k :=
    fun u l => by cases k <;> rfl
  have read : ∀ (u : State) (o : Owner) k' v i, (u.submit { owner := o, kind := .readChunk k' v i }).1.slot k = u.slot k :=
    fun u o k' v i => slot_of (State.submit_dist u ⟨rfl, rfl, rfl⟩)
  induction n generalizing s with
  | zero => rfl
  | succ n ih =>
    unfold serveTurns
    split
    · rfl
    · split
      · rfl
      · split
        · exact (ih _).trans (serve s _)
        · split
          · rfl
          · split
            · exact (ih _).trans (serve s _)
            · simp only
              split
              · exact (serve _ _).trans (read s _ _ _ _)
              · exact (ih _).trans ((serve _ _).trans (read s _ _ _ _))

theorem State.serveEngine_slot (s : State) (k : SlotId) : s.serveEngine.slot k = s.slot k := serveTurns_slot _ s k

theorem State.slot_of_dist {s t : State} (h : t.dist = s.dist) (k : SlotId) : t.slot k = s.slot k := by
  unfold State.slot
  rw [h]

/-- The answer to a read of a chunk leaves the Slot Table. -/
theorem State.deliver_read_slot {op : StoreOp} (h : op.kind.isRead = true) (r : StoreResult) (s : State) (j : SlotId) :
    (s.deliver op r).slot j = s.slot j := by
  obtain ⟨owner, kind⟩ := op
  cases kind with
  | readChunk k v i =>
    have map : ∀ f, (s.mapServe f).slot j = s.slot j := fun f => by cases j <;> rfl
    cases owner with
    | serve peer block =>
      show (s.readDone peer k v i r).slot j = s.slot j
      unfold State.readDone
      split
      · split
        · rw [State.serveEngine_slot, State.slot_of_dist (State.send_dist _ _ _)]
          cases j <;> rfl
        · exact State.serveEngine_slot s j
      · split
        · rw [State.serveEngine_slot, ← map ServeRequest.pass]
          unfold State.sendChunk
          split <;> rfl
        · rw [State.serveEngine_slot, map]
      · split <;> rw [State.serveEngine_slot, map]
    | schedule =>
      show (s.bookWritten _).slot j = _
      refine State.slot_of_dist ?_ j
      unfold State.bookWritten State.submitBook
      split
      · split
        · simp only
          split <;> exact State.submit_dist _ ⟨rfl, rfl, rfl⟩
        · rfl
      · rfl
    | start =>
      show (s.seqDone _ r).slot j = _
      unfold State.seqDone
      rw [if_neg (by cases s.seq.stage <;> simp [Stage.waitsFor])]
    | _ => rfl
  | _ => cases h

theorem State.stale_of_slot {s t : State} (h : ∀ k, t.slot k = s.slot k) (x : StoreOp) : t.stale x = s.stale x := by
  unfold State.stale
  simp only [h]

/-- A read's completion moves the queue on (R131, R133, R135). -/
theorem State.read_queueMoves {s : State} {op : StoreOp} (n : Nat) (d : Device) (hi : s.store.inflight = some op)
    (h : op.kind.isRead = true) : s.QueueMoves (.readChunkCompletion n d) := by
  refine State.queueMoves_of (p := OpKind.isRead) (fun u => rfl) hi h ?_ fun x u r _ _ hx => ?_
  · cases hk : op.kind <;> simp [hk, OpKind.isRead, OpKind.isRecordRead] at h ⊢
  · rwa [State.stale_of_slot (State.deliver_read_slot h r u)]

/-! ### A read with nothing behind it -/

/-- The part with its operation done and the next not yet in flight. -/
def State.landed (s : State) (n : Nat) : State := { s.clockTo n with store := { s.store with inflight := none, waiting := [] } }

section
variable {s : State} {peer block v i : Nat} {k : SlotId}

theorem State.perform_read (o : Owner) (d : Device) : s.perform { owner := o, kind := .readChunk k v i } d = (s.store.flash,
    if d.failed then .failed
    else .data (overlay d.cells (chunkAddr k i) (Memory.readBytes s.store.flash (chunkAddr k i) Config.chunkBytes))) := by
  unfold State.perform
  split <;> rfl

theorem State.read_alone (n : Nat) (d : Device) (h : s.Flies { owner := .serve peer block, kind := .readChunk k v i }) :
    exec (.readChunkCompletion n d) s = .next ((s.landed n).readDone peer k v i
      (if d.failed then .failed
      else .data (overlay d.cells (chunkAddr k i) (Memory.readBytes s.store.flash (chunkAddr k i) Config.chunkBytes)))).settle := by
  obtain ⟨hi, hw⟩ := h
  have hc := State.completion_behind (p := OpKind.isRead) n d hi rfl s.store.waiting
  refine congrArg Host.Outcome.next (hc.trans ?_)
  have hp := State.perform_read (s := s.clockTo n) (k := k) (v := v) (i := i) (.serve peer block) d
  rw [hw]
  unfold State.answered State.freed
  rw [hp]
  rfl

end

end Sys2Proof.Machine
end

section
/-! SUPPORT. Proofs: O45, the answers of the serve engine's reads. -/

namespace Sys2Proof.Machine

theorem State.heldPlaces_idle {s : State} (h : s.StoreIdle) : s.heldPlaces = 0 := by
  simp [State.heldPlaces, State.storeOps_idle h]

section
variable {u : State} {q : ServeRequest} (hst : u.act.state ≠ .restarting) (hidle : u.StoreIdle) (hq : u.dist.serve = [q])
include hst hidle hq

/-- A request whose count of chunks is done leaves (R151). -/
theorem State.serveEngine_passed (hc : q.count ≤ q.position) :
    u.serveEngine = { u with dist := { u.dist with serve := [] } } :=
  serveTurns_passed _ hst (State.heldPlaces_idle hidle) hq (by simp [State.passedAll, hc])

variable {k : SlotId} {j : Nat} (hc : q.position < q.count) (hk : u.ServedBy q.version k)
  (hj : (serveOrder (u.slot k).length q.block q.start q.hybrid)[q.position]? = some j) (hcred : 0 < u.prio.serveCredits)
  (hroom : u.roomForChunk = true)
include hc hk hj hcred hroom

/-- The next chunk of its order is in flight for one credit when its block is VERIFIED here (R126, R151). -/
theorem State.serveEngine_reads (hv : (u.slot k).Verified (j / 16)) :
    u.serveEngine.Flies { owner := .serve q.peer q.block, kind := .readChunk k q.version j } ∧
      u.serveEngine.prio.serveCredits = u.prio.serveCredits - 1 := by
  have horder : u.orderOf q = some (k, serveOrder (u.slot k).length q.block q.start q.hybrid) := by
    rw [State.orderOf, State.servingSlot_of hk]
    rfl
  have hlen := (List.getElem?_eq_some_iff.mp hj).1
  have hnext : u.nextServed q = some (k, j) := by
    rw [State.nextServed, horder]
    simp only [hj]
    rw [if_pos (SlotRecord.blockVerified_iff.mpr hv)]
  have hengine : u.serveEngine = _ := serveTurns_reads _ hst (State.heldPlaces_idle hidle) hq
    (by simp [State.passedAll, horder, hlen, hc]) hcred hroom hnext
    (State.submitRead_idle hidle (lt_of_mem_serveOrder (List.mem_of_getElem? hj)))
  rw [hengine]
  exact ⟨⟨rfl, hidle.2⟩, rfl⟩

/-- A request whose next chunk lies in a block that is not VERIFIED here leaves (R151). -/
theorem State.serveEngine_drops (hv : ¬(u.slot k).Verified (j / 16)) :
    u.serveEngine = { u with dist := { u.dist with serve := [] } } := by
  have horder : u.orderOf q = some (k, serveOrder (u.slot k).length q.block q.start q.hybrid) := by
    rw [State.orderOf, State.servingSlot_of hk]
    rfl
  have hlen := (List.getElem?_eq_some_iff.mp hj).1
  have hnext : u.nextServed q = none := by
    rw [State.nextServed, horder]
    simp only [hj]
    rw [if_neg (mt SlotRecord.blockVerified_iff.mp hv)]
  exact serveTurns_drops _ hst (State.heldPlaces_idle hidle) hq (by simp [State.passedAll, horder, hlen, hc]) hcred hroom hnext

end

/-- Without a credit a request of a version that no slot serves stands (R151). -/
theorem State.serveEngine_stands {u : State} {q : ServeRequest} (hq : u.dist.serve = [q]) (hc : q.position < q.count)
    (hun : u.Unserved q.version) (hcred : u.prio.serveCredits = 0) : u.serveEngine = u := by
  have hp : u.passedAll q = false := by simp [State.passedAll, State.orderOf, State.servingSlot_none hun, hc]
  unfold State.serveEngine serveTurns
  split
  · rfl
  · rw [hq]
    simp only [hp, hcred, true_or, if_true, Bool.false_eq_true, if_false]

/-! ### The answer to a read -/

/-- The part with the CHUNK of a read that went well on its way (R151). -/
def State.answering (s : State) (n peer v i : Nat) (failed : Bool) (data : List Byte) : State :=
  if failed then (s.landed n).mapServe ServeRequest.pass
  else ((s.landed n).mapServe ServeRequest.pass).sendChunk peer v i data

section
variable {s : State} (n : Nat) {peer v i : Nat} {failed : Bool} {data : List Byte}

theorem State.sendChunk_configured (h : s.configured = true) : s.sendChunk peer v i data = s.placeFrame peer (.chunk v i data) := by
  simp [State.sendChunk, h]

theorem State.answering_same (hc : s.configured = true) :
    (s.answering n peer v i failed data).act = s.act ∧ (s.answering n peer v i failed data).prio = s.prio ∧
      (s.answering n peer v i failed data).ev = s.ev ∧ (s.answering n peer v i failed data).StoreIdle ∧
      (s.answering n peer v i failed data).store.flash = s.store.flash ∧
      (s.answering n peer v i failed data).dist = { s.dist with serve := s.dist.serve.map ServeRequest.pass } ∧
      (s.answering n peer v i failed data).pli.tx =
        (if failed then s.pli.tx else s.pli.tx ++ [{ sender := s.cfg.nodeId, dest := peer, body := .chunk v i data }]) := by
  have hc' : ((s.landed n).mapServe ServeRequest.pass).configured = true := hc
  unfold State.answering
  rw [State.sendChunk_configured hc']
  cases failed <;> exact ⟨rfl, rfl, rfl, ⟨rfl, rfl⟩, rfl, rfl, rfl⟩

theorem State.answering_slot (hc : s.configured = true) (k : SlotId) : (s.answering n peer v i failed data).slot k = s.slot k := by
  unfold State.slot
  rw [(State.answering_same n hc).2.2.2.2.2.1]

/-- The CHUNK takes the place that its read held (R6). -/
theorem State.answering_room {op : StoreOp} (hc : s.configured = true) (hfl : s.Flies op) (hs : op.isServe = true)
    (h8 : s.txChunkCount < 8) (h12 : s.txCount < 12) : (s.answering n peer v i failed data).roomForChunk = true := by
  obtain ⟨-, -, -, hidle, -, -, htx⟩ := State.answering_same (peer := peer) (v := v) (i := i) (failed := failed) (data := data) n hc
  have hheld : s.heldPlaces = 1 := by simp [State.heldPlaces, State.storeOps, hfl.1, hfl.2, hs]
  unfold State.txChunkCount at h8
  unfold State.txCount at h12
  have hroom : (s.answering n peer v i failed data).txChunkCount < 8 ∧ (s.answering n peer v i failed data).txCount < 12 := by
    have hchunk : Frame.isChunk { sender := s.cfg.nodeId, dest := peer, body := .chunk v i data } = true := rfl
    have hadvert : Frame.isAdvert { sender := s.cfg.nodeId, dest := peer, body := .chunk v i data } = false := rfl
    unfold State.txChunkCount State.txCount
    rw [State.heldPlaces_idle hidle, htx]
    cases failed <;> simp [hchunk, hadvert] <;> omega
  unfold State.roomForChunk
  rw [Bool.and_eq_true, decide_eq_true_iff, decide_eq_true_iff]
  exact hroom

/-- A read of a version that its slot still serves. -/
theorem State.readDone_answering {k : SlotId} {r : StoreResult} (hread : (s.slot k).readable v = true)
    (hr : r = if failed then .failed else .data data) :
    (s.landed n).readDone peer k v i r = (s.answering n peer v i failed data).serveEngine := by
  have hread' : ((s.landed n).slot k).readable v = true := hread
  subst hr
  unfold State.readDone State.answering
  cases failed <;> simp only [Bool.false_eq_true, if_true, if_false, hread']

end

/-- A state in which no event is open is settled. -/
theorem State.serveEngine_settle {u : State} (h : u.MarksClear) : u.serveEngine.settle = u.serveEngine := by
  obtain ⟨-, -, -, -, -, -, -, -, -, hev, -⟩ := State.aside_parts (State.serveEngine_aside u)
  exact State.settle_clear (hev.trans h)

/-- What the answer to a read leaves of the flash and the transmit order. -/
theorem State.serveEngine_quiet (u : State) : u.serveEngine.store.flash = u.store.flash ∧ u.serveEngine.pli = u.pli :=
  ⟨congrArg Fixed.flash (State.serveEngine_fixed u), serveTurns_pli _ u⟩

/-! ### O45 -/

/-- The answer to a read of the serve engine's (R126, R135, R151). -/
theorem State.servedChunk (n : Nat) (d : Device) {s : State} {peer block v i : Nat} {k : SlotId} (hm : s.MarksClear)
    (hc : s.configured = true) (hfl : s.Flies { owner := .serve peer block, kind := .readChunk k v i }) :
    let data := overlay d.cells (chunkAddr k i) (Memory.readBytes s.store.flash (chunkAddr k i) Config.chunkBytes)
    ((s.slot k).readable v = true → ∃ t, exec (.readChunkCompletion n d) s = .next t ∧ t.store.flash = s.store.flash ∧
      t.pli.tx = (if d.failed then s.pli.tx
        else s.pli.tx ++ [{ sender := s.cfg.nodeId, dest := peer, body := .chunk v i data }]) ∧
      ∀ q, s.dist.serve = [q] → q.reading = true → s.act.state ≠ .restarting →
        (q.count ≤ q.position + 1 → t.dist.serve = []) ∧
        ∀ k' j, q.position + 1 < q.count → s.ServedBy q.version k' →
          (serveOrder (s.slot k').length q.block q.start q.hybrid)[q.position + 1]? = some j → 0 < s.prio.serveCredits →
          s.txChunkCount < 8 → s.txCount < 12 →
          ((s.slot k').Verified (j / 16) →
            t.Flies { owner := .serve q.peer q.block, kind := .readChunk k' q.version j } ∧
              t.prio.serveCredits = s.prio.serveCredits - 1) ∧
          (¬(s.slot k').Verified (j / 16) →
            t.dist.serve = [] ∧ t.StoreIdle ∧ t.prio.serveCredits = s.prio.serveCredits)) ∧
    ((s.slot k).readable v = false → ∃ t, exec (.readChunkCompletion n d) s = .next t ∧ t.store.flash = s.store.flash ∧
      t.pli.tx = s.pli.tx ∧
      ∀ q, s.dist.serve = [q] → q.position < q.count → s.Unserved q.version → s.prio.serveCredits = 0 →
        t.dist.serve = [{ q with reading := false }]) := by
  intro data
  have hexec := State.read_alone n d hfl
  refine ⟨fun hread => ?_, fun hread => ?_⟩
  · obtain ⟨hact, hprio, hev, hidle, hflash, hdist, htx⟩ :=
      State.answering_same (s := s) (peer := peer) (v := v) (i := i) (failed := d.failed) (data := data) n hc
    have hslot := State.answering_slot (s := s) (peer := peer) (v := v) (i := i) (failed := d.failed) (data := data) n hc
    have hroom := State.answering_room (s := s) (peer := peer) (v := v) (i := i) (failed := d.failed) (data := data) n hc hfl rfl
    rw [State.readDone_answering (failed := d.failed) (data := data) n hread rfl, State.serveEngine_settle (hev.trans hm)] at hexec
    obtain ⟨u, hu⟩ : ∃ u, s.answering n peer v i d.failed data = u := ⟨_, rfl⟩
    rw [hu] at hact hprio hev hidle hflash hdist htx hslot hroom hexec
    refine ⟨_, hexec, (State.serveEngine_quiet u).1.trans hflash, by rw [(State.serveEngine_quiet u).2, htx], fun q hq hreading hst => ?_⟩
    have hq' : u.dist.serve = [{ q with position := q.position + 1, reading := false }] := by
      rw [hdist, hq]
      simp [ServeRequest.pass, hreading]
    have hst' : u.act.state ≠ .restarting := by rwa [hact]
    refine ⟨fun hcount => by rw [State.serveEngine_passed hst' hidle hq' hcount], fun k' j hcount hk hj hcred h8 h12 => ?_⟩
    have hk' : u.ServedBy q.version k' := by simpa only [State.ServedBy, hslot] using hk
    have hj' := hj
    rw [← hslot k'] at hj' ⊢
    refine ⟨fun hv => ?_, fun hv => ?_⟩
    · have h := State.serveEngine_reads hst' hidle hq' hcount hk' hj' (by rwa [hprio]) (hroom h8 h12) hv
      rwa [hprio] at h
    · rw [State.serveEngine_drops hst' hidle hq' hcount hk' hj' (by rwa [hprio]) (hroom h8 h12) hv]
      exact ⟨rfl, hidle, by rw [← hprio]⟩
  · obtain ⟨u, hu⟩ : ∃ u, (s.landed n).mapServe ServeRequest.unread = u := ⟨_, rfl⟩
    have hdone : ∀ r, r ≠ .cancelled → (s.landed n).readDone peer k v i r = u.serveEngine := fun r hr => by
      have hread' : ((s.landed n).slot k).readable v = false := hread
      unfold State.readDone
      rw [hread', hu]
      cases r <;> simp at hr ⊢
    have hclear : u.MarksClear := by rw [← hu]; exact hm
    rw [hdone _ (by split <;> simp), State.serveEngine_settle hclear] at hexec
    refine ⟨_, hexec, (State.serveEngine_quiet u).1.trans (by rw [← hu]; rfl), by rw [(State.serveEngine_quiet u).2, ← hu]; rfl,
      fun q hq hcount hun hcred => ?_⟩
    have hq' : u.dist.serve = [{ q with reading := false }] := by
      rw [← hu]
      show s.dist.serve.map ServeRequest.unread = _
      rw [hq]
      rfl
    rw [State.serveEngine_stands hq' hcount (by rw [← hu]; exact hun) (by rw [← hu]; exact hcred), hq']

/-! ### A read that was cancelled -/

theorem State.eraseDone_same (k : SlotId) (v b : Nat) (ok : Bool) (s : State) : (s.eraseDone k v b ok).pli = s.pli ∧
    (s.eraseDone k v b ok).cfg = s.cfg ∧ (s.eraseDone k v b ok).ev = s.ev ∧ (s.eraseDone k v b ok).store = s.store ∧
    (s.eraseDone k v b ok).dist.serve = s.dist.serve := by
  unfold State.eraseDone State.mapBlock
  split <;> simp

/-- A cancelled read is refused VERSION, and its request leaves (R135, R151). -/
theorem State.readDone_cancelled {u : State} {peer v i : Nat} {k : SlotId} {q : ServeRequest} (hm : u.MarksClear)
    (hc : u.configured = true) (hidle : u.StoreIdle) (hq : u.dist.serve = [q]) (hread : q.reading = true) (htx : u.txCount < 12) :
    let t := (u.readDone peer k v i .cancelled).settle
    t.dist.serve = [] ∧ t.StoreIdle ∧
      t.pli.tx = u.pli.tx ++ [{ sender := u.cfg.nodeId, dest := peer, body := .chunkRefuse 1 v q.block }] := by
  obtain ⟨w, hw⟩ : ∃ w, ({ u with dist := { u.dist with serve := [] } } : State) = w := ⟨_, rfl⟩
  have hdone : u.readDone peer k v i .cancelled = (w.send peer (.chunkRefuse 1 v q.block)).serveEngine := by
    unfold State.readDone
    simp only [hq, List.find?_cons, hread, List.filter_cons, List.filter_nil, Bool.not_true, Bool.false_eq_true, if_false, hw]
  have hsend : w.send peer (.chunkRefuse 1 v q.block) = w.placeFrame peer (.chunkRefuse 1 v q.block) :=
    State.send_placed _ _ (by rw [← hw]; exact hc) (by rw [← hw]; exact htx)
  rw [hdone, hsend, State.serveEngine_idle (by rw [← hw]; rfl), State.settle_clear (by rw [← hw]; exact hm), ← hw]
  exact ⟨rfl, hidle, rfl⟩

/-- One stale operation behind a completion, and nothing else. -/
theorem State.answered_cancels {s : State} {op x : StoreOp} (d : Device) (hp : x.isProtected (s.freed op d).act.sel = false)
    (hs : s.stale x = true) : s.answered op d [x] =
      ((State.deliver op (s.perform op d).2
        { s.freed op d with store := { (s.freed op d).store with waiting := [] } }).settle.deliver x .cancelled).settle := by
  unfold State.answered
  rw [launch_stale [] hp ((State.freed_stale d x).trans hs)]
  rfl

theorem State.erase_cancels (n : Nat) (d : Device) {s : State} {peer block v i v' b : Nat} {k k' : SlotId} {q : ServeRequest}
    (hm : s.MarksClear) (hc : s.configured = true) (hi : s.store.inflight = some { owner := .fill, kind := .eraseBlock k' v' b })
    (hw : s.store.waiting = [{ owner := .serve peer block, kind := .readChunk k v i }])
    (hmoved : s.MovedOn { owner := .serve peer block, kind := .readChunk k v i }) (hq : s.dist.serve = [q]) (hread : q.reading = true)
    (htx : s.txCount ≤ 12) : ∃ t, exec (.eraseBlockCompletion n d) s = .next t ∧ t.dist.serve = [] ∧ t.StoreIdle ∧
      t.pli.tx = s.pli.tx ++ [{ sender := s.cfg.nodeId, dest := peer, body := .chunkRefuse 1 v q.block }] := by
  have hexec : exec (.eraseBlockCompletion n d) s = .next ((s.clockTo n).answered _ d s.store.waiting) :=
    congrArg Host.Outcome.next (State.completion_behind (p := OpKind.isErase) n d hi rfl s.store.waiting)
  rw [hw, State.answered_cancels (s := s.clockTo n) d rfl (State.stale_iff.mpr hmoved)] at hexec
  obtain ⟨r, hr⟩ : ∃ r, ((s.clockTo n).perform { owner := .fill, kind := .eraseBlock k' v' b } d).2 = r := ⟨_, rfl⟩
  obtain ⟨x, hx⟩ : ∃ x, (s.clockTo n).freed { owner := .fill, kind := .eraseBlock k' v' b } d = x := ⟨_, rfl⟩
  have hxs : x.pli = s.pli ∧ x.cfg = s.cfg ∧ x.ev = s.ev ∧ x.store.inflight = none ∧ x.dist.serve = s.dist.serve := by
    rw [← hx]
    exact ⟨rfl, rfl, rfl, rfl, rfl⟩
  obtain ⟨hpli, hcfg, hev, hnone, hserve⟩ := hxs
  rw [hr, hx] at hexec
  obtain ⟨u, hu⟩ : ∃ u, State.eraseDone k' v' b (r == .ok) { x with store := { x.store with waiting := [] } } = u := ⟨_, rfl⟩
  obtain ⟨upli, ucfg, uev, ustore, userve⟩ :=
    State.eraseDone_same k' v' b (r == .ok) { x with store := { x.store with waiting := [] } }
  rw [hu] at upli ucfg uev ustore userve
  have hclear : u.MarksClear := (uev.trans hev).trans hm
  have hidle : u.StoreIdle := by rw [State.StoreIdle, ustore]; exact ⟨hnone, rfl⟩
  have hroom : u.txCount < 12 := by
    have hheld : s.heldPlaces = 1 := by
      simp only [State.heldPlaces, State.storeOps, hi, hw]
      rfl
    rw [State.txCount, hheld] at htx
    rw [State.txCount, State.heldPlaces_idle hidle, upli, hpli]
    omega
  have hdeliver : State.deliver { owner := .fill, kind := .eraseBlock k' v' b } r { x with store := { x.store with waiting := [] } } = u := hu
  rw [hdeliver, State.settle_clear hclear] at hexec
  have h := State.readDone_cancelled (u := u) (peer := peer) (v := v) (i := i) (k := k) hclear
    (by unfold State.configured; rw [ucfg, hcfg]; exact hc) hidle ((userve.trans hserve).trans hq) hread hroom
  rw [upli, ucfg, hpli, hcfg] at h
  exact ⟨_, hexec, h⟩

/-- Settles O45. -/
theorem servedChunksAreSent : Obligations.ServedChunksAreSent := by
  refine ⟨fun n d s op hi hk => State.read_queueMoves n d hi hk,
    fun n d s peer block v i v' b k k' q hm h1 h63 hi hw hmoved hq hread htx =>
      State.erase_cancels n d hm (State.configured_iff.mpr ⟨h1, h63⟩) hi hw hmoved hq hread htx,
    fun n d s peer block v i k _ hm h1 h63 hfl => ?_⟩
  intro data st stands
  have hstands : stands ↔ (s.slot k).readable v = true := SlotRecord.readable_iff.symm
  obtain ⟨hserved, hmoved⟩ := State.servedChunk n d hm (State.configured_iff.mpr ⟨h1, h63⟩) hfl
  refine ⟨fun h => ?_, fun h => hmoved (by simpa [hstands] using h)⟩
  obtain ⟨t, hexec, hflash, htx, hnext⟩ := hserved (hstands.mp h)
  refine ⟨t, hexec, hflash, htx, fun q hq hread hst => ?_⟩
  obtain ⟨hlast, hgo⟩ := hnext q hq hread hst
  refine ⟨hlast, fun k' j hcount hk => ?_⟩
  intro chunks order hj
  have hchunks : chunks = imageChunks (s.slot k').length := funext fun x => (imageChunks_eq _ x).symm
  have horder : order = serveOrder (s.slot k').length q.block q.start q.hybrid := by
    show (chunks q.block).filter (q.start ≤ ·) ++ (chunks q.block).filter (· < q.start) ++
      (if q.hybrid then (((List.range (((s.slot k').length + 15) / 16)).filter (q.block < ·)).flatMap chunks) else []) = _
    rw [hchunks]
    rfl
  exact hgo k' j hcount hk (horder ▸ hj)

end Sys2Proof.Machine
end

section
/-! SUPPORT. Proofs: what an ADVERT files, enters and hands on, piece by piece. -/

namespace Sys2Proof.Machine

/-! ### Filing a sighting (R19) -/

theorem SightingEntry.samePair_iff {x y : SightingEntry} : x.samePair y = true ↔ x.client = y.client ∧ x.peer = y.peer := by
  simp [SightingEntry.samePair]

/-- The order of R19 is total on what it compares, so what is weakest is weakest by its figures. -/
theorem SightingEntry.weaker_eq_false {x y : SightingEntry} : x.weaker y = false ↔
    y.smoothed < x.smoothed ∨ (x.smoothed = y.smoothed ∧ (y.validity < x.validity ∨ (x.validity = y.validity ∧
      (y.client.toNat < x.client.toNat ∨ (x.client.toNat = y.client.toNat ∧ y.peer ≤ x.peer))))) := by
  simp only [SightingEntry.weaker, Bool.or_eq_false_iff, decide_eq_false_iff_not, Bool.and_eq_false_iff, beq_eq_false_iff_ne,
    ne_eq, ← BitVec.toNat_inj]
  omega

theorem SightingEntry.weaker_asymm (x y : SightingEntry) (h : x.weaker y = true) : y.weaker x = false := by
  rw [SightingEntry.weaker_eq_false]
  simp only [SightingEntry.weaker, Bool.or_eq_true, decide_eq_true_eq, Bool.and_eq_true, beq_iff_eq, ← BitVec.toNat_inj] at h
  omega

/-- The weakest entry of R19 is the first in its order, up to its figures, its client and its peer. -/
theorem weakest_sighting {l : List SightingEntry} {w v : SightingEntry} (hw : w ∈ l)
    (hleast : ∀ x ∈ l, w.smoothed < x.smoothed ∨ (w.smoothed = x.smoothed ∧ (w.validity < x.validity ∨
      (w.validity = x.validity ∧ (w.client.toNat < x.client.toNat ∨ (w.client = x.client ∧ w.peer ≤ x.peer))))))
    (hv : (sortBy SightingEntry.weaker l).head? = some v) : v.smoothed = w.smoothed ∧ v.client = w.client ∧ v.peer = w.peer := by
  have h1 := hleast v (mem_of_head_sortBy hv)
  have h2 := SightingEntry.weaker_eq_false.mp
    (not_before_head_sortBy (fun a b c => by simp only [SightingEntry.weaker_eq_false]; omega) SightingEntry.weaker_asymm hv w hw)
  rw [← BitVec.toNat_inj] at h1 ⊢
  omega

theorem fileSighting_same {g : SightingEntry} {l : List SightingEntry} (h : ∃ x ∈ l, x.client = g.client ∧ x.peer = g.peer) :
    fileSighting g l = l.map fun x => if x.client = g.client ∧ x.peer = g.peer ∧ x.validity ≤ g.validity then g else x := by
  obtain ⟨x, hx, hc, hp⟩ := h
  rw [fileSighting, if_pos (List.any_eq_true.mpr ⟨x, hx, SightingEntry.samePair_iff.mpr ⟨hc.symm, hp.symm⟩⟩)]
  refine List.map_congr_left fun y _ => ?_
  simp [SightingEntry.samePair, and_assoc, eq_comm (a := g.client), eq_comm (a := g.peer)]

section
variable {g : SightingEntry} {l : List SightingEntry} (h : ∀ x ∈ l, ¬(x.client = g.client ∧ x.peer = g.peer))
include h

theorem any_samePair_false : l.any g.samePair = false := by
  rw [List.any_eq_false]
  exact fun x hx hs => h x hx (by simpa [eq_comm] using SightingEntry.samePair_iff.mp hs)

theorem fileSighting_room (hl : l.length < 128) : fileSighting g l = l ++ [g] := by
  have hl' : l.length < Config.sightingEntries := hl
  rw [fileSighting, any_samePair_false h, if_neg Bool.false_ne_true, if_pos hl']

theorem fileSighting_full (hl : 128 ≤ l.length) {w : SightingEntry} (hw : w ∈ l)
    (hleast : ∀ x ∈ l, w.smoothed < x.smoothed ∨ (w.smoothed = x.smoothed ∧ (w.validity < x.validity ∨
      (w.validity = x.validity ∧ (w.client.toNat < x.client.toNat ∨ (w.client = x.client ∧ w.peer ≤ x.peer)))))) :
    fileSighting g l =
      if w.smoothed < g.smoothed then l.filter (fun x => ¬(x.client = w.client ∧ x.peer = w.peer)) ++ [g] else l := by
  have hl' : ¬l.length < Config.sightingEntries := Nat.not_lt.mpr hl
  obtain ⟨v, hv⟩ := head_sortBy_of_mem SightingEntry.weaker hw
  obtain ⟨hsm, hcl, hpe⟩ := weakest_sighting hw hleast hv
  rw [fileSighting, any_samePair_false h, if_neg Bool.false_ne_true, if_neg hl', hv]
  simp only [hsm]
  congr 2
  refine List.filter_congr fun x _ => ?_
  simp [SightingEntry.samePair, hcl, hpe, eq_comm (a := x.client), eq_comm (a := x.peer), beq_eq_decide]

end

/-! ### Entering a peer (R14) -/

theorem find?_insertBy {α : Type} {before : α → α → Bool} {p : α → Bool} {x : α} {l : List α}
    (h : p x = true → l.find? p = none) : (insertBy before x l).find? p = if p x then some x else l.find? p := by
  induction l with
  | nil => cases hp : p x <;> simp [insertBy, hp]
  | cons y ys ih =>
    have hys : p x = true → p y = false ∧ ys.find? p = none := fun hp => by
      have := h hp
      rw [List.find?_cons] at this
      cases hy : p y <;> simp_all
    unfold insertBy
    split
    · rw [List.find?_cons]
      cases hp : p x <;> simp
    · rw [List.find?_cons, List.find?_cons, ih fun hp => (hys hp).2]
      cases hp : p x with
      | true => simp [(hys hp).1]
      | false => cases p y <;> rfl

/-- What entering the sender leaves of the table (R14). -/
structure PeerEntered (s s1 : State) (id : Nat) (e : PeerEntry) : Prop where
  peer : s1.peer id = some e
  others : ∀ k, k ≠ id → s1.peer k = s.peer k
  mem : e ∈ s1.peers.table
  sightings : s1.peers.sightings = s.peers.sightings
  rest : s1.aside = { s.aside with peers := s1.peers }
  store : s1.store = s.store
  dist : s1.dist = s.dist
  pli : s1.pli = s.pli

theorem State.enterPeer_known {s : State} {id : Nat} {p : PeerEntry} (a : Advert) (h : s.peer id = some p) :
    ∃ s1, s.enterPeer id a = some s1 ∧ PeerEntered s s1 id { p with advert := a, heardAt := s.now, fresh := true } := by
  have hpeer := State.peer_mapPeer (f := fun p => { p with advert := a, heardAt := s.now, fresh := true }) (fun _ => rfl) s id
  have hid := hpeer id
  rw [if_pos rfl, h, Option.map_some] at hid
  refine ⟨_, by rw [State.enterPeer, h], hid, fun k hk => by rw [hpeer, if_neg hk], List.mem_of_find?_eq_some hid,
    rfl, rfl, rfl, rfl, rfl⟩

theorem State.enterPeer_new {s : State} {id : Nat} (a : Advert) (h : s.peer id = none) (hlen : s.peers.table.length < 15) :
    ∃ s1, s.enterPeer id a = some s1 ∧ PeerEntered s s1 id (PeerEntry.new id a s.now) ∧
      (s.port.notices.length < 16 → .peerJoined id ∈ s1.port.notices) := by
  have hlen' : s.peers.table.length < Config.peerEntries := hlen
  obtain ⟨w, hw⟩ : ∃ w : State, ({ s with peers := { s.peers with
      table := insertBy (fun x y => x.id < y.id) (PeerEntry.new id a s.now) s.peers.table } } : State) = w := ⟨_, rfl⟩
  have hwpeer : ∀ k, w.peer k = if id = k then some (PeerEntry.new id a s.now) else s.peer k := fun k => by
    rw [← hw]
    refine (find?_insertBy fun hk => ?_).trans ?_
    · have : id = k := by simpa [PeerEntry.new] using hk
      rw [← this]
      exact h
    · simp [PeerEntry.new, State.peer]
  have hpeer : ∀ k, (w.raise (.peerJoined id)).peer k = w.peer k := fun k => by rw [State.peer, State.raise_peers, State.peer]
  have hid : (w.raise (.peerJoined id)).peer id = some (PeerEntry.new id a s.now) := by rw [hpeer, hwpeer, if_pos rfl]
  refine ⟨w.raise (.peerJoined id), by simp only [State.enterPeer, h]; rw [if_pos hlen', hw],
    ⟨hid, fun k hk => by rw [hpeer, hwpeer, if_neg (Ne.symm hk)], List.mem_of_find?_eq_some hid, ?_, ?_, ?_, ?_, ?_⟩, fun hroom => ?_⟩
  · rw [State.raise_peers, ← hw]
  · rw [State.raise_aside, State.raise_peers, ← hw]
    rfl
  · rw [State.raise_store, ← hw]
  · rw [State.raise_dist, ← hw]
  · rw [State.raise_pli, ← hw]
  · exact State.raise_mem _ w (by rw [← hw]; exact hroom)

end Sys2Proof.Machine
end

section
/-! SUPPORT. Proofs: what the parts of an ADVERT leave alone as they are handed on (R14). -/

namespace Sys2Proof.Machine

/-! ### The Priority Unit's part and the end of the event -/

theorem State.testFlow_peers (j : Fin 128) (s : State) : (s.testFlow j).peers = s.peers := by
  have hput : ∀ x, (s.putFlow j x).peers = s.peers := fun x => by
    obtain ⟨_, _, _, _, _, h, _⟩ := State.putFlow_same j x s
    exact h
  unfold State.testFlow
  split
  · split
    · split <;> exact hput _
    · rfl
  · rfl
  · rfl

theorem State.retest_peers (s : State) : s.retest.peers = s.peers := by
  unfold State.retest
  split
  · exact walk_same State.peers State.testFlow State.testFlow_peers _ _
  · rfl

theorem State.priorityEnd_peers (s : State) : s.priorityEnd.peers = s.peers := by
  have hpace : ∀ u : State, u.workPace.cutCredits.peers = u.peers := fun u => by
    unfold State.workPace
    split <;> rfl
  unfold State.priorityEnd
  split
  · exact (hpace _).trans s.retest_peers
  · exact s.retest_peers

theorem demoteOver_same (fair n : Nat) (s : State) :
    (demoteOver fair n s).peers = s.peers ∧ (demoteOver fair n s).ev.departed = s.ev.departed := by
  have hput : ∀ (u : State) (j : Fin 128) x, (u.putFlow j x).peers = u.peers ∧ (u.putFlow j x).ev.departed = u.ev.departed :=
    fun u j x => by
      unfold State.putFlow
      simp only
      split <;> exact ⟨rfl, rfl⟩
  induction n generalizing s with
  | zero => exact ⟨rfl, rfl⟩
  | succ n ih =>
    unfold demoteOver
    split
    · split
      · rw [(ih _).1, (ih _).2]
        exact hput s _ _
      · exact ⟨rfl, rfl⟩
    · exact ⟨rfl, rfl⟩

theorem State.hearAirtime_same (s : State) : s.hearAirtime.beside = s.beside ∧ s.hearAirtime.peers = s.peers ∧
    s.hearAirtime.ev.departed = s.ev.departed := by
  have hover : s.overshoot.peers = s.peers ∧ s.overshoot.ev.departed = s.ev.departed := by
    unfold State.overshoot
    split
    · exact demoteOver_same _ _ s
    · exact ⟨rfl, rfl⟩
  have hround : ∀ u : State, u.round.cutCredits.peers = u.peers ∧ u.round.cutCredits.ev.departed = u.ev.departed := fun u =>
    ⟨walk_same State.peers State.testFlow State.testFlow_peers _ _,
      walk_same (fun w : State => w.ev.departed) State.testFlow State.testFlow_departed _ _⟩
  obtain ⟨w, hw⟩ : ∃ w : State, { s.overshoot with ev := { s.overshoot.ev with released := false } } = w := ⟨_, rfl⟩
  have hwo : w.peers = s.overshoot.peers ∧ w.ev.departed = s.overshoot.ev.departed := by rw [← hw]; exact ⟨rfl, rfl⟩
  have heq : s.hearAirtime = w.round.cutCredits := by rw [← hw]; rfl
  refine ⟨(State.cutCredits_beside _).trans ((State.round_beside _).trans (State.overshoot_beside s)), ?_, ?_⟩
  · rw [heq, (hround w).1, hwo.1, hover.1]
  · rw [heq, (hround w).2, hwo.2, hover.2]

/-- A fresh peer that evacuates keeps the gates shut (R160). -/
def State.PeerEvacuates (s : State) : Prop := ∃ p ∈ s.peers.table, p.fresh = true ∧ p.advert.evacuating = true

theorem State.PeerEvacuates.gateTest {s : State} (h : s.PeerEvacuates) : s.gateTest = s := by
  obtain ⟨p, hp, hfresh, hev⟩ := h
  have hany : (s.freshPeers.any fun p => p.advert.evacuating) = true :=
    List.any_eq_true.mpr ⟨p, List.mem_filter.mpr ⟨hp, hfresh⟩, hev⟩
  have hshut : s.gatesOpen = false := by simp [State.gatesOpen, hany]
  simp [State.gateTest, hshut]

theorem State.gateTest_other {s : State} (h : s.act.state ≠ .waiting) : s.gateTest = s := by simp [State.gateTest, h]

/-- The end of an event that finds nothing for the gates to open and no departure leaves the controller. -/
theorem State.settle_untested {s : State} (hg : s.retest.gateTest = s.retest) (hd : s.ev.departed = false) :
    s.settle.act = s.act := by
  obtain ⟨hbeside, -, hdep⟩ := s.priority_same
  rw [hd] at hdep
  simp only [State.settle, State.settleWith, hg, ite_self, hdep, Bool.false_eq_true, if_false]
  exact State.act_of_beside hbeside

/-- What the end of an event leaves of a calm part. -/
theorem State.settleWith_calm_same {s : State} (test : Bool) (h : s.Calm) :
    (s.settleWith test).beside = s.beside ∧ (s.settleWith test).peers = s.peers := by
  rw [State.settleWith_calm test h]
  exact ⟨s.priority_same.1, (State.priorityEnd_peers _).trans s.retest_peers⟩

theorem State.pli_of_beside {s t : State} (h : t.beside = s.beside) : t.pli = s.pli :=
  show t.beside.pli = s.beside.pli from congrArg State.pli h

theorem State.cfg_of_beside {s t : State} (h : t.beside = s.beside) : t.cfg = s.cfg :=
  show t.beside.cfg = s.beside.cfg from congrArg State.cfg h

theorem State.dist_of_beside {s t : State} (h : t.beside = s.beside) : t.dist = s.dist :=
  show t.beside.dist = s.beside.dist from congrArg State.dist h

theorem State.Calm.of_act {s t : State} (h : s.Calm) (ha : t.act = s.act) : t.Calm := by
  rw [State.Calm, ha]
  exact h

/-- The last parts of an ADVERT and the end of its event, in a calm part. -/
theorem State.heard_calm {s : State} (peer : Nat) (e : Bool) (h : s.Calm) :
    (s.hearAirtime.hearFlags peer e).settle.pli = s.pli ∧ (s.hearAirtime.hearFlags peer e).settle.dist = s.dist ∧
      (s.hearAirtime.hearFlags peer e).settle.peers = s.peers ∧ (s.hearAirtime.hearFlags peer e).settle.act = s.act := by
  obtain ⟨hbeside, hpeers, -⟩ := s.hearAirtime_same
  have hcalm : s.hearAirtime.Calm := h.of_act (State.act_of_beside hbeside)
  have hflags : s.hearAirtime.hearFlags peer e = s.hearAirtime := by
    rw [State.hearFlags, if_neg fun hc => hcalm.2 hc.1, State.gateTest_other hcalm.1]
  obtain ⟨hset, hsetp⟩ := State.settleWith_calm_same false hcalm
  rw [hflags]
  have hall := hset.trans hbeside
  exact ⟨State.pli_of_beside hall, State.dist_of_beside hall, hsetp.trans hpeers, State.act_of_beside hall⟩

/-! ### The time (R73, R75) -/

/-- What the end of an event, the client and flow operations and the time base's own fields keep, a change of mesh time keeps. -/
theorem State.timeChanged_of {P : State → Prop} (hset : ∀ u b, P u → P (u.settleWith b))
    (hbes : ∀ u v : State, v.beside = u.beside → P u → P v) (htime : ∀ (u : State) tm, P u → P { u with time := tm }) {s : State}
    (timeSet : Bool) (h : P s) : P (s.timeChanged timeSet) := by
  have hminute : P s.minuteStep := by
    unfold State.minuteStep State.minuteEvent
    split
    · exact h
    · exact hset _ _ (hbes _ _ (State.recomputeAll_beside _) (hbes _ _ (State.mapRecords_beside _ _) (htime _ _ h)))
  have hday : P s.minuteStep.dayStep := by
    unfold State.dayStep State.dayEvent
    split
    · exact hset _ _ (hbes _ _ (State.recomputeAll_beside _) (hbes _ _ (State.deleteDeparted_beside _)
        (hbes _ _ (State.mapRecords_beside _ _) (htime _ _ hminute))))
    · exact hminute
  unfold State.timeChanged
  split
  · simp only
    split
    · exact hset _ _ (hbes _ _ (State.recomputeAll_beside _) hday)
    · exact hday
  · exact h

theorem State.hearTime_of {P : State → Prop} (hset : ∀ u b, P u → P (u.settleWith b))
    (hbes : ∀ u v : State, v.beside = u.beside → P u → P v) (htime : ∀ (u : State) tm, P u → P { u with time := tm })
    (hraise : ∀ (u : State) n, P u → P (u.raise n)) {s : State} (peer mesh rank : Nat) (h : P s) : P (s.hearTime peer mesh rank) := by
  unfold State.hearTime
  split
  · exact State.timeChanged_of hset hbes htime _ (hraise _ _ (htime _ _ h))
  · exact h

theorem State.hearTime_kept {s : State} {peer mesh rank : Nat} (h : s.time.rank ≤ rank + 1) : s.hearTime peer mesh rank = s := by
  rw [State.hearTime, if_neg (by omega)]

/-- The peers' entries and the Slot Table stand, whatever the time. -/
theorem State.hearTime_peers (peer mesh rank : Nat) (s : State) : (s.hearTime peer mesh rank).peers.table = s.peers.table ∧
    (s.hearTime peer mesh rank).peers.ownPath = s.peers.ownPath ∧ (s.hearTime peer mesh rank).dist = s.dist := by
  have step : ∀ {u v : State}, v.still = u.still → u.peers.table = s.peers.table ∧ u.peers.ownPath = s.peers.ownPath ∧ u.dist = s.dist →
      v.peers.table = s.peers.table ∧ v.peers.ownPath = s.peers.ownPath ∧ v.dist = s.dist := fun hv hu => by
    obtain ⟨-, -, -, -, hd, ht, ho, -⟩ := State.still_parts hv
    rw [hd, ht, ho]
    exact hu
  exact State.hearTime_of (P := fun u => u.peers.table = s.peers.table ∧ u.peers.ownPath = s.peers.ownPath ∧ u.dist = s.dist)
    (fun u b => step (State.settleWith_still b u)) (fun u v h => step (State.still_of_beside h)) (fun _ _ h => h)
    (fun u n => step (State.raise_still n u)) peer mesh rank ⟨rfl, rfl, rfl⟩

/-- In a calm part the time's events end with no test of the gates, so the transmit order and the controller stand. -/
theorem State.hearTime_calm {s : State} (peer mesh rank : Nat) (h : s.Calm) : (s.hearTime peer mesh rank).act = s.act ∧
    (s.hearTime peer mesh rank).pli = s.pli ∧ (s.hearTime peer mesh rank).store = s.store := by
  have step : ∀ {u v : State}, v.beside = u.beside → u.act = s.act ∧ u.pli = s.pli ∧ u.store = s.store →
      v.act = s.act ∧ v.pli = s.pli ∧ v.store = s.store := fun hv hu => by
    rw [State.act_of_beside hv, State.pli_of_beside hv, State.store_of_beside hv]
    exact hu
  refine State.hearTime_of (P := fun u => u.act = s.act ∧ u.pli = s.pli ∧ u.store = s.store)
    (fun u b hu => step (State.settleWith_calm_same b (h.of_act hu.1)).1 hu) (fun u v => step) (fun _ _ hu => hu)
    (fun u n hu => ?_) peer mesh rank ⟨rfl, rfl, rfl⟩
  rw [State.raise_act, State.raise_pli, State.raise_store]
  exact hu

/-! ### The book (R80) -/

theorem bookHigher_iff {v o v' o' : Nat} : bookHigher v o v' o' = true ↔ v' < v ∨ (v' = v ∧ o' < o) := by
  simp [bookHigher, eq_comm (a := v)]

theorem State.hearBook_asks {s : State} {v o : Nat} (peer : Nat)
    (h : (s.sched.book.version < v ∨ (s.sched.book.version = v ∧ s.sched.book.origin < o)) ∧
      ∀ g, s.sched.staging = some g → g.version < v ∨ (g.version = v ∧ g.origin < o)) :
    s.hearBook peer v o = s.send peer .bookRequest := by
  unfold State.hearBook
  rw [if_pos (bookHigher_iff.mpr h.1)]
  split
  · rfl
  · rename_i g hg
    rw [if_pos (bookHigher_iff.mpr (h.2 g hg))]

theorem State.hearBook_silent {s : State} {v o : Nat} (peer : Nat)
    (h : ¬((s.sched.book.version < v ∨ (s.sched.book.version = v ∧ s.sched.book.origin < o)) ∧
      ∀ g, s.sched.staging = some g → g.version < v ∨ (g.version = v ∧ g.origin < o))) : s.hearBook peer v o = s := by
  unfold State.hearBook
  split
  · rename_i h1
    have hstaging : ¬∀ g, s.sched.staging = some g → g.version < v ∨ (g.version = v ∧ g.origin < o) := fun h2 =>
      h ⟨bookHigher_iff.mp h1, h2⟩
    split
    · rename_i hg
      exact absurd (fun g hg' => by rw [hg] at hg'; cases hg') hstaging
    · rename_i g hg
      refine if_neg fun h2 => hstaging fun g' hg' => ?_
      rw [hg] at hg'
      cases hg'
      exact bookHigher_iff.mp h2
  · rfl

theorem State.hearBook_aside (peer v o : Nat) (s : State) : (s.hearBook peer v o).aside = s.aside ∧
    (s.hearBook peer v o).dist = s.dist ∧ (s.hearBook peer v o).store = s.store ∧
    (s.hearBook peer v o).txCount ≤ s.txCount + 1 := by
  by_cases h : (s.sched.book.version < v ∨ (s.sched.book.version = v ∧ s.sched.book.origin < o)) ∧
      ∀ g, s.sched.staging = some g → g.version < v ∨ (g.version = v ∧ g.origin < o)
  · rw [State.hearBook_asks peer h]
    exact ⟨State.send_aside _ _ s, State.send_dist _ _ _, State.send_store _ _ _, State.send_txCount_le _ _ s⟩
  · rw [State.hearBook_silent peer h]
    exact ⟨rfl, rfl, rfl, Nat.le_succ _⟩

end Sys2Proof.Machine
end

section
/-! SUPPORT. Proofs: O9, the parts of an ADVERT put together. -/

namespace Sys2Proof.Machine

/-! ### The image (R145, R146) -/

/-- The part once a higher version than the barred one was seen (R145). -/
def State.unbarred (v : Nat) (s : State) : State :=
  { s with dist := { s.dist with barred := match s.dist.barred with
      | some w => if w < v then none else some w
      | none => none } }

/-- No version at or above one is barred. -/
def State.Open (s : State) (v : Nat) : Prop := ∀ w, s.dist.barred = some w → w < v

/-- A version that R145 lets a fill start with, the controller's state aside. -/
def State.Fillable (s : State) (v : Nat) : Prop :=
  s.IsNewer v ∧ s.Open v ∧ s.act.sel.trial = false ∧
    ¬(((s.slot s.spareSlot).state = .filling ∨ (s.slot s.spareSlot).state = .checking ∨ (s.slot s.spareSlot).state = .ready) ∧
      ∃ w, (s.slot s.spareSlot).version = some w ∧ v ≤ w)

section
variable {s : State} {v : Nat}

theorem State.unbarred_open (h : s.Open v) : s.unbarred v = { s with dist := { s.dist with barred := none } } := by
  unfold State.unbarred
  cases hb : s.dist.barred with
  | none => rfl
  | some w => simp only [if_pos (h w hb)]

theorem State.unbarred_shut (h : ¬s.Open v) : s.unbarred v = s := by
  unfold State.Open at h
  rw [not_forall] at h
  obtain ⟨w, hw⟩ := h
  obtain ⟨hb, hv⟩ := Classical.not_imp.mp hw
  unfold State.unbarred
  simp only [hb, if_neg hv]
  rw [← hb]

theorem State.unbarred_isBarred : (s.unbarred v).isBarred v = false ↔ s.Open v := by
  by_cases h : s.Open v
  · simp [State.unbarred_open h, State.isBarred, h]
  · rw [State.unbarred_shut h]
    unfold State.Open at h
    rw [not_forall] at h
    obtain ⟨w, hw⟩ := h
    obtain ⟨hb, hv⟩ := Classical.not_imp.mp hw
    simp only [State.Open, State.isBarred, hb, decide_eq_false_iff_not, Option.some.injEq]
    constructor
    · intro h
      omega
    · intro h
      exact absurd (h w rfl) hv

theorem State.unbarred_slot (k : SlotId) : (s.unbarred v).slot k = s.slot k := by cases k <;> rfl

theorem SlotRecord.atOrAbove_eq_false {r : SlotRecord} : r.atOrAbove v = false ↔
    ¬((r.state = .filling ∨ r.state = .checking ∨ r.state = .ready) ∧ ∃ w, r.version = some w ∧ v ≤ w) := by
  unfold SlotRecord.atOrAbove
  cases r.state <;> cases r.version <;> simp

/-- A fill may start from IDLE or WAITING (R145). -/
theorem State.unbarred_mayFill : (s.unbarred v).mayFill v = true ↔
    s.Fillable v ∧ (s.act.state = .idle ∨ s.act.state = .waiting) := by
  have hnew : (s.unbarred v).versionFits v = true ↔ s.IsNewer v := by
    simp [State.versionFits, State.bootedVersion, State.unbarred_slot, show (s.unbarred v).act = s.act from rfl]
  have hat : (!((s.unbarred v).slot (s.unbarred v).spareSlot).atOrAbove v) = true ↔
      ¬(((s.slot s.spareSlot).state = .filling ∨ (s.slot s.spareSlot).state = .checking ∨ (s.slot s.spareSlot).state = .ready) ∧
        ∃ w, (s.slot s.spareSlot).version = some w ∧ v ≤ w) := by
    rw [Bool.not_eq_true', SlotRecord.atOrAbove_eq_false, State.unbarred_slot]
    rfl
  have hbar : (!(s.unbarred v).isBarred v) = true ↔ s.Open v := by rw [Bool.not_eq_true', State.unbarred_isBarred]
  unfold State.mayFill State.Fillable
  rw [Bool.and_eq_true, Bool.and_eq_true, Bool.and_eq_true, Bool.and_eq_true, hnew, hat, hbar,
    show (s.unbarred v).act = s.act from rfl]
  cases s.act.state <;> simp [and_assoc, and_left_comm, and_comm]

theorem State.unbarred_filling : (s.unbarred v).filling v false = true ↔
    (s.slot s.spareSlot).state = .filling ∧ (s.slot s.spareSlot).version = some v ∧ (s.slot s.spareSlot).manifest = none := by
  unfold State.filling
  simp only [State.unbarred_slot]
  rw [show (s.unbarred v).spareSlot = s.spareSlot from rfl]
  simp [and_assoc]

theorem State.hearImage_fills (peer : Nat) (h : s.Fillable v) (hst : s.act.state = .idle ∨ s.act.state = .waiting) :
    s.hearImage peer v = ((s.unbarred v).startFill v).send peer (.manifestRequest v) :=
  if_pos (State.unbarred_mayFill.mpr ⟨h, hst⟩)

theorem State.hearImage_other (peer : Nat) (h : ¬(s.Fillable v ∧ (s.act.state = .idle ∨ s.act.state = .waiting))) :
    s.hearImage peer v = if (s.unbarred v).filling v false then (s.unbarred v).send peer (.manifestRequest v) else s.unbarred v :=
  if_neg (mt State.unbarred_mayFill.mp h)

/-- The controller once a fill starts: a WAITING one gives the READY slot up (R145, R159). -/
def State.afterFill (s : State) : ActivationUnit :=
  if (s.slot s.spareSlot).state = .ready ∧ s.act.state = .waiting then { s.act with state := .idle, activateNow := false } else s.act

/-- What the start of a fill does (R145). -/
theorem State.startFill_eq : s.startFill v =
    State.putSlotRecord s.spareSlot { SlotRecord.blank with state := .filling, version := some v }
      { s with
        act := s.afterFill
        dist := { s.dist with outstanding := none, relay := none, busySkip := none, manifestOwed := false } } := by
  unfold State.startFill State.readyGivenUp State.afterFill
  by_cases h1 : (s.slot s.spareSlot).state = .ready
  · by_cases h2 : s.act.state = .waiting
    · rw [if_pos h1, if_pos h2, if_pos ⟨h1, h2⟩]
      rfl
    · rw [if_pos h1, if_neg h2, if_neg fun h => h2 h.2]
  · rw [if_neg h1, if_neg fun h => h1 h.1]

end

end Sys2Proof.Machine
end

section
/-! SUPPORT. Proofs: O9, the parts of an ADVERT put together. -/

namespace Sys2Proof.Machine

/-- What a frame that is sent makes of the transmit side rests on the transmit side, the configuration and the places held. -/
theorem State.send_pli_congr {s t : State} (hp : t.pli = s.pli) (hc : t.cfg = s.cfg) (hs : t.store = s.store) (dest : Nat)
    (b : FrameBody) : (t.send dest b).pli = (s.send dest b).pli := by
  have hconf : t.configured = s.configured := by rw [State.configured, hc, State.configured]
  have hcount : t.txCount = s.txCount := by rw [State.txCount, State.heldPlaces, State.storeOps, hp, hs]; rfl
  unfold State.send State.placeFrame
  rw [hconf, hcount, hp, hc]
  split
  · exact hp
  · split
    · rfl
    · split
      · exact hp
      · rw [State.raise_pli, State.raise_pli]

/-- The state that an ADVERT's parts are handed on in: the sender entered, the own path cost recomputed, the sightings filed. -/
def State.noted (s : State) (peer : Nat) (a : Advert) : State := s.recomputePath.fileSightings peer a

/-- The ADVERT at the head, taken (R13, R14). -/
theorem State.advert_exec {s s1 : State} {f : Frame} {rest : List Frame} {a : Advert} (n : Nat) (hhead : s.Head f rest)
    (hbody : f.body = .advert a) (hother : f.sender ≠ s.cfg.nodeId) (hrange : a.inRange = true)
    (he : (s.taking n rest).enterPeer f.sender a = some s1) :
    exec (.advert n) s = .next ((s1.noted f.sender a).handOn f.sender a).settle := by
  have hown : ¬f.sender = (s.taking n rest).cfg.nodeId := hother
  rw [show exec (.advert n) s = .next (s.onFrame .advert State.takeAdvert n) from rfl,
    State.onFrame_head _ n hhead (by rw [hbody]; rfl), State.takeAdvert, hbody]
  simp only [if_neg hown, hrange, if_true, he]
  rfl

/-- What the parts handed on leave of the Peer Table (R14). -/
theorem State.handOn_peers (peer : Nat) (a : Advert) (s : State) : (s.handOn peer a).settle.peers.table = s.peers.table ∧
    (s.handOn peer a).settle.peers.ownPath = s.peers.ownPath := by
  have image : ∀ u : State, (u.hearImage peer a.target).peers = u.peers := fun u => by
    by_cases h : u.Fillable a.target ∧ (u.act.state = .idle ∨ u.act.state = .waiting)
    · rw [State.hearImage_fills peer h.1 h.2, State.send_peers, State.startFill_eq, State.putSlotRecord_peers]
      rfl
    · rw [State.hearImage_other peer h]
      split
      · rw [State.send_peers]
        rfl
      · rfl
  have flags : ∀ u : State, (u.hearFlags peer a.evacuating).peers.table = u.peers.table ∧
      (u.hearFlags peer a.evacuating).peers.ownPath = u.peers.ownPath := fun u => by
    have gate : ∀ w : State, w.gateTest.peers.table = w.peers.table ∧ w.gateTest.peers.ownPath = w.peers.ownPath := fun w => by
      obtain ⟨-, -, -, -, -, ht, ho, -⟩ := State.still_parts (State.gateTest_still w)
      exact ⟨ht, ho⟩
    unfold State.hearFlags
    split
    · exact gate _
    · exact gate u
  obtain ⟨-, -, -, -, -, ht, ho, -⟩ := State.still_parts (State.settle_still (s.handOn peer a))
  obtain ⟨htt, hto, -⟩ := State.hearTime_peers peer a.meshTime a.timeRank s
  have hb : ∀ u : State, (u.hearBook peer a.bookVersion a.bookOrigin).peers = u.peers := fun u => by
    obtain ⟨-, -, -, hp, -⟩ := State.aside_parts (State.hearBook_aside peer a.bookVersion a.bookOrigin u).1
    exact hp
  rw [ht, ho, State.handOn, (flags _).1, (flags _).2, (State.hearAirtime_same _).2.1, image, hb]
  exact ⟨htt, hto⟩

theorem State.cfg_of_fixed {s t : State} (h : t.fixed.cfg = s.fixed.cfg) : t.cfg = s.cfg := h

theorem State.handOn_cfg (peer : Nat) (a : Advert) (s : State) : (s.handOn peer a).settle.cfg = s.cfg := by
  refine State.cfg_of_fixed ?_
  rw [State.settle_fixed, State.handOn, State.hearFlags_fixed, State.hearAirtime_fixed, State.hearImage_fixed,
    State.hearBook_fixed, State.hearTime_fixed]

/-! ### The Peer Table (R14, R17) -/

theorem PeerEntered.handed {s s1 t : State} {id : Nat} {e : PeerEntry} (h : PeerEntered s s1 id e) {a : Advert}
    (ht : ((s1.noted id a).handOn id a).settle = t) :
    t.peer id = some e ∧ (∀ k, k ≠ id → t.peer k = s.peer k) ∧ t.PathIsLeast := by
  obtain ⟨htab, hown⟩ := State.handOn_peers id a (s1.noted id a)
  have hcfg := State.handOn_cfg id a (s1.noted id a)
  rw [ht] at htab hown hcfg
  have hpeer : ∀ k, t.peer k = s1.peer k := fun k => by
    unfold State.peer
    rw [htab]
    rfl
  exact ⟨by rw [hpeer, h.peer], fun k hk => by rw [hpeer, h.others k hk],
    (State.pathIsLeast_recomputePath s1).of_same hcfg htab hown⟩

theorem State.noted_grows (id : Nat) (a : Advert) (s : State) : Grows s ((s.noted id a).handOn id a).settle :=
  ((State.handOn_grows id a _).trans (State.settle_grows _)).after rfl rfl

/-- The first clauses of O9. -/
theorem advert_enters {n : Nat} {s : State} {f : Frame} {rest : List Frame} {a : Advert} (hhead : s.Head f rest)
    (hbody : f.body = .advert a) (hother : f.sender ≠ s.cfg.nodeId) (hrange : a.inRange = true) :
    (∀ p, s.peer f.sender = some p → ∃ t, exec (.advert n) s = .next t ∧
      t.peer f.sender = some { p with advert := a, heardAt := max s.now n, fresh := true } ∧
      (∀ id, id ≠ f.sender → t.peer id = s.peer id) ∧ t.PathIsLeast) ∧
    (s.peer f.sender = none → s.peers.table.length < 15 → ∃ t, exec (.advert n) s = .next t ∧
      t.peer f.sender =
        some { id := f.sender, advert := a, heardAt := max s.now n, linkCost := 31, fresh := true, suspectUntil := none } ∧
      (∀ id, id ≠ f.sender → t.peer id = s.peer id) ∧ t.PathIsLeast ∧
      (s.port.notices.length < 16 → .peerJoined f.sender ∈ t.port.notices)) := by
  refine ⟨fun p hp => ?_, fun hnone hlen => ?_⟩
  · obtain ⟨s1, he, hs1⟩ := State.enterPeer_known (s := s.taking n rest) a hp
    obtain ⟨t, ht⟩ : ∃ t, ((s1.noted f.sender a).handOn f.sender a).settle = t := ⟨_, rfl⟩
    exact ⟨t, (State.advert_exec n hhead hbody hother hrange he).trans (congrArg _ ht), hs1.handed ht⟩
  · obtain ⟨s1, he, hs1, hnotice⟩ := State.enterPeer_new (s := s.taking n rest) a hnone hlen
    obtain ⟨t, ht⟩ : ∃ t, ((s1.noted f.sender a).handOn f.sender a).settle = t := ⟨_, rfl⟩
    have hgrows := State.noted_grows f.sender a s1
    rw [ht] at hgrows
    obtain ⟨h1, h2, h3⟩ := hs1.handed ht
    exact ⟨t, (State.advert_exec n hhead hbody hother hrange he).trans (congrArg _ ht), h1, h2, h3,
      fun hroom => hgrows.mem_notices (hnotice hroom)⟩

end Sys2Proof.Machine
end

section
/-! SUPPORT. Proofs: O9, the clauses on the parts of an ADVERT that are handed on, and the whole. -/

namespace Sys2Proof.Machine

/-- A sender that is known, or finds room, is entered with a fresh entry of the ADVERT (R14). -/
theorem State.enterPeer_entered {s : State} {id : Nat} (a : Advert) (h : (s.peer id).isSome = true ∨ s.peers.table.length < 15) :
    ∃ s1 e, s.enterPeer id a = some s1 ∧ PeerEntered s s1 id e ∧ e.fresh = true ∧ e.advert = a := by
  cases hp : s.peer id with
  | some p =>
    obtain ⟨s1, he, hs1⟩ := State.enterPeer_known a hp
    exact ⟨s1, _, he, hs1, rfl, rfl⟩
  | none =>
    obtain ⟨s1, he, hs1, -⟩ := State.enterPeer_new a hp (h.resolve_left (by simp [hp]))
    exact ⟨s1, _, he, hs1, rfl, rfl⟩

/-- The sightings that an ADVERT leaves filed (R19, R20). -/
def State.filed (s : State) (peer : Nat) (a : Advert) : List SightingEntry :=
  (a.sightings.filter fun g => s.heldHere g.client).foldl
    (fun l g => fileSighting { client := g.client, peer := peer, smoothed := g.smoothed, validity := (s.now : Int) - 1000 * g.age } l)
    (s.peers.sightings.filter fun g => (s.now : Int) ≤ g.validity + 3000)

/-- The state that the parts are handed on in, next to the one the sender was entered in. -/
structure Noted (s x : State) (peer : Nat) (a : Advert) : Prop where
  act : x.act = s.act
  cfg : x.cfg = s.cfg
  ev : x.ev = s.ev
  sched : x.sched = s.sched
  time : x.time = s.time
  pli : x.pli = s.pli
  store : x.store = s.store
  dist : x.dist = s.dist
  sightings : x.peers.sightings = s.filed peer a
  entry : ∃ e ∈ x.peers.table, e.fresh = true ∧ e.advert = a

theorem PeerEntered.noted {s s1 : State} {id : Nat} {e : PeerEntry} {a : Advert} (h : PeerEntered s s1 id e) (hf : e.fresh = true)
    (ha : e.advert = a) : Noted s (s1.noted id a) id a := by
  have part : ∀ {β : Type} (g : State → β), g s1.aside = g { s.aside with peers := s1.peers } := fun g => congrArg g h.rest
  have hclients : s1.clients = s.clients := part State.clients
  have hnow : s1.now = s.now := part State.now
  have hheld : ∀ c, s1.heldHere c = s.heldHere c := fun c => by
    unfold State.heldHere State.findClient State.record
    rw [hclients]
  refine ⟨part State.act, part State.cfg, part State.ev, part State.sched, part State.time, h.pli, h.store, h.dist, ?_,
    e, h.mem, hf, ha⟩
  have hfold : (fun (l : List SightingEntry) (g : AdvertSighting) => if s1.recomputePath.heldHere g.client then
        fileSighting { client := g.client, peer := id, smoothed := g.smoothed, validity := (s1.recomputePath.now : Int) - g.age * 1000 } l
        else l) =
      fun l g => if s.heldHere g.client then
        fileSighting { client := g.client, peer := id, smoothed := g.smoothed, validity := (s.now : Int) - 1000 * g.age } l else l := by
    funext l g
    rw [show s1.recomputePath.heldHere g.client = s.heldHere g.client from hheld g.client,
      show s1.recomputePath.now = s.now from hnow, mul_comm]
  show a.sightings.foldl _ (s1.peers.sightings.filter (SightingEntry.usable s1.now)) = _
  rw [State.filed, List.foldl_filter, h.sightings, ← hfold, hnow]
  rfl

section
variable {s x : State} {peer : Nat} {a : Advert} (h : Noted s x peer a)
include h

/-- Parts of which a fill neither starts nor stops: the book's and the image's requests, and what is barred (R80, R145, R146). -/
theorem Noted.requests (hidle : s.act.state ≠ .waiting) :
    let y := (x.hearBook peer a.bookVersion a.bookOrigin).hearImage peer a.target
    let asksBook := (s.sched.book.version < a.bookVersion ∨ (s.sched.book.version = a.bookVersion ∧ s.sched.book.origin < a.bookOrigin)) ∧
      ∀ g, s.sched.staging = some g → g.version < a.bookVersion ∨ (g.version = a.bookVersion ∧ g.origin < a.bookOrigin)
    let asksManifest := (s.act.state = .idle ∧ s.Fillable a.target) ∨ ((s.slot s.spareSlot).state = .filling ∧
      (s.slot s.spareSlot).version = some a.target ∧ (s.slot s.spareSlot).manifest = none)
    ∃ w, (asksBook → w = s.send peer .bookRequest) ∧ (¬asksBook → w = s) ∧
      (asksManifest → y.pli = (w.send peer (.manifestRequest a.target)).pli) ∧ (¬asksManifest → y.pli = w.pli) ∧
      y.act = s.act ∧ y.peers = x.peers ∧ y.ev = s.ev ∧ y.cfg = s.cfg ∧
      (¬(s.act.state = .idle ∧ s.Fillable a.target) → y.dist = (s.unbarred a.target).dist) := by
  intro y asksBook asksManifest
  obtain ⟨z, hz⟩ : ∃ z, x.hearBook peer a.bookVersion a.bookOrigin = z := ⟨_, rfl⟩
  have hy : y = z.hearImage peer a.target := by rw [← hz]
  obtain ⟨w, hw1, hw2, hpli, hcfg, hstore⟩ : ∃ w, (asksBook → w = s.send peer .bookRequest) ∧ (¬asksBook → w = s) ∧
      z.pli = w.pli ∧ z.cfg = w.cfg ∧ z.store = w.store := by
    by_cases hb : asksBook
    · refine ⟨s.send peer .bookRequest, fun _ => rfl, fun hn => absurd hb hn, ?_⟩
      rw [← hz, State.hearBook_asks peer (by rw [h.sched]; exact hb), State.send_cfg, State.send_cfg, State.send_store, State.send_store]
      exact ⟨State.send_pli_congr h.pli h.cfg h.store _ _, h.cfg, h.store⟩
    · refine ⟨s, fun hn => absurd hn hb, fun _ => rfl, ?_⟩
      rw [← hz, State.hearBook_silent peer (by rw [h.sched]; exact hb)]
      exact ⟨h.pli, h.cfg, h.store⟩
  obtain ⟨haside, hzd, -⟩ := State.hearBook_aside peer a.bookVersion a.bookOrigin x
  rw [hz] at haside hzd
  obtain ⟨-, -, hzc, hzp, -, -, -, -, hza, hze, -⟩ := State.aside_parts haside
  have hact : z.act = s.act := hza.trans h.act
  have hev : z.ev = s.ev := hze.trans h.ev
  have hzcfg : z.cfg = s.cfg := hzc.trans h.cfg
  have hdist : z.dist = s.dist := hzd.trans h.dist
  have hslot : ∀ k, z.slot k = s.slot k := State.slot_of_dist hdist
  have hspare : z.spareSlot = s.spareSlot := by rw [State.spareSlot, hdist, State.spareSlot]
  have hfill : z.Fillable a.target ↔ s.Fillable a.target := by
    unfold State.Fillable State.IsNewer State.Open State.bootedVersion
    rw [hspare, hact, hdist]
    simp only [hslot]
  have hun : (z.unbarred a.target).dist = (s.unbarred a.target).dist := by
    unfold State.unbarred
    rw [hdist]
  refine ⟨w, hw1, hw2, ?_⟩
  by_cases hf : s.act.state = .idle ∧ s.Fillable a.target
  · have hyf : y = ((z.unbarred a.target).startFill a.target).send peer (.manifestRequest a.target) := by
      rw [hy, State.hearImage_fills peer (hfill.mpr hf.2) (.inl (by rw [hact]; exact hf.1))]
    have hfilled : (z.unbarred a.target).startFill a.target = _ := State.startFill_eq
    have hafter : (z.unbarred a.target).afterFill = s.act := by
      rw [State.afterFill, if_neg fun hc => hidle (hact ▸ hc.2)]
      exact hact
    rw [hafter] at hfilled
    refine ⟨fun _ => ?_, fun hn => absurd (.inl hf) hn, ?_, ?_, ?_, ?_, fun hn => absurd hf hn⟩
    · rw [hyf]
      refine State.send_pli_congr ?_ ?_ ?_ _ _ <;> rw [hfilled]
      · rw [State.putSlotRecord_pli]; exact hpli
      · rw [State.putSlotRecord_cfg]; exact hcfg
      · rw [State.putSlotRecord_store]; exact hstore
    · rw [hyf, State.send_act, hfilled, State.putSlotRecord_act]
    · rw [hyf, State.send_peers, hfilled, State.putSlotRecord_peers]
      exact hzp
    · rw [hyf, State.send_ev, hfilled, State.putSlotRecord_ev]
      exact hev
    · rw [hyf, State.send_cfg, hfilled, State.putSlotRecord_cfg]
      exact hzcfg
  · have hno : ¬(z.Fillable a.target ∧ (z.act.state = .idle ∨ z.act.state = .waiting)) := fun hc =>
      hf ⟨(hact ▸ hc.2 : s.act.state = .idle ∨ s.act.state = .waiting).resolve_right hidle, hfill.mp hc.1⟩
    have hyo := State.hearImage_other peer hno
    rw [← hy] at hyo
    have hask : asksManifest ↔ (z.unbarred a.target).filling a.target false = true := by
      rw [State.unbarred_filling, hspare, hslot]
      exact or_iff_right hf
    by_cases hfl : (z.unbarred a.target).filling a.target false = true
    · rw [if_pos hfl] at hyo
      refine ⟨fun _ => ?_, fun hn => absurd (hask.mpr hfl) hn, ?_, ?_, ?_, ?_, fun _ => ?_⟩
      · rw [hyo]
        exact State.send_pli_congr (t := z.unbarred a.target) hpli hcfg hstore _ _
      · rw [hyo, State.send_act]; exact hact
      · rw [hyo, State.send_peers]; exact hzp
      · rw [hyo, State.send_ev]; exact hev
      · rw [hyo, State.send_cfg]; exact hzcfg
      · rw [hyo, State.send_dist, hun]
    · rw [if_neg hfl] at hyo
      rw [hyo]
      exact ⟨fun hn => absurd (hask.mp hn) hfl, fun _ => hpli, hact, hzp, hev, hzcfg, fun _ => hun⟩

/-- A fill that starts (R145, R159). -/
theorem Noted.fills (hst : s.act.state = .idle ∨ (s.act.state = .waiting ∧ (s.slot s.spareSlot).state = .ready ∧
      s.time.rank ≤ a.timeRank + 1)) (hfill : s.Fillable a.target) :
    let t := (x.handOn peer a).settle
    t.slot s.spareSlot = { SlotRecord.blank with state := .filling, version := some a.target } ∧
      t.dist.outstanding = none ∧ t.dist.relay = none ∧ t.dist.busySkip = none ∧ t.dist.manifestOwed = false ∧
      t.dist.barred = none ∧ t.act.state = .idle ∧ (s.act.state = .waiting → t.act.activateNow = false) ∧
      (s.configured = true → s.txCount < 11 →
        { sender := s.cfg.nodeId, dest := peer, body := .manifestRequest a.target } ∈ t.pli.tx) := by
  obtain ⟨y, hy⟩ : ∃ y, x.hearTime peer a.meshTime a.timeRank = y := ⟨_, rfl⟩
  have hyd : y.dist = s.dist := by
    rw [← hy, (State.hearTime_peers peer a.meshTime a.timeRank x).2.2, h.dist]
  have hycfg : y.cfg = s.cfg := by
    refine (State.cfg_of_fixed ?_).trans h.cfg
    rw [← hy, State.hearTime_fixed]
  have hyact : y.act = s.act ∧ y.pli = s.pli ∧ y.store = s.store := by
    rcases hst with hidle | ⟨-, -, hkept⟩
    · have hcalm : x.Calm := by rw [State.Calm, h.act, hidle]; exact ⟨nofun, nofun⟩
      rw [← hy, ← h.act, ← h.pli, ← h.store]
      exact State.hearTime_calm peer a.meshTime a.timeRank hcalm
    · rw [← hy, State.hearTime_kept (by rw [h.time]; exact hkept)]
      exact ⟨h.act, h.pli, h.store⟩
  obtain ⟨hya, hyp, hys⟩ := hyact
  obtain ⟨z, hz⟩ : ∃ z, y.hearBook peer a.bookVersion a.bookOrigin = z := ⟨_, rfl⟩
  obtain ⟨haside, hzd, hzs, hzn⟩ := State.hearBook_aside peer a.bookVersion a.bookOrigin y
  rw [hz] at haside hzd hzs hzn
  obtain ⟨-, -, hzc, -, -, -, -, -, hza, -⟩ := State.aside_parts haside
  have hact : z.act = s.act := hza.trans hya
  have hdist : z.dist = s.dist := hzd.trans hyd
  have hcfg : z.cfg = s.cfg := hzc.trans hycfg
  have hslot : ∀ k, z.slot k = s.slot k := State.slot_of_dist hdist
  have hspare : z.spareSlot = s.spareSlot := by rw [State.spareSlot, hdist, State.spareSlot]
  have hcount : z.txCount ≤ s.txCount + 1 := by
    rw [State.txCount_of hyp (by rw [State.heldPlaces, State.storeOps, hys]; rfl)] at hzn
    exact hzn
  have hzfill : z.Fillable a.target := by
    unfold State.Fillable State.IsNewer State.Open State.bootedVersion at hfill ⊢
    rw [hspare, hact, hdist]
    simpa only [hslot] using hfill
  have hopen : z.unbarred a.target = { z with dist := { z.dist with barred := none } } := State.unbarred_open hzfill.2.1
  have hzst : z.act.state = .idle ∨ z.act.state = .waiting := by rw [hact]; exact hst.imp_right And.left
  obtain ⟨w, hw⟩ : ∃ w, (z.unbarred a.target).startFill a.target = w := ⟨_, rfl⟩
  have hweq : w = _ := hw.symm.trans State.startFill_eq
  have hwact : w.act.state = .idle ∧ (s.act.state = .waiting → w.act.activateNow = false) := by
    have hafter : w.act = (z.unbarred a.target).afterFill := by rw [hweq, State.putSlotRecord_act]
    have hunact : (z.unbarred a.target).act = s.act := hact
    rw [hafter, State.afterFill, State.unbarred_slot, show (z.unbarred a.target).spareSlot = s.spareSlot from hspare, hslot, hunact]
    rcases hst with hidle | ⟨hwait, hready, -⟩
    · rw [if_neg (by simp [hidle])]
      exact ⟨hidle, fun hc => by rw [hidle] at hc; cases hc⟩
    · rw [if_pos ⟨hready, hwait⟩]
      exact ⟨rfl, fun _ => rfl⟩
  obtain ⟨v, hv⟩ : ∃ v, w.send peer (.manifestRequest a.target) = v := ⟨_, rfl⟩
  have hvact : v.act = w.act := by rw [← hv, State.send_act]
  have hvdist : v.dist = w.dist := by rw [← hv, State.send_dist]
  have hcalm : v.Calm := by rw [State.Calm, hvact, hwact.1]; exact ⟨nofun, nofun⟩
  obtain ⟨htp, htd, -, hta⟩ := State.heard_calm peer a.evacuating hcalm
  have ht : (x.handOn peer a).settle = (v.hearAirtime.hearFlags peer a.evacuating).settle := by
    rw [← hv, ← hw, ← State.hearImage_fills peer hzfill hzst, ← hz, ← hy]
    rfl
  intro t
  rw [← ht] at htp htd hta
  have hwslot : t.slot s.spareSlot = w.slot s.spareSlot := State.slot_of_dist (htd.trans hvdist) _
  refine ⟨?_, ?_, ?_, ?_, ?_, ?_, by rw [hta, hvact, hwact.1], fun hc => by rw [hta, hvact, hwact.2 hc], fun hc h11 => ?_⟩
  · rw [hwslot, hweq, show (z.unbarred a.target).spareSlot = s.spareSlot from hspare]
    cases s.spareSlot <;> rfl
  · rw [htd, hvdist, hweq, State.putSlotRecord_dist_outstanding]
  · rw [htd, hvdist, hweq, State.putSlotRecord_dist_relay]
  · rw [htd, hvdist, hweq, State.putSlotRecord_dist_busySkip]
  · rw [htd, hvdist, hweq, State.putSlotRecord_dist_manifestOwed]
  · rw [htd, hvdist, hweq, State.putSlotRecord_dist_barred, hopen]
  · have hwcfg : w.cfg = s.cfg := by rw [hweq, State.putSlotRecord_cfg]; exact hcfg
    have hwcount : w.txCount < 12 := by
      have : w.txCount = z.txCount := by rw [hweq, State.putSlotRecord_txCount]; rfl
      omega
    rw [htp, ← hv, State.send_placed _ _ (by rw [State.configured, hwcfg]; exact hc) hwcount, State.placeFrame, hwcfg]
    exact List.mem_append_right _ List.mem_cons_self

/-- What an ADVERT makes of an EVACUATING controller (R163). -/
theorem Noted.evacuates (hclear : s.MarksClear) (he : s.act.state = .evacuating) (hkept : s.time.rank ≤ a.timeRank + 1) :
    (a.evacuating = true → peer < s.cfg.nodeId →
      (x.handOn peer a).settle.act = { s.act with state := .waiting, evacuationDue := none }) ∧
    (a.evacuating = false ∨ s.cfg.nodeId < peer → (x.handOn peer a).settle.act = s.act) := by
  have hne : s.act.state ≠ .waiting := by rw [he]; exact nofun
  obtain ⟨y, hy⟩ : ∃ y, (x.hearBook peer a.bookVersion a.bookOrigin).hearImage peer a.target = y := ⟨_, rfl⟩
  obtain ⟨-, -, -, -, -, hact, hpeers, hev, hcfg, -⟩ := h.requests hne
  rw [hy] at hact hpeers hev hcfg
  obtain ⟨hbeside, hairp, hdep⟩ := y.hearAirtime_same
  have hairact : y.hearAirtime.act = s.act := (State.act_of_beside hbeside).trans hact
  have hairdep : y.hearAirtime.ev.departed = false := by rw [hdep, hev, hclear]; rfl
  have haircfg : y.hearAirtime.cfg = s.cfg := (State.cfg_of_beside hbeside).trans hcfg
  obtain ⟨z, hz⟩ : ∃ z, y.hearAirtime = z := ⟨_, rfl⟩
  have hon : x.handOn peer a = z.hearFlags peer a.evacuating := by
    rw [State.handOn, State.hearTime_kept (by rw [h.time]; exact hkept), hy, hz]
  rw [hz] at hairact hairdep haircfg hairp
  have hzst : z.act.state = .evacuating := by rw [hairact, he]
  refine ⟨fun hea hlow => ?_, fun hoff => ?_⟩
  · obtain ⟨w, hw⟩ : ∃ w : State, { z with act := { z.act with state := .waiting, evacuationDue := none } } = w := ⟨_, rfl⟩
    have hshut : ∀ u : State, u.peers = w.peers → u.PeerEvacuates := fun u hu => by
      obtain ⟨e, hmem, hfresh, hadv⟩ := h.entry
      refine ⟨e, ?_, hfresh, by rw [hadv, hea]⟩
      rw [hu, ← hw, show ({ z with act := { z.act with state := .waiting, evacuationDue := none } } : State).peers = z.peers from rfl,
        hairp, hpeers]
      exact hmem
    have hflags : z.hearFlags peer a.evacuating = w := by
      rw [State.hearFlags, if_pos ⟨hzst, hea, by rw [haircfg]; exact hlow⟩, hw, (hshut w rfl).gateTest]
    rw [hon, hflags, State.settle_untested (hshut _ w.retest_peers).gateTest (by rw [← hw]; exact hairdep), ← hw, ← hairact]
  · have hflags : z.hearFlags peer a.evacuating = z := by
      rw [State.hearFlags, if_neg fun hc => ?_, State.gateTest_other (by rw [hzst]; exact nofun)]
      obtain ⟨-, hea, hlow⟩ := hc
      rw [haircfg] at hlow
      rcases hoff with hoff | hoff
      · rw [hea] at hoff
        cases hoff
      · omega
    have hret : z.retest.gateTest = z.retest := State.gateTest_other (by
      rw [State.act_of_beside (State.retest_beside z), hzst]
      exact nofun)
    rw [hon, hflags, State.settle_untested hret hairdep, hairact]

/-- What an ADVERT files, asks for and bars in a calm part (R19, R80, R145, R146). -/
theorem Noted.calm (hcalm : s.Calm) (hkept : s.time.rank ≤ a.timeRank + 1) :
    let t := (x.handOn peer a).settle
    let asksBook := (s.sched.book.version < a.bookVersion ∨ (s.sched.book.version = a.bookVersion ∧ s.sched.book.origin < a.bookOrigin)) ∧
      ∀ g, s.sched.staging = some g → g.version < a.bookVersion ∨ (g.version = a.bookVersion ∧ g.origin < a.bookOrigin)
    let asksManifest := (s.act.state = .idle ∧ s.Fillable a.target) ∨ ((s.slot s.spareSlot).state = .filling ∧
      (s.slot s.spareSlot).version = some a.target ∧ (s.slot s.spareSlot).manifest = none)
    ∃ w, t.peers.sightings = s.filed peer a ∧ (asksBook → w = s.send peer .bookRequest) ∧ (¬asksBook → w = s) ∧
      (asksManifest → t.pli = (w.send peer (.manifestRequest a.target)).pli) ∧ (¬asksManifest → t.pli = w.pli) ∧
      (¬(s.act.state = .idle ∧ s.Fillable a.target) → t.dist = (s.unbarred a.target).dist) := by
  intro t asksBook asksManifest
  obtain ⟨y, hy⟩ : ∃ y, (x.hearBook peer a.bookVersion a.bookOrigin).hearImage peer a.target = y := ⟨_, rfl⟩
  obtain ⟨w, hw1, hw2, hp1, hp2, hact, hpeers, -, -, hdist⟩ := h.requests hcalm.1
  rw [hy] at hp1 hp2 hact hpeers hdist
  have hon : t = (y.hearAirtime.hearFlags peer a.evacuating).settle := by
    rw [← hy]
    show ((x.hearTime peer a.meshTime a.timeRank).hearBook peer a.bookVersion a.bookOrigin |>.hearImage peer a.target
      |>.hearAirtime |>.hearFlags peer a.evacuating).settle = _
    rw [State.hearTime_kept (by rw [h.time]; exact hkept)]
  obtain ⟨htp, htd, hts, -⟩ := State.heard_calm peer a.evacuating (hcalm.of_act hact)
  rw [← hon] at htp htd hts
  exact ⟨w, by rw [hts, hpeers, h.sightings], hw1, hw2, fun ha => htp.trans (hp1 ha), fun ha => htp.trans (hp2 ha),
    fun hn => htd.trans (hdist hn)⟩

end

/-- Settles O9. -/
theorem advertEntersThePeerTable : Obligations.AdvertEntersThePeerTable := by
  refine ⟨fun n s f rest a hhead hbody hother hrange => advert_enters hhead hbody hother hrange,
    fun n s f rest a hhead hbody hother hrange hclear hroom => ?_, fun g l => ?_⟩
  · obtain ⟨s1, e, he, hs1, hfresh, hadv⟩ := State.enterPeer_entered (s := s.taking n rest) (id := f.sender) a hroom
    have hexec := State.advert_exec n hhead hbody hother hrange he
    have hnoted := hs1.noted hfresh hadv
    intro now u sp v higher asksBook unbarred starts asksManifest kept
    refine ⟨fun hcalm hkept => ?_, fun hst hfill => ?_, fun hev hkept => ⟨fun h1 h2 => ?_, fun h1 => ?_⟩⟩
    · obtain ⟨w, hs, hb1, hb2, hm1, hm2, hd⟩ := hnoted.calm hcalm hkept
      refine ⟨_, w, hexec, hs, hb1, hb2, hm1, hm2, fun hno => ⟨fun ho => ?_, fun ho => ?_⟩⟩
      · rw [hd hno, State.unbarred_open (s := s.taking n rest) ho]
        rfl
      · rw [hd hno, State.unbarred_shut (s := s.taking n rest) ho]
        rfl
    · obtain ⟨h1, h2, h3, h4, h5, h6, h7, h8, h9⟩ := hnoted.fills hst hfill
      exact ⟨_, hexec, h1, h2, h3, h4, h5, h6, h7, h8, fun hl hu => h9 (State.configured_iff.mpr ⟨hl, hu⟩)⟩
    · exact ⟨_, hexec, (hnoted.evacuates hclear hev hkept).1 h1 h2⟩
    · exact ⟨_, hexec, (hnoted.evacuates hclear hev hkept).2 h1⟩
  · exact ⟨fileSighting_same, fun h hl => fileSighting_room h hl, fun h hl w hw hleast => fileSighting_full h hl hw hleast⟩

end Sys2Proof.Machine
end

section
/-! SUPPORT. Proofs: the start sequence step by step (R166, R167), each operation of it in flight with nothing behind it. -/

namespace Sys2Proof.Machine

/-! ### A completion with nothing behind it -/

/-- The part with its operation done, the flash as it leaves it, and the next not yet in flight. -/
def State.vacated (s : State) (n : Nat) (flash : List Host.Cell) : State :=
  { s.clockTo n with store := { s.store with flash := flash, inflight := none } }

theorem State.waiting_none {s : State} (h : s.store.waiting = []) : { s with store := { s.store with waiting := [] } } = s := by
  rw [← h]

theorem State.answered_alone {s : State} {op : StoreOp} (d : Device) (hw : s.store.waiting = []) :
    s.answered op d s.store.waiting = ((s.freed op d).deliver op (s.perform op d).2).settle := by
  have hnone : (launch [] (s.freed op d)).1 = s.freed op d :=
    State.waiting_none (((State.freed_parts d).2.1).trans hw)
  rw [hw, State.answered, hnone]
  rfl

/-- A completion of the sequence's that its stage waits for takes the sequence's next step (R165). -/
theorem State.start_step {s t : State} {st : Stage} {kind : OpKind} {p : OpKind → Bool} {n : Nat} {d : Device} {c : Instr}
    (hexec : ∀ u : State, exec c u = .next (u.completion p n d)) (h : s.Stands st kind) (hp : p kind = true)
    (hw : st.waitsFor kind = true)
    (ht : (s.vacated n (s.perform { owner := .start, kind := kind } d).1).seqNext (s.perform { owner := .start, kind := kind } d).2 = t)
    (hev : t.ev = s.ev) : exec c s = .next t := by
  obtain ⟨hst, ⟨hi, hwait⟩, hm⟩ := h
  have hdone : s.completion p n d = (s.clockTo n).answered { owner := .start, kind := kind } d (s.clockTo n).store.waiting :=
    State.completion_behind n d hi hp s.store.waiting
  have hfreed : (s.clockTo n).freed { owner := .start, kind := kind } d =
      s.vacated n (s.perform { owner := .start, kind := kind } d).1 := by
    unfold State.freed State.takeSelector
    split
    · rename_i hk _
      cases hk
      cases st <;> cases hw
    · rfl
  have hdeliver : ∀ (u : State) r, u.seq.stage = st → u.deliver { owner := .start, kind := kind } r = u.seqNext r := fun u r hu => by
    have hseq : u.seqDone kind r = u.seqNext r := by rw [State.seqDone, hu, if_pos hw]
    rw [← hseq]
    cases kind <;> [rfl; rfl; rfl; rfl; rfl; rfl; rfl; (cases st <;> cases hw); rfl]
  rw [hexec, hdone, State.answered_alone (s := s.clockTo n) d hwait, hfreed,
    hdeliver (s.vacated n (s.perform { owner := .start, kind := kind } d).1) _ hst]
  rw [show (s.clockTo n).perform { owner := .start, kind := kind } d = s.perform { owner := .start, kind := kind } d from rfl, ht,
    State.settle_of_ev hm hev]

/-! ### The sequence's submissions to an idle store -/

section
variable {s : State} (st : Stage) (h : s.StoreIdle)
include h

theorem State.startOp_idle {kind : OpKind} (hr : s.outOfRange { owner := .start, kind := kind } = false)
    (hp : StoreOp.isProtected s.act.sel { owner := .start, kind := kind } = false) (hk : ∀ n p sel q, kind ≠ .selectorWrite n p sel q) :
    s.startOp st kind = s.awaiting st kind := by
  have hr' : (s.stageAt st).outOfRange { owner := .start, kind := kind } = false := by
    unfold State.outOfRange at hr ⊢
    exact hr
  have hdirect : s.store.direct { owner := .start, kind := kind } = { owner := .start, kind := kind } := by
    cases kind with
    | selectorWrite n p sel q => exact absurd rfl (hk n p sel q)
    | _ => rfl
  rw [State.startOp, State.submit_idle (s := s.stageAt st) h hr' hp (by unfold State.slotStateOk; rfl)]
  unfold State.markAccepted
  show State.flying (s.stageAt st) (s.store.direct _) = _
  rw [hdirect]
  rfl

theorem State.startOp_recordRead (a : Area) : s.startOp st (.recordRead a) = s.awaiting st (.recordRead a) :=
  State.startOp_idle st h rfl rfl fun _ _ _ _ => nofun

end

/-- A read of a record leaves the flash and gives the record's body (R129, R130). -/
theorem State.perform_recordRead (s : State) (o : Owner) (a : Area) (d : Device) :
    (s.perform { owner := o, kind := .recordRead a } d).1 = s.store.flash ∧
      (s.perform { owner := o, kind := .recordRead a } d).2.body = s.readBody d a := by
  unfold State.perform State.readBody
  cases d.failed with
  | true => exact ⟨rfl, rfl⟩
  | false =>
    refine ⟨rfl, ?_⟩
    show (match readArea d.cells s.store.flash a with | some body => StoreResult.valid body | none => .invalid).body =
      readArea d.cells s.store.flash a
    cases readArea d.cells s.store.flash a <;> rfl

/-- A read of a record that the sequence waits for. -/
theorem State.read_step {s t : State} {st : Stage} {a : Area} (n : Nat) (d : Device) (h : s.Stands st (.recordRead a))
    (hw : st.waitsFor (.recordRead a) = true)
    (ht : ∀ r : StoreResult, r.body = s.readBody d a → (s.vacated n s.store.flash).seqNext r = t)
    (hev : t.ev = s.ev) : exec (.recordReadCompletion n d) s = .next t := by
  obtain ⟨hflash, hbody⟩ := s.perform_recordRead .start a d
  exact State.start_step (p := OpKind.isRecordRead) (fun _ => rfl) h rfl hw (by rw [hflash]; exact ht _ hbody) hev

/-! ### The selector (R134, R166) -/

/-- The selector that is learned is the one the copies give. -/
theorem State.Learned.eq {s w : State} {first second : Option (List Byte)} (h : s.Learned first second w) :
    s.learnSelector first second = w := by
  obtain ⟨copy, q, sel, rfl, h⟩ := h
  have hof : selectorOf first second = (copy, q, sel) := by
    unfold selectorOf
    rcases h with ⟨rfl, h1, h2⟩ | ⟨rfl, h1, h2⟩ | ⟨rfl, rfl, h1, h2, rfl⟩
    · rw [h1]
      cases hs : second.bind readSelector with
      | none => rfl
      | some x => simp only [if_neg (Nat.not_lt.mpr (h2 x.1 x.2 hs))]
    · rw [h1]
      cases hf : first.bind readSelector with
      | none => rfl
      | some x => simp only [if_pos (h2 x.1 x.2 hf)]
    · rw [h1, h2]
      rfl
  rw [State.learnSelector, hof]

/-- A selector write of the sequence goes into flight at once on an idle store (R166). -/
theorem State.seqWrite_idle {s : State} (h : s.StoreIdle) (p : SelPurpose) (sel : Selector) (st : Nat → Stage) (goOn : State → State) :
    s.seqWrite p sel st goOn = s.writing st p sel := by
  obtain ⟨w, hw⟩ : ∃ w, s.newWrite .start p sel = w := ⟨_, rfl⟩
  have how : w.1.owner = .start := by rw [← hw]; rfl
  have hidle : (w.2.stageAt (st w.1.order)).StoreIdle := by rw [← hw]; exact h
  have hsub : (w.2.stageAt (st w.1.order)).submitSelector w.1 =
      ((w.2.stageAt (st w.1.order)).flying (w.1.op (w.2.stageAt (st w.1.order)).nextSelector), .accepted) := by
    unfold State.submitSelector
    simp only
    rw [State.submit_selector_idle hidle (.inr how), if_neg (by simp [how])]
  unfold State.seqWrite
  simp only [hw, hsub, if_true]
  rw [← hw]
  rfl

theorem State.vacated_idle {s : State} (h : s.store.waiting = []) (n : Nat) (flash : List Host.Cell) : (s.vacated n flash).StoreIdle :=
  ⟨rfl, h⟩

end Sys2Proof.Machine
end

section
/-! SUPPORT. Proofs: O6, the selector, the book and the manifests as the start sequence takes them (R134, R166, R167). -/

namespace Sys2Proof.Machine

section
variable {s : State} (n : Nat) (d : Device)

theorem State.readSelector0_goes (h : s.Stands .readSelector0 (.recordRead (.selector .zero))) :
    exec (.recordReadCompletion n d) s = .next ((s.clockTo n).awaiting (.readSelector1 (s.readBody d (.selector .zero)))
      (.recordRead (.selector .one))) := by
  refine State.read_step n d h rfl (fun r hr => ?_) rfl
  obtain ⟨hst, ⟨-, hw⟩, -⟩ := h
  have hidle := State.vacated_idle hw n s.store.flash
  rw [State.seqNext, show (s.vacated n s.store.flash).seq.stage = _ from hst]
  simp only
  rw [State.startOp_recordRead _ hidle, hr]
  rfl

/-- What the learned selector calls for (R158, R166). -/
theorem State.readSelector1_goes {first : Option (List Byte)} {w : State} {t : State}
    (h : s.Stands (.readSelector1 first) (.recordRead (.selector .one)))
    (hl : (s.clockTo n).Learned first (s.readBody d (.selector .one)) w)
    (ht : State.seqAction { w with store := { w.store with inflight := none } } = t) (hev : t.ev = s.ev) :
    exec (.recordReadCompletion n d) s = .next t := by
  refine State.read_step n d h rfl (fun r hr => ?_) hev
  obtain ⟨hst, -, -⟩ := h
  rw [State.seqNext, show (s.vacated n s.store.flash).seq.stage = _ from hst]
  simp only
  rw [hr, ← ht, ← hl.eq]
  rfl

theorem State.readBook_goes (h : s.Stands .readBook (.recordRead .book)) :
    exec (.recordReadCompletion n d) s = .next (State.awaiting
      { s.clockTo n with sched := { s.sched with
          book := match s.readBody d .book with | some x => (readBook x).getD Book.emptyBook | none => Book.emptyBook } }
      .readManifestA (.recordRead (.manifest .a))) := by
  refine State.read_step n d h rfl (fun r hr => ?_) rfl
  obtain ⟨hst, ⟨-, hw⟩, -⟩ := h
  rw [State.seqNext, show (s.vacated n s.store.flash).seq.stage = _ from hst]
  simp only
  rw [State.startOp_recordRead _ (by exact State.vacated_idle hw n s.store.flash), hr]
  cases s.readBody d .book <;> rfl

theorem State.readManifestA_goes (h : s.Stands .readManifestA (.recordRead (.manifest .a))) :
    exec (.recordReadCompletion n d) s = .next (State.awaiting
      { s.clockTo n with seq := { s.seq with manifestA := manifestBody (s.readBody d (.manifest .a)) } }
      .readManifestB (.recordRead (.manifest .b))) := by
  refine State.read_step n d h rfl (fun r hr => ?_) rfl
  obtain ⟨hst, ⟨-, hw⟩, -⟩ := h
  rw [State.seqNext, show (s.vacated n s.store.flash).seq.stage = _ from hst]
  simp only
  rw [State.startOp_recordRead _ (by exact State.vacated_idle hw n s.store.flash), hr]
  rfl

end

/-- The clauses of O6 on what the selector learned calls for. -/
theorem State.learned_goes {s w : State} {first : Option (List Byte)} (n : Nat) (d : Device)
    (h : s.Stands (.readSelector1 first) (.recordRead (.selector .one)))
    (hl : (s.clockTo n).Learned first (s.readBody d (.selector .one)) w) :
    let sel := w.act.sel
    let goes := fun t => exec (.recordReadCompletion n d) s = .next t
    (sel.trial = true → sel.trialStarts = 0 → goes (State.writing { w with seq := { s.seq with beginsTrial := true } }
      .writeSelector .trialStart { sel with trialStarts := 1 })) ∧
    (sel.trial = true → sel.trialStarts = 1 ∨ sel.trialStarts = 2 →
      goes (State.writing { w with seq := { s.seq with wroteRevert := true } } .writeSelector .revert
        { sel with booted := sel.confirmed, trial := false, trialStarts := 2 })) ∧
    (sel.trial = false → sel.trialStarts = 2 → goes (State.writing { w with seq := { s.seq with reverted := true } }
      .writeSelector .clearRevert { sel with trialStarts := 0 })) ∧
    (sel.trial = false → sel.trialStarts = 0 ∨ sel.trialStarts = 1 → goes (w.awaiting .readBook (.recordRead .book))) := by
  intro sel goes
  have hgo : ∀ t, State.seqAction { w with store := { w.store with inflight := none } } = t → t.ev = s.ev → goes t :=
    fun t ht hev => State.readSelector1_goes n d h hl ht hev
  obtain ⟨-, ⟨-, hw⟩, -⟩ := h
  obtain ⟨copy, q, sl, hweq, -⟩ := hl
  have hseq : w.seq = s.seq := by rw [hweq]; rfl
  have hev : w.ev = s.ev := by rw [hweq]; rfl
  have hwait : w.store.waiting = [] := by rw [hweq]; exact hw
  obtain ⟨v, hv⟩ : ∃ v : State, { w with store := { w.store with inflight := none } } = v := ⟨_, rfl⟩
  have hidle : v.StoreIdle := by rw [← hv]; exact ⟨rfl, hwait⟩
  have hsel : v.act.sel = sel := by rw [← hv]
  rw [hv] at hgo
  refine ⟨fun h1 h2 => hgo _ ?_ hev, fun h1 h2 => hgo _ ?_ hev, fun h1 h2 => hgo _ ?_ hev, fun h1 h2 => hgo _ ?_ hev⟩
  · rw [State.seqAction, hsel]
    simp only [h1, h2, and_self, if_true]
    rw [State.seqWrite_idle (by exact hidle), ← hv, hseq]
    rfl
  · rw [State.seqAction, hsel]
    simp only [h1, true_and, if_true]
    rw [if_neg (by omega), State.seqWrite_idle (by exact hidle), ← hv, hseq]
    rfl
  · rw [State.seqAction, hsel]
    simp only [h1, h2, Bool.false_eq_true, false_and, if_false, if_true]
    rw [State.seqWrite_idle (by exact hidle), ← hv, hseq]
    rfl
  · rw [State.seqAction, hsel]
    simp only [h1, Bool.false_eq_true, false_and, if_false]
    rw [if_neg (by omega), State.seqBook, State.startOp_recordRead _ hidle, ← hv]
    rfl

/-! ### The sequence's selector write (R158, R166) -/

section
variable {v : State} {order : Nat} {p : SelPurpose} (hp : p = .trialStart ∨ p = .revert ∨ p = .clearRevert)
  (hretry : v.act.retry = none) (hst : v.seq.stage = .writeSelector order) (hidle : v.StoreIdle)
include hp hretry hst hidle

/-- Once its write is done OK the sequence reads the book; a revert marks RESTART (R166). -/
theorem State.deliver_startWritten (sel : Selector) : v.deliverSelector .start order p sel .ok =
    (if p = .revert then v.clearWriteMark.markRestart else v.clearWriteMark).awaiting .readBook (.recordRead .book) := by
  obtain ⟨u, hu⟩ : ∃ u, (if p = .revert then v.clearWriteMark.markRestart else v.clearWriteMark) = u := ⟨_, rfl⟩
  have hend : v.clearWriteMark.endRetry order = v.clearWriteMark := by
    unfold State.endRetry
    rw [show v.clearWriteMark.act.retry = none from hretry]
  have hw : v.selectorWritten { order := order, owner := .start, purpose := p, sel := sel } = u := by
    unfold State.selectorWritten
    rw [hend, ← hu]
    rcases hp with rfl | rfl | rfl <;> rfl
  have hust : u.seq.stage = .writeSelector order := by
    rw [← hu]
    split <;> exact hst
  have huidle : u.StoreIdle := by
    rw [← hu]
    split <;> exact hidle
  have hnote : u.noteRevert p (StoreResult.ok == StoreResult.ok) = u := by
    rcases hp with rfl | rfl | rfl <;> rfl
  unfold State.deliverSelector
  simp only [if_true, hw, hu]
  unfold State.seqSelectorDone
  simp only [hnote, hust, if_true]
  exact State.startOp_recordRead _ huidle _

/-- A write that failed waits for the retry timer, and the sequence reads the book all the same (R158, R166). -/
theorem State.deliver_startFailed (sel : Selector) : v.deliverSelector .start order p sel .failed =
    (v.clearWriteMark.startRetry { order := order, owner := .start, purpose := p, sel := sel }).awaiting .readBook
      (.recordRead .book) := by
  obtain ⟨u, hu⟩ : ∃ u, v.clearWriteMark.startRetry { order := order, owner := .start, purpose := p, sel := sel } = u :=
    ⟨_, rfl⟩
  have hw : v.selectorFailed { order := order, owner := .start, purpose := p, sel := sel } = u := by
    unfold State.selectorFailed
    rw [← hu]
    rcases hp with rfl | rfl | rfl <;> rfl
  have hust : u.seq.stage = .writeSelector order := by
    rw [← hu]
    unfold State.startRetry
    rw [show v.clearWriteMark.act.retry = none from hretry]
    exact hst
  have huidle : u.StoreIdle := by
    rw [← hu]
    unfold State.startRetry
    rw [show v.clearWriteMark.act.retry = none from hretry]
    exact hidle
  have hnote : u.noteRevert p (StoreResult.failed == StoreResult.ok) = u := by
    rcases hp with rfl | rfl | rfl <;> rfl
  unfold State.deliverSelector
  simp only [reduceCtorEq, if_false, hw, hu, if_true]
  unfold State.seqSelectorDone
  simp only [hnote, hust, if_true]
  exact State.startOp_recordRead _ huidle _

end

/-- The sequence goes on from its selector write, done or failed (R158, R166). -/
theorem State.writeSelector_goes {s : State} {order : Nat} {p : SelPurpose} {sel : Selector} {copy : CopyId} {q : Nat} (n : Nat)
    (d : Device) (hp : p = .trialStart ∨ p = .revert ∨ p = .clearRevert) (hretry : s.act.retry = none)
    (h : s.Stands (.writeSelector order) (.selectorWrite order p sel (some (copy, q)))) :
    ∃ t, exec (.recordWriteCompletion n d) s = .next t ∧ t.seq = { s.seq with stage := .readBook } ∧
      t.Flies { owner := .start, kind := .recordRead .book } ∧ t.port.notices = s.port.notices ∧
      (d.failed = false → t.act.sel = sel ∧ t.store.copy = some copy ∧ t.store.seqNo = q ∧
        t.store.flash = writeArea s.store.flash (.selector copy) (writeSelector q sel) ∧ t.act.retryDue = s.act.retryDue ∧
        (p = .revert → t.port.dirty.restart = true) ∧ (p ≠ .revert → t.port.dirty = s.port.dirty)) ∧
      (d.failed = true → t.act.sel = s.act.sel ∧ t.store.copy = s.store.copy ∧ t.store.seqNo = s.store.seqNo ∧
        t.port = s.port ∧ t.act.retry = some { order := order, owner := .start, purpose := p, sel := sel } ∧
        t.act.retryDue = some (max s.now n + 1000)) := by
  obtain ⟨hst, ⟨hi, hwait⟩, hm⟩ := h
  obtain ⟨op, hop⟩ : ∃ op : StoreOp, { owner := .start, kind := .selectorWrite order p sel (some (copy, q)) } = op := ⟨_, rfl⟩
  have hdone : s.completion OpKind.isRecordWrite n d =
      (((s.clockTo n).freed op d).deliver op ((s.clockTo n).perform op d).2).settle := by
    rw [hop] at hi
    rw [← State.answered_alone (s := s.clockTo n) d hwait]
    exact State.completion_behind n d hi (by rw [← hop]; rfl) s.store.waiting
  have hexec : exec (.recordWriteCompletion n d) s = .next (s.completion OpKind.isRecordWrite n d) := rfl
  rw [hexec, hdone]
  obtain ⟨hfi, hfw, -, hfp⟩ := State.freed_parts (s := s.clockTo n) (op := op) d
  have hidle : ((s.clockTo n).freed op d).StoreIdle := ⟨hfi, hfw.trans hwait⟩
  have hseq : ((s.clockTo n).freed op d).seq = s.seq ∧ ((s.clockTo n).freed op d).ev = s.ev ∧
      ((s.clockTo n).freed op d).act.retry = none ∧ ((s.clockTo n).freed op d).now = max s.now n := by
    unfold State.freed State.takeSelector
    split <;> exact ⟨rfl, rfl, hretry, rfl⟩
  obtain ⟨hfseq, hfev, hfretry, hfnow⟩ := hseq
  have hdel : ∀ r, ((s.clockTo n).freed op d).deliver op r =
      ((s.clockTo n).freed op d).deliverSelector .start order p sel r := fun r => by rw [← hop]; rfl
  rw [hdel]
  cases hd : d.failed with
  | false =>
    have hperf : (s.clockTo n).perform op d = (writeArea s.store.flash (.selector copy) (writeSelector q sel), .ok) := by
      rw [← hop]
      unfold State.perform
      simp [hd]
    have hfree : (s.clockTo n).freed op d = { s.clockTo n with
        store := { s.store with
          flash := writeArea s.store.flash (.selector copy) (writeSelector q sel)
          inflight := none
          copy := some copy
          seqNo := q }
        act := { s.act with sel := sel } } := by
      unfold State.freed
      rw [hperf, ← hop]
      rfl
    rw [hperf, State.deliver_startWritten hp hfretry (hfseq ▸ hst) hidle, hfree]
    by_cases hr : p = .revert
    · rw [if_pos hr]
      exact ⟨_, congrArg Host.Outcome.next (State.settle_of_ev hm rfl), rfl, ⟨rfl, hwait⟩, rfl,
        fun _ => ⟨rfl, rfl, rfl, rfl, rfl, fun _ => rfl, fun h => absurd hr h⟩, nofun⟩
    · rw [if_neg hr]
      exact ⟨_, congrArg Host.Outcome.next (State.settle_of_ev hm rfl), rfl, ⟨rfl, hwait⟩, rfl,
        fun _ => ⟨rfl, rfl, rfl, rfl, rfl, fun h => absurd h hr, fun _ => rfl⟩, nofun⟩
  | true =>
    have hperf : ((s.clockTo n).perform op d).2 = .failed := by
      rw [← hop]
      unfold State.perform
      simp [hd]
    have hkeep : ((s.clockTo n).freed op d).act = s.act ∧ ((s.clockTo n).freed op d).store.copy = s.store.copy ∧
        ((s.clockTo n).freed op d).store.seqNo = s.store.seqNo := by
      unfold State.freed State.takeSelector
      rw [hperf, ← hop]
      exact ⟨rfl, rfl, rfl⟩
    obtain ⟨hact, hcopy, hno⟩ := hkeep
    rw [hperf, State.deliver_startFailed hp hfretry (hfseq ▸ hst) hidle]
    obtain ⟨v, hv⟩ : ∃ v, (s.clockTo n).freed op d = v := ⟨_, rfl⟩
    rw [hv] at hfp hidle hfseq hfev hfretry hfnow hact hcopy hno ⊢
    have hst' : v.clearWriteMark.startRetry { order := order, owner := .start, purpose := p, sel := sel } =
        { v.clearWriteMark with act := { v.clearWriteMark.act with
            retry := some { order := order, owner := .start, purpose := p, sel := sel }, retryDue := some (v.now + 1000) } } := by
      unfold State.startRetry
      rw [show v.clearWriteMark.act.retry = none from hfretry]
      rfl
    rw [hst']
    have hsel : v.act.sel = s.act.sel := by rw [hact]
    exact ⟨_, congrArg Host.Outcome.next (State.settle_of_ev hm hfev),
      congrArg (fun x : StartSeq => { x with stage := Stage.readBook }) hfseq, ⟨rfl, hidle.2⟩,
      congrArg (fun x : LocalPort => x.notices) hfp, nofun, fun _ => ⟨hsel, hcopy, hno, hfp, rfl,
        congrArg (fun x => some (x + 1000)) hfnow⟩⟩

end Sys2Proof.Machine
end

section
/-! SUPPORT. Proofs: O6, the Slot Table as the start sequence rebuilds it (R167). -/

namespace Sys2Proof.Machine

/-- The part with the booted slot ACTIVE, as its manifest copy gives it (R167). -/
def State.booting (k : SlotId) (mine : Option Manifest) (s : State) : State :=
  State.putSlotRecord k (rebuilt mine .active) { s with dist := { s.dist with active := k } }

/-- The slots as the two manifest copies give them: the one booted, and the other (R167). -/
def copiesOf (k : SlotId) (ma mb : Option Manifest) : Option Manifest × Option Manifest :=
  match k with
  | .a => (ma, mb)
  | .b => (mb, ma)

/-- What a rebuild of the Slot Table has of the start it is part of. -/
def State.Rebuilds (s : State) (k : SlotId) (mine : Option Manifest) (t : State) : Prop :=
  t.slot k = rebuilt mine .active ∧ t.dist.active = k ∧ t.act = s.act ∧ t.store.flash = s.store.flash ∧ t.ev = s.ev

section
variable {s : State} {k : SlotId} {mine spare : Option Manifest}

/-- The other slot's record is no part of what the rebuild makes of the booted slot. -/
theorem State.booting_rebuilds (r : SlotRecord) : s.Rebuilds k mine ((s.booting k mine).putSlotRecord k.other r) := by
  cases k <;> exact ⟨rfl, rfl, rfl, rfl, rfl⟩

theorem SlotId.other_ne (k : SlotId) : k.other ≠ k := by cases k <;> decide

section
variable {ma mb : Option Manifest} (hk : s.act.sel.booted = k) (hc : copiesOf k ma mb = (mine, spare))
include hk hc

theorem State.seqRebuild_reverted (hr : s.seq.reverted = true) : s.seqRebuild ma mb =
    State.startOp .eraseReverted (.eraseArea (.manifest k.other))
      (State.raise (.trialReverted k.other (spare.map Manifest.version))
        { (s.booting k mine).putSlotRecord k.other (rebuilt spare .failed) with
          dist := { ((s.booting k mine).putSlotRecord k.other (rebuilt spare .failed)).dist with
            barred := spare.map Manifest.version } }) := by
  cases k <;> cases hc <;> simp only [State.seqRebuild, hk, hr, if_true] <;> rfl

theorem State.seqRebuild_confirmed (hr : s.seq.reverted = false) (ht : s.act.sel.trial = true ∧ s.act.sel.confirmed = k.other) :
    s.seqRebuild ma mb = ((s.booting k mine).putSlotRecord k.other (rebuilt spare .retained)).seqReady := by
  have ht' : s.act.sel.trial = true ∧ k.other = s.act.sel.confirmed := ⟨ht.1, ht.2.symm⟩
  cases k <;> cases hc <;> simp only [State.seqRebuild, hk, hr, Bool.false_eq_true, if_false] <;> rw [if_pos ht'] <;> rfl

theorem State.seqRebuild_none (hr : s.seq.reverted = false) (ht : ¬(s.act.sel.trial = true ∧ s.act.sel.confirmed = k.other))
    (hs : spare = none) :
    s.seqRebuild ma mb = ((s.booting k mine).putSlotRecord k.other SlotRecord.blank).seqReady := by
  have ht' : ¬(s.act.sel.trial = true ∧ k.other = s.act.sel.confirmed) := fun h => ht ⟨h.1, h.2.symm⟩
  subst hs
  cases k <;> cases hc <;> simp only [State.seqRebuild, hk, hr, Bool.false_eq_true, if_false] <;> rw [if_neg ht'] <;> rfl

theorem State.seqRebuild_some (hr : s.seq.reverted = false) (ht : ¬(s.act.sel.trial = true ∧ s.act.sel.confirmed = k.other))
    {m : Manifest} (hs : spare = some m) :
    s.seqRebuild ma mb = ((s.booting k mine).putSlotRecord k.other (rebuilt spare .empty)).startOp (.verify 0 true)
      (.verifyBlock k.other m.version 0 (m.blockCrc 0)) := by
  have ht' : ¬(s.act.sel.trial = true ∧ k.other = s.act.sel.confirmed) := fun h => ht ⟨h.1, h.2.symm⟩
  subst hs
  cases k <;> cases hc <;> simp only [State.seqRebuild, hk, hr, Bool.false_eq_true, if_false] <;> rw [if_neg ht'] <;> rfl

end

theorem State.booting_parts (r : SlotRecord) : ((s.booting k mine).putSlotRecord k.other r).store = s.store ∧
    ((s.booting k mine).putSlotRecord k.other r).port = s.port ∧ ((s.booting k mine).putSlotRecord k.other r).dist.barred = s.dist.barred ∧
    ((s.booting k mine).putSlotRecord k.other r).slot k.other = r ∧ ((s.booting k mine).putSlotRecord k.other r).act = s.act := by
  cases k <;> exact ⟨rfl, rfl, rfl, rfl, rfl⟩

/-- The reverted slot's erase may run: the trial is over, and the slot is not booted (R133). -/
theorem spare_eraseArea_allowed (hk : s.act.sel.booted = k) (ht : s.act.sel.trial = false) :
    StoreOp.isProtected s.act.sel { owner := .start, kind := .eraseArea (.manifest k.other) } = false := by
  have hne : k.other ≠ s.act.sel.booted := fun h => SlotId.other_ne k (h.trans hk)
  show (Owner.start != Owner.start || (k.other == s.act.sel.booted || (s.act.sel.trial && k.other == s.act.sel.confirmed))) = false
  simp [ht, hne]

/-- An erase that the sequence submits, accepted or refused, leaves the tables, the controller and the flash. -/
theorem State.startOp_eraseArea (st : Stage) (a : Area) (v : State) : (v.startOp st (.eraseArea a)).dist = v.dist ∧
    (v.startOp st (.eraseArea a)).act = v.act ∧ (v.startOp st (.eraseArea a)).store.flash = v.store.flash ∧
    (v.startOp st (.eraseArea a)).ev = v.ev := by
  have hraise : ∀ op : StoreOp, ((v.stageAt st).raiseRefused op).dist = v.dist ∧ ((v.stageAt st).raiseRefused op).act = v.act ∧
      ((v.stageAt st).raiseRefused op).store.flash = v.store.flash ∧ ((v.stageAt st).raiseRefused op).ev = v.ev := fun op => by
    unfold State.raiseRefused
    split <;> simp [State.stageAt]
  unfold State.startOp State.submit
  split
  · exact ⟨rfl, rfl, rfl, rfl⟩
  split
  · exact hraise _
  split
  · exact ⟨rfl, rfl, rfl, rfl⟩
  split
  · exact ⟨rfl, rfl, rfl, rfl⟩
  split <;> exact ⟨rfl, rfl, rfl, rfl⟩

theorem State.Rebuilds.of_eq {t u : State} (h : s.Rebuilds k mine t) (hu : u.dist = t.dist ∧ u.act = t.act ∧
    u.store.flash = t.store.flash ∧ u.ev = t.ev) : s.Rebuilds k mine u := by
  obtain ⟨hslot, hactive, hact, hflash, hev⟩ := h
  obtain ⟨hd, ha, hf, he⟩ := hu
  exact ⟨(State.slot_of_dist hd k).trans hslot, by rw [hd, hactive], ha.trans hact, hf.trans hflash, he.trans hev⟩

theorem State.Rebuilds.barring {t : State} (h : s.Rebuilds k mine t) (v : Option Nat) :
    s.Rebuilds k mine { t with dist := { t.dist with barred := v } } := by
  obtain ⟨hslot, hactive, hact, hflash, hev⟩ := h
  exact ⟨by rw [← hslot]; cases k <;> rfl, hactive, hact, hflash, hev⟩

/-- The Slot Table is rebuilt from the two manifest copies (R167). -/
theorem State.seqRebuild_goes {ma mb : Option Manifest} (hk : s.act.sel.booted = k) (hc : copiesOf k ma mb = (mine, spare))
    (hidle : s.StoreIdle) : s.Rebuilds k mine (s.seqRebuild ma mb) ∧
    (s.seq.reverted = true → s.act.sel.trial = false →
      (s.seqRebuild ma mb).slot k.other = rebuilt spare .failed ∧
      (s.seqRebuild ma mb).dist.barred = spare.map Manifest.version ∧
      (s.port.notices.length < 16 → .trialReverted k.other (spare.map Manifest.version) ∈ (s.seqRebuild ma mb).port.notices) ∧
      (s.seqRebuild ma mb).seq.stage = .eraseReverted ∧
      (s.seqRebuild ma mb).Flies { owner := .start, kind := .eraseArea (.manifest k.other) }) ∧
    (s.seq.reverted = false → (s.seqRebuild ma mb).dist.barred = s.dist.barred ∧ (s.seqRebuild ma mb).port = s.port ∧
      (s.act.sel.trial = true ∧ s.act.sel.confirmed = k.other → (s.seqRebuild ma mb).slot k.other = rebuilt spare .retained ∧
        (s.seqRebuild ma mb).seq.stage = .ready ∧ (s.seqRebuild ma mb).StoreIdle) ∧
      (¬(s.act.sel.trial = true ∧ s.act.sel.confirmed = k.other) → spare = none →
        (s.seqRebuild ma mb).slot k.other = SlotRecord.blank ∧ (s.seqRebuild ma mb).seq.stage = .ready ∧
        (s.seqRebuild ma mb).StoreIdle) ∧
      ∀ m, ¬(s.act.sel.trial = true ∧ s.act.sel.confirmed = k.other) → spare = some m →
        (s.seqRebuild ma mb).slot k.other = rebuilt spare .empty ∧ (s.seqRebuild ma mb).seq.stage = .verify 0 true ∧
        (s.seqRebuild ma mb).Flies { owner := .start, kind := .verifyBlock k.other m.version 0 (m.blockCrc 0) }) := by
  cases hr : s.seq.reverted with
  | true =>
    obtain ⟨hstore, hport, -, hslot, hact⟩ := State.booting_parts (s := s) (k := k) (mine := mine) (rebuilt spare .failed)
    have hreb := (State.booting_rebuilds (s := s) (k := k) (mine := mine) (rebuilt spare .failed)).barring (spare.map Manifest.version)
    rw [State.seqRebuild_reverted hk hc hr]
    obtain ⟨w, hw⟩ : ∃ w : State, { (s.booting k mine).putSlotRecord k.other (rebuilt spare .failed) with
      dist := { ((s.booting k mine).putSlotRecord k.other (rebuilt spare .failed)).dist with
        barred := spare.map Manifest.version } } = w := ⟨_, rfl⟩
    rw [hw] at hreb ⊢
    have hwport : w.port = s.port := by rw [← hw]; exact hport
    have hwstore : w.store = s.store := by rw [← hw]; exact hstore
    have hwact : w.act = s.act := by rw [← hw]; exact hact
    have hwbar : w.dist.barred = spare.map Manifest.version := by rw [← hw]
    have hwslot : w.slot k.other = rebuilt spare .failed := by rw [← hw, ← hslot]; cases k <;> rfl
    obtain ⟨u, hu⟩ : ∃ u, w.raise (.trialReverted k.other (spare.map Manifest.version)) = u := ⟨_, rfl⟩
    have hudist : u.dist = w.dist := by rw [← hu, State.raise_dist]
    have huact : u.act = w.act := by rw [← hu, State.raise_act]
    have hustore : u.store = w.store := by rw [← hu, State.raise_store]
    have huev : u.ev = w.ev := by rw [← hu, State.raise_ev]
    rw [hu]
    refine ⟨?_, fun _ ht => ?_, nofun⟩
    · obtain ⟨h1, h2, h3, h4⟩ := State.startOp_eraseArea .eraseReverted (.manifest k.other) u
      exact hreb.of_eq ⟨h1.trans hudist, h2.trans huact, by rw [h3, hustore], h4.trans huev⟩
    · have hsub := State.startOp_idle (s := u) .eraseReverted (kind := .eraseArea (.manifest k.other))
        (by rw [State.StoreIdle, hustore, hwstore]; exact hidle) rfl
        (by rw [huact, hwact]; exact spare_eraseArea_allowed hk ht) fun _ _ _ _ => nofun
      rw [hsub]
      refine ⟨?_, ?_, fun hroom => ?_, rfl, rfl, ?_⟩
      · exact (State.slot_of_dist (t := u.awaiting _ _) hudist _).trans hwslot
      · exact (congrArg DistributionUnit.barred hudist).trans hwbar
      · show _ ∈ u.port.notices
        rw [← hu, State.raise_room _ (by rw [hwport]; exact hroom)]
        exact List.mem_append_right _ (List.mem_singleton.mpr rfl)
      · show u.store.waiting = []
        rw [hustore, hwstore]
        exact hidle.2
  | false =>
    have hparts := State.booting_parts (s := s) (k := k) (mine := mine)
    have hrebs := State.booting_rebuilds (s := s) (k := k) (mine := mine)
    by_cases ht : s.act.sel.trial = true ∧ s.act.sel.confirmed = k.other
    · rw [State.seqRebuild_confirmed hk hc hr ht]
      obtain ⟨hstore, hport, hbar, hslot, hact⟩ := hparts (rebuilt spare .retained)
      exact ⟨(hrebs _).of_eq ⟨rfl, rfl, rfl, rfl⟩, nofun, fun _ => ⟨hbar, hport,
        fun _ => ⟨hslot, rfl, by rw [State.StoreIdle]; exact hstore ▸ hidle⟩, fun h => absurd ht h, fun _ h => absurd ht h⟩⟩
    · cases hs : spare with
      | none =>
        rw [State.seqRebuild_none hk hc hr ht hs]
        obtain ⟨hstore, hport, hbar, hslot, hact⟩ := hparts SlotRecord.blank
        exact ⟨(hrebs _).of_eq ⟨rfl, rfl, rfl, rfl⟩, nofun, fun _ => ⟨hbar, hport, fun h => absurd h ht,
          fun _ _ => ⟨hslot, rfl, by rw [State.StoreIdle]; exact hstore ▸ hidle⟩, fun _ _ => nofun⟩⟩
      | some m =>
        rw [State.seqRebuild_some hk hc hr ht hs]
        obtain ⟨hstore, hport, hbar, hslot, hact⟩ := hparts (rebuilt spare .empty)
        rw [State.startOp_idle (kind := .verifyBlock _ _ _ _) _ (by rw [State.StoreIdle]; exact hstore ▸ hidle) rfl rfl
          fun _ _ _ _ => nofun]
        refine ⟨(hrebs _).of_eq ⟨rfl, rfl, rfl, rfl⟩, nofun, fun _ => ⟨hbar, hport, fun h => absurd h ht,
          fun _ => nofun, fun m' _ hm => ?_⟩⟩
        cases hm
        have hwait : ((s.booting k mine).putSlotRecord k.other (rebuilt spare .empty)).store.waiting = [] := by rw [hstore, hidle.2]
        exact ⟨hslot.trans (by rw [hs]), rfl, rfl, hwait⟩

end

end Sys2Proof.Machine
end

section
/-! SUPPORT. Proofs: O6, the manifests read, the reverted slot's erase and the verification of the other slot (R167). -/

namespace Sys2Proof.Machine

section
variable {s : State} (n : Nat) (d : Device)

/-- The second manifest copy read, the Slot Table is rebuilt (R167). -/
theorem State.readManifestB_goes {k : SlotId} {mine spare : Option Manifest}
    (h : s.Stands .readManifestB (.recordRead (.manifest .b))) (hk : s.act.sel.booted = k)
    (hc : copiesOf k s.seq.manifestA (manifestBody (s.readBody d (.manifest .b))) = (mine, spare)) :
    ∃ t, exec (.recordReadCompletion n d) s = .next t ∧ t.slot k = rebuilt mine .active ∧ t.dist.active = k ∧
      t.act = s.act ∧ t.store.flash = s.store.flash ∧
      (s.seq.reverted = true → s.act.sel.trial = false →
        t.slot k.other = rebuilt spare .failed ∧ t.dist.barred = spare.map Manifest.version ∧
        (s.port.notices.length < 16 → .trialReverted k.other (spare.map Manifest.version) ∈ t.port.notices) ∧
        t.seq.stage = .eraseReverted ∧ t.Flies { owner := .start, kind := .eraseArea (.manifest k.other) }) ∧
      (s.seq.reverted = false → t.dist.barred = s.dist.barred ∧ t.port = s.port ∧
        (s.act.sel.trial = true ∧ s.act.sel.confirmed = k.other →
          t.slot k.other = rebuilt spare .retained ∧ t.seq.stage = .ready ∧ t.StoreIdle) ∧
        (¬(s.act.sel.trial = true ∧ s.act.sel.confirmed = k.other) → spare = none →
          t.slot k.other = SlotRecord.blank ∧ t.seq.stage = .ready ∧ t.StoreIdle) ∧
        (∀ m, ¬(s.act.sel.trial = true ∧ s.act.sel.confirmed = k.other) → spare = some m →
          t.slot k.other = rebuilt spare .empty ∧ t.seq.stage = .verify 0 true ∧
          t.Flies { owner := .start, kind := .verifyBlock k.other m.version 0 (m.blockCrc 0) })) := by
  obtain ⟨⟨hslot, hactive, hact, hflash, hev⟩, hgoes⟩ := State.seqRebuild_goes (s := s.vacated n s.store.flash)
    (mine := mine) (spare := spare) hk hc (State.vacated_idle h.2.1.2 n s.store.flash)
  refine ⟨_, State.read_step n d h rfl (fun r hr => ?_) hev, hslot, hactive, hact, hflash, hgoes⟩
  rw [State.seqNext, show (s.vacated n s.store.flash).seq.stage = _ from h.1]
  simp only
  rw [hr]
  rfl

/-- A manifest area erased, well or not, reads invalid (R134, R170). -/
theorem State.perform_eraseArea (k : SlotId) : readArea []
    (s.perform { owner := .start, kind := .eraseArea (.manifest k) } d).1 (.manifest k) = none := by
  unfold State.perform
  cases d.failed with
  | true => exact readArea_leaveInvalid _ _
  | false => exact readArea_erase _ _

theorem State.eraseReverted_goes {k : SlotId} (h : s.Stands .eraseReverted (.eraseArea (.manifest k))) : ∃ flash,
    readArea [] flash (.manifest k) = none ∧ exec (.eraseBlockCompletion n d) s = .next
      { (s.clockTo n).holding flash with
        seq := { s.seq with stage := .ready }, store := { s.store with flash := flash, inflight := none } } := by
  refine ⟨_, State.perform_eraseArea (s := s) d k, State.start_step (p := OpKind.isErase) (fun _ => rfl) h rfl rfl ?_ rfl⟩
  rw [State.seqNext, show (s.vacated n _).seq.stage = _ from h.1]
  rfl

/-! ### The blocks and the whole image read back (R128, R130, R167) -/

theorem length_filter_range (b n c : Nat) : ((List.range c).filter fun i => b + i < n).length = min c (n - b) := by
  induction c with
  | zero => simp
  | succ c ih =>
    rw [List.range_succ, List.filter_append, List.length_append, ih]
    by_cases h : b + c < n
    · simp only [List.filter_cons, h, decide_true, if_true, List.filter_nil, List.length_singleton]
      omega
    · simp only [List.filter_cons, h, decide_false, Bool.false_eq_true, if_false, List.filter_nil, List.length_nil]
      omega

/-- A block of an image has 16 chunks, the last one those that are left (R128). -/
theorem length_imageChunks (n b : Nat) : (imageChunks n b).length = min 16 (n - 16 * b) := by
  rw [imageChunks_eq, List.filter_map, List.length_map]
  exact length_filter_range (16 * b) n 16

theorem readBack_isMatch (crc : Crc) (bytes : List Byte) : (readBack crc bytes).isMatch = decide (crc32 bytes = crc) := by
  unfold readBack
  split
  · rename_i h
    exact (decide_eq_true h).symm
  · rename_i h
    exact (decide_eq_false h).symm

theorem SlotRecord.length_of_manifest {r : SlotRecord} {m : Manifest} (h : r.manifest = some m) (hn : m.n ≤ 4096) : r.length = m.n := by
  unfold SlotRecord.length
  rw [h]
  exact Nat.min_eq_left hn

/-- What a device reads of the flash. -/
def State.deviceBytes (s : State) (d : Device) (base len : Nat) : List Byte :=
  overlay d.cells base (Memory.readBytes s.store.flash base len)

theorem State.perform_verifyBlock {k : SlotId} {m : Manifest} (hm : (s.slot k).manifest = some m) (hn : m.n ≤ 4096)
    (v b : Nat) (crc : Crc) : (s.perform { owner := .start, kind := .verifyBlock k v b crc } d).1 = s.store.flash ∧
      ((s.perform { owner := .start, kind := .verifyBlock k v b crc } d).2.isMatch = true ↔
        d.failed = false ∧ crc32 (s.deviceBytes d (k.base + b * 16384) (1024 * min 16 (m.n - 16 * b))) = crc) := by
  unfold State.perform
  cases d.failed with
  | true => exact ⟨rfl, nofun, nofun⟩
  | false =>
    refine ⟨rfl, ?_⟩
    simp only [Bool.false_eq_true, if_false]
    rw [readBack_isMatch, SlotRecord.length_of_manifest hm hn, length_imageChunks, Nat.mul_comm]
    exact decide_eq_true_iff.trans (true_and _ ▸ Iff.rfl)

theorem State.perform_checkImage (k : SlotId) (v len : Nat) (crc : Crc) :
    (s.perform { owner := .start, kind := .checkImage k v len crc } d).1 = s.store.flash ∧
      ((s.perform { owner := .start, kind := .checkImage k v len crc } d).2.isMatch = true ↔
        d.failed = false ∧ crc32 (s.deviceBytes d k.base (len * 1024)) = crc) := by
  unfold State.perform
  cases d.failed with
  | true => exact ⟨rfl, nofun, nofun⟩
  | false =>
    refine ⟨rfl, ?_⟩
    simp only [Bool.false_eq_true, if_false]
    rw [readBack_isMatch]
    exact decide_eq_true_iff.trans (true_and _ ▸ Iff.rfl)

end

end Sys2Proof.Machine
end

section
/-! SUPPORT. Proofs: O6, what the verification of the other slot leads to (R167 line 4). -/

namespace Sys2Proof.Machine

/-- The sequence ready to complete with the other slot's record settled. -/
def State.settledSpare (s : State) (n : Nat) (r : SlotRecord) : State :=
  { (s.clockTo n).putSlotRecord s.spareSlot r with
    seq := { s.seq with stage := .ready }, store := { s.store with inflight := none } }

section
variable {s : State} (n : Nat) (d : Device)

theorem State.vacated_settled (r : SlotRecord) :
    ((s.vacated n s.store.flash).putSlotRecord s.spareSlot r).seqReady = s.settledSpare n r := by
  obtain ⟨k, hk⟩ : ∃ k, s.spareSlot = k := ⟨_, rfl⟩
  rw [State.settledSpare, hk]
  cases k <;> rfl

theorem State.settledSpare_ev (r : SlotRecord) : (s.settledSpare n r).ev = s.ev :=
  State.putSlotRecord_ev s.spareSlot r (s := s.clockTo n)

section
variable {m : Manifest} (hm : (s.slot s.spareSlot).manifest = some m)
include hm

/-- A verified block that is not the image's last leads to the next one's verification. -/
theorem State.seqVerified_next (b : Nat) (all : Bool) (hn : 1 ≤ m.n ∧ m.n ≤ 4096) (hb : b + 1 < (m.n + 15) / 16)
    (hidle : s.store.waiting = []) : (s.vacated n s.store.flash).seqVerified b all =
      (s.clockTo n).awaiting (.verify (b + 1) all) (.verifyBlock s.spareSlot m.version (b + 1) (m.blockCrc (b + 1))) := by
  obtain ⟨v, hv⟩ : ∃ v, s.vacated n s.store.flash = v := ⟨_, rfl⟩
  have hvm : (v.slot v.spareSlot).manifest = some m := by rw [← hv]; exact hm
  have hvi : v.StoreIdle := by rw [← hv]; exact State.vacated_idle hidle n _
  have hlen : (v.slot v.spareSlot).length = m.n := SlotRecord.length_of_manifest hvm hn.2
  have hrange : v.outOfRange { owner := .start, kind := .verifyBlock v.spareSlot m.version (b + 1) (m.blockCrc (b + 1)) } = false := by
    show decide (255 < b + 1) = false
    exact decide_eq_false (by omega)
  rw [hv]
  unfold State.seqVerified
  simp only [hlen]
  rw [if_pos (by exact hb), State.seqVerify, hvm]
  simp only
  rw [State.startOp_idle _ hvi hrange rfl fun _ _ _ _ => nofun, ← hv]
  rfl

/-- The last block verified, the image is checked when all of them match (R167). -/
theorem State.seqVerified_check (b : Nat) (hn : 1 ≤ m.n ∧ m.n ≤ 4096) (hb : (m.n + 15) / 16 ≤ b + 1)
    (hidle : s.store.waiting = []) : (s.vacated n s.store.flash).seqVerified b true =
      (s.clockTo n).awaiting .check (.checkImage s.spareSlot m.version m.n m.imageCrc) := by
  obtain ⟨v, hv⟩ : ∃ v, s.vacated n s.store.flash = v := ⟨_, rfl⟩
  have hvm : (v.slot v.spareSlot).manifest = some m := by rw [← hv]; exact hm
  have hvi : v.StoreIdle := by rw [← hv]; exact State.vacated_idle hidle n _
  have hlen : (v.slot v.spareSlot).length = m.n := SlotRecord.length_of_manifest hvm hn.2
  have hrange : v.outOfRange { owner := .start, kind := .checkImage v.spareSlot m.version m.n m.imageCrc } = false := by
    show (v.slot v.spareSlot).manifest.isNone = false
    rw [hvm]
    rfl
  rw [hv]
  unfold State.seqVerified
  simp only [hlen]
  rw [if_neg (by exact Nat.not_lt.mpr hb), hvm]
  simp only
  rw [State.startOp_idle _ hvi hrange rfl fun _ _ _ _ => nofun, ← hv]
  rfl

/-- The slot is EMPTY when a block of its image does not match (R167). -/
theorem State.seqVerified_empty (b : Nat) (hn : 1 ≤ m.n ∧ m.n ≤ 4096) (hb : (m.n + 15) / 16 ≤ b + 1) :
    (s.vacated n s.store.flash).seqVerified b false = s.settledSpare n SlotRecord.blank := by
  rw [← State.vacated_settled]
  obtain ⟨v, hv⟩ : ∃ v, s.vacated n s.store.flash = v := ⟨_, rfl⟩
  have hvm : (v.slot v.spareSlot).manifest = some m := by rw [← hv]; exact hm
  have hspare : s.spareSlot = v.spareSlot := by rw [← hv]; rfl
  have hlen : (v.slot v.spareSlot).length = m.n := SlotRecord.length_of_manifest hvm hn.2
  rw [hv, hspare]
  unfold State.seqVerified
  simp only [hlen]
  rw [if_neg (by exact Nat.not_lt.mpr hb)]

/-- The clauses of O6 on a block's verification. -/
theorem State.verify_goes (hn : 1 ≤ m.n ∧ m.n ≤ 4096) (b : Nat) (all : Bool) (crc : Crc)
    (h : s.Stands (.verify b all) (.verifyBlock s.spareSlot m.version b crc)) :
    let matched := all = true ∧ d.failed = false ∧
      crc32 (s.deviceBytes d (s.spareSlot.base + b * 16384) (1024 * min 16 (m.n - 16 * b))) = crc
    let goes := fun t => exec (.verifyBlockCompletion n d) s = .next t
    (b + 1 < (m.n + 15) / 16 →
      (matched → goes ((s.clockTo n).awaiting (.verify (b + 1) true)
        (.verifyBlock s.spareSlot m.version (b + 1) (m.blockCrc (b + 1))))) ∧
      (¬matched → goes ((s.clockTo n).awaiting (.verify (b + 1) false)
        (.verifyBlock s.spareSlot m.version (b + 1) (m.blockCrc (b + 1)))))) ∧
    ((m.n + 15) / 16 ≤ b + 1 →
      (matched → goes ((s.clockTo n).awaiting .check (.checkImage s.spareSlot m.version m.n m.imageCrc))) ∧
      (¬matched → goes (s.settledSpare n SlotRecord.blank))) := by
  intro matched goes
  obtain ⟨hflash, hmatch⟩ := State.perform_verifyBlock (s := s) d hm hn.2 m.version b crc
  have hgoes : ∀ t c, c = (all && (s.perform { owner := .start, kind := .verifyBlock s.spareSlot m.version b crc } d).2.isMatch) →
      (s.vacated n s.store.flash).seqVerified b c = t → t.ev = s.ev → goes t := fun t c hc ht hev => by
    refine State.start_step (p := OpKind.isVerify) (fun _ => rfl) h rfl (beq_self_eq_true b) ?_ hev
    rw [hflash, State.seqNext, show (s.vacated n s.store.flash).seq.stage = _ from h.1, ← ht, hc]
  have hyes : matched → true = (all && (s.perform { owner := .start, kind := .verifyBlock s.spareSlot m.version b crc } d).2.isMatch) := by
    rintro ⟨rfl, hrest⟩
    rw [hmatch.mpr hrest]
    rfl
  have hno : ¬matched → false = (all && (s.perform { owner := .start, kind := .verifyBlock s.spareSlot m.version b crc } d).2.isMatch) := by
    intro hnot
    cases hb : (all && (s.perform { owner := .start, kind := .verifyBlock s.spareSlot m.version b crc } d).2.isMatch) with
    | false => rfl
    | true =>
      obtain ⟨hall, hmat⟩ := Bool.and_eq_true_iff.mp hb
      exact absurd ⟨hall, hmatch.mp hmat⟩ hnot
  have hwait := h.2.1.2
  exact ⟨fun hb => ⟨fun hy => hgoes _ _ (hyes hy) (State.seqVerified_next n hm b true hn hb hwait) rfl,
      fun hx => hgoes _ _ (hno hx) (State.seqVerified_next n hm b false hn hb hwait) rfl⟩,
    fun hb => ⟨fun hy => hgoes _ _ (hyes hy) (State.seqVerified_check n hm b hn hb hwait) rfl,
      fun hx => hgoes _ _ (hno hx) (State.seqVerified_empty n hm b hn hb) (State.settledSpare_ev n _)⟩⟩

end

/-- The slot as its check leaves it (R167). -/
theorem State.seqChecked_eq {v : Nat} (hv : (s.slot s.spareSlot).version = some v) (c : Bool) :
    (s.vacated n s.store.flash).seqChecked c = s.settledSpare n
      (if c then { s.slot s.spareSlot with state := if s.versionFits v then .ready else .retained } else SlotRecord.blank) := by
  rw [← State.vacated_settled]
  obtain ⟨w, hw⟩ : ∃ w, s.vacated n s.store.flash = w := ⟨_, rfl⟩
  have hwv : (w.slot w.spareSlot).version = some v := by rw [← hw]; exact hv
  have hslot : s.slot s.spareSlot = w.slot w.spareSlot := by rw [← hw]; rfl
  have hspare : s.spareSlot = w.spareSlot := by rw [← hw]; rfl
  have hfits : s.versionFits v = w.versionFits v := by rw [← hw]; rfl
  rw [hw, hslot, hspare, hfits]
  unfold State.seqChecked
  simp only [hwv]

theorem State.versionFits_iff {v : Nat} : s.versionFits v = true ↔ s.IsNewer v := by
  unfold State.versionFits
  exact (Bool.and_eq_true_iff.trans (and_congr decide_eq_true_iff decide_eq_true_iff))

/-- The clause of O6 on the whole image's check. -/
theorem State.check_goes {m : Manifest} (hv : (s.slot s.spareSlot).version = some m.version) (crc : Crc)
    (h : s.Stands .check (.checkImage s.spareSlot m.version m.n crc)) :
    let matched := d.failed = false ∧ crc32 (s.deviceBytes d s.spareSlot.base (m.n * 1024)) = crc
    let goes := fun t => exec (.checkImageCompletion n d) s = .next t
    (matched → s.IsNewer m.version → goes (s.settledSpare n { s.slot s.spareSlot with state := .ready })) ∧
    (matched → ¬s.IsNewer m.version → goes (s.settledSpare n { s.slot s.spareSlot with state := .retained })) ∧
    (¬matched → goes (s.settledSpare n SlotRecord.blank)) := by
  intro matched goes
  obtain ⟨hflash, hmatch⟩ := State.perform_checkImage (s := s) d s.spareSlot m.version m.n crc
  have hgoes : ∀ c r, (s.perform { owner := .start, kind := .checkImage s.spareSlot m.version m.n crc } d).2.isMatch = c →
      (if c then { s.slot s.spareSlot with state := if s.versionFits m.version then .ready else .retained } else SlotRecord.blank) = r →
      goes (s.settledSpare n r) := fun c r hc hr => by
    refine State.start_step (p := OpKind.isCheck) (fun _ => rfl) h rfl rfl ?_ (State.settledSpare_ev n r)
    rw [hflash, State.seqNext, show (s.vacated n s.store.flash).seq.stage = _ from h.1]
    simp only
    rw [hc, State.seqChecked_eq n hv, hr]
  refine ⟨fun hy hnew => hgoes true _ (hmatch.mpr hy) ?_, fun hy hold => hgoes true _ (hmatch.mpr hy) ?_,
    fun hx => hgoes false _ (Bool.eq_false_iff.mpr fun h => hx (hmatch.mp h)) rfl⟩
  · rw [if_pos rfl, if_pos (State.versionFits_iff.mpr hnew)]
  · rw [if_pos rfl, if_neg fun h => hold (State.versionFits_iff.mp h)]

end

end Sys2Proof.Machine
end

section
/-! SUPPORT. Proofs: O6, the completion of the start sequence and the messages that waited (R165, R168, R171). -/

namespace Sys2Proof.Machine

/-- A message that the port takes leaves those behind it in the link (R171). -/
theorem State.takeMessage_link (k : HostKind) (m : HostMsg) (s : State) : (s.takeMessage k m).port.link = s.port.link := by
  obtain ⟨_, _, _, _, h⟩ := State.takeMessage_moves k m s
  exact congrArg Fixed.link h

theorem State.portOpen_iff {s : State} : s.portOpen = true ↔ s.running = true ∧ s.heldRequests < 8 := by
  unfold State.portOpen
  exact Bool.and_eq_true_iff.trans (and_congr Iff.rfl decide_eq_true_iff)

/-- The messages in the link are taken as R171 gives. -/
theorem drain_taken (l : List (HostKind × HostMsg)) {s : State} (h : s.port.link = l) : LinkTaken s (drain l s) := by
  induction l generalizing s with
  | nil => exact .empty s h
  | cons x rest ih =>
    unfold drain
    split
    next hopen =>
      obtain ⟨hrun, hheld⟩ := State.portOpen_iff.mp hopen
      exact .takes s _ x.1 x.2 rest h hrun hheld (ih (State.takeMessage_link _ _ _))
    next hshut => exact .shut s fun hopen => hshut (State.portOpen_iff.mpr hopen)

theorem State.resume_taken (s : State) : LinkTaken s s.resume := drain_taken _ rfl

/-- With the time unknown and no activate-now the gates are shut (R89, R160). -/
theorem State.gatesOpen_unknown {s : State} (ht : s.time.rank = 15) (ha : s.act.activateNow = false) : s.gatesOpen = false := by
  have hq : s.quietNow = false := by
    unfold State.quietNow
    rw [ht]
    rfl
  unfold State.gatesOpen
  rw [hq, ha]
  simp

/-- The part as the completed start sequence leaves it, before the end of the event (R158, R165, R168). -/
def State.started (n : Nat) (s : State) : State :=
  { s with
    now := 0
    seq := { s.seq with stage := .running }
    peers := { s.peers with
      ownPath := if s.cfg.gateway then 0 else 63
      advertDue := if 1 ≤ s.cfg.nodeId ∧ s.cfg.nodeId ≤ 63 then some s.cfg.period else none }
    time := { s.time with tickDue := some 1000 }
    prio := { s.prio with pace := { interval := none, burst := if s.cfg.fixedPace then 2500 else 30000 } }
    act := { s.act with
      state := if s.seq.wroteRevert then .restarting
        else if (s.slot s.dist.active.other).state = .ready then .waiting else .idle
      confirmDue := if s.seq.beginsTrial then some 600000 else none
      retryDue := s.act.retryDue.map fun due => due - max s.now n } }

theorem State.startCompletes_eq {s : State} (n : Nat) (hm : s.MarksClear) (ht : s.time.rank = 15) (ha : s.act.activateNow = false) :
    (s.clockTo n).startCompletes = s.started n := by
  have hcfg : (if s.configured then some s.cfg.period else none) =
      if 1 ≤ s.cfg.nodeId ∧ s.cfg.nodeId ≤ 63 then some s.cfg.period else none := if_congr State.configured_iff rfl rfl
  have hshut : ¬((s.started n).act.state = .waiting ∧ (s.started n).gatesOpen = true) := fun h =>
    Bool.false_ne_true ((State.gatesOpen_unknown (s := s.started n) ht ha).symm.trans h.2)
  have hend := State.settleWith_clear (s := s.started n) ((s.started n).act.state == .waiting) hm hshut
  rw [← hend]
  unfold State.startCompletes State.started
  rw [← hcfg]
  rfl

/-- The completion of the start sequence, and the messages that waited (R165, R168, R171). -/
theorem State.startSequenceComplete_goes {s : State} (n : Nat) (hs : s.seq.stage = .ready) (hm : s.MarksClear)
    (ht : s.time.rank = 15) (ha : s.act.activateNow = false) :
    ∃ t, exec (.startSequenceComplete n) s = .next t ∧ LinkTaken (s.started n) t := by
  have hexec : exec (.startSequenceComplete n) s = .next (s.clockTo n).sequenceEnds := rfl
  refine ⟨_, hexec, ?_⟩
  rw [State.sequenceEnds, if_pos (by exact hs), State.startCompletes_eq n hm ht ha]
  exact State.resume_taken _

/-- Settles O6, by one lemma for each stage of the sequence. -/
theorem startSequenceCompletes : Obligations.StartSequenceCompletes := by
  unfold Obligations.StartSequenceCompletes
  refine ⟨fun n d s => ?_, fun n d s => ?_, fun n s hs hm ht ha => State.startSequenceComplete_goes n hs hm ht ha⟩
  · intro u second
    exact ⟨fun h => State.readSelector0_goes n d h, fun first w h hl => State.learned_goes n d h hl,
      fun order p sel copy q hp hretry h => State.writeSelector_goes n d hp hretry h⟩
  · intro u copy
    have hcopy : ∀ a, copy a = manifestBody (s.readBody d a) := fun _ => rfl
    refine ⟨fun h => State.readBook_goes n d h, fun h => ?_, fun h => ?_, fun k h => State.eraseReverted_goes n d h,
      fun m hm hv hn1 hn2 => ⟨fun b all crc h => State.verify_goes n d hm ⟨hn1, hn2⟩ b all crc h,
        fun crc h => State.check_goes n d hv crc h⟩⟩
    · rw [hcopy]
      exact State.readManifestA_goes n d h
    · intro k mine spare
      refine State.readManifestB_goes n d h rfl ?_
      rw [← hcopy]
      simp only [mine, spare, k]
      cases s.act.sel.booted <;> rfl

end Sys2Proof.Machine
end

section
/-! SUPPORT. Proofs: a client's record found by its client id, its activity noted (O13) and its signal smoothed in (O14). -/

namespace Sys2Proof.Machine

/-! ### Whose client is associated here (section 2.1.2) -/

theorem ClientRecord.associatedHere_iff {r : ClientRecord} : r.associatedHere = true ↔ r.Here := by
  unfold ClientRecord.associatedHere ClientRecord.Here
  cases r.state <;> simp

theorem ClientRecord.not_associatedHere {r : ClientRecord} (h : r.state = .arriving ∨ r.state = .departed) :
    r.associatedHere = false := by
  unfold ClientRecord.associatedHere
  rcases h with h | h <;> rw [h]

theorem ClientRecord.held_iff {r : ClientRecord} : r.held = true ↔ r.state ≠ .departed := by
  simp [ClientRecord.held]

/-! ### The active-this-minute flag (R33) -/

section
variable {s : State} {c : ClientId} {i : Fin 64} {r : ClientRecord}

theorem State.noteActivity_here (h : s.Holds c i r) (hr : r.Here) : s.noteActivity c = s.putRecord i { r with active := true } := by
  simp [State.noteActivity, h.1, h.2, ClientRecord.associatedHere_iff.mpr hr]

theorem State.noteActivity_away (h : s.Holds c i r) (hr : r.state = .arriving ∨ r.state = .departed) : s.noteActivity c = s := by
  simp [State.noteActivity, h.1, h.2, ClientRecord.not_associatedHere hr]

theorem State.noteActivity_unknown (h : s.findClient c = none) : s.noteActivity c = s := by
  simp [State.noteActivity, h]

end

/-- Settles O13. -/
theorem clientActivityIsNoted : Obligations.ClientActivityIsNoted := by
  unfold Obligations.ClientActivityIsNoted
  intro n m s ht hm c
  have hexec : exec (.clientActivity n m) s = .next ((s.clockTo n).noteActivity c) :=
    congrArg Host.Outcome.next (State.hostMessage_observed n ht rfl hm)
  have hold : ∀ {i r}, s.Holds c i r → (s.clockTo n).Holds c i r := fun h => h
  refine ⟨fun i r h hr => ?_, fun i r h hr => ?_, fun h => ?_⟩
  · rw [hexec, State.noteActivity_here (hold h) hr]
  · rw [hexec, State.noteActivity_away (hold h) hr]
  · rw [hexec, State.noteActivity_unknown (s := s.clockTo n) h]

/-! ### Smoothing (R32, R39, R40) -/

theorem ClientRecord.smooth_first {r : ClientRecord} (dbm : Int) (hs : r.samples = none) (hq : r.smoothed = none) :
    r.smooth dbm = { r with samples := some (firstSamples (clampLevel dbm)), smoothed := some (4 * clampLevel dbm) } := by
  simp [ClientRecord.smooth, hs, hq]

theorem ClientRecord.smooth_later {r : ClientRecord} {p : Samples} {q : Int} (dbm : Int) (hs : r.samples = some p)
    (hq : r.smoothed = some q) : r.smooth dbm =
      { r with
        samples := some (p.shift (clampLevel dbm)), smoothed := some (smoothStep q (p.shift (clampLevel dbm)).median) } := by
  simp [ClientRecord.smooth, hs, hq]

/-- Settles O14. -/
theorem signalsAreSmoothedIn : Obligations.SignalsAreSmoothedIn := by
  unfold Obligations.SignalsAreSmoothedIn
  refine ⟨isMiddle_median, ?_⟩
  intro n m s ht hm c x answer
  have hexec : exec (.signal n m) s = .next ((s.clockTo n).takeSignal m.tag m.body) :=
    congrArg Host.Outcome.next (State.hostMessage_observed n ht rfl hm)
  have hfind : (s.clockTo n).findClient (clientField m.body 0) = s.findClient c := rfl
  have hanswer : ∀ {i r}, s.Holds c i r → r.state ≠ .departed → answer i (r.smooth (signedByte m.body 6)) := fun {i r} h hr => by
    have hrec : (s.clockTo n).record i = some r := h.2
    have hclient : r.client = c := h.client_eq
    simp only [answer, hexec, State.takeSignal, hfind, h.1, hrec, ClientRecord.held_iff.mpr hr, if_true, hclient]
    rfl
  refine ⟨fun i r h hr hs hq => ?_, fun i r p q h hr hs hq => ?_, fun i r h hr => ?_, fun h => ?_⟩
  · have := hanswer h hr
    rwa [ClientRecord.smooth_first _ hs hq] at this
  · have := hanswer h hr
    rwa [ClientRecord.smooth_later _ hs hq] at this
  · have hrec : (s.clockTo n).record i = some r := h.2
    have hheld : r.held = false := by rw [ClientRecord.held, hr]; rfl
    simp [hexec, State.takeSignal, hfind, h.1, hrec, hheld]
  · simp [hexec, State.takeSignal, hfind, h]

end Sys2Proof.Machine
end

section
/-! SUPPORT. Proofs: one flow put to the admission test (R107), and a list of flows worked through one after another. -/

namespace Sys2Proof.Machine

/-! ### One flow tested (R107) -/

section
variable {s : State} {j : Fin 128} {f : FlowRecord} {r : ClientRecord}

/-- A flow of a record is put to the test that R107 gives. -/
theorem State.testFlow_used (hf : s.flow j = .used f) (hr : s.record f.slot = some r) :
    s.testFlow j = s.putFlow j (.used (s.tested s.now r f)) := by
  unfold State.testFlow State.tested State.admission
  simp only [hf, hr]
  split <;> rename_i h <;> split at h
  · cases h
  · split at h
    · cases h
    · split at h
      · cases h
      · rename_i h1 h2 h3
        simp only [h1, h2, h3, if_false]
  · cases h
    rename_i h1
    simp only [h1, if_true]
  · split at h
    · cases h
      rename_i h1 h2
      simp only [h1, h2, if_false, not_false_eq_true, if_true, ne_eq]
    · split at h
      · cases h
        rename_i h1 h2 h3
        simp only [h1, h2, h3, if_false, if_true]
      · cases h

theorem State.testFlow_ownerless (hf : s.flow j = .used f) (hr : s.record f.slot = none) : s.testFlow j = s := by
  unfold State.testFlow
  simp only [hf, hr]

theorem State.testFlow_other {k : Fin 128} (h : k ≠ j) : (s.testFlow k).flow j = s.flow j := by
  unfold State.testFlow
  split
  · split
    · split <;> exact State.flow_putFlow_other _ _ _ _ h
    · rfl
  · rfl
  · rfl

/-- A flow of a record whose access is not OPEN waits with reason CAP (R107). -/
theorem State.tested_capped (now : Nat) (hp : r.state ≠ .provisional) (ha : r.access ≠ .opened) :
    s.tested now r f = { f with state := .waiting, reason := some .cap } := by
  rw [State.tested, if_neg hp, if_pos ha]

end

/-! ### A list of flows -/

/-- A walk that changes at each turn the slot of that turn alone leaves a slot that has no turn. -/
theorem walk_flow_other {β : Type} {g : β → State → State} {slot : β → Fin 128}
    (ho : ∀ x s k, slot x ≠ k → (g x s).flow k = s.flow k) {l : List β} {j : Fin 128} (hj : ∀ x ∈ l, slot x ≠ j) (s : State) :
    (walk l g s).flow j = s.flow j := by
  induction l generalizing s with
  | nil => rfl
  | cons x l ih =>
    obtain ⟨hx, hl⟩ := List.forall_mem_cons.mp hj
    rw [walk_cons, ih hl, ho x s j hx]

theorem byTime_distinct (time : FlowRecord → Option Nat) {fs : List (Fin 128 × FlowRecord)} (h : fs.Pairwise fun x y => x.1 ≠ y.1) :
    (byTime time fs).Pairwise fun x y => x.1 ≠ y.1 :=
  ((sortBy_perm _ fs).pairwise_iff fun hxy => Ne.symm hxy).mpr h

/-- A walk over flows, each as the table holds it: what each turn keeps, the walk keeps, when a turn changes its own slot alone. -/
theorem walkFlows_of {P : State → Prop} {Q : Fin 128 × FlowRecord → Prop} {g : Fin 128 × FlowRecord → State → State}
    (ho : ∀ x s k, x.1 ≠ k → (g x s).flow k = s.flow k)
    (h : ∀ x u, u.flow x.1 = .used x.2 → Q x → P u → P (g x u)) {l : List (Fin 128 × FlowRecord)} {s : State}
    (hl : ∀ x ∈ l, s.flow x.1 = .used x.2 ∧ Q x) (hd : l.Pairwise fun x y => x.1 ≠ y.1) (hs : P s) : P (walk l g s) := by
  induction l generalizing s with
  | nil => exact hs
  | cons x l ih =>
    obtain ⟨⟨hx, hq⟩, hrest⟩ := List.forall_mem_cons.mp hl
    obtain ⟨hne, hd⟩ := List.pairwise_cons.mp hd
    refine ih (s := g x s) (fun y hy => ?_) hd (h x s hx hq hs)
    rw [ho x s y.1 (hne y hy)]
    exact hrest y hy

/-- What a flow's own turn gives, the walk gives, when the turns before it keep `P` and those behind it keep what was given. -/
theorem walkFlows_turn {P R : State → Prop} {Q : Fin 128 × FlowRecord → Prop} {g : Fin 128 × FlowRecord → State → State}
    (ho : ∀ x s k, x.1 ≠ k → (g x s).flow k = s.flow k)
    (h : ∀ x u, u.flow x.1 = .used x.2 → Q x → P u → P (g x u)) {l : List (Fin 128 × FlowRecord)} {s : State}
    {x : Fin 128 × FlowRecord} (hx : x ∈ l) (hturn : ∀ u, u.flow x.1 = .used x.2 → Q x → P u → R (g x u))
    (hrest : ∀ y u, y.1 ≠ x.1 → u.flow y.1 = .used y.2 → Q y → R u → R (g y u))
    (hl : ∀ y ∈ l, s.flow y.1 = .used y.2 ∧ Q y) (hd : l.Pairwise fun x y => x.1 ≠ y.1) (hs : P s) : R (walk l g s) := by
  obtain ⟨before, after, rfl⟩ := List.append_of_mem hx
  obtain ⟨hdb, hda, hdisj⟩ := List.pairwise_append.mp hd
  obtain ⟨hxa, hda⟩ := List.pairwise_cons.mp hda
  have hbefore : ∀ k : Fin 128, (∀ y ∈ before, y.1 ≠ k) → (walk before g s).flow k = s.flow k := fun k hk =>
    walk_flow_other ho hk s
  obtain ⟨hxs, hxq⟩ := hl x hx
  have hwalk : walk (before ++ x :: after) g s = walk after g (g x (walk before g s)) := by rw [walk, List.foldl_append]; rfl
  have hP : P (walk before g s) := walkFlows_of ho h (fun y hy => hl y (List.mem_append_left _ hy)) hdb hs
  have hat : (walk before g s).flow x.1 = .used x.2 :=
    (hbefore x.1 fun y hy => hdisj y hy x List.mem_cons_self).trans hxs
  rw [hwalk]
  refine walkFlows_of (Q := fun y => Q y ∧ y.1 ≠ x.1) ho (fun y u hy hq => hrest y u hq.2 hy hq.1) (fun y hy => ?_) hda
    (hturn _ hat hxq hP)
  obtain ⟨hys, hyq⟩ := hl y (List.mem_append_right _ (List.mem_cons_of_mem _ hy))
  have hne : x.1 ≠ y.1 := hxa y hy
  have hby : (walk before g s).flow y.1 = s.flow y.1 := hbefore y.1 fun z hz => hdisj z hz y (List.mem_cons_of_mem _ hy)
  exact ⟨(ho x _ y.1 hne).trans (hby.trans hys), hyq, Ne.symm hne⟩

/-- The tests of a list of flows, each in its own slot. -/
theorem walk_testFlow_of {P : State → Prop} {Q : FlowRecord → Prop}
    (h : ∀ (u : State) (j : Fin 128) (f : FlowRecord), u.flow j = .used f → Q f → P u → P (u.testFlow j))
    {l : List (Fin 128 × FlowRecord)} {s : State} (hl : ∀ x ∈ l, s.flow x.1 = .used x.2 ∧ Q x.2)
    (hd : l.Pairwise fun x y => x.1 ≠ y.1) (hs : P s) : P (walk (l.map Prod.fst) State.testFlow s) := by
  rw [walk, List.foldl_map]
  exact walkFlows_of (Q := fun x => Q x.2) (g := fun x u => u.testFlow x.1) (fun _ _ _ => State.testFlow_other) (fun x u => h u x.1 x.2) hl hd hs

/-- What a flow's own test gives, the tests of a list of flows give. -/
theorem walk_testFlow_turn {P R : State → Prop} {Q : FlowRecord → Prop}
    (h : ∀ (u : State) (j : Fin 128) (f : FlowRecord), u.flow j = .used f → Q f → P u → P (u.testFlow j))
    {l : List (Fin 128 × FlowRecord)} {s : State} {j : Fin 128} {f : FlowRecord} (hx : (j, f) ∈ l)
    (hturn : ∀ u, u.flow j = .used f → P u → R (u.testFlow j))
    (hrest : ∀ (u : State) (k : Fin 128) (g : FlowRecord), u.flow k = .used g → Q g → R u → R (u.testFlow k))
    (hl : ∀ x ∈ l, s.flow x.1 = .used x.2 ∧ Q x.2) (hd : l.Pairwise fun x y => x.1 ≠ y.1) (hs : P s) :
    R (walk (l.map Prod.fst) State.testFlow s) := by
  rw [walk, List.foldl_map]
  exact walkFlows_turn (Q := fun x => Q x.2) (g := fun x u => u.testFlow x.1) (fun _ _ _ => State.testFlow_other)
    (fun x u => h u x.1 x.2) hx (fun u hu _ => hturn u hu) (fun y u _ => hrest u y.1 y.2) hl hd hs

/-- A round tests flows that wait (R108). -/
theorem State.round_of {P : State → Prop}
    (h : ∀ (u : State) (j : Fin 128) (f : FlowRecord), u.flow j = .used f → f.state = .waiting → P u → P (u.testFlow j))
    {s : State} (hs : P s) : P s.round := by
  refine walk_testFlow_of h (fun x hx => ?_) (byTime_distinct _ (s.flowsWhere_distinct _)) hs
  obtain ⟨hx, hp⟩ := State.mem_flowsWhere.mp (mem_byTime.mp hx)
  simp only [FlowRecord.retestable, Bool.and_eq_true, beq_iff_eq] at hp
  exact ⟨hx, hp.1.1.1⟩

/-- What a change of a client's access does to the flows (R112): a property that stands when one of the client's ADMITTED flows
is made to wait, and when one of its flows that waits is tested, stands. -/
theorem State.accessChanged_of {P : State → Prop} {c : ClientId} {s : State} (old new : Access)
    (hcap : ∀ (u : State) (j : Fin 128) (f : FlowRecord), u.flow j = .used f → f.client = c ∧ f.state = .admitted → P u →
      P (u.putFlow j (.used { f with state := .waiting, reason := some .cap, holdUntil := none })))
    (htest : ∀ (u : State) (j : Fin 128) (f : FlowRecord), u.flow j = .used f → f.client = c ∧ f.state = .waiting → P u →
      P (u.testFlow j)) (hs : P s) : P (s.accessChanged c old new) := by
  unfold State.accessChanged
  split
  · refine walkFlows_of (Q := fun x => x.2.client = c ∧ x.2.state = .admitted) (fun _ _ _ => State.flow_putFlow_other _ _ _ _)
      (fun x u => hcap u x.1 x.2) (fun x hx => ?_) (s.flowsWhere_distinct _) hs
    obtain ⟨hx, hp⟩ := State.mem_flowsWhere.mp hx
    simp only [Bool.and_eq_true, beq_iff_eq] at hp
    exact ⟨hx, hp⟩
  · split
    · refine walk_testFlow_of htest (fun x hx => ?_) (byTime_distinct _ (s.flowsWhere_distinct _)) hs
      obtain ⟨hx, hp⟩ := State.mem_flowsWhere.mp (mem_byTime.mp hx)
      simp only [Bool.and_eq_true, beq_iff_eq] at hp
      exact ⟨hx, hp.1.1⟩
    · exact hs

end Sys2Proof.Machine
end

section
/-! SUPPORT. Proofs: what the end of an event keeps (log entry 8), said once for any property of a state that its kinds of turn
keep; and what it leaves of the marks and the Flow Table of a calm part. -/

namespace Sys2Proof.Machine

theorem State.deleteSlot_none {s : State} {i : Fin 64} (h : s.record i = none) : s.deleteSlot i = s := by
  unfold State.deleteSlot
  rw [h]

/-- The ACCESS and STEER marks of the clients (R29, R37). -/
def State.marks (s : State) : Vector Bool 64 × Vector Bool 64 := (s.port.dirty.access, s.port.dirty.steer)

/-- What a property of the clients, their flows and their marks reads. -/
structure Gist where
  table : Vector (Option ClientRecord) 64
  flows : Vector FlowSlot 128
  peers : PeerUnit
  marks : Vector Bool 64 × Vector Bool 64
  now : Nat
  cfg : ActiveConfig
  time : TimeBase
  sched : ScheduleUnit

def State.gist (s : State) : Gist :=
  { table := s.clients.table, flows := s.prio.flows, peers := s.peers, marks := s.marks, now := s.now, cfg := s.cfg,
    time := s.time, sched := s.sched }

theorem State.gist_of_aside {s t : State} (h : t.aside = s.aside) : t.gist = s.gist :=
  show t.aside.gist = s.aside.gist from congrArg State.gist h

theorem State.record_of_gist {s t : State} (h : t.gist = s.gist) (i : Fin 64) : t.record i = s.record i :=
  congrArg (fun g : Gist => g.table[i]) h

theorem State.flow_of_gist {s t : State} (h : t.gist = s.gist) (j : Fin 128) : t.flow j = s.flow j :=
  congrArg (fun g : Gist => g.flows[j]) h

/-- A property that the Priority Unit's end of an event keeps: it reads the gist alone, and stands when a flow that waits is tested. -/
structure Retested (P : State → Prop) : Prop where
  same : ∀ {u v : State}, v.gist = u.gist → P u → P v
  tests : ∀ (u : State) (j : Fin 128) (f : FlowRecord), u.flow j = .used f → f.state = .waiting → P u → P (u.testFlow j)

/-- A property that an evacuation keeps: it reads the gist alone, and stands when an ARRIVING record is deleted and a slot is
passed. -/
structure Evacuated (P : State → Prop) : Prop where
  same : ∀ {u v : State}, v.gist = u.gist → P u → P v
  drops : ∀ (u : State) (i : Fin 64) (r : ClientRecord), u.record i = some r → r.state = .arriving → P u → P (u.deleteSlot i)
  passes : ∀ (u : State) (i : Fin 64), P u → P (u.evacuateSlot i)

/-- A property that the end of an event keeps. -/
structure Endures (P : State → Prop) : Prop extends Retested P, Evacuated P

section
variable {P : State → Prop} (h : Retested P)
include h

theorem Retested.retest {s : State} (hs : P s) : P s.retest := by
  unfold State.retest
  split
  · exact State.round_of h.tests (h.same (u := s) rfl hs)
  · exact hs

theorem Retested.priorityEnd {s : State} (hs : P s) : P s.priorityEnd := by
  have hpace : ∀ u : State, u.workPace.cutCredits.gist = u.gist := fun u => by
    unfold State.workPace
    split <;> rfl
  unfold State.priorityEnd
  split
  · exact h.same (hpace _) (h.retest hs)
  · exact h.retest hs

/-- The end of an event in a calm part (log entry 8). -/
theorem Retested.settleWith_calm (test : Bool) {s : State} (hc : s.Calm) (hs : P s) : P (s.settleWith test) := by
  rw [State.settleWith_calm test hc]
  refine h.same ?_ (h.priorityEnd (h.retest hs))
  rfl

end

section
variable {P : State → Prop} (h : Evacuated P)
include h

/-- Deleting slots each of which is empty or holds an ARRIVING record. -/
theorem Evacuated.walk_deleteSlot {l : List (Fin 64)} {s : State} (hl : ∀ i ∈ l, ∀ r, s.record i = some r → r.state = .arriving)
    (hs : P s) : P (walk l State.deleteSlot s) := by
  induction l generalizing s with
  | nil => exact hs
  | cons i l ih =>
    obtain ⟨hi, hrest⟩ := List.forall_mem_cons.mp hl
    have hspares := State.deleteSlot_spares hi
    refine ih (s := s.deleteSlot i) (fun k hk r hr => hrest k hk r (hspares.only k r hr)) ?_
    cases hr : s.record i with
    | none => rwa [State.deleteSlot_none hr]
    | some r => exact h.drops s i r hr (hi r hr) hs

theorem Evacuated.dropArriving {s : State} (hs : P s) : P s.dropArriving := by
  refine h.walk_deleteSlot (fun i hi r hr => ?_) hs
  obtain ⟨r', hr', hst⟩ := State.mem_slotsIn.mp hi
  rw [hr] at hr'
  cases hr'
  exact hst

theorem Evacuated.beginEvacuation {s : State} (hs : P s) : P s.beginEvacuation :=
  walk_keeps P State.evacuateSlot (fun i u => h.passes u i) _ _ (h.dropArriving (h.same (u := s) rfl hs))

theorem Evacuated.submitSelector (w : RetriedWrite) {s : State} (hs : P s) : P (s.submitSelector w).1 := by
  have hsub := h.same (State.gist_of_aside
    (State.submit_aside { owner := w.owner, kind := .selectorWrite w.order w.purpose w.sel none } s)) hs
  unfold State.submitSelector
  simp only
  split
  · exact h.same (u := (State.submit _ s).1) rfl hsub
  · exact hsub

theorem Evacuated.reopen {s : State} (hs : P s) : P s.reopen := by
  have hw : P { s with act := { s.act with state := .waiting } } := h.same (u := s) rfl hs
  unfold State.reopen
  simp only
  split
  · exact h.beginEvacuation hw
  · exact hw

theorem Evacuated.commit {s : State} (hs : P s) : P s.commit := by
  unfold State.commit
  extract_lets _ s1 w r
  have hr : P r.1 := h.submitSelector _ (h.same (u := s) rfl hs)
  split
  · exact hr
  · exact h.reopen hr

theorem Evacuated.endCheck {s : State} (hs : P s) : P s.endCheck := by
  unfold State.endCheck
  split
  · exact h.commit hs
  · exact hs

theorem Evacuated.gateTest {s : State} (hs : P s) : P s.gateTest := by
  unfold State.gateTest
  split
  · exact h.endCheck (h.beginEvacuation hs)
  · exact hs

end

/-- The end of an event (log entry 8). -/
theorem Endures.settleWith {P : State → Prop} (h : Endures P) (test : Bool) {s : State} (hs : P s) : P (s.settleWith test) := by
  have hgate : ∀ u : State, P u → P (if test || u.ev.admittedChanged then u.gateTest else u) := fun u hu => by
    split
    · exact h.gateTest hu
    · exact hu
  have hend : ∀ u : State, P u → P (if u.ev.departed then u.endCheck else u) := fun u hu => by
    split
    · exact h.endCheck hu
    · exact hu
  unfold State.settleWith
  extract_lets s1 s2 s3 s4
  exact h.same (u := s4) rfl (hend s3 (h.priorityEnd (hgate s1 (h.retest hs))))

/-! ### The directive marks of clients (R29, R37) -/

theorem State.access_of_marks {s t : State} (h : t.marks = s.marks) : t.port.dirty.access = s.port.dirty.access :=
  congrArg Prod.fst h

theorem State.steer_of_marks {s t : State} (h : t.marks = s.marks) : t.port.dirty.steer = s.port.dirty.steer :=
  congrArg Prod.snd h

theorem State.putFlow_marks_same (j : Fin 128) (x : FlowSlot) (s : State) : (s.putFlow j x).marks = s.marks :=
  Prod.ext (State.putFlow_marks j x s).1 (State.putFlow_marks j x s).2

theorem State.testFlow_marks (j : Fin 128) (s : State) : (s.testFlow j).marks = s.marks := by
  unfold State.testFlow
  split
  · split
    · split <;> exact State.putFlow_marks_same _ _ s
    · rfl
  · rfl
  · rfl

theorem State.removeFlow_marks (j : Fin 128) (s : State) : (s.removeFlow j).marks = s.marks := by
  unfold State.removeFlow
  split
  · exact State.putFlow_marks_same _ _ s
  · rfl
  · rfl

/-- In a calm part the end of an event leaves the directive marks of clients alone. -/
theorem State.settleWith_calm_marks {s : State} (test : Bool) (h : s.Calm) : (s.settleWith test).marks = s.marks :=
  Retested.settleWith_calm (P := fun u => u.marks = s.marks)
    ⟨fun hg hu => (congrArg Gist.marks hg).trans hu, fun u j _ _ _ hu => (State.testFlow_marks j u).trans hu⟩ test h rfl

end Sys2Proof.Machine
end

section
/-! SUPPORT. Proofs: a client that disassociates (O24). -/

namespace Sys2Proof.Machine

/-! ### What the turns of an event's end leave of the directive marks -/

theorem State.marks_of_aside {s t : State} (h : t.aside = s.aside) : t.marks = s.marks :=
  show t.aside.marks = s.aside.marks from congrArg State.marks h

theorem State.removeClientFlows_marks (c : ClientId) (s : State) : (s.removeClientFlows c).marks = s.marks :=
  walk_same State.marks State.removeFlow State.removeFlow_marks _ s

theorem State.evacuateSlot_marks (i : Fin 64) (s : State) : (s.evacuateSlot i).marks = s.marks := by
  unfold State.evacuateSlot
  split
  · split
    · simp only
      split
      · split
        · exact (State.marks_of_aside (State.send_aside _ _ _)).trans rfl
        · rfl
      · rfl
    · rfl
  · rfl

/-- A deletion clears the marks of its own slot alone (R29). -/
theorem State.deleteSlot_steer_other {i k : Fin 64} (h : i ≠ k) (s : State) :
    (s.deleteSlot i).port.dirty.steer[k] = s.port.dirty.steer[k] := by
  cases hr : s.record i with
  | none => rw [State.deleteSlot_none hr]
  | some r =>
    have hmarks := State.steer_of_marks (State.removeClientFlows_marks r.client s)
    rw [State.deleteSlot_eq hr]
    exact (putSlot_get_other _ _ _ _ h).trans (congrArg (fun v : Vector Bool 64 => v[k]) hmarks)

/-- A DEPARTED record and its STEER mark stand to the end of an event: only ARRIVING records are deleted, and only ASSOCIATED
ones offered. -/
theorem endures_departed {i : Fin 64} {r : ClientRecord} (hr : r.state = .departed) (v : Bool) :
    Endures fun u => u.record i = some r ∧ u.port.dirty.steer[i] = v where
  same {u w} hg h := by
    rw [State.record_of_gist hg, State.steer_of_marks (congrArg Gist.marks hg)]
    exact h
  tests u j _ _ _ h := by
    rw [State.record, State.testFlow_clients, State.steer_of_marks (State.testFlow_marks j u)]
    exact h
  drops u k q hq hst h := by
    have hki : k ≠ i := fun e => by
      rw [e, h.1] at hq
      cases hq
      rw [hr] at hst
      cases hst
    rw [State.record_deleteSlot, if_neg hki, State.deleteSlot_steer_other hki]
    exact h
  passes u k h := by
    rw [State.steer_of_marks (State.evacuateSlot_marks k u)]
    refine ⟨?_, h.2⟩
    by_cases hki : i = k
    · subst hki
      rw [State.record, State.evacuateSlot_stands]
      · exact h.1
      · intro q _ _ _ hq hst
        rw [h.1] at hq
        cases hq
        rw [hr] at hst
        cases hst
    · rw [State.evacuateSlot_record_other hki]
      exact h.1

/-! ### The departure (R30) -/

theorem State.depart_flow {s : State} {i : Fin 64} {r : ClientRecord} {j : Fin 128} {f : FlowRecord}
    (h : (s.depart i r).flow j = .used f) : f.client ≠ r.client := (State.removeClientFlows_flow h).2

theorem State.depart_steer {s : State} {i : Fin 64} {r : ClientRecord} (h : r.state = .handing) :
    (s.depart i r).port.dirty.steer[i] = true := by
  have hmarks := State.steer_of_marks
    (State.removeClientFlows_marks r.client ((s.putRecord i (r.departedAt s.now)).setSteerMark i true))
  have hput : ((s.putRecord i (r.departedAt s.now)).setSteerMark i true).port.dirty.steer[i] = true := putSlot_get_same _ _ _
  unfold State.depart
  simp only [h, if_true]
  exact (congrArg (fun v : Vector Bool 64 => v[i]) hmarks).trans hput

theorem State.takeDisassociate_here {s : State} {b : List Byte} {i : Fin 64} {r : ClientRecord} (tag : Tag)
    (h : s.Holds (clientField b 0) i r) (hr : r.Here) : s.takeDisassociate tag b = (s.depart i r).settle := by
  simp [State.takeDisassociate, h.1, h.2, ClientRecord.associatedHere_iff.mpr hr]

/-- Settles O24: what the departure leaves of the record stands to the end of the event, and the flows it removed stay away. -/
theorem disassociateDeparts : Obligations.DisassociateDeparts := by
  unfold Obligations.DisassociateDeparts
  intro n m s ht hm hok c
  have hexec : exec (.disassociate n m) s = .next ((s.clockTo n).takeDisassociate m.tag m.body) :=
    congrArg Host.Outcome.next (State.hostMessage_observed n ht rfl hok)
  refine ⟨fun i r h hr => ?_, fun i r h hr => ?_, fun h => ?_⟩
  · have hold : (s.clockTo n).Holds c i r := h
    obtain ⟨hbeside, -, hrec⟩ := (s.clockTo n).depart_same i r
    have hmine : ((s.clockTo n).depart i r).record i = some (r.departedAt (max s.now n)) := (hrec i).trans (if_pos rfl)
    have hends := (endures_departed (i := i) (r := r.departedAt (max s.now n)) rfl
      (((s.clockTo n).depart i r).port.dirty.steer[i])).settleWith false ⟨hmine, rfl⟩
    refine ⟨_, hexec.trans (congrArg Host.Outcome.next (State.takeDisassociate_here m.tag hold hr)), hends.1, fun hst => ?_,
      fun j f hf => ?_, fun hcalm k hk => ?_⟩
    · exact hends.2.trans (State.depart_steer hst)
    · obtain ⟨f', hf', hc⟩ := (State.settleWith_ebbs false _).flows j f hf
      have hne := State.depart_flow hf'
      rwa [hc, h.client_eq] at hne
    · have hclients := State.settleWith_clients false (s := (s.clockTo n).depart i r) (State.Calm.of_act (s := s.clockTo n) hcalm
        (State.act_of_beside hbeside))
      rw [State.record, State.settle, hclients, ← State.record, hrec, if_neg hk]
      rfl
  · have hfind : (s.clockTo n).findClient (clientField m.body 0) = some i := h.1
    have hrec : (s.clockTo n).record i = some r := h.2
    simp [hexec, State.takeDisassociate, hfind, hrec, ClientRecord.not_associatedHere hr]
  · have hfind : (s.clockTo n).findClient (clientField m.body 0) = none := h
    simp [hexec, State.takeDisassociate, hfind]

end Sys2Proof.Machine
end

section
/-! SUPPORT. Proofs: the slot a new record takes (R21, R23), what its access state reads (R91, R92), and a frame sent with room. -/

namespace Sys2Proof.Machine

/-! ### The slot for a new record (R21, R23) -/

section
variable {s : State} {i : Fin 64}

theorem State.emptySlot_some_iff : s.emptySlot = some i ↔ s.record i = none ∧ ∀ k, k < i → s.record k ≠ none := by
  unfold State.emptySlot slots
  rw [← Fin.find?_eq_find?_finRange, Fin.find?_eq_some_iff]
  simp [← Option.isSome_iff_ne_none]

theorem State.emptySlot_none_iff : s.emptySlot = none ↔ ∀ k, s.record k ≠ none := by
  unfold State.emptySlot slots
  rw [← Fin.find?_eq_find?_finRange, Fin.find?_eq_none_iff]
  simp [← Option.isSome_iff_ne_none]

/-- The DEPARTED records by slot, each with its departure time (R23). -/
def State.departures (s : State) : List (Fin 64 × Nat) :=
  (slots 64).filterMap fun i =>
    match s.record i with
    | some r => if r.state = .departed then some (i, r.departure.getD 0) else none
    | none => none

theorem State.reclaimable_eq : s.reclaimable = ((sortBy (fun x y => x.2 < y.2) s.departures).head?).map Prod.fst := rfl

theorem State.mem_departures {x : Fin 64 × Nat} :
    x ∈ s.departures ↔ ∃ r, s.record x.1 = some r ∧ r.state = .departed ∧ x.2 = r.departure.getD 0 := by
  unfold State.departures
  rw [List.mem_filterMap]
  constructor
  · rintro ⟨k, -, hk⟩
    split at hk
    · rename_i r hr
      split at hk
      · rename_i hst
        cases hk
        exact ⟨r, hr, hst, rfl⟩
      · cases hk
    · cases hk
  · rintro ⟨r, hr, hst, hd⟩
    refine ⟨x.1, List.mem_finRange _, ?_⟩
    rw [hr]
    simp [hst, ← hd]

theorem State.departures_slots : s.departures.Pairwise fun x y => x.1 < y.1 := by
  refine List.pairwise_filterMap.mpr ((List.pairwise_lt_finRange 64).imp fun {i j} hij x hx y hy => ?_)
  have hslot : ∀ {k : Fin 64} {z : Fin 64 × Nat}, (match s.record k with
      | some r => if r.state = .departed then some (k, r.departure.getD 0) else none
      | none => none) = some z → z.1 = k := fun {k z} hz => by
    split at hz
    · split at hz <;> cases hz
      rfl
    · cases hz
  rw [hslot hx, hslot hy]
  exact hij

/-- The record that departed first, of those at one time the one in the lowest slot (R23). -/
def State.FirstDeparted (s : State) (i : Fin 64) (d : Nat) : Prop :=
  ∀ k q, s.record k = some q → q.state = .departed → ∃ e, q.departure = some e ∧ (d < e ∨ (d = e ∧ i ≤ k))

theorem State.reclaimable_first {r : ClientRecord} {d : Nat} (h : s.record i = some r) (hst : r.state = .departed)
    (hd : r.departure = some d) (hfirst : s.FirstDeparted i d) : s.reclaimable = some i := by
  have hmem : (i, d) ∈ s.departures := State.mem_departures.mpr ⟨r, h, hst, by rw [hd]; rfl⟩
  obtain ⟨w, hw⟩ := head_sortBy_of_mem (fun x y : Fin 64 × Nat => decide (x.2 < y.2)) hmem
  have hstable := sortBy_stable (before := fun x y : Fin 64 × Nat => decide (x.2 < y.2)) s.departures_slots
    (by simp only [decide_eq_false_iff_not]; omega) (by simp only [decide_eq_true_eq, decide_eq_false_iff_not]; omega)
  obtain ⟨q, hq, hqst, hqd⟩ := State.mem_departures.mp (mem_of_head_sortBy hw)
  obtain ⟨e, he, hle⟩ := hfirst w.1 q hq hqst
  rw [he] at hqd
  obtain ⟨ys, hys⟩ := List.head?_eq_some_iff.mp hw
  have hin := (mem_sortBy (fun x y : Fin 64 × Nat => decide (x.2 < y.2)) (i, d) _).mpr hmem
  rw [hys] at hin hstable
  have hwi : w.1 = i := by
    rcases List.mem_cons.mp hin with heq | htail
    · rw [← heq]
    · obtain ⟨h1, h2⟩ := (List.pairwise_cons.mp hstable).1 _ htail
      simp only [decide_eq_false_iff_not, not_lt, hqd, Option.getD_some] at h1 h2
      rcases hle with hlt | ⟨rfl, hik⟩
      · omega
      · exact absurd (h2 le_rfl) (not_lt.mpr hik)
  rw [State.reclaimable_eq, hw, Option.map_some, hwi]

theorem State.reclaimable_none_iff : s.reclaimable = none ↔ ∀ k q, s.record k = some q → q.state ≠ .departed := by
  have hperm := sortBy_perm (fun x y : Fin 64 × Nat => decide (x.2 < y.2)) s.departures
  rw [State.reclaimable_eq, Option.map_eq_none_iff, List.head?_eq_none_iff, ← List.perm_nil]
  constructor
  · intro hnil k q hq hst
    have hmem : (k, q.departure.getD 0) ∈ s.departures := State.mem_departures.mpr ⟨q, hq, hst, rfl⟩
    exact absurd (hnil.subset (hperm.symm.subset hmem)) List.not_mem_nil
  · intro h
    have hnil : s.departures = [] := List.eq_nil_iff_forall_not_mem.mpr fun x hx => by
      obtain ⟨r, hr, hst, -⟩ := State.mem_departures.mp hx
      exact h x.1 r hr hst
    exact hnil ▸ hperm

/-! The three answers of `takeSlot`. -/

theorem State.takeSlot_lowest (h : s.record i = none) (hlow : ∀ k, k < i → s.record k ≠ none) : s.takeSlot = (some i, s) := by
  simp only [State.takeSlot, State.emptySlot_some_iff.mpr ⟨h, hlow⟩]

theorem State.takeSlot_reclaims {r : ClientRecord} {d : Nat} (hfull : ∀ k, s.record k ≠ none) (h : s.record i = some r)
    (hst : r.state = .departed) (hd : r.departure = some d) (hfirst : s.FirstDeparted i d) :
    s.takeSlot = (some i, s.deleteSlot i) := by
  simp only [State.takeSlot, State.emptySlot_none_iff.mpr hfull, State.reclaimable_first h hst hd hfirst]

theorem State.takeSlot_full (h : ∀ k, ∃ q, s.record k = some q ∧ q.state ≠ .departed) : s.takeSlot = (none, s) := by
  have hfull : ∀ k, s.record k ≠ none := fun k => by
    obtain ⟨q, hq, -⟩ := h k
    rw [hq]
    exact nofun
  have hnone : s.reclaimable = none := State.reclaimable_none_iff.mpr fun k q hq => by
    obtain ⟨q', hq', hst⟩ := h k
    rw [hq] at hq'
    cases hq'
    exact hst
  simp only [State.takeSlot, State.emptySlot_none_iff.mpr hfull, hnone]

end

/-! ### What a record's access state reads (R91, R92) -/

theorem State.accessOf_congr {s t : State} (hs : t.sched = s.sched) (hc : t.cfg = s.cfg) (ht : t.time = s.time) (r : ClientRecord) :
    t.accessOf r = s.accessOf r := by
  simp only [State.accessOf, hs, hc, ht]

theorem State.accessOf_of_beside {s t : State} (h : t.beside = s.beside) (r : ClientRecord) : t.accessOf r = s.accessOf r := by
  obtain ⟨-, -, ht, hs, -⟩ := State.still_parts (State.still_of_beside h)
  exact State.accessOf_congr hs (State.cfg_of_beside h) ht r

/-! ### A frame sent with room (R6, R7) -/

theorem State.send_mem {s : State} (dest : Nat) (body : FrameBody) (hlo : 1 ≤ s.cfg.nodeId) (hhi : s.cfg.nodeId ≤ 63)
    (htx : s.txCount < 12) : { sender := s.cfg.nodeId, dest := dest, body := body } ∈ (s.send dest body).pli.tx := by
  rw [State.send_placed _ _ (State.configured_iff.mpr ⟨hlo, hhi⟩) htx]
  exact List.mem_append_right _ (List.mem_singleton.mpr rfl)

theorem State.send_mem_of {s t : State} (hp : t.pli = s.pli) (hc : t.cfg = s.cfg) (hs : t.store = s.store) (dest : Nat)
    (body : FrameBody) (hlo : 1 ≤ s.cfg.nodeId) (hhi : s.cfg.nodeId ≤ 63) (htx : s.txCount < 12) :
    { sender := s.cfg.nodeId, dest := dest, body := body } ∈ (t.send dest body).pli.tx := by
  have hheld : t.heldPlaces = s.heldPlaces := by simp only [State.heldPlaces, State.storeOps, hs]
  rw [← hc] at hlo hhi ⊢
  exact State.send_mem dest body hlo hhi (State.txCount_of hp hheld ▸ htx)

end Sys2Proof.Machine
end

section
/-! SUPPORT. Proofs: an ASSOCIATE of a client without a record (O22). -/

namespace Sys2Proof.Machine

/-- The record that R22 creates, with its access state. -/
def State.enrolled (s : State) (c : ClientId) (rate : Nat) (steerable : Bool) : ClientRecord :=
  { s.provisionalRecord c rate steerable with access := s.accessOf (s.provisionalRecord c rate steerable) }

theorem State.enrolled_of_beside {s t : State} (h : t.beside = s.beside) (c : ClientId) (rate : Nat) (steerable : Bool) :
    t.enrolled c rate steerable = s.enrolled c rate steerable := by
  obtain ⟨hn, -, ht, hs, -⟩ := State.still_parts (State.still_of_beside h)
  simp only [State.enrolled, State.accessOf_of_beside h, State.provisionalRecord, hn, ht, hs]

section
variable {s s1 : State} {c : ClientId} (rate : Nat) (steerable : Bool)

/-- A client that gets a slot is entered in it, leaves the Heard List and the refusal list, and is claimed (R22, R25, R62). -/
theorem State.associateNew_slot {i : Fin 64} (h : s.takeSlot = (some i, s1)) : s.associateNew c rate steerable =
    State.send 0 (.claim c) (State.setAccessMark i true
      { s1 with
        clients := { s1.clients with
          table := putSlot s1.clients.table i (some (s1.enrolled c rate steerable))
          heard := s1.clients.heard.filter fun e => e.client ≠ c
          refusals := s1.clients.refusals.filter fun x => x ≠ c } }) := by
  have hheard : (s1.clients.heard.filter fun e => e.client != c) = s1.clients.heard.filter fun e => e.client ≠ c :=
    List.filter_congr fun e _ => by rw [bne, beq_eq_decide, decide_not]
  have hrefused : (s1.clients.refusals.filter fun x => x != c) = s1.clients.refusals.filter fun x => x ≠ c :=
    List.filter_congr fun x _ => by rw [bne, beq_eq_decide, decide_not]
  rw [← hheard, ← hrefused, State.associateNew, h]
  rfl

theorem State.associateNew_refused (h : s.takeSlot = (none, s)) : s.associateNew c rate steerable =
    { s with
      clients := { s.clients with
        refusals := if c ∈ s.clients.refusals then s.clients.refusals
          else if s.clients.refusals.length < 8 then s.clients.refusals ++ [c]
          else s.clients.refusals.drop 1 ++ [c] } } := by
  have hlist : (if c ∈ s.clients.refusals then s.clients.refusals
      else if s.clients.refusals.length < 8 then s.clients.refusals ++ [c]
      else s.clients.refusals.drop 1 ++ [c]) = refuse c s.clients.refusals := by
    simp [refuse, Config.refusalEntries]
  rw [hlist, State.associateNew, h]

end

/-- Settles O22, by the slot the client gets: an empty one, the reclaimed one, or none. -/
theorem associateCreatesARecord : Obligations.AssociateCreatesARecord := by
  unfold Obligations.AssociateCreatesARecord
  intro n m s ht hm hok c hnone
  let u := s.clockTo n
  let rate := max 6 (min (field m.body 6 2) 2400)
  let steerable := field m.body 8 1 != 0
  have hfind : u.findClient (clientField m.body 0) = none := hnone
  have hexec : exec (.associate n m) s = .next (u.associateNew c rate steerable).settle := by
    refine congrArg Host.Outcome.next ((State.hostMessage_observed n ht rfl hok).trans ?_)
    show u.takeAssociate m.tag m.body = _
    simp only [State.takeAssociate, hfind]
    rfl
  refine ⟨fun i hi hlow => ?_, fun i r d hfull hr hst hd hcalm hfirst => ?_, fun hheld => ?_⟩
  · have hslot : u.takeSlot = (some i, u) := State.takeSlot_lowest hi hlow
    rw [hexec, State.associateNew_slot rate steerable hslot]
    exact congrArg Host.Outcome.next (State.settle_of_ev hm ((State.send_ev _ _ _).trans rfl))
  · let v := u.deleteSlot i
    have hbeside : v.beside = u.beside := State.deleteSlot_beside i u
    have hact : v.act = u.act := State.act_of_beside hbeside
    have hpli : v.pli = u.pli := State.pli_of_beside hbeside
    have hcfg : v.cfg = u.cfg := State.cfg_of_beside hbeside
    have hstore : v.store = u.store := State.store_of_beside hbeside
    have hslot : u.takeSlot = (some i, v) := State.takeSlot_reclaims hfull hr hst hd hfirst
    obtain ⟨-, -, -, -, -, -, -, -, -, -, -, -, -, -, hheard, hrefusals, -⟩ := State.still_parts (State.still_of_beside hbeside)
    obtain ⟨w, hw⟩ : ∃ w, w = State.setAccessMark i true
      { v with
        clients := { v.clients with
          table := putSlot v.clients.table i (some (v.enrolled c rate steerable))
          heard := v.clients.heard.filter fun e => e.client ≠ c
          refusals := v.clients.refusals.filter fun x => x ≠ c } } := ⟨_, rfl⟩
    have hnew : u.associateNew c rate steerable = w.send 0 (.claim c) := by rw [State.associateNew_slot rate steerable hslot, hw]
    have hcalm' : (w.send 0 (.claim c)).Calm := by
      refine State.Calm.of_act (s := u) hcalm ((State.send_act _ _ _).trans ?_)
      rw [hw]
      exact hact
    have hclients : (w.send 0 (.claim c)).settle.clients = w.clients :=
      (State.settleWith_clients false hcalm').trans (State.send_clients _ _ _)
    have hrec : ∀ k, w.record k = if i = k then some (v.enrolled c rate steerable) else v.record k := by
      rw [hw]
      exact fun k => v.record_putRecord i k _
    refine ⟨_, by rw [hexec, hnew], ?_, fun k hk => ?_, ?_, ?_, ?_, fun hlo hhi htx => ?_⟩
    · rw [State.record, hclients, ← State.record, hrec, if_pos rfl, State.enrolled_of_beside hbeside]
      rfl
    · rw [State.record, hclients, ← State.record, hrec, if_neg (Ne.symm hk), State.record_deleteSlot, if_neg (Ne.symm hk)]
      rfl
    · have hmarks := (State.settleWith_calm_marks false hcalm').trans (State.marks_of_aside (State.send_aside _ _ w))
      rw [State.settle, State.access_of_marks hmarks, hw]
      exact putSlot_get_same _ _ _
    · rw [hclients, hw]
      exact congrArg (List.filter _) hheard
    · rw [hclients, hw]
      exact congrArg (List.filter _) hrefusals
    · have hw' : w.pli = s.pli ∧ w.cfg = s.cfg ∧ w.store = s.store := by
        rw [hw]
        exact ⟨hpli, hcfg, hstore⟩
      exact (State.settle_grows _).mem_tx (State.send_mem_of hw'.1 hw'.2.1 hw'.2.2 _ _ hlo hhi htx)
  · have hslot : u.takeSlot = (none, u) := State.takeSlot_full hheld
    rw [hexec, State.associateNew_refused rate steerable hslot, State.settle_of_ev hm]
    · rfl
    · rfl

end Sys2Proof.Machine
end

section
/-! SUPPORT. Proofs: flows that stand to the end of an event, and an ASSOCIATE of a client with a record (O23). -/

namespace Sys2Proof.Machine

/-! ### Flows that stand to the end of an event -/

/-- The flows of a client name the slot of its record (R21, R102). -/
theorem State.AirtimeKept.slot_eq {s : State} {i : Fin 64} {r : ClientRecord} {j : Fin 128} {f : FlowRecord}
    (k : s.AirtimeKept) (hr : s.record i = some r) (hf : s.flow j = .used f) (hc : f.client = r.client) : f.slot = i := by
  obtain ⟨q, hq, hqc⟩ := k.owned j f hf
  exact k.oneRecord _ _ _ _ hq hr (hqc.trans hc)

/-- A flow that does not wait is not tested. -/
theorem retested_standing {j : Fin 128} {f : FlowRecord} (hst : f.state ≠ .waiting) : Retested fun u => u.flow j = .used f where
  same {_ _} hg h := (State.flow_of_gist hg j).trans h
  tests u k g hk hg h := by
    have hkj : k ≠ j := fun e => by
      rw [e, h] at hk
      cases hk
      exact hst hg
    exact (State.testFlow_other hkj).trans h

/-- A flow that waits with reason CAP for a client whose access is not OPEN is as its test leaves it (R107). -/
theorem retested_capped {j : Fin 128} {f : FlowRecord} {r : ClientRecord} (hst : f.state = .waiting) (hwhy : f.reason = some .cap)
    (hp : r.state ≠ .provisional) (ha : r.access ≠ .opened) :
    Retested fun u => u.record f.slot = some r ∧ u.flow j = .used f where
  same {_ _} hg h := ⟨(State.record_of_gist hg _).trans h.1, (State.flow_of_gist hg j).trans h.2⟩
  tests u k g hk hg h := by
    have hrec : (u.testFlow k).record f.slot = some r := by
      rw [State.record, State.testFlow_clients]
      exact h.1
    refine ⟨hrec, ?_⟩
    by_cases hkj : k = j
    · subst hkj
      rw [State.testFlow_used h.2 h.1, State.flow_putFlow_same, State.tested_capped _ hp ha, ← hst, ← hwhy]
    · exact (State.testFlow_other hkj).trans h.2

/-! ### The flows of an ARRIVING client that associates (R115) -/

/-- What R115 makes of a RESERVED flow when its client arrives. -/
def FlowRecord.settled (f : FlowRecord) (opened : Prop) [Decidable opened] (now : Nat) : FlowRecord :=
  if opened then { f with state := .admitted, classifiedAt := some now, admittedAt := some now, lastActivity := now }
  else { f with state := .waiting, reason := some .cap, classifiedAt := some now, lastActivity := now }

section
variable {s : State} {j : Fin 128} {f : FlowRecord}

theorem State.settleFlow_eq (opened : Bool) (x : Fin 128 × FlowRecord) :
    s.settleFlow opened x = s.putFlow x.1 (.used (x.2.settled (opened = true) s.now)) := by
  cases opened <;> rfl

theorem State.settleReserved_flow {r : ClientRecord} (hf : s.flow j = .used f) (hc : f.client = r.client)
    (hst : f.state = .reserved) : (s.settleReserved r).flow j = .used (f.settled (r.access = .opened) s.now) := by
  have hopen : ∀ n, f.settled ((r.access == .opened) = true) n = f.settled (r.access = .opened) n := fun n => by
    simp only [FlowRecord.settled, beq_iff_eq]
  have hnow : ∀ (x : Fin 128 × FlowRecord) (u : State), u.now = s.now → (u.settleFlow (r.access == .opened) x).now = s.now :=
    fun x u hu => (State.putFlow_same _ _ u).2.1.trans hu
  have hmem : (j, f) ∈ s.flowsWhere fun f => f.client == r.client && f.state == .reserved :=
    State.mem_flowsWhere.mpr ⟨hf, by simp [hc, hst]⟩
  have hother : ∀ (x : Fin 128 × FlowRecord) (u : State) k, x.1 ≠ k → (u.settleFlow (r.access == .opened) x).flow k = u.flow k :=
    fun x u k hk => State.flow_putFlow_other _ _ _ _ hk
  refine walkFlows_turn (P := fun u => u.now = s.now) (Q := fun _ => True)
    (R := fun u => u.flow j = .used (f.settled (r.access = .opened) s.now)) hother (fun x u _ _ => hnow x u) hmem
    (fun u _ _ hu => ?_) (fun y u hy _ _ hu => (hother y u j hy).trans hu)
    (fun y hy => ⟨(State.mem_flowsWhere.mp hy).1, trivial⟩) (s.flowsWhere_distinct _) rfl
  rw [State.settleFlow_eq, State.flow_putFlow_same, hopen, hu]

/-- A flow settled as its client's access says is as the end of the event leaves it. -/
theorem State.settled_stands {r : ClientRecord} {opened : Prop} [Decidable opened] {now : Nat} (hc : s.Calm)
    (hf : s.flow j = .used (f.settled opened now)) (hr : s.record f.slot = some r) (hp : r.state ≠ .provisional)
    (ha : r.access = .opened ↔ opened) : s.settle.flow j = .used (f.settled opened now) := by
  by_cases ho : opened
  · have hset : f.settled opened now = _ := if_pos ho
    rw [hset] at hf ⊢
    exact (retested_standing (by simp)).settleWith_calm false hc hf
  · have hset : f.settled opened now = _ := if_neg ho
    rw [hset] at hf ⊢
    exact ((retested_capped (f := { f with
      state := .waiting, reason := some .cap, classifiedAt := some now, lastActivity := now }) rfl rfl hp
      (mt ha.mp ho)).settleWith_calm false hc ⟨hr, hf⟩).2

theorem State.settleReserved_clients (r : ClientRecord) : (s.settleReserved r).clients = s.clients :=
  walk_same State.clients _ (fun _ u => (State.putFlow_same _ _ u).2.2.2.2.2.2.1) _ s

/-- What working out a client's access does (R94, R112): a property that stands when the access is put in the record, when one of
the client's ADMITTED flows is made to wait, and when one of its flows that waits is tested, stands. -/
theorem State.recompute_of {P : State → Prop} {i : Fin 64}
    (hput : ∀ r, s.record i = some r → P ((s.putRecord i { r with access := s.accessOf r }).setAccessMark i true))
    (hcap : ∀ r, s.record i = some r → ∀ (u : State) (k : Fin 128) (g : FlowRecord), u.flow k = .used g →
      g.client = r.client ∧ g.state = .admitted → P u →
      P (u.putFlow k (.used { g with state := .waiting, reason := some .cap, holdUntil := none })))
    (htest : ∀ r, s.record i = some r → ∀ (u : State) (k : Fin 128) (g : FlowRecord), u.flow k = .used g →
      g.client = r.client ∧ g.state = .waiting → P u → P (u.testFlow k)) (hs : P s) : P (s.recompute i) := by
  unfold State.recompute
  split
  · rename_i r hr
    split
    · simp only
      split
      · exact hs
      · exact State.accessChanged_of _ _ (hcap r hr) (htest r hr) (hput r hr)
    · exact hs
  · exact hs

/-- Working out a client's access changes neither a flow that is neither ADMITTED nor WAITING, nor one of another client (R112). -/
theorem State.recompute_standing {i : Fin 64} (hf : s.flow j = .used f)
    (h : (f.state ≠ .admitted ∧ f.state ≠ .waiting) ∨ ∀ r, s.record i = some r → r.client ≠ f.client) :
    (s.recompute i).flow j = .used f := by
  have hkj : ∀ {r : ClientRecord} {u : State} {k : Fin 128} {g : FlowRecord}, s.record i = some r → u.flow k = .used g →
      u.flow j = .used f → g.client = r.client → g.state = .admitted ∨ g.state = .waiting → k ≠ j := fun hr hk hu hc hg e => by
    rw [e, hu] at hk
    cases hk
    rcases h with h | h
    · exact hg.elim h.1 h.2
    · exact h _ hr hc.symm
  refine State.recompute_of (P := fun u => u.flow j = .used f) (fun _ _ => hf) (fun r hr u k g hk hg hu => ?_)
    (fun r hr u k g hk hg hu => ?_) hf
  · exact (State.flow_putFlow_other _ _ _ _ (hkj hr hk hu hg.1 (.inl hg.2))).trans hu
  · exact (State.testFlow_other (hkj hr hk hu hg.1 (.inr hg.2))).trans hu

end

/-! ### The client's record (R26 to R28) -/

section
variable {s : State} {c : ClientId} {i : Fin 64} {r : ClientRecord} (rate : Nat) (steerable : Bool)

theorem State.takeAssociate_known (tag : Tag) {b : List Byte} (h : s.Holds (clientField b 0) i r) :
    s.takeAssociate tag b =
      (s.associateKnown i r (max 6 (min (field b 6 2) 2400)) (field b 8 1 != 0)).settle := by
  simp only [State.takeAssociate, h.1, h.2]

theorem State.associateKnown_here (h : r.state ≠ .departed) (h' : r.state ≠ .arriving) :
    s.associateKnown i r rate steerable = s.putRecord i { r with linkRate := rate } := by
  unfold State.associateKnown
  split
  all_goals first | rfl | contradiction

end

/-! ### The record and its access (R94) -/

section
variable {s : State} {i : Fin 64} {q : ClientRecord}

/-- A record put in a slot and its access worked out: it stands there with that access, and the other slots are as before. -/
theorem State.record_putRecord_recompute (hq : q.state ≠ .departed) (k : Fin 64) :
    ((s.putRecord i q).recompute i).record k = if i = k then some { q with access := s.accessOf q } else s.record k := by
  rw [State.record_recompute, State.record_putRecord_same, State.record_putRecord]
  by_cases hk : i = k
  · rw [if_pos hk, if_pos hk, Option.map_some, if_pos (ClientRecord.held_iff.mpr hq)]
    rfl
  · rw [if_neg hk, if_neg hk, if_neg hk]

/-- The end of the event of a client that associates: its ACCESS mark is set and it is not heard any more, whatever frame is
sent. -/
theorem State.associated_ends {u w : State} (c : ClientId) (hu : u.Calm) (hw : w.aside = ((u.setAccessMark i true).forgetHeard c).aside) :
    (∀ k, w.settle.record k = u.record k) ∧ w.settle.port.dirty.access[i] = true ∧
      ∀ e ∈ w.settle.clients.heard, e.client ≠ c := by
  have hclients : w.clients = ((u.setAccessMark i true).forgetHeard c).clients := State.clients_of_aside hw
  have hcalm : w.Calm := State.Calm.of_act hu ((congrArg State.act hw :))
  have hend : w.settle.clients = w.clients := State.settleWith_clients false hcalm
  refine ⟨fun k => ?_, ?_, fun e he => ?_⟩
  · rw [State.record, hend, hclients]
    rfl
  · rw [State.settle, State.access_of_marks (State.settleWith_calm_marks false hcalm), State.access_of_marks (State.marks_of_aside hw)]
    exact putSlot_get_same _ _ _
  · rw [hend, hclients] at he
    simpa using (List.mem_filter.mp he).2

end

/-- Settles O23, by the state of the record. -/
theorem associateFindsARecord : Obligations.AssociateFindsARecord := by
  unfold Obligations.AssociateFindsARecord
  intro n m s i r ht hm hok h c rate now
  let u := s.clockTo n
  let steerable := field m.body 8 1 != 0
  have hold : u.Holds c i r := h
  have hexec : exec (.associate n m) s = .next (u.associateKnown i r rate steerable).settle :=
    congrArg Host.Outcome.next ((State.hostMessage_observed n ht rfl hok).trans (State.takeAssociate_known m.tag hold))
  have hclient : r.client = c := h.client_eq
  refine ⟨fun hdep harr => ?_, fun hst hcalm => ?_, fun hst hcalm hkept => ?_⟩
  · rw [hexec, State.associateKnown_here rate steerable hdep harr]
    exact congrArg Host.Outcome.next (State.settle_of_ev hm rfl)
  · let q := r.restored rate steerable now
    have hrecord := State.record_putRecord_recompute (s := u) (i := i) (q := q) nofun
    let v := (u.putRecord i q).recompute i
    have hbeside : v.beside = u.beside := (State.recompute_beside i _).trans (State.putRecord_beside i q u)
    have hvcalm : v.Calm := State.Calm.of_act (s := u) hcalm (State.act_of_beside hbeside)
    have hknown : u.associateKnown i r rate steerable = (v.setAccessMark i true).forgetHeard r.client := by
      simp only [State.associateKnown, hst]
      rfl
    obtain ⟨hrec, hmark, hheard⟩ := State.associated_ends (i := i) c hvcalm (w := (v.setAccessMark i true).forgetHeard c) rfl
    refine ⟨_, by rw [hexec, hknown, hclient], (hrec i).trans ((hrecord i).trans (if_pos rfl)), hmark, hheard, ?_, fun k hk => ?_⟩
    · have hcalm' : ((v.setAccessMark i true).forgetHeard c).Calm := hvcalm
      exact (State.pli_of_beside (State.settleWith_calm_same false hcalm').1).trans
        (State.pli_of_beside (s := u) (t := v) hbeside)
    · exact (hrec k).trans ((hrecord k).trans (if_neg (Ne.symm hk)))
  · let q := r.arrived rate steerable now
    let r1 : ClientRecord := { q with access := u.accessOf q }
    let v := (u.putRecord i q).recompute i
    let x := v.settleReserved r1
    let y := (x.setAccessMark i true).forgetHeard c
    have hrecord := State.record_putRecord_recompute (s := u) (i := i) (q := q) nofun
    have hmine : v.record i = some r1 := (hrecord i).trans (if_pos rfl)
    have hxrec : ∀ k, x.record k = v.record k := fun k => by rw [State.record, State.settleReserved_clients]; rfl
    have hbeside : x.beside = u.beside :=
      (State.settleReserved_beside r1 v).trans ((State.recompute_beside i _).trans (State.putRecord_beside i q u))
    have hnow : v.now = now := (State.still_parts (State.still_of_beside
      ((State.recompute_beside i _).trans (State.putRecord_beside i q u)))).1
    have hxcalm : x.Calm := State.Calm.of_act (s := u) hcalm (State.act_of_beside hbeside)
    have haside : (y.claim c).aside = y.aside := State.send_aside _ _ _
    have hknown : u.associateKnown i r rate steerable = y.claim c := by
      have hv : (u.putRecord i (r.arrived rate steerable u.now)).recompute i = v := rfl
      simp only [State.associateKnown, hst, hv, hmine, hclient]
      rfl
    obtain ⟨hrec, hmark, hheard⟩ := State.associated_ends (i := i) c hxcalm haside
    have hycalm : (y.claim c).Calm := State.Calm.of_act (s := y) hxcalm (congrArg State.act haside :)
    refine ⟨_, by rw [hexec, hknown], (hrec i).trans ((hxrec i).trans hmine), hmark, hheard, fun k hk => ?_, fun j f hf hc hres => ?_,
      fun hlo hhi htx => ?_⟩
    · exact (hrec k).trans ((hxrec k).trans ((hrecord k).trans (if_neg (Ne.symm hk))))
    · have hslot : f.slot = i := hkept.slot_eq h.2 hf (hc.trans hclient.symm)
      have hvf : v.flow j = .used f := State.recompute_standing (s := u.putRecord i q) hf (.inl (by simp [hres]))
      have hxf : x.flow j = .used (f.settled (r1.access = .opened) now) := by
        rw [← hnow]
        exact State.settleReserved_flow hvf (hc.trans hclient.symm) hres
      have hyf : (y.claim c).flow j = .used (f.settled (r1.access = .opened) now) :=
        (State.flow_of_gist (State.gist_of_aside haside) j).trans hxf
      show (y.claim c).settle.flow j = .used (f.settled (r1.access = .opened) now)
      refine State.settled_stands hycalm hyf (r := r1) ?_ nofun Iff.rfl
      rw [State.record_of_gist (State.gist_of_aside haside), hslot]
      exact (hxrec i).trans hmine
    · have hy : y.pli = x.pli ∧ y.cfg = x.cfg ∧ y.store = x.store := by
        simp only [y, State.forgetHeard_pli, State.forgetHeard_cfg, State.forgetHeard_store, State.setAccessMark_pli,
          State.setAccessMark_cfg, State.setAccessMark_store, and_self]
      exact (State.settle_grows (y.claim c)).mem_tx (State.send_mem_of (hy.1.trans (State.pli_of_beside hbeside))
        (hy.2.1.trans (State.cfg_of_beside hbeside)) (hy.2.2.trans (State.store_of_beside hbeside)) 0 (.claim c) hlo hhi htx)

end Sys2Proof.Machine
end

section
/-! SUPPORT. Proofs: an event that frees no share ends without a round, and the activity of a flow (O29). -/

namespace Sys2Proof.Machine

/-! ### An event that frees no share (R108) -/

theorem State.retest_unreleased {s : State} (h : s.ev.released = false) : s.retest = s := by
  simp [State.retest, h]

/-- In a calm part an event that frees no share leaves the Flow Table as it is. -/
theorem State.settleWith_calm_flows {s : State} (test : Bool) (hc : s.Calm) (h : s.ev.released = false) :
    (s.settleWith test).prio.flows = s.prio.flows := by
  have hpace : ∀ u : State, u.workPace.cutCredits.prio.flows = u.prio.flows := fun u => by
    unfold State.workPace
    split <;> rfl
  rw [State.settleWith_calm test hc, State.retest_unreleased h]
  show s.priorityEnd.prio.flows = s.prio.flows
  unfold State.priorityEnd
  rw [State.retest_unreleased h]
  split
  · exact hpace s
  · rfl

section
variable {s : State} {j : Fin 128} {x : FlowSlot}

theorem State.putFlow_released (h : (s.flow j).holdsShare = true → x.holdsShare = true) :
    (s.putFlow j x).ev.released = s.ev.released := by
  unfold State.putFlow
  simp only
  cases ho : (s.flow j).holdsShare
  · split <;> simp
  · rw [h ho]
    split <;> simp

/-- A flow put with the share held before leaves the view total. -/
theorem State.putFlow_viewTotal (h : x.heldShare = (s.flow j).heldShare) : (s.putFlow j x).viewTotal = s.viewTotal := by
  have hown := State.ownReserved_putFlow (s := s) (j := j) (x := x)
  have hfresh : (s.putFlow j x).freshPeers = s.freshPeers :=
    congrArg (fun p : PeerUnit => p.table.filter PeerEntry.fresh) (State.putFlow_same j x s).2.2.2.2.2.1
  rw [h, Nat.add_right_cancel_iff] at hown
  rw [State.viewTotal, State.viewTotal, hown, hfresh]

/-- The test of a flow reads the ceiling, the view total and the client's state and access (R107). -/
theorem State.tested_congr {s t : State} {r q : ClientRecord} (hc : t.cfg = s.cfg) (hv : t.viewTotal = s.viewTotal)
    (hst : q.state = r.state) (ha : q.access = r.access) (now : Nat) (f : FlowRecord) : t.tested now q f = s.tested now r f := by
  simp only [State.tested, hc, hv, hst, ha]

end

/-! ### The activity of a flow (R109) -/

/-- A flow that waits, was quiet for 10,000 ms and is held back by no hold and no missing context (R109). -/
def FlowRecord.Quiet (f : FlowRecord) (now : Nat) : Prop :=
  f.state = .waiting ∧ f.lastActivity + 10000 ≤ now ∧ f.holdUntil = none ∧ f.reason ≠ some .context

/-- A flow whose activity renews it, no more (R109). -/
def FlowRecord.Renewed (f : FlowRecord) (now : Nat) : Prop :=
  f.state = .sampling ∨ f.state = .admitted ∨ f.state = .standard ∨ f.state = .bulk ∨ (f.state = .waiting ∧ ¬f.Quiet now)

section
variable {s : State} {j : Fin 128} {f : FlowRecord}

theorem FlowRecord.quiet_iff {now : Nat} (h : f.state = .waiting) :
    (!f.recent now && f.holdUntil.isNone && f.reason != some .context) = true ↔ f.Quiet now := by
  have hquiet : f.recent now = false ↔ f.lastActivity + 10000 ≤ now := by
    rw [FlowRecord.recent, decide_eq_false_iff_not, not_lt]
    rfl
  simp [FlowRecord.Quiet, h, hquiet, and_assoc]

theorem State.flowActivity_renews (hf : s.flow j = .used f) (h : f.Renewed s.now) :
    s.flowActivity j = s.putFlow j (.used { f with lastActivity := s.now }) := by
  simp only [State.flowActivity, hf]
  rcases h with h | h | h | h | ⟨h, hq⟩
  · simp only [h]
  · simp only [h]
  · simp only [h]
  · simp only [h]
  · simp only [h]
    rw [if_neg (mt (FlowRecord.quiet_iff h).mp hq)]

theorem State.flowActivity_tests (hf : s.flow j = .used f) (h : f.state = .idle ∨ f.Quiet s.now) :
    s.flowActivity j = (s.putFlow j (.used { f with lastActivity := s.now })).testFlow j := by
  simp only [State.flowActivity, hf]
  rcases h with h | h
  · simp only [h]
  · simp only [h.1]
    rw [if_pos ((FlowRecord.quiet_iff h.1).mpr h)]

theorem State.flowActivity_reserved (hf : s.flow j = .used f) (h : f.state = .reserved) : s.flowActivity j = s := by
  simp only [State.flowActivity, hf, h]

/-- The flow that activity puts to the test holds no share before it, so it comes out as R107 says of the state it was in. -/
theorem State.flowActivity_tested {r : ClientRecord} (hf : s.flow j = .used f) (h : f.state = .idle ∨ f.Quiet s.now)
    (hr : s.record f.slot = some r) :
    (s.flowActivity j).flow j = .used (s.tested s.now r { f with lastActivity := s.now }) ∧
      (s.flowActivity j).ev.released = s.ev.released := by
  let g : FlowRecord := { f with lastActivity := s.now }
  let v := s.putFlow j (.used g)
  have hsame := State.putFlow_same j (.used g) s
  have hshare : f.holdsShare = false := by
    unfold FlowRecord.holdsShare
    rcases h with h | h
    · rw [h]
    · rw [h.1]
  have hv : v.flow j = .used g := State.flow_putFlow_same _ _ _
  have hvr : v.record g.slot = some r := by
    show v.clients.table[g.slot] = some r
    rw [hsame.2.2.2.2.2.2.1]
    exact hr
  have htotal : v.viewTotal = s.viewTotal := State.putFlow_viewTotal (by rw [hf]; rfl)
  have htested : v.tested v.now r g = s.tested s.now r g := by
    rw [State.tested_congr hsame.2.2.2.1 htotal rfl rfl, hsame.2.1]
  rw [State.flowActivity_tests hf h, State.testFlow_used hv hvr, State.flow_putFlow_same, htested]
  refine ⟨rfl, ?_⟩
  rw [State.putFlow_released, State.putFlow_released]
  · rw [hf]
    exact fun hh => absurd hh (by simp [FlowSlot.holdsShare, hshare])
  · rw [hv]
    exact fun hh => absurd hh (by
      have hgshare : g.holdsShare = false := hshare
      simp [FlowSlot.holdsShare, hgshare])

theorem State.flowActivity_renewed (hf : s.flow j = .used f) (h : f.Renewed s.now) :
    (s.flowActivity j).flow j = .used { f with lastActivity := s.now } ∧ (s.flowActivity j).ev.released = s.ev.released := by
  rw [State.flowActivity_renews hf h]
  refine ⟨State.flow_putFlow_same _ _ _, State.putFlow_released ?_⟩
  rw [hf]
  exact id

/-- The activity of a flow frees no share. -/
theorem State.flowActivity_released {r : ClientRecord} (hf : s.flow j = .used f) (hr : s.record f.slot = some r) :
    (s.flowActivity j).ev.released = s.ev.released := by
  by_cases htest : f.state = .idle ∨ f.Quiet s.now
  · exact (State.flowActivity_tested hf htest hr).2
  · by_cases hrenew : f.Renewed s.now
    · exact (State.flowActivity_renewed hf hrenew).2
    · have hst : f.state = .reserved := by
        rw [not_or] at htest
        unfold FlowRecord.Renewed at hrenew
        cases h : f.state <;> simp_all
      rw [State.flowActivity_reserved hf hst]

theorem State.flowActivity_other {k : Fin 128} (h : j ≠ k) : (s.flowActivity j).flow k = s.flow k := by
  have hput : ∀ x, (s.putFlow j x).flow k = s.flow k := fun x => State.flow_putFlow_other _ _ _ _ h
  have htest : ∀ x, ((s.putFlow j x).testFlow j).flow k = s.flow k := fun x => (State.testFlow_other h).trans (hput x)
  unfold State.flowActivity
  repeat' split
  all_goals first | rfl | exact hput _ | exact htest _

theorem State.flowActivity_clients : (s.flowActivity j).clients = s.clients := by
  have hput : ∀ x, (s.putFlow j x).clients = s.clients := fun x => (State.putFlow_same _ _ s).2.2.2.2.2.2.1
  unfold State.flowActivity
  repeat' split
  all_goals first | rfl | exact hput _ | exact (State.testFlow_clients _ _).trans (hput _)

end

section
variable {s v : State} {j : Fin 128} (tag : Tag) {b : List Byte}

theorem State.takeFlowActive_some (hnote : s.noteActivity (clientField b 0) = v)
    (h : v.findFlow (clientField b 0) (digestField b 6) = some j) : s.takeFlowActive tag b = (v.flowActivity j).settle := by
  simp only [State.takeFlowActive, hnote, h]

theorem State.takeFlowActive_none (hnote : s.noteActivity (clientField b 0) = v)
    (h : v.findFlow (clientField b 0) (digestField b 6) = none) : s.takeFlowActive tag b = v := by
  simp only [State.takeFlowActive, hnote, h]

end

/-- Settles O29. -/
theorem flowActivityRenewsOrTests : Obligations.FlowActivityRenewsOrTests := by
  unfold Obligations.FlowActivityRenewsOrTests
  intro n m s ht hm hok c d now
  let u := s.clockTo n
  have hexec : exec (.flowActive n m) s = .next (u.takeFlowActive m.tag m.body) :=
    congrArg Host.Outcome.next (State.hostMessage_observed n ht rfl hok)
  have hsettle : ∀ v : State, v.ev = u.ev → v.settle = v := fun v hv => State.settle_of_ev hm hv
  refine ⟨fun i r h hr => ⟨fun hnone => ?_, fun j f hfind hf hslot hcalm => ?_⟩, fun i r h hr hkept hent => ?_,
    fun hclient hnone => ?_⟩
  · have hnote : u.noteActivity c = u.putRecord i { r with active := true } := State.noteActivity_here h hr
    exact hexec.trans (congrArg Host.Outcome.next (State.takeFlowActive_none m.tag hnote hnone))
  · let v := u.putRecord i { r with active := true }
    have hnote : u.noteActivity c = v := State.noteActivity_here h hr
    have htake : u.takeFlowActive m.tag m.body = (v.flowActivity j).settle := State.takeFlowActive_some m.tag hnote hfind
    have hvf : v.flow j = .used f := hf
    have hvr : v.record f.slot = some { r with active := true } := by rw [hslot, State.record_putRecord_same]
    have hcalm' : (v.flowActivity j).Calm :=
      State.Calm.of_act (s := v) hcalm (State.act_of_beside (State.flowActivity_beside j v))
    have hclients : (v.flowActivity j).settle.clients = v.clients :=
      (State.settleWith_clients false hcalm').trans State.flowActivity_clients
    have hrec : ∀ k, (v.flowActivity j).settle.record k = v.record k := fun k => by rw [State.record, hclients]; rfl
    have hev : v.ev.released = false := congrArg EventMarks.released hm
    have hreleased : (v.flowActivity j).ev.released = false := (State.flowActivity_released hvf hvr).trans hev
    have hflow : ∀ k, (v.flowActivity j).settle.flow k = (v.flowActivity j).flow k := fun k => by
      rw [State.flow, State.settle, State.settleWith_calm_flows false hcalm' hreleased]
      rfl
    refine ⟨_, hexec.trans (congrArg Host.Outcome.next htake), (hrec i).trans (State.record_putRecord_same _ _ _), fun k hk => ?_,
      fun k hk => ?_, fun hrenew => ?_, fun htest => ?_⟩
    · exact (hrec k).trans (State.record_putRecord_other _ _ _ _ (Ne.symm hk))
    · exact (hflow k).trans (State.flowActivity_other (Ne.symm hk))
    · exact (hflow j).trans (State.flowActivity_renewed hvf hrenew).1
    · have htested : v.tested v.now { r with active := true } { f with lastActivity := v.now } =
          s.tested now r { f with lastActivity := now } := State.tested_congr rfl rfl rfl rfl _ _
      rw [hflow, ← htested]
      exact (State.flowActivity_tested hvf htest hvr).1
  · have hnote : u.noteActivity c = u := State.noteActivity_away h hr
    cases hfind : u.findFlow c d with
    | none => exact hexec.trans (congrArg Host.Outcome.next (State.takeFlowActive_none m.tag hnote hfind))
    | some j =>
      obtain ⟨f, hf, hfc, -⟩ := State.findFlow_used hfind
      have hslot : f.slot = i := hkept.slot_eq h.2 hf (hfc.trans h.client_eq.symm)
      have hrec : s.record f.slot = some r := by rw [hslot]; exact h.2
      have harr : r.state = .arriving := hr.resolve_right (hent.departed j f r hf hrec)
      rw [hexec, State.takeFlowActive_some m.tag hnote hfind, State.flowActivity_reserved hf ((hent.reserved j f r hf hrec).mpr harr),
        hsettle u rfl]
  · have hnote : u.noteActivity c = u := State.noteActivity_unknown hclient
    exact hexec.trans (congrArg Host.Outcome.next (State.takeFlowActive_none m.tag hnote hnone))

end Sys2Proof.Machine
end

section
/-! SUPPORT. Proofs: the checks of R53 and R54 that an OFFER passes or fails, and the OFFERs declined (O18). -/

namespace Sys2Proof.Machine

/-! ### The checks of R53 -/

theorem Handover.inRange_iff {h : Handover} : h.inRange = true ↔ h.Sound := by
  unfold Handover.inRange Handover.Sound
  simp only [CarriedFlow.inRange, Bool.and_eq_true, decide_eq_true_eq, List.all_eq_true, and_assoc]
  exact Iff.rfl

theorem accessOfCode_some {n : Nat} (h : n ≤ 3) : ∃ a, accessOfCode n = some a := by
  interval_cases n <;> exact ⟨_, rfl⟩

theorem accessOfCode_none {n : Nat} (h : 3 < n) : accessOfCode n = none := by
  match n with
  | 0 | 1 | 2 | 3 => omega
  | _ + 4 => rfl

/-! ### A client's DEPARTED record, released (R54) -/

section
variable {s : State} {c : ClientId} {i : Fin 64} {r : ClientRecord}

theorem State.releaseDeparted_other (h : ∀ i r, s.Holds c i r → r.state ≠ .departed) : s.releaseDeparted c = s := by
  unfold State.releaseDeparted
  split
  · rename_i i hi
    split
    · rename_i r hr
      rw [if_neg (h i r ⟨hi, hr⟩)]
    · rfl
  · rfl

theorem State.releaseDeparted_unknown (h : s.findClient c = none) : s.releaseDeparted c = s := by
  simp only [State.releaseDeparted, h]

theorem State.releaseDeparted_departed (h : s.Holds c i r) (hr : r.state = .departed) : s.releaseDeparted c = s.deleteSlot i := by
  simp only [State.releaseDeparted, h.1, h.2, hr, if_true]

/-- Once the one record of a client is deleted it has none (R21). -/
theorem State.OneRecordEach.findClient_deleted (k : s.OneRecordEach) (h : s.Holds c i r) : (s.deleteSlot i).findClient c = none := by
  rw [State.findClient, List.find?_eq_none]
  intro j _
  rw [show (s.deleteSlot i).clients.table[j] = (s.deleteSlot i).record j from rfl, State.record_deleteSlot]
  unfold slotHolds
  split
  · rename_i q hq
    split at hq
    · cases hq
    · rename_i hij
      rw [beq_iff_eq]
      exact fun hc => hij (k i j r q h.2 hq (h.client_eq.trans hc.symm))
  · exact Bool.false_ne_true

/-- A DEPARTED client has no flow (R30). -/
theorem State.FlowsEntitled.departed_flowless (e : s.FlowsEntitled) (k : s.AirtimeKept) (h : s.record i = some r)
    (hr : r.state = .departed) : ∀ j f, s.flow j = .used f → f.client ≠ r.client := fun j f hf hc =>
  e.departed j f r hf (by rw [k.slot_eq h hf hc]; exact h) hr

/-- A record without flows deleted leaves the Flow Table and frees no share. -/
theorem State.deleteSlot_flowless (h : s.record i = some r) (hno : ∀ j f, s.flow j = .used f → f.client ≠ r.client) :
    (s.deleteSlot i).prio = s.prio ∧ (s.deleteSlot i).ev = { s.ev with departed := true } := by
  have hnone : s.removeClientFlows r.client = s := by
    have hnil : (s.flowsWhere fun f => f.client == r.client) = [] := List.eq_nil_iff_forall_not_mem.mpr fun x hx => by
      obtain ⟨hf, hc⟩ := State.mem_flowsWhere.mp hx
      exact hno _ _ hf (beq_iff_eq.mp hc)
    unfold State.removeClientFlows
    rw [hnil]
    rfl
  rw [State.deleteSlot_eq h, hnone]
  exact ⟨rfl, rfl⟩

end

/-! ### The checks of R54, one by one -/

section
variable {s : State} {h : Handover} {i : Fin 64} {r : ClientRecord}

theorem ActState.leaving_iff : s.act.state.leaving = true ↔ s.Leaving := by
  unfold State.Leaving
  cases s.act.state <;> simp [ActState.leaving]

theorem State.recordIs_of_holds {c : ClientId} (hr : s.Holds c i r) (p : ClientRecord → Bool) : s.recordIs c p = p r := by
  simp only [State.recordIs, State.recordOf, hr.1, hr.2]

theorem State.recordIs_unknown {c : ClientId} (hn : s.findClient c = none) (p : ClientRecord → Bool) : s.recordIs c p = false := by
  simp only [State.recordIs, State.recordOf, hn]

theorem State.hasRoom_iff :
    ((s.emptySlot.isNone && s.reclaimable.isNone) || decide (s.freeFlowCount < h.flows.length)) = false ↔ s.HasRoom h := by
  rw [Bool.or_eq_false_iff, decide_eq_false_iff_not, not_lt, State.HasRoom]
  refine and_congr_left fun _ => ?_
  rw [← Bool.not_eq_true, Bool.and_eq_true, Option.isNone_iff_eq_none, Option.isNone_iff_eq_none, State.emptySlot_none_iff,
    State.reclaimable_none_iff]
  constructor
  · intro hfull
    by_contra hroom
    push Not at hroom
    exact hfull ⟨fun k => (hroom k).1, fun k q hq => (hroom k).2 q hq⟩
  · rintro ⟨k, hk | ⟨q, hq, hst⟩⟩ ⟨hfull, hheld⟩
    · exact hfull k hk
    · exact hheld k q hq hst

theorem State.hearsWell_iff {c : ClientId} (hd : s.clients.heard.Pairwise fun x y => x.client ≠ y.client) :
    s.hearsWell c = true ↔ s.HearsWell c s.now := by
  have hlife : Config.sightingLife = 3000 := rfl
  unfold State.hearsWell State.HearsWell
  constructor
  · intro hw
    split at hw
    · rename_i e he
      have hc := List.find?_some he
      simp only [Bool.and_eq_true, decide_eq_true_eq, hlife] at hw
      exact ⟨e, List.mem_of_find?_eq_some he, beq_iff_eq.mp hc, hw⟩
    · cases hw
  · rintro ⟨e, he, rfl, hlevel, hlast⟩
    rw [find?_heard_of_mem hd he]
    simp [hlevel, hlast, hlife]

/-! The order in which they decline. -/

theorem State.declineReason_leaving (hl : s.Leaving) : s.declineReason h = some 0 := by
  rw [State.declineReason, if_pos (ActState.leaving_iff.mpr hl)]

section
variable (hl : ¬s.Leaving)
include hl

theorem State.declineReason_held (hr : s.Holds h.client i r) (hst : r.Here) : s.declineReason h = some 1 := by
  rw [State.declineReason, if_neg (mt ActState.leaving_iff.mp hl), State.recordIs_of_holds hr,
    if_pos (ClientRecord.associatedHere_iff.mpr hst)]

theorem State.declineReason_busy (hr : s.Holds h.client i r) (hst : r.state = .arriving) : s.declineReason h = some 2 := by
  rw [State.declineReason, if_neg (mt ActState.leaving_iff.mp hl), State.recordIs_of_holds hr, State.recordIs_of_holds hr,
    ClientRecord.not_associatedHere (.inl hst), if_neg Bool.false_ne_true, if_pos (beq_iff_eq.mpr hst)]

section
variable (hn : s.findClient h.client = none)
include hn

theorem State.declineReason_unknown : s.declineReason h =
    if (s.emptySlot.isNone && s.reclaimable.isNone) || s.freeFlowCount < h.flows.length then some 3
    else if !s.hearsWell h.client then some 4
    else if h.flows ≠ [] ∧ s.cfg.ceiling < s.viewTotal + (h.flows.map CarriedFlow.share).sum then some 5
    else none := by
  rw [State.declineReason, if_neg (mt ActState.leaving_iff.mp hl), State.recordIs_unknown hn, State.recordIs_unknown hn,
    if_neg Bool.false_ne_true, if_neg Bool.false_ne_true]

theorem State.declineReason_full (hroom : ¬s.HasRoom h) : s.declineReason h = some 3 := by
  rw [State.declineReason_unknown hl hn, if_pos (by rwa [← State.hasRoom_iff, Bool.not_eq_false] at hroom)]

variable (hroom : s.HasRoom h) (hd : s.clients.heard.Pairwise fun x y => x.client ≠ y.client)
include hroom hd

theorem State.declineReason_weak (hw : ¬s.HearsWell h.client s.now) : s.declineReason h = some 4 := by
  have hnot : s.hearsWell h.client = false := by rwa [← State.hearsWell_iff hd, Bool.not_eq_true] at hw
  rw [State.declineReason_unknown hl hn, State.hasRoom_iff.mpr hroom, hnot]
  rfl

variable (hw : s.HearsWell h.client s.now)
include hw

theorem State.declineReason_heard : s.declineReason h =
    if h.flows ≠ [] ∧ s.cfg.ceiling < s.viewTotal + (h.flows.map CarriedFlow.share).sum then some 5 else none := by
  rw [State.declineReason_unknown hl hn, State.hasRoom_iff.mpr hroom, (State.hearsWell_iff hd).mpr hw]
  rfl

end

end

end

/-! ### An OFFER taken -/

section
variable {s : State} {h : Handover} {sender : Nat}

theorem State.takeOffer_ignored (hbad : ¬h.Sound ∨ 3 < h.access) : s.takeOffer sender h = s := by
  unfold State.takeOffer
  split
  · rename_i a hr ha
    rcases hbad with hbad | hbad
    · exact absurd (Handover.inRange_iff.mp hr) hbad
    · rw [accessOfCode_none hbad] at ha
      cases ha
  · rfl

theorem State.takeOffer_declined {code : Nat} (hs : h.Sound) (ha : h.access ≤ 3)
    (hd : (s.releaseDeparted h.client).declineReason h = some code) :
    s.takeOffer sender h = (s.releaseDeparted h.client).send sender (.decline h.client code) := by
  obtain ⟨a, ha⟩ := accessOfCode_some ha
  simp only [State.takeOffer, Handover.inRange_iff.mpr hs, ha, hd]

theorem State.takeOffer_accepted {a : Access} (hs : h.Sound) (ha : accessOfCode h.access = some a)
    (hd : (s.releaseDeparted h.client).declineReason h = none) :
    s.takeOffer sender h = (s.releaseDeparted h.client).acceptOffer sender h a := by
  simp only [State.takeOffer, Handover.inRange_iff.mpr hs, ha, hd]

end

/-! ### The end of an event that only lets a client depart (R162) -/

section
variable {s : State}

theorem State.settle_departed (hr : s.ev.released = false) (ha : s.ev.admittedChanged = false) :
    s.settle = { (if s.ev.departed then s.endCheck else s) with ev := EventMarks.clear } := by
  have hend : s.priorityEnd = s := by
    unfold State.priorityEnd
    rw [State.retest_unreleased hr, if_neg (by rw [ha]; exact Bool.false_ne_true)]
  unfold State.settle State.settleWith
  simp only [State.retest_unreleased hr, ha, Bool.or_false, Bool.false_eq_true, if_false, hend]

theorem State.evacuateSlot_prio (i : Fin 64) : (s.evacuateSlot i).prio = s.prio := by
  unfold State.evacuateSlot
  split
  · split
    · simp only
      split
      · split
        · exact State.send_prio _ _ _
        · rfl
      · rfl
    · rfl
  · rfl

/-- A slot passed holds an ARRIVING record only when it did before: the pass makes OFFERING records of ASSOCIATED ones. -/
theorem State.evacuateSlot_arriving {i k : Fin 64} {q : ClientRecord} (h : (s.evacuateSlot i).record k = some q)
    (hq : q.state = .arriving) : s.record k = some q := by
  unfold State.evacuateSlot at h
  split at h
  · split at h
    · simp only at h
      split at h
      · split at h
        · rw [State.beginOffer_record] at h
          split at h
          · cases h
            cases hq
          · exact h
        · exact h
      · exact h
    · exact h
  · exact h

/-- Without ARRIVING records an evacuation changes no flow. -/
theorem evacuated_flows (flows : Vector FlowSlot 128) :
    Evacuated fun u => u.prio.flows = flows ∧ ∀ i r, u.record i = some r → r.state ≠ .arriving where
  same {u v} hg h := by
    refine ⟨(congrArg Gist.flows hg).trans h.1, fun i r hr => ?_⟩
    rw [State.record_of_gist hg] at hr
    exact h.2 i r hr
  drops u i r hr hst h := absurd hst (h.2 i r hr)
  passes u i h := by
    refine ⟨(congrArg PriorityUnit.flows (State.evacuateSlot_prio i)).trans h.1, fun k q hq hst => ?_⟩
    exact h.2 k q (State.evacuateSlot_arriving hq hst) hst

/-- An event that only lets a client depart leaves the Flow Table, when an evacuation finds no ARRIVING record. -/
theorem State.settle_departed_flows (hr : s.ev.released = false) (ha : s.ev.admittedChanged = false)
    (harr : s.act.state = .evacuating → ∀ i r, s.record i = some r → r.state ≠ .arriving) : s.settle.prio.flows = s.prio.flows := by
  rw [State.settle_departed hr ha]
  show (if s.ev.departed then s.endCheck else s).prio.flows = s.prio.flows
  split
  · by_cases hst : s.act.state = .evacuating
    · exact ((evacuated_flows s.prio.flows).endCheck ⟨rfl, harr hst⟩).1
    · rw [State.endCheck, if_neg (fun hh => hst hh.1)]
  · rfl

end

/-! ### The DEPARTED record of a client deleted for an OFFER (R54) -/

section
variable {s : State} {h : Handover} {i : Fin 64} {r : ClientRecord}

theorem Ebbs.of_gist {t : State} (h : t.gist = s.gist) : Ebbs s t :=
  .of_same (congrArg Gist.table h) (congrArg Gist.flows h) (congrArg Gist.peers h) (State.access_of_marks (congrArg Gist.marks h))
    (State.steer_of_marks (congrArg Gist.marks h))

/-- What the checks of R54 read but the records. -/
theorem State.checks_same {t : State} (hb : t.beside = s.beside) (hp : t.prio = s.prio) :
    t.act = s.act ∧ t.cfg = s.cfg ∧ t.now = s.now ∧ t.clients.heard = s.clients.heard ∧ t.freeFlowCount = s.freeFlowCount ∧
      t.viewTotal = s.viewTotal := by
  obtain ⟨hnow, -, -, -, -, htable, -, -, -, -, -, -, -, -, hheard, -⟩ := State.still_parts (State.still_of_beside hb)
  refine ⟨State.act_of_beside hb, State.cfg_of_beside hb, hnow, hheard, ?_, ?_⟩
  · rw [State.freeFlowCount, State.freeFlowCount, hp]
  · simp only [State.viewTotal, State.ownReserved, State.freshPeers, hp, htable]

variable (hs : s.Holds h.client i r) (hst : r.state = .departed) (hclear : s.MarksClear) (hkept : s.AirtimeKept)
  (hent : s.FlowsEntitled)
include hs hst hclear hkept hent

/-- An OFFER declined after the client's DEPARTED record was deleted. -/
theorem State.declined_released (sender code : Nat) :
    let t := ((s.deleteSlot i).send sender (.decline h.client code)).settle
    t.Released h.client i ∧ t.prio.flows = s.prio.flows ∧ (s.Calm → ∀ k, k ≠ i → t.record k = s.record k) ∧
      (1 ≤ s.cfg.nodeId → s.cfg.nodeId ≤ 63 → s.txCount < 12 →
        { sender := s.cfg.nodeId, dest := sender, body := .decline h.client code } ∈ t.pli.tx) := by
  intro t
  let v := s.deleteSlot i
  let w := v.send sender (.decline h.client code)
  have hclient : r.client = h.client := hs.client_eq
  have hbeside : v.beside = s.beside := State.deleteSlot_beside i s
  have hact : w.act = s.act := (State.send_act _ _ _).trans (State.act_of_beside hbeside)
  obtain ⟨hprio, hev⟩ := State.deleteSlot_flowless hs.2 (hent.departed_flowless hkept hs.2 hst)
  have hwev : w.ev = { EventMarks.clear with departed := true } := by
    rw [State.send_ev, hev, hclear]
  have hwaside : w.aside = v.aside := State.send_aside _ _ v
  have hwrec : ∀ k, w.record k = if i = k then none else s.record k := fun k =>
    (State.record_of_gist (State.gist_of_aside hwaside) k).trans (State.record_deleteSlot i k s)
  refine ⟨?_, ?_, fun hcalm k hk => ?_, fun hlo hhi htx => ?_⟩
  · have hv : v.Released h.client i := hclient ▸ State.deleteSlot_released hs.2
    exact (State.settleWith_ebbs false w).released ((Ebbs.of_gist (State.gist_of_aside hwaside)).released hv)
  · have hflows := State.settle_departed_flows (s := w) (by rw [hwev]; rfl) (by rw [hwev]; rfl) fun hleave k q hq => ?_
    · exact hflows.trans (congrArg PriorityUnit.flows ((v.send_prio _ _).trans hprio))
    · rw [hwrec] at hq
      split at hq
      · cases hq
      · exact hent.leaving (.inl (hact ▸ hleave)) k q hq
  · show w.settle.record k = s.record k
    rw [State.record, State.settle, State.settleWith_clients false (State.Calm.of_act hcalm hact), ← State.record, hwrec,
      if_neg (Ne.symm hk)]
  · exact (State.settle_grows w).mem_tx (State.send_mem_of (State.pli_of_beside hbeside) (State.cfg_of_beside hbeside)
      (State.store_of_beside hbeside) _ _ hlo hhi htx)

end

/-- Settles O18: each check declines when those before it pass, of the client's record as it is and of a DEPARTED one deleted. -/
theorem offersAreDeclinedInOrder : Obligations.OffersAreDeclinedInOrder := by
  unfold Obligations.OffersAreDeclinedInOrder
  intro n s f rest h hhead hclear hbody u declines
  have hexec : exec (.offer n) s = .next (u.takeOffer f.sender h).settle := by
    refine congrArg Host.Outcome.next ((State.onFrame_head _ n hhead (by rw [hbody]; rfl)).trans ?_)
    rw [State.onOffer, hbody]
  refine ⟨fun hbad => ?_, fun hs ha hnot => ?_, fun i r hs ha hr hst hkept hent => ?_⟩
  · rw [hexec, State.takeOffer_ignored hbad, State.settle_of_ev (s := u) hclear rfl]
  · have hrel : u.releaseDeparted h.client = u := State.releaseDeparted_other hnot
    have hdecline : ∀ code, u.declineReason h = some code → declines code := fun code hd => by
      rw [← hrel] at hd
      show exec (.offer n) s = _
      rw [hexec, State.takeOffer_declined hs ha hd, hrel]
      exact congrArg Host.Outcome.next (State.settle_of_ev (s := u) hclear (State.send_ev _ _ _))
    refine ⟨fun hl => hdecline 0 (State.declineReason_leaving hl), fun hl => ⟨fun i r hr hst => hdecline 1 ?_, fun i r hr hst =>
      hdecline 2 (State.declineReason_busy hl hr hst), fun hn => ⟨fun hroom => hdecline 3 (State.declineReason_full hl hn hroom),
      fun hroom hd hw => hdecline 4 (State.declineReason_weak hl hn hroom hd.heard hw), fun hroom hd hw hne hover => hdecline 5 ?_⟩⟩⟩
    · refine State.declineReason_held hl hr ?_
      have hdep := hnot i r hr
      unfold ClientRecord.Here
      cases h : r.state <;> simp_all
    · rw [State.declineReason_heard (s := u) hl hn hroom hd.heard hw]
      exact if_pos ⟨hne, hover⟩
  · let v := u.deleteSlot i
    have hru : u.Holds h.client i r := hr
    have hku : u.AirtimeKept := { hkept with }
    have heu : u.FlowsEntitled := { hent with }
    have hrel : u.releaseDeparted h.client = v := State.releaseDeparted_departed hru hst
    obtain ⟨hact, hcfg, hnow, hheard, hfree, hview⟩ := State.checks_same (State.deleteSlot_beside i u)
      (State.deleteSlot_flowless hru.2 (heu.departed_flowless hku hru.2 hst)).1
    have hn : v.findClient h.client = none := hku.oneRecord.findClient_deleted hru
    have hroom : h.flows.length ≤ s.freeFlowCount → v.HasRoom h := fun hle =>
      ⟨⟨i, .inl (by rw [State.record_deleteSlot, if_pos rfl])⟩, hle.trans_eq hfree.symm⟩
    have hleave : v.Leaving ↔ s.Leaving := by rw [State.Leaving, hact]; rfl
    have hwell : v.HearsWell h.client v.now ↔ s.HearsWell h.client (max s.now n) := by
      rw [State.HearsWell, hheard, hcfg, hnow]
      rfl
    have hdistinct : s.ListsDistinct → v.clients.heard.Pairwise fun x y => x.client ≠ y.client := fun hd => by
      rw [hheard]
      exact hd.heard
    intro declines
    have hdecline : ∀ code, v.declineReason h = some code → declines code := fun code hd => by
      refine ⟨_, hexec, ?_⟩
      rw [State.takeOffer_declined hs ha (by rw [hrel, hd]), hrel]
      exact State.declined_released hru hst hclear hku heu f.sender code
    refine ⟨fun hl => hdecline 0 (State.declineReason_leaving (hleave.mpr hl)), fun hl => ?_⟩
    have hl' : ¬v.Leaving := mt hleave.mp hl
    refine ⟨fun hlt => hdecline 3 (State.declineReason_full hl' hn fun hroom => ?_), fun hle hd hw => hdecline 4 ?_,
      fun hle hd hw hne hover => hdecline 5 ?_⟩
    · exact absurd (hroom.2.trans_eq hfree) (not_le.mpr hlt)
    · exact State.declineReason_weak hl' hn (hroom hle) (hdistinct hd) (mt hwell.mp hw)
    · rw [State.declineReason_heard hl' hn (hroom hle) (hdistinct hd) (hwell.mpr hw)]
      refine if_pos ⟨hne, ?_⟩
      rw [hcfg, hview]
      exact hover

end Sys2Proof.Machine
end

section
/-! SUPPORT. Proofs: the RESERVED flows of an accepted OFFER (R114), and the OFFERs accepted (O19). -/

namespace Sys2Proof.Machine

/-! ### Free flow slots -/

section
variable {s : State} {j : Fin 128} {x : FlowSlot}

theorem State.freeFlowSlot_free (h : s.freeFlowSlot = some j) : s.flow j = .free := by
  have hfree := List.find?_some h
  exact eq_of_beq hfree

theorem State.exists_freeFlowSlot (h : 0 < s.freeFlowCount) : ∃ j, s.freeFlowSlot = some j := by
  obtain ⟨x, hx⟩ := List.exists_mem_of_length_pos h
  obtain ⟨hmem, hfree⟩ := List.mem_filter.mp hx
  obtain ⟨k, hk, rfl⟩ := List.mem_iff_getElem.mp hmem
  have hlen : k < 128 := by simpa using hk
  refine Option.isSome_iff_exists.mp (List.find?_isSome.mpr ⟨⟨k, hlen⟩, List.mem_finRange _, ?_⟩)
  rwa [Vector.getElem_toList] at hfree

theorem State.freeFlowCount_putFlow (hj : s.flow j = .free) (hx : x ≠ .free) :
    (s.putFlow j x).freeFlowCount + 1 = s.freeFlowCount := by
  have hin : j.val < s.prio.flows.toList.length := by simp
  have hat : s.prio.flows.toList[j.val] = .free := (Vector.getElem_toList _).trans hj
  have hpos : 0 < s.prio.flows.toList.countP fun x => x == .free :=
    List.countP_pos_iff.mpr ⟨_, List.getElem_mem hin, by rw [hat]; rfl⟩
  have hset := List.countP_set (p := fun x => x == FlowSlot.free) (a := x) hin
  have hnot : (x == FlowSlot.free) = false := beq_eq_false_iff_ne.mpr hx
  rw [hat, beq_self_eq_true, if_pos rfl, hnot, if_neg Bool.false_ne_true] at hset
  rw [State.freeFlowCount, State.freeFlowCount, State.putFlow_prio_flows, putSlot, Vector.toList_set,
    ← List.countP_eq_length_filter, ← List.countP_eq_length_filter, hset]
  omega

theorem State.findFlow_none_iff {c : ClientId} {d : Digest} :
    s.findFlow c d = none ↔ ∀ j f, s.flow j = .used f → f.client = c → f.digest ≠ d := by
  rw [State.findFlow, Option.map_eq_none_iff, List.head?_eq_none_iff, List.eq_nil_iff_forall_not_mem]
  constructor
  · intro h j f hf hc hd
    exact h (j, f) (State.mem_flowsWhere.mpr ⟨hf, by simp [hc, hd]⟩)
  · intro h x hx
    obtain ⟨hf, hp⟩ := State.mem_flowsWhere.mp hx
    simp only [Bool.and_eq_true, beq_iff_eq] at hp
    exact h _ _ hf hp.1 hp.2

/-- The marks of an event that say that ADMITTED flows or held shares changed. -/
def EventMarks.flowMarks (e : EventMarks) : Bool × Bool := (e.released, e.admittedChanged)

/-- A free slot that takes a flow which is not ADMITTED changes no mark of the flows. -/
theorem State.putFlow_flowMarks (hj : s.flow j = .free) (hx : x.isAdmitted = false) :
    (s.putFlow j x).ev.flowMarks = s.ev.flowMarks := by
  unfold State.putFlow EventMarks.flowMarks
  simp only [hj, hx]
  split <;> simp [FlowSlot.holdsShare, FlowSlot.isAdmitted]

end

/-! ### The flows of an OFFER entered one by one (R114) -/

/-- The RESERVED flow made from a carried one. -/
def CarriedFlow.reserved (g : CarriedFlow) (i : Fin 64) (c : ClientId) (now : Nat) : FlowRecord := g.record i c .reserved none none now

/-- What the carried flows leave: each has its RESERVED flow, the flows before stand, and own reserved airtime takes on the shares. -/
structure Reserves (i : Fin 64) (c : ClientId) (now : Nat) (gs : List CarriedFlow) (s t : State) : Prop where
  enters : ∀ g ∈ gs, ∃ j, t.flow j = .used (g.reserved i c now)
  stands : ∀ j f, s.flow j = .used f → t.flow j = .used f
  own : t.ownReserved = s.ownReserved + (gs.map CarriedFlow.share).sum

/-- It reads the Flow Tables alone. -/
theorem Reserves.of_flows {i : Fin 64} {c : ClientId} {now : Nat} {gs : List CarriedFlow} {s t s' t' : State}
    (h : Reserves i c now gs s t) (hs : s'.prio.flows = s.prio.flows) (ht : t'.prio.flows = t.prio.flows) :
    Reserves i c now gs s' t' := by
  have hfs : ∀ j, s'.flow j = s.flow j := fun j => congrArg (fun v : Vector FlowSlot 128 => v[j]) hs
  have hft : ∀ j, t'.flow j = t.flow j := fun j => congrArg (fun v : Vector FlowSlot 128 => v[j]) ht
  refine ⟨fun g hg => ?_, fun j f hf => ?_, ?_⟩
  · obtain ⟨j, hj⟩ := h.enters g hg
    exact ⟨j, (hft j).trans hj⟩
  · exact (hft j).trans (h.stands j f ((hfs j).symm.trans hf))
  · rw [State.ownReserved, ht, ← State.ownReserved, h.own, State.ownReserved, State.ownReserved, hs]

section
variable {i : Fin 64} {c : ClientId} {now : Nat} {s : State} {g : CarriedFlow}

/-- One carried flow with a new digest takes a free slot. -/
theorem State.enterCarried_new (hnew : s.findFlow c g.digest = none) (hfree : 0 < s.freeFlowCount) :
    ∃ j, s.flow j = .free ∧
      s.enterCarried i c (fun g => g.record i c .reserved none none now) g = s.putFlow j (.used (g.reserved i c now)) := by
  obtain ⟨j, hj⟩ := State.exists_freeFlowSlot hfree
  refine ⟨j, State.freeFlowSlot_free hj, ?_⟩
  simp only [State.enterCarried, hnew, hj]
  rfl

theorem Reserves.enters_all {gs : List CarriedFlow} (hd : (gs.map CarriedFlow.digest).Nodup)
    (hnew : ∀ g ∈ gs, s.findFlow c g.digest = none) (hroom : gs.length ≤ s.freeFlowCount) :
    let t := walk gs (State.enterCarried i c fun g => g.record i c .reserved none none now) s
    Reserves i c now gs s t ∧ t.ev.flowMarks = s.ev.flowMarks := by
  induction gs generalizing s with
  | nil => exact ⟨⟨fun _ h => absurd h List.not_mem_nil, fun _ _ h => h, rfl⟩, rfl⟩
  | cons g gs ih =>
    obtain ⟨hgnew, hrest⟩ := List.forall_mem_cons.mp hnew
    obtain ⟨hgd, hd⟩ := List.nodup_cons.mp hd
    rw [List.length_cons] at hroom
    obtain ⟨j, hj, henter⟩ := State.enterCarried_new (i := i) (now := now) hgnew (by omega)
    obtain ⟨u, hu⟩ : ∃ u, u = s.putFlow j (.used (g.reserved i c now)) := ⟨_, rfl⟩
    have hsame : u.flow j = .used (g.reserved i c now) := hu ▸ State.flow_putFlow_same _ _ _
    have hother : ∀ k, j ≠ k → u.flow k = s.flow k := fun k hk => hu ▸ State.flow_putFlow_other _ _ _ _ hk
    have hunew : ∀ g' ∈ gs, u.findFlow c g'.digest = none := fun g' hg' => State.findFlow_none_iff.mpr fun k f hf hc => by
      by_cases hk : j = k
      · subst hk
        rw [hsame] at hf
        cases hf
        exact fun heq => hgd (List.mem_map.mpr ⟨g', hg', heq.symm⟩)
      · rw [hother k hk] at hf
        exact State.findFlow_none_iff.mp (hrest g' hg') k f hf hc
    have hcount : u.freeFlowCount + 1 = s.freeFlowCount := hu ▸ State.freeFlowCount_putFlow hj nofun
    have hown : u.ownReserved = s.ownReserved + g.share := by
      have hput := State.ownReserved_putFlow (s := s) (j := j) (x := .used (g.reserved i c now))
      rw [← hu, hj] at hput
      exact hput
    obtain ⟨hrec, hmarks⟩ := ih (s := u) hd hunew (by omega)
    rw [walk_cons, henter, ← hu]
    refine ⟨⟨fun g' hg' => ?_, fun k f hf => hrec.stands k f ?_, ?_⟩, hmarks.trans ?_⟩
    · rcases List.mem_cons.mp hg' with rfl | hg'
      · exact ⟨j, hrec.stands j _ hsame⟩
      · exact hrec.enters g' hg'
    · have hk : j ≠ k := fun e => by
        rw [← e, hj] at hf
        cases hf
      exact (hother k hk).trans hf
    · rw [hrec.own, hown, List.map_cons, List.sum_cons]
      omega
    · rw [hu]
      exact State.putFlow_flowMarks hj rfl

end

/-! ### An OFFER accepted in a slot (R55) -/

section
variable {i : Fin 64} {s : State}

/-- Without flows of the client, working out its access marks no event of the flows. -/
theorem State.recompute_ev {r : ClientRecord} (hr : s.record i = some r)
    (h : ∀ j f, s.flow j = .used f → f.client ≠ r.client) : (s.recompute i).ev = s.ev := by
  unfold State.recompute
  rw [hr]
  simp only
  split
  · split
    · rfl
    · rw [State.accessChanged_none]
      · rfl
      · exact h
  · rfl

theorem State.reserveFlows_clients (c : ClientId) (gs : List CarriedFlow) : (s.reserveFlows i c gs).clients = s.clients := by
  refine walk_same State.clients _ (fun g u => ?_) gs s
  unfold State.enterCarried
  split
  · rfl
  · split
    · exact (State.putFlow_same _ _ u).2.2.2.2.2.2.1
    · rfl

theorem State.acceptOffer_slot {x : State} {sender : Nat} {h : Handover} {a : Access} (hslot : s.takeSlot = (some i, x)) :
    s.acceptOffer sender h a = (((x.putRecord i (h.arriving a x.now)).recompute i).reserveFlows i h.client h.flows).send sender
      (.accept h.client) := by
  rw [State.acceptOffer, hslot]

/-- The end of an event that marks no change of the flows, in a part that is not EVACUATING. -/
theorem State.settle_unmarked (hm : s.ev.flowMarks = (false, false)) (ha : s.act.state ≠ .evacuating) :
    s.settle = { s with ev := EventMarks.clear } := by
  have hend : s.endCheck = s := by rw [State.endCheck, if_neg fun hh => ha hh.1]
  rw [State.settle_departed (congrArg Prod.fst hm) (congrArg Prod.snd hm), hend, ite_self]

/-- The record and the flows of an OFFER accepted in a slot, for a client without flows. -/
theorem State.accepted_ends {h : Handover} (a : Access) (sender : Nat) (hno : ∀ j f, s.flow j = .used f → f.client ≠ h.client)
    (hd : (h.flows.map CarriedFlow.digest).Nodup) (hroom : h.flows.length ≤ s.freeFlowCount)
    (hm : s.ev.flowMarks = (false, false)) (hact : s.act.state ≠ .evacuating) :
    let q := h.arriving a s.now
    let t := ((((s.putRecord i q).recompute i).reserveFlows i h.client h.flows).send sender (.accept h.client)).settle
    (∀ k, t.record k = if i = k then some { q with access := s.accessOf q } else s.record k) ∧
      Reserves i h.client s.now h.flows s t ∧
      (1 ≤ s.cfg.nodeId → s.cfg.nodeId ≤ 63 → s.txCount < 12 →
        { sender := s.cfg.nodeId, dest := sender, body := .accept h.client } ∈ t.pli.tx) := by
  intro q t
  obtain ⟨y, hy⟩ : ∃ y, y = (s.putRecord i q).recompute i := ⟨_, rfl⟩
  obtain ⟨z, hz⟩ : ∃ z, z = y.reserveFlows i h.client h.flows := ⟨_, rfl⟩
  obtain ⟨w, hw⟩ : ∃ w, w = z.send sender (.accept h.client) := ⟨_, rfl⟩
  have ht : t = w.settle := by rw [hw, hz, hy]
  have hput : (s.putRecord i q).record i = some q := State.record_putRecord_same _ _ _
  have hybeside : y.beside = s.beside := hy ▸ State.recompute_beside i _
  have hzbeside : z.beside = s.beside := hz ▸ (State.reserveFlows_beside i h.client h.flows y).trans hybeside
  have hynow : y.now = s.now := (State.still_parts (State.still_of_beside hybeside)).1
  have hyrec : ∀ k, y.record k = if i = k then some { q with access := s.accessOf q } else s.record k := fun k =>
    hy ▸ State.record_putRecord_recompute (fun hst : q.state = .departed => by cases hst) k
  have hyflows : y.prio.flows = s.prio.flows := hy ▸ State.recompute_flows hput hno
  have hyev : y.ev = s.ev := hy ▸ State.recompute_ev hput hno
  have hyflow : ∀ j, y.flow j = s.flow j := fun j => congrArg (fun v : Vector FlowSlot 128 => v[j]) hyflows
  have hyfree : y.freeFlowCount = s.freeFlowCount := by rw [State.freeFlowCount, hyflows]; rfl
  obtain ⟨hres, hzmarks⟩ : Reserves i h.client y.now h.flows y z ∧ z.ev.flowMarks = y.ev.flowMarks := by
    rw [hz]
    refine Reserves.enters_all hd (fun g _ => State.findFlow_none_iff.mpr fun j f hf hc => ?_) (hroom.trans_eq hyfree.symm)
    exact absurd hc (hno j f ((hyflow j).symm.trans hf))
  have hwmarks : w.ev.flowMarks = (false, false) := by rw [hw, State.send_ev, hzmarks, hyev, hm]
  have hwact : w.act.state ≠ .evacuating := by
    rw [hw, State.send_act, State.act_of_beside hzbeside]
    exact hact
  have hend : w.settle = { w with ev := EventMarks.clear } := State.settle_unmarked hwmarks hwact
  refine ⟨fun k => ?_, ?_, fun hlo hhi htx => ?_⟩
  · rw [ht, hend]
    show w.record k = _
    rw [State.record, hw, State.send_clients, hz, State.reserveFlows_clients, ← State.record, hyrec]
  · rw [← hynow]
    refine hres.of_flows hyflows.symm ?_
    rw [ht, hend]
    show w.prio.flows = z.prio.flows
    rw [hw, State.send_prio]
  · rw [ht, hw]
    exact (State.settle_grows _).mem_tx (State.send_mem_of (State.pli_of_beside hzbeside) (State.cfg_of_beside hzbeside)
      (State.store_of_beside hzbeside) _ _ hlo hhi htx)

end

/-! ### The slot the OFFER gets (R23, R54) -/

/-- The slot of an accepted OFFER, and the state in which its record is made: what was deleted for it had no flow. -/
structure State.Vacates (u : State) (c : ClientId) (i : Fin 64) (x : State) : Prop where
  slot : (u.releaseDeparted c).takeSlot = (some i, x)
  unknown : (u.releaseDeparted c).findClient c = none
  room : ∃ k, (u.releaseDeparted c).record k = none ∨ ∃ r, (u.releaseDeparted c).record k = some r ∧ r.state = .departed
  released : (u.releaseDeparted c).beside = u.beside ∧ (u.releaseDeparted c).prio = u.prio
  beside : x.beside = u.beside
  prio : x.prio = u.prio
  marks : x.ev.flowMarks = u.ev.flowMarks
  flowless : ∀ j f, u.flow j = .used f → f.client ≠ c
  others : ∀ k, k ≠ i → x.record k = if u.findClient c = some k then none else u.record k

section
variable {u : State} {c : ClientId} {i j : Fin 64} {q : ClientRecord} (hk : u.AirtimeKept)
include hk

/-- A client without a record has no flow (R102). -/
theorem State.AirtimeKept.unknown_flowless (hn : u.findClient c = none) : ∀ j f, u.flow j = .used f → f.client ≠ c := fun j f hf hc => by
  obtain ⟨r, hr, hrc⟩ := hk.owned j f hf
  exact State.findClient_none hn _ r hr (hrc.trans hc)

theorem State.vacates_empty (hn : u.findClient c = none) (hi : u.record i = none) (hlow : ∀ k, k < i → u.record k ≠ none) :
    u.Vacates c i u := by
  have hrel : u.releaseDeparted c = u := State.releaseDeparted_unknown hn
  refine ⟨?_, ?_, ⟨i, .inl ?_⟩, ?_, rfl, rfl, rfl, hk.unknown_flowless hn, fun k _ => ?_⟩
  · rw [hrel]
    exact State.takeSlot_lowest hi hlow
  · rwa [hrel]
  · rwa [hrel]
  · rw [hrel]
    exact ⟨rfl, rfl⟩
  · rw [hn, if_neg nofun]

variable (he : u.FlowsEntitled)
include he

theorem State.vacates_released (hq : u.Holds c j q) (hst : q.state = .departed) (hi : i = j ∨ u.record i = none)
    (hlow : ∀ k, k < i → k ≠ j ∧ u.record k ≠ none) : u.Vacates c i (u.deleteSlot j) := by
  have hrel : u.releaseDeparted c = u.deleteSlot j := State.releaseDeparted_departed hq hst
  have hno := he.departed_flowless hk hq.2 hst
  obtain ⟨hprio, hev⟩ := State.deleteSlot_flowless hq.2 hno
  have hrec : ∀ k, (u.deleteSlot j).record k = if j = k then none else u.record k := fun k => State.record_deleteSlot j k u
  refine ⟨?_, ?_, ⟨j, .inl ?_⟩, ?_, State.deleteSlot_beside j u, hprio, by rw [hev]; rfl, hq.client_eq ▸ hno, fun k _ => ?_⟩
  · rw [hrel]
    refine State.takeSlot_lowest ?_ fun k hk => ?_
    · rw [hrec]
      rcases hi with rfl | hi
      · exact if_pos rfl
      · rw [hi, ite_self]
    · rw [hrec, if_neg (Ne.symm (hlow k hk).1)]
      exact (hlow k hk).2
  · rw [hrel]
    exact hk.oneRecord.findClient_deleted hq
  · rw [hrel, hrec, if_pos rfl]
  · rw [hrel]
    exact ⟨State.deleteSlot_beside j u, hprio⟩
  · rw [hrec, hq.1]
    simp only [Option.some_inj]

theorem State.vacates_reclaimed {d : Nat} (hn : u.findClient c = none) (hfull : ∀ k, u.record k ≠ none) (hq : u.record i = some q)
    (hst : q.state = .departed) (hd : q.departure = some d) (hfirst : u.FirstDeparted i d) : u.Vacates c i (u.deleteSlot i) := by
  have hrel : u.releaseDeparted c = u := State.releaseDeparted_unknown hn
  obtain ⟨hprio, hev⟩ := State.deleteSlot_flowless hq (he.departed_flowless hk hq hst)
  refine ⟨?_, ?_, ⟨i, .inr ⟨q, ?_, hst⟩⟩, ?_, State.deleteSlot_beside i u, hprio, by rw [hev]; rfl, hk.unknown_flowless hn,
    fun k hki => ?_⟩
  · rw [hrel]
    exact State.takeSlot_reclaims hfull hq hst hd hfirst
  · rwa [hrel]
  · rwa [hrel]
  · rw [hrel]
    exact ⟨rfl, rfl⟩
  · rw [hn, if_neg nofun, State.record_deleteSlot, if_neg (Ne.symm hki)]

end

/-- Settles O19: whatever slot the record gets, the checks pass and the record and its flows are entered there. -/
theorem offersAreAccepted : Obligations.OffersAreAccepted := by
  unfold Obligations.OffersAreAccepted
  intro n s f rest h i a hhead hclear hkept hdist hbody hlo hhi hs ha hl hroom hw hshare hnodup hslot r
  let u := s.taking n rest
  have hku : u.AirtimeKept := { hkept with }
  obtain ⟨x, hx⟩ : ∃ x, u.Vacates h.client i x := by
    rcases hslot with ⟨hn, hi, hlow⟩ | ⟨hent, j, q, hq, hst, hi, hlow⟩ | ⟨hent, hn, hfull, q, d, hq, hst, hd, hfirst⟩
    · exact ⟨_, State.vacates_empty hku hn hi hlow⟩
    · exact ⟨_, State.vacates_released hku { hent with } hq hst hi hlow⟩
    · exact ⟨_, State.vacates_reclaimed hku { hent with } hn hfull hq hst hd hfirst⟩
  obtain ⟨v, hv⟩ : ∃ v, v = u.releaseDeparted h.client := ⟨_, rfl⟩
  obtain ⟨hact, hcfg, hnow, hheard, hfree, hview⟩ := State.checks_same hx.released.1 hx.released.2
  rw [← hv] at hact hcfg hnow hheard hfree hview
  have hpass : v.declineReason h = none := by
    have hl' : ¬v.Leaving := by rw [State.Leaving, hact]; exact hl
    have hroom' : v.HasRoom h := ⟨hv ▸ hx.room, hroom.2.trans_eq hfree.symm⟩
    have hdist' : v.clients.heard.Pairwise fun x y => x.client ≠ y.client := by rw [hheard]; exact hdist.heard
    have hw' : v.HearsWell h.client v.now := by rw [State.HearsWell, hheard, hcfg, hnow]; exact hw
    rw [State.declineReason_heard hl' (hv ▸ hx.unknown) hroom' hdist' hw', if_neg]
    rintro ⟨hne, hover⟩
    rw [hcfg, hview] at hover
    exact absurd (hshare.resolve_left hne) (not_le.mpr hover)
  have hexec : exec (.offer n) s = .next (u.takeOffer f.sender h).settle := by
    refine congrArg Host.Outcome.next ((State.onFrame_head _ n hhead (by rw [hbody]; rfl)).trans ?_)
    rw [State.onOffer, hbody]
  obtain ⟨hxact, hxcfg, hxnow, -, hxfree, -⟩ := State.checks_same hx.beside hx.prio
  obtain ⟨hrec, hres, htx⟩ := State.accepted_ends (s := x) (h := h) (i := i) a f.sender
    (fun j g hg => hx.flowless j g (by rwa [State.flow, hx.prio] at hg)) hnodup (hroom.2.trans_eq hxfree.symm)
    (hx.marks.trans (congrArg EventMarks.flowMarks hclear)) (by rw [hxact]; exact fun hst => hl (.inl hst))
  have hmade : h.arriving a x.now = r := by rw [hxnow]; rfl
  have haccess : x.accessOf r = s.accessOf r := State.accessOf_of_beside (s := u) hx.beside r
  have hres' : Reserves i h.client x.now h.flows s _ := hres.of_flows (congrArg PriorityUnit.flows hx.prio).symm rfl
  refine ⟨_, by rw [hexec, State.takeOffer_accepted hs ha (hv ▸ hpass), State.acceptOffer_slot hx.slot], ?_, fun k hk => ?_,
    fun g hg => ?_, hres'.stands, hres'.own, fun hroomtx => ?_⟩
  · rw [hrec, if_pos rfl, hmade, haccess]
  · rw [hrec, if_neg (Ne.symm hk)]
    exact hx.others k hk
  · obtain ⟨j, hj⟩ := hres'.enters g hg
    exact ⟨j, _, hj, rfl, rfl, rfl, rfl, rfl, rfl, rfl⟩
  · have hcount : x.txCount = s.txCount := by
      refine State.txCount_of (s := u) (State.pli_of_beside hx.beside) ?_
      simp only [State.heldPlaces, State.storeOps, State.store_of_beside hx.beside]
    rw [hxcfg, hcount] at htx
    exact htx hlo hhi hroomtx

end Sys2Proof.Machine
end

section
/-! SUPPORT. Proofs: the access state of a record by its windows and its allowance (R88 to R92; O36). -/

namespace Sys2Proof.Machine

theorem Span.activeAt_iff {w : Span} {weekday minute : Nat} : w.activeAt weekday minute = true ↔ w.ActiveAt weekday minute := by
  unfold Span.activeAt Span.marks Span.ActiveAt
  by_cases h1 : w.start < w.stop
  · simp [h1, Nat.lt_asymm h1]
  · by_cases h2 : w.stop < w.start <;> simp [h1, h2]

/-- A profile has an active window with an action. -/
def Profile.Active (p : Profile) (a : WindowAction) (weekday minute : Nat) : Prop :=
  ∃ w ∈ p.windows, w.action = a ∧ w.span.ActiveAt weekday minute

theorem Profile.hasActive_iff {p : Profile} {a : WindowAction} {weekday minute : Nat} :
    p.hasActive a weekday minute = true ↔ p.Active a weekday minute := by
  simp only [Profile.hasActive, Profile.Active, List.any_eq_true, Bool.and_eq_true, beq_iff_eq, Span.activeAt_iff]

/-- The counted figure of a record has reached the allowance (R90). -/
def Profile.Reached (p : Profile) (fallback : Nat) (r : ClientRecord) : Prop :=
  ∃ a, p.allowance = some a ∧ a ≤ if r.state = .provisional then max r.used (a - min a fallback) else r.used

theorem allowanceLine_iff {p : Profile} {fallback : Nat} {r : ClientRecord} :
    allowanceLine p fallback r = true ↔ p.Reached fallback r := by
  have hfigure : ∀ a, p.allowance = some a →
      countedFigure p fallback r = if r.state = .provisional then max r.used (a - min a fallback) else r.used := fun a ha => by
    unfold countedFigure fallbackFigure
    cases r.state <;> simp [ha]
  unfold allowanceLine Profile.Reached
  cases ha : p.allowance with
  | none => simp
  | some a => simp [hfigure a ha]

section
variable {s : State} {r : ClientRecord} {p : Profile}

theorem State.profileAt_of_getElem (h : s.sched.book.profiles[r.profile]? = some p) : s.sched.book.profileAt r.profile = p := by
  rw [Book.profileAt, List.getD_eq_getElem?_getD, h, Option.getD_some]

/-- At a known time the windows and the allowance give the access state (R91). -/
theorem State.accessOf_known (h : s.time.rank < 15) : s.accessOf r =
    accessByWindows (s.sched.book.profileAt r.profile) (allowanceLine (s.sched.book.profileAt r.profile) s.cfg.fallback r)
      (weekdayOf s.time.mesh) (minuteOf s.time.mesh) := if_pos h

/-- With the time unknown the access state held and the allowance give it (R92). -/
theorem State.accessOf_unknown (h : s.time.rank = 15) : s.accessOf r =
    accessHeld r.access (allowanceLine (s.sched.book.profileAt r.profile) s.cfg.fallback r) :=
  if_neg (by rw [h]; exact Nat.lt_irrefl _)

/-- At a known time the access state held is not read. -/
theorem State.accessOf_known_access (h : s.time.rank < 15) (a : Access) : s.accessOf { r with access := a } = s.accessOf r := by
  rw [State.accessOf_known h, State.accessOf_known h]
  rfl

theorem State.accessOf_rules (hp : s.sched.book.profiles[r.profile]? = some p) :
    let weekday := s.time.mesh / 86400 % 7
    let minute := s.time.mesh % 86400 / 60
    (s.time.rank < 15 →
      (p.Active .block weekday minute → s.accessOf r = .blocked) ∧
      (¬p.Active .block weekday minute → p.Reached s.cfg.fallback r → s.accessOf r = .exhausted) ∧
      (¬p.Active .block weekday minute → ¬p.Reached s.cfg.fallback r → p.Active .cap weekday minute → s.accessOf r = .capped) ∧
      (¬p.Active .block weekday minute → ¬p.Reached s.cfg.fallback r → ¬p.Active .cap weekday minute → s.accessOf r = .opened)) ∧
    (s.time.rank = 15 →
      (r.access = .blocked → s.accessOf r = .blocked) ∧
      (r.access ≠ .blocked → p.Reached s.cfg.fallback r → s.accessOf r = .exhausted) ∧
      (r.access = .exhausted → ¬p.Reached s.cfg.fallback r → s.accessOf r = .opened) ∧
      (r.access = .opened ∨ r.access = .capped → ¬p.Reached s.cfg.fallback r → s.accessOf r = r.access)) := by
  intro weekday minute
  refine ⟨fun hrank => ?_, fun hrank => ?_⟩
  · have hout : s.accessOf r = accessByWindows p (allowanceLine p s.cfg.fallback r) weekday minute := by
      rw [State.accessOf_known hrank, State.profileAt_of_getElem hp]
      rfl
    simp only [hout, accessByWindows, ← Profile.hasActive_iff, ← allowanceLine_iff]
    refine ⟨fun hb => if_pos hb, fun hb hr => ?_, fun hb hr hc => ?_, fun hb hr hc => ?_⟩
    · rw [if_neg hb, if_pos hr]
    · rw [if_neg hb, if_neg hr, if_pos hc]
    · rw [if_neg hb, if_neg hr, if_neg hc]
  · have hout : s.accessOf r = accessHeld r.access (allowanceLine p s.cfg.fallback r) := by
      rw [State.accessOf_unknown hrank, State.profileAt_of_getElem hp]
    rw [hout, ← allowanceLine_iff]
    unfold accessHeld
    cases r.access <;> cases allowanceLine p s.cfg.fallback r <;> simp

end

end Sys2Proof.Machine
end

section
/-! SUPPORT. Proofs: a flow tested as the ceiling leaves room for it, to the end of the event (R107, R108, R112; O36). -/

namespace Sys2Proof.Machine

/-! ### One turn among the slots -/

/-- What one turn of a walk gives, the walk gives, when the other turns keep what was before it and what it gave. -/
theorem walk_turn {α : Type} {P R : State → Prop} {g : α → State → State} {l : List α} {x : α} (hx : x ∈ l) (hd : l.Nodup)
    (hbefore : ∀ y u, y ≠ x → P u → P (g y u)) (hturn : ∀ u, P u → R (g x u)) (hafter : ∀ y u, y ≠ x → R u → R (g y u))
    {s : State} (hs : P s) : R (walk l g s) := by
  induction l generalizing s with
  | nil => cases hx
  | cons y l ih =>
    obtain ⟨hy, hd⟩ := List.nodup_cons.mp hd
    rw [walk_cons]
    by_cases hyx : y = x
    · subst hyx
      have hrest : ∀ (l : List α) (u : State), y ∉ l → R u → R (walk l g u) := fun l => by
        induction l with
        | nil => exact fun u _ hu => hu
        | cons z l ihl => exact fun u hz hu => ihl _ (List.not_mem_of_not_mem_cons hz) (hafter z u (List.ne_of_not_mem_cons hz).symm hu)
      exact hrest l _ hy (hturn s hs)
    · exact ih ((List.mem_cons.mp hx).resolve_left (Ne.symm hyx)) hd (hbefore y s hyx hs)

theorem State.recomputeAll_turn {P R : State → Prop} (i : Fin 64) (hbefore : ∀ k u, k ≠ i → P u → P (State.recompute k u))
    (hturn : ∀ u, P u → R (State.recompute i u)) (hafter : ∀ k u, k ≠ i → R u → R (State.recompute k u)) {s : State} (hs : P s) :
    R s.recomputeAll :=
  walk_turn (List.mem_finRange i) (List.nodup_finRange 64) hbefore hturn hafter hs

/-- Every record with its access worked out (R95). -/
theorem State.record_recomputeAll (i : Fin 64) (s : State) :
    s.recomputeAll.record i = (s.record i).map fun r => if r.held then { r with access := s.accessOf r } else r := by
  refine State.recomputeAll_turn (P := fun u => u.record i = s.record i ∧ u.beside = s.beside)
    (R := fun u => u.record i = (s.record i).map fun r => if r.held then { r with access := s.accessOf r } else r) i
    (fun k u hk hu => ?_) (fun u hu => ?_) (fun k u hk hu => ?_) ⟨rfl, rfl⟩
  · rw [State.record_recompute, if_neg hk]
    exact ⟨hu.1, (State.recompute_beside k u).trans hu.2⟩
  · have haccess : ∀ r, u.accessOf r = s.accessOf r := State.accessOf_of_beside hu.2
    rw [State.record_recompute, if_pos rfl, hu.1]
    simp only [haccess]
  · rw [State.record_recompute, if_neg hk]
    exact hu

theorem State.record_mapRecords (f : ClientRecord → ClientRecord) (i : Fin 64) (s : State) :
    (s.mapRecords f).record i = (s.record i).map f := by
  simp [State.mapRecords, State.record]

/-! ### A flow and the room the ceiling leaves (R107) -/

/-- The flow ADMITTED at a time, and the flow that waits because the ceiling leaves it no room. -/
def FlowRecord.entered (f : FlowRecord) (now : Nat) : FlowRecord :=
  { f with state := .admitted, admittedAt := some now, reason := none, holdUntil := none }

def FlowRecord.delayed (f : FlowRecord) : FlowRecord := { f with reason := some .airtime }

/-- The ceiling leaves no room for the flow's share. -/
def State.Over (s : State) (f : FlowRecord) : Prop := s.cfg.ceiling < s.viewTotal + f.share.getD 0

/-- The flow's client stands, and the flow is ADMITTED or waits because of what `full` says. -/
structure State.Weighed (s : State) (full : State → Prop) (j : Fin 128) (f : FlowRecord) (r : ClientRecord) (time : Nat) : Prop where
  record : s.record f.slot = some r
  now : s.now = time
  outcome : s.flow j = .used (f.entered time) ∨ (s.flow j = .used f.delayed ∧ full s)

section
variable {s : State} {j k : Fin 128} {f g : FlowRecord} {r : ClientRecord} {now : Nat}

theorem State.viewTotal_of_gist {t : State} (h : t.gist = s.gist) : t.viewTotal = s.viewTotal := by
  have hf : t.prio.flows = s.prio.flows := congrArg Gist.flows h
  have hp : t.peers = s.peers := congrArg Gist.peers h
  simp only [State.viewTotal, State.ownReserved, State.freshPeers, hf, hp]

theorem State.over_of_gist {t : State} (h : t.gist = s.gist) (ho : s.Over f) : t.Over f := by
  have hc : t.cfg = s.cfg := congrArg Gist.cfg h
  rw [State.Over, hc, State.viewTotal_of_gist h]
  exact ho

theorem State.tested_over (hp : r.state ≠ .provisional) (ha : r.access = .opened) (ho : s.Over f) :
    s.tested now r f = { f with state := .waiting, reason := some .airtime } := by
  rw [State.tested, if_neg hp, if_neg (not_not.mpr ha)]
  exact if_pos ho

theorem State.tested_room (hp : r.state ≠ .provisional) (ha : r.access = .opened) (ho : ¬s.Over f) :
    s.tested now r f = f.entered now := by
  rw [State.tested, if_neg hp, if_neg (not_not.mpr ha)]
  exact if_neg ho

theorem FlowRecord.heldShare_waiting (h : g.state = .waiting) : (FlowSlot.used g).heldShare = 0 := by
  simp [FlowSlot.heldShare, FlowRecord.holdsShare, h]

theorem State.freshPeers_putFlow (x : FlowSlot) : (s.putFlow j x).freshPeers = s.freshPeers :=
  congrArg (fun p : PeerUnit => p.table.filter PeerEntry.fresh) (State.putFlow_same j x s).2.2.2.2.2.1

/-- The view total does not fall when a flow that held no share is put (R106). -/
theorem State.viewTotal_le_putFlow (x : FlowSlot) (h : (s.flow k).heldShare = 0) : s.viewTotal ≤ (s.putFlow k x).viewTotal := by
  have hown := State.ownReserved_putFlow (s := s) (j := k) (x := x)
  rw [State.viewTotal, State.viewTotal, State.freshPeers_putFlow]
  omega

/-- Testing a flow that waits does not make room (R107). -/
theorem State.over_testFlow (hk : s.flow k = .used g) (hg : g.state = .waiting) (ho : s.Over f) : (s.testFlow k).Over f := by
  have hzero : (s.flow k).heldShare = 0 := by rw [hk, FlowRecord.heldShare_waiting hg]
  cases hr : s.record g.slot with
  | none => rwa [State.testFlow_ownerless hk hr]
  | some q =>
    have hle := State.viewTotal_le_putFlow (s := s) (k := k) (.used (s.tested s.now q g)) hzero
    rw [State.testFlow_used hk hr, State.Over, (State.putFlow_same k _ s).2.2.2.1]
    exact lt_of_lt_of_le ho (Nat.add_le_add_right hle _)

/-- A flow that waits, tested for a client with OPEN access: it is ADMITTED, or the ceiling leaves it no room (R107). -/
theorem State.testFlow_weighed {why : Option WaitReason} (hst : f.state = .waiting) (hr : s.record f.slot = some r)
    (hp : r.state ≠ .provisional) (ha : r.access = .opened) (hj : s.flow j = .used { f with reason := why }) :
    (s.testFlow j).Weighed (State.Over · f) j f r s.now := by
  have hsame := fun x => State.putFlow_same j x s
  have hrecord : (s.testFlow j).record f.slot = some r := by
    rw [State.record, State.testFlow_clients]
    exact hr
  have htest := State.testFlow_used hj hr
  refine ⟨hrecord, by rw [htest]; exact (hsame _).2.1, ?_⟩
  by_cases ho : s.Over f
  · have hout : s.tested s.now r { f with reason := why } = f.delayed := by
      rw [State.tested_over hp ha (f := { f with reason := why }) ho, FlowRecord.delayed, hst]
    rw [hout] at htest
    refine .inr ⟨by rw [htest, State.flow_putFlow_same], ?_⟩
    exact State.over_testFlow hj hst ho
  · have hout : s.tested s.now r { f with reason := why } = f.entered s.now :=
      State.tested_room hp ha (f := { f with reason := why }) ho
    rw [hout] at htest
    exact .inl (by rw [htest, State.flow_putFlow_same])

/-- What the test of any flow that waits leaves of a flow so weighed. -/
theorem State.Weighed.testFlow (h : s.Weighed (State.Over · f) j f r now) (hst : f.state = .waiting) (hp : r.state ≠ .provisional)
    (ha : r.access = .opened) (hk : s.flow k = .used g) (hg : g.state = .waiting) :
    (s.testFlow k).Weighed (State.Over · f) j f r now := by
  obtain ⟨hr, hnow, hout⟩ := h
  by_cases hkj : k = j
  · subst hkj
    rcases hout with hin | ⟨hwait, -⟩
    · rw [hk] at hin
      cases hin
      cases hg
    · exact hnow ▸ State.testFlow_weighed hst hr hp ha hwait
  · refine ⟨?_, ?_, ?_⟩
    · rw [State.record, State.testFlow_clients]
      exact hr
    · exact (State.still_parts (State.still_of_beside (State.testFlow_beside k s))).1.trans hnow
    · rw [State.testFlow_other hkj]
      exact hout.imp_right fun hw => ⟨hw.1, State.over_testFlow hk hg hw.2⟩

theorem retested_weighed (hst : f.state = .waiting) (hp : r.state ≠ .provisional) (ha : r.access = .opened) :
    Retested fun u => u.Weighed (State.Over · f) j f r now where
  same {u v} hg h := by
    obtain ⟨hr, hnow, hout⟩ := h
    refine ⟨(State.record_of_gist hg _).trans hr, (congrArg Gist.now hg).trans hnow, ?_⟩
    rw [State.flow_of_gist hg]
    exact hout.imp_right fun hw => ⟨hw.1, State.over_of_gist hg hw.2⟩
  tests u k g hk hg h := h.testFlow hst hp ha hk hg

end

/-! ### The round at the end of the event (R108) -/

/-- What a flow weighed in the course of an event has to show for it: a share was freed since, so that a round follows, or the
ceiling leaves no room still. -/
def State.Loose (f : FlowRecord) (s : State) : Prop := s.ev.released = true ∨ s.Over f

section
variable {s : State} {j : Fin 128} {f : FlowRecord} {r : ClientRecord} {now : Nat} (hst : f.state = .waiting)
  (hp : r.state ≠ .provisional) (ha : r.access = .opened)
include hst hp ha

theorem State.Weighed.retest (hhold : f.holdUntil = none) (hrecent : now < f.lastActivity + 10000)
    (h : s.Weighed (State.Loose f) j f r now) : s.retest.Weighed (State.Over · f) j f r now := by
  have htests := retested_weighed (j := j) (now := now) hst hp ha
  obtain ⟨hr, hnow, hout⟩ := h
  unfold State.retest
  split
  · rcases hout with hin | ⟨hwait, -⟩
    · exact State.round_of htests.tests ⟨hr, hnow, .inl hin⟩
    · have hagain : f.delayed.retestable s.now = true := by
        have hsoon : f.delayed.recent s.now = true := by
          rw [hnow]
          exact decide_eq_true hrecent
        simp only [FlowRecord.retestable, hsoon]
        simp [FlowRecord.delayed, hst, hhold]
      refine walk_testFlow_turn (P := fun u => u.record f.slot = some r ∧ u.now = now) (Q := fun g => g.state = .waiting)
        (j := j) (f := f.delayed) (fun u k g _ _ hu => ⟨?_, ?_⟩) (mem_byTime.mpr (State.mem_flowsWhere.mpr ⟨hwait, hagain⟩))
        (fun u hu h => ?_) (fun u k g => htests.tests u k g) (fun x hx => ?_) (byTime_distinct _ (State.flowsWhere_distinct _ _))
        ⟨hr, hnow⟩
      · rw [State.record, State.testFlow_clients]
        exact hu.1
      · exact (State.still_parts (State.still_of_beside (State.testFlow_beside k u))).1.trans hu.2
      · exact h.2 ▸ State.testFlow_weighed hst h.1 hp ha hu
      · obtain ⟨hx, hq⟩ := State.mem_flowsWhere.mp (mem_byTime.mp hx)
        simp only [FlowRecord.retestable, Bool.and_eq_true, beq_iff_eq] at hq
        exact ⟨hx, hq.1.1.1⟩
  · rename_i hrel
    exact ⟨hr, hnow, hout.imp_right fun hw => ⟨hw.1, hw.2.resolve_left hrel⟩⟩

/-- To the end of the event, in a calm part. -/
theorem State.Weighed.settleWith (test : Bool) (hc : s.Calm) (hhold : f.holdUntil = none) (hrecent : now < f.lastActivity + 10000)
    (h : s.Weighed (State.Loose f) j f r now) : (s.settleWith test).Weighed (State.Over · f) j f r now := by
  have htests := retested_weighed (j := j) (now := now) hst hp ha
  rw [State.settleWith_calm test hc]
  exact htests.same (u := s.retest.priorityEnd) rfl (htests.priorityEnd (h.retest hst hp ha hhold hrecent))

end

/-! ### A change of one client's access (R112) -/

section
variable {s : State} {i : Fin 64} {j : Fin 128} {f : FlowRecord} {q : ClientRecord} (hr : s.record i = some q)
  (hheld : q.state ≠ .departed) (hf : s.flow j = .used f) (hc : f.client = q.client)
include hr hheld

theorem State.recompute_changed (h : s.accessOf q ≠ q.access) : s.recompute i =
    ((s.putRecord i { q with access := s.accessOf q }).setAccessMark i true).accessChanged q.client q.access (s.accessOf q) := by
  simp only [State.recompute, hr, ClientRecord.held_iff.mpr hheld, if_true, if_neg h]

include hf hc

/-- An ADMITTED flow waits when its client's access leaves OPEN. -/
theorem State.recompute_caps (hold : q.access = .opened) (hnew : s.accessOf q ≠ .opened) (hst : f.state = .admitted) :
    (s.recompute i).flow j = .used { f with state := .waiting, reason := some .cap, holdUntil := none } := by
  have hother : ∀ (x : Fin 128 × FlowRecord) (u : State) (k : Fin 128), x.1 ≠ k →
      (u.putFlow x.1 (.used { x.2 with state := .waiting, reason := some .cap, holdUntil := none })).flow k = u.flow k :=
    fun x u k hk => State.flow_putFlow_other _ _ _ _ hk
  rw [State.recompute_changed hr hheld (by rw [hold]; exact hnew), State.accessChanged, if_pos ⟨hold, hnew⟩]
  refine walkFlows_turn (P := fun _ => True) (Q := fun _ => True)
    (R := fun u => u.flow j = .used { f with state := .waiting, reason := some .cap, holdUntil := none }) hother
    (fun _ _ _ _ _ => trivial) (x := (j, f)) (State.mem_flowsWhere.mpr ⟨hf, by simp [hc, hst]⟩)
    (fun u _ _ _ => State.flow_putFlow_same _ _ _) (fun y u hy _ _ hu => (hother y u j hy).trans hu)
    (fun y hy => ⟨(State.mem_flowsWhere.mp hy).1, trivial⟩) (State.flowsWhere_distinct _ _) trivial

/-- A recent flow that waits with reason CAP is tested when its client's access becomes OPEN. -/
theorem State.recompute_opens (hslot : f.slot = i) (hp : q.state ≠ .provisional) (hold : q.access ≠ .opened)
    (hnew : s.accessOf q = .opened) (hst : f.state = .waiting) (hwhy : f.reason = some .cap) (hrecent : s.now < f.lastActivity + 10000) :
    (s.recompute i).Weighed (State.Over · f) j f { q with access := .opened } s.now := by
  have htests := retested_weighed (j := j) (f := f) (r := { q with access := .opened }) (now := s.now) hst hp rfl
  rw [State.recompute_changed hr hheld (by rw [hnew]; exact hold.symm), State.accessChanged, if_neg fun h => hold h.1,
    if_pos ⟨hold, hnew⟩, hnew]
  refine walk_testFlow_turn (P := fun u => u.record f.slot = some { q with access := .opened } ∧ u.now = s.now)
    (Q := fun g => g.state = .waiting) (j := j) (f := f) (fun u k g _ _ hu => ⟨?_, ?_⟩) (mem_byTime.mpr ?_) (fun u hu h => ?_)
    (fun u k g => htests.tests u k g) (fun x hx => ?_) (byTime_distinct _ (State.flowsWhere_distinct _ _))
    ⟨by rw [hslot]; exact putSlot_get_same _ _ _, rfl⟩
  · rw [State.record, State.testFlow_clients]
    exact hu.1
  · exact (State.still_parts (State.still_of_beside (State.testFlow_beside k u))).1.trans hu.2
  · have hsoon : f.recent s.now = true := decide_eq_true hrecent
    refine State.mem_flowsWhere.mpr ⟨hf, ?_⟩
    simp only [Bool.and_eq_true, beq_iff_eq]
    exact ⟨⟨⟨hc, hst⟩, hwhy⟩, hsoon⟩
  · exact h.2 ▸ State.testFlow_weighed (why := f.reason) hst h.1 hp rfl hu
  · obtain ⟨hx, hq⟩ := State.mem_flowsWhere.mp (mem_byTime.mp hx)
    simp only [Bool.and_eq_true, beq_iff_eq] at hq
    exact ⟨hx, hq.1.1.2⟩

end

/-! ### The access of the other clients (R95, R112) -/

section
variable {s : State} {j k : Fin 128} {f : FlowRecord} {r : ClientRecord} {now : Nat}

theorem State.putFlow_released_of (x : FlowSlot) (h : s.ev.released = true) : (s.putFlow k x).ev.released = true := by
  unfold State.putFlow
  simp only
  split <;> simp [h]

theorem State.testFlow_released_of (h : s.ev.released = true) : (s.testFlow k).ev.released = true := by
  unfold State.testFlow
  split
  · split
    · split <;> exact State.putFlow_released_of _ h
    · exact h
  · exact h
  · exact h

/-- A share freed is marked. -/
theorem State.putFlow_frees {x : FlowSlot} (h : (s.flow k).holdsShare = true) (hx : x.holdsShare = false) :
    (s.putFlow k x).ev.released = true := by
  unfold State.putFlow
  simp only [h, hx]
  split <;> simp

/-- A flow so weighed belongs to its client. -/
theorem State.Weighed.used {full : State → Prop} (h : s.Weighed full j f r now) : ∃ g, s.flow j = .used g ∧ g.client = f.client :=
  h.outcome.elim (fun hin => ⟨_, hin, rfl⟩) fun hw => ⟨_, hw.1, rfl⟩

/-- Working out the access of another client: what it makes wait frees a share, and what it tests takes one. -/
theorem State.Weighed.recompute_other {i : Fin 64} (h : s.Weighed (State.Loose f) j f r now) (hi : i ≠ f.slot)
    (hother : ∀ q, s.record i = some q → q.client ≠ f.client) : (s.recompute i).Weighed (State.Loose f) j f r now := by
  have hapart : ∀ {q : ClientRecord} {u : State} {k : Fin 128} {g : FlowRecord}, s.record i = some q →
      u.Weighed (State.Loose f) j f r now → u.flow k = .used g → g.client = q.client → k ≠ j := fun hq hu hk hc e => by
    obtain ⟨g', hj, hc'⟩ := hu.used
    rw [← e, hk] at hj
    cases hj
    exact hother _ hq (hc.symm.trans hc')
  refine State.recompute_of (P := fun u => u.Weighed (State.Loose f) j f r now) (fun q hq => ?_) (fun q hq u k g hk hg hu => ?_)
    (fun q hq u k g hk hg hu => ?_) h
  · exact ⟨(State.record_putRecord_other s i f.slot _ hi).trans h.record, h.now, h.outcome⟩
  · have hkj := hapart hq hu hk hg.1
    have hfree : (u.putFlow k (.used { g with state := .waiting, reason := some .cap, holdUntil := none })).ev.released = true :=
      State.putFlow_frees (by rw [hk]; simp [FlowSlot.holdsShare, FlowRecord.holdsShare, hg.2]) rfl
    have hsame := State.putFlow_same k (.used { g with state := .waiting, reason := some .cap, holdUntil := none }) u
    refine ⟨?_, hsame.2.1.trans hu.now, ?_⟩
    · rw [State.record, hsame.2.2.2.2.2.2.1]
      exact hu.record
    · rw [State.flow_putFlow_other _ _ _ _ hkj]
      exact hu.outcome.imp_right fun hw => ⟨hw.1, .inl hfree⟩
  · have hkj := hapart hq hu hk hg.1
    refine ⟨?_, (State.still_parts (State.still_of_beside (State.testFlow_beside k u))).1.trans hu.now, ?_⟩
    · rw [State.record, State.testFlow_clients]
      exact hu.record
    · rw [State.testFlow_other hkj]
      exact hu.outcome.imp_right fun hw => ⟨hw.1, hw.2.imp State.testFlow_released_of (State.over_testFlow hk hg.2)⟩

end

/-! ### The flows of one client as every access is worked out -/

section
variable {s : State} {i : Fin 64} {j : Fin 128} {f : FlowRecord} {q : ClientRecord}

/-- The flow of one client, before the turn of its record. -/
structure State.Untried (s u : State) (i : Fin 64) (j : Fin 128) (f : FlowRecord) : Prop where
  record : u.record i = s.record i
  beside : u.beside = s.beside
  flow : u.flow j = .used f
  others : ∀ k q, k ≠ i → u.record k = some q → q.client ≠ f.client

theorem State.others_recompute {u : State} {c : ClientId} (h : ∀ k q, k ≠ i → u.record k = some q → q.client ≠ c) (l : Fin 64) :
    ∀ k q, k ≠ i → (u.recompute l).record k = some q → q.client ≠ c := fun k q hk hq => by
  rw [State.record_recompute] at hq
  split at hq
  · rename_i hlk
    subst hlk
    obtain ⟨r, hr, rfl⟩ := Option.map_eq_some_iff.mp hq
    have hrc := h l r hk hr
    split <;> exact hrc
  · exact h k q hk hq

theorem State.Untried.recompute_other {u : State} (h : s.Untried u i j f) {k : Fin 64} (hk : k ≠ i) :
    s.Untried (u.recompute k) i j f where
  record := by rw [State.record_recompute, if_neg hk, h.record]
  beside := (State.recompute_beside k u).trans h.beside
  flow := State.recompute_standing h.flow (.inr fun q hq => h.others k q hk hq)
  others := State.others_recompute h.others k

variable (h : s.Untried s i j f) (hr : s.record i = some q) (hheld : q.state ≠ .departed) (hc : f.client = q.client)
include h hr hheld hc

theorem State.recomputeAll_caps (hold : q.access = .opened) (hnew : s.accessOf q ≠ .opened) (hst : f.state = .admitted) :
    s.recomputeAll.flow j = .used { f with state := .waiting, reason := some .cap, holdUntil := none } := by
  refine (State.recomputeAll_turn (P := fun u => s.Untried u i j f) (R := fun u =>
      u.flow j = .used { f with state := .waiting, reason := some .cap, holdUntil := none } ∧
        ∀ k q, k ≠ i → u.record k = some q → q.client ≠ f.client) i (fun k u hk hu => hu.recompute_other hk) (fun u hu => ?_)
    (fun k u hk hu => ?_) h).1
  · refine ⟨State.recompute_caps (hu.record.trans hr) hheld hu.flow hc hold ?_ hst, State.others_recompute hu.others i⟩
    rwa [State.accessOf_of_beside hu.beside]
  · exact ⟨State.recompute_standing hu.1 (.inr fun q hq => hu.2 k q hk hq), State.others_recompute hu.2 k⟩

theorem State.recomputeAll_opens (hslot : f.slot = i) (hp : q.state ≠ .provisional) (hold : q.access ≠ .opened)
    (hnew : s.accessOf q = .opened) (hst : f.state = .waiting) (hwhy : f.reason = some .cap)
    (hrecent : s.now < f.lastActivity + 10000) :
    s.recomputeAll.Weighed (State.Loose f) j f { q with access := .opened } s.now := by
  refine (State.recomputeAll_turn (P := fun u => s.Untried u i j f) (R := fun u =>
      u.Weighed (State.Loose f) j f { q with access := .opened } s.now ∧
        ∀ k q, k ≠ i → u.record k = some q → q.client ≠ f.client) i (fun k u hk hu => hu.recompute_other hk) (fun u hu => ?_)
    (fun k u hk hu => ?_) h).1
  · have hnow : u.now = s.now := (State.still_parts (State.still_of_beside hu.beside)).1
    have hw := State.recompute_opens (hu.record.trans hr) hheld hu.flow hc hslot hp hold
      (by rw [State.accessOf_of_beside hu.beside, hnew]) hst hwhy (by rwa [hnow])
    rw [hnow] at hw
    exact ⟨⟨hw.record, hw.now, hw.outcome.imp_right fun ho => ⟨ho.1, .inr ho.2⟩⟩, State.others_recompute hu.others i⟩
  · exact ⟨hu.1.recompute_other (by rw [hslot]; exact hk) fun q hq => hu.2 k q hk hq, State.others_recompute hu.2 k⟩

end

end Sys2Proof.Machine
end

section
/-! SUPPORT. Proofs: a tick, with the minute and the day it begins (R31, R71, R75, R96, R97; O36). -/

namespace Sys2Proof.Machine

/-! ### One record's minute and day -/

section
variable {r q : ClientRecord}

/-- The closing minute counts for a record (R96). -/
def ClientRecord.Counts (r : ClientRecord) : Prop :=
  r.active = true ∧ (r.state = .associated ∨ r.state = .offering ∨ r.state = .handing) ∧ (r.access = .opened ∨ r.access = .capped)

theorem ClientRecord.countMinute_counts (h : r.Counts) : r.countMinute =
    { r with used := min 1440 (r.used + 1), countedHere := min 1440 (r.countedHere + 1), active := false } := by
  obtain ⟨hactive, hst, ha⟩ := h
  refine if_pos ?_
  rw [hactive, Bool.true_and, Bool.and_eq_true]
  exact ⟨by rcases hst with h | h | h <;> rw [h], by rcases ha with h | h <;> rw [h]⟩

theorem ClientRecord.countMinute_idle (h : ¬r.Counts) : r.countMinute = { r with active := false } := by
  refine if_neg fun hc => h ?_
  rw [Bool.and_eq_true, Bool.and_eq_true] at hc
  obtain ⟨⟨hactive, hst⟩, ha⟩ := hc
  exact ⟨hactive, by revert hst; cases r.state <;> simp, by revert ha; cases r.access <;> simp⟩

theorem ClientRecord.Counted.eq_countMinute (h : r.Counted q) : q = r.countMinute := by
  by_cases hc : r.Counts
  · rw [ClientRecord.countMinute_counts hc]
    exact h.1 hc
  · rw [ClientRecord.countMinute_idle hc]
    exact h.2 hc

theorem ClientRecord.countMinute_same (r : ClientRecord) :
    r.countMinute.client = r.client ∧ r.countMinute.state = r.state ∧ r.countMinute.access = r.access ∧
      r.countMinute.dayStamp = r.dayStamp := by
  by_cases h : r.Counts
  · rw [ClientRecord.countMinute_counts h]
    exact ⟨rfl, rfl, rfl, rfl⟩
  · rw [ClientRecord.countMinute_idle h]
    exact ⟨rfl, rfl, rfl, rfl⟩

end

/-! ### What working out access reads -/

section
variable {s : State} {i : Fin 64}

theorem State.accessOf_eq {t : State} (hs : t.sched = s.sched) (hc : t.cfg = s.cfg) (hm : t.time.mesh = s.time.mesh)
    (hr : t.time.rank = s.time.rank) (r : ClientRecord) : t.accessOf r = s.accessOf r := by
  simp only [State.accessOf, hs, hc, hm, hr]

/-- A record as a state's computation of its access leaves it (R94). -/
def State.worked (s : State) (r : ClientRecord) : ClientRecord := if r.held then { r with access := s.accessOf r } else r

theorem State.record_settled_recomputeAll (test : Bool) (hc : s.Calm) (i : Fin 64) :
    (s.recomputeAll.settleWith test).record i = (s.record i).map s.worked := by
  have hcalm : s.recomputeAll.Calm := State.Calm.of_act hc (State.act_of_beside (State.recomputeAll_beside s))
  rw [State.record, State.settleWith_clients test hcalm, ← State.record, State.record_recomputeAll]
  rfl

theorem State.settled_recomputeAll_beside (test : Bool) (hc : s.Calm) : (s.recomputeAll.settleWith test).beside = s.beside := by
  have hcalm : s.recomputeAll.Calm := State.Calm.of_act hc (State.act_of_beside (State.recomputeAll_beside s))
  exact (State.settleWith_calm_same test hcalm).1.trans (State.recomputeAll_beside s)

/-! ### The DEPARTED records deleted (R31) -/

theorem walk_deleteSlot_other {l : List (Fin 64)} (hi : i ∉ l) (s : State) : (walk l State.deleteSlot s).record i = s.record i := by
  induction l generalizing s with
  | nil => rfl
  | cons k l ih =>
    rw [walk_cons, ih (List.not_mem_of_not_mem_cons hi), State.record_deleteSlot, if_neg (List.ne_of_not_mem_cons hi).symm]

theorem State.record_deleteDeparted {r : ClientRecord} (h : s.record i = some r) :
    s.deleteDeparted.record i = if r.state = .departed then none else some r := by
  split
  · rename_i hst
    exact walk_deleteSlot_none (State.mem_slotsIn.mpr ⟨r, h, hst⟩) s
  · rename_i hst
    refine (walk_deleteSlot_other (fun hmem => ?_) s).trans h
    obtain ⟨r', hr', hst'⟩ := State.mem_slotsIn.mp hmem
    rw [h] at hr'
    cases hr'
    exact hst hst'

end

/-! ### A tick -/

/-- The part as the tick at its time finds it, mesh time counted on (R71). -/
def State.ticked (s : State) (d : Nat) : State :=
  { s.clockTo d with time := { s.time with mesh := (s.time.mesh + 1) % 4294967296, tickDue := some (d + 1000) } }

/-- The records as a new minute finds them: the minute is counted (R75, R96). -/
def State.minuted (s : State) : State :=
  State.mapRecords ClientRecord.countMinute { s with time := { s.time with minuteMark := s.time.mesh / 60 } }

/-- The records as a new day finds them: those of an earlier day start at 0 minutes, and the DEPARTED ones go (R31, R97). -/
def State.dayed (s : State) : State :=
  (State.mapRecords (ClientRecord.resetDay (s.time.mesh / 86400))
    { s with time := { s.time with dayMark := s.time.mesh / 86400 } }).deleteDeparted

section
variable {s : State} {d : Nat}

theorem State.submitBook_unowed (h : s.sched.writeOwed = false) : s.submitBook = s := by
  simp [State.submitBook, h]

theorem State.exec_tick (hr : s.running = true) (hd : s.time.tickDue = some d) :
    exec .tick s = .next ((s.ticked d).timeChanged false).submitBook :=
  congrArg Host.Outcome.next (State.expire_due _ hr hd)

theorem State.timeChanged_unknown (h : s.time.rank = 15) : s.timeChanged false = s := by
  rw [State.timeChanged, if_neg (by rw [h]; exact Nat.lt_irrefl _)]

theorem State.timeChanged_known (h : s.time.rank < 15) : s.timeChanged false = s.minuteStep.dayStep := by
  rw [State.timeChanged, if_pos (show s.time.rank < Config.rankUnknown from h)]
  rfl

theorem State.minuteStep_same (h : s.time.mesh / 60 = s.time.minuteMark) : s.minuteStep = s := if_pos h

theorem State.minuteStep_new (h : s.time.mesh / 60 ≠ s.time.minuteMark) : s.minuteStep = s.minuted.recomputeAll.settleWith true :=
  if_neg h

theorem State.dayStep_same (h : s.time.mesh / 86400 ≤ s.time.dayMark) : s.dayStep = s := if_neg (not_lt.mpr h)

theorem State.dayStep_new (h : s.time.dayMark < s.time.mesh / 86400) : s.dayStep = s.dayed.recomputeAll.settleWith false := if_pos h

/-- What a tick within the minute, or at an unknown time, leaves. -/
theorem State.timeChanged_quiet (h : s.time.rank = 15 ∨
    (s.time.rank < 15 ∧ s.time.mesh / 60 = s.time.minuteMark ∧ s.time.mesh / 86400 ≤ s.time.dayMark)) : s.timeChanged false = s := by
  rcases h with h | ⟨h, hminute, hday⟩
  · exact State.timeChanged_unknown h
  · rw [State.timeChanged_known h, State.minuteStep_same hminute, State.dayStep_same hday]

end

theorem State.minuted_calm {s : State} (hc : s.Calm) : s.minuted.recomputeAll.Calm :=
  State.Calm.of_act (s := s.minuted) hc (State.act_of_beside (State.recomputeAll_beside _))

theorem State.dayed_beside (s : State) :
    s.dayed.beside = State.beside { s with time := { s.time with dayMark := s.time.mesh / 86400 } } :=
  (State.deleteDeparted_beside _).trans (State.mapRecords_beside _ _)

theorem State.dayed_calm {s : State} (hc : s.Calm) : s.dayed.Calm :=
  State.Calm.of_act (s := { s with time := { s.time with dayMark := s.time.mesh / 86400 } }) hc (State.act_of_beside s.dayed_beside)

/-! ### A new minute (R75, R96, R112) -/

section
variable {s : State} {i : Fin 64} {j : Fin 128} {r : ClientRecord} {f : FlowRecord} (hnew : s.time.mesh / 60 ≠ s.time.minuteMark)
  (hcalm : s.Calm)
include hnew hcalm

theorem State.minuteStep_beside : s.minuteStep.beside = s.minuted.beside := by
  rw [State.minuteStep_new hnew]
  exact State.settled_recomputeAll_beside (s := s.minuted) true hcalm

theorem State.minuteStep_accessOf (q : ClientRecord) : s.minuteStep.accessOf q = s.accessOf q :=
  (State.accessOf_of_beside (State.minuteStep_beside hnew hcalm) q).trans (State.accessOf_eq rfl rfl rfl rfl q)

theorem State.minuteStep_record (hr : s.record i = some r) : s.minuteStep.record i =
    some (if r.state = .departed then r.countMinute else { r.countMinute with access := s.accessOf r.countMinute }) := by
  rw [State.minuteStep_new hnew, State.record_settled_recomputeAll (s := s.minuted) true hcalm, State.minuted,
    State.record_mapRecords]
  show ((s.record i).map ClientRecord.countMinute).map s.worked = _
  rw [hr, Option.map_some, Option.map_some, State.worked]
  by_cases hst : r.state = .departed
  · rw [if_pos hst, if_neg (mt ClientRecord.held_iff.mp (by rw [r.countMinute_same.2.1, hst, not_not]))]
  · rw [if_neg hst, if_pos (ClientRecord.held_iff.mpr (by rwa [r.countMinute_same.2.1]))]

/-- A flow that is neither ADMITTED nor WAITING stands. -/
theorem State.minuteStep_standing (hf : s.flow j = .used f) (ha : f.state ≠ .admitted) (hw : f.state ≠ .waiting) :
    s.minuteStep.flow j = .used f := by
  have hcalm' : s.minuted.recomputeAll.Calm := State.minuted_calm hcalm
  rw [State.minuteStep_new hnew]
  exact (retested_standing hw).settleWith_calm true hcalm' (walk_keeps (fun u => u.flow j = .used f) State.recompute
    (fun k u hu => State.recompute_standing hu (.inl ⟨ha, hw⟩)) (slots 64) s.minuted hf)

variable (hkept : s.AirtimeKept) (hr : s.record i = some r) (hst : r.state = .associated ∨ r.state = .offering ∨ r.state = .handing)
  (hf : s.flow j = .used f) (hc : f.client = r.client)
include hkept hr hst hf hc

omit hnew hcalm hst in
theorem State.minuted_untried : s.minuted.Untried s.minuted i j f where
  record := rfl
  beside := rfl
  flow := hf
  others k q hk hq hqc := by
    rw [State.minuted, State.record_mapRecords] at hq
    obtain ⟨q', hq', rfl⟩ := Option.map_eq_some_iff.mp hq
    exact hk (hkept.oneRecord _ _ _ _ hq' hr (q'.countMinute_same.1.symm.trans (hqc.trans hc)))

/-- The ADMITTED flows of a client whose access leaves OPEN wait. -/
theorem State.minuteStep_caps (hold : r.access = .opened) (hnot : s.accessOf r.countMinute ≠ .opened) (ha : f.state = .admitted) :
    s.minuteStep.flow j = .used { f with state := .waiting, reason := some .cap, holdUntil := none } := by
  obtain ⟨hqc, hqst, hqa, -⟩ := r.countMinute_same
  have hcalm' : s.minuted.recomputeAll.Calm := State.minuted_calm hcalm
  have hrec : s.minuted.record i = some r.countMinute := (State.record_mapRecords _ i _).trans (congrArg (Option.map _) hr)
  have hheld : r.countMinute.state ≠ .departed := by rw [hqst]; rcases hst with h | h | h <;> simp [h]
  have hnopro : r.countMinute.state ≠ .provisional := by rw [hqst]; rcases hst with h | h | h <;> simp [h]
  have hslot : f.slot = i := hkept.slot_eq hr hf hc
  have hcaps := State.recomputeAll_caps (State.minuted_untried hkept hr hf hc) hrec hheld (hc.trans hqc.symm) (hqa.trans hold) hnot ha
  rw [State.minuteStep_new hnew]
  refine ((retested_capped (f := { f with state := .waiting, reason := some .cap, holdUntil := none })
    (r := { r.countMinute with access := s.accessOf r.countMinute }) rfl rfl hnopro hnot).settleWith_calm true hcalm'
    ⟨?_, hcaps⟩).2
  show s.minuted.recomputeAll.record f.slot = _
  rw [hslot, State.record_recomputeAll, hrec, Option.map_some, if_pos (ClientRecord.held_iff.mpr hheld)]
  rfl

/-- The recent flows with reason CAP of a client whose access becomes OPEN are ADMITTED, or wait while there is no room. -/
theorem State.minuteStep_opens (hold : r.access ≠ .opened) (hopen : s.accessOf r.countMinute = .opened) (hw : f.state = .waiting)
    (hwhy : f.reason = some .cap) (hhold : f.holdUntil = none) (hrecent : s.now < f.lastActivity + 10000) :
    s.minuteStep.flow j = .used (f.entered s.now) ∨ (s.minuteStep.flow j = .used f.delayed ∧ s.minuteStep.Over f) := by
  obtain ⟨hqc, hqst, hqa, -⟩ := r.countMinute_same
  have hcalm' : s.minuted.recomputeAll.Calm := State.minuted_calm hcalm
  have hrec : s.minuted.record i = some r.countMinute := (State.record_mapRecords _ i _).trans (congrArg (Option.map _) hr)
  have hheld : r.countMinute.state ≠ .departed := by rw [hqst]; rcases hst with h | h | h <;> simp [h]
  have hnopro : r.countMinute.state ≠ .provisional := by rw [hqst]; rcases hst with h | h | h <;> simp [h]
  have hopens := State.recomputeAll_opens (State.minuted_untried hkept hr hf hc) hrec hheld (hc.trans hqc.symm)
    (hkept.slot_eq hr hf hc) hnopro (by rwa [hqa]) hopen hw hwhy hrecent
  rw [State.minuteStep_new hnew]
  exact (hopens.settleWith (r := { r.countMinute with access := .opened }) hw hnopro rfl true hcalm' hhold hrecent).outcome

end

/-! ### A new day (R31, R97) -/

section
variable {s : State} {i : Fin 64} {r : ClientRecord} (hnew : s.time.dayMark < s.time.mesh / 86400) (hcalm : s.Calm)
include hnew hcalm

theorem State.dayStep_beside :
    s.dayStep.beside = State.beside { s with time := { s.time with dayMark := s.time.mesh / 86400 } } := by
  rw [State.dayStep_new hnew]
  exact (State.settled_recomputeAll_beside false (State.dayed_calm hcalm)).trans s.dayed_beside

theorem State.dayStep_accessOf (q : ClientRecord) : s.dayStep.accessOf q = s.accessOf q :=
  (State.accessOf_of_beside (State.dayStep_beside hnew hcalm) q).trans (State.accessOf_eq rfl rfl rfl rfl q)

theorem State.dayStep_record (hr : s.record i = some r) : s.dayStep.record i =
    if r.state = .departed then none
    else
      let q := r.resetDay (s.time.mesh / 86400)
      some { q with access := s.accessOf q } := by
  have haccess : ∀ q, s.dayed.accessOf q = s.accessOf q := fun q =>
    (State.accessOf_of_beside s.dayed_beside q).trans (State.accessOf_eq rfl rfl rfl rfl q)
  have hstate : (r.resetDay (s.time.mesh / 86400)).state = r.state := by
    unfold ClientRecord.resetDay
    split <;> rfl
  have hrec : s.dayed.record i = if r.state = .departed then none else some (r.resetDay (s.time.mesh / 86400)) := by
    rw [← hstate]
    exact State.record_deleteDeparted ((State.record_mapRecords _ i _).trans (congrArg (Option.map _) hr))
  rw [State.dayStep_new hnew, State.record_settled_recomputeAll false (State.dayed_calm hcalm), hrec]
  by_cases hst : r.state = .departed
  · rw [if_pos hst, if_pos hst, Option.map_none]
  · rw [if_neg hst, if_neg hst, Option.map_some, State.worked, if_pos (ClientRecord.held_iff.mpr (by rwa [hstate])), haccess]

end

theorem ClientRecord.resetDay_same {r : ClientRecord} {day : Nat} (h : day ≤ r.dayStamp) : r.resetDay day = r :=
  if_neg fun hh => absurd hh.2 (not_lt.mpr h)

theorem ClientRecord.resetDay_new {r : ClientRecord} {day : Nat} (hst : r.state ≠ .departed) (h : r.dayStamp < day) :
    r.resetDay day = { r with used := 0, dayStamp := day, countedHere := 0 } :=
  if_pos ⟨ClientRecord.held_iff.mpr hst, h⟩

/-- Settles O36, by whether a minute and a day begin with the tick. -/
theorem ticksCountMinutesAndDays : Obligations.TicksCountMinutesAndDays := by
  unfold Obligations.TicksCountMinutesAndDays
  refine ⟨fun s r p hp => State.accessOf_rules hp, fun s d hrun hclear hcalm hdue howed => ?_⟩
  intro mesh day
  obtain ⟨u, hu⟩ : ∃ u, u = s.ticked d := ⟨_, rfl⟩
  have hexec : exec .tick s = .next (u.timeChanged false).submitBook := hu ▸ State.exec_tick hrun hdue
  refine ⟨fun hquiet => ?_, fun hrank hminute => ?_⟩
  · have hsame : u.timeChanged false = u := State.timeChanged_quiet (by rw [hu]; exact hquiet)
    rw [hexec, hsame, State.submitBook_unowed (by rw [hu]; exact howed), hu]
    rfl
  · have hucalm : u.Calm := by rw [hu]; exact hcalm
    have humesh : u.time.mesh = mesh := by rw [hu]; rfl
    have huday : u.time.dayMark = s.time.dayMark := by rw [hu]; rfl
    have hunow : u.now = max s.now d := by rw [hu]; rfl
    have hnew : u.time.mesh / 60 ≠ u.time.minuteMark := by rw [hu]; exact hminute
    have hurank : u.time.rank < 15 := by rw [hu]; exact hrank
    have hurec : ∀ {i r}, s.record i = some r → u.record i = some r := fun h => by rw [hu]; exact h
    have huflow : ∀ {j f}, s.flow j = .used f → u.flow j = .used f := fun h => by rw [hu]; exact h
    obtain ⟨w, hw⟩ : ∃ w, w = u.minuteStep := ⟨_, rfl⟩
    have hwbeside : w.beside = u.minuted.beside := hw ▸ State.minuteStep_beside hnew hucalm
    have hwcalm : w.Calm := State.Calm.of_act (s := u.minuted) hucalm (State.act_of_beside hwbeside)
    obtain ⟨-, -, hwtime, hwsched, -⟩ := State.still_parts (State.still_of_beside hwbeside)
    have hwtime' : w.time = { s.time with mesh := mesh, tickDue := some (d + 1000), minuteMark := mesh / 60 } := by
      rw [hwtime, hu]
      rfl
    have hwsched' : w.sched = s.sched := by rw [hwsched, hu]; rfl
    have hwcfg : w.cfg = s.cfg := (State.cfg_of_beside hwbeside).trans (by rw [hu]; rfl)
    have hwaccess : ∀ q, w.accessOf q = u.accessOf q := hw ▸ State.minuteStep_accessOf hnew hucalm
    have hwrec : ∀ {i r q}, s.record i = some r → r.Counted q →
        w.record i = some (if r.state = .departed then q else { q with access := u.accessOf q }) := fun hr hq => by
      rw [hw, hq.eq_countMinute]
      exact State.minuteStep_record hnew hucalm (hurec hr)
    have hstep : exec .tick s = .next w.dayStep.submitBook := by rw [hexec, State.timeChanged_known hurank, hw]
    by_cases hday : day ≤ s.time.dayMark
    · have hsame : w.dayStep = w := State.dayStep_same (by rw [hwtime']; exact hday)
      refine ⟨w, ?_, ?_, fun _ i r q hr hq => ⟨?_, fun hkept hst j f hf hc => ⟨fun hold hnot ha => ?_,
        fun hold hopen hwait hwhy hhold hrecent => ?_⟩⟩, fun _ j f hf ha hwait => ?_, fun h => absurd h (not_lt.mpr hday)⟩
      · rw [hstep, hsame, State.submitBook_unowed (by rw [hwsched']; exact howed)]
      · rw [hwtime', max_eq_left hday]
      · rw [hwaccess]
        exact hwrec hr hq
      · have hukept : u.AirtimeKept := by rw [hu]; exact { hkept with }
        rw [hwaccess, hq.eq_countMinute] at hnot
        rw [hw]
        exact State.minuteStep_caps hnew hucalm hukept (hurec hr) hst (huflow hf) hc hold hnot ha
      · have hukept : u.AirtimeKept := by rw [hu]; exact { hkept with }
        rw [hwaccess, hq.eq_countMinute] at hopen
        have hout := State.minuteStep_opens hnew hucalm hukept (hurec hr) hst (huflow hf) hc hold hopen hwait hwhy hhold
          (by rwa [hunow])
        rw [← hw, State.Over, hwcfg, hunow] at hout
        exact hout
      · rw [hw, hf]
        exact State.minuteStep_standing hnew hucalm (huflow hf) ha hwait
    · have hlt : s.time.dayMark < day := not_le.mp hday
      have hwday : w.time.mesh / 86400 = day := by rw [hwtime']
      have hwnew : w.time.dayMark < w.time.mesh / 86400 := by rw [hwday, hwtime']; exact hlt
      obtain ⟨x, hx⟩ : ∃ x, x = w.dayStep := ⟨_, rfl⟩
      have hxbeside := hx ▸ State.dayStep_beside hwnew hwcalm
      obtain ⟨-, -, hxtime, hxsched, -⟩ := State.still_parts (State.still_of_beside hxbeside)
      have hxaccess : ∀ q, x.accessOf q = w.accessOf q := hx ▸ State.dayStep_accessOf hwnew hwcalm
      have hxrec : ∀ {i r}, w.record i = some r → x.record i = if r.state = .departed then none
          else some { r.resetDay day with access := w.accessOf (r.resetDay day) } := fun hr => by
        rw [hx, State.dayStep_record hwnew hwcalm hr, hwday]
      have hwrank : w.time.rank < 15 := by rw [hwtime']; exact hrank
      refine ⟨x, ?_, ?_, fun h => absurd h hday, fun h => absurd h hday, fun _ i r q hr hq => ⟨fun hst => ?_, fun hst hle => ?_,
        fun hst hle => ?_⟩⟩
      · rw [hstep, ← hx, State.submitBook_unowed (by rw [hxsched]; exact hwsched' ▸ howed)]
      · rw [hxtime]
        show { w.time with dayMark := w.time.mesh / 86400 } = _
        rw [hwday, hwtime', max_eq_right hlt.le]
      · have hq' := hwrec hr hq
        rw [if_pos hst] at hq'
        rw [hxrec hq', if_pos (by rw [hq.eq_countMinute, r.countMinute_same.2.1, hst])]
      · have hq' := hwrec hr hq
        obtain ⟨-, hqst, -, hqday⟩ := hq.eq_countMinute ▸ r.countMinute_same
        rw [if_neg hst] at hq'
        have hreset : ({ q with access := u.accessOf q } : ClientRecord).resetDay day = { q with access := u.accessOf q } :=
          ClientRecord.resetDay_same (by rw [← hqday] at hle; exact hle)
        rw [hxrec hq', if_neg (by rwa [← hqst] at hst), hreset, State.accessOf_known_access hwrank, ← hxaccess]
      · have hq' := hwrec hr hq
        obtain ⟨-, hqst, -, hqday⟩ := hq.eq_countMinute ▸ r.countMinute_same
        rw [if_neg hst] at hq'
        have hqst' : q.state ≠ .departed := by rwa [hqst]
        have hreset : ({ q with access := u.accessOf q } : ClientRecord).resetDay day =
            { { q with used := 0, dayStamp := day, countedHere := 0 } with access := u.accessOf q } :=
          ClientRecord.resetDay_new hqst' (by rw [← hqday] at hle; exact hle)
        rw [hxrec hq', if_neg hqst', hreset, State.accessOf_known_access hwrank, ← hxaccess]

end Sys2Proof.Machine
end

section
/-! SUPPORT. Proofs: the operations of the Image Store, the Distribution Unit, the Activation Controller and the start sequence
leave the Client Unit alone. -/

namespace Sys2Proof.Machine

section
variable {s : State}

/-! ### The Image Store -/

@[simp] theorem State.submit_clients (op : StoreOp) : (s.submit op).1.clients = s.clients :=
  State.clients_of_aside (State.submit_aside op s)

theorem launch_clients (l : List StoreOp) (s : State) : (launch l s).1.clients = s.clients := by
  induction l generalizing s with
  | nil => rfl
  | cons op l ih =>
    unfold launch
    simp only
    split
    · exact (ih _).trans (State.clients_of_aside (State.raiseRefused_aside op s))
    · split
      · exact ih s
      · rfl

theorem State.takeSelector_clients (op : StoreOp) (r : StoreResult) : (s.takeSelector op r).clients = s.clients := by
  unfold State.takeSelector
  split <;> rfl

theorem State.complete_clients (op : StoreOp) (d : Device) : (s.complete op d).1.clients = s.clients :=
  (launch_clients _ _).trans (State.takeSelector_clients op _)

/-! ### Selector writes -/

theorem State.startRetry_clients (w : RetriedWrite) : (s.startRetry w).clients = s.clients := by
  unfold State.startRetry
  simp only
  repeat' split
  all_goals rfl

theorem State.endRetry_clients (n : Nat) : (s.endRetry n).clients = s.clients := by
  unfold State.endRetry
  repeat' split
  all_goals rfl

theorem State.submitRetried_clients (w : RetriedWrite) : (s.submitRetried w).clients = s.clients := by
  unfold State.submitRetried
  simp only
  split
  · exact State.submitSelector_clients w s
  · exact (State.startRetry_clients w).trans (State.submitSelector_clients w s)

theorem State.retryEnds_clients : s.retryEnds.clients = s.clients := by
  unfold State.retryEnds
  split
  · split
    · rfl
    · exact State.submitRetried_clients _
  · rfl

/-! ### The book's copy in the store -/

theorem State.submitBook_clients : s.submitBook.clients = s.clients := by
  unfold State.submitBook
  simp only
  repeat' split
  all_goals first | rfl | exact State.submit_clients _

theorem State.bookWritten_clients (ok : Bool) : (s.bookWritten ok).clients = s.clients := by
  unfold State.bookWritten
  split
  · exact State.submitBook_clients
  · rfl

theorem State.takeBookRequest_clients (sender : Nat) : (s.takeBookRequest sender).clients = s.clients := by
  unfold State.takeBookRequest
  simp

theorem State.hearBook_clients (peer v o : Nat) : (s.hearBook peer v o).clients = s.clients :=
  State.clients_of_aside (State.hearBook_aside peer v o s).1

/-! ### Manifests and fills -/

theorem State.submitManifest_clients : s.submitManifest.clients = s.clients := State.clients_of_aside (State.submitManifest_aside s)

@[simp] theorem State.mapBlock_clients (k : SlotId) (b : Nat) (f : Block → Block) : (s.mapBlock k b f).clients = s.clients :=
  State.putSlotRecord_clients _ _ _

theorem State.readyGivenUp_clients : s.readyGivenUp.clients = s.clients := by
  unfold State.readyGivenUp
  split <;> rfl

@[simp] theorem State.startFill_clients (v : Nat) : (s.startFill v).clients = s.clients := by
  unfold State.startFill
  simp only [State.putSlotRecord_clients]
  split
  · exact State.readyGivenUp_clients
  · rfl

theorem State.hearImage_clients (peer v : Nat) : (s.hearImage peer v).clients = s.clients := by
  unfold State.hearImage
  simp only
  repeat' split
  all_goals simp

theorem State.storeManifest_clients (m : Manifest) : (s.storeManifest m).clients = s.clients :=
  State.submitManifest_clients.trans (State.putSlotRecord_clients _ _ _)

theorem State.takeManifest_clients (m : Manifest) : (s.takeManifest m).clients = s.clients := by
  unfold State.takeManifest
  split
  · exact State.storeManifest_clients m
  · rfl

theorem State.seedManifest_clients (m : Manifest) : (s.seedManifest m).1.clients = s.clients := by
  unfold State.seedManifest
  repeat' split
  all_goals first | rfl | simp only [State.storeManifest_clients, State.startFill_clients]

theorem State.manifestWritten_clients (k : SlotId) (v : Nat) (failed : Bool) : (s.manifestWritten k v failed).clients = s.clients := by
  unfold State.manifestWritten
  simp only [State.submitManifest_clients]
  split <;> rfl

theorem State.takeManifestRequest_clients (sender v : Nat) : (s.takeManifestRequest sender v).clients = s.clients := by
  unfold State.takeManifestRequest
  split <;> simp

/-! ### Chunks taken in -/

theorem State.takeRefuse_clients (sender reason v b : Nat) : (s.takeRefuse sender reason v b).clients = s.clients := by
  unfold State.takeRefuse
  repeat' split
  all_goals rfl

theorem State.noteChunk_clients (sender v i : Nat) : (s.noteChunk sender v i).clients = s.clients := by
  unfold State.noteChunk
  repeat' split
  all_goals rfl

theorem State.submitProgram_clients (k : SlotId) (v i : Nat) (data : List Byte) (x : Supplier) :
    (s.submitProgram k v i data x).1.clients = s.clients := by
  unfold State.submitProgram
  simp only
  split <;> simp

theorem State.takeChunk_clients (sender v i : Nat) (data : List Byte) : (s.takeChunk sender v i data).clients = s.clients := by
  have hnote := State.noteChunk_clients (s := s) sender v i
  unfold State.takeChunk
  simp only
  repeat' split
  all_goals first
    | exact hnote
    | exact (State.submit_clients _).trans hnote
    | exact (State.submitProgram_clients _ _ _ _ _).trans hnote

theorem State.seedChunk_clients (v i : Nat) (data : List Byte) : (s.seedChunk v i data).1.clients = s.clients := by
  unfold State.seedChunk
  simp only
  repeat' split
  all_goals first
    | rfl
    | exact State.submit_clients _
    | exact State.submitProgram_clients _ _ _ _ _

/-! ### Verification and check -/

@[simp] theorem State.submitVerify_clients (k : SlotId) (v b : Nat) : (s.submitVerify k v b).clients = s.clients :=
  State.clients_of_aside (State.submitVerify_aside k v b s)

@[simp] theorem State.submitCheck_clients (k : SlotId) (v : Nat) : (s.submitCheck k v).clients = s.clients :=
  State.clients_of_aside (State.submitCheck_aside k v s)

theorem State.eraseDone_clients (k : SlotId) (v b : Nat) (ok : Bool) : (s.eraseDone k v b ok).clients = s.clients := by
  unfold State.eraseDone
  split <;> simp

theorem State.programDone_clients (k : SlotId) (v i : Nat) (r : StoreResult) : (s.programDone k v i r).clients = s.clients := by
  unfold State.programDone
  simp only
  repeat' split
  all_goals simp

theorem State.enterChecking_clients (k : SlotId) (v : Nat) : (s.enterChecking k v).clients = s.clients := by
  unfold State.enterChecking
  split <;> simp

theorem State.verifyDone_clients (k : SlotId) (v b : Nat) (r : StoreResult) : (s.verifyDone k v b r).clients = s.clients := by
  unfold State.verifyDone
  simp only
  repeat' split
  all_goals simp [State.enterChecking_clients, State.suspect]

/-! ### Serving -/

@[simp] theorem State.serveEngine_clients : s.serveEngine.clients = s.clients := State.clients_of_aside (State.serveEngine_aside s)

theorem State.demand_clients (v b start : Nat) : (s.demand v b start).clients = s.clients := by
  unfold State.demand
  simp only
  split <;> rfl

theorem State.takeChunkRequest_clients (sender v b start count mode : Nat) :
    (s.takeChunkRequest sender v b start count mode).clients = s.clients := by
  unfold State.takeChunkRequest
  simp only
  repeat' split
  all_goals simp [State.demand_clients]

theorem State.sendChunk_clients (dest v i : Nat) (data : List Byte) : (s.sendChunk dest v i data).clients = s.clients := by
  unfold State.sendChunk
  split <;> rfl

theorem State.readDone_clients (peer : Nat) (k : SlotId) (v i : Nat) (r : StoreResult) :
    (s.readDone peer k v i r).clients = s.clients := by
  unfold State.readDone
  repeat' split
  all_goals simp [State.sendChunk_clients]

/-! ### The start sequence -/

@[simp] theorem State.startOp_clients (st : Stage) (kind : OpKind) : (s.startOp st kind).clients = s.clients :=
  State.submit_clients _

@[simp] theorem State.seqReady_clients : s.seqReady.clients = s.clients := rfl

@[simp] theorem State.seqVerify_clients (b : Nat) (m : Bool) : (s.seqVerify b m).clients = s.clients := by
  unfold State.seqVerify
  split <;> simp

theorem State.seqRebuild_clients (ma mb : Option Manifest) : (s.seqRebuild ma mb).clients = s.clients := by
  unfold State.seqRebuild
  simp only
  repeat' split
  all_goals simp

theorem State.seqVerified_clients (b : Nat) (m : Bool) : (s.seqVerified b m).clients = s.clients := by
  unfold State.seqVerified
  simp only
  repeat' split
  all_goals simp

theorem State.seqChecked_clients (m : Bool) : (s.seqChecked m).clients = s.clients := by
  unfold State.seqChecked
  simp

theorem State.seqWrite_clients (p : SelPurpose) (sel : Selector) (waitAt : Nat → Stage) (goOn : State → State)
    (h : ∀ u : State, (goOn u).clients = u.clients) : (s.seqWrite p sel waitAt goOn).clients = s.clients := by
  unfold State.seqWrite
  simp only
  split
  · exact State.submitSelector_clients _ _
  · exact (h _).trans ((State.startRetry_clients _).trans (State.submitSelector_clients _ _))

theorem State.seqAction_clients : s.seqAction.clients = s.clients := by
  have hbook : ∀ u : State, u.seqBook.clients = u.clients := fun _ => State.startOp_clients _ _
  unfold State.seqAction
  simp only
  repeat' split
  all_goals first | exact State.seqWrite_clients _ _ _ _ hbook | exact hbook s

theorem State.seqRecover_clients : s.seqRecover.clients = s.clients := by
  unfold State.seqRecover
  simp only
  split
  · exact State.seqWrite_clients _ _ _ _ fun _ => State.startOp_clients _ _
  · exact State.startOp_clients _ _

@[simp] theorem State.seqConfig_clients (b : Option (List Byte)) : (s.seqConfig b).clients = s.clients := State.startOp_clients _ _

theorem State.seqActive_clients (a b : Option (List Byte)) : (s.seqActive a b).clients = s.clients := by
  unfold State.seqActive
  repeat' split
  all_goals simp

theorem State.seqPromoted_clients (x : List Byte) (ok : Bool) : (s.seqPromoted x ok).clients = s.clients := by
  unfold State.seqPromoted
  split <;> simp

theorem State.seqNext_clients (r : StoreResult) : (s.seqNext r).clients = s.clients := by
  unfold State.seqNext
  repeat' split
  all_goals simp [State.seqErase, State.seqEraseManifest, State.seqEraseStaged, State.seqStaged, State.seqRecover_clients,
    State.seqAction_clients, State.seqActive_clients, State.seqPromoted_clients, State.seqRebuild_clients,
    State.seqVerified_clients, State.seqChecked_clients, State.learnSelector]

theorem State.seqDone_clients (kind : OpKind) (r : StoreResult) : (s.seqDone kind r).clients = s.clients := by
  unfold State.seqDone
  split
  · exact State.seqNext_clients r
  · rfl

theorem State.seqSelectorDone_clients (order : Nat) (p : SelPurpose) (ok : Bool) : (s.seqSelectorDone order p ok).clients = s.clients := by
  have hnote : (s.noteRevert p ok).clients = s.clients := by
    unfold State.noteRevert
    split <;> rfl
  unfold State.seqSelectorDone
  simp only
  repeat' split
  all_goals first
    | exact hnote
    | exact (State.startOp_clients _ _).trans hnote

/-! ### Peers, frames and messages -/

theorem State.enterPeer_clients {id : Nat} {a : Advert} {t : State} (h : s.enterPeer id a = some t) : t.clients = s.clients := by
  unfold State.enterPeer at h
  split at h
  · cases h
    rfl
  · split at h
    · cases h
      exact State.raise_clients _ _
    · cases h

theorem State.receive_clients (w : WireFrame) : (s.receive w).clients = s.clients := by
  unfold State.receive State.queueFrame
  repeat' split
  all_goals simp

theorem State.takeLink_clients (tag : Tag) (b : List Byte) : (s.takeLink tag b).clients = s.clients := by
  unfold State.takeLink
  simp only
  split <;> rfl

theorem State.frameTaken_clients : s.frameTaken.clients = s.clients := by
  unfold State.frameTaken
  repeat' split
  all_goals simp

/-! ### Flows -/

theorem State.mapFlow_clients (j : Fin 128) (f : FlowRecord → FlowRecord) : (s.mapFlow j f).clients = s.clients := by
  unfold State.mapFlow
  split
  · exact (State.putFlow_same _ _ s).2.2.2.2.2.2.1
  · rfl
  · rfl

theorem State.sampleFlow_clients (i : Fin 64) (r : ClientRecord) (d : Digest) (x : FlowSample) :
    (s.sampleFlow i r d x).clients = s.clients := by
  have hput : ∀ k y, (s.putFlow k y).clients = s.clients := fun k y => (State.putFlow_same k y s).2.2.2.2.2.2.1
  unfold State.sampleFlow State.classify
  simp only
  repeat' split
  all_goals first
    | rfl
    | exact hput _ _
    | exact State.flowActivity_clients

theorem State.round_clients : s.round.clients = s.clients := walk_same State.clients _ State.testFlow_clients _ s

theorem demoteOver_clients (fair n : Nat) (s : State) : (demoteOver fair n s).clients = s.clients := by
  induction n generalizing s with
  | zero => rfl
  | succ n ih =>
    unfold demoteOver
    split
    · split
      · exact (ih _).trans (State.putFlow_same _ _ s).2.2.2.2.2.2.1
      · rfl
    · rfl

theorem State.hearAirtime_clients : s.hearAirtime.clients = s.clients := by
  have hover : s.overshoot.clients = s.clients := by
    unfold State.overshoot
    split
    · exact demoteOver_clients _ _ _
    · rfl
  exact State.round_clients.trans hover

theorem State.enterContext_clients (i : Fin 64) (c : ClientId) (gs : List CarriedFlow) : (s.enterContext i c gs).clients = s.clients := by
  refine walk_same State.clients _ (fun g u => ?_) gs s
  unfold State.enterCarried
  split
  · rfl
  · split
    · exact (State.putFlow_same _ _ u).2.2.2.2.2.2.1
    · rfl

theorem State.resolveFlows_clients (c : ClientId) : (s.resolveFlows c).clients = s.clients :=
  walk_same State.clients _ State.testFlow_clients _ s

end

end Sys2Proof.Machine
end

section
/-! SUPPORT. Proofs: how a record's minutes and day stamp move, and the operations under which every record lasts (O60). -/

namespace Sys2Proof.Machine

/-! ### One record, before and after -/

/-- Used minutes within a day, and none while PROVISIONAL (R22, R96). -/
def ClientRecord.Sound (r : ClientRecord) : Prop := r.used ≤ 1440 ∧ (r.state = .provisional → r.used = 0)

/-- A sound record grows older: of the same client, its day stamp does not fall, nor within a day its used minutes. -/
def ClientRecord.Ages (r q : ClientRecord) : Prop :=
  r.Sound → q.Sound ∧ q.client = r.client ∧ r.dayStamp ≤ q.dayStamp ∧ (q.dayStamp = r.dayStamp → r.used ≤ q.used)

section
variable {r q x : ClientRecord}

theorem ClientRecord.Ages.refl (r : ClientRecord) : r.Ages r := fun h => ⟨h, rfl, le_rfl, fun _ => le_rfl⟩

theorem ClientRecord.Ages.trans (h : r.Ages q) (k : q.Ages x) : r.Ages x := fun hr => by
  obtain ⟨hq, hqc, hqd, hqu⟩ := h hr
  obtain ⟨hx, hxc, hxd, hxu⟩ := k hq
  refine ⟨hx, hxc.trans hqc, hqd.trans hxd, fun hd => ?_⟩
  have hday : q.dayStamp = r.dayStamp := le_antisymm (hxd.trans_eq hd) hqd
  exact (hqu hday).trans (hxu (hd.trans hday.symm))

/-- A change that leaves the client and the figures, and makes no record PROVISIONAL. -/
theorem ClientRecord.Ages.of_same (hc : q.client = r.client) (hu : q.used = r.used) (hd : q.dayStamp = r.dayStamp)
    (hst : q.state = .provisional → r.state = .provisional) : r.Ages q := fun h =>
  ⟨⟨hu ▸ h.1, fun hp => hu.trans (h.2 (hst hp))⟩, hc, hd.ge, fun _ => hu.ge⟩

theorem ClientRecord.ages_countMinute (r : ClientRecord) : r.Ages r.countMinute := by
  by_cases hc : r.Counts
  · rw [ClientRecord.countMinute_counts hc]
    intro h
    refine ⟨⟨Nat.min_le_left _ _, fun hp => ?_⟩, rfl, le_rfl, fun _ => le_min h.1 (Nat.le_succ _)⟩
    have hst : r.state = .provisional := hp
    rcases hc.2.1 with h1 | h1 | h1 <;> rw [hst] at h1 <;> cases h1
  · rw [ClientRecord.countMinute_idle hc]
    exact .of_same rfl rfl rfl id

theorem ClientRecord.ages_resetDay (day : Nat) (r : ClientRecord) : r.Ages (r.resetDay day) := by
  unfold ClientRecord.resetDay
  split
  · rename_i h
    exact fun _ => ⟨⟨Nat.zero_le _, fun _ => rfl⟩, rfl, h.2.le, fun hd => absurd hd h.2.ne'⟩
  · exact .refl r

theorem ClientRecord.ages_rebind (b : Book) (r : ClientRecord) : r.Ages (r.rebind b) := by
  unfold ClientRecord.rebind
  split
  · exact .of_same rfl rfl rfl id
  · exact .refl r

theorem ClientRecord.ages_smooth (dbm : Int) (r : ClientRecord) : r.Ages (r.smooth dbm) := by
  unfold ClientRecord.smooth
  simp only
  split <;> exact .of_same rfl rfl rfl id

theorem ClientRecord.ages_worked (a : Access) (r : ClientRecord) : r.Ages (if r.held then { r with access := a } else r) := by
  split
  · exact .of_same rfl rfl rfl id
  · exact .refl r

/-- The figures of a merge lie within the day, and never before those merged into (R66). -/
theorem mergeFigures_ages {used delta day usedThere dayThere : Nat} (hu : used ≤ 1440) :
    (mergeFigures used delta day usedThere dayThere).2 ≤ 1440 ∧ day ≤ (mergeFigures used delta day usedThere dayThere).1 ∧
      ((mergeFigures used delta day usedThere dayThere).1 = day → used ≤ (mergeFigures used delta day usedThere dayThere).2) := by
  have hmax : Config.maxUsed = 1440 := rfl
  unfold mergeFigures
  rw [hmax]
  split
  · exact ⟨Nat.min_le_left _ _, le_rfl, fun _ => le_min hu (Nat.le_max_left _ _)⟩
  · split
    · exact ⟨Nat.min_le_left _ _, le_rfl, fun _ => le_min hu (Nat.le_max_left _ _)⟩
    · exact ⟨Nat.min_le_left _ _, by simp only; omega, fun h => by simp only at h; omega⟩

theorem ClientRecord.ages_merged (h : Handover) (hst : r.state ≠ .provisional) :
    let m := mergeFigures r.used r.countedHere r.dayStamp h.used h.dayStamp
    r.Ages { r with dayStamp := m.1, used := m.2, contextAwaited := false } := fun hr => by
  obtain ⟨h1, h2, h3⟩ := mergeFigures_ages (delta := r.countedHere) (day := r.dayStamp) (usedThere := h.used)
    (dayThere := h.dayStamp) hr.1
  exact ⟨⟨h1, fun hp => absurd hp hst⟩, rfl, h2, h3⟩

theorem ClientRecord.ages_resolved (h : Handover) (hst : r.state = .provisional) :
    let m := mergeFigures 0 r.countedHere r.dayStamp h.used h.dayStamp
    r.Ages (r.resolved m.1 m.2) := fun hr => by
  obtain ⟨h1, h2, h3⟩ := mergeFigures_ages (used := 0) (delta := r.countedHere) (day := r.dayStamp) (usedThere := h.used)
    (dayThere := h.dayStamp) (Nat.zero_le _)
  refine ⟨⟨h1, nofun⟩, rfl, h2, fun hd => ?_⟩
  rw [hr.2 hst]
  exact Nat.zero_le _

/-- The figure of a PROVISIONAL expiry, with an allowance within a day (R68). -/
theorem ClientRecord.ages_fallback {p : Profile} {fallback : Nat} (hp : ∀ a, p.allowance = some a → a ≤ 1440) :
    r.Ages (r.resolved r.dayStamp (fallbackFigure p.allowance fallback r.used)) := fun hr => by
  have hle : r.used ≤ fallbackFigure p.allowance fallback r.used ∧ fallbackFigure p.allowance fallback r.used ≤ 1440 := by
    unfold fallbackFigure
    cases ha : p.allowance with
    | none => exact ⟨le_rfl, hr.1⟩
    | some a => exact ⟨Nat.le_max_left _ _, max_le hr.1 ((Nat.sub_le _ _).trans (hp a ha))⟩
  exact ⟨⟨hle.2, nofun⟩, rfl, le_rfl, fun _ => hle.1⟩

end

/-! ### Every record lasts -/

/-- Every record of `t` is one of `s`, grown older. -/
def Lasts (s t : State) : Prop := ∀ i q, t.record i = some q → ∃ r, s.record i = some r ∧ r.Ages q

section
variable {s t u : State}

theorem Lasts.refl (s : State) : Lasts s s := fun _ q h => ⟨q, h, .refl q⟩

theorem Lasts.trans (h : Lasts s t) (k : Lasts t u) : Lasts s u := fun i q hq => by
  obtain ⟨x, hx, hxq⟩ := k i q hq
  obtain ⟨r, hr, hrx⟩ := h i x hx
  exact ⟨r, hr, hrx.trans hxq⟩

/-- Transitivity, from the operation done last. -/
theorem Lasts.after (k : Lasts t u) (h : Lasts s t) : Lasts s u := h.trans k

theorem Lasts.of_table (h : t.clients.table = s.clients.table) : Lasts s t := fun i q hq =>
  ⟨q, by rw [State.record, ← h]; exact hq, .refl q⟩

theorem Lasts.of_clients (h : t.clients = s.clients) : Lasts s t := .of_table (congrArg ClientUnit.table h)

theorem Lasts.walk {α : Type} {f : α → State → State} (h : ∀ x u, Lasts u (f x u)) (l : List α) (s : State) :
    Lasts s (walk l f s) := walk_keeps (fun u => Lasts s u) f (fun x _ hu => hu.trans (h x _)) l s (.refl s)

variable {i : Fin 64} {r q : ClientRecord}

theorem Lasts.putRecord (hr : s.record i = some r) (h : r.Ages q) : Lasts s (s.putRecord i q) := fun k x hx => by
  rw [State.record_putRecord] at hx
  split at hx
  · rename_i hik
    cases hx
    exact ⟨r, hik ▸ hr, h⟩
  · exact ⟨x, hx, .refl x⟩

theorem Lasts.mapRecords {f : ClientRecord → ClientRecord} (h : ∀ r, ClientRecord.Ages r (f r)) (s : State) : Lasts s (s.mapRecords f) :=
  fun k x hx => by
    rw [State.record_mapRecords] at hx
    obtain ⟨r, hr, rfl⟩ := Option.map_eq_some_iff.mp hx
    exact ⟨r, hr, h r⟩

theorem State.deleteSlot_lasts (i : Fin 64) (s : State) : Lasts s (s.deleteSlot i) := fun k x hx => by
  rw [State.record_deleteSlot] at hx
  split at hx
  · cases hx
  · exact ⟨x, hx, .refl x⟩

/-! ### Access, and the end of an event -/

theorem State.recompute_lasts (i : Fin 64) (s : State) : Lasts s (s.recompute i) := fun k x hx => by
  rw [State.record_recompute] at hx
  split at hx
  · rename_i hik
    obtain ⟨r, hr, rfl⟩ := Option.map_eq_some_iff.mp hx
    exact ⟨r, hik ▸ hr, r.ages_worked _⟩
  · exact ⟨x, hx, .refl x⟩

theorem State.recomputeAll_lasts (s : State) : Lasts s s.recomputeAll := Lasts.walk State.recompute_lasts _ s

theorem State.beginOffer_lasts (p : Nat) (hr : s.record i = some r) : Lasts s (s.beginOffer i r p) := fun k x hx => by
  rw [State.beginOffer_record] at hx
  split at hx
  · rename_i hki
    cases hx
    exact ⟨r, hki ▸ hr, .of_same rfl rfl rfl nofun⟩
  · exact ⟨x, hx, .refl x⟩

theorem State.evacuateSlot_lasts (i : Fin 64) (s : State) : Lasts s (s.evacuateSlot i) := by
  unfold State.evacuateSlot
  split
  · rename_i r hr
    split
    · simp only
      split
      · split
        · exact State.beginOffer_lasts (s := s.examine r.client) _ hr
        · exact .of_table rfl
      · exact .of_table rfl
    · exact .refl s
  · exact .refl s

theorem lasts_evacuated (s : State) : Evacuated fun u => Lasts s u where
  same hg h := h.trans (.of_table (congrArg Gist.table hg))
  drops u i _ _ _ h := h.trans (State.deleteSlot_lasts i u)
  passes u i h := h.trans (State.evacuateSlot_lasts i u)

theorem lasts_endures (s : State) : Endures fun u => Lasts s u where
  same hg h := (lasts_evacuated s).same hg h
  tests u j _ _ _ h := h.trans (.of_clients (State.testFlow_clients j u))
  drops := (lasts_evacuated s).drops
  passes := (lasts_evacuated s).passes

theorem State.settleWith_lasts (test : Bool) (s : State) : Lasts s (s.settleWith test) := (lasts_endures s).settleWith test (.refl s)

theorem State.gateTest_lasts (s : State) : Lasts s s.gateTest := (lasts_evacuated s).gateTest (.refl s)

theorem State.dropArriving_lasts (s : State) : Lasts s s.dropArriving := (lasts_evacuated s).dropArriving (.refl s)

/-! ### The activation controller -/

theorem State.enterRestarting_lasts (s : State) : Lasts s s.enterRestarting :=
  Lasts.trans (t := { s with act := { s.act with state := .restarting }, dist := { s.dist with serve := [] } }) (.of_table rfl)
    (State.dropArriving_lasts _)

theorem State.confirmExpired_lasts (s : State) : Lasts s s.confirmExpired := by
  have henter := State.enterRestarting_lasts { s with act := { s.act with confirmHeld := false } }
  exact Lasts.trans henter (.of_clients (State.submitRetried_clients _))

theorem State.confirmEnds_lasts (s : State) : Lasts s s.confirmEnds := by
  unfold State.confirmEnds
  simp only
  split
  · exact .of_table rfl
  · exact State.confirmExpired_lasts _

theorem State.selectorWritten_lasts (w : RetriedWrite) (s : State) : Lasts s (s.selectorWritten w) := by
  have hend : (s.clearWriteMark.endRetry w.order).clients = s.clients := State.endRetry_clients _
  unfold State.selectorWritten
  simp only
  split
  · exact (Lasts.of_clients hend).trans (State.enterRestarting_lasts _)
  · exact .of_clients hend
  · exact .of_clients hend
  · split <;> exact .of_clients hend
  · exact .of_clients hend
  · exact .of_clients hend

theorem State.selectorFailed_lasts (w : RetriedWrite) (s : State) : Lasts s (s.selectorFailed w) := by
  have hretry : ∀ u : State, u.clients = s.clients → Lasts s (u.startRetry w) := fun u hu =>
    .of_clients ((State.startRetry_clients w).trans hu)
  unfold State.selectorFailed
  simp only
  split
  · exact State.gateTest_lasts _
  · split
    · exact State.confirmExpired_lasts _
    · exact .of_table rfl
  all_goals exact hretry _ rfl

theorem State.checkDone_lasts (k : SlotId) (v : Nat) (x : StoreResult) (s : State) : Lasts s (s.checkDone k v x) := by
  have hready : ∀ u : State, Lasts u u.slotReady := fun u => by
    unfold State.slotReady
    split
    · exact State.gateTest_lasts _
    · exact .refl u
  unfold State.checkDone
  split
  · split
    · exact Lasts.trans (.of_clients (by rw [State.raise_clients, State.putSlotRecord_clients])) (hready _)
    · exact .of_clients (by rw [State.raise_clients]; exact State.putSlotRecord_clients _ _ _)
    · exact .of_clients (State.putSlotRecord_clients _ _ _)
  · exact .refl s

/-! ### Completions -/

theorem State.deliver_lasts (op : StoreOp) (x : StoreResult) (s : State) : Lasts s (s.deliver op x) := by
  have hfill : ∀ kind, Lasts s (s.deliverFill kind x) := fun kind => by
    unfold State.deliverFill
    split
    · exact .of_clients (State.eraseDone_clients _ _ _ _)
    · exact .of_clients (State.programDone_clients _ _ _ _)
    · exact .of_clients (State.verifyDone_clients _ _ _ _)
    · exact State.checkDone_lasts _ _ _ s
    · exact .of_clients (State.manifestWritten_clients _ _ _)
    · exact .refl s
  have hselector : ∀ order p sel, Lasts s (s.deliverSelector op.owner order p sel x) := fun order p sel => by
    have hwritten : ∀ w, Lasts s (if x = .ok then s.selectorWritten w else s.selectorFailed w) := fun w => by
      split
      · exact State.selectorWritten_lasts w s
      · exact State.selectorFailed_lasts w s
    unfold State.deliverSelector
    simp only
    split
    · exact (hwritten _).trans (.of_clients (State.seqSelectorDone_clients _ _ _))
    · exact hwritten _
  unfold State.deliver
  split
  · exact hselector _ _ _
  · split
    · exact .of_clients (State.seqDone_clients _ _)
    · exact hfill _
    · split
      · exact .of_clients (State.readDone_clients _ _ _ _ _)
      · exact .refl s
    · exact .of_clients (State.bookWritten_clients _)
    · exact .of_table rfl
    · exact .of_table rfl
    · exact .refl s

theorem State.settle_lasts (s : State) : Lasts s s.settle := State.settleWith_lasts false s

theorem State.completeOp_lasts (op : StoreOp) (d : Device) (s : State) : Lasts s (s.completeOp op d) := by
  have hwalk := Lasts.walk (f := fun x u => (State.deliver x.1 x.2 u).settle)
    (fun x u => .after (State.settle_lasts _) (State.deliver_lasts x.1 x.2 u)) (s.complete op d).2 (s.complete op d).1
  exact hwalk.after (.of_clients (State.complete_clients op d))

theorem State.completion_lasts (p : OpKind → Bool) (n : Nat) (d : Device) (s : State) : Lasts s (s.completion p n d) := by
  have hclock : Lasts s (s.clockTo n) := .of_clients rfl
  unfold State.completion
  simp only
  split
  · split
    · exact .after (State.completeOp_lasts _ _ _) hclock
    · exact hclock
  · exact hclock

/-! ### Time and book -/

theorem State.minuteEvent_lasts (s : State) : Lasts s s.minuteEvent :=
  .after (State.settleWith_lasts _ _) (.after (State.recomputeAll_lasts _) (.mapRecords ClientRecord.ages_countMinute s))

theorem State.minuteStep_lasts (s : State) : Lasts s s.minuteStep := by
  unfold State.minuteStep
  split
  · exact .refl s
  · exact .after (State.minuteEvent_lasts _) (.of_table rfl)

theorem State.dayEvent_lasts (day : Nat) (s : State) : Lasts s (s.dayEvent day) :=
  .after (State.settle_lasts _) (.after (State.recomputeAll_lasts _) (.after (Lasts.walk State.deleteSlot_lasts _ _)
    (.mapRecords (ClientRecord.ages_resetDay day) s)))

theorem State.dayStep_lasts (s : State) : Lasts s s.dayStep := by
  unfold State.dayStep
  split
  · exact .after (State.dayEvent_lasts _ _) (.of_table rfl)
  · exact .refl s

theorem State.timeChanged_lasts (timeSet : Bool) (s : State) : Lasts s (s.timeChanged timeSet) := by
  have hsteps : Lasts s s.minuteStep.dayStep := .after (State.dayStep_lasts _) (State.minuteStep_lasts s)
  unfold State.timeChanged
  split
  · simp only
    split
    · exact .after (State.settle_lasts _) (.after (State.recomputeAll_lasts _) hsteps)
    · exact hsteps
  · exact .refl s

theorem State.setTimeTo_lasts (mesh rank : Nat) (x : Notice) (s : State) :
    Lasts s (State.timeChanged true ((s.setMesh mesh rank).raise x)) :=
  .after (State.timeChanged_lasts _ _) (.of_clients (State.raise_clients _ _))

theorem State.hearTime_lasts (peer mesh rank : Nat) (s : State) : Lasts s (s.hearTime peer mesh rank) := by
  unfold State.hearTime
  split
  · exact State.setTimeTo_lasts _ _ _ s
  · exact .refl s

theorem State.tickAt_lasts (d : Nat) (s : State) : Lasts s (s.tickAt d) := by
  unfold State.tickAt State.tickTime
  exact .after (.of_clients State.submitBook_clients) (.after (State.timeChanged_lasts _ _) (.of_table rfl))

theorem State.adopt_lasts (b : Book) (s : State) : Lasts s (s.adopt b) := by
  unfold State.adopt
  exact .after (State.settleWith_lasts _ _) (.after (.of_clients ((State.raise_clients _ _).trans State.submitBook_clients))
    (.after (State.recomputeAll_lasts _) (.after (.mapRecords (ClientRecord.ages_rebind b) _) (.of_table rfl))))

theorem State.stage_lasts (g : Staging) (s : State) : Lasts s (s.stage g) := by
  unfold State.stage State.stagingComplete
  split
  · simp only
    split
    · split
      · exact .after (State.adopt_lasts _ _) (.of_table rfl)
      · exact .of_table rfl
    · exact .of_table rfl
  · exact .of_table rfl

theorem State.takeSegment_lasts (v o len i : Nat) (part : List Byte) (s : State) : Lasts s (s.takeSegment v o len i part) := by
  unfold State.takeSegment
  simp only
  repeat' split
  all_goals first | exact .refl s | exact State.stage_lasts _ s

theorem State.loadBook_lasts (bs : List Byte) (s : State) : Lasts s (s.loadBook bs).1 := by
  unfold State.loadBook
  split
  · exact .refl s
  · split
    · exact .refl s
    · exact State.adopt_lasts _ s

end

end Sys2Proof.Machine
end

section
/-! SUPPORT. Proofs: under every operation but those that create a record, the records last (O60). -/

namespace Sys2Proof.Machine

section
variable {s : State} {i : Fin 64} {r q : ClientRecord}

/-- A change of one record that leaves its figures. -/
theorem Lasts.putSame (hr : s.record i = some r) (hc : q.client = r.client) (hu : q.used = r.used) (hd : q.dayStamp = r.dayStamp)
    (hst : q.state = .provisional → r.state = .provisional) : Lasts s (s.putRecord i q) :=
  .putRecord hr (.of_same hc hu hd hst)

theorem State.mapClient_lasts (c : ClientId) {f : ClientRecord → ClientRecord} (h : ∀ r, ClientRecord.Ages r (f r)) (s : State) :
    Lasts s (s.mapClient c f) := by
  unfold State.mapClient
  split
  · split
    · rename_i r hr
      exact .putRecord hr (h r)
    · exact .refl s
  · exact .refl s

/-! ### Association and departure -/

theorem State.associateKnown_lasts (hr : s.record i = some r) (rate : Nat) (steerable : Bool) :
    Lasts s (s.associateKnown i r rate steerable) := by
  have hrestored : Lasts s ((s.putRecord i (r.restored rate steerable s.now)).recompute i) :=
    .after (State.recompute_lasts i _) (.putSame hr rfl rfl rfl nofun)
  have harrived : Lasts s ((s.putRecord i (r.arrived rate steerable s.now)).recompute i) :=
    .after (State.recompute_lasts i _) (.putSame hr rfl rfl rfl nofun)
  unfold State.associateKnown
  split
  case h_5 => exact .after (.of_table rfl) hrestored
  case h_6 =>
    simp only
    refine .after (.of_clients (State.send_clients _ _ _)) (.after (.of_table (State.forgetHeard_clients_table _ _))
      (.after (.of_clients (State.setAccessMark_clients _ _ _)) ?_))
    split
    · exact .after (.of_clients (State.settleReserved_clients _)) harrived
    · exact harrived
  all_goals exact .putSame hr rfl rfl rfl id

theorem State.depart_lasts (hr : s.record i = some r) : Lasts s (s.depart i r) := by
  have hput : Lasts s (s.putRecord i (r.departedAt s.now)) := .putSame hr rfl rfl rfl nofun
  unfold State.depart
  simp only
  refine .after (.of_table rfl) (.after (.of_clients (State.removeClientFlows_clients _ _)) ?_)
  split
  · exact .after (.of_clients (State.setSteerMark_clients _ _ _)) hput
  · exact hput

theorem State.takeDisassociate_lasts (tag : Tag) (b : List Byte) (s : State) : Lasts s (s.takeDisassociate tag b) := by
  unfold State.takeDisassociate
  split
  · split
    · rename_i r hr
      split
      · exact .after (State.settle_lasts _) (State.depart_lasts hr)
      · exact .refl s
    · exact .refl s
  · exact .refl s

/-! ### Signals and activity -/

theorem State.takeSignal_lasts (tag : Tag) (b : List Byte) (s : State) : Lasts s (s.takeSignal tag b) := by
  unfold State.takeSignal
  split
  · split
    · rename_i r hr
      split
      · exact .after (.of_table rfl) (.putRecord hr (r.ages_smooth _))
      · exact .refl s
    · exact .refl s
  · exact .refl s

theorem State.noteActivity_lasts (c : ClientId) (s : State) : Lasts s (s.noteActivity c) := by
  unfold State.noteActivity
  split
  · split
    · rename_i r hr
      split
      · exact .putSame hr rfl rfl rfl id
      · exact .refl s
    · exact .refl s
  · exact .refl s

theorem State.takeFlowSample_lasts (tag : Tag) (b : List Byte) (s : State) : Lasts s (s.takeFlowSample tag b) := by
  unfold State.takeFlowSample
  split
  · split
    · split
      · exact .after (State.settle_lasts _) (.of_clients (State.sampleFlow_clients _ _ _ _))
      · exact .refl s
    · exact .refl s
  · exact .refl s

theorem State.takeFlowActive_lasts (tag : Tag) (b : List Byte) (s : State) : Lasts s (s.takeFlowActive tag b) := by
  have hnote := State.noteActivity_lasts (clientField b 0) s
  unfold State.takeFlowActive
  simp only
  split
  · exact .after (State.settle_lasts _) (.after (.of_clients State.flowActivity_clients) hnote)
  · exact hnote

theorem State.takeFlowEnd_lasts (tag : Tag) (b : List Byte) (s : State) : Lasts s (s.takeFlowEnd tag b) := by
  unfold State.takeFlowEnd
  simp only
  split
  · split
    · exact .after (State.settle_lasts _) (.of_clients (State.removeFlow_clients _ _))
    · exact .refl s
  · exact .refl s

/-! ### Roaming -/

theorem State.evaluateRecord_lasts (hr : s.record i = some r) (x : Int) :
    Lasts s (s.evaluateRecord i r x) := by
  have hexamine : Lasts s (s.examine r.client) := .of_clients (State.examine_clients _ _)
  have hput : ∀ q : ClientRecord, q.client = r.client → q.used = r.used → q.dayStamp = r.dayStamp → q.state = r.state →
      Lasts s ((s.examine r.client).putRecord i q) := fun q hc hu hd hs =>
    .after (.putSame hr hc hu hd (hs ▸ id)) hexamine
  unfold State.evaluateRecord
  split
  · simp only
    split
    · split
      · split
        · split
          · exact .after (State.beginOffer_lasts _ hr) hexamine
          · exact hput _ rfl rfl rfl rfl
        · exact hput _ rfl rfl rfl rfl
      · exact hput _ rfl rfl rfl rfl
    · exact hput _ rfl rfl rfl rfl
  · exact .putSame hr rfl rfl rfl id

theorem State.evaluateClient_lasts (c : ClientId) (s : State) : Lasts s (s.evaluateClient c) := by
  unfold State.evaluateClient
  split
  · split
    · rename_i r hr
      split
      · exact State.evaluateRecord_lasts hr _
      · exact .refl s
    · exact .refl s
  · exact .refl s

theorem State.evaluateNext_lasts (s : State) : Lasts s s.evaluateNext := by
  unfold State.evaluateNext
  split
  · split
    · exact .after (State.settle_lasts _) (.after (State.evaluateClient_lasts _ _) (.of_table rfl))
    · exact .refl s
  · exact .refl s

theorem State.takeAccept_lasts (sender : Nat) (c : ClientId) (s : State) : Lasts s (s.takeAccept sender c) := by
  unfold State.takeAccept
  split
  · split
    · rename_i r hr
      split
      · exact .after (.of_clients (State.setSteerMark_clients _ _ _)) (.putSame hr rfl rfl rfl (fun h => nomatch h))
      · exact .refl s
    · exact .refl s
  · exact .refl s

theorem State.endOffer_lasts (hr : s.record i = some r) (p : Nat) (why : FailReason) : Lasts s (s.endOffer i r p why) :=
  .after (.of_clients (State.raise_clients _ _)) (.putSame hr rfl rfl rfl nofun)

theorem State.releaseTo_lasts (i : Fin 64) (r : ClientRecord) (claimer : Nat) (s : State) : Lasts s (s.releaseTo i r claimer) :=
  .after (.of_clients (State.raise_clients _ _)) (.after (State.deleteSlot_lasts _ _) (.of_clients (State.send_clients _ _ _)))

theorem State.takeDecline_lasts (sender : Nat) (c : ClientId) (reason : Nat) (s : State) : Lasts s (s.takeDecline sender c reason) := by
  unfold State.takeDecline
  split
  · exact .refl s
  · split
    · split
      · rename_i r hr
        split
        · split
          · exact State.releaseTo_lasts _ _ _ s
          · exact State.endOffer_lasts hr _ _
        · exact .refl s
      · exact .refl s
    · exact .refl s

theorem State.takeClaim_lasts (sender : Nat) (c : ClientId) (s : State) : Lasts s (s.takeClaim sender c) := by
  unfold State.takeClaim
  split
  · split
    · split
      · exact .refl s
      · exact State.releaseTo_lasts _ _ _ s
    · exact .refl s
  · exact .refl s

/-! ### CONTEXT -/

theorem State.mergeContext_lasts (hr : s.record i = some r) (hst : r.state ≠ .provisional) (h : Handover) :
    Lasts s (s.mergeContext i r h) :=
  .after (State.recompute_lasts _ _) (.putRecord hr (r.ages_merged h hst))

theorem State.resolveContext_lasts (hr : s.record i = some r) (hst : r.state = .provisional) (h : Handover) :
    Lasts s (s.resolveContext i r h) :=
  .after (.of_clients (State.resolveFlows_clients _)) (.after (.of_clients (State.enterContext_clients _ _ _))
    (.after (State.recompute_lasts _ _) (.putRecord hr (r.ages_resolved h hst))))

theorem State.takeContext_lasts (h : Handover) (s : State) : Lasts s (s.takeContext h) := by
  unfold State.takeContext
  split
  · split
    · split
      · rename_i r hr
        split
        · split
          case h_1 hst => exact State.resolveContext_lasts hr hst h
          case h_5 => exact .refl s
          case h_6 => exact .refl s
          all_goals
            rename_i hst
            exact State.mergeContext_lasts hr (by rw [hst]; exact nofun) h
        · exact .refl s
      · exact .refl s
    · exact .refl s
  · exact .refl s

/-! ### Timers of a record -/

theorem State.handoffEnds_lasts (c : ClientId) {take : Fin 64 → ClientRecord → State → State}
    (h : ∀ i r, s.record i = some r → Lasts s (take i r s)) : Lasts s (s.handoffEnds c take) := by
  unfold State.handoffEnds
  split
  · split
    · rename_i hr
      exact .after (State.settle_lasts _) (h _ _ hr)
    · exact .refl s
  · exact .refl s

theorem State.offeringEnds_lasts (hr : s.record i = some r) : Lasts s (s.offeringEnds i r) := by
  unfold State.offeringEnds
  split
  · exact State.endOffer_lasts hr _ _
  · exact .refl s

theorem State.handingEnds_lasts (hr : s.record i = some r) : Lasts s (s.handingEnds i r) :=
  .after (.of_clients (State.raise_clients _ _)) (.after (.of_clients (State.setSteerMark_clients _ _ _))
    (.putSame hr rfl rfl rfl (fun h => nomatch h)))

/-- Whether the allowances of the working book lie within a day (R87). -/
def State.Clamped (s : State) : Prop := ∀ p ∈ s.sched.book.profiles, ∀ a, p.allowance = some a → a ≤ 1440

theorem State.Clamped.profileAt (h : s.Clamped) (n : Nat) : ∀ a, (s.sched.book.profileAt n).allowance = some a → a ≤ 1440 := by
  unfold Book.profileAt
  rw [List.getD_eq_getElem?_getD]
  cases hn : s.sched.book.profiles[n]? with
  | none => exact nofun
  | some p => exact h p (List.mem_of_getElem? hn)

theorem State.provisionalEnds_lasts (h : s.Clamped) (hr : s.record i = some r) : Lasts s (s.provisionalEnds i r) :=
  .after (.of_clients (State.resolveFlows_clients _)) (.after (State.recompute_lasts _ _)
    (.putRecord hr (ClientRecord.ages_fallback (h.profileAt _))))

/-! ### Peers -/

theorem State.goStale_lasts (id : Nat) (s : State) : Lasts s (s.goStale id) :=
  .after (State.settleWith_lasts _ _) (.of_table rfl)

theorem State.losePeer_lasts (id : Nat) (s : State) : Lasts s (s.losePeer id) :=
  .after (State.settleWith_lasts _ _) (.after (.of_clients (State.cutCredits_clients _)) (.of_clients (State.raise_clients _ _)))

theorem State.hearFlags_lasts (peer : Nat) (evacuating : Bool) (s : State) : Lasts s (s.hearFlags peer evacuating) := by
  unfold State.hearFlags
  split
  · exact .after (State.gateTest_lasts _) (.of_table rfl)
  · exact State.gateTest_lasts s

theorem State.handOn_lasts (peer : Nat) (a : Advert) (s : State) : Lasts s (s.handOn peer a) :=
  .after (State.hearFlags_lasts _ _ _) (.after (.of_clients State.hearAirtime_clients) (.after (.of_clients (State.hearImage_clients _ _))
    (.after (.of_clients (State.hearBook_clients _ _ _)) (State.hearTime_lasts _ _ _ s))))

theorem State.takeAdvert_lasts (f : Frame) (s : State) : Lasts s (s.takeAdvert f) := by
  unfold State.takeAdvert
  split
  · split
    · exact .of_clients (State.raise_clients _ _)
    · split
      · split
        · rename_i t ht
          exact .after (State.handOn_lasts _ _ _) (Lasts.trans (.of_clients (State.enterPeer_clients ht)) (.of_table rfl))
        · exact .refl s
      · exact .refl s
  · exact .refl s

theorem State.advertExpiry_lasts (d : Nat) (s : State) : Lasts s (s.advertExpiry d) := by
  have hpass : ∀ u : State, Lasts u u.pass := Lasts.walk State.evacuateSlot_lasts _
  have hcheck : ∀ u : State, Lasts u u.endCheck := fun u => (lasts_evacuated u).endCheck (.refl u)
  have hplaced : Lasts s (s.placeAdvert s.buildAdvert) := .of_clients (State.clients_of_aside (State.placeAdvert_aside _ s))
  unfold State.advertExpiry
  simp only
  have hturns : ∀ u : State, Lasts u u.submitOwed.pullStep.serveEngine := fun u =>
    .after (.of_clients State.serveEngine_clients) (.after (.of_clients (State.clients_of_aside (State.pullStep_aside _)))
      (.of_clients (State.clients_of_aside (State.submitOwed_aside u))))
  refine .after (State.settle_lasts _) ?_
  split
  · exact .after (hcheck _) (.after (hpass _) (.after (hturns _) (.after (.of_table rfl) hplaced)))
  · exact .after (hturns _) (.after (.of_table rfl) hplaced)

theorem State.limitReached_lasts (s : State) : Lasts s s.limitReached := by
  unfold State.limitReached
  split
  · exact .after (State.settle_lasts _) ((lasts_evacuated s).commit (.refl s))
  · exact .refl s

/-! ### Commands of the host -/

theorem State.answer_lasts (tag : Tag) {x : State × Status} (h : Lasts s x.1) : Lasts s (answer tag x) :=
  .after (.of_clients (State.reply_clients _ _ _)) h

theorem State.takeSetTime_lasts (tag : Tag) (b : List Byte) (s : State) : Lasts s (s.takeSetTime tag b) :=
  .after (.of_clients (State.reply_clients _ _ _)) (.after (State.timeChanged_lasts _ _) (.of_clients (State.setMesh_clients _ _ _)))

theorem State.takeActivateNow_lasts (tag : Tag) (b : List Byte) (s : State) : Lasts s (s.takeActivateNow tag b) := by
  unfold State.takeActivateNow
  simp only
  split
  · exact .after (.of_clients (State.reply_clients _ _ _)) (.after (State.settleWith_lasts _ _) (.of_table rfl))
  all_goals exact .of_table rfl

theorem State.takeConfirmImage_clients (tag : Tag) (b : List Byte) : (s.takeConfirmImage tag b).clients = s.clients := by
  unfold State.takeConfirmImage
  simp only
  repeat' split
  all_goals first
    | rfl
    | exact State.submitSelector_clients _ _

theorem State.takeWriteConfig_clients (tag : Tag) (b : List Byte) : (s.takeWriteConfig tag b).clients = s.clients := by
  unfold State.takeWriteConfig
  simp only
  repeat' split
  all_goals first
    | rfl
    | exact State.submit_clients _

theorem State.takeReadRecord_clients (tag : Tag) (b : List Byte) : (s.takeReadRecord tag b).clients = s.clients := by
  unfold State.takeReadRecord
  simp only
  repeat' split
  all_goals first
    | rfl
    | exact State.submit_clients _

theorem State.takeSighting_lasts (tag : Tag) (b : List Byte) (s : State) : Lasts s (s.takeSighting tag b) := by
  unfold State.takeSighting
  simp only
  split
  · exact .refl s
  · exact .of_table rfl

/-! ### Sending to the host -/

theorem State.nextDirective_clients {t : State} {m : PortMessage} (h : s.nextDirective = some (m, t)) : t.clients = s.clients := by
  have hsent : ∀ (j : Fin 128), ((s.releaseSent j).setClassMark j false).clients = s.clients := fun j => by
    unfold State.releaseSent
    split <;> rfl
  unfold State.nextDirective at h
  simp only at h
  split at h
  · cases h
    rfl
  · split at h
    · cases h
      rfl
    · split at h
      · rename_i x hx
        cases h
        obtain ⟨i, -, hi⟩ := List.exists_of_findSome?_eq_some hx
        split at hi
        · obtain ⟨r, -, hr⟩ := Option.map_eq_some_iff.mp hi
          cases hr
          rfl
        · cases hi
      · rename_i x _ hx
        cases h
        obtain ⟨i, -, hi⟩ := List.exists_of_findSome?_eq_some hx
        split at hi
        · obtain ⟨r, -, hr⟩ := Option.map_eq_some_iff.mp hi
          cases hr
          rfl
        · cases hi
      · obtain ⟨j, -, hj⟩ := List.exists_of_findSome?_eq_some h
        split at hj
        · obtain ⟨r, -, hr⟩ := Option.map_eq_some_iff.mp hj
          cases hr
          exact hsent j
        · cases hj

theorem State.nextMessage_lasts {t : State} {m : PortMessage} (h : s.nextMessage = some (m, t)) : Lasts s t := by
  unfold State.nextMessage at h
  split at h
  · cases h
    exact .of_table rfl
  · cases h
    exact .of_table rfl
  · split at h
    · rename_i hx
      cases h
      exact .of_clients (State.nextDirective_clients hx)
    · split at h
      · cases h
        exact .of_table rfl
      · cases h

theorem State.sendNext_lasts (s : State) : Lasts s s.sendNext := by
  unfold State.sendNext
  split
  · rename_i h
    exact (State.nextMessage_lasts h).trans (.of_table rfl)
  · exact .refl s

/-! With no message waiting in the link, none is taken when the port resumes (R171). -/

theorem State.resume_none (h : s.port.link = []) : s.resume = s := by
  rw [State.resume, h, drain]

theorem State.accept_lasts (h : s.port.link = []) : Lasts s s.accept := by
  unfold State.accept
  split
  · obtain ⟨_, _, he⟩ := State.sendNext_fixed s
    rw [State.resume_none ((congrArg Fixed.link he).trans h)]
    exact State.sendNext_lasts s
  · exact .refl s

theorem State.startCompletes_lasts (s : State) : Lasts s s.startCompletes := by
  unfold State.startCompletes
  exact .after (State.settleWith_lasts _ _) (.of_table rfl)

theorem State.sequenceEnds_lasts (h : s.port.link = []) : Lasts s s.sequenceEnds := by
  have hlink : s.startCompletes.port.link = s.port.link :=
    congrArg Fixed.link (State.settleWith_fixed _ _)
  unfold State.sequenceEnds
  split
  · rw [State.resume_none (hlink.trans h)]
    exact State.startCompletes_lasts s
  · exact .refl s

end

end Sys2Proof.Machine
end

section
/-! SUPPORT. Proofs: a record's day stamp never decreases, nor its used minutes within a day (O60). -/

namespace Sys2Proof.Machine

/-! ### Slots that empty, and slots that are filled -/

/-- Of the records of `s`, all that `u` no longer holds as they were had departed. -/
def Clears (s u : State) : Prop := ∀ i r, s.record i = some r → u.record i ≠ some r → r.state = .departed

/-- Each record of `t` is one of `s`, grown older, or a new one in a slot that was empty or held a DEPARTED record. -/
def Grown (s t : State) : Prop := ∀ i q, t.record i = some q →
  (∃ r, s.record i = some r ∧ r.Ages q) ∨ (q.Sound ∧ ∀ r, s.record i = some r → r.state = .departed)

section
variable {s t u : State} {i : Fin 64} {q r : ClientRecord}

theorem Clears.refl (s : State) : Clears s s := fun _ _ h hn => absurd h hn

theorem Clears.trans (h : Clears s u) (k : Clears u t) : Clears s t := fun i r hr hn => by
  by_cases hu : u.record i = some r
  · exact k i r hu hn
  · exact h i r hr hu

theorem Clears.deleteSlot (hr : s.record i = some r) (hst : r.state = .departed) : Clears s (s.deleteSlot i) := fun k q hq hn => by
  rw [State.record_deleteSlot] at hn
  split at hn
  · rename_i hik
    cases (hik ▸ hr).symm.trans hq
    exact hst
  · exact absurd hq hn

theorem Grown.of_lasts (h : Lasts s t) : Grown s t := fun i q hq => .inl (h i q hq)

theorem Grown.refl (s : State) : Grown s s := .of_lasts (.refl s)

theorem Grown.of_table (h : u.clients.table = s.clients.table) (k : Grown u t) : Grown s t := fun i q hq => by
  have hsame : u.record i = s.record i := by rw [State.record, h, State.record]
  exact hsame ▸ k i q hq

/-- What follows ages the new records like the others. -/
theorem Grown.after (k : Lasts t u) (h : Grown s t) : Grown s u := fun i q hq => by
  obtain ⟨x, hx, hage⟩ := k i q hq
  rcases h i x hx with ⟨r, hr, hrx⟩ | ⟨hsound, hdep⟩
  · exact .inl ⟨r, hr, hrx.trans hage⟩
  · exact .inr ⟨(hage hsound).1, hdep⟩

/-- A sound record takes an empty slot. -/
theorem Grown.putNew (hc : Clears s u) (hl : Lasts s u) (hempty : u.record i = none) (hq : q.Sound) : Grown s (u.putRecord i q) :=
  fun k x hx => by
    rw [State.record_putRecord] at hx
    split at hx
    · rename_i hik
      cases hx
      exact .inr ⟨hq, fun r hr => hc k r hr (by rw [← hik, hempty]; exact nofun)⟩
    · exact .inl (hl k x hx)

/-! ### ASSOCIATE and OFFER -/

/-- The slot found for a new record is empty, or was that of a DEPARTED record (R22, R23). -/
theorem State.takeSlot_clears {x : Option (Fin 64)} (h : s.takeSlot = (x, u)) : Clears s u ∧ Lasts s u := by
  unfold State.takeSlot at h
  split at h
  · cases h
    exact ⟨.refl s, .refl s⟩
  · split at h
    · rename_i j hj
      cases h
      rw [State.reclaimable_eq, Option.map_eq_some_iff] at hj
      obtain ⟨w, hw, rfl⟩ := hj
      obtain ⟨r, hr, hst, -⟩ := State.mem_departures.mp ((mem_sortBy _ w _).mp (List.mem_of_head? hw))
      exact ⟨.deleteSlot hr hst, State.deleteSlot_lasts _ s⟩
    · cases h
      exact ⟨.refl s, .refl s⟩

theorem State.associateNew_grown (c : ClientId) (rate : Nat) (steerable : Bool) (s : State) :
    Grown s (s.associateNew c rate steerable) := by
  unfold State.associateNew
  split
  · rename_i u hu
    exact .of_lasts (.after (.of_table rfl) (State.takeSlot_clears hu).2)
  · rename_i i u hu
    obtain ⟨hclears, hlasts⟩ := State.takeSlot_clears hu
    simp only
    refine .after (.of_clients (State.send_clients _ _ _)) (.after (.of_table rfl) ?_)
    exact .putNew hclears hlasts (State.takeSlot_empty hu).1 ⟨Nat.zero_le _, fun _ => rfl⟩

theorem State.takeAssociate_grown (tag : Tag) (b : List Byte) (s : State) : Grown s (s.takeAssociate tag b) := by
  unfold State.takeAssociate
  simp only
  refine .after (State.settle_lasts _) ?_
  split
  · split
    · rename_i hr
      exact .of_lasts (State.associateKnown_lasts hr _ _)
    · exact .refl s
  · exact State.associateNew_grown _ _ _ s

theorem State.releaseDeparted_clears (c : ClientId) (s : State) : Clears s (s.releaseDeparted c) ∧ Lasts s (s.releaseDeparted c) := by
  unfold State.releaseDeparted
  split
  · split
    · rename_i r hr
      split
      · rename_i hst
        exact ⟨.deleteSlot hr hst, State.deleteSlot_lasts _ s⟩
      · exact ⟨.refl s, .refl s⟩
    · exact ⟨.refl s, .refl s⟩
  · exact ⟨.refl s, .refl s⟩

theorem Handover.used_of_inRange {h : Handover} (hin : h.inRange = true) : h.used ≤ 1440 := by
  unfold Handover.inRange at hin
  simp only [Bool.and_eq_true, decide_eq_true_eq] at hin
  exact hin.1.1.1

theorem State.acceptOffer_grown (hc : Clears s u) (hl : Lasts s u) {h : Handover} (hin : h.inRange = true) (sender : Nat)
    (a : Access) : Grown s (u.acceptOffer sender h a) := by
  unfold State.acceptOffer
  split
  · rename_i v hv
    exact .of_lasts (hl.trans (State.takeSlot_clears hv).2)
  · rename_i i v hv
    obtain ⟨hclears, hlasts⟩ := State.takeSlot_clears hv
    simp only
    refine .after (.of_clients (State.send_clients _ _ _)) (.after (.of_clients (State.reserveFlows_clients _ _))
      (.after (State.recompute_lasts _ _) ?_))
    exact .putNew (hc.trans hclears) (hl.trans hlasts) (State.takeSlot_empty hv).1
      ⟨Handover.used_of_inRange hin, fun h => nomatch h⟩

theorem State.takeOffer_grown (sender : Nat) (h : Handover) (s : State) : Grown s (s.takeOffer sender h) := by
  obtain ⟨hclears, hlasts⟩ := State.releaseDeparted_clears h.client s
  unfold State.takeOffer
  split
  · rename_i hin _
    simp only
    split
    · exact .of_lasts (.after (.of_clients (State.send_clients _ _ _)) hlasts)
    · exact State.acceptOffer_grown hclears hlasts hin _ _
  · exact .refl s

/-! ### Every command -/

theorem State.handle_grown (k : HostKind) (tag : Tag) (b : List Byte) (s : State) : Grown s (s.handle k tag b) := by
  cases k with
  | associate => exact State.takeAssociate_grown tag b s
  | disassociate => exact .of_lasts (State.takeDisassociate_lasts tag b s)
  | signal => exact .of_lasts (State.takeSignal_lasts tag b s)
  | sighting => exact .of_lasts (State.takeSighting_lasts tag b s)
  | link => exact .of_lasts (.of_clients (State.takeLink_clients tag b))
  | clientActivity => exact .of_lasts (State.noteActivity_lasts _ s)
  | flowSample => exact .of_lasts (State.takeFlowSample_lasts tag b s)
  | flowActive => exact .of_lasts (State.takeFlowActive_lasts tag b s)
  | flowEnd => exact .of_lasts (State.takeFlowEnd_lasts tag b s)
  | loadBook => exact .of_lasts (State.answer_lasts tag (State.loadBook_lasts b s))
  | setTime => exact .of_lasts (State.takeSetTime_lasts tag b s)
  | seedManifest => exact .of_lasts (State.answer_lasts tag (.of_clients (State.seedManifest_clients _)))
  | seedChunk => exact .of_lasts (State.answer_lasts tag (.of_clients (State.seedChunk_clients _ _ _)))
  | activateNow => exact .of_lasts (State.takeActivateNow_lasts tag b s)
  | confirmImage => exact .of_lasts (.of_clients (State.takeConfirmImage_clients tag b))
  | readRecord => exact .of_lasts (.of_clients (State.takeReadRecord_clients tag b))
  | writeConfig => exact .of_lasts (.of_clients (State.takeWriteConfig_clients tag b))

theorem State.hostMessage_grown (k : HostKind) (n : Nat) (m : HostMsg) (s : State) : Grown s (s.hostMessage k n m) := by
  have htake : ∀ v : State, Grown v (v.takeMessage k m) := fun v => by
    unfold State.takeMessage
    split
    · exact .refl v
    · split
      · exact .of_lasts (.of_clients (State.reply_clients _ _ _))
      · exact State.handle_grown k m.tag m.body v
  unfold State.hostMessage
  simp only
  split
  · exact .of_table (u := s.clockTo n) rfl (htake _)
  · exact .of_lasts (.of_table rfl)

theorem State.onFrame_grown {take : Frame → State → State} (h : ∀ f v, Grown v (take f v)) (k : FrameKind) (n : Nat) (s : State) :
    Grown s (s.onFrame k take n) := by
  unfold State.onFrame
  simp only
  split
  · split
    · exact .after (State.settle_lasts _) (.of_table rfl (h _ _))
    · exact .of_lasts (.of_table rfl)
  · exact .of_lasts (.of_table rfl)

theorem State.expire_lasts {take : Nat → State → State} (due : Option Nat) (h : ∀ d, Lasts (s.clockTo d) (take d (s.clockTo d))) :
    Lasts s (s.expire due take) := by
  unfold State.expire
  split
  · split
    · exact .after (h _) (.of_clients rfl)
    · exact .refl s
  · exact .refl s

theorem State.retryExpiry_lasts (s : State) : Lasts s s.retryExpiry := by
  unfold State.retryExpiry
  split
  · exact .after (.of_clients State.retryEnds_clients) (.of_clients rfl)
  · exact .refl s

/-- A start holds no record (R2). -/
theorem State.beginStart_lasts (recovery : Bool) (cells : List Host.Cell) (s : State) : Lasts s (s.beginStart recovery cells) := by
  have hnone : ∀ v : State, v.clients.table = Vector.replicate 64 none → Lasts s v := fun v hv i q hq => by
    rw [State.record, hv] at hq
    simp at hq
  unfold State.beginStart
  simp only
  split <;> exact hnone _ (congrArg ClientUnit.table (State.startOp_clients _ _))

end

theorem exec_grown (c : Instr) {s t : State} (h : exec c s = .next t) (hlink : s.port.link = []) (hbook : s.Clamped) :
    Grown s t := by
  have ends : ∀ {u}, exec c s = .next u → Grown s u → Grown s t := fun he hu => Host.Outcome.next.inj (he.symm.trans h) ▸ hu
  have frame : ∀ {k take n}, exec c s = .next (s.onFrame k take n) → (∀ f u, Grown u (take f u)) → Grown s t :=
    fun he hk => ends he (State.onFrame_grown hk _ _ s)
  have timer : ∀ {due take}, exec c s = .next (s.expire due take) → (∀ d u, Lasts u (take d u)) → Grown s t :=
    fun he hk => ends he (.of_lasts (State.expire_lasts _ fun d => hk d _))
  have host : ∀ {k n m}, exec c s = .next (s.hostMessage k n m) → Grown s t :=
    fun he => ends he (State.hostMessage_grown _ _ _ s)
  have clocked : ∀ {n} {f : State → State}, exec c s = .next (f (s.clockTo n)) → Lasts (s.clockTo n) (f (s.clockTo n)) → Grown s t :=
    fun he hk => ends he (.of_table rfl (.of_lasts hk))
  have store : ∀ {p n d}, exec c s = .next (s.completion p n d) → Grown s t :=
    fun he => ends he (.of_lasts (State.completion_lasts _ _ _ s))
  have start : ∀ {b cells}, exec c s = .next (s.beginStart b cells) → Grown s t :=
    fun he => ends he (.of_lasts (State.beginStart_lasts _ _ s))
  have same : ∀ {u v : State}, v.clients = u.clients → Grown u v := fun he => .of_lasts (.of_clients he)
  cases c with
  | powerOnStart | hostRestart | recoveryStart => exact start rfl
  | startSequenceComplete n => exact clocked (f := State.sequenceEnds) rfl (State.sequenceEnds_lasts hlink)
  | frameReceived n w => exact clocked (f := State.receive w) rfl (.of_clients (State.receive_clients w))
  | advert => exact frame rfl fun f u => .of_lasts (State.takeAdvert_lasts f u)
  | offer =>
    refine frame rfl fun f u => ?_
    unfold State.onOffer
    split
    · exact State.takeOffer_grown _ _ u
    · exact .refl u
  | accept =>
    refine frame rfl fun f u => ?_
    unfold State.onAccept
    split
    · exact .of_lasts (State.takeAccept_lasts _ _ u)
    · exact .refl u
  | decline =>
    refine frame rfl fun f u => ?_
    unfold State.onDecline
    split
    · exact .of_lasts (State.takeDecline_lasts _ _ _ u)
    · exact .refl u
  | claim =>
    refine frame rfl fun f u => ?_
    unfold State.onClaim
    split
    · exact .of_lasts (State.takeClaim_lasts _ _ u)
    · exact .refl u
  | context =>
    refine frame rfl fun f u => ?_
    unfold State.onContext
    split
    · exact .of_lasts (State.takeContext_lasts _ u)
    · exact .refl u
  | bookRequest => exact frame rfl fun f u => same (State.takeBookRequest_clients _)
  | bookSegment =>
    refine frame rfl fun f u => ?_
    unfold State.onBookSegment
    split
    · exact .of_lasts (State.takeSegment_lasts _ _ _ _ _ u)
    · exact .refl u
  | manifestRequest =>
    refine frame rfl fun f u => ?_
    unfold State.onManifestRequest
    split
    · exact same (State.takeManifestRequest_clients _ _)
    · exact .refl u
  | manifest =>
    refine frame rfl fun f u => ?_
    unfold State.onManifest
    split
    · exact same (State.takeManifest_clients _)
    · exact .refl u
  | chunkRequest =>
    refine frame rfl fun f u => ?_
    unfold State.onChunkRequest
    split
    · exact same (State.takeChunkRequest_clients _ _ _ _ _ _)
    · exact .refl u
  | chunk =>
    refine frame rfl fun f u => ?_
    unfold State.onChunk
    split
    · exact same (State.takeChunk_clients _ _ _ _)
    · exact .refl u
  | chunkRefuse =>
    refine frame rfl fun f u => ?_
    unfold State.onChunkRefuse
    split
    · exact same (State.takeRefuse_clients _ _ _ _)
    · exact .refl u
  | frameTakenByRadio n => exact clocked (f := State.frameTaken) rfl (.of_clients State.frameTaken_clients)
  | associate | disassociate | signal | sighting | link | clientActivity | flowSample | flowActive | flowEnd | loadBook
  | setTime | seedManifest | seedChunk | activateNow | confirmImage | readRecord | writeConfig => exact host rfl
  | evaluation n => exact clocked (f := State.evaluateNext) rfl (State.evaluateNext_lasts _)
  | hostAcceptance n => exact clocked (f := State.accept) rfl (State.accept_lasts hlink)
  | advertTimerExpiry => exact timer rfl State.advertExpiry_lasts
  | freshnessTimerExpiry => exact timer rfl fun _ => State.goStale_lasts _
  | removalTimerExpiry => exact timer rfl fun _ => State.losePeer_lasts _
  | heardListExpiry => exact timer rfl fun _ u => .of_table (State.forgetHeard_clients_table _ _)
  | suspectUntilReached => exact timer rfl fun _ u => .of_clients (State.mapPeer_clients _ _ _)
  | declineHoldExpiry => exact timer rfl fun _ => State.mapClient_lasts _ fun r => .of_same rfl rfl rfl id
  | steerResistantExpiry => exact timer rfl fun _ => State.mapClient_lasts _ fun r => .of_same rfl rfl rfl id
  | offeringExpiry => exact timer rfl fun _ u => State.handoffEnds_lasts _ fun _ _ => State.offeringEnds_lasts
  | handingExpiry => exact timer rfl fun _ u => State.handoffEnds_lasts _ fun _ _ => State.handingEnds_lasts
  | arrivingExpiry => exact timer rfl fun _ u => State.handoffEnds_lasts _ fun i _ _ => State.deleteSlot_lasts i u
  | provisionalExpiry =>
    exact ends rfl (.of_lasts (State.expire_lasts _ fun d =>
      State.handoffEnds_lasts _ fun _ _ hr => State.provisionalEnds_lasts (s := s.clockTo d) hbook hr))
  | tick => exact timer rfl State.tickAt_lasts
  | ageingTimerExpiry => exact timer rfl fun _ u => .of_table rfl
  | stagingTimerExpiry => exact timer rfl fun _ u => .of_table rfl
  | idleTimerExpiry => exact timer rfl fun _ u => .after (State.settle_lasts _) (.of_clients (State.mapFlow_clients _ _))
  | flowRemovalTimerExpiry => exact timer rfl fun _ u => .after (State.settle_lasts _) (.of_clients (State.removeFlow_clients _ u))
  | holdUntilReached => exact timer rfl fun _ u => .of_clients (State.mapFlow_clients _ _)
  | chunkRequestExpiry => exact timer rfl fun _ u => .of_clients (State.closeRequest_clients u)
  | evacuationLimitExpiry => exact timer rfl fun _ => State.limitReached_lasts
  | confirmTimerExpiry => exact timer rfl fun _ u => .after (State.settle_lasts _) (State.confirmEnds_lasts u)
  | writeRetryTimerExpiry => exact ends rfl (.of_lasts (State.retryExpiry_lasts s))
  | readChunkCompletion | programChunkCompletion | eraseBlockCompletion | verifyBlockCompletion | checkImageCompletion
  | recordWriteCompletion | recordReadCompletion => exact store rfl

/-- Settles O60: each command ages the records it finds, and makes a new one only in a slot that was empty or held a DEPARTED
record. -/
theorem usedMinutesNeverDecrease : Obligations.UsedMinutesNeverDecrease := by
  intro c s t h hlink hused hprov hbook
  have hgrown := exec_grown c h hlink hbook
  have hsound : ∀ {i r}, s.record i = some r → r.Sound := fun hr => ⟨hused _ _ hr, hprov _ _ hr⟩
  refine ⟨fun i r q hr hq _ hst => ?_, fun i q hq => ?_⟩
  · rcases hgrown i q hq with ⟨x, hx, hage⟩ | ⟨-, hdep⟩
    · cases hr.symm.trans hx
      obtain ⟨-, -, hday, hmin⟩ := hage (hsound hr)
      exact ⟨hday, hmin⟩
    · exact absurd (hdep r hr) hst
  · rcases hgrown i q hq with ⟨x, hx, hage⟩ | ⟨hq', -⟩
    · exact (hage (hsound hx)).1
    · exact hq'

end Sys2Proof.Machine
end

section
/-! SUPPORT. Proofs: the best candidate of a record (O26). -/

namespace Sys2Proof.Machine

/-! ### Eligibility and score (R43, R44) -/

section
variable {s : State} {r : ClientRecord} {g : SightingEntry} {p : PeerEntry} {id : Nat} {x : Int}

theorem PeerEntry.eligible_iff : p.eligible r = true ↔ p.MayServe r := by
  have hpath : Config.noPath = 63 := rfl
  simp [PeerEntry.eligible, PeerEntry.MayServe, hpath, and_assoc]

theorem State.scoreIs_iff :
    s.ScoreIs g p x ↔ x = scoreOf g.smoothed p.advert.pathCost s.peers.ownPath p.advert.clientCount s.clientCount := by
  have hload : (if s.clientCount < p.advert.clientCount then ((min 40 (2 * (p.advert.clientCount - s.clientCount)) : Nat) : Int)
      else 0) = min 40 (2 * max 0 ((p.advert.clientCount : Int) - s.clientCount)) := by
    split <;> omega
  unfold State.ScoreIs scoreOf
  simp only
  rw [← hload]
  constructor <;> intro h <;> rw [h] <;> split <;> push_cast <;> omega

/-- The cost term lies within ±64 and the load term within 0..40 (R44). -/
theorem State.ScoreIs.bounds (h : s.ScoreIs g p x) : g.smoothed - 104 ≤ x ∧ x ≤ g.smoothed + 64 := by
  unfold State.ScoreIs at h
  omega

/-! ### The candidates (R43, R45) -/

theorem State.mem_candidates : (id, x) ∈ s.candidates r ↔ ∃ g ∈ s.peers.sightings, ∃ p, g.client = r.client ∧
    s.peer g.peer = some p ∧ p.MayServe r ∧ p.id = id ∧ s.ScoreIs g p x := by
  unfold State.candidates
  rw [List.mem_filterMap]
  constructor
  · rintro ⟨g, hg, hmade⟩
    obtain ⟨hgs, hgc⟩ := List.mem_filter.mp hg
    split at hmade
    · rename_i p hp
      split at hmade
      · rename_i he
        cases hmade
        exact ⟨g, hgs, p, beq_iff_eq.mp hgc, hp, PeerEntry.eligible_iff.mp he, rfl, State.scoreIs_iff.mpr rfl⟩
      · cases hmade
    · cases hmade
  · rintro ⟨g, hgs, p, hgc, hp, hserve, rfl, hscore⟩
    refine ⟨g, List.mem_filter.mpr ⟨hgs, beq_iff_eq.mpr hgc⟩, ?_⟩
    simp only [hp, PeerEntry.eligible_iff.mpr hserve, if_true, State.scoreIs_iff.mp hscore]

theorem State.bestCandidate_eq_none : s.bestCandidate r = none ↔ ∀ c, c ∉ s.candidates r := by
  refine ⟨fun h c hc => ?_, fun h => ?_⟩
  · obtain ⟨w, hw⟩ := head_sortBy_of_mem betterCandidate hc
    exact Option.some_ne_none w (hw.symm.trans h)
  · cases hb : s.bestCandidate r with
    | none => rfl
    | some w => exact absurd (mem_of_head_sortBy hb) (h w)

end

/-- Settles O26: the candidates are the eligible peers with a sighting of the client, each with its score, and the best of them
comes first in order. -/
theorem bestCandidateIsTheHighest : Obligations.BestCandidateIsTheHighest := by
  unfold Obligations.BestCandidateIsTheHighest
  refine fun s r => ⟨?_, fun id x hbest => ?_, fun g p x hscore hlow hhigh => ?_⟩
  · rw [State.bestCandidate_eq_none]
    refine ⟨fun hnone g hg p hc hp hserve => ?_, fun hnone c hc => ?_⟩
    · exact hnone _ (State.mem_candidates.mpr ⟨g, hg, p, hc, hp, hserve, rfl, State.scoreIs_iff.mpr rfl⟩)
    · obtain ⟨g, hg, p, hgc, hp, hserve, -⟩ := State.mem_candidates.mp hc
      exact hnone g hg p hgc hp hserve
  · obtain ⟨hmem, hfirst⟩ := State.bestCandidate_spec hbest
    refine ⟨State.mem_candidates.mp hmem, fun g hg p y hc hp hserve hscore => ?_⟩
    exact hfirst (p.id, y) (State.mem_candidates.mpr ⟨g, hg, p, hc, hp, hserve, rfl, hscore⟩)
  · obtain ⟨hbelow, habove⟩ := hscore.bounds
    omega

end Sys2Proof.Machine
end

section
/-! SUPPORT. Proofs: the gates (R89, R160), and what an entry to EVACUATING leaves to the end of its event (R161, R162, R164;
O46). -/

namespace Sys2Proof.Machine

/-! ### The gates -/

theorem State.quietNow_iff {s : State} : s.quietNow = true ↔ s.time.rank < 15 ∧
    s.sched.book.quiet.ActiveAt (s.time.mesh / 86400 % 7) (s.time.mesh % 86400 / 60) := by
  rw [State.quietNow, Bool.and_eq_true, decide_eq_true_eq, Span.activeAt_iff]
  exact Iff.rfl

theorem State.anyEvacuating_iff {s : State} : (s.freshPeers.any fun p => p.advert.evacuating) = true ↔ s.PeerEvacuates := by
  simp [State.freshPeers, State.PeerEvacuates]

/-- The fourth gate is open when no fresh peer evacuates. -/
theorem State.not_peerEvacuates_iff {s : State} :
    ¬s.PeerEvacuates ↔ ∀ p ∈ s.peers.table, p.fresh = true → p.advert.evacuating = false := by
  simp [State.PeerEvacuates]

theorem State.gatesOpen_iff {s : State} : s.gatesOpen = true ↔ s.GatesOpen := by
  have hflows : s.anyAdmitted = false ↔ ∀ j f, s.flow j = .used f → f.state ≠ .admitted := by
    rw [← Bool.not_eq_true, State.anyAdmitted_iff]
    simp
  have hpeers : (s.freshPeers.any fun p => p.advert.evacuating) = false ↔
      ∀ p ∈ s.peers.table, p.fresh = true → p.advert.evacuating = false := by
    rw [← Bool.not_eq_true, State.anyEvacuating_iff, State.not_peerEvacuates_iff]
  rw [State.gatesOpen, Bool.and_eq_true, Bool.and_eq_true, Bool.and_eq_true, Bool.or_eq_true, Bool.or_eq_true, Bool.not_eq_true',
    Bool.not_eq_true', Bool.not_eq_true', State.quietNow_iff, hflows, hpeers, and_assoc, and_assoc]
  exact Iff.rfl

/-- With the activate-now mark set the trial and the peers alone can keep the gates shut (R160). -/
theorem State.gatesOpen_marked {s : State} (h : s.act.activateNow = true) :
    s.GatesOpen ↔ s.act.sel.trial = false ∧ ¬s.PeerEvacuates := by
  simp [State.GatesOpen, h, State.not_peerEvacuates_iff]

/-- What the gates read beside the flows. -/
structure SameGates (s t : State) : Prop where
  trial : t.act.sel.trial = s.act.sel.trial
  mark : t.act.activateNow = s.act.activateNow
  rank : t.time.rank = s.time.rank
  mesh : t.time.mesh = s.time.mesh
  book : t.sched.book = s.sched.book
  peers : t.PeerEvacuates ↔ s.PeerEvacuates

theorem SameGates.iff {s t : State} (h : SameGates s t) (hf : s.act.activateNow = true ∨ t.prio.flows = s.prio.flows) :
    t.GatesOpen ↔ s.GatesOpen := by
  rcases hf with hmark | hf
  · rw [State.gatesOpen_marked hmark, State.gatesOpen_marked (h.mark.trans hmark), h.trial, h.peers]
  · have hflow : ∀ j, t.flow j = s.flow j := fun j => by rw [State.flow, State.flow, hf]
    simp only [State.GatesOpen, ← State.not_peerEvacuates_iff, h.trial, h.mark, h.rank, h.mesh, h.book, h.peers, hflow]

theorem SameGates.of_beside {s t : State} (h : t.beside = s.beside) : SameGates s t := by
  obtain ⟨-, -, htime, hsched, -, htable, -⟩ := State.still_parts (State.still_of_beside h)
  have hact := State.act_of_beside h
  exact ⟨by rw [hact], by rw [hact], by rw [htime], by rw [htime], by rw [hsched], by rw [State.PeerEvacuates, htable]; exact Iff.rfl⟩

theorem State.gateTest_shut {s : State} (h : ¬s.GatesOpen) : s.gateTest = s :=
  if_neg fun hh => h (State.gatesOpen_iff.mp hh.2)

theorem State.gateTest_open {s : State} (hw : s.act.state = .waiting) (h : s.GatesOpen) :
    s.gateTest = s.beginEvacuation.endCheck := if_pos ⟨hw, State.gatesOpen_iff.mpr h⟩

/-! ### The rest of an event behind its gate test (log entry 8) -/

/-- The Priority Unit's end of an event and the evacuation's check, as they follow the gate test. -/
def State.restOfEvent (s : State) : State :=
  { (if s.priorityEnd.ev.departed then s.priorityEnd.endCheck else s.priorityEnd) with ev := EventMarks.clear }

theorem State.settleWith_true (s : State) : s.settleWith true = s.retest.gateTest.restOfEvent := rfl

theorem State.settle_eq (s : State) :
    s.settle = (if s.retest.ev.admittedChanged then s.retest.gateTest else s.retest).restOfEvent := by
  unfold State.settle State.settleWith State.restOfEvent
  simp only [Bool.false_or]

/-- Beside an evacuation the rest of an event leaves the controller alone. -/
theorem State.restOfEvent_act {s : State} (h : s.act.state ≠ .evacuating) : s.restOfEvent.act = s.act := by
  have hact : s.priorityEnd.act = s.act := State.act_of_beside (State.priorityEnd_beside s)
  have hcheck : s.priorityEnd.endCheck = s.priorityEnd := if_neg fun hh => h (hact ▸ hh.1)
  unfold State.restOfEvent
  rw [hcheck, ite_self]
  exact hact

/-! ### The entry to EVACUATING (R161, R162, R164) -/

theorem State.not_closed_iff {s : State} : ¬s.Closed ↔ ∃ i r, s.record i = some r ∧ r.HoldsOpen := by
  simp only [State.Closed, not_forall, not_not, exists_prop]

/-- No record is ARRIVING. -/
def State.NoneArrives (s : State) : Prop := ∀ i r, s.record i = some r → r.state ≠ .arriving

theorem noneArrives_evacuated : Evacuated State.NoneArrives where
  same hg h i r hr := h i r ((State.record_of_gist hg i).symm.trans hr)
  drops _ i r hr hst h := absurd hst (h i r hr)
  passes _ _ h k q hq hst := h k q (State.evacuateSlot_arriving hq hst) hst

/-- `t` is what the entry of `s` to EVACUATING leaves, to the end of its event. -/
structure Entered (s t : State) : Prop where
  arriving : t.NoneArrives
  goesOn : ¬s.Closed →
    t.act = { s.act with state := .evacuating, evacuationDue := some (s.now + 30000) } ∧ ¬t.Closed
  commits : s.Closed → t.act.state = .committing ∧ t.act.evacuationDue = none ∧ t.Flies
    { owner := .activation
      kind := .selectorWrite s.store.orders .commit (s.act.sel.committed s.spareSlot) (some s.nextSelector) }

section
variable {s t u : State}

theorem Entered.of_same (h : Entered s t) (hc : u.clients = t.clients) (ha : u.act = t.act) (hs : u.store = t.store) :
    Entered s u := by
  have hrec : ∀ i, u.record i = t.record i := fun i => by rw [State.record, State.record, hc]
  refine ⟨fun i r hr => h.arriving i r ((hrec i).symm.trans hr), fun ho => ?_, fun hcl => ?_⟩
  · obtain ⟨hact, hopen⟩ := h.goesOn ho
    exact ⟨ha.trans hact, fun hcl => hopen fun i r hr => hcl i r ((hrec i).trans hr)⟩
  · rw [State.Flies, ha, hs]
    exact h.commits hcl

theorem Entered.of_beside (h : Entered s t) (hb : u.beside = t.beside) (hc : u.clients = t.clients) : Entered s u :=
  h.of_same hc (State.act_of_beside hb) (State.store_of_beside hb)

theorem Entered.not_waiting (h : Entered s t) : t.act.state ≠ .waiting := by
  by_cases hcl : s.Closed
  · rw [(h.commits hcl).1]
    exact nofun
  · rw [(h.goesOn hcl).1]
    exact nofun

/-- Once entered, an evacuation that goes on is held open, and one that is over has committed. -/
theorem Entered.endCheck (h : Entered s t) : t.endCheck = t := by
  by_cases hcl : s.Closed
  · exact if_neg fun hh => by rw [(h.commits hcl).1] at hh; cases hh.1
  · exact State.endCheck_open (State.not_closed_iff.mp (h.goesOn hcl).2)

theorem Entered.restOfEvent (h : Entered s t) : Entered s t.restOfEvent := by
  have hend : Entered s t.priorityEnd := h.of_beside (State.priorityEnd_beside t) (State.priorityEnd_clients t)
  unfold State.restOfEvent
  rw [hend.endCheck, ite_self]
  exact hend.of_same rfl rfl rfl

theorem Entered.settle (h : Entered s t) : Entered s t.settle := by
  have hre : Entered s t.retest := h.of_beside (State.retest_beside t) (State.retest_clients t)
  rw [State.settle_eq, State.gateTest_other hre.not_waiting, ite_self]
  exact hre.restOfEvent

/-- An entry to EVACUATING beside an idle store (R161, R162, R164). -/
theorem State.beginEvacuation_enters (hidle : s.StoreIdle) : Entered s s.beginEvacuation.endCheck := by
  obtain ⟨z, hz⟩ : ∃ z : State, z = { s with act := { s.act with state := .evacuating, evacuationDue := some (s.now + 30000) } } :=
    ⟨_, rfl⟩
  obtain ⟨y, hy⟩ : ∃ y, y = z.dropArriving := ⟨_, rfl⟩
  have hbegin : s.beginEvacuation = y.pass := by rw [hy, hz]; rfl
  have hyb : y.beside = z.beside := hy ▸ walk_beside State.deleteSlot_beside _ _
  have hyact : y.act = z.act := State.act_of_beside hyb
  have hystore : y.store = s.store := (State.store_of_beside hyb).trans (by rw [hz])
  have hyspare : y.spareSlot = s.spareSlot := by rw [State.spareSlot, State.dist_of_beside hyb, hz]; rfl
  have hspares : Spares z y := hy ▸ z.dropArriving_spares
  have hzrec : ∀ i, z.record i = s.record i := fun i => by rw [hz]; rfl
  have hynone : y.NoneArrives := fun i r hr => State.dropArriving_gone (s := z) (hy ▸ hr)
  obtain ⟨hpact, hpstore, -⟩ := y.pass_same
  have hpidle : y.pass.StoreIdle := by rw [State.StoreIdle, hpstore, hystore]; exact hidle
  have hpnone : y.pass.NoneArrives := walk_keeps _ State.evacuateSlot (fun i u => noneArrives_evacuated.passes u i) _ _ hynone
  rw [hbegin]
  refine ⟨noneArrives_evacuated.endCheck hpnone, fun ho => ?_, fun hcl => ?_⟩
  · obtain ⟨i, r, hr, hopen⟩ := State.not_closed_iff.mp ho
    have hyr : y.record i = some r := hspares.stand i r ((hzrec i).trans hr) fun harr => by
      rcases hopen.1 with h | h | h | h <;> rw [harr] at h <;> cases h
    have hpopen := y.pass_passed.open ⟨i, r, hyr, hopen⟩
    rw [State.endCheck_open hpopen, hpact, hyact, hz]
    exact ⟨rfl, State.not_closed_iff.mpr hpopen⟩
  · have hycl : y.Closed := hspares.closed fun i r hr => hcl i r ((hzrec i).symm.trans hr)
    have hpcl : y.pass.Closed := fun i r hr => hycl i r (by rw [State.record, ← State.pass_clients hycl]; exact hr)
    have hevac : y.pass.act.state = .evacuating := by rw [hpact, hyact, hz]
    have hpspare : y.pass.spareSlot = s.spareSlot := by
      obtain ⟨-, -, -, -, hdist, -⟩ := State.still_parts y.pass_still
      rw [State.spareSlot, hdist]
      exact hyspare
    have hpsel : y.pass.act.sel = s.act.sel := by rw [hpact, hyact, hz]
    obtain ⟨hstate, hdue, -, hflies⟩ := State.commit_idle_flies hpidle
    rw [State.nextSelector, hpstore, hystore, hpsel, hpspare] at hflies
    rw [State.endCheck_closed hevac hpcl]
    exact ⟨hstate, hdue, hflies⟩

/-- What an entry leaves, told of a part that differs from the one that entered in nothing an evacuation reads. -/
theorem Entered.evacuates {w : State} {now : Nat} (h : Entered w t) (hnow : w.now = now)
    (ha : { w.act with state := .waiting } = { s.act with state := .waiting }) (ho : w.store.orders = s.store.orders)
    (hn : w.nextSelector = s.nextSelector) (hspare : w.spareSlot = s.spareSlot) (hcl : w.Closed ↔ s.Closed) :
    s.Evacuates t now := by
  refine ⟨h.arriving, fun hopen => ?_, fun hclosed => ?_⟩
  · obtain ⟨hact, -⟩ := h.goesOn (mt hcl.mp (State.not_closed_iff.mpr hopen))
    rw [hact, hnow]
    exact congrArg (fun a : ActivationUnit => { a with state := .evacuating, evacuationDue := some (now + 30000) }) ha
  · obtain ⟨hstate, hdue, hflies⟩ := h.commits (hcl.mpr hclosed)
    have hsel : w.act.sel = s.act.sel := by simpa using congrArg (fun a : ActivationUnit => a.sel) ha
    rw [ho, hn, hspare, hsel] at hflies
    exact ⟨hstate, hdue, hflies⟩

/-- A gate test that the end of an event makes (R160): with a gate shut the WAITING controller is left as it was. -/
theorem State.settleWith_shut (hw : s.act.state = .waiting) (h : ¬s.retest.GatesOpen) : (s.settleWith true).act = s.act := by
  have hact : s.retest.act = s.act := State.act_of_beside (State.retest_beside s)
  rw [State.settleWith_true, State.gateTest_shut h, State.restOfEvent_act (by rw [hact, hw]; exact nofun), hact]

/-- With the four open it enters EVACUATING. -/
theorem State.settleWith_enters (hw : s.act.state = .waiting) (h : s.retest.GatesOpen) (hidle : s.StoreIdle) :
    Entered s.retest (s.settleWith true) := by
  have hb := State.retest_beside s
  have hact : s.retest.act.state = .waiting := by rw [State.act_of_beside hb, hw]
  have hstore : s.retest.StoreIdle := by rw [State.StoreIdle, State.store_of_beside hb]; exact hidle
  rw [State.settleWith_true, State.gateTest_open hact h]
  exact (State.beginEvacuation_enters hstore).restOfEvent

end

end Sys2Proof.Machine
end

section
/-! SUPPORT. Proofs: the occasions of a gate test: a slot that became READY, a peer that is stale or removed, a new minute (R15,
R75, R159, R160; O46). -/

namespace Sys2Proof.Machine

/-! ### The check of a whole image (R139, R154, R159) -/

section
variable {s : State} {v n : Nat} {d : Device} {k : SlotId}

theorem State.perform_checkImage_matched {crc : Crc} (hd : d.failed = false)
    (hcrc : crc32 (overlay d.cells k.base (Memory.readBytes s.store.flash k.base (n * 1024))) = crc) :
    s.perform { owner := .fill, kind := .checkImage k v n crc } d = (s.store.flash, .matched crc) := by
  have hback : readBack crc (overlay d.cells k.base (Memory.readBytes s.store.flash k.base (n * 1024))) = .matched crc := by
    rw [readBack, if_pos hcrc, hcrc]
  unfold State.perform
  rw [hd]
  exact congrArg (Prod.mk s.store.flash) hback

theorem State.checkDone_matched (c : Crc) (hst : (s.slot k).state = .checking) (hv : (s.slot k).version = some v) :
    s.checkDone k v (.matched c) = ((s.putSlotRecord k { s.slot k with state := .ready }).raise (.imageReady k v)).slotReady := by
  unfold State.checkDone
  rw [if_pos (by rw [hst, hv]; simp)]

/-- The part whose check matched, its controller WAITING and its gates not yet tested (R159). -/
def State.readied (s : State) (n v : Nat) : State :=
  let t := ((s.vacated n s.store.flash).putSlotRecord s.spareSlot { s.slot s.spareSlot with state := .ready }).raise
    (.imageReady s.spareSlot v)
  { t with act := { t.act with state := .waiting } }

/-- A check that matches makes the slot READY, and an IDLE controller tests its gates (R159, R160). -/
theorem State.check_readies {crc : Crc} {m : Nat} (hd : d.failed = false) (hi : s.act.state = .idle)
    (hst : (s.slot s.spareSlot).state = .checking) (hv : (s.slot s.spareSlot).version = some v)
    (hf : s.Flies { owner := .fill, kind := .checkImage s.spareSlot v m crc })
    (hcrc : crc32 (overlay d.cells s.spareSlot.base (Memory.readBytes s.store.flash s.spareSlot.base (m * 1024))) = crc) :
    exec (.checkImageCompletion n d) s = .next (s.readied n v).gateTest.settle := by
  obtain ⟨hflight, hwait⟩ := hf
  have hdone : s.completion OpKind.isCheck n d =
      (s.clockTo n).answered { owner := .fill, kind := .checkImage s.spareSlot v m crc } d (s.clockTo n).store.waiting :=
    State.completion_behind n d hflight rfl s.store.waiting
  have hperform : (s.clockTo n).perform { owner := .fill, kind := .checkImage s.spareSlot v m crc } d =
      (s.store.flash, .matched crc) := State.perform_checkImage_matched hd hcrc
  have hfreed : (s.clockTo n).freed { owner := .fill, kind := .checkImage s.spareSlot v m crc } d = s.vacated n s.store.flash := by
    unfold State.freed
    rw [hperform]
    rfl
  rw [State.answered_alone (s := s.clockTo n) d hwait, hfreed, hperform] at hdone
  refine congrArg Host.Outcome.next (hdone.trans (congrArg State.settle ?_))
  refine (State.checkDone_matched (s := s.vacated n s.store.flash) crc hst hv).trans (if_pos ?_)
  rw [State.raise_act, State.putSlotRecord_act]
  exact hi

/-- What the readied part shares with the one before. -/
theorem State.readied_parts (s : State) (n v : Nat) : (s.readied n v).act = { s.act with state := .waiting } ∧
    (s.readied n v).store = { s.store with inflight := none } ∧ (s.readied n v).spareSlot = s.spareSlot ∧
    (s.readied n v).now = max s.now n ∧ (s.readied n v).clients = s.clients ∧ (s.readied n v).peers = s.peers ∧
    (s.readied n v).time = s.time ∧ (s.readied n v).sched = s.sched ∧ (s.readied n v).prio = s.prio ∧
    (s.readied n v).ev = s.ev := by
  have hspare : ∀ u : State, ∀ k r, (u.putSlotRecord k r).dist.active = u.dist.active := fun u k r => by cases k <;> rfl
  unfold State.readied State.spareSlot
  simp only [State.raise_act, State.raise_store, State.raise_dist, State.raise_now, State.raise_clients, State.raise_peers,
    State.raise_time, State.raise_sched, State.raise_prio, State.raise_ev, State.putSlotRecord_act, State.putSlotRecord_store,
    State.putSlotRecord_now, State.putSlotRecord_clients, State.putSlotRecord_peers, State.putSlotRecord_time,
    State.putSlotRecord_sched, State.putSlotRecord_prio, State.putSlotRecord_ev, hspare]
  exact ⟨rfl, rfl, rfl, rfl, rfl, rfl, rfl, rfl, rfl, rfl⟩

theorem State.readied_gates (s : State) (n v : Nat) : (s.readied n v).GatesOpen ↔ s.GatesOpen := by
  obtain ⟨hact, -, -, -, -, hpeers, htime, hsched, hprio, -⟩ := s.readied_parts n v
  refine SameGates.iff ⟨by rw [hact], by rw [hact], by rw [htime], by rw [htime], by rw [hsched], ?_⟩ (.inr (by rw [hprio]))
  rw [State.PeerEvacuates, hpeers]
  exact Iff.rfl

/-- With a gate shut the controller waits. -/
theorem State.readied_waits (hm : s.MarksClear) (h : ¬s.GatesOpen) :
    (s.readied n v).gateTest.settle.act = { s.act with state := .waiting } := by
  obtain ⟨hact, -, -, -, -, -, -, -, -, hev⟩ := s.readied_parts n v
  rw [State.gateTest_shut (mt (s.readied_gates n v).mp h), State.settle_clear (hev.trans hm), hact]

/-- With the four open it evacuates (R160 to R162). -/
theorem State.readied_evacuates (hw : s.store.waiting = []) (h : s.GatesOpen) :
    s.Evacuates (s.readied n v).gateTest.settle (max s.now n) := by
  obtain ⟨hact, hstore, hspare, hnow, hclients, -, -, -, -, -⟩ := s.readied_parts n v
  have hidle : (s.readied n v).StoreIdle := by rw [State.StoreIdle, hstore]; exact ⟨rfl, hw⟩
  rw [State.gateTest_open (by rw [hact]) ((s.readied_gates n v).mpr h)]
  refine (State.beginEvacuation_enters hidle).settle.evacuates hnow (by rw [hact]) (by rw [hstore])
    (by rw [State.nextSelector, hstore]; rfl) hspare ?_
  unfold State.Closed
  simp only [State.record, hclients]

/-- Without ARRIVING records the entry's first pass has the records as they stood (R49, R162). -/
theorem State.readied_passes (hm : s.MarksClear) (h : s.GatesOpen) (hn : s.NoneArrives) :
    s.Passed (s.readied n v).gateTest.settle (max s.now n) := by
  obtain ⟨hact, -, -, hnow, hclients, hpeers, -, -, -, hev⟩ := s.readied_parts n v
  obtain ⟨z, hz⟩ : ∃ z : State, z = { s.readied n v with
      act := { (s.readied n v).act with state := .evacuating, evacuationDue := some ((s.readied n v).now + 30000) } } := ⟨_, rfl⟩
  have hzc : z.clients = s.clients := by rw [hz]; exact hclients
  have hzp : z.peers = s.peers := by rw [hz]; exact hpeers
  have hzn : z.now = max s.now n := by rw [hz]; exact hnow
  have hnone : z.slotsIn .arriving = [] := List.eq_nil_iff_forall_not_mem.mpr fun i hi => by
    obtain ⟨r, hr, hst⟩ := State.mem_slotsIn.mp hi
    exact hn i r (by rw [State.record, ← hzc]; exact hr) hst
  have hdrop : z.dropArriving = z := by rw [State.dropArriving, hnone]; rfl
  have hbegin : (s.readied n v).beginEvacuation = z.pass := by
    refine Eq.trans ?_ (congrArg State.pass hdrop)
    rw [hz]
    rfl
  rw [State.gateTest_open (by rw [hact]) ((s.readied_gates n v).mpr h), hbegin, ← hzn]
  have hmarks : z.MarksClear := by rw [State.MarksClear, hz]; exact hev.trans hm
  exact (State.passed_settle hmarks).of_same (by rw [hzp]) (by rw [hzp]) (by rw [hzp]) hzc

end

/-! ### An occasion of a gate test -/

/-- `u` is what an occasion of a gate test has made of `s` at a running time, of what an entry to EVACUATING reads: the records may
differ, but hold an evacuation open as they did. -/
structure Occasion (s u : State) (now : Nat) : Prop where
  act : u.act = s.act
  store : u.store = s.store
  spare : u.spareSlot = s.spareSlot
  now : u.now = now
  closed : u.Closed ↔ s.Closed

section
variable {s u : State} {now : Nat}

theorem Occasion.shut (h : Occasion s u now) (hw : s.act.state = .waiting) (hg : ¬u.retest.GatesOpen) :
    (u.settleWith true).act = s.act :=
  (State.settleWith_shut (by rw [h.act, hw]) hg).trans h.act

theorem Occasion.evacuates (h : Occasion s u now) (hw : s.act.state = .waiting) (hidle : s.StoreIdle) (hg : u.retest.GatesOpen) :
    s.Evacuates (u.settleWith true) now := by
  have hb := State.retest_beside u
  obtain ⟨hnow, -, -, -, hdist, -⟩ := State.still_parts (State.still_of_beside hb)
  have hact : u.retest.act = s.act := (State.act_of_beside hb).trans h.act
  have hstore : u.retest.store = s.store := (State.store_of_beside hb).trans h.store
  have hspare : u.retest.spareSlot = s.spareSlot := by rw [State.spareSlot, hdist]; exact h.spare
  refine (State.settleWith_enters (by rw [h.act, hw]) hg (by rw [State.StoreIdle, h.store]; exact hidle)).evacuates
    (hnow.trans h.now) (by rw [hact]) (by rw [hstore]) (by rw [State.nextSelector, hstore]; rfl) hspare ?_
  refine Iff.trans ?_ h.closed
  unfold State.Closed
  simp only [State.record, State.retest_clients]

/-! ### A peer that is stale or removed (R15, R160) -/

/-- The part without a peer's entry. -/
def State.without (s : State) (id : Nat) : State :=
  { s with peers := { s.peers with table := s.peers.table.filter fun q => q.id ≠ id } }

/-- Once the marks are clear an occasion tests the gates as it finds them. -/
theorem Occasion.tests {left : State} (h : Occasion s u now) (hm : s.MarksClear) (hev : u.ev = s.ev)
    (hw : s.act.state = .waiting) (hidle : s.StoreIdle) (hg : SameGates left u) (hf : u.prio.flows = left.prio.flows) :
    (¬left.GatesOpen → (u.settleWith true).act = s.act) ∧ (left.GatesOpen → s.Evacuates (u.settleWith true) now) := by
  have hre : u.retest = u := State.retest_unreleased (by rw [hev, hm]; rfl)
  have hiff : u.retest.GatesOpen ↔ left.GatesOpen := by rw [hre]; exact hg.iff (.inr hf)
  exact ⟨fun hshut => h.shut hw (mt hiff.mp hshut), fun hopen => h.evacuates hw hidle (hiff.mpr hopen)⟩

section
variable (hr : s.running = true) (hm : s.MarksClear) (hw : s.act.state = .waiting) (hidle : s.StoreIdle)
include hr hm hw hidle

theorem State.freshnessTimer_tests {id : Nat} {p : PeerEntry} (hp : s.peer id = some p) (hfresh : p.fresh = true) :
    ∃ t, exec (.freshnessTimerExpiry id) s = .next t ∧ (¬(s.without id).GatesOpen → t.act = s.act) ∧
      ((s.without id).GatesOpen → s.Evacuates t (max s.now (p.heardAt + 4 * s.cfg.period))) := by
  have hdue : s.freshnessDue id = some (p.heardAt + 4 * s.cfg.period) := by simp [State.freshnessDue, hp, hfresh]
  obtain ⟨u, hu⟩ : ∃ u, u = (((s.clockTo (p.heardAt + 4 * s.cfg.period)).mapPeer id fun p =>
    { p with fresh := false }).recomputePath).cutCredits := ⟨_, rfl⟩
  have hpeers : u.PeerEvacuates ↔ (s.without id).PeerEvacuates := by
    have htable : u.peers.table = s.peers.table.map fun p => if p.id == id then { p with fresh := false } else p := by rw [hu]; rfl
    unfold State.PeerEvacuates State.without
    rw [htable]
    constructor
    · rintro ⟨q, hq, hqfresh, hqev⟩
      obtain ⟨x, hx, rfl⟩ := List.mem_map.mp hq
      by_cases hid : x.id = id
      · simp [hid] at hqfresh
      · rw [if_neg (by simpa using hid)] at hqfresh hqev
        exact ⟨x, List.mem_filter.mpr ⟨hx, by simpa using hid⟩, hqfresh, hqev⟩
    · rintro ⟨x, hx, hxfresh, hxev⟩
      obtain ⟨hx, hid⟩ := List.mem_filter.mp hx
      exact ⟨x, List.mem_map.mpr ⟨x, hx, if_neg (by simpa using hid)⟩, hxfresh, hxev⟩
  have hocc : Occasion s u (max s.now (p.heardAt + 4 * s.cfg.period)) := by
    rw [hu]
    exact ⟨rfl, rfl, rfl, rfl, Iff.rfl⟩
  have hgates : SameGates (s.without id) u := by
    refine ⟨?_, ?_, ?_, ?_, ?_, hpeers⟩ <;> rw [hu] <;> rfl
  refine ⟨u.settleWith true, congrArg Host.Outcome.next ((State.expire_due _ hr hdue).trans ?_),
    hocc.tests hm (by rw [hu]; rfl) hw hidle hgates (by rw [hu]; rfl)⟩
  rw [hu]
  rfl

theorem State.removalTimer_tests {id : Nat} {p : PeerEntry} (hp : s.peer id = some p) :
    ∃ t, exec (.removalTimerExpiry id) s = .next t ∧ (¬(s.without id).GatesOpen → t.act = s.act) ∧
      ((s.without id).GatesOpen → s.Evacuates t (max s.now (p.heardAt + 8 * s.cfg.period))) := by
  have hdue : s.removalDue id = some (p.heardAt + 8 * s.cfg.period) := by simp [State.removalDue, hp]
  obtain ⟨v, hv⟩ : ∃ v, v = ((s.clockTo (p.heardAt + 8 * s.cfg.period)).dropPeer id).recomputePath := ⟨_, rfl⟩
  obtain ⟨u, hu⟩ : ∃ u, u = (v.raise (.peerLost id)).cutCredits := ⟨_, rfl⟩
  have hclients : u.clients = s.clients := by rw [hu, State.cutCredits_clients, State.raise_clients, hv]; rfl
  have hocc : Occasion s u (max s.now (p.heardAt + 8 * s.cfg.period)) := by
    refine ⟨?_, ?_, ?_, ?_, ?_⟩
    · rw [hu, State.cutCredits_act, State.raise_act, hv]; rfl
    · rw [hu, State.cutCredits_store, State.raise_store, hv]; rfl
    · rw [hu, State.spareSlot, State.cutCredits_dist, State.raise_dist, hv]; rfl
    · rw [hu, State.cutCredits_now, State.raise_now, hv]; rfl
    · unfold State.Closed
      simp only [State.record, hclients]
  have hgates : SameGates (s.without id) u := by
    refine ⟨?_, ?_, ?_, ?_, ?_, ?_⟩
    · rw [hocc.act]; rfl
    · rw [hocc.act]; rfl
    · rw [hu, State.cutCredits_time, State.raise_time, hv]; rfl
    · rw [hu, State.cutCredits_time, State.raise_time, hv]; rfl
    · rw [hu, State.cutCredits_sched, State.raise_sched, hv]; rfl
    · have htable : u.peers.table = s.peers.table.filter fun q => q.id != id := by
        rw [hu, State.cutCredits_peers, State.raise_peers, hv]; rfl
      unfold State.PeerEvacuates State.without
      rw [htable]
      simp
  have hflows : u.prio.flows = (s.without id).prio.flows := by
    rw [hu]
    show (v.raise (.peerLost id)).prio.flows = s.prio.flows
    rw [State.raise_prio, hv]
    rfl
  have hev : u.ev = s.ev := by rw [hu, State.cutCredits_ev, State.raise_ev, hv]; rfl
  refine ⟨u.settleWith true, congrArg Host.Outcome.next ((State.expire_due _ hr hdue).trans ?_),
    hocc.tests hm hev hw hidle hgates hflows⟩
  rw [hu, hv]
  rfl

end

end

/-! ### A new minute (R75, R96, R160) -/

section
variable {s : State}

/-- No flow is ADMITTED or WAITING. -/
def State.NoneContends (s : State) : Prop := ∀ j f, s.flow j = .used f → f.state ≠ .admitted ∧ f.state ≠ .waiting

theorem State.flowsWhere_nil {p : FlowRecord → Bool} (h : ∀ j f, s.flow j = .used f → p f = false) : s.flowsWhere p = [] :=
  List.eq_nil_iff_forall_not_mem.mpr fun x hx => by
    obtain ⟨hf, hp⟩ := State.mem_flowsWhere.mp hx
    rw [h x.1 x.2 hf] at hp
    cases hp

/-- A change of access moves no flow that is neither ADMITTED nor WAITING (R112). -/
theorem State.accessChanged_uncontended (c : ClientId) (old new : Access) (h : s.NoneContends) : s.accessChanged c old new = s := by
  have hadmitted := State.flowsWhere_nil (s := s) (p := fun f => f.client == c && f.state == .admitted) fun j f hf => by
    simp [(h j f hf).1]
  have hwaiting := State.flowsWhere_nil (s := s)
    (p := fun f => f.client == c && f.state == .waiting && f.reason == some .cap && f.recent s.now) fun j f hf => by
    simp [(h j f hf).2]
  unfold State.accessChanged
  rw [hadmitted, hwaiting]
  split
  · rfl
  · split <;> rfl

theorem State.recompute_uncontended (i : Fin 64) (h : s.NoneContends) : (s.recompute i).prio.flows = s.prio.flows := by
  unfold State.recompute
  split
  · rename_i r hr
    split
    · simp only
      split
      · rfl
      · rw [State.accessChanged_uncontended (s := (s.putRecord i { r with access := s.accessOf r }).setAccessMark i true) _ _ _ h]
        rfl
    · rfl
  · rfl

/-- Working out every access and the round behind it leave a Flow Table without ADMITTED and WAITING flows (R108, R112). -/
theorem State.recomputeAll_uncontended (h : s.NoneContends) : s.recomputeAll.retest.prio.flows = s.prio.flows := by
  have hnone : ∀ u : State, u.prio.flows = s.prio.flows → u.NoneContends := fun u hu j f hf =>
    h j f (by rw [State.flow, ← hu]; exact hf)
  have hall : s.recomputeAll.prio.flows = s.prio.flows := by
    unfold State.recomputeAll
    exact walk_keeps (fun u => u.prio.flows = s.prio.flows) State.recompute
      (fun i u hu => (State.recompute_uncontended i (hnone u hu)).trans hu) (slots 64) s rfl
  have hround : Retested fun u => u.prio.flows = s.prio.flows :=
    ⟨fun hg hu => (congrArg Gist.flows hg).trans hu, fun u j f hf hst hu => absurd hst (hnone u hu j f hf).2⟩
  exact hround.retest hall

variable {d : Nat}

/-- The minute that a tick begins is an occasion of a gate test. -/
theorem State.minute_occasion (s : State) (d : Nat) : Occasion s (s.ticked d).minuted.recomputeAll (max s.now d) := by
  have hb := State.recomputeAll_beside (s.ticked d).minuted
  obtain ⟨hnow, -, -, -, hdist, -⟩ := State.still_parts (State.still_of_beside hb)
  have hrec : ∀ i, (s.ticked d).minuted.recomputeAll.record i =
      ((s.record i).map ClientRecord.countMinute).map (s.ticked d).minuted.worked := fun i => by
    rw [State.record_recomputeAll]
    exact congrArg (Option.map _) (State.record_mapRecords _ i _)
  have hopen : ∀ r : ClientRecord, ((s.ticked d).minuted.worked r.countMinute).HoldsOpen ↔ r.HoldsOpen := fun r => by
    have hsteer : r.countMinute.steerable = r.steerable := by
      by_cases hc : r.Counts
      · rw [ClientRecord.countMinute_counts hc]
      · rw [ClientRecord.countMinute_idle hc]
    have hst := r.countMinute_same.2.1
    unfold State.worked ClientRecord.HoldsOpen ClientRecord.Here
    split <;> simp only [hst, hsteer]
  refine ⟨(State.act_of_beside hb).trans rfl, (State.store_of_beside hb).trans rfl, by rw [State.spareSlot, hdist]; rfl, hnow,
    fun h i r hr => ?_, fun h i r hr => ?_⟩
  · refine mt (hopen r).mpr (h i _ ?_)
    rw [hrec, hr]
    rfl
  · rw [hrec, Option.map_map] at hr
    obtain ⟨q, hq, rfl⟩ := Option.map_eq_some_iff.mp hr
    exact mt (hopen q).mp (h i q hq)

/-- The part at the mesh time that a tick reaches. -/
def State.atNextMesh (s : State) : State := { s with time := { s.time with mesh := (s.time.mesh + 1) % 4294967296 } }

/-- What the gates read there, beside the flows, they read once the minute's accesses are worked out. -/
theorem State.minute_gates (s : State) (d : Nat) : SameGates s.atNextMesh (s.ticked d).minuted.recomputeAll.retest := by
  have hb : (s.ticked d).minuted.recomputeAll.retest.beside = (s.ticked d).minuted.beside :=
    (State.retest_beside _).trans (State.recomputeAll_beside _)
  obtain ⟨htrial, hmark, hrank, hmesh, hbook, hpeers⟩ := SameGates.of_beside hb
  exact ⟨htrial, hmark, hrank, hmesh, hbook, hpeers⟩

/-- A minute event with a gate shut, whatever its flows (R160). -/
theorem State.minute_shut (hw : s.act.state = .waiting)
    (h : s.act.sel.trial = true ∨ (¬s.sched.book.quiet.ActiveAt ((s.time.mesh + 1) % 4294967296 / 86400 % 7)
      ((s.time.mesh + 1) % 4294967296 % 86400 / 60) ∧ s.act.activateNow = false) ∨ s.PeerEvacuates) :
    ((s.ticked d).minuted.recomputeAll.settleWith true).act = s.act := by
  have hgates := s.minute_gates d
  refine (s.minute_occasion d).shut hw fun ⟨htrial, hquiet, _, hpeers⟩ => ?_
  rw [hgates.trial] at htrial
  rw [hgates.rank, hgates.mesh, hgates.book, hgates.mark] at hquiet
  rcases h with ht | ⟨hnot, hmark⟩ | hp
  · exact Bool.false_ne_true (htrial.symm.trans ht)
  · rcases hquiet with ⟨_, hq⟩ | hq
    · exact hnot hq
    · exact Bool.false_ne_true (hmark.symm.trans hq)
  · exact State.not_peerEvacuates_iff.mpr hpeers (hgates.peers.mpr hp)

/-- With the four open the minute event ends in the evacuation: without the mark no flow is ADMITTED, and with none WAITING none
is as the accesses are worked out. -/
theorem State.minute_evacuates (hw : s.act.state = .waiting) (hidle : s.StoreIdle)
    (hflows : s.act.activateNow = true ∨ ∀ j f, s.flow j = .used f → f.state ≠ .waiting) (hopen : s.atNextMesh.GatesOpen) :
    s.Evacuates ((s.ticked d).minuted.recomputeAll.settleWith true) (max s.now d) := by
  refine (s.minute_occasion d).evacuates hw hidle (((s.minute_gates d).iff ?_).mpr hopen)
  by_cases hmark : s.act.activateNow = true
  · exact .inl hmark
  · obtain ⟨-, -, hadmitted, -⟩ := hopen
    have hnone : (s.ticked d).minuted.NoneContends := fun j f hf =>
      ⟨hadmitted.resolve_right hmark j f hf, hflows.resolve_left hmark j f hf⟩
    exact .inr (State.recomputeAll_uncontended hnone)

/-- A tick that begins a minute and no day ends with the minute's event (R71, R75). -/
theorem State.exec_tick_minute (hr : s.running = true) (hd : s.time.tickDue = some d) (howed : s.sched.writeOwed = false)
    (hrank : s.time.rank < 15) (hminute : (s.time.mesh + 1) % 4294967296 / 60 ≠ s.time.minuteMark)
    (hday : (s.time.mesh + 1) % 4294967296 / 86400 ≤ s.time.dayMark) :
    exec .tick s = .next ((s.ticked d).minuted.recomputeAll.settleWith true) := by
  obtain ⟨t, ht⟩ : ∃ t, t = (s.ticked d).minuted.recomputeAll.settleWith true := ⟨_, rfl⟩
  have hstill : t.still = (s.ticked d).minuted.still :=
    ht ▸ (State.settleWith_still true _).trans (State.still_of_beside (State.recomputeAll_beside _))
  obtain ⟨-, -, htime, hsched, -⟩ := State.still_parts hstill
  rw [State.exec_tick hr hd, State.timeChanged_known (s := s.ticked d) hrank,
    State.minuteStep_new (s := s.ticked d) hminute, ← ht,
    State.dayStep_same (by rw [htime]; exact hday), State.submitBook_unowed (by rw [hsched]; exact howed)]

end

end Sys2Proof.Machine
end

section
/-! SUPPORT. Proofs: ACTIVATE-NOW and CONFIRM-IMAGE (R159, R169), and O46 put together. -/

namespace Sys2Proof.Machine

/-- A configured part that takes messages hands a request that passes its checks to its unit (R171, R172). -/
theorem State.hostMessage_requested {s : State} {k : HostKind} {m : HostMsg} (n : Nat) (h : s.Takes) (hc : s.configured = true)
    (hm : hostMsgOk k m = true) : s.hostMessage k n m = (s.clockTo n).handle k m.tag m.body := by
  obtain ⟨hr, hheld, hlink⟩ := h
  have hopen : (s.clockTo n).portOpen = true := by
    have hr' : (s.clockTo n).running = true := hr
    have hh' : (s.clockTo n).heldRequests < Config.heldRequests := hheld
    simp [State.portOpen, hr', hh']
  have hc' : (s.clockTo n).configured = true := hc
  simp [State.hostMessage, hopen, hlink, State.takeMessage, hm, hc']

/-! ### ACTIVATE-NOW (R159) -/

/-- The activate-now mark is set, and neither a trial nor a peer keeps the gates shut. -/
structure State.Urged (s : State) : Prop where
  mark : s.act.activateNow = true
  trial : s.act.sel.trial = false
  peers : ¬s.PeerEvacuates

/-- An evacuation that the mark urges has begun, or its commit has been reached. -/
structure State.UnderWay (s : State) : Prop extends s.Urged where
  state : s.act.state = .evacuating ∨ s.act.state = .committing

theorem State.beginEvacuation_act (s : State) :
    s.beginEvacuation.act = { s.act with state := .evacuating, evacuationDue := some (s.now + 30000) } :=
  (State.pass_same _).1.trans (State.act_of_beside (walk_beside State.deleteSlot_beside _ _))

theorem State.submitSelector_act (w : RetriedWrite) (s : State) :
    (s.submitSelector w).1.act = s.act ∨ (s.submitSelector w).1.act = { s.act with writeInFlight := true } := by
  obtain ⟨-, -, -, -, -, -, -, -, hact, -⟩ :=
    State.aside_parts (State.submit_aside { owner := w.owner, kind := .selectorWrite w.order w.purpose w.sel none } s)
  unfold State.submitSelector
  simp only
  split
  · rw [hact]
    exact .inr rfl
  · exact .inl hact

section
variable {s t : State}

theorem State.Urged.gates (h : s.Urged) : s.GatesOpen := (State.gatesOpen_marked h.mark).mpr ⟨h.trial, h.peers⟩

theorem State.Urged.of_same (h : s.Urged) (hm : t.act.activateNow = s.act.activateNow) (hs : t.act.sel = s.act.sel)
    (ht : t.still = s.still) : t.Urged := by
  obtain ⟨-, -, -, -, -, htable, -⟩ := State.still_parts ht
  refine ⟨hm.trans h.mark, (congrArg Selector.trial hs).trans h.trial, ?_⟩
  rw [State.PeerEvacuates, htable]
  exact h.peers

theorem State.Urged.of_beside (h : s.Urged) (hb : t.beside = s.beside) : t.Urged :=
  h.of_same (by rw [State.act_of_beside hb]) (by rw [State.act_of_beside hb]) (State.still_of_beside hb)

theorem State.Urged.beginEvacuation (h : s.Urged) : s.beginEvacuation.UnderWay where
  toUrged := h.of_same (by rw [State.beginEvacuation_act]) (by rw [State.beginEvacuation_act]) s.beginEvacuation_still
  state := .inl (by rw [State.beginEvacuation_act])

/-- A commit that is refused finds the gates open and begins another evacuation (R164, log entry 11). -/
theorem State.Urged.reopen (h : s.Urged) : s.reopen.UnderWay := by
  have hw : State.Urged { s with act := { s.act with state := .waiting } } := ⟨h.mark, h.trial, h.peers⟩
  unfold State.reopen
  simp only
  rw [if_pos (State.gatesOpen_iff.mpr hw.gates)]
  exact hw.beginEvacuation

theorem State.Urged.commit (h : s.Urged) : s.commit.UnderWay := by
  unfold State.commit
  extract_lets _ s1 w r
  have hstill : r.1.still = s.still := State.submitSelector_still w.1 w.2
  have hact : r.1.act = s1.act ∨ r.1.act = { s1.act with writeInFlight := true } := State.submitSelector_act w.1 w.2
  have hurged : r.1.Urged := by
    refine h.of_same ?_ ?_ hstill
    · rcases hact with ha | ha <;> rw [ha]
    · rcases hact with ha | ha <;> rw [ha]
  split
  · refine ⟨hurged, .inr ?_⟩
    rcases hact with ha | ha <;> rw [ha]
  · exact hurged.reopen

theorem State.UnderWay.endCheck (h : s.UnderWay) : s.endCheck.UnderWay := by
  unfold State.endCheck
  split
  · exact h.toUrged.commit
  · exact h

theorem State.UnderWay.restOfEvent (h : s.UnderWay) : s.restOfEvent.UnderWay := by
  have hb := State.priorityEnd_beside s
  have hend : s.priorityEnd.UnderWay := ⟨h.toUrged.of_beside hb, by rw [State.act_of_beside hb]; exact h.state⟩
  have hcheck : (if s.priorityEnd.ev.departed then s.priorityEnd.endCheck else s.priorityEnd).UnderWay := by
    split
    · exact hend.endCheck
    · exact hend
  exact ⟨⟨hcheck.mark, hcheck.trial, hcheck.peers⟩, hcheck.state⟩

/-- A WAITING controller that is urged leaves WAITING with the event, whatever the store holds. -/
theorem State.Urged.settleWith (h : s.Urged) (hw : s.act.state = .waiting) : (s.settleWith true).UnderWay := by
  have hb := State.retest_beside s
  have hre := h.of_beside hb
  rw [State.settleWith_true, State.gateTest_open (by rw [State.act_of_beside hb, hw]) hre.gates]
  exact hre.beginEvacuation.endCheck.restOfEvent

/-- The part with the activate-now mark set. -/
def State.marked (s : State) : State := { s with act := { s.act with activateNow := true } }

theorem State.takeActivateNow_waiting (tag : Tag) (b : List Byte) (h : s.act.state = .waiting) :
    s.takeActivateNow tag b = (s.marked.settleWith true).reply tag .ok := by
  simp only [State.takeActivateNow, State.marked, h]

theorem State.takeActivateNow_evacuating (tag : Tag) (b : List Byte) (h : s.act.state = .evacuating) :
    s.takeActivateNow tag b = s.marked.reply tag .ok := by
  simp only [State.takeActivateNow, State.marked, h]

theorem State.takeActivateNow_other (tag : Tag) (b : List Byte)
    (h : s.act.state = .idle ∨ s.act.state = .committing ∨ s.act.state = .restarting) :
    s.takeActivateNow tag b = s.reply tag .state := by
  rcases h with h | h | h <;> simp only [State.takeActivateNow, h]

/-- The mark opens neither of the two gates that a trial and a peer keep shut (R160). -/
theorem State.marked_shut (hm : s.MarksClear) (h : s.act.sel.trial = true ∨ s.PeerEvacuates) :
    s.marked.settleWith true = s.marked := by
  refine State.settleWith_clear true hm fun ⟨_, hopen⟩ => ?_
  obtain ⟨htrial, hpeers⟩ := (State.gatesOpen_marked (s := s.marked) rfl).mp (State.gatesOpen_iff.mp hopen)
  rcases h with h | h
  · exact Bool.false_ne_true (htrial.symm.trans h)
  · exact hpeers h

/-! ### CONFIRM-IMAGE (R169) -/

/-- The selector write that a confirmation submits. -/
def State.confirmWrite (s : State) (tag : Tag) : RetriedWrite :=
  { order := s.store.orders, owner := .activation, purpose := .confirm tag, sel := s.act.sel.confirmedAt s.bootedVersion }

/-- The part once the confirmation's write has its place in the order of selector writes (log entry 20). -/
def State.ordered (s : State) : State := { s with store := { s.store with orders := s.store.orders + 1 } }

theorem State.takeConfirmImage_trial (tag : Tag) (b : List Byte) (ht : s.act.sel.trial = true) (hi : s.act.state = .idle) :
    s.takeConfirmImage tag b =
      if (s.ordered.submitSelector (s.confirmWrite tag)).2 = .accepted then (s.ordered.submitSelector (s.confirmWrite tag)).1
      else (s.ordered.submitSelector (s.confirmWrite tag)).1.reply tag .busy := if_pos ⟨ht, hi⟩

theorem State.takeConfirmImage_other (tag : Tag) (b : List Byte) (h : s.act.sel.trial = false ∨ s.act.state ≠ .idle) :
    s.takeConfirmImage tag b = s.reply tag .state := by
  refine if_neg fun hh => ?_
  rcases h with h | h
  · exact Bool.false_ne_true (h.symm.trans hh.1)
  · exact h hh.2

variable {w : RetriedWrite}

/-- Behind other operations a selector write of the controller's waits, or is refused with 8 waiting (R131). -/
theorem State.submit_selector_busy (hi : ¬s.StoreIdle) :
    s.submit { owner := .activation, kind := .selectorWrite w.order w.purpose w.sel none } =
      if s.store.waiting.length < 8 then
        ({ s with store := { s.store with waiting := s.store.waiting ++
          [{ owner := .activation, kind := .selectorWrite w.order w.purpose w.sel none }] } }, .accepted)
      else (s, .queueFull) := by
  have hbusy : ¬(s.store.inflight.isNone = true ∧ s.store.waiting = []) := fun hh => hi ⟨Option.isNone_iff_eq_none.mp hh.1, hh.2⟩
  unfold State.submit
  rw [if_neg (show ¬_ from nofun), if_neg (show ¬_ from nofun), if_neg (show ¬_ from nofun), if_neg hbusy]
  rfl

theorem State.submitSelector_waits (ho : w.owner = .activation) (hi : ¬s.StoreIdle) (hl : s.store.waiting.length < 8) :
    s.submitSelector w =
      ({ s with
         act := { s.act with writeInFlight := true }
         store := { s.store with waiting := s.store.waiting ++
           [{ owner := .activation, kind := .selectorWrite w.order w.purpose w.sel none }] } }, .accepted) := by
  unfold State.submitSelector
  rw [ho, State.submit_selector_busy hi, if_pos hl]
  rfl

theorem State.submitSelector_full (ho : w.owner = .activation) (hl : 8 ≤ s.store.waiting.length) :
    s.submitSelector w = (s, .queueFull) := by
  have hbusy : ¬s.StoreIdle := fun hi => by
    rw [hi.2] at hl
    exact absurd hl (by decide)
  unfold State.submitSelector
  rw [ho, State.submit_selector_busy hbusy, if_neg (not_lt.mpr hl)]
  rfl

end

/-- Settles O46: at each occasion the gates are read, and what an entry to EVACUATING leaves lasts to the end of the event; the
requests follow the controller's state and the room in the store. -/
theorem activationRequestsAreTaken : Obligations.ActivationRequestsAreTaken := by
  unfold Obligations.ActivationRequestsAreTaken
  refine ⟨fun n d s v m crc hm hd hi hst hv _ _ _ hf hcrc => ?_,
    fun s hr hm hw hidle => ⟨fun id p hp => ?_, fun d hd howed hrank => ?_⟩,
    fun n m s htakes hm hc => ⟨fun hok => ?_, fun hok => ?_⟩⟩
  · refine ⟨_, State.check_readies hd hi hst hv hf hcrc, State.readied_waits hm, fun hopen => ?_⟩
    exact ⟨State.readied_evacuates hf.2 hopen, State.readied_passes hm hopen⟩
  · exact ⟨State.freshnessTimer_tests hr hm hw hidle hp, State.removalTimer_tests hr hm hw hidle hp⟩
  · intro mesh u quiet hminute hday
    exact ⟨_, State.exec_tick_minute hr hd howed hrank hminute hday, State.minute_shut hw, State.minute_evacuates hw hidle⟩
  · intro marked shut
    have hexec : exec (.activateNow n m) s = .next ((s.clockTo n).takeActivateNow m.tag m.body) :=
      congrArg Host.Outcome.next (State.hostMessage_requested (k := .activateNow) n htakes hc hok)
    rw [hexec]
    refine ⟨fun h => ?_, fun hw hopen => ?_, fun h => ?_⟩
    · rcases h with he | ⟨hw, hshut⟩
      · rw [State.takeActivateNow_evacuating (s := s.clockTo n) _ _ he]
        rfl
      · rw [State.takeActivateNow_waiting (s := s.clockTo n) _ _ hw, State.marked_shut (s := s.clockTo n) hm hshut]
        rfl
    · have hurged : (s.clockTo n).marked.Urged :=
        ⟨rfl, Bool.eq_false_iff.mpr fun ht => hopen (.inl ht), fun hp => hopen (.inr hp)⟩
      have hunder := hurged.settleWith hw
      refine ⟨_, congrArg Host.Outcome.next (State.takeActivateNow_waiting (s := s.clockTo n) _ _ hw), hunder.state, hunder.mark, ?_⟩
      exact List.mem_append_right _ (List.mem_singleton.mpr rfl)
    · exact congrArg Host.Outcome.next (State.takeActivateNow_other (s := s.clockTo n) _ _ h)
  · have hexec : exec (.confirmImage n m) s = .next ((s.clockTo n).takeConfirmImage m.tag m.body) :=
      congrArg Host.Outcome.next (State.hostMessage_requested (k := .confirmImage) n htakes hc hok)
    rw [hexec]
    refine ⟨fun ht hi hidle => ?_, fun ht hi hbusy hroom => ?_, fun ht hi hfull => ?_, fun h => ?_⟩
    · rw [State.takeConfirmImage_trial (s := s.clockTo n) _ _ ht hi,
        State.submitSelector_idle (s := (s.clockTo n).ordered) hidle rfl, if_pos rfl]
      exact ⟨_, rfl, rfl, rfl, rfl, hidle.2⟩
    · rw [State.takeConfirmImage_trial (s := s.clockTo n) _ _ ht hi,
        State.submitSelector_waits (s := (s.clockTo n).ordered) rfl hbusy hroom, if_pos rfl]
      exact ⟨_, _, rfl, rfl, rfl, rfl, rfl, rfl⟩
    · rw [State.takeConfirmImage_trial (s := s.clockTo n) _ _ ht hi,
        State.submitSelector_full (s := (s.clockTo n).ordered) rfl hfull, if_neg nofun]
      exact ⟨_, rfl, rfl, rfl, rfl, rfl⟩
    · exact congrArg Host.Outcome.next (State.takeConfirmImage_other (s := s.clockTo n) _ _ h)

end Sys2Proof.Machine
end

section
/-! SUPPORT. Proofs: decline holds (R36), and ACCEPT and DECLINE at the serving node (R53, R56, R57; O16). -/

namespace Sys2Proof.Machine

/-! ### Decline holds (R36) -/

theorem Hold.sooner_eq_false {x y : Hold} :
    x.sooner y = false ↔ y.untilTime < x.untilTime ∨ (y.untilTime = x.untilTime ∧ y.peer ≤ x.peer) := by
  simp only [Hold.sooner, Bool.or_eq_false_iff, decide_eq_false_iff_not, Bool.and_eq_false_iff, beq_eq_false_iff_ne]
  omega

theorem Hold.sooner_asymm (x y : Hold) (h : x.sooner y = true) : y.sooner x = false := by
  rw [Hold.sooner_eq_false]
  simp only [Hold.sooner, Bool.or_eq_true, decide_eq_true_eq, Bool.and_eq_true, beq_iff_eq] at h
  omega

section
variable {p d : Nat} {hs : List Hold}

/-- The hold that ends first, among equals that of the lower peer, is the first in order: the order tells any two holds apart. -/
theorem head_sooner {w : Hold} (hw : w ∈ hs)
    (hleast : ∀ h ∈ hs, w.untilTime < h.untilTime ∨ (w.untilTime = h.untilTime ∧ w.peer ≤ h.peer)) :
    (sortBy Hold.sooner hs).head? = some w := by
  obtain ⟨v, hv⟩ := head_sortBy_of_mem Hold.sooner hw
  have hvw := hleast v (mem_of_head_sortBy hv)
  have hwv := Hold.sooner_eq_false.mp
    (not_before_head_sortBy (fun a b c => by simp only [Hold.sooner_eq_false]; omega) Hold.sooner_asymm hv w hw)
  have huntil : v.untilTime = w.untilTime := by omega
  have hpeer : v.peer = w.peer := by omega
  have heq : v = w := by
    cases v
    cases w
    exact congr (congrArg Hold.mk hpeer) huntil
  rw [hv, heq]

theorem any_peer_false (h : ∀ x ∈ hs, x.peer ≠ p) : (hs.any fun x => x.peer == p) = false :=
  List.any_eq_false.mpr fun x hx => mt eq_of_beq (h x hx)

theorem placeHold_own (h : ∃ x ∈ hs, x.peer = p) :
    placeHold p d hs = hs.map fun x => if x.peer = p then { peer := p, untilTime := d } else x := by
  have hown : (hs.any fun x => x.peer == p) = true := by
    obtain ⟨x, hx, hp⟩ := h
    exact List.any_eq_true.mpr ⟨x, hx, beq_iff_eq.mpr hp⟩
  simp only [placeHold, hown, if_true, beq_iff_eq]

theorem placeHold_joins (h : ∀ x ∈ hs, x.peer ≠ p) (hl : hs.length < 4) :
    placeHold p d hs = hs ++ [{ peer := p, untilTime := d }] := by
  have hroom : hs.length < Config.holdEntries := hl
  simp only [placeHold, any_peer_false h, Bool.false_eq_true, if_false, if_pos hroom]

theorem placeHold_replaces (h : ∀ x ∈ hs, x.peer ≠ p) (hl : 4 ≤ hs.length) {w : Hold} (hw : w ∈ hs)
    (hleast : ∀ x ∈ hs, w.untilTime < x.untilTime ∨ (w.untilTime = x.untilTime ∧ w.peer ≤ x.peer)) :
    placeHold p d hs = hs.map fun x => if x = w then { peer := p, untilTime := d } else x := by
  have hfull : ¬hs.length < Config.holdEntries := not_lt.mpr hl
  simp only [placeHold, any_peer_false h, Bool.false_eq_true, if_false, if_neg hfull, head_sooner hw hleast, beq_iff_eq]

end

/-! ### The answers to an offer (R56, R57) -/

section
variable {s : State} {c : ClientId} {i : Fin 64} {r : ClientRecord} {sender reason : Nat}

theorem State.takeAccept_offered (h : s.Holds c i r) (hst : r.state = .offering) (ht : r.offerTarget = some sender) :
    s.takeAccept sender c = (s.putRecord i { r with state := .handing, timer := some (s.now + 5000) }).setSteerMark i true := by
  simp only [State.takeAccept, h.1, h.2, hst, ht, and_self, if_true, Config.handingTime]

theorem State.takeAccept_other (h : s.Holds c i r) (hr : r.state ≠ .offering ∨ r.offerTarget ≠ some sender) :
    s.takeAccept sender c = s := by
  simp only [State.takeAccept, h.1, h.2, if_neg (not_and_or.mpr hr)]

theorem State.takeAccept_unknown (h : s.findClient c = none) : s.takeAccept sender c = s := by
  simp only [State.takeAccept, h]

theorem State.takeDecline_offered (h : s.Holds c i r) (hst : r.state = .offering) (ht : r.offerTarget = some sender)
    (hle : reason ≤ 5) (hne : reason ≠ 1) : s.takeDecline sender c reason = s.endOffer i r sender (.declined reason) := by
  simp only [State.takeDecline, if_neg (not_lt.mpr hle), h.1, h.2, hst, ht, and_self, if_true, if_neg hne]

theorem State.takeDecline_other (h : s.Holds c i r) (hr : r.state ≠ .offering ∨ r.offerTarget ≠ some sender) :
    s.takeDecline sender c reason = s := by
  simp only [State.takeDecline, h.1, h.2, if_neg (not_and_or.mpr hr), ite_self]

theorem State.takeDecline_unknown (h : s.findClient c = none ∨ 5 < reason) : s.takeDecline sender c reason = s := by
  rcases h with h | h
  · simp only [State.takeDecline, h, ite_self]
  · simp only [State.takeDecline, if_pos h]

end

section
variable {s : State} {f : Frame} {rest : List Frame} {c : ClientId} (n : Nat) (hhead : s.Head f rest)
include hhead

theorem State.exec_accept (hbody : f.body = .accept c) :
    exec (.accept n) s = .next ((s.taking n rest).takeAccept f.sender c).settle := by
  refine congrArg Host.Outcome.next ((State.onFrame_head State.onAccept n hhead (by rw [hbody]; rfl)).trans ?_)
  rw [State.onAccept, hbody]

theorem State.exec_decline {reason : Nat} (hbody : f.body = .decline c reason) :
    exec (.decline n) s = .next ((s.taking n rest).takeDecline f.sender c reason).settle := by
  refine congrArg Host.Outcome.next ((State.onFrame_head State.onDecline n hhead (by rw [hbody]; rfl)).trans ?_)
  rw [State.onDecline, hbody]

end

/-- Settles O16: an answer by its sender and the record's state, a hold by the room and the holds that stand. -/
theorem answersMoveTheOffer : Obligations.AnswersMoveTheOffer := by
  unfold Obligations.AnswersMoveTheOffer
  refine ⟨fun n s f rest c hhead hm hbody => ?_, fun n s f rest c reason hhead hm hbody => ?_, fun p d hs => ?_⟩
  · have hstands : (s.taking n rest).settle = s.taking n rest := State.settle_of_ev hm rfl
    rw [State.exec_accept n hhead hbody]
    refine ⟨fun i r h hst ht => ?_, fun i r h hr => ?_, fun h => ?_⟩
    · rw [State.takeAccept_offered (s := s.taking n rest) h hst ht]
      exact congrArg Host.Outcome.next (State.settle_of_ev hm rfl)
    · rw [State.takeAccept_other (s := s.taking n rest) h hr, hstands]
    · rw [State.takeAccept_unknown (s := s.taking n rest) h, hstands]
  · have hstands : (s.taking n rest).settle = s.taking n rest := State.settle_of_ev hm rfl
    rw [State.exec_decline n hhead hbody]
    refine ⟨fun i r h hst ht hle hne => ?_, fun i r h hr => ?_, fun h => ?_⟩
    · rw [State.takeDecline_offered (s := s.taking n rest) h hst ht hle hne, State.endOffer, h.client_eq]
      exact congrArg Host.Outcome.next (State.settle_of_ev hm (State.raise_ev _ _))
    · rw [State.takeDecline_other (s := s.taking n rest) h hr, hstands]
    · rw [State.takeDecline_unknown (s := s.taking n rest) h, hstands]
  · exact ⟨placeHold_own, placeHold_joins, fun h hl w hw hleast => placeHold_replaces h hl hw hleast⟩

end Sys2Proof.Machine
end

section
/-! SUPPORT. Proofs: flows that wait and are put to the admission test one after another (R107), with a change of a client's access
(R112) and behind the resolution of a PROVISIONAL record (R115), to the end of the event. -/

namespace Sys2Proof.Machine

/-! ### One flow that waits, tested (R107) -/

section
variable {s : State} {j : Fin 128} {f : FlowRecord} {r : ClientRecord}

theorem State.viewTotal_putFlow (j : Fin 128) (x : FlowSlot) (s : State) :
    (s.putFlow j x).viewTotal + (s.flow j).heldShare = s.viewTotal + x.heldShare := by
  have hown := State.ownReserved_putFlow (s := s) (j := j) (x := x)
  rw [State.viewTotal, State.viewTotal, State.freshPeers_putFlow]
  omega

theorem State.testFlow_cfg (j : Fin 128) (s : State) : (s.testFlow j).cfg = s.cfg := State.cfg_of_beside (State.testFlow_beside j s)

theorem State.testFlow_now (j : Fin 128) (s : State) : (s.testFlow j).now = s.now :=
  (State.still_parts (State.still_of_beside (State.testFlow_beside j s))).1

theorem State.testFlow_record (j : Fin 128) (s : State) (i : Fin 64) : (s.testFlow j).record i = s.record i :=
  congrArg (fun u : ClientUnit => u.table[i]) (State.testFlow_clients j s)

/-- A flow that waits has no share to free. -/
theorem State.testFlow_released (hf : s.flow j = .used f) (hst : f.state = .waiting) :
    (s.testFlow j).ev.released = s.ev.released := by
  cases hr : s.record f.slot with
  | none => rw [State.testFlow_ownerless hf hr]
  | some r =>
    rw [State.testFlow_used hf hr]
    refine State.putFlow_released fun hold => ?_
    rw [hf] at hold
    simp [FlowSlot.holdsShare, FlowRecord.holdsShare, hst] at hold

/-- One step of the tests in order: the flow as R107 leaves it, and the view total for those behind it. -/
theorem State.testsInOrder_cons (hf : s.flow j = .used f) (hst : f.state = .waiting) (hr : s.record f.slot = some r)
    (hp : r.state ≠ .provisional) (ha : r.access = .opened) (fs : List FlowRecord) :
    testsInOrder s.cfg.ceiling s.now s.viewTotal (f :: fs) =
      s.tested s.now r f :: testsInOrder s.cfg.ceiling s.now (s.testFlow j).viewTotal fs := by
  have htotal := State.viewTotal_putFlow j (.used (s.tested s.now r f)) s
  rw [← State.testFlow_used hf hr, hf, FlowRecord.heldShare_waiting hst, Nat.add_zero] at htotal
  by_cases ho : s.Over f
  · have hwaits := State.tested_over (now := s.now) hp ha ho
    rw [hwaits, FlowRecord.heldShare_waiting rfl, Nat.add_zero] at htotal
    rw [hwaits, htotal, testsInOrder, if_neg (not_le.mpr ho)]
  · have henters := State.tested_room (now := s.now) hp ha ho
    have hheld : (FlowSlot.used (f.entered s.now)).heldShare = f.share.getD 0 := rfl
    rw [henters, hheld] at htotal
    rw [henters, htotal, testsInOrder, if_pos (not_lt.mp ho)]
    rfl

end

/-! ### Tests in order -/

section
variable {s : State} {r : ClientRecord}

/-- Flows that wait for a client with OPEN access, tested one after another. -/
theorem walk_testFlow_inOrder {xs : List (Fin 128 × FlowRecord)}
    (hl : ∀ x ∈ xs, s.flow x.1 = .used x.2 ∧ x.2.state = .waiting ∧ s.record x.2.slot = some r)
    (hd : xs.Pairwise fun x y => x.1 ≠ y.1) (hp : r.state ≠ .provisional) (ha : r.access = .opened)
    {n : Nat} {j : Fin 128} {x f : FlowRecord} (hx : xs[n]? = some (j, x))
    (hf : (testsInOrder s.cfg.ceiling s.now s.viewTotal (xs.map Prod.snd))[n]? = some f) :
    (walk (xs.map Prod.fst) State.testFlow s).flow j = .used f := by
  induction xs generalizing s n with
  | nil => cases hx
  | cons y ys ih =>
    obtain ⟨⟨hy, hst, hr⟩, hrest⟩ := List.forall_mem_cons.mp hl
    obtain ⟨hne, hd⟩ := List.pairwise_cons.mp hd
    rw [List.map_cons, State.testsInOrder_cons hy hst hr hp ha] at hf
    rw [List.map_cons, walk_cons]
    cases n with
    | zero =>
      cases hx
      cases hf
      have hlast : ∀ k ∈ ys.map Prod.fst, k ≠ j := fun k hk => by
        obtain ⟨z, hz, rfl⟩ := List.mem_map.mp hk
        exact (hne z hz).symm
      refine (walk_flow_other (slot := id) (fun _ _ _ => State.testFlow_other) hlast (s.testFlow j)).trans ?_
      rw [State.testFlow_used hy hr, State.flow_putFlow_same]
    | succ n =>
      refine ih (s := s.testFlow y.1) (fun z hz => ?_) hd hx ?_
      · obtain ⟨hz1, hz2, hz3⟩ := hrest z hz
        exact ⟨(State.testFlow_other (hne z hz)).trans hz1, hz2, (State.testFlow_record _ _ _).trans hz3⟩
      · rw [State.testFlow_cfg, State.testFlow_now]
        exact hf

/-- The flows that meet a condition, each waiting for a client with OPEN access, tested by classified-at and slot. -/
theorem State.tests_walk {p : FlowRecord → Bool}
    (hl : ∀ j f, s.flow j = .used f → p f = true → f.state = .waiting ∧ s.record f.slot = some r)
    (hp : r.state ≠ .provisional) (ha : r.access = .opened) :
    s.Tests (walk ((byTime FlowRecord.classifiedAt (s.flowsWhere p)).map Prod.fst) State.testFlow s) s.now
      (byTime FlowRecord.classifiedAt (s.flowsWhere p)) := by
  refine ⟨byTime_sorted _ (s.flowsWhere_slots p), fun n j x f hx hf => ?_, fun j hj => ?_⟩
  · refine walk_testFlow_inOrder (fun y hy => ?_) (byTime_distinct _ (s.flowsWhere_distinct p)) hp ha hx hf
    obtain ⟨hy, hq⟩ := State.mem_flowsWhere.mp (mem_byTime.mp hy)
    exact ⟨hy, hl _ _ hy hq⟩
  · refine walk_flow_other (slot := id) (fun _ _ _ => State.testFlow_other) (fun k hk => ?_) s
    obtain ⟨y, hy, rfl⟩ := List.mem_map.mp hk
    exact hj y hy

/-- Tests of flows that wait free no share. -/
theorem walk_testFlow_released {p : FlowRecord → Bool} (hl : ∀ j f, s.flow j = .used f → p f = true → f.state = .waiting) :
    (walk ((byTime FlowRecord.classifiedAt (s.flowsWhere p)).map Prod.fst) State.testFlow s).ev.released = s.ev.released := by
  refine walk_testFlow_of (P := fun u => u.ev.released = s.ev.released) (Q := fun f => f.state = .waiting)
    (fun u j f hf hst hu => (State.testFlow_released hf hst).trans hu) (fun x hx => ?_) (byTime_distinct _ (s.flowsWhere_distinct p)) rfl
  obtain ⟨hx, hq⟩ := State.mem_flowsWhere.mp (mem_byTime.mp hx)
  exact ⟨hx, hl _ _ hx hq⟩

theorem State.flow_of_flows {s t : State} (h : t.prio.flows = s.prio.flows) (j : Fin 128) : t.flow j = s.flow j :=
  congrArg (fun v : Vector FlowSlot 128 => v[j]) h

/-- What the tests leave is read from the Flow Table alone. -/
theorem State.Tests.of_flows {s t u : State} {now : Nat} {xs : List (Fin 128 × FlowRecord)} (h : s.Tests t now xs)
    (hu : u.prio.flows = t.prio.flows) : s.Tests u now xs := by
  obtain ⟨hord, hout, hrest⟩ := h
  exact ⟨hord, fun n j x f hx hf => (State.flow_of_flows hu j).trans (hout n j x f hx hf),
    fun j hj => (State.flow_of_flows hu j).trans (hrest j hj)⟩

end

/-! ### A change of a client's access (R112) -/

section
variable {s : State} {i : Fin 64} {q : ClientRecord}

theorem State.settle_flow (hc : s.Calm) (h : s.ev.released = false) (j : Fin 128) : s.settle.flow j = s.flow j :=
  State.flow_of_flows (State.settleWith_calm_flows false hc h) j

/-- Access that stays, or stays away from OPEN, moves no flow. -/
theorem State.recompute_still (hr : s.record i = some q)
    (h : q.access = s.accessOf q ∨ (q.access ≠ .opened ∧ s.accessOf q ≠ .opened)) :
    (s.recompute i).prio = s.prio ∧ (s.recompute i).ev = s.ev := by
  unfold State.recompute
  rw [hr]
  simp only
  split
  · split
    · exact ⟨rfl, rfl⟩
    · rename_i hne
      obtain ⟨hold, hnew⟩ := h.resolve_left (Ne.symm hne)
      rw [State.accessChanged, if_neg fun h => hold h.1, if_neg fun h => hnew h.2]
      exact ⟨rfl, rfl⟩
  · exact ⟨rfl, rfl⟩

/-- Whether a flow is tested when its client's access becomes OPEN (R112). -/
def FlowRecord.reopens (c : ClientId) (now : Nat) (f : FlowRecord) : Bool :=
  f.client == c && f.state == .waiting && f.reason == some .cap && f.recent now

theorem FlowRecord.reopens_iff {c : ClientId} {now : Nat} {f : FlowRecord} : f.reopens c now = true ↔
    f.client = c ∧ f.state = .waiting ∧ f.reason = some .cap ∧ now < f.lastActivity + 10000 := by
  simp only [FlowRecord.reopens, FlowRecord.recent, Bool.and_eq_true, beq_iff_eq, decide_eq_true_eq, and_assoc]
  exact Iff.rfl

section
variable (hr : s.record i = some q) (hheld : q.state ≠ .departed) (hp : q.state ≠ .provisional) (hk : s.AirtimeKept)
  (hold : q.access ≠ .opened) (hnew : s.accessOf q = .opened)
include hr hheld hp hk hold hnew

/-- Access that becomes OPEN has the client's flows tested that reopen. -/
theorem State.recompute_tests :
    s.Tests (s.recompute i) s.now (byTime FlowRecord.classifiedAt (s.flowsWhere (FlowRecord.reopens q.client s.now))) ∧
      (s.recompute i).ev.released = s.ev.released := by
  let v := (s.putRecord i { q with access := .opened }).setAccessMark i true
  have hput : v.record i = some { q with access := .opened } := State.record_putRecord_same _ _ _
  have hwalk : s.recompute i =
      walk ((byTime FlowRecord.classifiedAt (v.flowsWhere (FlowRecord.reopens q.client v.now))).map Prod.fst) State.testFlow v := by
    rw [State.recompute_changed hr hheld (by rw [hnew]; exact hold.symm), State.accessChanged, if_neg fun h => hold h.1,
      if_pos ⟨hold, hnew⟩, hnew]
    rfl
  have hdue : ∀ j f, v.flow j = .used f → f.reopens q.client v.now = true →
      f.state = .waiting ∧ v.record f.slot = some { q with access := .opened } := fun j f hf h => by
    obtain ⟨hcl, hst, -, -⟩ := FlowRecord.reopens_iff.mp h
    rw [hk.slot_eq hr hf hcl]
    exact ⟨hst, hput⟩
  rw [hwalk]
  exact ⟨State.tests_walk hdue hp rfl, walk_testFlow_released fun j f hf h => (hdue j f hf h).1⟩

end

/-- What working out a client's access does to the flows, to the end of the event. -/
theorem State.recompute_moves (hr : s.record i = some q) (hheld : q.state ≠ .departed) (hp : q.state ≠ .provisional) (hc : s.Calm)
    (hk : s.AirtimeKept) (hm : s.ev.released = false) :
    s.AccessMoves (s.recompute i).settle q.client q.access (s.accessOf q) s.now := by
  have hcalm : (s.recompute i).Calm := State.Calm.of_act hc (State.act_of_beside (State.recompute_beside i s))
  have hrec : (s.recompute i).record i = some { q with access := s.accessOf q } := by
    rw [State.record_recompute, if_pos rfl, hr, Option.map_some, if_pos (ClientRecord.held_iff.mpr hheld)]
  refine ⟨fun hold hnew j f hf => ⟨fun hcl hst => ?_, fun hw hother => ?_⟩, fun hold hnew =>
    ⟨byTime FlowRecord.classifiedAt (s.flowsWhere (FlowRecord.reopens q.client s.now)), fun j f => ?_, ?_⟩, fun hsame j => ?_⟩
  · have hcap := State.recompute_caps hr hheld hf hcl hold hnew hst
    refine ((retested_capped (f := { f with state := .waiting, reason := some .cap, holdUntil := none })
      (r := { q with access := s.accessOf q }) rfl rfl hp hnew).settleWith_calm false hcalm ⟨?_, hcap⟩).2
    show (s.recompute i).record f.slot = _
    rw [hk.slot_eq hr hf hcl]
    exact hrec
  · rw [hf]
    refine (retested_standing hw).settleWith_calm false hcalm (State.recompute_standing hf ?_)
    by_cases ha : f.state = .admitted
    · refine .inr fun r hr' hcl => hother ⟨?_, ha⟩
      rw [hr] at hr'
      cases hr'
      exact hcl.symm
    · exact .inl ⟨ha, hw⟩
  · exact mem_byTime.trans (State.mem_flowsWhere.trans (and_congr_right fun _ => FlowRecord.reopens_iff))
  · obtain ⟨htests, hfree⟩ := State.recompute_tests hr hheld hp hk hold hnew
    exact htests.of_flows (State.settleWith_calm_flows false hcalm (hfree.trans hm))
  · obtain ⟨hprio, hev⟩ := State.recompute_still hr hsame
    rw [State.settle_flow hcalm ((congrArg EventMarks.released hev).trans hm)]
    exact State.flow_of_flows (congrArg PriorityUnit.flows hprio) j

end

/-! ### The flows of a client whose record is resolved (R115) -/

/-- Whether a flow of a client waits for context. -/
def FlowRecord.awaits (c : ClientId) (f : FlowRecord) : Bool := f.client == c && f.state == .waiting && f.reason == some .context

theorem FlowRecord.awaits_iff {c : ClientId} {f : FlowRecord} :
    f.awaits c = true ↔ f.client = c ∧ f.state = .waiting ∧ f.reason = some .context := by
  simp only [FlowRecord.awaits, Bool.and_eq_true, beq_iff_eq, and_assoc]

theorem State.resolveFlows_eq (c : ClientId) (s : State) : s.resolveFlows c =
    walk ((byTime FlowRecord.classifiedAt (s.flowsWhere (FlowRecord.awaits c))).map Prod.fst) State.testFlow s := rfl

/-- These tests free no share. -/
theorem State.resolveFlows_released (c : ClientId) (s : State) : (s.resolveFlows c).ev.released = s.ev.released :=
  walk_testFlow_released fun _ _ _ h => (FlowRecord.awaits_iff.mp h).2.1

theorem State.mem_awaiting {s : State} {c : ClientId} {j : Fin 128} {f : FlowRecord} :
    (j, f) ∈ byTime FlowRecord.classifiedAt (s.flowsWhere (FlowRecord.awaits c)) ↔
      s.flow j = .used f ∧ f.client = c ∧ f.state = .waiting ∧ f.reason = some .context :=
  mem_byTime.trans (State.mem_flowsWhere.trans (and_congr_right fun _ => FlowRecord.awaits_iff))

/-- The test gives a flow no other owner. -/
theorem State.tested_owner (s : State) (now : Nat) (r : ClientRecord) (f : FlowRecord) :
    (s.tested now r f).client = f.client ∧ (s.tested now r f).slot = f.slot := by
  unfold State.tested
  split
  · exact ⟨rfl, rfl⟩
  · split
    · exact ⟨rfl, rfl⟩
    · split <;> exact ⟨rfl, rfl⟩

/-- A flow waits for context only while its client's record is PROVISIONAL (R107). -/
theorem State.tested_informed {r : ClientRecord} (hp : r.state ≠ .provisional) (s : State) (now : Nat) (f : FlowRecord) :
    (s.tested now r f).reason ≠ some .context := by
  rw [State.tested, if_neg hp]
  split
  · exact nofun
  · split <;> exact nofun

/-- The record in a slot, and a flow that does not wait for context where it is one of the record's client. -/
structure State.Informed (s : State) (i : Fin 64) (q : ClientRecord) (j : Fin 128) : Prop where
  record : s.record i = some q
  flow : ∀ f, s.flow j = .used f → f.client = q.client → f.slot = i ∧ ¬(f.state = .waiting ∧ f.reason = some .context)

section
variable {s : State} {i : Fin 64} {q : ClientRecord} {j : Fin 128} {f : FlowRecord} (hp : q.state ≠ .provisional)
include hp

theorem State.testFlow_informed (hr : s.record i = some q) (hf : s.flow j = .used f) (hslot : f.client = q.client → f.slot = i) :
    (s.testFlow j).Informed i q j := by
  refine ⟨(State.testFlow_record _ _ _).trans hr, fun g hg hc => ?_⟩
  cases hrf : s.record f.slot with
  | none =>
    rw [State.testFlow_ownerless hf hrf, hf] at hg
    cases hg
    rw [hslot hc, hr] at hrf
    cases hrf
  | some r =>
    rw [State.testFlow_used hf hrf, State.flow_putFlow_same] at hg
    cases hg
    obtain ⟨hclient, hsame⟩ := s.tested_owner s.now r f
    have hi := hslot (hclient.symm.trans hc)
    rw [hi, hr] at hrf
    cases hrf
    exact ⟨hsame.trans hi, fun h => State.tested_informed hp s s.now f h.2⟩

theorem retested_informed : Retested fun u => u.Informed i q j where
  same {_ _} hg h := ⟨(State.record_of_gist hg i).trans h.record, fun f hf => h.flow f ((State.flow_of_gist hg j).symm.trans hf)⟩
  tests u k g hk _ h := by
    by_cases hkj : k = j
    · subst hkj
      exact State.testFlow_informed hp h.record hk fun hc => (h.flow g hk hc).1
    · exact ⟨(State.testFlow_record _ _ _).trans h.record, fun f hf => h.flow f ((State.testFlow_other hkj).symm.trans hf)⟩

section
variable (hr : s.record i = some q) (hown : ∀ j f, s.flow j = .used f → f.client = q.client → f.slot = i)
include hr hown

/-- After the tests behind the resolution no flow of the client waits for context, to the end of the event. -/
theorem State.resolveFlows_informed (hc : s.Calm) (j : Fin 128) : (s.resolveFlows q.client).settle.Informed i q j := by
  have hcalm : (s.resolveFlows q.client).Calm := State.Calm.of_act hc (State.act_of_beside (State.resolveFlows_beside _ s))
  have hlist : ∀ x ∈ byTime FlowRecord.classifiedAt (s.flowsWhere (FlowRecord.awaits q.client)),
      s.flow x.1 = .used x.2 ∧ x.2.state = .waiting := fun x hx => by
    obtain ⟨hx, -, hst, -⟩ := State.mem_awaiting.mp hx
    exact ⟨hx, hst⟩
  refine (retested_informed hp).settleWith_calm false hcalm ?_
  rw [State.resolveFlows_eq]
  by_cases hj : ∃ f, s.flow j = .used f ∧ f.client = q.client ∧ f.state = .waiting ∧ f.reason = some .context
  · obtain ⟨f, hf⟩ := hj
    exact walk_testFlow_turn (P := fun u => u.record i = some q) (Q := fun f => f.state = .waiting)
      (fun u k _ _ _ hu => (State.testFlow_record k u i).trans hu) (State.mem_awaiting.mpr hf)
      (fun u hu hrec => State.testFlow_informed hp hrec hu (hown j f hf.1)) (retested_informed hp).tests hlist
      (byTime_distinct _ (s.flowsWhere_distinct _)) hr
  · exact walk_testFlow_of (P := fun u => u.Informed i q j) (Q := fun f => f.state = .waiting) (retested_informed hp).tests hlist
      (byTime_distinct _ (s.flowsWhere_distinct _)) ⟨hr, fun f hf hcl => ⟨hown j f hf hcl, fun h => hj ⟨f, hf, hcl, h⟩⟩⟩

/-- The tests behind the resolution, at the record's access, to the end of an event that frees no share. -/
theorem State.resolveFlows_resolves (hc : s.Calm) (hm : s.ev.released = false) :
    s.Resolves (s.resolveFlows q.client).settle q.client q.access s.now := by
  have hcalm : (s.resolveFlows q.client).Calm := State.Calm.of_act hc (State.act_of_beside (State.resolveFlows_beside _ s))
  have hwaits : ∀ j f, s.flow j = .used f → f.awaits q.client = true → f.state = .waiting ∧ s.record f.slot = some q :=
    fun j f hf h => by
      obtain ⟨hcl, hst, -⟩ := FlowRecord.awaits_iff.mp h
      rw [hown j f hf hcl]
      exact ⟨hst, hr⟩
  have hfree : (s.resolveFlows q.client).ev.released = false := (State.resolveFlows_released _ s).trans hm
  refine ⟨fun ha => ⟨fun j f hf h => ?_, fun j hj => ?_⟩, fun ha => ⟨_, fun j f => State.mem_awaiting, ?_⟩⟩
  · have hcapped := retested_capped (j := j) (f := { f with state := .waiting, reason := some .cap }) (r := q) rfl rfl hp ha
    have hwaiting : ({ f with state := .waiting, reason := some .cap } : FlowRecord) = { f with reason := some .cap } := by
      rw [← h.2.1]
    rw [State.settle_flow hcalm hfree, State.resolveFlows_eq, ← hwaiting]
    refine (walk_testFlow_turn (P := fun u => u.record f.slot = some q) (Q := fun f => f.state = .waiting)
      (fun u k _ _ _ hu => (State.testFlow_record k u _).trans hu) (State.mem_awaiting.mpr ⟨hf, h⟩) (fun u hu hrec => ?_) hcapped.tests
      (fun x hx => ?_) (byTime_distinct _ (s.flowsWhere_distinct _)) (hwaits j f hf (FlowRecord.awaits_iff.mpr h)).2).2
    · refine ⟨(State.testFlow_record j u _).trans hrec, ?_⟩
      rw [State.testFlow_used hu hrec, State.flow_putFlow_same, State.tested_capped _ hp ha]
    · obtain ⟨hx, -, hst, -⟩ := State.mem_awaiting.mp hx
      exact ⟨hx, hst⟩
  · rw [State.settle_flow hcalm hfree, State.resolveFlows_eq]
    refine walk_flow_other (slot := id) (fun _ _ _ => State.testFlow_other) (fun k hk => ?_) s
    obtain ⟨x, hx, rfl⟩ := List.mem_map.mp hk
    rintro rfl
    obtain ⟨hx, h⟩ := State.mem_awaiting.mp hx
    exact hj _ hx h
  · exact (State.tests_walk hwaits hp ha).of_flows (State.settleWith_calm_flows false hcalm hfree)

end

end

/-! ### Access worked out where no flow can move by it (R107) -/

section
variable {s : State} {i : Fin 64} {q : ClientRecord}

theorem State.accessChanged_onlyAwaits {c : ClientId} (old new : Access) (h : s.OnlyAwaits c) : s.accessChanged c old new = s := by
  have hadmitted := State.flowsWhere_nil (s := s) (p := fun f => f.client == c && f.state == .admitted) fun j f hf => by
    by_cases hc : f.client = c <;> simp [hc]
    exact (h j f hf hc).1
  have hcapped := State.flowsWhere_nil (s := s) (p := FlowRecord.reopens c s.now) fun j f hf =>
    Bool.eq_false_iff.mpr fun hre => by
      obtain ⟨hc, hst, hwhy, -⟩ := FlowRecord.reopens_iff.mp hre
      exact (h j f hf hc).2 ⟨hst, hwhy⟩
  have hcap : s.flowsWhere (fun f => f.client == c && f.state == .waiting && f.reason == some .cap && f.recent s.now) = [] := hcapped
  unfold State.accessChanged
  rw [hadmitted, hcap]
  split
  · rfl
  · split <;> rfl

/-- Working out the access of a client whose flows only wait for context leaves the Flow Table, the peers and the marks of the event. -/
theorem State.recompute_onlyAwaits (hr : s.record i = some q) (h : s.OnlyAwaits q.client) :
    (s.recompute i).prio = s.prio ∧ (s.recompute i).peers = s.peers ∧ (s.recompute i).ev = s.ev := by
  unfold State.recompute
  rw [hr]
  simp only
  split
  · split
    · exact ⟨rfl, rfl, rfl⟩
    · rw [State.accessChanged_onlyAwaits (s := (s.putRecord i { q with access := s.accessOf q }).setAccessMark i true) _ _ h]
      exact ⟨rfl, rfl, rfl⟩
  · exact ⟨rfl, rfl, rfl⟩

end

end Sys2Proof.Machine
end

section
/-! SUPPORT. Proofs: the flow list of a CONTEXT entered (R115), and a PROVISIONAL record resolved (R67, R68) to the end of the event. -/

namespace Sys2Proof.Machine

/-! ### The carried flows entered one by one (R115) -/

/-- The flow made from a carried one, which waits for context. -/
def CarriedFlow.waiting (g : CarriedFlow) (i : Fin 64) (c : ClientId) (now : Nat) : FlowRecord :=
  g.record i c .waiting (some now) (some .context) now

/-- The free flow slots in order. -/
def State.freeFlows (s : State) : List (Fin 128) := (List.finRange 128).filter fun j => s.flow j = .free

/-- The carried flows whose digests have no record. -/
def State.newFlows (s : State) (c : ClientId) (gs : List CarriedFlow) : List CarriedFlow :=
  gs.filter fun g => s.findFlow c g.digest = none

section
variable {s : State} {c : ClientId} {j : Fin 128}

theorem State.mem_freeFlows : j ∈ s.freeFlows ↔ s.flow j = .free := by
  simp [State.freeFlows]

theorem State.freeFlows_head : s.freeFlows.head? = s.freeFlowSlot := by
  rw [State.freeFlows, List.head?_filter]
  rfl

/-- The lowest free slot taken leaves the others in order. -/
theorem State.freeFlows_putFlow {x : FlowSlot} (hj : s.freeFlowSlot = some j) (hx : x ≠ .free) :
    s.freeFlows = j :: (s.putFlow j x).freeFlows := by
  have hrest : (s.putFlow j x).freeFlows = s.freeFlows.filter fun k => k ≠ j := by
    rw [State.freeFlows, State.freeFlows, List.filter_filter]
    refine List.filter_congr fun k _ => ?_
    by_cases hk : k = j
    · subst hk
      simp [State.flow_putFlow_same, hx]
    · simp [State.flow_putFlow_other _ _ _ _ (Ne.symm hk), hk]
  have hnodup : s.freeFlows.Nodup := (List.nodup_finRange 128).filter _
  have hhead := State.freeFlows_head.trans hj
  cases hl : s.freeFlows with
  | nil =>
    rw [hl] at hhead
    cases hhead
  | cons k l =>
    rw [hl] at hhead hnodup hrest
    cases hhead
    obtain ⟨hnot, -⟩ := List.nodup_cons.mp hnodup
    rw [hrest, List.filter_cons_of_neg (by simp), List.filter_eq_self.mpr fun k hk => ?_]
    exact decide_eq_true fun e : k = j => hnot (e ▸ hk)

theorem State.freeFlows_nil (h : s.freeFlowSlot = none) : s.freeFlows = [] :=
  List.head?_eq_none_iff.mp (State.freeFlows_head.trans h)

theorem State.findFlow_of_flows {s t : State} (h : t.prio.flows = s.prio.flows) (c : ClientId) (d : Digest) :
    t.findFlow c d = s.findFlow c d := by
  simp only [State.findFlow, State.flowsWhere, State.flow, h]

/-- A flow put in a free slot hides no digest but its own. -/
theorem State.findFlow_putFlow {f : FlowRecord} {d : Digest} (hj : s.flow j = .free) (hd : f.digest ≠ d) :
    (s.putFlow j (.used f)).findFlow c d = none ↔ s.findFlow c d = none := by
  rw [State.findFlow_none_iff, State.findFlow_none_iff]
  refine ⟨fun h k g hk => ?_, fun h k g hk => ?_⟩
  · have hjk : j ≠ k := fun e => by
      rw [← e, hj] at hk
      cases hk
    exact h k g ((State.flow_putFlow_other _ _ _ _ hjk).trans hk)
  · by_cases hjk : j = k
    · subst hjk
      rw [State.flow_putFlow_same] at hk
      cases hk
      exact fun _ => hd
    · exact h k g ((State.flow_putFlow_other _ _ _ _ hjk).symm.trans hk)

end

section
variable {s : State} {i : Fin 64} {c : ClientId} {now : Nat} {g : CarriedFlow}

/-- One carried flow: it has a record, there is no free slot, or it takes the lowest one. -/
theorem State.enterCarried_cases (s : State) (i : Fin 64) (c : ClientId) (now : Nat) (g : CarriedFlow) :
    let t := s.enterCarried i c (fun g => g.waiting i c now) g
    ((s.findFlow c g.digest ≠ none ∨ s.freeFlowSlot = none) ∧ t = s) ∨
      (s.findFlow c g.digest = none ∧ ∃ j, s.freeFlowSlot = some j ∧ t = s.putFlow j (.used (g.waiting i c now))) := by
  intro t
  cases hfind : s.findFlow c g.digest with
  | some k => exact .inl ⟨.inl nofun, by simp only [t, State.enterCarried, hfind, Option.isSome_some, if_true]⟩
  | none =>
    cases hfree : s.freeFlowSlot with
    | none => exact .inl ⟨.inr rfl, by simp [t, State.enterCarried, hfind, hfree]⟩
    | some j =>
      refine .inr ⟨rfl, j, rfl, ?_⟩
      simp only [t, State.enterCarried, hfind, hfree]
      rfl

/-- A property of the state that stands when a carried flow takes a free slot. -/
theorem State.enterContext_of {P : State → Prop}
    (h : ∀ (u : State) (j : Fin 128) (g : CarriedFlow), u.flow j = .free → P u → P (u.putFlow j (.used (g.waiting i c s.now))))
    (gs : List CarriedFlow) (hs : P s) : P (s.enterContext i c gs) := by
  refine walk_keeps P _ (fun g u hu => ?_) gs s hs
  rcases State.enterCarried_cases u i c s.now g with ⟨-, heq⟩ | ⟨-, j, hj, heq⟩
  · exact heq.symm ▸ hu
  · exact heq.symm ▸ h u j g (State.freeFlowSlot_free hj) hu

/-- Carried flows of distinct digests: the new ones take the free slots, each in its order. -/
theorem walk_enterCarried {gs : List CarriedFlow} (hd : (gs.map CarriedFlow.digest).Nodup) :
    let t := walk gs (State.enterCarried i c fun g => g.waiting i c now) s
    (∀ (n : Nat) (j : Fin 128) (g : CarriedFlow), s.freeFlows[n]? = some j → (s.newFlows c gs)[n]? = some g →
      t.flow j = .used (g.waiting i c now)) ∧
    ∀ j : Fin 128, (∀ n : Nat, s.freeFlows[n]? = some j → (s.newFlows c gs)[n]? = none) → t.flow j = s.flow j := by
  induction gs generalizing s with
  | nil => exact ⟨fun n j g _ hg => (nomatch (hg : none = some g)), fun _ _ => rfl⟩
  | cons g gs ih =>
    obtain ⟨hgd, hd⟩ := List.nodup_cons.mp hd
    intro t
    rcases State.enterCarried_cases s i c now g with ⟨hno, heq⟩ | ⟨hnew, j, hj, heq⟩
    · have ht : t = walk gs (State.enterCarried i c fun g => g.waiting i c now) s := by
        rw [← heq]
        rfl
      obtain ⟨henters, hstands⟩ := ih (s := s) hd
      rw [ht]
      rcases hno with hold | hfull
      · have hsame : s.newFlows c (g :: gs) = s.newFlows c gs := List.filter_cons_of_neg (by simpa using hold)
        rw [hsame]
        exact ⟨henters, hstands⟩
      · rw [State.freeFlows_nil hfull] at henters hstands ⊢
        exact ⟨fun n j g hn => (nomatch (hn : none = some j)), fun j _ => hstands j fun n hn => nomatch (hn : none = some j)⟩
    · obtain ⟨u, hu⟩ : ∃ u, u = s.putFlow j (.used (g.waiting i c now)) := ⟨_, rfl⟩
      have ht : t = walk gs (State.enterCarried i c fun g => g.waiting i c now) u := by
        rw [hu, ← heq]
        rfl
      have hfree : s.freeFlows = j :: u.freeFlows := hu ▸ State.freeFlows_putFlow hj nofun
      have hjused : j ∉ u.freeFlows := fun h => by
        have hjfree := State.mem_freeFlows.mp h
        rw [hu, State.flow_putFlow_same] at hjfree
        cases hjfree
      have hnews : s.newFlows c (g :: gs) = g :: u.newFlows c gs := by
        rw [State.newFlows, List.filter_cons_of_pos (by simpa using hnew)]
        refine congrArg (g :: ·) (List.filter_congr fun g' hg' => ?_)
        have hne : (g.waiting i c now).digest ≠ g'.digest := fun e : g.digest = g'.digest => hgd (e ▸ List.mem_map_of_mem hg')
        rw [hu]
        exact decide_eq_decide.mpr (State.findFlow_putFlow (State.freeFlowSlot_free hj) hne).symm
      obtain ⟨henters, hstands⟩ := ih (s := u) hd
      rw [ht, hfree, hnews]
      refine ⟨fun n k g' hk hg' => ?_, fun k hk => ?_⟩
      · cases n with
        | zero =>
          cases hk
          cases hg'
          rw [hstands j fun n hn => absurd (List.mem_of_getElem? hn) hjused, hu, State.flow_putFlow_same]
        | succ n => exact henters n k g' hk hg'
      · have hjk : j ≠ k := fun e => by
          have hfirst := hk 0 (congrArg some e)
          cases hfirst
        rw [hstands k fun n hn => hk (n + 1) hn, hu, State.flow_putFlow_other _ _ _ _ hjk]

end

/-! ### The CLASS marks (R117) -/

section
variable {s : State} {j k : Fin 128}

theorem State.putFlow_cls_of (x : FlowSlot) (h : s.port.dirty.cls[j] = true) : (s.putFlow k x).port.dirty.cls[j] = true := by
  unfold State.putFlow
  simp only
  split
  · by_cases hkj : k = j
    · subst hkj
      exact putSlot_get_same _ _ _
    · exact (putSlot_get_other _ _ _ _ hkj).trans h
  · exact h

/-- A free slot that takes a flow that waits has its CLASS mark set. -/
theorem State.putFlow_cls_new {f : FlowRecord} (hj : s.flow j = .free) (hst : f.state = .waiting) :
    (s.putFlow j (.used f)).port.dirty.cls[j] = true := by
  have hchanged : ((FlowSlot.used f).classValue.isSome && (FlowSlot.used f).classValue != (s.flow j).classValue) = true := by
    simp [FlowSlot.classValue, hst, hj]
  simp only [State.putFlow, hchanged, if_true]
  exact putSlot_get_same _ _ _

theorem State.testFlow_cls_of (h : s.port.dirty.cls[j] = true) : (s.testFlow k).port.dirty.cls[j] = true := by
  unfold State.testFlow
  split
  · split
    · split <;> exact State.putFlow_cls_of _ h
    · exact h
  · exact h
  · exact h

theorem State.resolveFlows_cls_of (c : ClientId) (h : s.port.dirty.cls[j] = true) : (s.resolveFlows c).port.dirty.cls[j] = true :=
  walk_keeps (fun u => u.port.dirty.cls[j] = true) _ (fun _ _ hu => State.testFlow_cls_of hu) _ s h

/-- In a calm part an event that frees no share ends without a change of the CLASS marks. -/
theorem State.settle_cls (hc : s.Calm) (h : s.ev.released = false) : s.settle.port.dirty.cls = s.port.dirty.cls := by
  have hpace : ∀ u : State, u.workPace.cutCredits.port.dirty.cls = u.port.dirty.cls := fun u => by
    unfold State.workPace
    split <;> rfl
  rw [State.settle, State.settleWith_calm false hc, State.retest_unreleased h]
  show s.priorityEnd.port.dirty.cls = s.port.dirty.cls
  unfold State.priorityEnd
  rw [State.retest_unreleased h]
  split
  · exact hpace s
  · rfl

/-- The slots that the carried flows take have their CLASS marks set. -/
theorem State.enterContext_cls (i : Fin 64) (c : ClientId) (gs : List CarriedFlow) (s : State) (j : Fin 128) :
    (s.enterContext i c gs).flow j ≠ s.flow j → (s.enterContext i c gs).port.dirty.cls[j] = true := by
  refine State.enterContext_of (P := fun u => u.flow j ≠ s.flow j → u.port.dirty.cls[j] = true) (fun u k g hk hu hne => ?_) gs
    fun h => absurd rfl h
  by_cases hkj : k = j
  · subst hkj
    exact State.putFlow_cls_new hk rfl
  · rw [State.flow_putFlow_other _ _ _ _ hkj] at hne
    exact State.putFlow_cls_of _ (hu hne)

end

/-! ### A PROVISIONAL record resolved (R67, R68) -/

theorem State.record_of_clients {s t : State} (h : t.clients = s.clients) (k : Fin 64) : t.record k = s.record k := by
  rw [State.record, h, ← State.record]

/-- The end of an event in a calm part leaves the Client Table. -/
theorem State.record_settle {s : State} (hc : s.Calm) (k : Fin 64) : s.settle.record k = s.record k :=
  State.record_of_clients (State.settleWith_clients false hc) k

/-- The part with a PROVISIONAL record resolved, its access worked out, and carried flows entered, before the tests. -/
def State.resolving (s : State) (i : Fin 64) (r : ClientRecord) (day used : Nat) (gs : List CarriedFlow) : State :=
  ((s.putRecord i (r.resolved day used)).recompute i).enterContext i r.client gs

theorem ClientRecord.resolved_held (r : ClientRecord) (day used : Nat) : (r.resolved day used).state ≠ .departed :=
  (nofun : RecState.associated ≠ .departed)

section
variable {s : State} {i : Fin 64} {r : ClientRecord} (day used : Nat) (gs : List CarriedFlow)

theorem State.resolving_beside : (s.resolving i r day used gs).beside = s.beside :=
  (State.enterContext_beside _ _ _ _).trans ((State.recompute_beside _ _).trans (State.putRecord_beside _ _ _))

theorem State.resolving_record (k : Fin 64) : (s.resolving i r day used gs).record k =
    if i = k then some { r.resolved day used with access := s.accessOf (r.resolved day used) } else s.record k := by
  rw [State.resolving, State.record, State.enterContext_clients, ← State.record, State.record_putRecord_recompute (r.resolved_held day used)]

/-- Every flow of the client names the record's slot. -/
theorem State.resolving_owned (hr : s.record i = some r) (hrun : s.running = true) (hk : s.AirtimeKept) (j : Fin 128)
    (f : FlowRecord) (hf : (s.resolving i r day used gs).flow j = .used f) (hc : f.client = r.client) : f.slot = i := by
  have hput : Keeps s (s.putRecord i (r.resolved day used)) := State.putRecord_keeps hr (RecordKept.plain rfl rfl rfl rfl)
  have hworked := hput.trans (State.recompute_keeps i _)
  have hrec : ((s.putRecord i (r.resolved day used)).recompute i).record i = _ :=
    (State.record_putRecord_recompute (r.resolved_held day used) i).trans (if_pos rfl)
  have hentered := hworked.trans (State.enterContext_keeps gs (hworked.running.trans hrun) hrec (c := r.client) rfl)
  exact (hentered.airtime hk).slot_eq ((State.resolving_record day used gs i).trans (if_pos rfl)) hf hc

section
variable (ha : s.OnlyAwaits r.client)
include ha

/-- Where the client's flows only await, access moves none of them. -/
theorem State.resolving_worked : ((s.putRecord i (r.resolved day used)).recompute i).prio = s.prio ∧
    ((s.putRecord i (r.resolved day used)).recompute i).peers = s.peers ∧
    ((s.putRecord i (r.resolved day used)).recompute i).ev = s.ev :=
  State.recompute_onlyAwaits (s := s.putRecord i (r.resolved day used)) (State.record_putRecord_same _ _ _) ha

theorem State.resolving_released : (s.resolving i r day used gs).ev.released = s.ev.released := by
  obtain ⟨-, -, hev⟩ := State.resolving_worked (i := i) day used ha
  refine State.enterContext_of (P := fun u => u.ev.released = s.ev.released) (fun u j g hj hu => ?_) gs
    (congrArg EventMarks.released hev)
  refine (State.putFlow_released fun hold => ?_).trans hu
  rw [hj] at hold
  cases hold

theorem State.resolving_peers : (s.resolving i r day used gs).peers = s.peers := by
  obtain ⟨-, hpeers, -⟩ := State.resolving_worked (i := i) day used ha
  exact State.enterContext_of (P := fun u => u.peers = s.peers)
    (fun u j g _ hu => (State.putFlow_same j _ u).2.2.2.2.2.1.trans hu) gs hpeers

/-- Without carried flows the Flow Table stands. -/
theorem State.resolving_none : (s.resolving i r day used []).prio.flows = s.prio.flows :=
  congrArg PriorityUnit.flows (State.resolving_worked (i := i) day used ha).1

/-- The carried flows are entered as R115 says, in the Flow Table as it stood. -/
theorem State.resolving_enters (hd : (gs.map CarriedFlow.digest).Nodup) :
    s.Enters { s with prio := { s.prio with flows := (s.resolving i r day used gs).prio.flows } } i r.client s.now gs := by
  obtain ⟨w, hw⟩ : ∃ w, w = (s.putRecord i (r.resolved day used)).recompute i := ⟨_, rfl⟩
  have hnow : w.now = s.now := hw ▸ (State.still_parts (State.still_of_beside
    ((State.recompute_beside i _).trans (State.putRecord_beside i (r.resolved day used) s)))).1
  have hflows : w.prio.flows = s.prio.flows := hw ▸ congrArg PriorityUnit.flows (State.resolving_worked (i := i) day used ha).1
  have hflow := State.flow_of_flows hflows
  have hfree : w.freeFlows = s.freeFlows := by simp only [State.freeFlows, hflow]
  have hnew : w.newFlows r.client gs = s.newFlows r.client gs := by simp only [State.newFlows, State.findFlow_of_flows hflows]
  obtain ⟨henters, hstands⟩ := walk_enterCarried (s := w) (i := i) (c := r.client) (now := w.now) hd
  rw [hfree, hnew, hnow] at henters
  rw [hfree, hnew, hnow] at hstands
  have hdef : s.resolving i r day used gs = walk gs (State.enterCarried i r.client fun g => g.waiting i r.client s.now) w := by
    rw [← hnow, hw]
    rfl
  rw [hdef]
  exact ⟨rfl, henters, fun j hj => (hstands j hj).trans (hflow j)⟩

end

end

/-- What the resolution leaves is read from the Flow Table, the peers and the ceiling. -/
theorem State.Resolves.of_same {v w t : State} {c : ClientId} {a : Access} {now : Nat} (h : w.Resolves t c a now)
    (hf : v.prio.flows = w.prio.flows) (hp : v.peers = w.peers) (hc : v.cfg = w.cfg) : v.Resolves t c a now := by
  have hflow := State.flow_of_flows hf
  have htotal : v.viewTotal = w.viewTotal := by simp only [State.viewTotal, State.ownReserved, State.freshPeers, hf, hp]
  simpa only [State.Resolves, State.Tests, hflow, htotal, hc] using h

section
variable {s : State} {i : Fin 64} {r : ClientRecord} (day used : Nat) (gs : List CarriedFlow) (hr : s.record i = some r)
  (hrun : s.running = true) (hc : s.Calm) (hk : s.AirtimeKept)
include hr hrun hc hk

/-- A PROVISIONAL record resolved, to the end of the event: its record with its access, the other records, and no flow of the client
that waits for context. -/
theorem State.resolved_ends :
    let q := r.resolved day used
    let t := ((s.resolving i r day used gs).resolveFlows r.client).settle
    t.record i = some { q with access := s.accessOf q } ∧ (∀ k, k ≠ i → t.record k = s.record k) ∧
      ∀ j x, t.flow j = .used x → x.client = r.client → x.state = .waiting → x.reason ≠ some .context := by
  intro q t
  have hbeside := State.resolving_beside (s := s) (i := i) (r := r) day used gs
  have hcalm : (s.resolving i r day used gs).Calm := State.Calm.of_act hc (State.act_of_beside hbeside)
  have htested : ((s.resolving i r day used gs).resolveFlows r.client).Calm :=
    State.Calm.of_act hcalm (State.act_of_beside (State.resolveFlows_beside _ _))
  have hrec : ∀ k, t.record k = (s.resolving i r day used gs).record k := fun k => by
    rw [State.record_settle htested, State.record_of_clients (State.resolveFlows_clients r.client)]
  refine ⟨?_, fun k hk => ?_, fun j x hx hcl hst => ?_⟩
  · rw [hrec, State.resolving_record, if_pos rfl]
  · rw [hrec, State.resolving_record, if_neg (Ne.symm hk)]
  · have hinformed := State.resolveFlows_informed (q := { q with access := s.accessOf q }) nofun
      ((State.resolving_record day used gs i).trans (if_pos rfl)) (State.resolving_owned day used gs hr hrun hk) hcalm j
    exact fun hwhy => (hinformed.flow x hx hcl).2 ⟨hst, hwhy⟩

/-- The flows of a client that only await, once its PROVISIONAL record is resolved. -/
theorem State.resolved_tests (hm : s.ev.released = false) (ha : s.OnlyAwaits r.client) :
    (s.resolving i r day used gs).Resolves ((s.resolving i r day used gs).resolveFlows r.client).settle r.client
      (s.accessOf (r.resolved day used)) s.now := by
  have hbeside := State.resolving_beside (s := s) (i := i) (r := r) day used gs
  have hnow := (State.still_parts (State.still_of_beside hbeside)).1
  rw [← hnow]
  exact State.resolveFlows_resolves (q := { r.resolved day used with access := s.accessOf (r.resolved day used) }) nofun
    ((State.resolving_record day used gs i).trans (if_pos rfl)) (State.resolving_owned day used gs hr hrun hk)
    (State.Calm.of_act hc (State.act_of_beside hbeside)) ((State.resolving_released day used gs ha).trans hm)

omit hr hrun hk in
/-- The slots that the carried flows took still have their CLASS marks set. -/
theorem State.resolved_cls (hm : s.ev.released = false) (ha : s.OnlyAwaits r.client) (j : Fin 128)
    (hj : (s.resolving i r day used gs).flow j ≠ s.flow j) :
    ((s.resolving i r day used gs).resolveFlows r.client).settle.port.dirty.cls[j] = true := by
  have hflow := State.flow_of_flows (congrArg PriorityUnit.flows (State.resolving_worked (i := i) day used ha).1) j
  have hentered : (s.resolving i r day used gs).port.dirty.cls[j] = true :=
    State.enterContext_cls _ _ _ _ j fun e => hj (e.trans hflow)
  have hcalm : ((s.resolving i r day used gs).resolveFlows r.client).Calm := State.Calm.of_act hc
    (State.act_of_beside ((State.resolveFlows_beside _ _).trans (State.resolving_beside day used gs)))
  have hreleased : ((s.resolving i r day used gs).resolveFlows r.client).ev.released = false :=
    (State.resolveFlows_released _ _).trans ((State.resolving_released day used gs ha).trans hm)
  rw [State.settle_cls hcalm hreleased]
  exact State.resolveFlows_cls_of _ hentered

end

end Sys2Proof.Machine
end

section
/-! SUPPORT. Proofs: a CONTEXT merged into the record that awaits it (R65, R66, R67), and the handoff timer's expiries (R59, R60, R68,
R69); O20 and O21. -/

namespace Sys2Proof.Machine

/-! ### The handoff timer (R51) -/

section
variable {s : State} {c : ClientId} {i : Fin 64} {r : ClientRecord} {d : Nat}

/-- The handoff timer of a record in a state, taken when it is due. -/
theorem State.handoffTimer {st : RecState} (take : Fin 64 → ClientRecord → State → State) (hrun : s.running = true)
    (h : s.Holds c i r) (ht : r.timer = some d) (hst : r.state = st) :
    s.expire (s.handoffDue c st) (fun _ => State.handoffEnds c take) = (take i r (s.clockTo d)).settle := by
  have hdue : s.handoffDue c st = some d := by
    rw [State.handoffDue, State.recordOf_of_holds h, Option.bind_some, if_pos hst, ht]
  have hfind : (s.clockTo d).findClient c = some i := h.1
  have hrec : (s.clockTo d).record i = some r := h.2
  rw [State.expire_due _ hrun hdue]
  simp only [State.handoffEnds, hfind, hrec]

/-- A HANDING expiry counts the attempt; the third makes the record steer-resistant (R60). -/
theorem State.handingEnds_eq (i : Fin 64) (r : ClientRecord) (s : State) : s.handingEnds i r =
    State.raise (.handoffFailed r.client .timeout r.offerTarget) (State.setSteerMark i true (State.putRecord i
      { r with
        state := .associated, offerTarget := none, timer := none
        steerAttempts := if r.steerAttempts < 2 then r.steerAttempts + 1 else 0
        resistantUntil := if r.steerAttempts < 2 then r.resistantUntil else some (s.now + 600000) } s)) := by
  unfold State.handingEnds
  by_cases h : r.steerAttempts < 2
  · have hresists : ¬3 ≤ r.steerAttempts + 1 := by omega
    simp only [hresists, h, if_true, if_false]
  · have hresists : 3 ≤ r.steerAttempts + 1 := by omega
    simp only [hresists, h, if_true, if_false, Config.steerResistance]

/-- A PROVISIONAL expiry resolves the record on the fallback figure, with nothing carried (R68). -/
theorem State.provisionalEnds_eq (i : Fin 64) (r : ClientRecord) (s : State) : s.provisionalEnds i r =
    (s.resolving i r r.dayStamp (fallbackFigure (s.sched.book.profileAt r.profile).allowance s.cfg.fallback r.used) []).resolveFlows
      r.client := rfl

end

/-- Settles O21, by the state of the record. -/
theorem handoffTimersExpire : Obligations.HandoffTimersExpire := by
  unfold Obligations.HandoffTimersExpire
  intro s c i r d hrun hm h ht now
  obtain rfl : r.client = c := h.client_eq
  refine ⟨fun p hst htarget => ?_, fun hst => ?_, fun hst => ?_, fun hst hcalm hkept => ?_⟩
  · refine congrArg Host.Outcome.next ((State.handoffTimer State.offeringEnds hrun h ht hst).trans ?_)
    rw [State.offeringEnds, htarget]
    exact State.settle_of_ev hm (State.raise_ev _ _)
  · refine congrArg Host.Outcome.next ((State.handoffTimer State.handingEnds hrun h ht hst).trans ?_)
    rw [State.handingEnds_eq]
    exact State.settle_of_ev hm (State.raise_ev _ _)
  · refine ⟨_, congrArg Host.Outcome.next (State.handoffTimer (fun i _ => State.deleteSlot i) hrun h ht hst),
      (State.settleWith_ebbs false _).released (State.deleteSlot_released h.2), fun hcalm k hk => ?_⟩
    have hcalm' : ((s.clockTo d).deleteSlot i).Calm :=
      State.Calm.of_act (s := s.clockTo d) hcalm (State.act_of_beside (State.deleteSlot_beside i _))
    rw [State.record_settle hcalm', State.record_deleteSlot, if_neg (Ne.symm hk)]
    rfl
  · intro used q
    let u := s.clockTo d
    have hkept' : u.AirtimeKept := (State.clockTo_keeps d s).airtime hkept
    have hexec : exec (.provisionalExpiry r.client) s = .next ((u.resolving i r r.dayStamp used []).resolveFlows r.client).settle :=
      congrArg Host.Outcome.next ((State.handoffTimer State.provisionalEnds hrun h ht hst).trans
        (congrArg State.settle (State.provisionalEnds_eq i r u)))
    obtain ⟨hrec, hothers, hinformed⟩ := State.resolved_ends (s := u) r.dayStamp used [] h.2 hrun hcalm hkept'
    refine ⟨_, hexec, hrec, hothers, hinformed, fun ha => ?_⟩
    have hreleased : u.ev.released = false := congrArg EventMarks.released hm
    exact (State.resolved_tests (s := u) r.dayStamp used [] h.2 hrun hcalm hkept' hreleased ha).of_same (v := s)
      (State.resolving_none (s := u) r.dayStamp used ha).symm (State.resolving_peers (s := u) r.dayStamp used [] ha).symm
      (State.cfg_of_beside (State.resolving_beside (s := u) r.dayStamp used [])).symm

/-! ### CONTEXT at the claimer (R65 to R67) -/

/-- The three cases of R66. -/
theorem mergeFigures_eq {usedHere delta dayHere usedThere dayThere day used : Nat}
    (hsame : dayThere = dayHere → day = dayHere ∧ used = min 1440 (max usedHere (usedThere + delta)))
    (hearlier : dayThere < dayHere → day = dayHere ∧ used = min 1440 (max usedHere delta))
    (hlater : dayHere < dayThere → day = dayThere ∧ used = min 1440 (usedThere + delta)) :
    mergeFigures usedHere delta dayHere usedThere dayThere = (day, used) := by
  rcases Nat.lt_trichotomy dayThere dayHere with h | h | h
  · obtain ⟨rfl, rfl⟩ := hearlier h
    rw [mergeFigures, if_neg h.ne, if_pos h]
    rfl
  · obtain ⟨rfl, rfl⟩ := hsame h
    rw [mergeFigures, if_pos h]
    rfl
  · obtain ⟨rfl, rfl⟩ := hlater h
    rw [mergeFigures, if_neg h.ne', if_neg h.asymm]
    rfl

section
variable {s : State} {h : Handover} {i : Fin 64} {r : ClientRecord}

theorem State.takeContext_merges (hold : s.Holds h.client i r) (hs : h.Sound) (ha : r.contextAwaited = true)
    (hst : r.state = .associated ∨ r.state = .offering ∨ r.state = .handing) : s.takeContext h = s.mergeContext i r h := by
  rcases hst with hst | hst | hst <;>
    simp only [State.takeContext, Handover.inRange_iff.mpr hs, hold.1, hold.2, ha, hst, if_true]

theorem State.takeContext_resolves (hold : s.Holds h.client i r) (hs : h.Sound) (ha : r.contextAwaited = true)
    (hst : r.state = .provisional) : s.takeContext h = s.resolveContext i r h := by
  simp only [State.takeContext, Handover.inRange_iff.mpr hs, hold.1, hold.2, ha, hst, if_true]

theorem State.takeContext_other (hold : s.Holds h.client i r)
    (hr : r.contextAwaited = false ∨ r.state = .arriving ∨ r.state = .departed) : s.takeContext h = s := by
  rcases hr with ha | hst | hst
  · simp only [State.takeContext, hold.1, hold.2, ha, Bool.false_eq_true, if_false, ite_self]
  · simp only [State.takeContext, hold.1, hold.2, hst, ite_self]
  · simp only [State.takeContext, hold.1, hold.2, hst, ite_self]

theorem State.takeContext_ignored (hn : s.findClient h.client = none ∨ ¬h.Sound) : s.takeContext h = s := by
  rcases hn with hn | hn
  · simp only [State.takeContext, hn, ite_self]
  · rw [State.takeContext, if_neg (mt Handover.inRange_iff.mp hn)]

/-- A CONTEXT resolves a PROVISIONAL record with its figures and enters its flows (R67, R115). -/
theorem State.resolveContext_eq {day used : Nat} (hm : mergeFigures 0 r.countedHere r.dayStamp h.used h.dayStamp = (day, used)) :
    s.resolveContext i r h = (s.resolving i r day used h.flows).resolveFlows r.client := by
  rw [State.resolveContext, hm]
  rfl

/-- The part that has taken a frame keeps the airtime as it stood. -/
theorem State.AirtimeKept.taking (k : s.AirtimeKept) (n : Nat) (rest : List Frame) : (s.taking n rest).AirtimeKept :=
  ⟨k.ceiling, k.owned, k.oneRecord, k.starting⟩

theorem State.exec_context {f : Frame} {rest : List Frame} (n : Nat) (hhead : s.Head f rest) (hbody : f.body = .context h) :
    exec (.context n) s = .next ((s.taking n rest).takeContext h).settle := by
  refine congrArg Host.Outcome.next ((State.onFrame_head State.onContext n hhead (by rw [hbody]; rfl)).trans ?_)
  rw [State.onContext, hbody]

/-- A record past PROVISIONAL that is written and has its access worked out, to the end of the event (R94, R112). -/
theorem State.recomputed_ends {q : ClientRecord} (hr : s.record i = some r) (hq : RecordKept r q) (hheld : q.state ≠ .departed)
    (hp : q.state ≠ .provisional) (hc : s.Calm) (hm : s.ev.released = false) :
    let t := ((s.putRecord i q).recompute i).settle
    t.record i = some { q with access := s.accessOf q } ∧ (∀ k, k ≠ i → t.record k = s.record k) ∧
      (s.AirtimeKept → s.AccessMoves t q.client q.access (s.accessOf q) s.now) := by
  intro t
  have hcalm : ((s.putRecord i q).recompute i).Calm :=
    State.Calm.of_act hc (State.act_of_beside ((State.recompute_beside i _).trans (State.putRecord_beside i q s)))
  have hrec : ∀ k, t.record k = ((s.putRecord i q).recompute i).record k := State.record_settle hcalm
  refine ⟨?_, fun k hk => ?_, fun hk => ?_⟩
  · rw [hrec, State.record_putRecord_recompute hheld, if_pos rfl]
  · rw [hrec, State.record_putRecord_recompute hheld, if_neg (Ne.symm hk)]
  · exact State.recompute_moves (s := s.putRecord i q) (State.record_putRecord_same _ _ _) hheld hp hc
      ((State.putRecord_keeps hr hq).airtime hk) hm

end

/-- Settles O20, by the state of the record and the days of the figures. -/
theorem contextsAreMerged : Obligations.ContextsAreMerged := by
  unfold Obligations.ContextsAreMerged
  intro n s f rest h hhead hm hcalm hbody u
  have hum : u.ev.released = false := congrArg EventMarks.released hm
  have hstands : u.settle = u := State.settle_of_ev hm rfl
  rw [State.exec_context n hhead hbody]
  refine ⟨fun i r hold hs ha => ⟨fun day used hsame hearlier hlater hst => ?_, fun day used hsame hearlier hlater hst hkept => ?_⟩,
    fun i r hold hr => ?_, fun hn => ?_⟩
  · intro q
    have hclient : q.client = h.client := hold.client_eq
    have hmerge : u.takeContext h = (u.putRecord i q).recompute i := by
      rw [State.takeContext_merges (s := u) hold hs ha hst, State.mergeContext, mergeFigures_eq hsame hearlier hlater]
    have hheld : q.state ≠ .departed := fun e : r.state = .departed => by simp [e] at hst
    have hp : q.state ≠ .provisional := fun e : r.state = .provisional => by simp [e] at hst
    obtain ⟨hrec, hothers, hmoves⟩ := State.recomputed_ends (s := u) (q := q) hold.2 (RecordKept.plain rfl rfl rfl rfl) hheld hp
      hcalm hum
    rw [hmerge, ← hclient]
    exact ⟨_, rfl, hrec, hothers, fun hk => hmoves (hk.taking n rest)⟩
  · intro q
    have hclient : r.client = h.client := hold.client_eq
    have hresolve : u.takeContext h = (u.resolving i r day used h.flows).resolveFlows r.client := by
      rw [State.takeContext_resolves (s := u) hold hs ha hst, State.resolveContext_eq]
      exact mergeFigures_eq (by rwa [Nat.zero_max]) (by rwa [Nat.zero_max]) hlater
    have hukept : u.AirtimeKept := hkept.taking n rest
    obtain ⟨hrec, hothers, hinformed⟩ := State.resolved_ends (s := u) day used h.flows hold.2 hhead.1 hcalm hukept
    rw [hresolve, ← hclient]
    refine ⟨_, rfl, hrec, hothers, hinformed, fun haw hd => ?_⟩
    let w := u.resolving i r day used h.flows
    let v : State := { s with prio := { s.prio with flows := w.prio.flows } }
    have henters : s.Enters v i r.client u.now h.flows := by
      obtain ⟨-, henters, hrest⟩ := State.resolving_enters (s := u) (i := i) day used h.flows haw hd
      exact ⟨rfl, henters, hrest⟩
    refine ⟨v, henters, ?_, fun j hj => ?_⟩
    · exact (State.resolved_tests (s := u) day used h.flows hold.2 hhead.1 hcalm hukept hum haw).of_same (v := v) rfl
        (State.resolving_peers (s := u) day used h.flows haw).symm
        (State.cfg_of_beside (State.resolving_beside (s := u) day used h.flows)).symm
    · exact State.resolved_cls (s := u) day used h.flows hcalm hum haw j hj
  · rw [State.takeContext_other (s := u) hold hr, hstands]
  · rw [State.takeContext_ignored (s := u) hn, hstands]

end Sys2Proof.Machine
end

section
/-! SUPPORT. Proofs: the records of the store and the Schedule Book read back as they were written (R77, R78, R129, R134, R177;
O53). -/

namespace Sys2Proof.Machine

/-! ### The configuration (R177) -/

/-- A value within its range that is not the all-ones encoding stands. -/
theorem clampField_ranged {v ones d lo hi : Nat} (hlo : lo ≤ v) (hhi : v ≤ hi) (hones : hi < ones) :
    clampField v ones d lo hi = v := by
  rw [clampField, if_neg (by omega), Nat.min_eq_left hhi, Nat.max_eq_right hlo]

theorem clampField_flag (b : Bool) (d : Nat) : (clampField (flagBit b % 256 ^ 1) 255 d 0 1 == 1) = b := by
  rw [oneByte (by cases b <;> decide), clampField_ranged (Nat.zero_le _) (by cases b <;> decide) (by decide)]
  cases b <;> rfl

theorem toInt_ofInt_byte {q : Int} (hlo : -128 ≤ q) (hhi : q ≤ 127) : (BitVec.ofInt 8 q).toInt = q := by
  rw [BitVec.toInt_ofInt, Int.bmod_def]
  omega

theorem clampFloor_ranged {q : Int} (hlo : -90 ≤ q) (hhi : q ≤ -70) : clampFloor q = q := by
  rw [clampFloor, if_neg (by omega)]
  omega

theorem readConfig_write {c : ActiveConfig} (h : c.Fits) : readConfig (writeConfig c) = c := by
  obtain ⟨hid, hplo, hphi, hhlo, hhhi, hwlo, hwhi, hclo, hchi, hfall⟩ := h
  have hfloor : (BitVec.ofInt 8 c.weakFloor).toInt = c.weakFloor := toInt_ofInt_byte (by omega) (by omega)
  simp only [readConfig, writeConfig, signedByte, List.append_assoc, field_here, field_past, field_last, Nat.reduceLeDiff,
    Nat.reduceSub, le_refl, clampField_flag, oneByte hid, twoBytes (v := c.period) (by omega),
    oneByte (v := c.hysteresis) (by omega),
    ofNat_toNat_mod (n := 8) (w := 1) rfl, hfloor, twoBytes (v := c.ceiling) (by omega), twoBytes (v := c.fallback) (by omega),
    clampFloor_ranged hwlo hwhi, clampField_ranged hplo hphi (show 2000 < 65535 by decide),
    clampField_ranged hhlo hhhi (show 20 < 255 by decide),
    clampField_ranged hclo hchi (show 800 < 65535 by decide), clampField_ranged (Nat.zero_le _) hfall (show 1440 < 65535 by decide)]

/-! ### The selector (R134) -/

theorem slotOfCode_code (k : SlotId) : slotOfCode (k.code % 256 ^ 1) = k := by cases k <;> rfl

theorem flagBit_ne_zero (b : Bool) : (flagBit b % 256 ^ 1 != 0) = b := by cases b <;> rfl

theorem readSelector_write {q : Nat} {sel : Selector} (hq : q < 2 ^ 32) (hstarts : sel.trialStarts < 256)
    (hfloor : sel.floor < 2 ^ 32) : readSelector (writeSelector q sel) = some (q, sel) := by
  have hlen : (writeSelector q sel).length = 12 := by simp [writeSelector]
  rw [readSelector, if_pos hlen]
  simp only [writeSelector, List.append_assoc, field_here, field_past, field_last, Nat.reduceLeDiff, Nat.reduceSub, le_refl,
    slotOfCode_code, flagBit_ne_zero, fourBytes hq, oneByte hstarts, fourBytes hfloor]

/-! ### The record areas (R129) -/

/-- A device that returns the flash as it stands lays nothing over it. -/
theorem overlay_nil (a : Nat) (bs : List Byte) : overlay [] a bs = bs := by
  induction bs generalizing a with
  | nil => rfl
  | cons b bs ih => rw [overlay, ih]; rfl

/-- A part of a run, read after the run was written. -/
theorem Memory.readBytes_writeBytes_part (m : List Host.Cell) (a : Nat) (bs : List Byte) {off n : Nat}
    (h : off + n ≤ bs.length) : Memory.readBytes (Memory.writeBytes m a bs) (a + off) n = (bs.drop off).take n := by
  apply List.ext_getElem
  · simp only [Memory.readBytes, List.length_map, List.length_range, List.length_take, List.length_drop]
    omega
  · intro i h1 h2
    have hi : off + i < bs.length := by
      simp only [List.length_take, List.length_drop] at h2
      omega
    simp only [Memory.readBytes, List.getElem_map, List.getElem_range, List.getElem_take, List.getElem_drop]
    rw [Nat.add_assoc, Memory.read_writeBytes_inside m a bs (off + i) hi]

theorem length_writeRecord (a : Area) (body : List Byte) : (writeRecord a body).length = body.length + 7 := by
  simp only [writeRecord, crcBytes, List.length_append, length_beBytes]
  omega

theorem readArea_writeArea (flash : List Host.Cell) (a : Area) {body : List Byte} (h : body.length ≤ 16377) :
    readArea [] (writeArea flash a body) a = some body := by
  obtain ⟨head, hhead⟩ : ∃ head, beBytes 1 a.recordKind ++ beBytes 2 body.length = head := ⟨_, rfl⟩
  have hlen : head.length = 3 := by rw [← hhead]; simp
  have hrec : writeRecord a body = head ++ (body ++ crcBytes (crc32 (head ++ body))) := by
    rw [← hhead]
    simp only [writeRecord, List.append_assoc]
  have hwhole : (writeRecord a body).take Config.blockBytes = writeRecord a body :=
    List.take_of_length_le (by rw [length_writeRecord, show Config.blockBytes = 16384 from rfl]; omega)
  have hread : ∀ off n, off + n ≤ body.length + 7 → Memory.readBytes (writeArea flash a body) (a.base + off) n =
      ((writeRecord a body).drop off).take n := fun off n hn => by
    rw [writeArea, hwhole]
    exact Memory.readBytes_writeBytes_part _ _ _ (by rwa [length_writeRecord])
  have hread0 : Memory.readBytes (writeArea flash a body) (a.base + 0) 3 = head := by
    rw [hread 0 3 (by omega), hrec, List.drop_zero, List.take_append_of_le_length (by omega), List.take_of_length_le (by omega)]
  have hread3 : Memory.readBytes (writeArea flash a body) (a.base + 3) body.length = body := by
    rw [hread 3 _ (by omega), hrec, List.drop_left' hlen, List.take_left' rfl]
  have hcrc : Memory.readBytes (writeArea flash a body) (a.base + (3 + body.length)) 4 = crcBytes (crc32 (head ++ body)) := by
    rw [hread _ 4 (by omega), hrec, ← List.append_assoc, List.drop_left' (by rw [List.length_append, hlen]),
      List.take_of_length_le (by simp [crcBytes])]
  have hkind : field head 0 1 = a.recordKind := by
    rw [← hhead, field_here, oneByte (by cases a <;> simp [Area.recordKind])]
  have hn : field head 1 2 = body.length := by
    rw [← hhead, field_past le_rfl, Nat.sub_self, field_last, twoBytes (by omega)]
  have hsum : field (crcBytes (crc32 (head ++ body))) 0 4 = (crc32 (head ++ body)).toNat := by
    rw [crcBytes, field_last, fourBytes (crc32 (head ++ body)).isLt]
  unfold readArea
  simp only [overlay_nil, hread0, hn, hread3, hcrc, hkind, hsum, ne_eq, not_true, false_or, if_true]
  exact if_neg (by rw [show Config.blockBytes = 16384 from rfl]; omega)

/-! ### The Schedule Book (R78) -/

section
variable (rest : List Byte)

theorem writeSpan_eq (w : Span) : writeSpan w = beBytes 1 w.mask.toNat ++ (beBytes 2 w.start ++ beBytes 2 w.stop) := by
  simp [writeSpan, beBytes]

theorem length_writeSpan (w : Span) : (writeSpan w).length = 5 := by simp [writeSpan]

theorem readSpan_write {w : Span} (hstart : w.start < 65536) (hstop : w.stop < 65536) : readSpan (writeSpan w ++ rest) = w := by
  simp only [readSpan, writeSpan_eq, List.append_assoc, field_here, field_past, Nat.reduceLeDiff, Nat.reduceSub, le_refl,
    twoBytes hstart, twoBytes hstop, ofNat_toNat_mod (n := 8) (w := 1) rfl]

/-- A field behind a span. -/
theorem field_past_span (w : Span) (off n : Nat) : field (writeSpan w ++ rest) (5 + off) n = field rest off n := by
  rw [field, ← List.drop_drop, List.drop_left' (length_writeSpan w), field]

theorem length_writeWindow (x : Window) : (writeWindow x).length = 6 := by
  simp [writeWindow, length_writeSpan]

theorem readWindows_write (ws : List Window) (h : ∀ x ∈ ws, x.span.start < 65536 ∧ x.span.stop < 65536) :
    readWindows ws.length (ws.flatMap writeWindow ++ rest) = some (ws, rest) := by
  induction ws with
  | nil => rfl
  | cons x ws ih =>
    obtain ⟨⟨hstart, hstop⟩, hws⟩ := List.forall_mem_cons.mp h
    obtain ⟨tail, htail⟩ : ∃ tail, ws.flatMap writeWindow ++ rest = tail := ⟨_, rfl⟩
    have hbytes : (x :: ws).flatMap writeWindow ++ rest = writeSpan x.span ++ (beBytes 1 x.action.code ++ tail) := by
      rw [List.flatMap_cons, List.append_assoc, htail, writeWindow, List.append_assoc]
    have hcode : field (writeSpan x.span ++ (beBytes 1 x.action.code ++ tail)) 5 1 = x.action.code := by
      rw [field_past_span _ _ 0, field_here, oneByte (by cases x.action <;> decide)]
    have hdrop : (writeSpan x.span ++ (beBytes 1 x.action.code ++ tail)).drop 6 = tail := by
      rw [← List.append_assoc]
      exact List.drop_left' (by simp [length_writeSpan])
    have hlong : ¬(writeSpan x.span ++ (beBytes 1 x.action.code ++ tail)).length < 6 := by
      simp only [List.length_append, length_writeSpan, length_beBytes]
      omega
    rw [hbytes, List.length_cons, readWindows, if_neg hlong, hcode, hdrop, ← htail, ih hws, readSpan_write _ hstart hstop]
    obtain ⟨span, action⟩ := x
    cases action <;> rfl

theorem readProfiles_write (ps : List Profile) (h : ∀ p ∈ ps, (∀ a, p.allowance = some a → a < 65535) ∧ p.windows.length ≤ 8 ∧
    ∀ x ∈ p.windows, x.span.start < 65536 ∧ x.span.stop < 65536) :
    readProfiles ps.length (ps.flatMap writeProfile ++ rest) = some (ps, rest) := by
  induction ps with
  | nil => rfl
  | cons p ps ih =>
    obtain ⟨⟨hallow, hcount, hwindows⟩, hps⟩ := List.forall_mem_cons.mp h
    obtain ⟨tail, htail⟩ : ∃ tail, ps.flatMap writeProfile ++ rest = tail := ⟨_, rfl⟩
    have hbytes : (p :: ps).flatMap writeProfile ++ rest =
        beBytes 2 (p.allowance.getD 0xFFFF) ++ (beBytes 1 p.windows.length ++ (p.windows.flatMap writeWindow ++ tail)) := by
      rw [List.flatMap_cons, List.append_assoc, htail, writeProfile]
      simp only [List.append_assoc]
    have hword : p.allowance.getD 0xFFFF < 65536 := by
      cases ha : p.allowance with
      | none => decide
      | some a => exact Nat.lt_succ_of_lt (hallow a ha)
    have hback : (if p.allowance.getD 0xFFFF = 0xFFFF then none else some (p.allowance.getD 0xFFFF)) = p.allowance := by
      cases ha : p.allowance with
      | none => rfl
      | some a => exact if_neg (hallow a ha).ne
    rw [hbytes, List.length_cons, readProfiles]
    simp only [field_here, field_past, drop_past, Nat.reduceLeDiff, Nat.reduceSub, le_refl, Nat.sub_self, List.drop_zero,
      twoBytes hword, oneByte (v := p.windows.length) (by omega), readWindows_write _ p.windows hwindows, hback]
    rw [if_neg (by simp only [List.length_append, length_beBytes]; omega), ← htail, ih hps]
    rfl

theorem readBindings_write (xs : List Binding) (h : ∀ x ∈ xs, x.profile < 256) :
    readBindings xs.length (xs.flatMap (fun x => beBytes 6 x.client.toNat ++ beBytes 1 x.profile) ++ rest) = xs := by
  induction xs with
  | nil => rfl
  | cons x xs ih =>
    obtain ⟨hprofile, hxs⟩ := List.forall_mem_cons.mp h
    simp only [List.length_cons, List.flatMap_cons, readBindings, clientField, List.append_assoc, field_here, field_past, drop_past,
      Nat.reduceLeDiff, Nat.reduceSub, List.drop_zero, ofNat_toNat_mod (n := 48) (w := 6) rfl, oneByte hprofile, ih hxs]

end

theorem readBook_write {b : Book} (h : b.Fits) : readBook (writeBook b) = some b := by
  obtain ⟨hversion, horigin, ⟨hstart, hstop⟩, hsixteen, hprofiles, hcount, hbindings⟩ := h
  obtain ⟨crc, hcrc⟩ : ∃ crc, crcBytes (crc32 (bookHead b)) = crc := ⟨_, rfl⟩
  have hcrclen : crc.length = 4 := by rw [← hcrc]; simp [crcBytes]
  obtain ⟨bound, hbound⟩ : ∃ bound,
      b.bindings.flatMap (fun x => beBytes 6 x.client.toNat ++ beBytes 1 x.profile) = bound := ⟨_, rfl⟩
  have hboundlen : bound.length = 7 * b.bindings.length := by
    rw [← hbound]
    exact length_flatMap_const (fun _ => by simp) _
  obtain ⟨tail, htail⟩ : ∃ tail, beBytes 1 b.bindings.length ++ (bound ++ crc) = tail := ⟨_, rfl⟩
  have htaillen : tail.length = 1 + 7 * b.bindings.length + 4 := by
    rw [← htail, List.length_append, List.length_append, length_beBytes, hboundlen, hcrclen]
    omega
  have hbook : writeBook b =
      beBytes 4 b.version ++ (beBytes 1 b.origin ++ (writeSpan b.quiet ++ (b.profiles.flatMap writeProfile ++ tail))) := by
    rw [writeBook, hcrc, bookHead, hbound, ← htail]
    simp only [List.append_assoc]
  have hlen : (writeBook b).length = (bookHead b).length + 4 := by rw [writeBook, hcrc, List.length_append, hcrclen]
  have hlong : ¬(writeBook b).length < 10 := by
    rw [hbook]
    simp only [List.length_append, length_beBytes, length_writeSpan, htaillen]
    omega
  have hprof : readProfiles 16 ((writeBook b).drop 10) = some (b.profiles, tail) := by
    rw [hbook, drop_past (by decide), drop_past (by decide), List.drop_left' (length_writeSpan _), ← hsixteen]
    exact readProfiles_write tail b.profiles hprofiles
  have hnum : field tail 0 1 = b.bindings.length := by rw [← htail, field_here, oneByte (by omega)]
  have hsum : field (writeBook b) ((writeBook b).length - 4) 4 = (crc32 (bookHead b)).toNat := by
    calc field (writeBook b) ((writeBook b).length - 4) 4
        = field (crcBytes (crc32 (bookHead b))) 0 4 := by
          rw [hlen, Nat.add_sub_cancel, writeBook, field, List.drop_left, field, List.drop_zero]
      _ = (crc32 (bookHead b)).toNat := by rw [crcBytes, field_last, fourBytes (crc32 (bookHead b)).isLt]
  have htake : (writeBook b).take ((writeBook b).length - 4) = bookHead b := by
    rw [hlen, Nat.add_sub_cancel, writeBook, List.take_left]
  have hver : field (writeBook b) 0 4 = b.version := by rw [hbook, field_here, fourBytes hversion]
  have hori : field (writeBook b) 4 1 = b.origin := by
    rw [hbook, field_past le_rfl, Nat.sub_self, field_here, oneByte horigin]
  have hquiet : readSpan ((writeBook b).drop 5) = b.quiet := by
    rw [hbook, drop_past (by decide), drop_past (by decide)]
    exact readSpan_write _ hstart hstop
  have hbind : readBindings b.bindings.length (tail.drop 1) = b.bindings := by
    rw [← htail, drop_past le_rfl, Nat.sub_self, List.drop_zero, ← hbound]
    exact readBindings_write crc b.bindings hbindings
  unfold readBook
  rw [if_neg hlong, hprof]
  simp only [hnum, htaillen, hsum, htake, hver, hori, hquiet, hbind, ne_eq, not_true, if_false]
  rw [if_neg (by omega)]

/-- Settles O53: each layout is read field by field as it was written. -/
theorem recordsReadBack : Obligations.RecordsReadBack :=
  ⟨fun _ => readConfig_write, fun _ _ => readSelector_write, fun flash a _ => readArea_writeArea flash a, fun _ => readBook_write⟩

end Sys2Proof.Machine
end

section
/-! SUPPORT. Proofs: a change of mesh time brings the minute and day marks up, and SET-TIME and the ageing timer (R72, R74, R75;
O35). -/

namespace Sys2Proof.Machine

theorem State.time_of_still {s t : State} (h : t.still = s.still) : t.time = s.time := congrArg Still.time h

section
variable (s : State)

/-- The time base with its marks brought up to its mesh time (R75). -/
def TimeBase.marked (tb : TimeBase) : TimeBase :=
  { tb with minuteMark := tb.mesh / 60, dayMark := max tb.dayMark (tb.mesh / 86400) }

theorem State.minuteStep_time : s.minuteStep.time = { s.time with minuteMark := s.time.mesh / 60 } := by
  by_cases h : s.time.mesh / 60 = s.time.minuteMark
  · rw [State.minuteStep_same h, h]
  · rw [State.minuteStep_new h, State.time_of_still (State.settleWith_still true _),
      State.time_of_still (State.still_of_beside (State.recomputeAll_beside _))]
    rfl

theorem State.dayStep_time : s.dayStep.time = { s.time with dayMark := max s.time.dayMark (s.time.mesh / 86400) } := by
  by_cases h : s.time.mesh / 86400 ≤ s.time.dayMark
  · rw [State.dayStep_same h, max_eq_left h]
  · rw [not_le] at h
    rw [State.dayStep_new h, State.time_of_still (State.settleWith_still false _),
      State.time_of_still (State.still_of_beside (State.recomputeAll_beside _)),
      State.time_of_still (State.still_of_beside s.dayed_beside), max_eq_right h.le]

variable {s}

theorem State.timeChanged_time (timeSet : Bool) (h : s.time.rank < 15) : (s.timeChanged timeSet).time = s.time.marked := by
  have hsteps : s.minuteStep.dayStep.time = s.time.marked := by
    rw [State.dayStep_time, State.minuteStep_time]
    rfl
  unfold State.timeChanged
  rw [if_pos (show s.time.rank < Config.rankUnknown from h)]
  cases timeSet with
  | false => exact hsteps
  | true =>
    refine Eq.trans ?_ hsteps
    exact (State.time_of_still (State.settle_still _)).trans
      (State.time_of_still (State.still_of_beside (State.recomputeAll_beside _)))

theorem State.timeChanged_replies (timeSet : Bool) : (s.timeChanged timeSet).port.replies = s.port.replies := by
  have step : ∀ {u v : State}, v.still = u.still → u.port.replies = s.port.replies → v.port.replies = s.port.replies :=
    fun hv hu => (congrArg Still.replies hv).trans hu
  exact State.timeChanged_of (P := fun u => u.port.replies = s.port.replies) (fun u b => step (State.settleWith_still b u))
    (fun u v h => step (State.still_of_beside h)) (fun _ _ h => h) timeSet rfl

end

/-- A reply stands behind those given before it (R171). -/
theorem State.replies_reply (tag : Tag) (status : Status) (s : State) :
    (s.reply tag status).port.replies = s.port.replies ++ [{ tag := tag, status := status, view := none }] := rfl

/-- Settles O35: the marks come up with the mesh time that is set; an ageing expiry touches the rank and its timer alone. -/
theorem timeIsSetAndAges : Obligations.TimeIsSetAndAges := by
  unfold Obligations.TimeIsSetAndAges
  refine ⟨fun n m s htakes hc hok => ?_, fun s d hr hd => ⟨fun hrank => ?_, fun hrank => ?_⟩⟩
  · intro mesh
    refine ⟨((s.clockTo n).setMesh mesh 0 |>.timeChanged true).reply m.tag .ok,
      congrArg Host.Outcome.next (State.hostMessage_requested (k := .setTime) n htakes hc hok), ?_, ?_⟩
    · rw [State.reply_time, State.timeChanged_time true (Nat.zero_lt_succ 14)]
      rfl
    · rw [State.replies_reply, State.timeChanged_replies true]
      rfl
  · refine congrArg Host.Outcome.next ((State.expire_due _ hr hd).trans ?_)
    have hbelow : (s.clockTo d).time.rank + 1 < Config.rankUnknown := Nat.succ_lt_succ hrank
    rw [State.ageRank, if_pos hbelow, Nat.min_eq_right hbelow.le]
    rfl
  · refine congrArg Host.Outcome.next ((State.expire_due _ hr hd).trans ?_)
    have hrank' : (s.clockTo d).time.rank = 14 := hrank
    rw [State.ageRank, hrank']
    rfl

end Sys2Proof.Machine
end
section
/-! SUPPORT. Proofs: the time that an ADVERT gives (R73, R75; O10). -/

namespace Sys2Proof.Machine

section
variable {s : State}

/-- The time adopted from a peer of a better rank (R73, R75). -/
theorem State.hearTime_adopts {mesh rank : Nat} (peer : Nat) (hlow : rank + 1 < s.time.rank) (hknown : rank + 1 < 15) :
    (s.hearTime peer mesh rank).time =
      TimeBase.marked { s.time with mesh := mesh, rank := rank + 1, ageingDue := some (s.now + 86400000) } := by
  have hset : ((s.setMesh mesh (rank + 1)).raise (.timeAdopted peer (rank + 1))).time =
      { s.time with mesh := mesh, rank := rank + 1, ageingDue := some (s.now + 86400000) } := by
    rw [State.raise_time]
    rfl
  rw [State.hearTime, if_pos hlow, State.timeChanged_time true (by rw [hset]; exact hknown), hset]

theorem State.hearTime_notices {mesh rank : Nat} (peer : Nat) (hlow : rank + 1 < s.time.rank) (hroom : s.port.notices.length < 16) :
    .timeAdopted peer (rank + 1) ∈ (s.hearTime peer mesh rank).port.notices := by
  rw [State.hearTime, if_pos hlow]
  exact (State.timeChanged_grows true _).mem_notices (State.raise_mem _ (s.setMesh mesh (rank + 1)) hroom)

/-- The parts of an ADVERT behind the time leave it. -/
theorem State.handOn_time (peer : Nat) (a : Advert) :
    (s.handOn peer a).settle.time = (s.hearTime peer a.meshTime a.timeRank).time := by
  refine State.time_of_fixed ?_
  rw [State.settle_fixed, State.handOn, State.hearFlags_fixed, State.hearAirtime_fixed, State.hearImage_fixed, State.hearBook_fixed]

/-- A notice that the time raises is there at the end of the event. -/
theorem State.handOn_grows_time (peer : Nat) (a : Advert) :
    Grows (s.hearTime peer a.meshTime a.timeRank) (s.handOn peer a).settle :=
  ((((State.hearBook_grows _ _ _ _).trans (State.hearImage_grows _ _ _)).trans (State.hearAirtime_grows _)).trans
    (State.hearFlags_grows _ _ _)).trans (State.settle_grows _)

/-- A sender that is entered raises at most the one notice (R14). -/
theorem State.enterPeer_notices {s1 : State} {id : Nat} {a : Advert} (h : s.enterPeer id a = some s1) :
    s1.port.notices.length ≤ s.port.notices.length + (if (s.peer id).isSome then 0 else 1) := by
  unfold State.enterPeer at h
  cases hp : s.peer id with
  | some p =>
    rw [hp] at h
    cases h
    exact Nat.le_refl _
  | none =>
    rw [hp] at h
    simp only at h
    split at h
    · cases h
      unfold State.raise
      split
      · simp
      · simp
    · cases h

end

/-- Settles O10: the parts of an ADVERT before the time leave the time base and raise PEER-JOINED at most; those behind it leave
both the time and its notice. -/
theorem advertAdoptsABetterTime : Obligations.AdvertAdoptsABetterTime := by
  unfold Obligations.AdvertAdoptsABetterTime
  intro n s f rest a hhead hbody hother hrange hroom
  obtain ⟨s1, e, he, hs1, hfresh, hadv⟩ := State.enterPeer_entered (s := s.taking n rest) (id := f.sender) a hroom
  have hexec := State.advert_exec n hhead hbody hother hrange he
  obtain ⟨x, hx⟩ : ∃ x, s1.noted f.sender a = x := ⟨_, rfl⟩
  have htime : x.time = s.time := hx ▸ (hs1.noted hfresh hadv).time
  have hnow : x.now = max s.now n := by
    rw [← hx]
    exact congrArg State.now hs1.rest
  have hnotices : x.port.notices.length ≤ s.port.notices.length + (if (s.peer f.sender).isSome then 0 else 1) := by
    rw [← hx]
    exact State.enterPeer_notices (s := s.taking n rest) (s1 := s1) he
  rw [hx] at hexec
  refine ⟨fun hlow hknown => ⟨_, hexec, ?_, fun hfree => ?_⟩, fun hkept => ⟨_, hexec, ?_⟩⟩
  · rw [State.handOn_time, State.hearTime_adopts f.sender (by rwa [htime]) hknown, htime, hnow]
    rfl
  · refine (State.handOn_grows_time f.sender a).mem_notices (State.hearTime_notices f.sender (by rwa [htime]) ?_)
    cases hp : (s.peer f.sender).isSome with
    | true =>
      rw [hp] at hfree hnotices
      exact Nat.lt_of_le_of_lt hnotices hfree
    | false =>
      rw [hp] at hfree hnotices
      exact Nat.lt_of_le_of_lt hnotices (Nat.succ_lt_succ hfree)
  · rw [State.handOn_time, State.hearTime_kept (by rwa [htime]), htime]

end Sys2Proof.Machine
end

section
/-! SUPPORT. Proofs: a book's values clamped into the ranges of R77, and what adopting a book leaves (R77, R84 to R87). -/

namespace Sys2Proof.Machine

/-! ### Clamped values (R77, R87) -/

/-- A span within its day (R77). -/
def Span.InDay (w : Span) : Prop := w.start ≤ 1439 ∧ w.stop ≤ 1440 ∧ w.mask &&& 0x80 = 0

theorem Span.clamped_inDay (w : Span) : w.clamped.InDay := by
  refine ⟨min_le_right _ _, min_le_right _ _, ?_⟩
  show w.mask &&& 0x7F &&& 0x80 = 0
  rw [BitVec.and_assoc, show (0x7F &&& 0x80 : Byte) = 0#8 from rfl, BitVec.and_zero]
  rfl

/-- A mask without the bit of no weekday is left as it is. -/
theorem mask_clamped {m : Byte} (h : m &&& 0x80 = 0) : m &&& 0x7F = m := by
  calc m &&& 0x7F = (m &&& 0x7F) ||| (m &&& 0x80) := by rw [h]; exact BitVec.or_zero.symm
    _ = m := by rw [← BitVec.and_or_distrib_left]; exact BitVec.and_allOnes

theorem Span.clamped_of_inDay {w : Span} (h : w.InDay) : w.clamped = w := by
  obtain ⟨hstart, hstop, hmask⟩ := h
  rw [Span.clamped, min_eq_left hstart, min_eq_left hstop, mask_clamped hmask]

section
variable (b : Book)

theorem Book.clamped_ranged : b.clamped.Ranged := by
  refine ⟨Span.clamped_inDay _, fun p hp => ?_, fun x hx => ?_⟩
  · obtain ⟨q, -, rfl⟩ := List.mem_map.mp hp
    refine ⟨fun a ha => ?_, fun w hw => ?_⟩
    · obtain ⟨c, -, rfl⟩ := Option.map_eq_some_iff.mp ha
      exact min_le_right _ _
    · obtain ⟨v, -, rfl⟩ := List.mem_map.mp hw
      exact Span.clamped_inDay _
  · obtain ⟨y, -, rfl⟩ := List.mem_map.mp hx
    exact min_le_right _ _

variable {b}

theorem Book.clamped_of_ranged (h : b.Ranged) : b.clamped = b := by
  obtain ⟨hquiet, hprofiles, hbindings⟩ := h
  have hprofile : ∀ p ∈ b.profiles,
      (⟨p.allowance.map (min · 1440), p.windows.map fun w => { w with span := w.span.clamped }⟩ : Profile) = p := fun p hp => by
    obtain ⟨hallow, hwindows⟩ := hprofiles p hp
    have ha : p.allowance.map (min · 1440) = p.allowance := by
      cases h : p.allowance with
      | none => rfl
      | some a => exact congrArg some (min_eq_left (hallow a h))
    have hw : (p.windows.map fun w => { w with span := w.span.clamped }) = p.windows :=
      (List.map_congr_left fun w hw => by rw [Span.clamped_of_inDay (hwindows w hw)]).trans (List.map_id' _)
    rw [ha, hw]
  have hbinding : ∀ x ∈ b.bindings, ({ x with profile := min x.profile 15 } : Binding) = x := fun x hx => by
    rw [min_eq_left (hbindings x hx)]
  rw [Book.clamped, Span.clamped_of_inDay hquiet, (List.map_congr_left hprofile).trans (List.map_id' _),
    (List.map_congr_left hbinding).trans (List.map_id' _)]

theorem Book.clamped_allowance {k : Nat} {p : Profile} {a : Nat} (hp : b.profiles[k]? = some p) (ha : p.allowance = some a) :
    ∃ q, b.clamped.profiles[k]? = some q ∧ q.allowance = some (min a 1440) := by
  refine ⟨_, (List.getElem?_map ..).trans (congrArg (Option.map _) hp), ?_⟩
  show p.allowance.map (min · 1440) = _
  rw [ha]
  rfl

end

/-! ### The book's copy in the store (R86) -/

section
variable (s : State)

/-- Submitting the book's copy touches the store and the two marks, and an owed copy stays owed or is on its way. -/
theorem State.submitBook_eq : ∃ st owed flies, s.submitBook =
    { s with store := st, sched := { s.sched with writeOwed := owed, writeInFlight := flies } } ∧
      (s.sched.writeOwed = true → owed = true ∨ flies = true) := by
  unfold State.submitBook
  split
  · obtain ⟨op, hop⟩ : ∃ op : StoreOp,
        { owner := .schedule, kind := .recordWrite .book s.sched.book.version (writeBook s.sched.book) } = op := ⟨_, rfl⟩
    have haccept : ∀ u : State, u.markAccepted op = u := fun u => by rw [← hop]; rfl
    have hopen : op.isProtected s.act.sel = false := by rw [← hop]; rfl
    rw [hop]
    rcases State.submit_cases op s with ⟨h, hr⟩ | ⟨-, -, h⟩ | ⟨hr, -, -, -, ⟨-, -, h⟩ | ⟨-, h⟩⟩
    · have hne : (s.submit op).2 ≠ .accepted := by rcases hr with hr | hr | ⟨hr, -⟩ <;> rw [hr] <;> exact nofun
      simp only [if_neg hne, h]
      exact ⟨_, _, _, rfl, .inl⟩
    · rw [hopen] at h
      cases h
    · simp only [hr, if_true, h, haccept]
      exact ⟨_, _, _, rfl, fun _ => .inr rfl⟩
    · simp only [hr, if_true, h, haccept]
      exact ⟨_, _, _, rfl, fun _ => .inr rfl⟩
  · exact ⟨_, _, _, rfl, .inl⟩

/-! ### A book adopted (R85, R99) -/

/-- The records bound by a book that is adopted, with their access worked out (R85, R99). -/
def State.rebound (b : Book) (s : State) : State :=
  (State.mapRecords (ClientRecord.rebind b) { s with sched := { s.sched with book := b, writeOwed := true } }).recomputeAll

theorem State.rebound_beside (b : Book) :
    (s.rebound b).beside = State.beside { s with sched := { s.sched with book := b, writeOwed := true } } :=
  (State.recomputeAll_beside _).trans (State.mapRecords_beside _ _)

/-- What stands when the notice of an adopted book is raised: the book's copy is submitted or owed. -/
structure Adopting (s v : State) (b : Book) : Prop where
  sched : ∃ owed flies, (owed = true ∨ flies = true) ∧
    v.sched = { s.sched with book := b, writeOwed := owed, writeInFlight := flies }
  replies : v.port.replies = s.port.replies
  notices : v.port.notices = s.port.notices
  act : v.act = s.act
  clients : v.clients = (s.rebound b).clients

theorem State.adopt_eq (b : Book) : ∃ v, Adopting s v b ∧
    s.adopt b = (v.raise (.bookAdopted b.origin b.version)).settleWith true := by
  have hbeside := s.rebound_beside b
  obtain ⟨-, -, -, hsched, -, -, -, -, -, -, -, hreplies, -⟩ := State.still_parts (State.still_of_beside hbeside)
  have hnotices := State.notices_of_beside hbeside
  have hact := State.act_of_beside hbeside
  obtain ⟨u, hu⟩ : ∃ u, s.rebound b = u := ⟨_, rfl⟩
  have hadopt : s.adopt b = ((s.rebound b).submitBook.raise (.bookAdopted b.origin b.version)).settleWith true := rfl
  obtain ⟨st, owed, flies, hsub, howed⟩ := u.submitBook_eq
  rw [hu] at hsched hreplies hnotices hact hadopt
  exact ⟨u.submitBook, ⟨⟨owed, flies, howed (by rw [hsched]), by rw [hsub, hsched]⟩, by rw [hsub, hreplies], by rw [hsub, hnotices],
    by rw [hsub, hact], by rw [hsub, hu]⟩, hadopt⟩

variable {s} {b : Book}

theorem State.adopt_sched : ∃ owed flies, (owed = true ∨ flies = true) ∧
    (s.adopt b).sched = { s.sched with book := b, writeOwed := owed, writeInFlight := flies } := by
  obtain ⟨v, hv, h⟩ := s.adopt_eq b
  obtain ⟨-, -, -, hsched, -⟩ := State.still_parts ((State.settleWith_still true _).trans (State.raise_still _ v))
  rw [h, hsched]
  exact hv.sched

theorem State.adopt_replies : (s.adopt b).port.replies = s.port.replies := by
  obtain ⟨v, hv, h⟩ := s.adopt_eq b
  obtain ⟨-, -, -, -, -, -, -, -, -, -, -, hreplies, -⟩ :=
    State.still_parts ((State.settleWith_still true _).trans (State.raise_still _ v))
  rw [h, hreplies, hv.replies]

theorem State.adopt_notice (h : s.port.notices.length < 16) : .bookAdopted b.origin b.version ∈ (s.adopt b).port.notices := by
  obtain ⟨v, hv, heq⟩ := s.adopt_eq b
  rw [heq]
  exact (State.settleWith_grows true _).mem_notices (State.raise_mem _ v (by rwa [hv.notices]))

/-- What a record's access reads of the schedule is the working book (R90, R91). -/
theorem State.accessOf_of_book {t : State} (hb : t.sched.book = s.sched.book) (hc : t.cfg = s.cfg) (ht : t.time = s.time)
    (r : ClientRecord) : t.accessOf r = s.accessOf r := by
  simp only [State.accessOf, hb, hc, ht]

theorem ClientRecord.rebind_held {r : ClientRecord} (h : r.state ≠ .departed) :
    r.rebind b = { r with profile := b.profileOf r.client } := if_pos (ClientRecord.held_iff.mpr h)

theorem ClientRecord.rebind_departed {r : ClientRecord} (h : r.state = .departed) : r.rebind b = r :=
  if_neg (mt ClientRecord.held_iff.mp (not_not.mpr h))

/-- In a calm part the records held are bound and their access worked out under the book; the DEPARTED ones stand (R99). -/
theorem State.adopt_record (hcalm : s.Calm) {i : Fin 64} {r : ClientRecord} (hr : s.record i = some r) :
    (s.adopt b).record i = some (if r.state = .departed then r else
      { r with profile := b.profileOf r.client, access := (s.adopt b).accessOf { r with profile := b.profileOf r.client } }) := by
  have hfixed := State.adopt_fixed b s
  obtain ⟨v, hv, heq⟩ := s.adopt_eq b
  have hrecord : (s.adopt b).record i = (s.rebound b).record i := by
    rw [heq, State.record, State.settleWith_clients true, State.raise_clients, hv.clients]
    · rfl
    · rwa [State.Calm, State.raise_act, hv.act]
  obtain ⟨u, hu⟩ : ∃ u : State, { s with sched := { s.sched with book := b, writeOwed := true } } = u := ⟨_, rfl⟩
  have hbook : u.sched.book = b := by rw [← hu]
  have hcfg : u.cfg = s.cfg := by rw [← hu]
  have htime : u.time = s.time := by rw [← hu]
  have haccess : ∀ q, (s.adopt b).accessOf q = (u.mapRecords (ClientRecord.rebind b)).accessOf q := by
    obtain ⟨t, ht⟩ : ∃ t, s.adopt b = t := ⟨_, rfl⟩
    rw [ht] at hfixed ⊢
    exact State.accessOf_of_book ((congrArg Fixed.book hfixed).trans hbook.symm) ((congrArg Fixed.cfg hfixed).trans hcfg.symm)
      ((congrArg Fixed.time hfixed).trans htime.symm)
  have hrebound : s.rebound b = (u.mapRecords (ClientRecord.rebind b)).recomputeAll := by rw [← hu]; rfl
  have hru : u.record i = some r := by rw [← hu]; exact hr
  rw [hrecord, hrebound, State.record_recomputeAll, State.record_mapRecords, hru, Option.map_some, Option.map_some]
  by_cases hst : r.state = .departed
  · rw [if_pos hst, ClientRecord.rebind_departed hst, if_neg (mt ClientRecord.held_iff.mp (not_not.mpr hst))]
  · rw [if_neg hst, ClientRecord.rebind_held hst, haccess]
    exact congrArg some (if_pos (ClientRecord.held_iff.mpr hst))

end

end Sys2Proof.Machine
end

section
/-! SUPPORT. Proofs: LOAD-BOOK (R85 to R87, R99; O38). -/

namespace Sys2Proof.Machine

theorem foldl_max_le_iff (l : List Nat) (a k : Nat) : l.foldl max a ≤ k ↔ a ≤ k ∧ ∀ x ∈ l, x ≤ k := by
  induction l generalizing a with
  | nil => simp
  | cons y ys ih => rw [List.foldl_cons, ih, max_le_iff, List.forall_mem_cons, and_assoc]

section
variable {s : State} {top : Nat}

theorem State.highestBook_le_iff {k : Nat} : s.highestBook ≤ k ↔
    s.sched.book.version ≤ k ∧ ∀ p ∈ s.peers.table, p.fresh = true → p.advert.bookVersion ≤ k := by
  rw [State.highestBook, foldl_max_le_iff]
  simp only [State.freshPeers, List.mem_map, List.mem_filter, forall_exists_index, and_imp]
  exact and_congr_right fun _ => ⟨fun h p hp hf => h _ p hp hf rfl, fun h _ p hp hf hx => hx ▸ h p hp hf⟩

/-- The highest version in view is the one in view that none exceeds (R87). -/
theorem State.highestBook_eq
    (hin : top = s.sched.book.version ∨ ∃ p ∈ s.peers.table, p.fresh = true ∧ top = p.advert.bookVersion)
    (hbook : s.sched.book.version ≤ top) (hpeers : ∀ p ∈ s.peers.table, p.fresh = true → p.advert.bookVersion ≤ top) :
    s.highestBook = top := by
  refine le_antisymm (State.highestBook_le_iff.mpr ⟨hbook, hpeers⟩) ?_
  obtain ⟨hown, hfresh⟩ := State.highestBook_le_iff.mp (le_refl s.highestBook)
  rcases hin with rfl | ⟨p, hp, hf, rfl⟩
  · exact hown
  · exact hfresh p hp hf

end

/-- Settles O38: by whether the body is a book and a version is left for it; then by what adopting the book leaves. -/
theorem loadBookAdoptsTheBook : Obligations.LoadBookAdoptsTheBook := by
  unfold Obligations.LoadBookAdoptsTheBook
  refine ⟨fun b => ⟨b.clamped_ranged, Book.clamped_of_ranged, rfl, rfl, fun k p a => Book.clamped_allowance⟩, ?_⟩
  intro n m s top htakes hm hc hok hin hbook hpeers
  have hexec : exec (.loadBook n m) s = .next ((s.clockTo n).takeLoadBook m.tag m.body) :=
    congrArg Host.Outcome.next (State.hostMessage_requested (k := .loadBook) n htakes hc hok)
  have htop : (s.clockTo n).highestBook = top := State.highestBook_eq (s := s.clockTo n) hin hbook hpeers
  have htake : ∀ {t status}, (s.clockTo n).loadBook m.body = (t, status) →
      exec (.loadBook n m) s = .next (t.reply m.tag status) := fun h => by
    rw [hexec, State.takeLoadBook, h]
    rfl
  refine ⟨fun hnone => htake ?_, fun b hb hlimit => htake ?_, fun b hb hroom hcalm => ?_⟩
  · rw [State.loadBook, hnone]
  · rw [State.loadBook, hb]
    exact if_pos (by rw [htop]; exact Nat.succ_le_succ hlimit)
  · intro book
    have hload : (s.clockTo n).loadBook m.body = ((s.clockTo n).adopt book, .ok) := by
      rw [State.loadBook, hb]
      refine (if_neg ?_).trans ?_
      · rw [htop, not_le]
        exact Nat.succ_lt_succ hroom
      · rw [htop]
        rfl
    obtain ⟨owed, flies, hcopy, hsched⟩ := State.adopt_sched (s := s.clockTo n) (b := book)
    have hreplies := State.adopt_replies (s := s.clockTo n) (b := book)
    have hnotice := State.adopt_notice (s := s.clockTo n) (b := book)
    have hrecord := fun i r => State.adopt_record (s := s.clockTo n) (b := book) hcalm (i := i) (r := r)
    obtain ⟨t, ht⟩ : ∃ t, (s.clockTo n).adopt book = t := ⟨_, rfl⟩
    rw [ht] at hload hsched hreplies hnotice
    simp only [ht] at hrecord
    refine ⟨_, htake hload, ?_, ?_, ?_, ?_, hnotice, fun i r hr hst => ?_, fun i r hr hst => ?_⟩
    · exact congrArg ScheduleUnit.book hsched
    · exact (congrArg ScheduleUnit.staging hsched :)
    · exact hcopy.imp (congrArg ScheduleUnit.writeOwed hsched).trans (congrArg ScheduleUnit.writeInFlight hsched).trans
    · rw [State.replies_reply, hreplies]
      rfl
    · exact (hrecord i r hr).trans (by rw [if_neg hst]; rfl)
    · exact (hrecord i r hr).trans (by rw [if_pos hst])

end Sys2Proof.Machine
end

section
/-! SUPPORT. Proofs: BOOK-REQUEST and BOOK-SEGMENT (R78, R81, R82, R84; O37). -/

namespace Sys2Proof.Machine

/-! ### A segment taken (R82) -/

/-- A segment whose figures are in place (R82). -/
def SegmentSound (len k : Nat) (part : List Byte) : Prop := 63 ≤ len ∧ len ≤ 1300 ∧ k ≤ 1 ∧ part.length = partLength len k

/-- A book's version and origin are higher than another's (R77). -/
def Higher (v o v' o' : Nat) : Prop := v' < v ∨ (v = v' ∧ o' < o)

theorem bookHigher_iff_higher {v o v' o' : Nat} : bookHigher v o v' o' = true ↔ Higher v o v' o' := by
  rw [bookHigher_iff, Higher, eq_comm]

section
variable {u : State} {g : Staging} {v o len k : Nat} {part : List Byte}

theorem State.takeSegment_discarded
    (h : ¬SegmentSound len k part ∨ ¬Higher v o u.sched.book.version u.sched.book.origin) : u.takeSegment v o len k part = u := by
  unfold State.takeSegment
  by_cases hs : SegmentSound len k part
  · obtain ⟨h1, h2, h3, h4⟩ := hs
    have hlow : bookHigher v o u.sched.book.version u.sched.book.origin = false :=
      Bool.eq_false_iff.mpr (mt bookHigher_iff_higher.mp (h.resolve_left (not_not.mpr ⟨h1, h2, h3, h4⟩)))
    rw [if_neg (by omega), hlow]
    rfl
  · refine if_pos ?_
    by_contra hn
    exact hs ⟨by omega, by omega, by omega, by omega⟩

variable (hs : SegmentSound len k part) (hh : Higher v o u.sched.book.version u.sched.book.origin)
include hs hh

/-- What a sound segment of a higher book meets (R82). -/
theorem State.takeSegment_sound {x : State}
    (hnone : u.sched.staging = none → u.stage ((Staging.start v o len u.now).fill k part u.now) = x)
    (hsome : ∀ g, u.sched.staging = some g →
      (if v = g.version ∧ o = g.origin then
        if len = g.len ∧ g.filled k = false then u.stage (g.fill k part u.now) else u
      else if bookHigher v o g.version g.origin then u.stage ((Staging.start v o len u.now).fill k part u.now) else u) = x) :
    u.takeSegment v o len k part = x := by
  obtain ⟨h1, h2, h3, h4⟩ := hs
  unfold State.takeSegment
  rw [if_neg (by omega), if_neg (by rw [bookHigher_iff_higher.mpr hh]; exact Bool.false_ne_true)]
  cases hg : u.sched.staging with
  | none => exact hnone hg
  | some g => exact hsome g hg

theorem State.takeSegment_starts (hg : ∀ g, u.sched.staging = some g → Higher v o g.version g.origin) :
    u.takeSegment v o len k part = u.stage ((Staging.start v o len u.now).fill k part u.now) := by
  refine State.takeSegment_sound hs hh (fun _ => rfl) fun g hst => ?_
  have hup := hg g hst
  rw [if_neg, if_pos (bookHigher_iff_higher.mpr hup)]
  rintro ⟨rfl, rfl⟩
  rcases hup with hup | ⟨-, hup⟩ <;> exact Nat.lt_irrefl _ hup

theorem State.takeSegment_behind (hg : u.sched.staging = some g) (hlow : ¬Higher v o g.version g.origin)
    (hother : ¬(v = g.version ∧ o = g.origin ∧ len = g.len)) : u.takeSegment v o len k part = u := by
  refine State.takeSegment_sound hs hh (fun hn => by rw [hg] at hn; cases hn) fun g' hg' => ?_
  obtain rfl : g = g' := Option.some.inj (hg.symm.trans hg')
  by_cases hsame : v = g.version ∧ o = g.origin
  · rw [if_pos hsame, if_neg fun h => hother ⟨hsame.1, hsame.2, h.1⟩]
  · rw [if_neg hsame, if_neg (mt bookHigher_iff_higher.mp hlow)]

theorem State.takeSegment_joins (hg : u.sched.staging = some g) (hv : v = g.version) (ho : o = g.origin) (hl : len = g.len) :
    u.takeSegment v o len k part = if g.filled k = false then u.stage (g.fill k part u.now) else u := by
  refine State.takeSegment_sound hs hh (fun hn => by rw [hg] at hn; cases hn) fun g' hg' => ?_
  obtain rfl : g = g' := Option.some.inj (hg.symm.trans hg')
  rw [if_pos ⟨hv, ho⟩]
  simp only [hl, true_and]

end

/-! ### The staging buffer (R82, R84) -/

section
variable (u : State) {g : Staging}

/-- The first segment of a book leaves the other place open. -/
theorem State.stage_first (v o len k now : Nat) (part : List Byte) : u.stage ((Staging.start v o len now).fill k part now) =
    { u with sched := { u.sched with staging := some ⟨v, o, len, if k = 0 then some part else none,
      if k = 0 then none else some part, now + 2000⟩ } } := by
  unfold Staging.fill
  by_cases hk : k = 0
  · rw [if_pos hk, if_pos hk, if_pos hk]
    rfl
  · rw [if_neg hk, if_neg hk, if_neg hk]
    rfl

theorem State.stage_both {p q : List Byte} (hp : g.part0 = some p) (hq : g.part1 = some q) :
    u.stage g = u.stagingComplete g (p ++ q) := by
  rw [State.stage, hp, hq]

/-- The segment of the place that is open completes the book. -/
theorem State.stage_completes {k now : Nat} {part bs : List Byte}
    (h : (k = 0 ∧ g.part0 = none ∧ ∃ q, g.part1 = some q ∧ bs = part ++ q) ∨
      (k = 1 ∧ g.part1 = none ∧ ∃ q, g.part0 = some q ∧ bs = q ++ part)) :
    g.filled k = false ∧ u.stage (g.fill k part now) = u.stagingComplete (g.fill k part now) bs := by
  rcases h with ⟨rfl, hopen, q, hq, rfl⟩ | ⟨rfl, hopen, q, hq, rfl⟩
  · exact ⟨by simp [Staging.filled, hopen], u.stage_both rfl hq⟩
  · exact ⟨by simp [Staging.filled, hopen], u.stage_both hq rfl⟩

theorem Staging.fill_same (g : Staging) (k now : Nat) (part : List Byte) :
    (g.fill k part now).version = g.version ∧ (g.fill k part now).origin = g.origin := by
  unfold Staging.fill
  split <;> exact ⟨rfl, rfl⟩

theorem State.stagingComplete_drops {bs : List Byte}
    (h : ∀ b, readBook bs = some b → b.version ≠ g.version ∨ b.origin ≠ g.origin) :
    u.stagingComplete g bs = { u with sched := { u.sched with staging := none } } := by
  unfold State.stagingComplete
  cases hb : readBook bs with
  | none => rfl
  | some b => exact if_neg fun hh => (h b hb).elim (absurd hh.1) (absurd hh.2.1)

theorem State.stagingComplete_adopts {bs : List Byte} {b : Book} (hb : readBook bs = some b) (hv : b.version = g.version)
    (ho : b.origin = g.origin) (hh : Higher b.version b.origin u.sched.book.version u.sched.book.origin) :
    u.stagingComplete g bs =
      State.adopt { b.clamped with origin := min b.origin 63 } { u with sched := { u.sched with staging := none } } := by
  unfold State.stagingComplete
  rw [hb]
  exact if_pos ⟨hv, ho, bookHigher_iff_higher.mpr hh⟩

end

/-! ### The frames -/

section
variable {s : State} {f : Frame} {rest : List Frame} (n : Nat) (h : s.Head f rest)
include h

theorem State.exec_bookRequest (hb : f.body = .bookRequest) :
    exec (.bookRequest n) s = .next ((s.taking n rest).takeBookRequest f.sender).settle :=
  congrArg Host.Outcome.next (State.onFrame_head State.onBookRequest n h (by rw [hb]; rfl))

theorem State.exec_bookSegment {v o len k : Nat} {part : List Byte} (hb : f.body = .bookSegment v o len k part) :
    exec (.bookSegment n) s = .next ((s.taking n rest).takeSegment v o len k part).settle := by
  refine congrArg Host.Outcome.next ((State.onFrame_head State.onBookSegment n h (by rw [hb]; rfl)).trans ?_)
  rw [State.onBookSegment, hb]

end

/-- Settles O37: by what the segment's figures, the working book and the staging buffer are. -/
theorem bookFramesAreTaken : Obligations.BookFramesAreTaken := by
  unfold Obligations.BookFramesAreTaken
  intro n s f rest hhead hm u book
  refine ⟨fun hb => ?_, fun v o len k part hb => ?_⟩
  · rw [State.exec_bookRequest n hhead hb]
    refine congrArg Host.Outcome.next ((State.settle_of_ev hm ?_).trans ?_)
    · rw [State.takeBookRequest, State.send_ev, State.send_ev]
      rfl
    · rw [State.takeBookRequest, bookParts, List.splitAt_eq]
      rfl
  · intro size sound higher start
    rw [State.exec_bookSegment n hhead hb]
    have stands : ∀ {x y : State}, x = y → y.ev = s.ev →
        (Host.Outcome.next x.settle : Host.Outcome State Fault Refusal) = .next y :=
      fun hxy hy => by rw [hxy, State.settle_of_ev hm hy]
    refine ⟨fun hbad => stands (State.takeSegment_discarded hbad) rfl, fun hs hh hg => ?_, fun g hg hs hh hlow hother => ?_,
      fun g hg hv ho hl hs hh => ?_⟩
    · exact stands ((State.takeSegment_starts (u := u) hs hh hg).trans (u.stage_first v o len k u.now part)) rfl
    · exact stands (State.takeSegment_behind (u := u) hs hh hg hlow hother) rfl
    · have hjoin := State.takeSegment_joins (u := u) hs hh hg hv ho hl
      refine ⟨fun hk hfull => stands (hjoin.trans (if_neg ?_)) rfl, fun hk hfull => stands (hjoin.trans (if_neg ?_)) rfl,
        fun bs hbs => ?_⟩
      · rw [hk, Staging.filled, if_pos rfl, hfull]
        exact Bool.noConfusion
      · rw [hk, Staging.filled, if_neg Nat.one_ne_zero, hfull]
        exact Bool.noConfusion
      · obtain ⟨hopen, hcomplete⟩ := u.stage_completes (now := u.now) hbs
        have hdone := hjoin.trans ((if_pos hopen).trans hcomplete)
        obtain ⟨hfv, hfo⟩ := g.fill_same k u.now part
        rw [← hv] at hfv
        rw [← ho] at hfo
        refine ⟨fun hdrop => stands (hdone.trans (u.stagingComplete_drops ?_)) rfl, fun b hread hbv hbo => ?_⟩
        · rwa [hfv, hfo]
        · have hadopt := hdone.trans (u.stagingComplete_adopts hread (hbv.trans hfv.symm) (hbo.trans hfo.symm)
            (by rw [hbv, hbo]; exact hh))
          obtain ⟨w, hw⟩ : ∃ w : State, { u with sched := { u.sched with staging := none } } = w := ⟨_, rfl⟩
          obtain ⟨taken, htaken⟩ : ∃ taken : Book, { b.clamped with origin := min b.origin 63 } = taken := ⟨_, rfl⟩
          rw [hw, htaken] at hadopt
          obtain ⟨owed, flies, -, hsched⟩ := State.adopt_sched (s := w) (b := taken)
          obtain ⟨-, -, -, hsettled, -⟩ := State.still_parts (State.settle_still (w.adopt taken))
          have hbook : (w.adopt taken).settle.sched.book = { b.clamped with origin := min o 63 } := by
            rw [hsettled, hsched, ← htaken, hbo]
          refine ⟨_, by rw [hadopt], ?_, hbook, by rw [hbook]; exact b.clamped_ranged, fun hroom => ?_⟩
          · rw [hsettled, hsched, ← hw]
          · refine (State.settle_grows _).mem_notices ?_
            have hnotice := State.adopt_notice (s := w) (b := taken) (by rw [← hw]; exact hroom)
            have hversion : taken.version = v := by rw [← htaken]; exact hbv
            have horigin : taken.origin = min o 63 := by rw [← htaken, hbo]
            rwa [hversion, horigin] at hnotice

end Sys2Proof.Machine
end

section
/-! SUPPORT. Proofs: a completion with nothing waiting behind it (R131), READ-RECORD and WRITE-CONFIG (R140, R173, R174; O49). -/

namespace Sys2Proof.Machine

/-! ### A completion with nothing behind it (R131) -/

section
variable {s : State} {op : StoreOp} {p : OpKind → Bool} (n : Nat) (d : Device)

/-- The operation in flight is delivered alone, and the event ends. -/
theorem State.completion_alone (h : s.Flies op) (hp : p op.kind = true) :
    s.completion p n d = (((s.clockTo n).freed op d).deliver op (s.perform op d).2).settle := by
  rw [show (s.perform op d).2 = ((s.clockTo n).perform op d).2 from rfl, ← State.answered_alone (s := s.clockTo n) d h.2]
  exact State.completion_behind n d h.1 hp s.store.waiting

/-- Only a selector write moves more than the flash before it is delivered (R134). -/
theorem State.freed_plain (h : op.isSelectorWrite = false) : s.freed op d =
    { s with store := { s.store with flash := (s.perform op d).1, inflight := none } } := by
  unfold State.freed State.takeSelector
  split
  · rename_i hk _
    rw [StoreOp.isSelectorWrite, hk] at h
    cases h
  · rfl

end

/-! ### A request that every part answers (R172) -/

/-- READ-RECORD and WRITE-CONFIG are taken by an unconfigured part too. -/
theorem State.hostMessage_served {s : State} {k : HostKind} {m : HostMsg} (n : Nat) (h : s.Takes) (hk : k.needsNode = false)
    (hm : hostMsgOk k m = true) : s.hostMessage k n m = (s.clockTo n).handle k m.tag m.body := by
  obtain ⟨hr, hheld, hlink⟩ := h
  have hopen : (s.clockTo n).portOpen = true := by
    have hr' : (s.clockTo n).running = true := hr
    have hh' : (s.clockTo n).heldRequests < Config.heldRequests := hheld
    simp [State.portOpen, hr', hh']
  simp [State.hostMessage, hopen, hlink, State.takeMessage, hm, hk]

/-! ### An operation of a request submitted (R131, R140) -/

/-- Submit an operation of a request; a refused one is answered BUSY (R140, R174). -/
def State.ask (s : State) (tag : Tag) (op : StoreOp) : State :=
  if (s.submit op).2 = .accepted then (s.submit op).1 else (s.submit op).1.reply tag .busy

/-- An operation that passes every check of its own and that the Slot Table takes no note of. -/
structure StoreOp.Admissible (op : StoreOp) (s : State) : Prop where
  range : s.outOfRange op = false
  isOpen : op.isProtected s.act.sel = false
  slotState : s.slotStateOk op = true
  unmarked : ∀ u : State, u.markAccepted op = u
  undirected : op.isSelectorWrite = false

section
variable {s : State} {op : StoreOp} (tag : Tag) (ha : op.Admissible s)
include ha

theorem State.ask_idle (h : s.StoreIdle) : s.ask tag op = s.flying op := by
  rw [State.ask, State.submit_idle h ha.range ha.isOpen ha.slotState, if_pos rfl, ha.unmarked, StoreUnit.direct_other ha.undirected]

/-- Behind other operations it waits, or finds the queue full (R131). -/
theorem State.submit_busy (h : ¬s.StoreIdle) : s.submit op = if s.store.waiting.length < 8 then
    ({ s with store := { s.store with waiting := s.store.waiting ++ [op] } }, .accepted) else (s, .queueFull) := by
  have hbusy : ¬(s.store.inflight.isNone = true ∧ s.store.waiting = []) := fun hh => h ⟨Option.isNone_iff_eq_none.mp hh.1, hh.2⟩
  unfold State.submit
  rw [if_neg (by simp [ha.range]), if_neg (by simp [ha.isOpen]), if_neg (by simp [ha.slotState]), if_neg hbusy, ha.unmarked]
  rfl

theorem State.ask_waits (h : ¬s.StoreIdle) (hroom : s.store.waiting.length < 8) :
    s.ask tag op = { s with store := { s.store with waiting := s.store.waiting ++ [op] } } := by
  rw [State.ask, State.submit_busy ha h, if_pos hroom, if_pos rfl]

theorem State.ask_full (hfull : 8 ≤ s.store.waiting.length) : s.ask tag op = s.reply tag .busy := by
  have h : ¬s.StoreIdle := fun h => by
    rw [h.2] at hfull
    exact absurd hfull (by decide)
  rw [State.ask, State.submit_busy ha h, if_neg (not_lt.mpr hfull), if_neg nofun]

end

/-- A read of a record for a request is admissible (R132 to R134). -/
theorem admissible_recordRead (s : State) (o : Owner) (a : Area) : StoreOp.Admissible { owner := o, kind := .recordRead a } s where
  range := rfl
  isOpen := rfl
  slotState := by unfold State.slotStateOk; split <;> rfl
  unmarked u := by unfold State.markAccepted; split <;> rfl
  undirected := rfl

/-- So is a write of the staged configuration (R134). -/
theorem admissible_writeConfig (s : State) (tag : Tag) (v : Nat) (body : List Byte) :
    StoreOp.Admissible { owner := .writeConfig tag, kind := .recordWrite .configStaged v body } s where
  range := rfl
  isOpen := rfl
  slotState := rfl
  unmarked _ := rfl
  undirected := rfl

/-! ### READ-RECORD (R173) -/

section
variable (s : State)

theorem State.clientView_of (i : Fin 64) : (s.record i = none → s.clientView i = .emptyRecord) ∧
    ∀ r, s.record i = some r → s.clientView i = .client r := by
  have hget : s.clients.table.toList.getD i none = s.record i := by
    rw [List.getD_eq_getElem _ _ (by simp), Vector.getElem_toList]
    rfl
  unfold State.clientView
  rw [hget]
  exact ⟨fun h => by rw [h], fun r h => by rw [h]⟩

theorem State.flowView_of (j : Fin 128) : ((∀ f, s.flow j ≠ .used f) → s.flowView j = .emptyRecord) ∧
    ∀ f, s.flow j = .used f → s.flowView j = .flow f := by
  have hget : s.prio.flows.toList.getD j .free = s.flow j := by
    rw [List.getD_eq_getElem _ _ (by simp), Vector.getElem_toList]
    rfl
  unfold State.flowView
  rw [hget]
  refine ⟨fun h => ?_, fun f h => by rw [h]⟩
  cases hj : s.flow j with
  | used f => exact absurd hj (h f)
  | free => rfl
  | release _ _ => rfl

/-- A kind or index out of its range selects nothing. -/
theorem State.viewOf_range {kind index : Nat}
    (h : 7 < kind ∨ (kind = 0 ∧ 63 < index) ∨ (kind = 1 ∧ 127 < index) ∨ (kind = 2 ∧ 14 < index) ∨ (kind = 3 ∧ 1 < index) ∨
      (kind = 4 ∧ 0 < index) ∨ (kind = 5 ∧ 1 < index) ∨ (kind = 6 ∧ 0 < index) ∨ (kind = 7 ∧ 0 < index)) :
    s.viewOf kind index = none ∧ ¬(kind = 5 ∧ index = 1) := by
  refine ⟨?_, by omega⟩
  rcases h with h | ⟨rfl, h⟩ | ⟨rfl, h⟩ | ⟨rfl, h⟩ | ⟨rfl, h⟩ | ⟨rfl, h⟩ | ⟨rfl, h⟩ | ⟨rfl, h⟩ | ⟨rfl, h⟩
  · obtain ⟨k, rfl⟩ := Nat.exists_eq_add_of_lt h
    rw [show 7 + k + 1 = k + 8 by omega]
    rfl
  · exact if_neg (by omega)
  · exact if_neg (by omega)
  · exact if_neg (by omega)
  · exact (if_neg (by omega)).trans (if_neg (by omega))
  · exact if_neg (by omega)
  · exact if_neg (by omega)
  · exact if_neg (by omega)
  · exact if_neg (by omega)

variable {s} {tag : Tag} {b : List Byte}

theorem State.takeReadRecord_staged (hk : field b 0 1 = 5) (hi : field b 1 1 = 1) : s.takeReadRecord tag b =
    s.ask tag { owner := .readConfig tag, kind := .recordRead .configStaged } := if_pos ⟨hk, hi⟩

theorem State.takeReadRecord_view {v : RecordView} (hne : ¬(field b 0 1 = 5 ∧ field b 1 1 = 1))
    (hv : s.viewOf (field b 0 1) (field b 1 1) = some v) : s.takeReadRecord tag b = s.replyWith tag v := by
  unfold State.takeReadRecord
  simp only [if_neg hne, hv]

theorem State.takeReadRecord_range (hne : ¬(field b 0 1 = 5 ∧ field b 1 1 = 1))
    (hv : s.viewOf (field b 0 1) (field b 1 1) = none) : s.takeReadRecord tag b = s.reply tag .range := by
  unfold State.takeReadRecord
  simp only [if_neg hne, hv]

end

/-- A read of the staged configuration for a request completes: its body is returned as stored (R130, R173). -/
theorem State.readConfig_completes {s : State} {tag : Tag} (n : Nat) (d : Device) (hm : s.MarksClear)
    (h : s.Flies { owner := .readConfig tag, kind := .recordRead .configStaged }) :
    exec (.recordReadCompletion n d) s = .next
      (State.replyWith tag (match s.readBody d .configStaged with | some b => .storedConfig b | none => .emptyRecord)
        { s.clockTo n with store := { s.store with inflight := none } }) := by
  obtain ⟨hflash, hbody⟩ := s.perform_recordRead (.readConfig tag) .configStaged d
  refine congrArg Host.Outcome.next ((State.completion_alone (p := OpKind.isRecordRead) n d h rfl).trans ?_)
  have hfree : (s.clockTo n).freed { owner := .readConfig tag, kind := .recordRead .configStaged } d =
      { s.clockTo n with store := { s.store with inflight := none } } := by
    rw [State.freed_plain d rfl]
    exact congrArg (fun fl => ({ s.clockTo n with store := { s.store with flash := fl, inflight := none } } : State)) hflash
  rw [hfree, ← hbody]
  exact State.settle_of_ev hm rfl

/-! ### WRITE-CONFIG (R140, R174) -/

theorem booleanByteOk_iff {x : Nat} : booleanByteOk x = true ↔ x = 0 ∨ x = 1 ∨ x = 255 := by
  simp [booleanByteOk, or_assoc]

section
variable {s : State} {tag : Tag} {b : List Byte}

/-- The boolean bytes of a configuration are 0, 1 or all ones (R174). -/
def FlagsSound (b : List Byte) : Prop :=
  (field b 1 1 = 0 ∨ field b 1 1 = 1 ∨ field b 1 1 = 255) ∧ (field b 10 1 = 0 ∨ field b 10 1 = 1 ∨ field b 10 1 = 255) ∧
    (field b 11 1 = 0 ∨ field b 11 1 = 1 ∨ field b 11 1 = 255)

theorem flagsSound_iff : (booleanByteOk (field b 1 1) && booleanByteOk (field b 10 1) && booleanByteOk (field b 11 1)) = true ↔
    FlagsSound b := by
  rw [Bool.and_eq_true, Bool.and_eq_true, booleanByteOk_iff, booleanByteOk_iff, booleanByteOk_iff, and_assoc]
  exact Iff.rfl

theorem State.takeWriteConfig_malformed (h : ¬FlagsSound b) : s.takeWriteConfig tag b = s.reply tag .malformed :=
  if_pos (by rw [Bool.eq_false_iff.mpr (mt flagsSound_iff.mp h)]; rfl)

theorem State.takeWriteConfig_sound (h : FlagsSound b) : s.takeWriteConfig tag b =
    if field b 0 1 = 0 ∨ 63 < field b 0 1 then s.reply tag .range
    else s.ask tag { owner := .writeConfig tag, kind := .recordWrite .configStaged 0 b } :=
  if_neg (by rw [flagsSound_iff.mpr h]; exact Bool.false_ne_true)

end

/-- Settles O49: by what the request selects, and by the room in the store for the staged configuration's operations. -/
theorem recordsAreReadAndConfigWritten : Obligations.RecordsAreReadAndConfigWritten := by
  unfold Obligations.RecordsAreReadAndConfigWritten
  refine ⟨fun n m s htakes hok => ?_, fun n d s tag hm h => ?_, fun n m s htakes hok => ?_⟩
  · intro kind index u answers
    have hexec : exec (.readRecord n m) s = .next (u.takeReadRecord m.tag m.body) :=
      congrArg Host.Outcome.next (State.hostMessage_served (k := .readRecord) n htakes rfl hok)
    have view : ∀ {v : RecordView}, ¬(kind = 5 ∧ index = 1) → u.viewOf kind index = some v → answers v := fun hne hv =>
      hexec.trans (congrArg _ (State.takeReadRecord_view hne hv))
    refine ⟨fun h => ?_, fun i hk hi => ⟨fun h => ?_, fun r h => ?_⟩, fun j hk hj => ⟨fun h => ?_, fun f h => ?_⟩,
      fun hk hi => ?_, fun k hk hi => ?_, fun hk hi => ?_, fun hk hi => ?_, fun hk hi => ?_, fun hk hi => ?_, fun hk hi => ?_⟩
    · obtain ⟨hnone, hne⟩ := u.viewOf_range h
      exact hexec.trans (congrArg _ (State.takeReadRecord_range hne hnone))
    · refine view (by omega) ?_
      rw [hk, hi, ← (u.clientView_of i).1 h]
      exact if_pos i.isLt
    · refine view (by omega) ?_
      rw [hk, hi, ← (u.clientView_of i).2 r h]
      exact if_pos i.isLt
    · refine view (by omega) ?_
      rw [hk, hj, ← (u.flowView_of j).1 h]
      exact if_pos j.isLt
    · refine view (by omega) ?_
      rw [hk, hj, ← (u.flowView_of j).2 f h]
      exact if_pos j.isLt
    · refine view (by omega) ?_
      rw [hk]
      exact if_pos hi
    · refine view (by omega) ?_
      rw [hk, hi]
      cases k <;> rfl
    · refine view (by omega) ?_
      rw [hk, hi]
      rfl
    · refine view (by omega) ?_
      rw [hk, hi]
      rfl
    · refine view (by omega) ?_
      rw [hk, hi]
      rfl
    · refine view (by omega) ?_
      rw [hk, hi]
      rfl
    · intro op
      have hstaged : u.takeReadRecord m.tag m.body = u.ask m.tag op := State.takeReadRecord_staged hk hi
      have ha : op.Admissible u := admissible_recordRead u _ _
      rw [hexec, hstaged]
      exact ⟨fun hidle => congrArg _ (State.ask_idle m.tag ha hidle),
        fun hbusy hroom => congrArg _ (State.ask_waits m.tag ha hbusy hroom),
        fun hfull => congrArg _ (State.ask_full m.tag ha hfull)⟩
  · intro u
    rw [State.readConfig_completes n d hm h]
    refine ⟨fun body hd hread => ?_, fun hnone => ?_⟩
    · rw [State.readBody, hd, if_neg Bool.false_ne_true, hread]
    · have hbody : s.readBody d .configStaged = none := by
        rcases hnone with hd | hread
        · exact if_pos hd
        · rw [State.readBody, hread, ite_self]
      rw [hbody]
  · intro flag sound usable op u
    have hexec : exec (.writeConfig n m) s = .next (u.takeWriteConfig m.tag m.body) :=
      congrArg Host.Outcome.next (State.hostMessage_served (k := .writeConfig) n htakes rfl hok)
    have ha : op.Admissible u := admissible_writeConfig u _ _ _
    rw [hexec]
    have asked : sound → usable → u.takeWriteConfig m.tag m.body = u.ask m.tag op := fun hs hu =>
      (State.takeWriteConfig_sound hs).trans (if_neg (by omega))
    refine ⟨fun hs => congrArg _ (State.takeWriteConfig_malformed hs),
      fun hs hu => congrArg _ ((State.takeWriteConfig_sound hs).trans (if_pos (by omega))),
      fun hs hu hidle => congrArg _ ((asked hs hu).trans (State.ask_idle m.tag ha hidle)),
      fun hs hu hbusy hroom => congrArg _ ((asked hs hu).trans (State.ask_waits m.tag ha hbusy hroom)),
      fun hs hu hfull => congrArg _ ((asked hs hu).trans (State.ask_full m.tag ha hfull))⟩

end Sys2Proof.Machine
end

section
/-! SUPPORT. Proofs: a record write that completes with operations behind it (R131, R133, R135, R137; O48). -/

namespace Sys2Proof.Machine

/-! ### What the answer to a record write leaves of the Slot Table (R142) -/

section
variable (s : State)

theorem State.submitSelector_dist (w : RetriedWrite) : (s.submitSelector w).1.dist = s.dist :=
  congrArg Still.dist (s.submitSelector_still w)

theorem State.startRetry_eq (w : RetriedWrite) : ∃ retry due,
    s.startRetry w = { s with act := { s.act with retry := retry, retryDue := due } } ∧
      (s.act.retry = none → retry = some w ∧ due = some (s.now + 1000)) := by
  unfold State.startRetry
  cases hr : s.act.retry with
  | none => exact ⟨_, _, rfl, fun _ => ⟨rfl, rfl⟩⟩
  | some v =>
    simp only
    split
    · exact ⟨_, _, rfl, nofun⟩
    · exact ⟨_, _, rfl, nofun⟩

theorem State.submitRetried_dist (w : RetriedWrite) : (s.submitRetried w).dist = s.dist := by
  unfold State.submitRetried
  simp only
  split
  · exact s.submitSelector_dist w
  · obtain ⟨_, _, h, -⟩ := (s.submitSelector w).1.startRetry_eq w
    rw [h]
    exact s.submitSelector_dist w

theorem State.endRetry_eq (n : Nat) : ∃ retry due,
    s.endRetry n = { s with act := { s.act with retry := retry, retryDue := due } } := by
  unfold State.endRetry
  split
  · split <;> exact ⟨_, _, rfl⟩
  · exact ⟨_, _, rfl⟩

/-- RESTARTING empties the serve queue and drops the ARRIVING records (R151, R161). -/
theorem State.enterRestarting_beside : s.enterRestarting.beside = State.beside
    { s with act := { s.act with state := .restarting }, dist := { s.dist with serve := [] } } :=
  walk_beside State.deleteSlot_beside _ _

theorem State.enterRestarting_slot (k : SlotId) : s.enterRestarting.slot k = s.slot k := by
  rw [State.slot_of_dist (State.dist_of_beside s.enterRestarting_beside)]
  cases k <;> rfl

theorem State.confirmExpired_slot (k : SlotId) : s.confirmExpired.slot k = s.slot k := by
  refine (State.slot_of_dist (State.submitRetried_dist _ _) k).trans ?_
  exact (State.enterRestarting_slot { s with act := { s.act with confirmHeld := false } } k).trans (by cases k <;> rfl)

theorem State.selectorWritten_slot (w : RetriedWrite) (k : SlotId) : (s.selectorWritten w).slot k = s.slot k := by
  obtain ⟨_, _, h⟩ := s.clearWriteMark.endRetry_eq w.order
  unfold State.selectorWritten
  rw [h]
  simp only
  split
  · exact (State.slot_of_dist rfl k).trans ((State.enterRestarting_slot _ k).trans (State.slot_of_dist rfl k))
  · exact State.slot_of_dist rfl k
  · exact State.slot_of_dist rfl k
  · split <;> exact State.slot_of_dist rfl k
  · exact State.slot_of_dist rfl k
  · exact State.slot_of_dist rfl k

theorem State.selectorFailed_slot (w : RetriedWrite) (k : SlotId) : (s.selectorFailed w).slot k = s.slot k := by
  have hretry : (s.clearWriteMark.startRetry w).slot k = s.slot k := by
    obtain ⟨_, _, h, -⟩ := s.clearWriteMark.startRetry_eq w
    rw [h]
    exact State.slot_of_dist rfl k
  unfold State.selectorFailed
  simp only
  split
  · exact State.slot_of_dist ((congrArg Still.dist (State.gateTest_still _)).trans rfl) k
  · split
    · exact (State.confirmExpired_slot _ k).trans (State.slot_of_dist rfl k)
    · exact State.slot_of_dist rfl k
  all_goals exact hretry

theorem State.startOp_dist (st : Stage) (kind : OpKind) : (s.startOp st kind).dist = s.dist := by
  have haccept : ∀ u : State, u.markAccepted { owner := .start, kind := kind } = u := fun _ => rfl
  unfold State.startOp
  rcases State.submit_cases { owner := .start, kind := kind } (s.stageAt st) with
    ⟨h, _⟩ | ⟨h, _, _⟩ | ⟨_, _, _, _, ⟨_, _, h⟩ | ⟨_, h⟩⟩
  · rw [h]; rfl
  · rw [h]
    exact (State.raiseRefused_parts _ _).2.1
  · rw [h, haccept]; rfl
  · rw [h, haccept]; rfl

/-- The sequence's step behind its selector write submits its next operation at most (R166, R170). -/
theorem State.seqSelectorDone_dist (n : Nat) (p : SelPurpose) (ok : Bool) : (s.seqSelectorDone n p ok).dist = s.dist := by
  have hnote : (s.noteRevert p ok).dist = s.dist := by
    unfold State.noteRevert
    split <;> rfl
  unfold State.seqSelectorDone
  simp only
  split
  · split
    · split
      · exact (State.startOp_dist _ _ _).trans hnote
      · exact (State.startOp_dist _ _ _).trans hnote
    · exact hnote
  · split
    · exact (State.startOp_dist _ _ _).trans hnote
    · exact hnote
  · exact hnote

theorem State.deliverSelector_slot (o : Owner) (n : Nat) (p : SelPurpose) (sel : Selector) (r : StoreResult) (k : SlotId) :
    (s.deliverSelector o n p sel r).slot k = s.slot k := by
  obtain ⟨w, hw⟩ : ∃ w : RetriedWrite, { order := n, owner := o, purpose := p, sel := sel } = w := ⟨_, rfl⟩
  have hone : (if r = .ok then s.selectorWritten w else s.selectorFailed w).slot k = s.slot k := by
    split
    · exact s.selectorWritten_slot w k
    · exact s.selectorFailed_slot w k
  unfold State.deliverSelector
  simp only [hw]
  split
  · exact (State.slot_of_dist (State.seqSelectorDone_dist _ _ _ _) k).trans hone
  · exact hone

theorem State.manifestWritten_slot (k : SlotId) (v : Nat) (failed : Bool) (j : SlotId) :
    (s.manifestWritten k v failed).slot j = s.slot j := by
  have hsubmit : ∀ u : State, u.submitManifest.slot j = u.slot j := fun u => by
    unfold State.submitManifest
    split
    · split
      · rename_i m _
        have hd := State.submit_dist
          (op := { owner := .fill, kind := .recordWrite (.manifest u.spareSlot) m.version (writeManifest m) }) u ⟨rfl, rfl, rfl⟩
        simp only
        split
        · refine Eq.trans ?_ (State.slot_of_dist hd j)
          cases j <;> rfl
        · exact State.slot_of_dist hd j
      · rfl
    · rfl
  unfold State.manifestWritten
  refine (hsubmit _).trans ?_
  split <;> cases j <;> rfl

/-- A record write of the sequence's that its stage waits for is the promotion (R166). -/
theorem State.seqDone_write_dist (a : Area) (v : Nat) (body : List Byte) (r : StoreResult) :
    (s.seqDone (.recordWrite a v body) r).dist = s.dist := by
  unfold State.seqDone
  cases hst : s.seq.stage with
  | promote x =>
    split
    · unfold State.seqNext
      simp only [hst]
      unfold State.seqPromoted
      split
      · exact State.startOp_dist _ _ _
      · exact State.startOp_dist _ _ _
    · rfl
  | _ => exact congrArg State.dist (if_neg (by simp [Stage.waitsFor]))

end

/-- The answer to a record write leaves the Slot Table. -/
theorem State.deliver_write_slot {op : StoreOp} (h : op.kind.isRecordWrite = true) (r : StoreResult) (s : State) (j : SlotId) :
    (s.deliver op r).slot j = s.slot j := by
  obtain ⟨owner, kind⟩ := op
  cases kind with
  | selectorWrite n p sel q => exact s.deliverSelector_slot owner n p sel r j
  | recordWrite a v body =>
    cases owner with
    | start => exact State.slot_of_dist (s.seqDone_write_dist a v body r) j
    | fill =>
      cases a with
      | manifest k => exact s.manifestWritten_slot k v _ j
      | _ => rfl
    | schedule =>
      have hsubmit : ∀ u : State, u.submitBook.dist = u.dist := fun u => by
        obtain ⟨_, _, _, hu, -⟩ := u.submitBook_eq
        rw [hu]
      refine State.slot_of_dist ?_ j
      show (s.bookWritten _).dist = s.dist
      unfold State.bookWritten
      split
      · exact hsubmit _
      · rfl
    | _ => rfl
  | _ => cases h

/-- A record write's completion moves the queue on (R131, R133, R135). -/
theorem State.write_queueMoves {s : State} {op : StoreOp} (n : Nat) (d : Device) (hi : s.store.inflight = some op)
    (h : op.kind.isRecordWrite = true) : s.QueueMoves (.recordWriteCompletion n d) := by
  refine State.queueMoves_of (p := OpKind.isRecordWrite) (fun u => rfl) hi h ?_ fun x u r _ _ hx => ?_
  · cases hk : op.kind <;> simp [hk, OpKind.isRecordWrite, OpKind.isRecordRead] at h ⊢
  · rwa [State.stale_of_slot (State.deliver_write_slot h r u)]

end Sys2Proof.Machine
end

section
/-! SUPPORT. Proofs: the controller's selector writes, done or failed, with nothing waiting (R134, R158, R160 to R166, R169). -/

namespace Sys2Proof.Machine

/-! ### The areas (R128, R129) -/

/-- What an area reads as rests on its own bytes. -/
theorem readArea_congr {m m' : List Host.Cell} {a : Area}
    (h : ∀ x, a.base ≤ x → x < a.base + Config.blockBytes → Memory.read m x = Memory.read m' x) :
    readArea [] m a = readArea [] m' a := by
  have hbytes : ∀ off n, off + n ≤ Config.blockBytes →
      Memory.readBytes m (a.base + off) n = Memory.readBytes m' (a.base + off) n := fun off n hn => by
    refine List.map_congr_left fun i hi => h _ (by omega) ?_
    have := List.mem_range.mp hi
    omega
  unfold readArea
  simp only [overlay_nil]
  rw [hbytes 0 3 (by decide)]
  split
  · rfl
  · rename_i hfit
    rw [not_or, not_lt] at hfit
    rw [hbytes 3 _ (by omega), hbytes _ 4 (by omega)]

/-- The two copies of the selector lie apart. -/
theorem selector_apart (c : CopyId) : (Area.selector c.other).base + Config.blockBytes ≤ (Area.selector c).base ∨
    (Area.selector c).base + Config.blockBytes ≤ (Area.selector c.other).base := by
  cases c <;> decide

/-- A selector write that fails leaves the other copy, and its own as it read before or invalid (R134). -/
theorem spoilOp_selector (cells flash : List Host.Cell) {op : StoreOp} {n : Nat} {p : SelPurpose} {sel : Selector} {c : CopyId}
    {q : Nat} (hop : op.kind = .selectorWrite n p sel (some (c, q))) :
    readArea [] (spoilOp cells flash op) (.selector c.other) = readArea [] flash (.selector c.other) ∧
      (readArea [] (spoilOp cells flash op) (.selector c) = readArea [] flash (.selector c) ∨
        readArea [] (spoilOp cells flash op) (.selector c) = none) := by
  have hwrites : op.writes = some ((Area.selector c).base, Config.blockBytes) := by rw [StoreOp.writes, hop]
  refine ⟨readArea_congr fun x hlo hhi => read_spoilOp_outside cells flash op x fun b m hbm => ?_, ?_⟩
  · rw [hwrites, Option.some.injEq, Prod.mk.injEq] at hbm
    have := selector_apart c
    omega
  · have hspoil : spoilOp cells flash op =
        leaveAsBefore flash (spoil cells flash (Area.selector c).base Config.blockBytes) (.selector c) := by
      unfold spoilOp
      rw [hwrites]
      simp only [hop]
    rw [hspoil]
    exact readArea_leaveAsBefore _ _ _

/-! ### The completion -/

/-- A selector write of the controller's. -/
def controllerWrite (order : Nat) (purpose : SelPurpose) (sel : Selector) : RetriedWrite :=
  { order := order, owner := .activation, purpose := purpose, sel := sel }

/-- The part with the selector written to a copy and held (R134, R158). -/
def State.wrote (s : State) (copy : CopyId) (q : Nat) (sel : Selector) : State :=
  { s with
    store := { s.store with
      flash := writeArea s.store.flash (.selector copy) (writeSelector q sel), inflight := none, copy := some copy, seqNo := q }
    act := { s.act with sel := sel } }

/-- The part with the flash that a failed operation leaves. -/
def State.spoiled (s : State) (cells : List Host.Cell) (op : StoreOp) : State :=
  { s with store := { s.store with flash := spoilOp cells s.store.flash op, inflight := none } }

section
variable {s : State} {order : Nat} {purpose : SelPurpose} {sel : Selector} {copy : CopyId} {q : Nat} (n : Nat) {d : Device}
  (h : s.Flies ((controllerWrite order purpose sel).op (copy, q)))
include h

theorem State.exec_selectorWritten (hd : d.failed = false) : exec (.recordWriteCompletion n d) s =
    .next (((s.clockTo n).wrote copy q sel).selectorWritten (controllerWrite order purpose sel)).settle := by
  refine congrArg Host.Outcome.next ((State.completion_alone (p := OpKind.isRecordWrite) n d h rfl).trans ?_)
  have hperf : ∀ u : State, u.perform ((controllerWrite order purpose sel).op (copy, q)) d =
      (writeArea u.store.flash (.selector copy) (writeSelector q sel), .ok) := fun u => if_neg (by simp [hd])
  unfold State.freed
  rw [hperf, hperf]
  rfl

theorem State.exec_selectorFailed (hd : d.failed = true) : exec (.recordWriteCompletion n d) s =
    .next (((s.clockTo n).spoiled d.cells ((controllerWrite order purpose sel).op (copy, q))).selectorFailed
      (controllerWrite order purpose sel)).settle := by
  refine congrArg Host.Outcome.next ((State.completion_alone (p := OpKind.isRecordWrite) n d h rfl).trans ?_)
  have hperf : ∀ u : State, u.perform ((controllerWrite order purpose sel).op (copy, q)) d =
      (spoilOp d.cells u.store.flash ((controllerWrite order purpose sel).op (copy, q)), .failed) := fun u => if_pos hd
  unfold State.freed
  rw [hperf, hperf]
  rfl

end

/-! ### The end of the event (log entry 8) -/

theorem State.testFlow_restart (j : Fin 128) (s : State) : (s.testFlow j).port.dirty.restart = s.port.dirty.restart := by
  have hput : ∀ x, (s.putFlow j x).port.dirty.restart = s.port.dirty.restart := fun x => by
    unfold State.putFlow
    simp only
    split <;> rfl
  unfold State.testFlow
  split
  · split
    · split <;> exact hput _
    · rfl
  · rfl
  · rfl

/-- The RESTART mark stands to the end of an event of a calm part (R175). -/
theorem State.settle_restart {s : State} (h : s.Calm) : s.settle.port.dirty.restart = s.port.dirty.restart := by
  have hretest : ∀ u : State, u.retest.port.dirty.restart = u.port.dirty.restart := fun u => by
    unfold State.retest
    split
    · exact walk_same (fun v : State => v.port.dirty.restart) State.testFlow State.testFlow_restart _ _
    · rfl
  have hpace : ∀ u : State, u.workPace.cutCredits.port.dirty.restart = u.port.dirty.restart := fun u => by
    unfold State.workPace
    split <;> rfl
  have hprio : ∀ u : State, u.priorityEnd.port.dirty.restart = u.port.dirty.restart := fun u => by
    unfold State.priorityEnd
    split
    · exact (hpace _).trans (hretest u)
    · exact hretest u
  rw [State.settle, State.settleWith_calm false h]
  exact (hprio _).trans (hretest s)

theorem State.clearWriteMark_idle {s : State} (h : s.StoreIdle) :
    s.clearWriteMark = { s with act := { s.act with writeInFlight := false } } := by
  rw [State.clearWriteMark, State.storeOps_idle h, List.any_nil, Bool.and_false]

/-! ### A write done well (R158, R164, R166, R169) -/

/-- An event that ends with no mark set ends as it stands. -/
theorem State.settle_as {s x y : State} (hm : s.MarksClear) (h : x = y) (hev : y.ev = s.ev) : x.settle = y := by
  rw [h, State.settle_of_ev hm hev]

section
variable {s : State} {w : RetriedWrite} (hidle : s.StoreIdle) (hm : s.MarksClear)
include hidle

/-- Behind a write done well the mark is clear, and a retry that it ends is over. -/
theorem State.selectorWritten_base : ∃ retry due, s.clearWriteMark.endRetry w.order =
    { s with act := { s.act with writeInFlight := false, retry := retry, retryDue := due } } := by
  rw [State.clearWriteMark_idle hidle]
  exact State.endRetry_eq _ _

/-- The commit leaves RESTARTING. -/
theorem State.written_commit (hp : w.purpose = .commit) :
    let t := (s.selectorWritten w).settle
    t.act.writeInFlight = false ∧ t.act.state = .restarting ∧ t.dist.serve = [] ∧ t.port.dirty.restart = true := by
  obtain ⟨retry, due, hbase⟩ := State.selectorWritten_base (w := w) hidle
  obtain ⟨x, hx⟩ : ∃ x, s.clearWriteMark.endRetry w.order = x := ⟨_, rfl⟩
  have hxact : x.act.writeInFlight = false := by rw [← hx, hbase]
  have hwritten : s.selectorWritten w = x.enterRestarting.markRestart := by simp only [State.selectorWritten, hx, hp]
  have hact : x.enterRestarting.markRestart.act = { x.act with state := .restarting } :=
    State.act_of_beside x.enterRestarting_beside
  have hcalm : x.enterRestarting.markRestart.Calm := by
    rw [State.Calm, hact]
    exact ⟨nofun, nofun⟩
  obtain ⟨hbeside, -⟩ := State.settleWith_calm_same false hcalm
  intro t
  have hact' : t.act = { x.act with state := .restarting } := by
    rw [← hact, ← State.act_of_beside hbeside]
    exact congrArg (fun u : State => u.settle.act) hwritten
  have hdist : t.dist = { x.dist with serve := [] } := by
    refine (congrArg (fun u : State => u.settle.dist) hwritten).trans ((State.dist_of_beside hbeside).trans ?_)
    exact State.dist_of_beside x.enterRestarting_beside
  refine ⟨by rw [hact']; exact hxact, by rw [hact'], by rw [hdist], ?_⟩
  exact (congrArg (fun u : State => u.settle.port.dirty.restart) hwritten).trans (State.settle_restart hcalm)

include hm

/-- Any other write leaves the controller's state; a revert marks RESTART, and a confirmation is answered and stops its timer. -/
theorem State.written_other (hp : w.purpose ≠ .commit) :
    let t := (s.selectorWritten w).settle
    t.act.writeInFlight = false ∧ t.act.state = s.act.state ∧ (w.purpose = .revert → t.port.dirty.restart = true) ∧
      ∀ tag, w.purpose = .confirm tag → t.act.confirmDue = none ∧
        t.port.replies = s.port.replies ++ [{ tag := tag, status := .ok, view := none }] := by
  obtain ⟨retry, due, hbase⟩ := State.selectorWritten_base (w := w) hidle
  obtain ⟨x, hx⟩ : ∃ x, s.clearWriteMark.endRetry w.order = x := ⟨_, rfl⟩
  have hmark : x.act.writeInFlight = false := by rw [← hx, hbase]
  have hstate : x.act.state = s.act.state := by rw [← hx, hbase]
  have hreplies : x.port.replies = s.port.replies := by rw [← hx, hbase]
  have hev : x.ev = s.ev := by rw [← hx, hbase]
  intro t
  cases hw : w.purpose with
  | commit => exact absurd hw hp
  | revert =>
    have ht : t = x.markRestart := State.settle_as hm (by simp only [State.selectorWritten, hx, hw]) hev
    rw [ht]
    exact ⟨hmark, hstate, fun _ => rfl, nofun⟩
  | confirm tag =>
    have ht : t = State.reply tag .ok { x with act := { x.act with confirmDue := none, confirmHeld := false } } :=
      State.settle_as hm (by simp only [State.selectorWritten, hx, hw]) hev
    rw [ht]
    refine ⟨hmark, hstate, nofun, fun tag' htag => ?_⟩
    cases htag
    exact ⟨rfl, congrArg (· ++ [_]) hreplies⟩
  | recovery changes =>
    cases changes with
    | true =>
      have ht : t = x.markRestart := State.settle_as hm (by simp only [State.selectorWritten, hx, hw, if_true]) hev
      rw [ht]
      exact ⟨hmark, hstate, nofun, nofun⟩
    | false =>
      have ht : t = x :=
        State.settle_as hm (by simp only [State.selectorWritten, hx, hw, Bool.false_eq_true, if_false]) hev
      rw [ht]
      exact ⟨hmark, hstate, nofun, nofun⟩
  | trialStart | clearRevert =>
    have ht : t = x := State.settle_as hm (by simp only [State.selectorWritten, hx, hw]) hev
    rw [ht]
    exact ⟨hmark, hstate, nofun, nofun⟩

/-! ### A write that failed (R158, R164, R166, R169) -/

/-- A failed commit leaves the controller WAITING while a gate is shut. -/
theorem State.failed_commit_shut (hp : w.purpose = .commit) (hg : ¬s.GatesOpen) :
    (s.selectorFailed w).settle.act = { s.act with state := .waiting, writeInFlight := false } := by
  have hfailed : s.selectorFailed w = { s with act := { s.act with state := .waiting, writeInFlight := false } } := by
    simp only [State.selectorFailed, State.clearWriteMark_idle hidle, hp]
    exact State.gateTest_shut hg
  rw [State.settle_as hm hfailed rfl]

omit hm in
/-- With the four gates open it evacuates, or commits, again (log entry 11). -/
theorem State.failed_commit_open (hp : w.purpose = .commit) (hg : s.GatesOpen) :
    Entered { s with act := { s.act with state := .waiting, writeInFlight := false } } (s.selectorFailed w).settle := by
  have hfailed : s.selectorFailed w =
      (State.beginEvacuation { s with act := { s.act with state := .waiting, writeInFlight := false } }).endCheck := by
    simp only [State.selectorFailed, State.clearWriteMark_idle hidle, hp]
    exact State.gateTest_open rfl hg
  rw [hfailed]
  exact (State.beginEvacuation_enters
    (s := { s with act := { s.act with state := .waiting, writeInFlight := false } }) hidle).settle

/-- A failed revert waits for the retry timer. -/
theorem State.failed_revert (hp : w.purpose = .revert) :
    let t := (s.selectorFailed w).settle
    t.act.state = s.act.state ∧ t.act.writeInFlight = false ∧
      (s.act.retry = none → t.act.retry = some w ∧ t.act.retryDue = some (s.now + 1000)) := by
  obtain ⟨x, hx⟩ : ∃ x : State, { s with act := { s.act with writeInFlight := false } } = x := ⟨_, rfl⟩
  obtain ⟨retry, due, hretry, hfirst⟩ := State.startRetry_eq x w
  have hfailed : s.selectorFailed w = { x with act := { x.act with retry := retry, retryDue := due } } := by
    simp only [State.selectorFailed, State.clearWriteMark_idle hidle, hp, hx, hretry]
  rw [State.settle_as hm hfailed (by rw [← hx])]
  subst hx
  exact ⟨rfl, rfl, hfirst⟩

/-- A failed confirmation is answered BUSY. -/
theorem State.failed_confirm {tag : Tag} (hp : w.purpose = .confirm tag) (hh : s.act.confirmHeld = false) :
    (s.selectorFailed w).settle = State.reply tag .busy { s with act := { s.act with writeInFlight := false } } := by
  have hfailed : s.selectorFailed w = State.reply tag .busy { s with act := { s.act with writeInFlight := false } } := by
    simp only [State.selectorFailed, State.clearWriteMark_idle hidle, hp, State.reply_act, hh, Bool.false_and,
      Bool.false_eq_true, if_false]
  rw [State.settle_as hm hfailed rfl]

end

/-- What the expiry that was held makes of an idle store: RESTARTING, with the revert in flight (R166, R169). -/
theorem State.confirmExpired_held {s : State} (h : s.StoreIdle) :
    s.confirmExpired.act.confirmHeld = false ∧ s.confirmExpired.port.replies = s.port.replies := by
  obtain ⟨z, hz⟩ : ∃ z, State.enterRestarting { s with act := { s.act with confirmHeld := false } } = z := ⟨_, rfl⟩
  have hbeside := State.enterRestarting_beside { s with act := { s.act with confirmHeld := false } }
  rw [hz] at hbeside
  have hidle : z.ordered.StoreIdle := by
    have hstore : z.store = s.store := (State.store_of_beside hbeside :)
    exact ⟨(congrArg StoreUnit.inflight hstore).trans h.1, (congrArg StoreUnit.waiting hstore).trans h.2⟩
  have hexp : s.confirmExpired = z.ordered.submitRetried (controllerWrite z.store.orders .revert s.act.sel.reverted) := by
    rw [← hz]
    rfl
  rw [hexp, State.submitRetried_idle hidle rfl]
  exact ⟨congrArg ActivationUnit.confirmHeld (State.act_of_beside hbeside), congrArg Still.replies (State.still_of_beside hbeside)⟩

/-- A failed confirmation under which the confirm timer's expiry was held (R169). -/
theorem State.failed_confirm_held {s : State} {w : RetriedWrite} {tag : Tag} (hidle : s.StoreIdle) (hp : w.purpose = .confirm tag)
    (hh : s.act.confirmHeld = true) :
    let t := (s.selectorFailed w).settle
    t.act.state = .restarting ∧ t.act.confirmHeld = false ∧
      t.port.replies = s.port.replies ++ [{ tag := tag, status := .busy, view := none }] ∧
      t.Flies ((controllerWrite s.store.orders .revert s.act.sel.reverted).op s.nextSelector) := by
  obtain ⟨x, hx⟩ : ∃ x : State, State.reply tag .busy { s with act := { s.act with writeInFlight := false } } = x := ⟨_, rfl⟩
  have hxidle : x.StoreIdle := by rw [← hx]; exact hidle
  have hfailed : s.selectorFailed w = x.confirmExpired := by
    have hnone : x.storeOps.any StoreOp.isConfirm = false := by rw [State.storeOps_idle hxidle]; rfl
    have hxheld : x.act.confirmHeld = true := by rw [← hx]; exact hh
    simp only [State.selectorFailed, State.clearWriteMark_idle hidle, hp, hx, hnone, hxheld, Bool.not_false, Bool.and_self, if_true]
  obtain ⟨hstate, -, -, -, hflies⟩ := State.confirmExpired_idle hxidle
  obtain ⟨hheld, hreplies⟩ := State.confirmExpired_held hxidle
  have hcalm : x.confirmExpired.Calm := by rw [State.Calm, hstate]; exact ⟨nofun, nofun⟩
  obtain ⟨hbeside, -⟩ := State.settleWith_calm_same false hcalm
  have hact := State.act_of_beside hbeside
  have hstore := State.store_of_beside hbeside
  rw [hfailed]
  refine ⟨(congrArg ActivationUnit.state hact).trans hstate, (congrArg ActivationUnit.confirmHeld hact).trans hheld,
    (congrArg Still.replies (State.still_of_beside hbeside)).trans (hreplies.trans (by rw [← hx]; rfl)), ?_, ?_⟩
  · refine (congrArg StoreUnit.inflight hstore).trans (hflies.1.trans ?_)
    rw [← hx]
    rfl
  · exact (congrArg StoreUnit.waiting hstore).trans hflies.2

end Sys2Proof.Machine
end

section
/-! SUPPORT. Proofs: the writes of the book and of the staged configuration (R86, R140), and O48 put together. -/

namespace Sys2Proof.Machine

section
variable {s : State} {a : Area} {v : Nat} {body : List Byte} {o : Owner} (n : Nat) {d : Device}
  (h : s.Flies { owner := o, kind := .recordWrite a v body })
include h

/-- A record write done well is delivered with the record in its area (R134). -/
theorem State.exec_recordWritten (hd : d.failed = false) : exec (.recordWriteCompletion n d) s = .next
    (State.deliver { owner := o, kind := .recordWrite a v body } .ok (s.vacated n (writeArea s.store.flash a body))).settle := by
  refine congrArg Host.Outcome.next ((State.completion_alone (p := OpKind.isRecordWrite) n d h rfl).trans ?_)
  have hperf : ∀ u : State, u.perform { owner := o, kind := .recordWrite a v body } d = (writeArea u.store.flash a body, .ok) :=
    fun u => if_neg (by simp [hd])
  rw [State.freed_plain d rfl, hperf, hperf]
  rfl

/-- One that failed is delivered with the area as the device left it. -/
theorem State.exec_recordFailed (hd : d.failed = true) : exec (.recordWriteCompletion n d) s = .next
    (State.deliver { owner := o, kind := .recordWrite a v body } .failed
      (s.vacated n (spoilOp d.cells s.store.flash { owner := o, kind := .recordWrite a v body }))).settle := by
  refine congrArg Host.Outcome.next ((State.completion_alone (p := OpKind.isRecordWrite) n d h rfl).trans ?_)
  have hperf : ∀ u : State, u.perform { owner := o, kind := .recordWrite a v body } d =
      (spoilOp d.cells u.store.flash { owner := o, kind := .recordWrite a v body }, .failed) := fun u => if_pos hd
  rw [State.freed_plain d rfl, hperf, hperf]
  rfl

end

/-- Settles O48: the queue behind any record write; then, with nothing behind it, by the unit that submitted the write and by
whether it was done well. -/
theorem recordWritesComplete : Obligations.RecordWritesComplete := by
  unfold Obligations.RecordWritesComplete
  refine ⟨fun n d s op hi hk => State.write_queueMoves n d hi hk, fun n d s hr hm =>
    ⟨fun order purpose sel copy q h => ⟨fun hd => ?_, fun hd => ?_⟩, fun v body h => ⟨fun hd howed => ?_, fun hd => ?_⟩, fun tag v body h => ?_⟩⟩
  · obtain ⟨w, hw⟩ : ∃ w, controllerWrite order purpose sel = w := ⟨_, rfl⟩
    obtain ⟨x, hx⟩ : ∃ x, (s.clockTo n).wrote copy q sel = x := ⟨_, rfl⟩
    have hexec : exec (.recordWriteCompletion n d) s = .next (x.selectorWritten w).settle := by
      rw [← hw, ← hx]
      exact State.exec_selectorWritten n h hd
    have hfixed : (x.selectorWritten w).settle.fixed = x.fixed := (State.settle_fixed _).trans (State.selectorWritten_fixed w x)
    have hxidle : x.StoreIdle := by rw [← hx]; exact ⟨rfl, h.2⟩
    have hxm : x.MarksClear := by rw [← hx]; exact hm
    have hpurpose : w.purpose = purpose := by rw [← hw]; rfl
    have hxstate : x.act.state = s.act.state := by rw [← hx]; rfl
    have hxreplies : x.port.replies = s.port.replies := by rw [← hx]; rfl
    refine ⟨_, hexec, (congrArg Fixed.sel hfixed).trans (by rw [← hx]; rfl), (congrArg Fixed.copy hfixed).trans (by rw [← hx]; rfl),
      (congrArg Fixed.seqNo hfixed).trans (by rw [← hx]; rfl), ?_, (congrArg Fixed.flash hfixed).trans (by rw [← hx]; rfl), ?_⟩
    · by_cases hp : purpose = .commit
      · exact (State.written_commit hxidle (hpurpose.trans hp)).1
      · exact (State.written_other hxidle hxm (by rwa [hpurpose])).1
    · refine ⟨fun hp => (State.written_commit hxidle (hpurpose.trans hp)).2, fun hp => ?_, fun tag hp => ?_⟩
      · obtain ⟨-, hstate, hrestart, -⟩ := State.written_other (w := w) hxidle hxm (by rw [hpurpose, hp]; exact nofun)
        exact ⟨hrestart (hpurpose.trans hp), hstate.trans hxstate⟩
      · obtain ⟨-, -, -, hconfirm⟩ := State.written_other (w := w) hxidle hxm (by rw [hpurpose, hp]; exact nofun)
        rw [← hxreplies]
        exact hconfirm tag (hpurpose.trans hp)
  · obtain ⟨w, hw⟩ : ∃ w, controllerWrite order purpose sel = w := ⟨_, rfl⟩
    obtain ⟨op, hop⟩ : ∃ op : StoreOp, (controllerWrite order purpose sel).op (copy, q) = op := ⟨_, rfl⟩
    obtain ⟨x, hx⟩ : ∃ x, (s.clockTo n).spoiled d.cells op = x := ⟨_, rfl⟩
    have hexec : exec (.recordWriteCompletion n d) s = .next (x.selectorFailed w).settle := by
      rw [← hw, ← hx, ← hop]
      exact State.exec_selectorFailed n h hd
    have hfixed : (x.selectorFailed w).settle.fixed = x.fixed := (State.settle_fixed _).trans (State.selectorFailed_fixed w x)
    have hflash : (x.selectorFailed w).settle.store.flash = spoilOp d.cells s.store.flash op :=
      (congrArg Fixed.flash hfixed).trans (by rw [← hx]; rfl)
    obtain ⟨hother, hown⟩ := spoilOp_selector d.cells s.store.flash (op := op) (by rw [← hop]; rfl)
    have hxidle : x.StoreIdle := by rw [← hx]; exact ⟨rfl, h.2⟩
    have hxm : x.MarksClear := by rw [← hx]; exact hm
    have hpurpose : w.purpose = purpose := by rw [← hw]; rfl
    have hxact : x.act = s.act := by rw [← hx]; rfl
    have hxreplies : x.port.replies = s.port.replies := by rw [← hx]; rfl
    have hxnow : x.now = max s.now n := by rw [← hx]; rfl
    have hgates : x.GatesOpen ↔ s.GatesOpen := by rw [← hx]; exact Iff.rfl
    refine ⟨_, hexec, (congrArg Fixed.sel hfixed).trans (by rw [← hx]; rfl), (congrArg Fixed.copy hfixed).trans (by rw [← hx]; rfl),
      (congrArg Fixed.seqNo hfixed).trans (by rw [← hx]; rfl), by rw [hflash]; exact hother, by rw [hflash]; exact hown,
      fun hp => ⟨fun hshut => ?_, fun hopen => ?_⟩, fun hp => ?_, fun tag hp => ?_⟩
    · rw [State.failed_commit_shut hxidle hxm (hpurpose.trans hp) (mt hgates.mp hshut), hxact]
    · refine (State.failed_commit_open hxidle (hpurpose.trans hp) (hgates.mpr hopen)).evacuates hxnow ?_ ?_ ?_ ?_ ?_
      · rw [hxact]
      · rw [← hx]; rfl
      · rw [← hx]; rfl
      · rw [← hx]; rfl
      · rw [← hx]; exact Iff.rfl
    · obtain ⟨hstate, hmark, hretry⟩ := State.failed_revert hxidle hxm (hpurpose.trans hp)
      rw [hxact] at hstate hretry
      rw [hxnow] at hretry
      refine ⟨hstate, hmark, fun hnone => ?_⟩
      obtain ⟨hsome, hdue⟩ := hretry hnone
      exact ⟨w, hsome, by rw [← hw]; rfl, hdue⟩
    · cases hh : s.act.confirmHeld with
      | false =>
        rw [State.failed_confirm hxidle hxm (hpurpose.trans hp) (by rw [hxact, hh])]
        refine ⟨congrArg (· ++ [_]) hxreplies, fun _ => ?_, nofun⟩
        exact congrArg (fun act : ActivationUnit => { act with writeInFlight := false }) hxact
      | true =>
        obtain ⟨hstate, hheld, hreplies, hflies⟩ := State.failed_confirm_held hxidle (hpurpose.trans hp) (by rw [hxact, hh])
        refine ⟨hreplies.trans (by rw [hxreplies]), nofun, fun _ => ⟨hstate, hheld, ?_⟩⟩
        have hnext : x.nextSelector = s.nextSelector := by rw [← hx]; rfl
        have horders : x.store.orders = s.store.orders := by rw [← hx]; rfl
        rw [hnext, horders, hxact] at hflies
        exact hflies
  · rw [State.exec_recordWritten n h hd]
    refine congrArg Host.Outcome.next ?_
    have hbook : ∀ u : State, u.sched.writeOwed = false →
        u.bookWritten true = { u with sched := { u.sched with writeInFlight := false } } := fun u hu => State.submitBook_unowed hu
    refine (congrArg State.settle (hbook (s.vacated n (writeArea s.store.flash .book body)) howed)).trans ?_
    exact State.settle_of_ev hm rfl
  · rw [State.exec_recordFailed n h hd]
    refine ⟨_, congrArg Host.Outcome.next (State.settle_of_ev hm rfl), rfl, rfl⟩
  · cases hd : d.failed with
    | false =>
      rw [State.exec_recordWritten n h hd]
      exact ⟨_, congrArg Host.Outcome.next (State.settle_of_ev hm rfl), rfl, fun _ => rfl⟩
    | true =>
      rw [State.exec_recordFailed n h hd]
      exact ⟨_, congrArg Host.Outcome.next (State.settle_of_ev hm rfl), rfl, nofun⟩

end Sys2Proof.Machine
end
